-- ==== Sys2Proof/Word.lean ====
section
/-!
DEFINITION. The words of the TLN-4C48: instruction words, lanes, bytes, masks, register fields (R9, R116, R146).
-/

namespace Sys2Proof

/-- One 32-bit instruction, header or extension word. -/
abbrev Word := BitVec 32

/-- The 64 bits one lane of a vector register holds. -/
abbrev Lane := BitVec 64

/-- One byte of memory. -/
abbrev Byte := BitVec 8

/-- A set of lanes: bit l is lane l. -/
abbrev Mask := BitVec 32

/-- A register field of an instruction word. -/
abbrev Reg := BitVec 6

/-- Bits `lo + n - 1` to `lo` of a word. -/
abbrev Word.fld (w : Word) (lo n : Nat) : BitVec n := w.extractLsb' lo n

/-- One bit of a word. -/
abbrev Word.bit (w : Word) (i : Nat) : Bool := w.getLsbD i

end Sys2Proof
end

