-- ==== Sys2Proof/Syntax.lean ====
section
/-!
DEFINITION. The whole of the device's language: one constructor of `Instr` for each row of spec/opcode_table.json.
Rows of program words carry their operand fields (R146 to R162); rows that are steps of the device's own agents, of
the host, of the driver or of a peer carry what that agent supplies. A field keeps the width its encoding gives it, so a
value the instruction refuses when it issues (cause 0x0A or 0x0B) can be written here.
-/

namespace Sys2Proof

/-- Element size of a clause (R140). -/
inductive Es | e8 | e16 | e32 | e64
deriving DecidableEq, Repr

/-- The guard field g (R148). -/
inductive Guard
  | always
  | pos (d : BitVec 2)
  | neg (d : BitVec 2)
deriving DecidableEq, Repr

/-- The lane crossbar of source B (R149), m from 000 to 110. -/
inductive Perm | ident | rot1 | rdn1 | mir | bfly1 | bfly2 | bc0
deriving DecidableEq, Repr

/-- Fields 5:0 of the float control word (R160). -/
structure FCtl where
  rm   : BitVec 2
  h    : Bool
  fzo  : Bool
  fzi  : Bool
  satc : Bool
deriving DecidableEq, Repr

/-- Source B of a Float pair opcode: a register with its control word, or the immediate of R151. -/
inductive FSrc
  | reg (b : Reg) (p : Perm) (ctl : FCtl)
  | imm (v : Word)
deriving DecidableEq, Repr

/-- The shift operand of `rshr` (R176): a register, or shamt under SI = 1. -/
inductive ShiftSrc
  | reg (b : Reg) (p : Perm)
  | imm (s : BitVec 6)
deriving DecidableEq, Repr

/-- Conditions of `cmp` (R161). -/
inductive CmpCond | eq | ne | ltI | leI | gtI | geI | ltN | leN | gtN | geN
deriving DecidableEq, Repr

/-- Conditions of `fcmp` (R161). -/
inductive FCond | eq | ne | lt | le | gt | ge | unord | ord
deriving DecidableEq, Repr

/-- Modes of `shfl` (R161). -/
inductive ShflMode | at | back | fwd | swap | rot
deriving DecidableEq, Repr

/-- Forms of `vote` (R161). -/
inductive VoteOp | or | and | eqv | bits | cnt
deriving DecidableEq, Repr

/-- Operations of `redux` (R161). -/
inductive ReduxOp | add | minI | minN | maxI | maxN | and | or | xor | fadd | fmin | fmax
deriving DecidableEq, Repr

/-- Operations of `amo` (R161). -/
inductive AmoOp | swap | cas | add | and | or | xor | minI | maxI | minN | maxN | fadd
deriving DecidableEq, Repr

/-- Element type codes (R162). -/
inductive Ty
  | i8 | i16 | i32 | i64 | n8 | n16 | n32 | n64 | f16 | bf16 | f32 | f64
  | e4m3 | e5m2 | e3m2 | e2m3 | e2m1 | e8m0
deriving DecidableEq, Repr

/-- The member mask of a synchronising instruction (R200). -/
inductive MaskSrc
  | full
  | reg (c : Reg)
deriving DecidableEq, Repr

/-- The choice operand of `sel` (R208). -/
inductive SelSrc
  | mask (c : Reg)
  | pred (dep : BitVec 2)
deriving DecidableEq, Repr

/-- The base of `iota` (R212). -/
inductive IotaBase
  | imm (base : BitVec 11)
  | reg (a : Reg)
deriving DecidableEq, Repr

/-- A 16-bit immediate count minus one, or a register: `lset`, `sleep`, `gridgrow`. -/
inductive Src16
  | imm (v : BitVec 16)
  | reg (a : Reg)
deriving DecidableEq, Repr

/-- The 10-bit count minus one of `bar`, or a register (R287). -/
inductive Src10
  | imm (v : BitVec 10)
  | reg (a : Reg)
deriving DecidableEq, Repr

/-- The operand of `asset` (R218). -/
inductive Src12
  | imm (v : BitVec 12)
  | reg (a : Reg)
deriving DecidableEq, Repr

/-- The fields a format-M word names: stream, offset register, order and size (R146). -/
structure MemOp where
  stream : BitVec 4
  off    : Reg
deriving DecidableEq, Repr

/-- The fields of a memory extension word, with the X and order bits of the word it extends (R241, R242). -/
structure MemExt where
  x     : Bool
  order : BitVec 2
  scope : BitVec 3
  hint  : BitVec 2
  sx    : Bool
deriving DecidableEq, Repr

/-- The header operand of `pld` and `pst` and its scope (R271). -/
structure PanelExt where
  c     : Reg
  hs    : BitVec 4
  h     : Reg
  j     : BitVec 3
  hi    : Bool
  ph    : Bool
  scope : BitVec 3
deriving DecidableEq, Repr

/-- The header place of `qnt` and `dqnt` (R274, R275). -/
structure PanelPos where
  h  : Reg
  j  : BitVec 3
  hi : Bool
  ph : Bool
deriving DecidableEq, Repr

/-- Fields 18:0 of `mcfg`'s extension word, FULL apart (R261). -/
structure McfgExt where
  acc    : BitVec 2
  passes : BitVec 3
  prio   : BitVec 2
  sb     : BitVec 3
  cls    : BitVec 2
  int    : Bool
  z      : Bool
deriving DecidableEq, Repr

/-- The extension word of `pump` but c (R280). -/
structure PumpExt where
  s    : BitVec 4
  d    : BitVec 4
  t    : BitVec 2
  fl   : Bool
  kind : BitVec 2
  sl   : BitVec 3
deriving DecidableEq, Repr

/-- The extension word of `coll` but c (R283). -/
structure CollExt where
  s   : BitVec 4
  d   : BitVec 4
  op  : BitVec 2
  fmt : BitVec 2
deriving DecidableEq, Repr

/-- One flit of a Ubend port (R380): its fields, the payload bytes used, and the CRC-32 that came with it. -/
structure Flit where
  kind    : BitVec 4
  vc      : BitVec 2
  seq     : BitVec 16
  ack     : BitVec 16
  freed   : List (BitVec 16)
  dst     : BitVec 9
  src     : BitVec 9
  payload : List (BitVec 8)
  crc     : BitVec 32 := 0
deriving DecidableEq, Repr

/-- What an error strikes in a cluster (R87, R328, R395): a word of memory, one lane of a register, or bits of a word of an
alteration-store entry. -/
inductive ErrTarget
  | memory (key : Nat)
  | register (sk : Nat) (reg : Reg) (lane : Nat)
  | store (core : Nat) (pc : Lane) (word : Nat) (bits : Word)
deriving DecidableEq, Repr

/-- The language. Program words first, in the opcode table's order; then the device's own steps. -/
inductive Instr
  -- integer and bit instructions (R169 to R180)
  | nop (g : Guard)
  | mov (g : Guard) (d b : Reg) (p : Perm)
  | movImm (g : Guard) (d : Reg) (imm : Word)
  | movi (g : Guard) (d : Reg) (imm : BitVec 9)
  | add (g : Guard) (d a b : Reg) (p : Perm)
  | addImm (g : Guard) (d a : Reg) (imm : Word)
  | sub (g : Guard) (d a b : Reg) (p : Perm)
  | subImm (g : Guard) (d a : Reg) (imm : Word)
  | addsatI (g : Guard) (d a b : Reg) (p : Perm)
  | addsatIImm (g : Guard) (d a : Reg) (imm : Word)
  | addsatN (g : Guard) (d a b : Reg) (p : Perm)
  | addsatNImm (g : Guard) (d a : Reg) (imm : Word)
  | subsatI (g : Guard) (d a b : Reg) (p : Perm)
  | subsatIImm (g : Guard) (d a : Reg) (imm : Word)
  | subsatN (g : Guard) (d a b : Reg) (p : Perm)
  | subsatNImm (g : Guard) (d a : Reg) (imm : Word)
  | mul (g : Guard) (d a b : Reg) (p : Perm)
  | mulImm (g : Guard) (d a : Reg) (imm : Word)
  | mulhiI (g : Guard) (d a b : Reg) (p : Perm)
  | mulhiIImm (g : Guard) (d a : Reg) (imm : Word)
  | mulhiN (g : Guard) (d a b : Reg) (p : Perm)
  | mulhiNImm (g : Guard) (d a : Reg) (imm : Word)
  | minI (g : Guard) (d a b : Reg) (p : Perm)
  | minIImm (g : Guard) (d a : Reg) (imm : Word)
  | minN (g : Guard) (d a b : Reg) (p : Perm)
  | minNImm (g : Guard) (d a : Reg) (imm : Word)
  | maxI (g : Guard) (d a b : Reg) (p : Perm)
  | maxIImm (g : Guard) (d a : Reg) (imm : Word)
  | maxN (g : Guard) (d a b : Reg) (p : Perm)
  | maxNImm (g : Guard) (d a : Reg) (imm : Word)
  | and (g : Guard) (d a b : Reg) (p : Perm)
  | andImm (g : Guard) (d a : Reg) (imm : Word)
  | or (g : Guard) (d a b : Reg) (p : Perm)
  | orImm (g : Guard) (d a : Reg) (imm : Word)
  | xor (g : Guard) (d a b : Reg) (p : Perm)
  | xorImm (g : Guard) (d a : Reg) (imm : Word)
  | andn (g : Guard) (d a b : Reg) (p : Perm)
  | andnImm (g : Guard) (d a : Reg) (imm : Word)
  | shl (g : Guard) (d a b : Reg) (p : Perm)
  | shlImm (g : Guard) (d a : Reg) (imm : Word)
  | shrN (g : Guard) (d a b : Reg) (p : Perm)
  | shrNImm (g : Guard) (d a : Reg) (imm : Word)
  | shrI (g : Guard) (d a b : Reg) (p : Perm)
  | shrIImm (g : Guard) (d a : Reg) (imm : Word)
  | abs (g : Guard) (d a : Reg)
  | neg (g : Guard) (d a : Reg)
  | not (g : Guard) (d a : Reg)
  | mad (g : Guard) (d a b : Reg) (p : Perm) (c : Reg)
  | mac2 (g : Guard) (d a b : Reg) (p : Perm) (c : Reg)
  | rshr (g : Guard) (d a : Reg) (sh : ShiftSrc) (u he : Bool) (nw : Option Reg)
  | popc (g : Guard) (d a : Reg)
  | clz (g : Guard) (d a : Reg)
  | brev (g : Guard) (d a : Reg)
  | bfxI (g : Guard) (d a : Reg) (pos len1 : BitVec 6)
  | bfxN (g : Guard) (d a : Reg) (pos len1 : BitVec 6)
  | bfi (g : Guard) (d a c : Reg) (pos len1 : BitVec 6)
  | cmp (g : Guard) (cond : CmpCond) (wd : Option Reg) (a b : Reg) (p : Perm) (np : Bool) (sub : BitVec 3)
  -- floating point, special functions, conversion (R181 to R198)
  | fadd (g : Guard) (d a : Reg) (src : FSrc)
  | fsub (g : Guard) (d a : Reg) (src : FSrc)
  | fmul (g : Guard) (d a : Reg) (src : FSrc)
  | ffma (g : Guard) (d a b : Reg) (p : Perm) (c : Reg) (ctl : FCtl)
  | fscale (g : Guard) (d a b : Reg) (p : Perm) (ctl : FCtl)
  | fmin (g : Guard) (d a : Reg) (src : FSrc)
  | fmax (g : Guard) (d a : Reg) (src : FSrc)
  | fneg (g : Guard) (d a : Reg)
  | fabs (g : Guard) (d a : Reg)
  | fdot2 (g : Guard) (d a b : Reg) (p : Perm) (c : Reg) (ctl : FCtl)
  | frnd (g : Guard) (d a : Reg) (ctl : FCtl)
  | fclass (g : Guard) (d a : Reg) (ctl : FCtl)
  | fcmp (g : Guard) (cond : FCond) (d a b : Reg) (p : Perm) (ctl : FCtl)
  | frcp (g : Guard) (d a : Reg) (ctl : FCtl)
  | frsqrt (g : Guard) (d a : Reg) (ctl : FCtl)
  | fsqrt (g : Guard) (d a : Reg) (ctl : FCtl)
  | fexp2 (g : Guard) (d a : Reg) (ctl : FCtl)
  | flog2 (g : Guard) (d a : Reg) (ctl : FCtl)
  | fsin (g : Guard) (d a : Reg) (ctl : FCtl)
  | fcos (g : Guard) (d a : Reg) (ctl : FCtl)
  | cvt (g : Guard) (dst src : Ty) (d a : Reg) (ctl : FCtl)
  | pack (g : Guard) (dst src : Ty) (d a c : Reg) (part : BitVec 6) (ctl : FCtl)
  | unpack (g : Guard) (dst src : Ty) (d a : Reg) (part : BitVec 6) (ctl : FCtl)
  -- cross-lane, predicate, shape, loop, stream (R199 to R220)
  | shfl (g : Guard) (mode : ShflMode) (d a b : Reg) (mask : MaskSrc) (fill amt : BitVec 8)
  | slide (g : Guard) (down : Bool) (d a : Reg) (nb : Option Reg) (mask : MaskSrc) (fill amt : BitVec 8)
  | vote (g : Guard) (op : VoteOp) (d : Reg) (mask : MaskSrc) (dep : BitVec 2)
  | redux (g : Guard) (op : ReduxOp) (d a : Reg) (mask : MaskSrc) (seg : BitVec 3) (h fzo fzi : Bool)
  | tbl (g : Guard) (d a b : Reg) (wide : Bool) (cnt1 : BitVec 3) (fill : BitVec 8)
  | lid (g : Guard) (d : Reg) (sel : BitVec 4)
  | sel (g : Guard) (d a b : Reg) (p : Perm) (by' : SelSrc)
  | ppush (g : Guard) (a : Reg) (sub : BitVec 6)
  | ppop (g : Guard) (k : BitVec 6)
  | pmovFromPred (g : Guard) (d : Reg)
  | pmovToPred (g : Guard) (a : Reg)
  | plog (g : Guard) (repl : Bool) (tt : BitVec 4) (dx dy : BitVec 3)
  | ppick (g : Guard) (roll : Bool) (k : BitVec 3)
  | tag (g : Guard) (d a : Reg)
  | iota (g : Guard) (d : Reg) (base : IotaBase) (stride : BitVec 8)
  | stk (g : Guard) (d : Reg)
  | rep (cnt1 : BitVec 6) (step : BitVec 4)
  | lset (g : Guard) (n : BitVec 2) (bound : Src16)
  | loop (off : BitVec 21)
  | asset (g : Guard) (n : BitVec 4) (field : BitVec 3) (src : Src12)
  | asget (g : Guard) (d : Reg) (n : BitVec 4) (field : BitVec 3)
  | kget (g : Guard) (d : Reg) (n : BitVec 2) (bnd : Bool)
  -- control (R221 to R238)
  | br (g : Guard) (off : BitVec 21)
  | jmp (g : Guard) (a : Reg)
  | jmpL (g : Guard) (a : Reg)
  | call (g : Guard) (off : BitVec 21)
  | ret (g : Guard)
  | jmpf (g : Guard) (a : Reg) (l : Bool) (n : BitVec 3)
  | exit (g : Guard)
  | yield
  | meld (g : Guard) (p4 : Bool) (db da : BitVec 3)
  | mend (g : Guard)
  | ldpm (g : Guard) (n : BitVec 2) (a : Reg)
  | enter (na : Bool) (id : BitVec 16)
  | leave
  | trap (g : Guard) (code : BitVec 16)
  | brk (g : Guard)
  | sleep (src : Src16)
  | ipref (off : BitVec 21)
  -- memory (R239 to R256)
  | ld (g : Guard) (d : Reg) (m : MemOp) (w : BitVec 2)
  | ldExt (g : Guard) (d : Reg) (m : MemOp) (w : BitVec 2) (e : MemExt)
  | st (g : Guard) (d : Reg) (m : MemOp) (w : BitVec 2)
  | stExt (g : Guard) (d : Reg) (m : MemOp) (w : BitVec 2) (e : MemExt)
  | ldsc (g : Guard) (d : Reg) (m : MemOp) (w : BitVec 2)
  | ldscExt (g : Guard) (d : Reg) (m : MemOp) (w : BitVec 2) (e : MemExt)
  | stsc (g : Guard) (d : Reg) (m : MemOp) (w : BitVec 2)
  | stscExt (g : Guard) (d : Reg) (m : MemOp) (w : BitVec 2) (e : MemExt)
  | sld (g : Guard) (d : Reg) (m : MemOp) (w : BitVec 2)
  | sldExt (g : Guard) (d : Reg) (m : MemOp) (w : BitVec 2) (e : MemExt)
  | sst (g : Guard) (d : Reg) (m : MemOp) (w : BitVec 2)
  | sstExt (g : Guard) (d : Reg) (m : MemOp) (w : BitVec 2) (e : MemExt)
  | srenew (g : Guard) (d : Reg) (m : MemOp)
  | slife (g : Guard) (d : Reg) (m : MemOp)
  | amo (g : Guard) (op : AmoOp) (d : Reg) (m : MemOp) (size : BitVec 3) (order : BitVec 2) (c : Reg) (scope : BitVec 3) (hint : BitVec 2)
  | fence (scope : BitVec 3)
  | waitw (g : Guard) (d : Reg) (m : MemOp) (size : BitVec 3) (order : BitVec 2) (c : Reg) (scope cond : BitVec 3) (t : BitVec 14)
  | prefdL1 (g : Guard) (m : MemOp)
  | prefdL2 (g : Guard) (m : MemOp)
  | codefetch (g : Guard) (n : Reg) (m : MemOp) (size : BitVec 3) (order : BitVec 2) (lines1 : BitVec 10)
  | residReg (g : Guard) (d a b : Reg) (prio : BitVec 3)
  | residPrio (g : Guard) (a : Reg) (prio : BitVec 3)
  | residDemote (g : Guard) (a : Reg) (prio : BitVec 3)
  | residEvict (g : Guard) (n : Reg) (a : Reg)
  | residDrop (g : Guard) (a : Reg)
  | qpush (g : Guard) (a : Reg) (n : BitVec 6)
  | qpop (g : Guard) (d : Reg) (n : BitVec 6)
  -- matrix and panels (R257 to R275)
  | mcfg (g : Guard) (n : Reg) (mask : MaskSrc) (e : McfgExt)
  | msign (n a b c : Reg)
  | maccFrom (g : Guard) (d : Reg) (n : BitVec 2)
  | maccTo (g : Guard) (a : Reg) (n : BitVec 2)
  | mzero (g : Guard) (n : Reg)
  | pld (g : Guard) (d : Reg) (m : MemOp) (size : BitVec 3) (order : BitVec 2) (e : PanelExt)
  | pst (g : Guard) (d : Reg) (m : MemOp) (size : BitVec 3) (order : BitVec 2) (e : PanelExt)
  | qnt (g : Guard) (d a : Reg) (pos : PanelPos) (fmt : BitVec 4) (sat : Bool) (planes : BitVec 4) (sgn ctr : Bool)
  | dqnt (g : Guard) (d a : Reg) (pos : PanelPos)
  -- asynchronous, scheduling, system (R276 to R295)
  | pump (g : Guard) (n a b c : Reg) (e : PumpExt)
  | coll (g : Guard) (n a b c : Reg) (e : CollExt)
  | hwait (g : Guard) (n : BitVec 3)
  | htest (g : Guard) (d : Reg) (n : BitVec 3)
  | hcancel (g : Guard) (n : BitVec 3)
  | tlwait (g : Guard) (n : BitVec 3) (a : Reg)
  | bar (g : Guard) (n : BitVec 5) (cnt : Src10)
  | gbar (g : Guard)
  | launch (g : Guard) (n a : Reg)
  | gridgrow (g : Guard) (d : Reg) (n : Src16)
  | grow
  | shrink
  | sysr (g : Guard) (d : Reg) (num : BitVec 12)
  | sysw (g : Guard) (num : BitVec 12) (a : Reg)
  | tret
  | unassignedOpcode (w : Word)
  -- the device's own steps: placement, barriers, register storage
  | slewArrival (cluster : Nat)
  | dispatchTeam (part : Nat)
  | gridRetire (grid : Nat)
  | barrierWave (release : Nat)
  | growGrant (core quad : Nat)
  | swapIn (sk : Nat)
  | skeinSlotRelease (sk : Nat)
  | syncComplete (sk wait : Nat)
  | memberDeadlock (sk : Nat)
  -- memory system
  | accessPerform (id : Nat)
  | wctReturn (id : Nat)
  | registerWriteLand (sk op : Nat)
  | sourceRelease (sk op : Nat)
  | remoteAcknowledgement (id : Nat) (wct : Lane)
  | faultRecordArrival (id : Nat) (code : Byte)
  | remoteAckTimeout (id : Nat)
  | fenceComplete (sk wait : Nat)
  | waitwReread (sk wait : Nat)
  | waitwTimeout (sk wait : Nat)
  | sleepWake (sk wait : Nat)
  | queueStep (sk wait : Nat)
  | pldHeaderArrival (sk wait : Nat)
  | gridgrowAnswer (sk wait : Nat)
  | dowserEvaluation
  | dowserChunkCopy
  | seepSweepVisit (seep tile : Nat)
  | renewEnd (seep tile : Nat)
  -- engines
  | pumpSegment (op : Nat)
  | operationComplete (op : Nat)
  | collTimeout (op : Nat)
  | matrixPassGrant (core : Nat)
  | matrixPassEnd (core : Nat)
  | lineFill (core : Nat) (line : Nat)
  | watchdogFire (sk : Nat)
  | alteredExecution (sk : Nat)
  | candidateSearch (core : Nat) (pc : Lane) (cand : List Word)
  | bastingCompare (core : Nat) (pc : Lane)
  | seamCheck (core : Nat) (pc : Lane)
  -- contexts, driver and host
  | contextAllocate (pf : Bool) (ctx : Nat)
  | contextStart (pf : Bool) (ctx : Nat)
  | conductorPlace (ctx : Nat)
  | contextSave (pf : Bool) (ctx : Nat)
  | contextHalted (ctx : Nat)
  | imageWriteComplete (ctx : Nat)
  | contextRestore (pf : Bool) (ctx : Nat)
  | restorePlace (ctx : Nat)
  | autoRestore (ctx : Nat)
  | contextKill (pf : Bool) (ctx : Nat)
  | contextRelease (pf : Bool) (ctx : Nat)
  | vfSlotAssign (vf slot : Nat) (value : BitVec 16)
  | bootConfigure (value : Lane)
  | deviceReset
  | hostMemAccess (host : Bool) (addr : Nat) (write : Option (List Byte)) (len : Nat)
  | tlbInvalidate (value : Lane)
  | invalidationComplete
  | faultRetry (ctx : Nat) (seq : BitVec 32)
  | faultFail (ctx : Nat) (seq : BitVec 32)
  | partitionActivate (part : Nat)
  | partitionRekey (part : Nat)
  | partitionRelease (part : Nat)
  | partitionClockWrite (part : Nat) (code : Lane)
  | keySweepLine (part : Nat)
  | sliceBoundary (part : Nat)
  | sessionOpen (part : Nat) (h slice : Nat)
  | heartbeat (part : Nat)
  | heartbeatDeadline (part : Nat)
  -- power, errors, telemetry, debug
  | frequencyStep (cluster : Nat)
  | eccWindow (cluster : Nat)
  | raiseExpiry (cluster : Nat)
  | debugStep (ctx : Nat)
  | idleFlitSend (port : Nat)
  | timeFlitSend (port : Nat)
  | sampleRecord (id : Nat)
  | registerWrite (pf : Bool) (off : Nat) (value : Lane)
  -- steps only the outside supplies: Ubend, power, attestation, debugger
  | getMeasurements (index vf : Nat)
  | challenge (nonce : List Byte)
  | getCertificate
  | tdispLock (vf : Nat)
  | portHold (port : Nat) (hold : Bool)
  | portStateChange (port : Nat) (st : BitVec 4) (far : BitVec 9)
  | flitReceive (port : Nat) (f : Flit)
  | retryRequest (port : Nat) (seq : BitVec 16)
  | loadRequest (src : Nat) (addr : BitVec 52) (size : Nat) (tag : Nat)
  | postedStore (src : Nat) (addr : BitVec 52) (data : List Byte) (tag : Nat)
  | atomicRequest (src : Nat) (addr : BitVec 52) (op : AmoOp) (size : Nat) (y cmpv : Lane) (tag : Nat)
  | response (id : Nat) (data : List Lane)
  | bulk (op rank : Nat) (ok : Bool) (data : List Byte)
  | timeFlitReceive (port : Nat) (sent : Lane) (delay : Nat)
  | timeLockLoss
  | sluiceGroupWrite (group : Nat) (w0 w1 : Lane)
  | powerBlockWrite (cluster : Nat) (value : Lane)
  | powerLimitWrite (value : Lane)
  | powerWindow (watts : Nat)
  | correctableError (cluster : Nat)
  | uncorrectableError (cluster : Nat) (target : ErrTarget)
  | telemetryWindow (watts temp : Nat)
  | debugAttach (ctx : Nat)
  | debugDetach (ctx : Nat)
  | debugReseal (ctx : Nat)
  | debugBlockWrite (ctx off : Nat) (value : Lane)
  | idleFlitReceive (port : Nat) (f : Flit)
deriving DecidableEq, Repr

/-- Causes of the illegal-instruction trap, in the order of R164. -/
inductive Cause
  | unassigned | classMismatch | badGuard | badM | reserved | badFunction | badSize
  | placement | inRegion | range | state
deriving DecidableEq, Repr

/-- The cause code of R164. -/
def Cause.code : Cause → Byte
  | .unassigned => 1 | .classMismatch => 2 | .badGuard => 3 | .badM => 4 | .reserved => 5
  | .badFunction => 6 | .badSize => 7 | .placement => 8 | .inRegion => 9 | .range => 10 | .state => 11

/-- Clause classes (R140). -/
inductive Cls | vector | memory | matrix | async | control | system
deriving DecidableEq, Repr

/-- A clause header's fields (R140); `setA` and `setB` are `none` for 15. -/
structure Header where
  setB  : Option (BitVec 4)
  setA  : Option (BitVec 4)
  wait  : BitVec 12
  cls   : Cls
  es    : Es
  count : BitVec 4
deriving DecidableEq, Repr

end Sys2Proof
end

