-- ==== Sys2Proof/Decode.lean ====
section
/-!
DEFINITION. Words to instructions (R140 to R165) and back. Decoding makes the checks of R164 that a word shows by itself:
0x03 to 0x06 here (0x01 is the instruction `unassignedOpcode`), in that order; the class of an opcode and the fields a
`rep` may step are read here too. Checks that need the skein's state are made by each meaning when it issues.
-/

namespace Sys2Proof

/-! ### Small codes -/

/-- R140: the ES field. -/
def Es.ofBits (b : BitVec 2) : Es :=
  if b = 0 then .e8 else if b = 1 then .e16 else if b = 2 then .e32 else .e64

/-- R140: the code of an element size. -/
def Es.bits : Es → BitVec 2
  | .e8 => 0 | .e16 => 1 | .e32 => 2 | .e64 => 3

/-- The element size in bits. -/
def Es.w : Es → Nat
  | .e8 => 8 | .e16 => 16 | .e32 => 32 | .e64 => 64

/-- R148: the guard field; `none` when bit 3 is clear and bits 2:0 are not zero. -/
def Guard.ofBits (g : BitVec 4) : Option Guard :=
  if g = 0 then some .always
  else if g.getLsbD 3 then
    some (if g.getLsbD 2 then .neg (g.extractLsb' 0 2) else .pos (g.extractLsb' 0 2))
  else none

/-- R148: the bits of a guard. -/
def Guard.bits : Guard → BitVec 4
  | .always => 0
  | .pos d => 2#2 ++ d
  | .neg d => 3#2 ++ d

/-- R149: m from 000 to 110; `none` for 111. -/
def Perm.ofBits (m : BitVec 3) : Option Perm :=
  if m = 0 then some .ident else if m = 1 then some .rot1 else if m = 2 then some .rdn1
  else if m = 3 then some .mir else if m = 4 then some .bfly1 else if m = 5 then some .bfly2
  else if m = 6 then some .bc0 else none

/-- R149: the bits of a crossbar selection. -/
def Perm.bits : Perm → BitVec 3
  | .ident => 0 | .rot1 => 1 | .rdn1 => 2 | .mir => 3 | .bfly1 => 4 | .bfly2 => 5 | .bc0 => 6

/-- R160: bits 5:0 of the float control word. -/
def FCtl.ofBits (b : BitVec 6) : FCtl :=
  ⟨b.extractLsb' 3 2, b.getLsbD 2, b.getLsbD 1, b.getLsbD 0, b.getLsbD 5⟩

/-- One bit. -/
def bit1 (b : Bool) : BitVec 1 := BitVec.ofBool b

/-- R160: the bits of a float control. -/
def FCtl.bits (c : FCtl) : BitVec 6 :=
  bit1 c.satc ++ c.rm ++ bit1 c.h ++ bit1 c.fzo ++ bit1 c.fzi

/-- R162: the type of a code. -/
def Ty.ofBits (b : BitVec 5) : Option Ty :=
  match b.toNat with
  | 0 => some .i8 | 1 => some .i16 | 2 => some .i32 | 3 => some .i64
  | 4 => some .n8 | 5 => some .n16 | 6 => some .n32 | 7 => some .n64
  | 8 => some .f16 | 9 => some .bf16 | 10 => some .f32 | 11 => some .f64
  | 12 => some .e4m3 | 13 => some .e5m2 | 14 => some .e3m2 | 15 => some .e2m3
  | 16 => some .e2m1 | 17 => some .e8m0 | _ => none

/-- R162: the code of a type. -/
def Ty.bits : Ty → BitVec 5
  | .i8 => 0 | .i16 => 1 | .i32 => 2 | .i64 => 3 | .n8 => 4 | .n16 => 5 | .n32 => 6 | .n64 => 7
  | .f16 => 8 | .bf16 => 9 | .f32 => 10 | .f64 => 11 | .e4m3 => 12 | .e5m2 => 13 | .e3m2 => 14
  | .e2m3 => 15 | .e2m1 => 16 | .e8m0 => 17

/-- R161: conditions of `cmp`. -/
def CmpCond.ofBits (f : BitVec 6) : Option CmpCond :=
  match f.toNat with
  | 0 => some .eq | 1 => some .ne | 2 => some .ltI | 3 => some .leI | 4 => some .gtI | 5 => some .geI
  | 6 => some .ltN | 7 => some .leN | 8 => some .gtN | 9 => some .geN | _ => none

/-- R161: codes of `cmp`. -/
def CmpCond.bits : CmpCond → BitVec 6
  | .eq => 0 | .ne => 1 | .ltI => 2 | .leI => 3 | .gtI => 4 | .geI => 5
  | .ltN => 6 | .leN => 7 | .gtN => 8 | .geN => 9

/-- R161: conditions of `fcmp`. -/
def FCond.ofBits (f : BitVec 6) : Option FCond :=
  match f.toNat with
  | 0 => some .eq | 1 => some .ne | 2 => some .lt | 3 => some .le
  | 4 => some .gt | 5 => some .ge | 6 => some .unord | 7 => some .ord | _ => none

/-- R161: codes of `fcmp`. -/
def FCond.bits : FCond → BitVec 6
  | .eq => 0 | .ne => 1 | .lt => 2 | .le => 3 | .gt => 4 | .ge => 5 | .unord => 6 | .ord => 7

/-- R161: modes of `shfl`. -/
def ShflMode.ofBits (f : BitVec 6) : Option ShflMode :=
  match f.toNat with
  | 0 => some .at | 1 => some .back | 2 => some .fwd | 3 => some .swap | 4 => some .rot | _ => none

/-- R161: codes of `shfl`. -/
def ShflMode.bits : ShflMode → BitVec 6
  | .at => 0 | .back => 1 | .fwd => 2 | .swap => 3 | .rot => 4

/-- R161: forms of `vote`. -/
def VoteOp.ofBits (f : BitVec 6) : Option VoteOp :=
  match f.toNat with
  | 0 => some .or | 1 => some .and | 2 => some .eqv | 3 => some .bits | 4 => some .cnt | _ => none

/-- R161: codes of `vote`. -/
def VoteOp.code : VoteOp → BitVec 6
  | .or => 0 | .and => 1 | .eqv => 2 | .bits => 3 | .cnt => 4

/-- R204: `bits` and `cnt` write a register. -/
def VoteOp.writes : VoteOp → Bool
  | .bits => true | .cnt => true | _ => false

/-- R161: operations of `redux`. -/
def ReduxOp.ofBits (f : BitVec 6) : Option ReduxOp :=
  match f.toNat with
  | 0 => some .add | 1 => some .minI | 2 => some .minN | 3 => some .maxI | 4 => some .maxN
  | 5 => some .and | 6 => some .or | 7 => some .xor | 8 => some .fadd | 9 => some .fmin
  | 10 => some .fmax | _ => none

/-- R161: codes of `redux`. -/
def ReduxOp.bits : ReduxOp → BitVec 6
  | .add => 0 | .minI => 1 | .minN => 2 | .maxI => 3 | .maxN => 4 | .and => 5 | .or => 6
  | .xor => 7 | .fadd => 8 | .fmin => 9 | .fmax => 10

/-- R205: the float codes of `redux`. -/
def ReduxOp.isFloat : ReduxOp → Bool
  | .fadd => true | .fmin => true | .fmax => true | _ => false

/-- R161: operations of `amo`. -/
def AmoOp.ofBits (f : BitVec 6) : Option AmoOp :=
  match f.toNat with
  | 0 => some .swap | 1 => some .cas | 2 => some .add | 3 => some .and | 4 => some .or | 5 => some .xor
  | 6 => some .minI | 7 => some .maxI | 8 => some .minN | 9 => some .maxN | 10 => some .fadd | _ => none

/-- R161: codes of `amo`. -/
def AmoOp.bits : AmoOp → BitVec 6
  | .swap => 0 | .cas => 1 | .add => 2 | .and => 3 | .or => 4 | .xor => 5
  | .minI => 6 | .maxI => 7 | .minN => 8 | .maxN => 9 | .fadd => 10

/-! ### The opcode map -/

/-- Extension categories (R158). -/
inductive ExtCat | never | imm | always | fpair | mem
deriving DecidableEq, Repr

/-- Formats (R146). -/
inductive Fmt | v | i | m | b | rep
deriving DecidableEq, Repr

/-- R159: format, class (`none` for `rep`, which takes its clause's) and extension category of an assigned opcode. -/
def opInfo (op : Nat) : Option (Fmt × Option Cls × ExtCat) :=
  if op = 0x01 then some (.v, some .vector, .never)
  else if op = 0x02 then some (.v, some .vector, .imm)
  else if op = 0x03 then some (.i, some .vector, .never)
  else if 0x04 ≤ op ∧ op ≤ 0x0C then some (.v, some .vector, .imm)
  else if op = 0x0D ∨ op = 0x0E then some (.v, some .vector, .always)
  else if 0x0F ≤ op ∧ op ≤ 0x12 then some (.v, some .vector, .imm)
  else if op = 0x13 ∨ op = 0x14 then some (.v, some .vector, .never)
  else if 0x15 ≤ op ∧ op ≤ 0x18 then some (.v, some .vector, .imm)
  else if op = 0x19 then some (.v, some .vector, .never)
  else if 0x1A ≤ op ∧ op ≤ 0x1C then some (.v, some .vector, .imm)
  else if 0x1D ≤ op ∧ op ≤ 0x1F then some (.v, some .vector, .always)
  else if op = 0x20 ∨ op = 0x21 ∨ op = 0x22 ∨ op = 0x24 ∨ op = 0x25 then some (.v, some .vector, .fpair)
  else if op = 0x23 then some (.v, some .vector, .always)
  else if op = 0x26 ∨ op = 0x27 then some (.v, some .vector, .never)
  else if 0x28 ≤ op ∧ op ≤ 0x36 then some (.v, some .vector, .always)
  else if 0x38 ≤ op ∧ op ≤ 0x3E then some (.v, some .vector, .always)
  else if op = 0x3F ∨ op = 0x40 then some (.v, some .vector, .never)
  else if op = 0x41 ∨ op = 0x42 then some (.v, some .vector, .always)
  else if op = 0x43 ∨ op = 0x44 then some (.v, some .vector, .never)
  else if op = 0x45 then some (.v, some .vector, .always)
  else if op = 0x46 then some (.v, some .vector, .never)
  else if op = 0x48 then some (.rep, none, .never)
  else if op = 0x49 then some (.v, some .vector, .always)
  else if op = 0x4A then some (.b, some .control, .never)
  else if 0x4B ≤ op ∧ op ≤ 0x4D then some (.v, some .vector, .always)
  else if op = 0x50 ∨ op = 0x52 ∨ op = 0x55 ∨ op = 0x56 ∨ op = 0x5F then some (.b, some .control, .never)
  else if op = 0x51 ∨ op = 0x53 ∨ op = 0x58 ∨ op = 0x5B ∨ op = 0x5D then some (.v, some .control, .never)
  else if 0x54 ≤ op ∧ op ≤ 0x5E then some (.v, some .control, .always)
  else if 0x60 ≤ op ∧ op ≤ 0x65 then some (.m, some .memory, .mem)
  else if op = 0x66 ∨ op = 0x67 then some (.m, some .memory, .never)
  else if op = 0x68 ∨ op = 0x6A ∨ op = 0x6C then some (.m, some .memory, .always)
  else if op = 0x69 ∨ op = 0x6D then some (.v, some .memory, .always)
  else if op = 0x6B then some (.m, some .memory, .never)
  else if op = 0x6E ∨ op = 0x6F then some (.v, some .memory, .never)
  else if 0x70 ≤ op ∧ op ≤ 0x72 then some (.v, some .matrix, .always)
  else if op = 0x73 then some (.v, some .matrix, .never)
  else if op = 0x74 ∨ op = 0x75 then some (.m, some .matrix, .always)
  else if op = 0x76 ∨ op = 0x77 then some (.v, some .matrix, .always)
  else if 0x78 ≤ op ∧ op ≤ 0x7C then some (.v, some .async, .always)
  else if op = 0x7D ∨ op = 0x7E then some (.v, some .system, .always)
  else none

/-- The opcode of a word. -/
def Word.opcode (w : Word) : Nat := (Word.fld w 25 7).toNat

/-- R158, R163: whether an extension word follows, read from the first word alone. -/
def Word.hasExt (w : Word) : Bool :=
  match opInfo (Word.opcode w) with
  | some (_, _, .imm) => Word.fld w 0 3 == 7
  | some (_, _, .always) => true
  | some (_, _, .fpair) => true
  | some (_, _, .mem) => Word.fld w 13 2 != 0 || Word.bit w 2
  | _ => false

/-! ### Headers -/

/-- R140: class codes. -/
def Cls.ofBits (b : BitVec 3) : Option Cls :=
  if b = 0 then some .vector else if b = 1 then some .memory else if b = 2 then some .matrix
  else if b = 3 then some .async else if b = 4 then some .control else if b = 5 then some .system else none

/-- R140: class codes. -/
def Cls.bits : Cls → BitVec 3
  | .vector => 0 | .memory => 1 | .matrix => 2 | .async => 3 | .control => 4 | .system => 5

/-- R140: setA and setB; `none` for an illegal flag number. -/
def flagOfBits (b : BitVec 4) : Option (Option (BitVec 4)) :=
  if b = 15 then some none else if b.toNat < 12 then some (some b) else none

/-- R141: a word read as a clause header; `none` raises the clause trap. -/
def decodeHeader (w : Word) : Option Header :=
  if Word.fld w 29 3 = 5 ∧ Word.fld w 0 4 ≠ 0 then
    match flagOfBits (Word.fld w 25 4), flagOfBits (Word.fld w 21 4), Cls.ofBits (Word.fld w 6 3) with
    | some sb, some sa, some c => some ⟨sb, sa, Word.fld w 9 12, c, Es.ofBits (Word.fld w 4 2), Word.fld w 0 4⟩
    | _, _, _ => none
  else none

/-- R140: the word of a header. -/
def encodeHeader (h : Header) : Word :=
  BitVec.setWidth 32 (5#3 ++ h.setB.getD 15 ++ h.setA.getD 15 ++ h.wait ++ h.cls.bits ++ h.es.bits ++ h.count)

/-! ### Decoding one instruction -/

/-- What decoding answers: an instruction, or the first cause of R164 that the words show. -/
abbrev Dec := Except Cause Instr

/-- Goes on when `b`, else the named cause. -/
def req (b : Bool) (c : Cause) (k : Dec) : Dec := if b then k else .error c

/-- R147: unused fields and reserved bits must be zero (cause 0x05). -/
abbrev zero (b : Bool) (k : Dec) : Dec := req b .reserved k

/-- R148, cause 0x03. -/
def withG (g : BitVec 4) (k : Guard → Dec) : Dec :=
  match Guard.ofBits g with
  | some g => k g
  | none => .error .badGuard

/-- R158, cause 0x04: m = 111 on an Always opcode. -/
def withP (m : BitVec 3) (k : Perm → Dec) : Dec :=
  match Perm.ofBits m with
  | some p => k p
  | none => .error .badM

/-- R161, cause 0x06. -/
def withF {α : Type} (o : Option α) (k : α → Dec) : Dec :=
  match o with
  | some v => k v
  | none => .error .badFunction

/-- R221: a "0000 only" guard field: malformed is 0x03, a valid guard 0x05. -/
def noGuard (g : BitVec 4) (k : Dec) : Dec :=
  withG g fun g => zero (g == .always) k

/-- Fields of a V-format word (R146). -/
structure VW where
  d : Reg
  a : Reg
  b : Reg
  g : BitVec 4
  m : BitVec 3
deriving DecidableEq, Repr

/-- Fields of an M-format word (R146). -/
structure MW where
  d      : Reg
  stream : BitVec 4
  order  : BitVec 2
  off    : Reg
  g      : BitVec 4
  size   : BitVec 3
deriving DecidableEq, Repr

/-- Fields 24:0 of a V-format word. -/
def VW.ofWord (w : Word) : VW := ⟨Word.fld w 19 6, Word.fld w 13 6, Word.fld w 7 6, Word.fld w 3 4, Word.fld w 0 3⟩

/-- Fields 24:0 of an M-format word. -/
def MW.ofWord (w : Word) : MW :=
  ⟨Word.fld w 19 6, Word.fld w 15 4, Word.fld w 13 2, Word.fld w 7 6, Word.fld w 3 4, Word.fld w 0 3⟩

/-- The c field of an extension word. -/
abbrev Word.c (x : Word) : Reg := Word.fld x 26 6
/-- The fn field of an extension word. -/
abbrev Word.fn (x : Word) : BitVec 6 := Word.fld x 20 6

/-- The Immediate category (R158): a register form, or the immediate with b = 0. -/
def decImm (v : VW) (x : Word) (reg : Guard → Reg → Reg → Reg → Perm → Instr)
    (imm : Guard → Reg → Reg → Word → Instr) : Dec :=
  withG v.g fun g =>
    match Perm.ofBits v.m with
    | some p => .ok (reg g v.d v.a v.b p)
    | none => zero (v.b == 0) (.ok (imm g v.d v.a x))

/-- A unary instruction of the Never category: b and m zero. -/
def decUn (v : VW) (k : Guard → Reg → Reg → Instr) : Dec :=
  withG v.g fun g => zero (v.b == 0 && v.m == 0) (.ok (k g v.d v.a))

/-- R182: which control values a float instruction takes. -/
structure FSpec where
  rm  : Bool
  fzi : Bool
  fzo : Bool
  h   : Bool
  sat : Bool
deriving DecidableEq, Repr

/-- R182: the control word against its row. -/
def FSpec.ok (r : FSpec) (es : Es) (c : FCtl) : Bool :=
  (r.rm || c.rm == 0) && (r.fzi || !c.fzi) && (r.fzo || !c.fzo) && (!c.h || (r.h && es == .e16)) &&
    (r.sat || !c.satc)

/-- R182: fadd, fsub, fmul, ffma, fscale, frcp, frsqrt, fsqrt. -/
def fsArith : FSpec := ⟨true, true, true, true, false⟩
/-- R182: fdot2. -/
def fsDot : FSpec := ⟨true, true, true, false, false⟩
/-- R182: fmin, fmax, fcmp, fclass. -/
def fsPick : FSpec := ⟨false, true, false, true, false⟩
/-- R182: frnd. -/
def fsRnd : FSpec := ⟨true, true, false, true, false⟩
/-- R182: fexp2, flog2, fsin, fcos. -/
def fsSpec : FSpec := ⟨false, true, true, true, false⟩

/-- R151: a float immediate under ES = 16 has bits 31:16 zero. -/
def fimmOk (es : Es) (x : Word) : Bool := es != .e16 || Word.fld x 16 16 == 0

/-- The Float pair category (R158, R160). -/
def decFPair (es : Es) (v : VW) (x : Word) (r : FSpec) (k : Guard → Reg → Reg → FSrc → Instr) : Dec :=
  withG v.g fun g =>
    match Perm.ofBits v.m with
    | some p =>
      zero (Word.c x == 0 && Word.fld x 6 10 == 0 && r.ok es (.ofBits (Word.fld x 0 6))) <|
        req (Word.fld x 16 10 == 0) .badFunction <|
        .ok (k g v.d v.a (.reg v.b p (.ofBits (Word.fld x 0 6))))
    | none => zero (v.b == 0 && fimmOk es x) (.ok (k g v.d v.a (.imm x)))

/-- A three-source float opcode (ffma, fdot2). -/
def decF3 (es : Es) (v : VW) (x : Word) (r : FSpec) (k : Guard → Reg → Reg → Reg → Perm → Reg → FCtl → Instr) : Dec :=
  withG v.g fun g => withP v.m fun p =>
    zero (Word.fld x 6 10 == 0 && r.ok es (.ofBits (Word.fld x 0 6))) <|
      req (Word.fld x 16 10 == 0) .badFunction <|
      .ok (k g v.d v.a v.b p (Word.c x) (.ofBits (Word.fld x 0 6)))

/-- A two-source float opcode of the Always category (fscale). -/
def decF2 (es : Es) (v : VW) (x : Word) (r : FSpec) (k : Guard → Reg → Reg → Reg → Perm → FCtl → Instr) : Dec :=
  withG v.g fun g => withP v.m fun p =>
    zero (Word.c x == 0 && Word.fld x 6 10 == 0 && r.ok es (.ofBits (Word.fld x 0 6))) <|
      req (Word.fld x 16 10 == 0) .badFunction <|
      .ok (k g v.d v.a v.b p (.ofBits (Word.fld x 0 6)))

/-- A unary float opcode of the Always category: b and m zero. -/
def decF1 (es : Es) (v : VW) (x : Word) (r : FSpec) (k : Guard → Reg → Reg → FCtl → Instr) : Dec :=
  withG v.g fun g => withP v.m fun _ =>
    zero (v.b == 0 && v.m == 0 && Word.c x == 0 && Word.fld x 6 10 == 0 && r.ok es (.ofBits (Word.fld x 0 6))) <|
      req (Word.fld x 16 10 == 0) .badFunction <|
      .ok (k g v.d v.a (.ofBits (Word.fld x 0 6)))

/-- Kinds of element types (R194). -/
inductive TyKind | int | std | narrow | scale
deriving DecidableEq, Repr

/-- The kind of a type. -/
def Ty.kind : Ty → TyKind
  | .i8 | .i16 | .i32 | .i64 | .n8 | .n16 | .n32 | .n64 => .int
  | .f16 | .bf16 | .f32 | .f64 => .std
  | .e4m3 | .e5m2 | .e3m2 | .e2m3 | .e2m1 => .narrow
  | .e8m0 => .scale

/-- Width of a type in a conversion (R193): 8 for each narrow type and e8m0. -/
def Ty.cvtW : Ty → Nat
  | .i16 | .n16 | .f16 | .bf16 => 16
  | .i32 | .n32 | .f32 => 32
  | .i64 | .n64 | .f64 => 64
  | _ => 8

/-- R194: the control values of a legal pair of `cvt`; `none` for an illegal pair. -/
def cvtSpec (dst src : Ty) : Option FSpec :=
  match src.kind, dst.kind with
  | .int, .std => some ⟨true, false, false, false, false⟩
  | .std, .int => some ⟨true, true, false, false, true⟩
  | .std, .std => if dst = src then none else some ⟨true, true, true, false, false⟩
  | .std, .narrow => some ⟨false, false, false, false, true⟩
  | .narrow, .std => some ⟨false, false, false, false, false⟩
  | .std, .scale => if src = .f32 then some ⟨false, false, false, false, false⟩ else none
  | .scale, .std => if dst = .f32 then some ⟨false, false, false, false, false⟩ else none
  | _, _ => none

/-- R197: legal pairs of `pack`. -/
def packSpec (dst src : Ty) : Option FSpec :=
  if (src = .f16 ∨ src = .bf16 ∨ src = .f32) ∧
      (dst.kind = .narrow ∨ (src = .f32 ∧ (dst = .f16 ∨ dst = .bf16))) then
    some ⟨false, false, false, false, true⟩
  else none

/-- R198: legal pairs of `unpack`. -/
def unpackSpec (dst src : Ty) : Option FSpec :=
  if (dst = .f16 ∨ dst = .bf16 ∨ dst = .f32) ∧
      (src.kind = .narrow ∨ (dst = .f32 ∧ (src = .f16 ∨ src = .bf16))) then
    some ⟨false, false, false, false, false⟩
  else none

/-- R194: control bits are judged only against the row of a legal pair. -/
def convCtlOk (s : Option FSpec) (es : Es) (c : FCtl) : Bool :=
  match s with
  | some r => r.ok es c
  | none => true

/-- R193 to R198: the words of `cvt`, `pack` and `unpack`; `z` says which V fields are unused and zero. -/
def decConv (es : Es) (v : VW) (x : Word) (z : Bool) (spec : Ty → Ty → Option FSpec)
    (k : Guard → Ty → Ty → FCtl → Instr) : Dec :=
  withG v.g fun g => withP v.m fun _ =>
    zero (z && v.m == 0 && Word.fld x 6 10 == 0) <|
      withF (Ty.ofBits (Word.fld x 21 5)) fun dst => withF (Ty.ofBits (Word.fld x 16 5)) fun src =>
        zero (convCtlOk (spec dst src) es (.ofBits (Word.fld x 0 6))) <|
          .ok (k g dst src (.ofBits (Word.fld x 0 6)))

/-- Opcodes 0x01 to 0x1F but 0x03 (R169 to R180). -/
def decodeInt (op : Nat) (v : VW) (x : Word) : Dec :=
  match op with
  | 0x01 => withG v.g fun g => zero (v.d == 0 && v.a == 0 && v.b == 0 && v.m == 0) (.ok (.nop g))
  | 0x02 => withG v.g fun g => zero (v.a == 0) <|
      match Perm.ofBits v.m with
      | some p => .ok (.mov g v.d v.b p)
      | none => zero (v.b == 0) (.ok (.movImm g v.d x))
  | 0x04 => decImm v x .add .addImm
  | 0x05 => decImm v x .sub .subImm
  | 0x06 => decImm v x .addsatI .addsatIImm
  | 0x07 => decImm v x .addsatN .addsatNImm
  | 0x08 => decImm v x .subsatI .subsatIImm
  | 0x09 => decImm v x .subsatN .subsatNImm
  | 0x0A => decImm v x .mul .mulImm
  | 0x0B => decImm v x .mulhiI .mulhiIImm
  | 0x0C => decImm v x .mulhiN .mulhiNImm
  | 0x0D => withG v.g fun g => withP v.m fun p => zero (Word.fld x 0 20 == 0) <|
      req (Word.fn x == 0) .badFunction (.ok (.mad g v.d v.a v.b p (Word.c x)))
  | 0x0E => withG v.g fun g => withP v.m fun p => zero (Word.fld x 0 20 == 0) <|
      req (Word.fn x == 0) .badFunction (.ok (.mac2 g v.d v.a v.b p (Word.c x)))
  | 0x0F => decImm v x .minI .minIImm
  | 0x10 => decImm v x .minN .minNImm
  | 0x11 => decImm v x .maxI .maxIImm
  | 0x12 => decImm v x .maxN .maxNImm
  | 0x13 => decUn v .abs
  | 0x14 => decUn v .neg
  | 0x15 => decImm v x .and .andImm
  | 0x16 => decImm v x .or .orImm
  | 0x17 => decImm v x .xor .xorImm
  | 0x18 => decImm v x .andn .andnImm
  | 0x19 => decUn v .not
  | 0x1A => decImm v x .shl .shlImm
  | 0x1B => decImm v x .shrN .shrNImm
  | 0x1C => decImm v x .shrI .shrIImm
  | 0x1D => withG v.g fun g => withP v.m fun p =>
      zero ((Word.bit x 1 || Word.c x == 0) && Word.fld x 10 10 == 0 &&
          (if Word.bit x 3 then v.b == 0 && v.m == 0 else Word.fld x 4 6 == 0)) <|
        req (Word.fn x == 0) .badFunction <|
        .ok (.rshr g v.d v.a (if Word.bit x 3 then .imm (Word.fld x 4 6) else .reg v.b p)
          (Word.bit x 2) (Word.bit x 0) (if Word.bit x 1 then some (Word.c x) else none))
  | 0x1E => withG v.g fun g => withP v.m fun _ =>
      zero (v.b == 0 && v.m == 0 && Word.fld x 18 2 == 0 && Word.fld x 6 6 == 0 &&
          (Word.fn x == 5 || Word.c x == 0)) <|
        match (Word.fn x).toNat with
        | 0 => zero (Word.fld x 0 20 == 0) (.ok (.popc g v.d v.a))
        | 1 => zero (Word.fld x 0 20 == 0) (.ok (.clz g v.d v.a))
        | 2 => zero (Word.fld x 0 20 == 0) (.ok (.brev g v.d v.a))
        | 3 => .ok (.bfxI g v.d v.a (Word.fld x 0 6) (Word.fld x 12 6))
        | 4 => .ok (.bfxN g v.d v.a (Word.fld x 0 6) (Word.fld x 12 6))
        | 5 => .ok (.bfi g v.d v.a (Word.c x) (Word.fld x 0 6) (Word.fld x 12 6))
        | _ => .error .badFunction
  | 0x1F => withG v.g fun g => withP v.m fun p =>
      zero (Word.c x == 0 && Word.fld x 5 15 == 0 && (Word.bit x 3 || v.d == 0)) <|
        withF (CmpCond.ofBits (Word.fn x)) fun cc =>
        .ok (.cmp g cc (if Word.bit x 3 then some v.d else none) v.a v.b p (Word.bit x 4) (Word.fld x 0 3))
  | _ => .error .unassigned

/-- Opcodes 0x20 to 0x36 (R181 to R198). -/
def decodeFloat (es : Es) (op : Nat) (v : VW) (x : Word) : Dec :=
  match op with
  | 0x20 => decFPair es v x fsArith .fadd
  | 0x21 => decFPair es v x fsArith .fsub
  | 0x22 => decFPair es v x fsArith .fmul
  | 0x23 => decF3 es v x fsArith .ffma
  | 0x24 => decFPair es v x fsPick .fmin
  | 0x25 => decFPair es v x fsPick .fmax
  | 0x26 => decUn v .fneg
  | 0x27 => decUn v .fabs
  | 0x28 => withG v.g fun g => withP v.m fun p =>
      zero (Word.c x == 0 && Word.fld x 6 10 == 0 && fsPick.ok es (.ofBits (Word.fld x 0 6))) <|
        req (Word.fld x 16 4 == 0) .badFunction <| withF (FCond.ofBits (Word.fn x)) fun cc =>
        .ok (.fcmp g cc v.d v.a v.b p (.ofBits (Word.fld x 0 6)))
  | 0x29 => decF1 es v x fsArith .frcp
  | 0x2A => decF1 es v x fsArith .frsqrt
  | 0x2B => decF1 es v x fsArith .fsqrt
  | 0x2C => decF1 es v x fsSpec .fexp2
  | 0x2D => decF1 es v x fsSpec .flog2
  | 0x2E => decF1 es v x fsSpec .fsin
  | 0x2F => decF1 es v x fsSpec .fcos
  | 0x30 => decConv es v x (v.b == 0 && Word.c x == 0) cvtSpec fun g dst src c => .cvt g dst src v.d v.a c
  | 0x31 => decF3 es v x fsDot .fdot2
  | 0x32 => decF1 es v x fsRnd .frnd
  | 0x33 => decF1 es v x fsPick .fclass
  | 0x34 => decConv es v x true packSpec fun g dst src c => .pack g dst src v.d v.a (Word.c x) v.b c
  | 0x35 => decConv es v x (Word.c x == 0) unpackSpec fun g dst src c => .unpack g dst src v.d v.a v.b c
  | 0x36 => decF2 es v x fsArith .fscale
  | _ => .error .unassigned

/-- R200: FULL and c. -/
def maskOf (x : Word) (full : Bool) : MaskSrc := if full then .full else .reg (Word.c x)

/-- Opcodes 0x38 to 0x4D of format V (R199 to R218). -/
def decodeLane (es : Es) (op : Nat) (v : VW) (x : Word) : Dec :=
  match op with
  | 0x38 => withG v.g fun g => withP v.m fun _ =>
      zero (v.m == 0 && Word.fld x 16 3 == 0 && (!Word.bit x 19 || Word.c x == 0) &&
          (if Word.fn x == 0 then Word.fld x 0 8 == 0 else v.b == 0)) <|
        withF (ShflMode.ofBits (Word.fn x)) fun md =>
        .ok (.shfl g md v.d v.a v.b (maskOf x (Word.bit x 19)) (Word.fld x 8 8) (Word.fld x 0 8))
  | 0x39 => withG v.g fun g => withP v.m fun _ =>
      zero (v.m == 0 && Word.fld x 17 2 == 0 && (!Word.bit x 19 || Word.c x == 0) &&
          (Word.bit x 16 || v.b == 0)) <|
        req ((Word.fn x).toNat < 2) .badFunction <|
        .ok (.slide g (Word.fn x == 1) v.d v.a (if Word.bit x 16 then some v.b else none)
          (maskOf x (Word.bit x 19)) (Word.fld x 8 8) (Word.fld x 0 8))
  | 0x3A => withG v.g fun g => withP v.m fun _ =>
      zero (v.a == 0 && v.b == 0 && v.m == 0 && Word.fld x 2 17 == 0 && (!Word.bit x 19 || Word.c x == 0) &&
          ((Word.fn x).toNat ≥ 3 || v.d == 0)) <|
        withF (VoteOp.ofBits (Word.fn x)) fun vo =>
        .ok (.vote g vo v.d (maskOf x (Word.bit x 19)) (Word.fld x 0 2))
  | 0x3B => withG v.g fun g => withP v.m fun _ =>
      zero (v.b == 0 && v.m == 0 && Word.fld x 7 12 == 0 && !Word.bit x 3 && (!Word.bit x 19 || Word.c x == 0) &&
          ((Word.fn x).toNat ≥ 8 || Word.fld x 0 3 == 0) && (!Word.bit x 2 || es == .e16)) <|
        withF (ReduxOp.ofBits (Word.fn x)) fun ro =>
        .ok (.redux g ro v.d v.a (maskOf x (Word.bit x 19)) (Word.fld x 4 3) (Word.bit x 2) (Word.bit x 1) (Word.bit x 0))
  | 0x3C => withG v.g fun g => withP v.m fun _ =>
      zero (v.m == 0 && Word.c x == 0 && Word.fld x 0 8 == 0 &&
          (!Word.bit x 19 || (Word.fld x 16 3 == 0 && Word.fld x 8 8 == 0))) <|
        req (Word.fn x == 0) .badFunction <|
        .ok (.tbl g v.d v.a v.b (Word.bit x 19) (Word.fld x 16 3) (Word.fld x 8 8))
  | 0x3D => withG v.g fun g => withP v.m fun _ =>
      zero (v.a == 0 && v.b == 0 && v.m == 0 && Word.c x == 0 && Word.fld x 4 16 == 0) <|
        req (Word.fn x == 0) .badFunction <| .ok (.lid g v.d (Word.fld x 0 4))
  | 0x3E => withG v.g fun g => withP v.m fun p =>
      zero (Word.fld x 4 16 == 0 && !Word.bit x 2 &&
          (if Word.bit x 3 then Word.c x == 0 else Word.fld x 0 2 == 0)) <|
        req (Word.fn x == 0) .badFunction <|
        .ok (.sel g v.d v.a v.b p (if Word.bit x 3 then .pred (Word.fld x 0 2) else .mask (Word.c x)))
  | 0x3F => withG v.g fun g => zero (v.d == 0 && v.m == 0) (.ok (.ppush g v.a v.b))
  | 0x40 => withG v.g fun g => zero (v.d == 0 && v.a == 0 && v.m == 0) (.ok (.ppop g v.b))
  | 0x41 => withG v.g fun g => withP v.m fun _ =>
      zero (v.d == 0 && v.a == 0 && v.b == 0 && v.m == 0 && Word.c x == 0 && Word.fld x 13 7 == 0 &&
          !Word.bit x 7 && !Word.bit x 3) <|
        req (Word.fn x == 0) .badFunction <|
        .ok (.plog g (Word.bit x 12) (Word.fld x 8 4) (Word.fld x 4 3) (Word.fld x 0 3))
  | 0x42 => withG v.g fun g => withP v.m fun _ =>
      zero (v.d == 0 && v.a == 0 && v.b == 0 && v.m == 0 && Word.c x == 0 && Word.fld x 5 15 == 0 &&
          !Word.bit x 3) <|
        req (Word.fn x == 0) .badFunction <| .ok (.ppick g (Word.bit x 4) (Word.fld x 0 3))
  | 0x43 => withG v.g fun g =>
      if v.m = 0 then zero (v.a == 0 && v.b == 0) (.ok (.pmovFromPred g v.d))
      else zero (v.m == 1 && v.d == 0 && v.b == 0) (.ok (.pmovToPred g v.a))
  | 0x44 => decUn v .tag
  | 0x45 => withG v.g fun g => withP v.m fun _ =>
      zero (v.b == 0 && v.m == 0 && Word.c x == 0 &&
          (if Word.bit x 11 then Word.fld x 0 11 == 0 else v.a == 0)) <|
        req (Word.fn x == 0) .badFunction <|
        .ok (.iota g v.d (if Word.bit x 11 then .reg v.a else .imm (Word.fld x 0 11)) (Word.fld x 12 8))
  | 0x46 => withG v.g fun g => zero (v.a == 0 && v.b == 0 && v.m == 0) (.ok (.stk g v.d))
  | 0x49 => withG v.g fun g => withP v.m fun _ =>
      zero (v.d == 0 && v.b == 0 && v.m == 0 && Word.c x == 0 && !Word.bit x 16 &&
          (if Word.bit x 17 then Word.fld x 0 16 == 0 else v.a == 0)) <|
        req (Word.fn x == 0) .badFunction <|
        .ok (.lset g (Word.fld x 18 2) (if Word.bit x 17 then .reg v.a else .imm (Word.fld x 0 16)))
  | 0x4B => withG v.g fun g => withP v.m fun _ =>
      zero (v.d == 0 && v.b == 0 && v.m == 0 && Word.c x == 0 &&
          (if Word.bit x 12 then v.a == 0 && Word.fld x 13 3 != 0 && Word.fld x 13 3 != 7
           else Word.fld x 0 12 == 0 && Word.fld x 13 3 != 6 && (Word.fld x 13 3 != 7 || v.a == 0))) <|
        req (Word.fn x == 0) .badFunction <|
        .ok (.asset g (Word.fld x 16 4) (Word.fld x 13 3) (if Word.bit x 12 then .imm (Word.fld x 0 12) else .reg v.a))
  | 0x4C => withG v.g fun g => withP v.m fun _ =>
      zero (v.a == 0 && v.b == 0 && v.m == 0 && Word.c x == 0 && Word.fld x 0 13 == 0) <|
        req (Word.fn x == 0) .badFunction <| .ok (.asget g v.d (Word.fld x 16 4) (Word.fld x 13 3))
  | 0x4D => withG v.g fun g => withP v.m fun _ =>
      zero (v.a == 0 && v.b == 0 && v.m == 0 && Word.c x == 0 && Word.fld x 0 17 == 0) <|
        req (Word.fn x == 0) .badFunction <| .ok (.kget g v.d (Word.fld x 18 2) (Word.bit x 17))
  | _ => .error .unassigned

/-- Control opcodes of format V (R221 to R237). -/
def decodeControl (op : Nat) (v : VW) (x : Word) : Dec :=
  match op with
  | 0x51 => withG v.g fun g =>
      zero (v.d == 0 && v.b == 0 && (v.m == 0 || v.m == 1)) (.ok (if v.m = 0 then .jmp g v.a else .jmpL g v.a))
  | 0x53 => withG v.g fun g => zero (v.d == 0 && v.a == 0 && v.b == 0 && v.m == 0) (.ok (.ret g))
  | 0x54 => withG v.g fun g => withP v.m fun _ =>
      zero (v.d == 0 && v.b == 0 && v.m == 0 && Word.c x == 0 && Word.fld x 4 16 == 0) <|
        req (Word.fn x == 0) .badFunction <| .ok (.jmpf g v.a (Word.bit x 3) (Word.fld x 0 3))
  | 0x57 => withG v.g fun g => withP v.m fun _ =>
      zero (v.d == 0 && v.a == 0 && v.b == 0 && v.m == 0 && Word.c x == 0 && Word.fld x 7 13 == 0 &&
          (Word.bit x 6 || Word.fld x 3 3 == 0)) <|
        req (Word.fn x == 0) .badFunction <| .ok (.meld g (Word.bit x 6) (Word.fld x 3 3) (Word.fld x 0 3))
  | 0x58 => withG v.g fun g => zero (v.d == 0 && v.a == 0 && v.b == 0 && v.m == 0) (.ok (.mend g))
  | 0x59 => withG v.g fun g => withP v.m fun _ =>
      zero (v.d == 0 && v.b == 0 && v.m == 0 && Word.c x == 0 && Word.fld x 2 18 == 0) <|
        req (Word.fn x == 0) .badFunction <| .ok (.ldpm g (Word.fld x 0 2) v.a)
  | 0x5A => withG v.g fun g => withP v.m fun _ =>
      zero (g == .always && v.d == 0 && v.a == 0 && v.b == 0 && v.m == 0 && Word.c x == 0 && Word.fld x 17 3 == 0) <|
        req (Word.fn x == 0) .badFunction <| .ok (.enter (Word.bit x 16) (Word.fld x 0 16))
  | 0x5B => noGuard v.g <| zero (v.d == 0 && v.a == 0 && v.b == 0 && v.m == 0) (.ok .leave)
  | 0x5C => withG v.g fun g => withP v.m fun _ =>
      zero (v.d == 0 && v.a == 0 && v.b == 0 && v.m == 0 && Word.c x == 0 && Word.fld x 16 4 == 0) <|
        req (Word.fn x == 0) .badFunction <| .ok (.trap g (Word.fld x 0 16))
  | 0x5D => withG v.g fun g => zero (v.d == 0 && v.a == 0 && v.b == 0 && v.m == 0) (.ok (.brk g))
  | 0x5E => withG v.g fun g => withP v.m fun _ =>
      zero (g == .always && v.d == 0 && v.b == 0 && v.m == 0 && Word.c x == 0 && Word.fld x 16 3 == 0 &&
          (if Word.bit x 19 then Word.fld x 0 16 == 0 else v.a == 0)) <|
        req (Word.fn x == 0) .badFunction <|
        .ok (.sleep (if Word.bit x 19 then .reg v.a else .imm (Word.fld x 0 16)))
  | _ => .error .unassigned

/-- Format B (R146, R215, R223 to R230, R238). -/
def decodeB (op : Nat) (gb : BitVec 4) (off : BitVec 21) : Dec :=
  match op with
  | 0x4A => noGuard gb (.ok (.loop off))
  | 0x50 => withG gb fun g => .ok (.br g off)
  | 0x52 => withG gb fun g => .ok (.call g off)
  | 0x55 => withG gb fun g => zero (off == 0) (.ok (.exit g))
  | 0x56 => noGuard gb <| zero (off == 0) (.ok .yield)
  | 0x5F => noGuard gb (.ok (.ipref off))
  | _ => .error .unassigned

/-- R242: the fields of the memory extension word, with X and the order field of the word it extends. -/
def MemExt.ofWords (v : MW) (x : Word) : MemExt :=
  ⟨v.size.getLsbD 2, v.order, Word.fld x 17 3, Word.fld x 15 2, Word.bit x 14⟩

/-- R241, R242: opcodes 0x60 to 0x65. `hint` and `sx` say whether the opcode takes a hint and SX. -/
def decMem (v : MW) (x : Word) (hint sx : Bool) (short : Guard → Reg → MemOp → BitVec 2 → Instr)
    (ext : Guard → Reg → MemOp → BitVec 2 → MemExt → Instr) : Dec :=
  withG v.g fun g =>
    if v.order = 0 ∧ v.size.getLsbD 2 = false then .ok (short g v.d ⟨v.stream, v.off⟩ (v.size.extractLsb' 0 2))
    else
      zero (Word.fld x 20 12 == 0 && Word.fld x 0 14 == 0 && (v.order != 0 || Word.fld x 17 3 == 0) &&
          (hint || Word.fld x 15 2 == 0) && (sx || !Word.bit x 14)) <|
        .ok (ext g v.d ⟨v.stream, v.off⟩ (v.size.extractLsb' 0 2) (.ofWords v x))

/-- R271: the extension word of `pld` and `pst`. -/
def PanelExt.ofWord (x : Word) : PanelExt :=
  ⟨Word.c x, Word.fld x 16 4, Word.fld x 10 6, Word.fld x 7 3, Word.bit x 6, Word.bit x 5, Word.fld x 2 3⟩

/-- Format M (R239 to R252, R271). -/
def decodeM (op : Nat) (v : MW) (x : Word) : Dec :=
  let m : MemOp := ⟨v.stream, v.off⟩
  match op with
  | 0x60 => decMem v x true true .ld .ldExt
  | 0x61 => decMem v x true false .st .stExt
  | 0x62 => decMem v x false true .ldsc .ldscExt
  | 0x63 => decMem v x false false .stsc .stscExt
  | 0x64 => decMem v x false true .sld .sldExt
  | 0x65 => decMem v x false false .sst .sstExt
  | 0x66 => withG v.g fun g => zero (v.order == 0 && v.size == 0) (.ok (.srenew g v.d m))
  | 0x67 => withG v.g fun g => zero (v.order == 0 && v.size == 0) (.ok (.slife g v.d m))
  | 0x68 => withG v.g fun g =>
      zero (Word.fld x 0 15 == 0 && (Word.fn x == 1 || Word.c x == 0) && (v.order != 0 || Word.fld x 17 3 == 0)) <|
        withF (AmoOp.ofBits (Word.fn x)) fun ao =>
        .ok (.amo g ao v.d m v.size v.order (Word.c x) (Word.fld x 17 3) (Word.fld x 15 2))
  | 0x6A => withG v.g fun g =>
      req (Word.fn x == 0) .badFunction <|
        .ok (.waitw g v.d m v.size v.order (Word.c x) (Word.fld x 17 3) (Word.fld x 14 3) (Word.fld x 0 14))
  | 0x6B => withG v.g fun g => zero (v.d == 0 && v.order == 0) <|
      if v.size = 0 then .ok (.prefdL1 g m) else req (v.size == 1) .range (.ok (.prefdL2 g m))
  | 0x6C => withG v.g fun g => zero (Word.c x == 0 && Word.fld x 10 10 == 0) <|
      req (Word.fn x == 0) .badFunction <| .ok (.codefetch g v.d m v.size v.order (Word.fld x 0 10))
  | 0x74 => withG v.g fun g => zero (Word.fld x 0 2 == 0 && (v.order != 0 || Word.fld x 2 3 == 0)) <|
      req (Word.fn x == 0) .badFunction <| .ok (.pld g v.d m v.size v.order (.ofWord x))
  | 0x75 => withG v.g fun g => zero (Word.fld x 0 2 == 0 && (v.order != 0 || Word.fld x 2 3 == 0)) <|
      req (Word.fn x == 0) .badFunction <| .ok (.pst g v.d m v.size v.order (.ofWord x))
  | _ => .error .unassigned

/-- R261: bits 19:0 of `mcfg`'s extension word, FULL apart. -/
def McfgExt.ofWord (x : Word) : McfgExt :=
  ⟨Word.fld x 16 2, Word.fld x 13 3, Word.fld x 11 2, Word.fld x 8 3, Word.fld x 6 2, Word.bit x 5, Word.bit x 4⟩

/-- Memory and matrix opcodes of format V (R249 to R255, R261 to R275). -/
def decodeMatrix (op : Nat) (v : VW) (x : Word) : Dec :=
  match op with
  | 0x69 => withG v.g fun g => withP v.m fun _ =>
      zero (g == .always && v.d == 0 && v.a == 0 && v.b == 0 && v.m == 0 && Word.c x == 0 && Word.fld x 0 17 == 0) <|
        req (Word.fn x == 0) .badFunction <| .ok (.fence (Word.fld x 17 3))
  | 0x6D => withG v.g fun g => withP v.m fun _ =>
      zero (v.m == 0 && Word.c x == 0 && Word.fld x 3 17 == 0) <|
        match (Word.fn x).toNat with
        | 0 => .ok (.residReg g v.d v.a v.b (Word.fld x 0 3))
        | 1 => zero (v.d == 0 && v.b == 0) (.ok (.residPrio g v.a (Word.fld x 0 3)))
        | 2 => zero (v.d == 0 && v.b == 0) (.ok (.residDemote g v.a (Word.fld x 0 3)))
        | 3 => zero (v.b == 0 && Word.fld x 0 3 == 0) (.ok (.residEvict g v.d v.a))
        | 4 => zero (v.d == 0 && v.b == 0 && Word.fld x 0 3 == 0) (.ok (.residDrop g v.a))
        | _ => .error .badFunction
  | 0x6E => withG v.g fun g => zero (v.d == 0 && v.m == 0) (.ok (.qpush g v.a v.b))
  | 0x6F => withG v.g fun g => zero (v.a == 0 && v.m == 0) (.ok (.qpop g v.d v.b))
  | 0x70 => withG v.g fun g => withP v.m fun _ =>
      zero (v.b == 0 && v.m == 0 && Word.c x == 0 && Word.fld x 18 2 == 0 && Word.fld x 0 3 == 0 &&
          (!Word.bit x 3 || v.a == 0)) <|
        req (Word.fn x == 0) .badFunction <|
        .ok (.mcfg g v.d (if Word.bit x 3 then .full else .reg v.a) (.ofWord x))
  | 0x71 => withG v.g fun g => withP v.m fun _ =>
      zero (g == .always && v.m == 0 && Word.fld x 0 20 == 0) <|
        req (Word.fn x == 0) .badFunction <| .ok (.msign v.d v.a v.b (Word.c x))
  | 0x72 => withG v.g fun g => withP v.m fun _ =>
      zero (v.b == 0 && v.m == 0 && Word.c x == 0 && !Word.bit x 18 && Word.fld x 0 16 == 0 &&
          (if Word.bit x 19 then v.d == 0 else v.a == 0)) <|
        req (Word.fn x == 0) .badFunction <|
        .ok (if Word.bit x 19 then .maccTo g v.a (Word.fld x 16 2) else .maccFrom g v.d (Word.fld x 16 2))
  | 0x73 => withG v.g fun g => zero (v.a == 0 && v.b == 0 && v.m == 0) (.ok (.mzero g v.d))
  | 0x76 => withG v.g fun g => withP v.m fun _ =>
      zero (v.b == 0 && v.m == 0 && Word.fld x 0 4 == 0) <|
        req (Word.fn x == 0) .badFunction <|
        .ok (.qnt g v.d v.a ⟨Word.c x, Word.fld x 13 3, Word.bit x 12, Word.bit x 11⟩ (Word.fld x 16 4)
          (Word.bit x 10) (Word.fld x 6 4) (Word.bit x 5) (Word.bit x 4))
  | 0x77 => withG v.g fun g => withP v.m fun _ =>
      zero (v.b == 0 && v.m == 0 && Word.fld x 16 4 == 0 && Word.fld x 0 11 == 0) <|
        req (Word.fn x == 0) .badFunction <|
        .ok (.dqnt g v.d v.a ⟨Word.c x, Word.fld x 13 3, Word.bit x 12, Word.bit x 11⟩)
  | _ => .error .unassigned

/-- Async and system opcodes (R276 to R295). -/
def decodeAsync (op : Nat) (v : VW) (x : Word) : Dec :=
  match op with
  | 0x78 => withG v.g fun g => withP v.m fun _ =>
      zero (v.m == 0 && Word.fld x 0 4 == 0 && (Word.fld x 7 2 == 3 || Word.fld x 4 3 == 0)) <|
        req (Word.fn x == 0) .badFunction <|
        .ok (.pump g v.d v.a v.b (Word.c x) ⟨Word.fld x 16 4, Word.fld x 12 4, Word.fld x 10 2, Word.bit x 9,
          Word.fld x 7 2, Word.fld x 4 3⟩)
  | 0x79 => withG v.g fun g => withP v.m fun _ =>
      zero (v.m == 0 && Word.fld x 0 8 == 0) <|
        req (Word.fn x == 0) .badFunction <|
        .ok (.coll g v.d v.a v.b (Word.c x) ⟨Word.fld x 16 4, Word.fld x 12 4, Word.fld x 10 2, Word.fld x 8 2⟩)
  | 0x7A => withG v.g fun g => withP v.m fun _ =>
      zero (v.b == 0 && v.m == 0 && Word.c x == 0 && Word.fld x 3 17 == 0) <|
        match (Word.fn x).toNat with
        | 0 => zero (v.d == 0 && v.a == 0) (.ok (.hwait g (Word.fld x 0 3)))
        | 1 => zero (v.a == 0) (.ok (.htest g v.d (Word.fld x 0 3)))
        | 2 => zero (v.d == 0 && v.a == 0) (.ok (.hcancel g (Word.fld x 0 3)))
        | 3 => zero (v.d == 0) (.ok (.tlwait g (Word.fld x 0 3) v.a))
        | _ => .error .badFunction
  | 0x7B => withG v.g fun g => withP v.m fun _ =>
      zero (v.d == 0 && v.b == 0 && v.m == 0 && Word.c x == 0 && Word.fld x 16 4 == 0) <|
        match (Word.fn x).toNat with
        | 0 => zero (if Word.bit x 10 then Word.fld x 0 10 == 0 else v.a == 0) <|
            .ok (.bar g (Word.fld x 11 5) (if Word.bit x 10 then .reg v.a else .imm (Word.fld x 0 10)))
        | 1 => zero (v.a == 0 && Word.fld x 0 16 == 0) (.ok (.gbar g))
        | _ => .error .badFunction
  | 0x7C => withG v.g fun g => withP v.m fun _ =>
      zero (v.b == 0 && v.m == 0 && Word.c x == 0 && Word.fld x 17 3 == 0) <|
        match (Word.fn x).toNat with
        | 0 => zero (Word.fld x 0 17 == 0) (.ok (.launch g v.d v.a))
        | 1 => zero (if Word.bit x 16 then Word.fld x 0 16 == 0 else v.a == 0) <|
            .ok (.gridgrow g v.d (if Word.bit x 16 then .reg v.a else .imm (Word.fld x 0 16)))
        | _ => .error .badFunction
  | 0x7D => withG v.g fun g => withP v.m fun _ =>
      zero (g == .always && v.d == 0 && v.a == 0 && v.b == 0 && v.m == 0 && Word.c x == 0 && Word.fld x 0 20 == 0) <|
        match (Word.fn x).toNat with
        | 0 => .ok .grow
        | 1 => .ok .shrink
        | _ => .error .badFunction
  | 0x7E => withG v.g fun g => withP v.m fun _ =>
      zero (v.b == 0 && v.m == 0 && Word.c x == 0 && Word.fld x 12 8 == 0) <|
        match (Word.fn x).toNat with
        | 0 => zero (v.a == 0) (.ok (.sysr g v.d (Word.fld x 0 12)))
        | 1 => zero (v.d == 0) (.ok (.sysw g (Word.fld x 0 12) v.a))
        | 2 => zero (g == .always && v.d == 0 && v.a == 0 && Word.fld x 0 12 == 0) (.ok .tret)
        | _ => .error .badFunction
  | _ => .error .unassigned

/-- R164: one instruction from its word and the extension word after it (used only where R158 calls for one), under a
clause of element size `es`. An unassigned opcode is the instruction whose issue raises cause 0x01. -/
def decodeWord (es : Es) (w x : Word) : Dec :=
  let op := Word.opcode w
  match opInfo op with
  | none => .ok (.unassignedOpcode w)
  | some (.i, _, _) => withG (Word.fld w 0 4) fun g =>
      zero (Word.fld w 13 6 == 0) (.ok (.movi g (Word.fld w 19 6) (Word.fld w 4 9)))
  | some (.rep, _, _) => zero (Word.fld w 0 15 == 0) (.ok (.rep (Word.fld w 19 6) (Word.fld w 15 4)))
  | some (.b, _, _) => decodeB op (Word.fld w 21 4) (Word.fld w 0 21)
  | some (.m, _, _) => decodeM op (.ofWord w) x
  | some (.v, _, _) =>
    if op < 0x20 then decodeInt op (.ofWord w) x
    else if op < 0x38 then decodeFloat es op (.ofWord w) x
    else if op < 0x50 then decodeLane es op (.ofWord w) x
    else if op < 0x60 then decodeControl op (.ofWord w) x
    else if op < 0x78 then decodeMatrix op (.ofWord w) x
    else decodeAsync op (.ofWord w) x

/-- Why bytes give no instruction: fewer bytes than the words need, or a cause of R164. -/
inductive Reject
  | short
  | illegal (c : Cause)
deriving DecidableEq, Repr

/-- R8, R163: the little-endian word at the head of a byte list, and the rest. -/
def takeWord : List Byte → Option (Word × List Byte)
  | b0 :: b1 :: b2 :: b3 :: rest => some (b3 ++ b2 ++ b1 ++ b0, rest)
  | _ => none

/-- The four bytes of a word, least significant first. -/
def Word.bytes (w : Word) : List Byte := [Word.fld w 0 8, Word.fld w 8 8, Word.fld w 16 8, Word.fld w 24 8]

/-- R163: one instruction from bytes, with the bytes after it. -/
def decodeBytes (es : Es) (bs : List Byte) : Except Reject (Instr × List Byte) :=
  match takeWord bs with
  | none => .error .short
  | some (w, rest) =>
    if Word.hasExt w then
      match takeWord rest with
      | none => .error .short
      | some (x, rest) =>
        match decodeWord es w x with
        | .ok i => .ok (i, rest)
        | .error c => .error (.illegal c)
    else
      match decodeWord es w 0 with
      | .ok i => .ok (i, rest)
      | .error c => .error (.illegal c)

/-! ### Encoding -/

/-- Fields laid side by side, high to low, as one word. -/
def word {n : Nat} (x : BitVec n) : Word := x.setWidth 32

/-- Format V (R146). -/
def encV (op : BitVec 7) (d a b : Reg) (g : BitVec 4) (m : BitVec 3) : Word := word (op ++ d ++ a ++ b ++ g ++ m)

/-- Format I (R146). -/
def encI (op : BitVec 7) (d a : Reg) (imm : BitVec 9) (g : BitVec 4) : Word := word (op ++ d ++ a ++ imm ++ g)

/-- Format M (R146). -/
def encM (op : BitVec 7) (d : Reg) (m : MemOp) (order : BitVec 2) (g : BitVec 4) (size : BitVec 3) : Word :=
  word (op ++ d ++ m.stream ++ order ++ m.off ++ g ++ size)

/-- Format B (R146). -/
def encB (op : BitVec 7) (g : BitVec 4) (off : BitVec 21) : Word := word (op ++ g ++ off)

/-- Format X (R146): c, fn and bits 19:0. -/
def encX {n : Nat} (c : Reg) (fn : BitVec 6) (lo : BitVec n) : Word := word (c ++ fn ++ lo)

/-- R160: a float control word. -/
def encFX {n : Nat} (c : Reg) (fn : BitVec n) (ctl : FCtl) : Word := word (c ++ fn ++ 0#10 ++ ctl.bits)

/-- An instruction of the Immediate category: the register form. -/
def encReg (op : BitVec 7) (g : Guard) (d a b : Reg) (p : Perm) : List Word := [encV op d a b g.bits p.bits]
/-- An instruction of the Immediate category: the immediate form. -/
def encImm (op : BitVec 7) (g : Guard) (d a : Reg) (imm : Word) : List Word := [encV op d a 0 g.bits 7, imm]
/-- A unary word with no extension. -/
def encUn (op : BitVec 7) (g : Guard) (d a : Reg) : List Word := [encV op d a 0 g.bits 0]
/-- A Float pair instruction. -/
def encFPair (op : BitVec 7) (g : Guard) (d a : Reg) : FSrc → List Word
  | .reg b p c => [encV op d a b g.bits p.bits, encFX 0 0#10 c]
  | .imm v => [encV op d a 0 g.bits 7, v]
/-- A unary float instruction with its control word. -/
def encF1 (op : BitVec 7) (g : Guard) (d a : Reg) (c : FCtl) : List Word := [encV op d a 0 g.bits 0, encFX 0 0#10 c]

/-- R200: the c field and the FULL bit of a mask. -/
def MaskSrc.c : MaskSrc → Reg
  | .full => 0
  | .reg c => c
/-- R200: the FULL bit. -/
def MaskSrc.isFull : MaskSrc → Bool
  | .full => true
  | .reg _ => false

/-- R242: the memory extension word. -/
def MemExt.bits (e : MemExt) : Word := word (0#12 ++ e.scope ++ e.hint ++ bit1 e.sx ++ 0#14)

/-- R241: a memory instruction without, and with, its extension word. -/
def encMemS (op : BitVec 7) (g : Guard) (d : Reg) (m : MemOp) (w : BitVec 2) : List Word :=
  [encM op d m 0 g.bits (0#1 ++ w)]
/-- R241, R242: a memory instruction with its extension word. -/
def encMemE (op : BitVec 7) (g : Guard) (d : Reg) (m : MemOp) (w : BitVec 2) (e : MemExt) : List Word :=
  [encM op d m e.order g.bits (bit1 e.x ++ w), e.bits]

/-- R271: the extension word of a panel access. -/
def PanelExt.bits (e : PanelExt) : Word :=
  word (e.c ++ 0#6 ++ e.hs ++ e.h ++ e.j ++ bit1 e.hi ++ bit1 e.ph ++ e.scope ++ 0#2)

/-- R261: bits 19:0 of `mcfg`'s extension word. -/
def McfgExt.bits (e : McfgExt) (full : Bool) : BitVec 20 :=
  0#2 ++ e.acc ++ e.passes ++ e.prio ++ e.sb ++ e.cls ++ bit1 e.int ++ bit1 e.z ++ bit1 full ++ 0#3

/-- A 16-bit count or a register: the a field. -/
def Src16.a : Src16 → Reg
  | .imm _ => 0
  | .reg a => a
/-- A 16-bit count or a register: the RB bit. -/
def Src16.rb : Src16 → Bool
  | .imm _ => false
  | .reg _ => true
/-- A 16-bit count or a register: the count field. -/
def Src16.v : Src16 → BitVec 16
  | .imm v => v
  | .reg _ => 0

/-- The words of an instruction, from the encoding tables of R146 to R162; nothing for a device's own step. -/
def encode : Instr → List Word
  | .nop g => [encV 0x01 0 0 0 g.bits 0]
  | .mov g d b p => [encV 0x02 d 0 b g.bits p.bits]
  | .movImm g d imm => [encV 0x02 d 0 0 g.bits 7, imm]
  | .movi g d imm => [encI 0x03 d 0 imm g.bits]
  | .add g d a b p => encReg 0x04 g d a b p
  | .addImm g d a imm => encImm 0x04 g d a imm
  | .sub g d a b p => encReg 0x05 g d a b p
  | .subImm g d a imm => encImm 0x05 g d a imm
  | .addsatI g d a b p => encReg 0x06 g d a b p
  | .addsatIImm g d a imm => encImm 0x06 g d a imm
  | .addsatN g d a b p => encReg 0x07 g d a b p
  | .addsatNImm g d a imm => encImm 0x07 g d a imm
  | .subsatI g d a b p => encReg 0x08 g d a b p
  | .subsatIImm g d a imm => encImm 0x08 g d a imm
  | .subsatN g d a b p => encReg 0x09 g d a b p
  | .subsatNImm g d a imm => encImm 0x09 g d a imm
  | .mul g d a b p => encReg 0x0A g d a b p
  | .mulImm g d a imm => encImm 0x0A g d a imm
  | .mulhiI g d a b p => encReg 0x0B g d a b p
  | .mulhiIImm g d a imm => encImm 0x0B g d a imm
  | .mulhiN g d a b p => encReg 0x0C g d a b p
  | .mulhiNImm g d a imm => encImm 0x0C g d a imm
  | .minI g d a b p => encReg 0x0F g d a b p
  | .minIImm g d a imm => encImm 0x0F g d a imm
  | .minN g d a b p => encReg 0x10 g d a b p
  | .minNImm g d a imm => encImm 0x10 g d a imm
  | .maxI g d a b p => encReg 0x11 g d a b p
  | .maxIImm g d a imm => encImm 0x11 g d a imm
  | .maxN g d a b p => encReg 0x12 g d a b p
  | .maxNImm g d a imm => encImm 0x12 g d a imm
  | .and g d a b p => encReg 0x15 g d a b p
  | .andImm g d a imm => encImm 0x15 g d a imm
  | .or g d a b p => encReg 0x16 g d a b p
  | .orImm g d a imm => encImm 0x16 g d a imm
  | .xor g d a b p => encReg 0x17 g d a b p
  | .xorImm g d a imm => encImm 0x17 g d a imm
  | .andn g d a b p => encReg 0x18 g d a b p
  | .andnImm g d a imm => encImm 0x18 g d a imm
  | .shl g d a b p => encReg 0x1A g d a b p
  | .shlImm g d a imm => encImm 0x1A g d a imm
  | .shrN g d a b p => encReg 0x1B g d a b p
  | .shrNImm g d a imm => encImm 0x1B g d a imm
  | .shrI g d a b p => encReg 0x1C g d a b p
  | .shrIImm g d a imm => encImm 0x1C g d a imm
  | .abs g d a => encUn 0x13 g d a
  | .neg g d a => encUn 0x14 g d a
  | .not g d a => encUn 0x19 g d a
  | .mad g d a b p c => [encV 0x0D d a b g.bits p.bits, encX c 0 0#20]
  | .mac2 g d a b p c => [encV 0x0E d a b g.bits p.bits, encX c 0 0#20]
  | .rshr g d a sh u he nw =>
    match sh with
    | .reg b p => [encV 0x1D d a b g.bits p.bits,
        encX (nw.getD 0) 0 (0#10 ++ 0#6 ++ 0#1 ++ bit1 u ++ bit1 nw.isSome ++ bit1 he)]
    | .imm k => [encV 0x1D d a 0 g.bits 0,
        encX (nw.getD 0) 0 (0#10 ++ k ++ 1#1 ++ bit1 u ++ bit1 nw.isSome ++ bit1 he)]
  | .popc g d a => [encV 0x1E d a 0 g.bits 0, encX 0 0 0#20]
  | .clz g d a => [encV 0x1E d a 0 g.bits 0, encX 0 1 0#20]
  | .brev g d a => [encV 0x1E d a 0 g.bits 0, encX 0 2 0#20]
  | .bfxI g d a pos len1 => [encV 0x1E d a 0 g.bits 0, encX 0 3 (0#2 ++ len1 ++ 0#6 ++ pos)]
  | .bfxN g d a pos len1 => [encV 0x1E d a 0 g.bits 0, encX 0 4 (0#2 ++ len1 ++ 0#6 ++ pos)]
  | .bfi g d a c pos len1 => [encV 0x1E d a 0 g.bits 0, encX c 5 (0#2 ++ len1 ++ 0#6 ++ pos)]
  | .cmp g cond wd a b p np sub =>
    [encV 0x1F (wd.getD 0) a b g.bits p.bits, encX 0 cond.bits (0#15 ++ bit1 np ++ bit1 wd.isSome ++ sub)]
  | .fadd g d a s => encFPair 0x20 g d a s
  | .fsub g d a s => encFPair 0x21 g d a s
  | .fmul g d a s => encFPair 0x22 g d a s
  | .ffma g d a b p c ctl => [encV 0x23 d a b g.bits p.bits, encFX c 0#10 ctl]
  | .fscale g d a b p ctl => [encV 0x36 d a b g.bits p.bits, encFX 0 0#10 ctl]
  | .fmin g d a s => encFPair 0x24 g d a s
  | .fmax g d a s => encFPair 0x25 g d a s
  | .fneg g d a => encUn 0x26 g d a
  | .fabs g d a => encUn 0x27 g d a
  | .fdot2 g d a b p c ctl => [encV 0x31 d a b g.bits p.bits, encFX c 0#10 ctl]
  | .frnd g d a ctl => encF1 0x32 g d a ctl
  | .fclass g d a ctl => encF1 0x33 g d a ctl
  | .fcmp g cond d a b p ctl => [encV 0x28 d a b g.bits p.bits, encFX 0 (cond.bits ++ 0#4) ctl]
  | .frcp g d a ctl => encF1 0x29 g d a ctl
  | .frsqrt g d a ctl => encF1 0x2A g d a ctl
  | .fsqrt g d a ctl => encF1 0x2B g d a ctl
  | .fexp2 g d a ctl => encF1 0x2C g d a ctl
  | .flog2 g d a ctl => encF1 0x2D g d a ctl
  | .fsin g d a ctl => encF1 0x2E g d a ctl
  | .fcos g d a ctl => encF1 0x2F g d a ctl
  | .cvt g dst src d a ctl => [encV 0x30 d a 0 g.bits 0, encFX 0 (dst.bits ++ src.bits) ctl]
  | .pack g dst src d a c part ctl => [encV 0x34 d a part g.bits 0, encFX c (dst.bits ++ src.bits) ctl]
  | .unpack g dst src d a part ctl => [encV 0x35 d a part g.bits 0, encFX 0 (dst.bits ++ src.bits) ctl]
  | .shfl g md d a b mask fill amt =>
    [encV 0x38 d a b g.bits 0, encX mask.c md.bits (bit1 mask.isFull ++ 0#3 ++ fill ++ amt)]
  | .slide g down d a nb mask fill amt =>
    [encV 0x39 d a (nb.getD 0) g.bits 0,
      encX mask.c (0#5 ++ bit1 down) (bit1 mask.isFull ++ 0#2 ++ bit1 nb.isSome ++ fill ++ amt)]
  | .vote g op d mask dep => [encV 0x3A d 0 0 g.bits 0, encX mask.c op.code (bit1 mask.isFull ++ 0#17 ++ dep)]
  | .redux g op d a mask seg h fzo fzi =>
    [encV 0x3B d a 0 g.bits 0,
      encX mask.c op.bits (bit1 mask.isFull ++ 0#12 ++ seg ++ 0#1 ++ bit1 h ++ bit1 fzo ++ bit1 fzi)]
  | .tbl g d a b wide cnt1 fill => [encV 0x3C d a b g.bits 0, encX 0 0 (bit1 wide ++ cnt1 ++ fill ++ 0#8)]
  | .lid g d sel => [encV 0x3D d 0 0 g.bits 0, encX 0 0 (0#16 ++ sel)]
  | .sel g d a b p by' =>
    match by' with
    | .mask c => [encV 0x3E d a b g.bits p.bits, encX c 0 0#20]
    | .pred dep => [encV 0x3E d a b g.bits p.bits, encX 0 0 (0#16 ++ 1#1 ++ 0#1 ++ dep)]
  | .ppush g a sub => [encV 0x3F 0 a sub g.bits 0]
  | .ppop g k => [encV 0x40 0 0 k g.bits 0]
  | .pmovFromPred g d => [encV 0x43 d 0 0 g.bits 0]
  | .pmovToPred g a => [encV 0x43 0 a 0 g.bits 1]
  | .plog g repl tt dx dy =>
    [encV 0x41 0 0 0 g.bits 0, encX 0 0 (0#7 ++ bit1 repl ++ tt ++ 0#1 ++ dx ++ 0#1 ++ dy)]
  | .ppick g roll k => [encV 0x42 0 0 0 g.bits 0, encX 0 0 (0#15 ++ bit1 roll ++ 0#1 ++ k)]
  | .tag g d a => encUn 0x44 g d a
  | .iota g d base stride =>
    match base with
    | .imm b => [encV 0x45 d 0 0 g.bits 0, encX 0 0 (stride ++ 0#1 ++ b)]
    | .reg a => [encV 0x45 d a 0 g.bits 0, encX 0 0 (stride ++ 1#1 ++ 0#11)]
  | .stk g d => [encV 0x46 d 0 0 g.bits 0]
  | .rep cnt1 step => [word (0x48#7 ++ cnt1 ++ step ++ 0#15)]
  | .lset g n bound => [encV 0x49 0 bound.a 0 g.bits 0, encX 0 0 (n ++ bit1 bound.rb ++ 0#1 ++ bound.v)]
  | .loop off => [encB 0x4A 0 off]
  | .asset g n field src =>
    match src with
    | .imm v => [encV 0x4B 0 0 0 g.bits 0, encX 0 0 (n ++ field ++ 1#1 ++ v)]
    | .reg a => [encV 0x4B 0 a 0 g.bits 0, encX 0 0 (n ++ field ++ 0#1 ++ 0#12)]
  | .asget g d n field => [encV 0x4C d 0 0 g.bits 0, encX 0 0 (n ++ field ++ 0#13)]
  | .kget g d n bnd => [encV 0x4D d 0 0 g.bits 0, encX 0 0 (n ++ bit1 bnd ++ 0#17)]
  | .br g off => [encB 0x50 g.bits off]
  | .jmp g a => [encV 0x51 0 a 0 g.bits 0]
  | .jmpL g a => [encV 0x51 0 a 0 g.bits 1]
  | .call g off => [encB 0x52 g.bits off]
  | .ret g => [encV 0x53 0 0 0 g.bits 0]
  | .jmpf g a l n => [encV 0x54 0 a 0 g.bits 0, encX 0 0 (0#16 ++ bit1 l ++ n)]
  | .exit g => [encB 0x55 g.bits 0]
  | .yield => [encB 0x56 0 0]
  | .meld g p4 db da => [encV 0x57 0 0 0 g.bits 0, encX 0 0 (0#13 ++ bit1 p4 ++ db ++ da)]
  | .mend g => [encV 0x58 0 0 0 g.bits 0]
  | .ldpm g n a => [encV 0x59 0 a 0 g.bits 0, encX 0 0 (0#18 ++ n)]
  | .enter na id => [encV 0x5A 0 0 0 0 0, encX 0 0 (0#3 ++ bit1 na ++ id)]
  | .leave => [encV 0x5B 0 0 0 0 0]
  | .trap g code => [encV 0x5C 0 0 0 g.bits 0, encX 0 0 (0#4 ++ code)]
  | .brk g => [encV 0x5D 0 0 0 g.bits 0]
  | .sleep src => [encV 0x5E 0 src.a 0 0 0, encX 0 0 (bit1 src.rb ++ 0#3 ++ src.v)]
  | .ipref off => [encB 0x5F 0 off]
  | .ld g d m w => encMemS 0x60 g d m w
  | .ldExt g d m w e => encMemE 0x60 g d m w e
  | .st g d m w => encMemS 0x61 g d m w
  | .stExt g d m w e => encMemE 0x61 g d m w e
  | .ldsc g d m w => encMemS 0x62 g d m w
  | .ldscExt g d m w e => encMemE 0x62 g d m w e
  | .stsc g d m w => encMemS 0x63 g d m w
  | .stscExt g d m w e => encMemE 0x63 g d m w e
  | .sld g d m w => encMemS 0x64 g d m w
  | .sldExt g d m w e => encMemE 0x64 g d m w e
  | .sst g d m w => encMemS 0x65 g d m w
  | .sstExt g d m w e => encMemE 0x65 g d m w e
  | .srenew g d m => [encM 0x66 d m 0 g.bits 0]
  | .slife g d m => [encM 0x67 d m 0 g.bits 0]
  | .amo g op d m size order c scope hint =>
    [encM 0x68 d m order g.bits size, encX c op.bits (scope ++ hint ++ 0#15)]
  | .fence scope => [encV 0x69 0 0 0 0 0, encX 0 0 (scope ++ 0#17)]
  | .waitw g d m size order c scope cond t => [encM 0x6A d m order g.bits size, encX c 0 (scope ++ cond ++ t)]
  | .prefdL1 g m => [encM 0x6B 0 m 0 g.bits 0]
  | .prefdL2 g m => [encM 0x6B 0 m 0 g.bits 1]
  | .codefetch g n m size order lines1 => [encM 0x6C n m order g.bits size, encX 0 0 (0#10 ++ lines1)]
  | .residReg g d a b prio => [encV 0x6D d a b g.bits 0, encX 0 0 (0#17 ++ prio)]
  | .residPrio g a prio => [encV 0x6D 0 a 0 g.bits 0, encX 0 1 (0#17 ++ prio)]
  | .residDemote g a prio => [encV 0x6D 0 a 0 g.bits 0, encX 0 2 (0#17 ++ prio)]
  | .residEvict g n a => [encV 0x6D n a 0 g.bits 0, encX 0 3 0#20]
  | .residDrop g a => [encV 0x6D 0 a 0 g.bits 0, encX 0 4 0#20]
  | .qpush g a n => [encV 0x6E 0 a n g.bits 0]
  | .qpop g d n => [encV 0x6F d 0 n g.bits 0]
  | .mcfg g n mask e => [encV 0x70 n mask.c 0 g.bits 0, encX 0 0 (e.bits mask.isFull)]
  | .msign n a b c => [encV 0x71 n a b 0 0, encX c 0 0#20]
  | .maccFrom g d n => [encV 0x72 d 0 0 g.bits 0, encX 0 0 (0#1 ++ 0#1 ++ n ++ 0#16)]
  | .maccTo g a n => [encV 0x72 0 a 0 g.bits 0, encX 0 0 (1#1 ++ 0#1 ++ n ++ 0#16)]
  | .mzero g n => [encV 0x73 n 0 0 g.bits 0]
  | .pld g d m size order e => [encM 0x74 d m order g.bits size, e.bits]
  | .pst g d m size order e => [encM 0x75 d m order g.bits size, e.bits]
  | .qnt g d a pos fmt sat planes sgn ctr =>
    [encV 0x76 d a 0 g.bits 0,
      encX pos.h 0 (fmt ++ pos.j ++ bit1 pos.hi ++ bit1 pos.ph ++ bit1 sat ++ planes ++ bit1 sgn ++ bit1 ctr ++ 0#4)]
  | .dqnt g d a pos => [encV 0x77 d a 0 g.bits 0, encX pos.h 0 (0#4 ++ pos.j ++ bit1 pos.hi ++ bit1 pos.ph ++ 0#11)]
  | .pump g n a b c e =>
    [encV 0x78 n a b g.bits 0, encX c 0 (e.s ++ e.d ++ e.t ++ bit1 e.fl ++ e.kind ++ e.sl ++ 0#4)]
  | .coll g n a b c e => [encV 0x79 n a b g.bits 0, encX c 0 (e.s ++ e.d ++ e.op ++ e.fmt ++ 0#8)]
  | .hwait g n => [encV 0x7A 0 0 0 g.bits 0, encX 0 0 (0#17 ++ n)]
  | .htest g d n => [encV 0x7A d 0 0 g.bits 0, encX 0 1 (0#17 ++ n)]
  | .hcancel g n => [encV 0x7A 0 0 0 g.bits 0, encX 0 2 (0#17 ++ n)]
  | .tlwait g n a => [encV 0x7A 0 a 0 g.bits 0, encX 0 3 (0#17 ++ n)]
  | .bar g n cnt =>
    match cnt with
    | .imm v => [encV 0x7B 0 0 0 g.bits 0, encX 0 0 (0#4 ++ n ++ 0#1 ++ v)]
    | .reg a => [encV 0x7B 0 a 0 g.bits 0, encX 0 0 (0#4 ++ n ++ 1#1 ++ 0#10)]
  | .gbar g => [encV 0x7B 0 0 0 g.bits 0, encX 0 1 0#20]
  | .launch g n a => [encV 0x7C n a 0 g.bits 0, encX 0 0 0#20]
  | .gridgrow g d n => [encV 0x7C d n.a 0 g.bits 0, encX 0 1 (0#3 ++ bit1 n.rb ++ n.v)]
  | .grow => [encV 0x7D 0 0 0 0 0, encX 0 0 0#20]
  | .shrink => [encV 0x7D 0 0 0 0 0, encX 0 1 0#20]
  | .sysr g d num => [encV 0x7E d 0 0 g.bits 0, encX 0 0 (0#8 ++ num)]
  | .sysw g num a => [encV 0x7E 0 a 0 g.bits 0, encX 0 1 (0#8 ++ num)]
  | .tret => [encV 0x7E 0 0 0 0 0, encX 0 2 0#20]
  | .unassignedOpcode w => [w]
  | _ => []

/-- The instruction the decoder reads from the opcode table's bits of one row: `w`'s low word first, and the word above
it as the extension word where R158 calls for one (log 14: under ES = 32). -/
def decodeTableWord (nbits w : Nat) : Option Instr :=
  let v := w % 2 ^ nbits
  let bs := Word.bytes (BitVec.ofNat 32 v) ++ Word.bytes (BitVec.ofNat 32 (v / 2 ^ 32))
  match decodeBytes .e32 bs with
  | .ok (i, _) => some i
  | .error _ => none

end Sys2Proof
end

