-- ==== Sys2Proof/Config.lean ====
section
/-!
DEFINITION. What the spec fixes for every device (R1, R2), what an implementation fixes and the spec leaves open (log 5, 10,
11, 12, 18), and the free values. A free value is a constant with no body: nothing can be proved of it.
-/

namespace Sys2Proof.Config

/-! ### Fixed by the spec -/

/-- R1: clusters of the package. -/
def clusters : Nat := 96
/-- R1: cores of the package. -/
def cores : Nat := 768
/-- R1: 2 MiB frames of one die's well (96 GiB). -/
def wellFrames : Nat := 49152
/-- R1: bytes of one die's well. -/
def wellBytes : Nat := wellFrames * 2097152
/-- R1: scratchpad bytes of one core. -/
def scratchBytes : Nat := 524288
/-- R1: seep tiles of one cluster. -/
def seepTiles : Nat := 4096
/-- R1: register storage of one quadrant. -/
def quadRegBytes : Nat := 196608
/-- R20: named barriers of one core. -/
def barrierPool : Nat := 1024
/-- R85: the life of a tile in ticks. -/
def seepLife : Nat := 65536
/-- R95: the skew margin. -/
def skew : Nat := 2

/-! ### Open values -/

/-- The n-th free value: what a result the spec leaves open holds (log 11). -/
opaque freeValue : Nat → BitVec 64

/-- What a byte of a well line decrypts to under a key other than the one it was written under (R367, log 12). -/
opaque foreignByte : Nat → Nat → Nat → BitVec 8

/-- The pattern the device offers for a special function: function number, format number, control bits, operand
pattern (R192: the same result for the same input). It is taken only when it lies within R192's bound (log 10). -/
opaque special : Nat → Nat → BitVec 6 → BitVec 64 → BitVec 64

/-- The copy of domain time a cluster reads lies at most 2 ticks past the package's (R95): its lead, modulo 3 (log 5). -/
opaque clusterLead : Nat → Nat

/-- The nominal supply voltage in millivolts that firmware gives a cluster at a frequency code (R391, log 18): cluster, code. -/
opaque nominalMv : Nat → BitVec 5 → BitVec 16

/-- The mean package power in watts over the window that ends at a tick (R393, R404, log 18). -/
opaque meanPower : Nat → Nat
/-- The highest junction temperature in the window that ends at a tick, in °C (R404, log 18). -/
opaque highestTemp : Nat → Nat

/-- Whether an RSA signature verifies over a record's bytes (R346, R347, log 12): bytes, signature. -/
opaque recordSigned : List (BitVec 8) → List (BitVec 8) → Bool

/-- The version floor of the running firmware (R346, R373, log 18). -/
opaque versionFloor : BitVec 32

/-- The image root of a partition's key generation (R368, log 12). -/
opaque imageRoot : Nat → BitVec 256

/-- HMAC-SHA-256: key, message (R368, log 12). -/
opaque hmacSha256 : BitVec 256 → List (BitVec 8) → BitVec 256

/-- AES-256-GCM: the encrypted byte at a place of an image: key, nonce, offset, record (R358, R376, log 12). -/
opaque sealByte : BitVec 256 → BitVec 96 → Nat → List (BitVec 8) → BitVec 8

/-- AES-256-GCM: the tag: key, nonce, bytes (R358, log 12). -/
opaque gcmTag : BitVec 256 → BitVec 96 → List (BitVec 8) → BitVec 128

/-- Whether a certificate chain's leaf holds the device's own key (R373, log 12). -/
opaque ownLeaf : List (BitVec 8) → Bool

/-- SHA-256 (R373, log 12). -/
opaque sha256 : List (BitVec 8) → List (BitVec 8)

/-- The running firmware image (R373, log 12). -/
opaque firmware : List (BitVec 8)

/-- A signed attestation answer: request kind and the numbers it covers (R373, log 12). -/
opaque attestation : Nat → List Nat → List (BitVec 8)

end Sys2Proof.Config
end

