-- ==== Sys2Proof/Machine/State.lean ====
section
/-!
DEFINITION. The machine's state, all of it plain data (INVENTORY.md lists every piece with its rule), the reasons a step
can stop, and the state after reset. Lists stand for sparse collections: what is not listed holds its default.
-/

namespace Sys2Proof.Machine

/-- Reasons a step stops. -/
inductive Fault
  /-- Raised by a perform at a well or host physical address outside the capacity of R1 (log 6). Safe: the machine stops. -/
  | noSuchAddress (key : Nat)
deriving DecidableEq, Repr

/-- Reasons a step has no meaning. -/
inductive Refusal
  /-- Raised by an arm of `exec` whose instruction has no meaning yet. Safe: the machine stops. -/
  | notModelled (mnemonic : String)
deriving DecidableEq, Repr

/-! ### Registers and threads -/

/-- The shape tag of a register (R167). -/
inductive Tag
  | general
  | uniform
  | affine (base stride : Lane) (es : Es)
deriving DecidableEq, Repr

/-- One vector register: 32 lanes, its tag, and the lanes whose 64 bits failed SECDED correction (R87, R168, R395). -/
structure VReg where
  lanes  : List Lane := List.replicate 32 0
  tag    : Tag := .uniform
  poison : Mask := 0
deriving DecidableEq, Repr

/-- The region state of a thread (R44): outside, or inside with a path. -/
abbrev Region := Option (BitVec 2)

/-- A thread's place inside a clause (R44 to R46): the header's address and word, the position of its next instruction,
the issue of the skein that issued the header, and the words of the clause, which the header's demand fetch brought (R331). -/
structure Clause where
  hdr    : Lane
  word   : Word
  slot   : Nat
  serial : Nat
  body   : List Word
deriving DecidableEq, Repr

/-- A running repetition (R219): count, step mask, the next index, and the PC and slot of the `rep`. -/
structure RepRun where
  count : Nat
  step  : BitVec 4
  idx   : Nat
  pc    : Lane
  slot  : Nat
deriving DecidableEq, Repr

/-- One thread (R44). `clause` is none at a clause header. -/
structure Thread where
  pc      : Lane := 0
  link    : Lane := 0
  exited  : Bool := true
  region  : Region := none
  clause  : Option Clause := none
  pred    : BitVec 8 := 0
  sticky  : BitVec 6 := 0
  starve  : Nat := 0
  yielded : Bool := false
  repMark : Bool := false
  rep     : Option RepRun := none
  /-- The wait it stands in (R25). -/
  waiting : Option Nat := none
deriving DecidableEq, Repr

/-- The instruction being issued: what `exec` acts on (log 1). -/
structure Issue where
  sk     : Nat := 0
  mask   : Mask := 0
  pc     : Lane := 0
  hdr    : Lane := 0
  word   : Word := 0
  slot   : Nat := 0
  words  : List Word := []
  /-- The PC after the instruction, and the header after its clause. -/
  next   : Lane := 0
  follow : Lane := 0
  last   : Bool := true
  serial : Nat := 0
  body   : List Word := []
  rep    : Option RepRun := none
deriving DecidableEq, Repr

/-! ### Skeins -/

/-- One level of the loop-nest unit (R214). -/
structure LoopLevel where
  counter : BitVec 32 := 0
  bound   : BitVec 32 := 0
  active  : Bool := false
deriving DecidableEq, Repr

/-- One address stream (R217). -/
structure Stream where
  base : Lane := 0
  tag  : BitVec 2 := 0
  c0   : BitVec 32 := 0
  c1   : BitVec 32 := 0
  c2   : BitVec 32 := 0
  c3   : BitVec 32 := 0
  lane : BitVec 32 := 0
deriving DecidableEq, Repr

/-- One entry of the region stack (R234). -/
structure RegionEntry where
  id : BitVec 16
  na : Bool
deriving DecidableEq, Repr

/-- One register write of a long operation: physical register, lane, value, and whether its data is poisoned (R395). -/
structure LaneWrite where
  reg  : Nat
  lane : Nat
  val  : Lane
  poison : Bool := false
deriving DecidableEq, Repr

/-- Why a long operation's register never lands: a remote fault (R112), or a replay entry that failed, for want of a translation
(R115) or of a permission (R363, R386): its address and access kind. -/
inductive OpFail
  | remote
  | replay (addr : Lane) (kind : Byte)
  | denied (addr : Lane) (kind : Byte)
deriving DecidableEq, Repr

/-- A long operation in flight (R143, R307, R308). -/
structure LongOp where
  id     : Nat
  lanes  : Mask := 0
  pend   : List Nat := []
  held   : List Nat := []
  setA   : Option (BitVec 4) := none
  setB   : Option (BitVec 4) := none
  /-- Accesses or steps still to come before the write can land. -/
  await  : Nat := 0
  writes : List LaneWrite := []
  /-- Predicates pushed at landing (R88), flags set at landing (R213). -/
  pushes : List (Nat × Bool) := []
  flags  : List (Nat × BitVec 6) := []
  /-- The tag is uniform when all lanes wrote equal values (R244). -/
  uni    : Bool := false
  /-- The address every lane of a load used, for R244. -/
  load   : Bool := false
  /-- Its landing pushes predicates (R88). -/
  pushing : Bool := false
  fail   : Option OpFail := none
  /-- A matrix operation's hold tracks setB (R267): a write to it waits. -/
  matrix : Bool := false
  /-- The wait of a `pld` whose header has not arrived (R272). -/
  forWait : Option Nat := none
  /-- The tick it began, and the issue of the skein that began it (R143). -/
  sent   : Nat := 0
  serial : Nat := 0
deriving DecidableEq, Repr

/-- A fault record (R113). -/
structure FaultRec where
  lane : Nat
  pc   : Lane
  addr : Lane
  code : Byte
  /-- The load whose register stays pending because of it (R112). -/
  op   : Option Nat := none
deriving DecidableEq, Repr

/-- What a waiting group waits for (R25). -/
inductive WaitKind
  /-- `bar`: barrier, generation (R30). -/
  | bar (n gen : Nat)
  /-- `gbar`: generation (R33). -/
  | gbar (gen : Nat)
  /-- `bar` and `gbar` before their release is met and their arrivals are counted (R31, R33). -/
  | barPre
  | gbarPre
  | grow
  | shrink
  | hwait (n : Nat)
  | sysr (n : Nat)
  | tlwait (n : Nat) (v : Lane)
  /-- `waitw`: the tick it began, and the tick its timeout passes. -/
  | waitw (start : Nat) (limit : Option Nat)
  | sleep (wake : Nat)
  | qpush (n : Nat)
  | qpop (n : Nat)
  | fence (scope : Nat)
  /-- `pld` until its header has arrived. -/
  | pld
  /-- `gridgrow`: the amount asked for, and when the request reached the dispatcher. -/
  | gridgrow (n arrived : Nat)
  /-- A synchronising cross-lane instruction: its mask (R56); before it, the wait for a pending mask register (R200). -/
  | sync (mask : Mask)
  | syncPre
  /-- Held by a replayable translation fault: sequence number (R363). -/
  | replay (seq : Nat)
  /-- `exit` waiting for acknowledgements (R40). -/
  | exit
  /-- Stopped by an uncovered demand for an instruction line (R331). -/
  | fetch
deriving DecidableEq, Repr

/-- One waiting group (R25). -/
structure Wait where
  id    : Nat
  kind  : WaitKind
  lanes : Mask
  instr : Instr
  issue : Issue
  es    : Es
  /-- The order in which the waits began, and the tick at which this one did (R34). -/
  since : Nat
  tick  : Nat := 0
  /-- `waitw`: the last value read per lane, and the lanes of peer pages that a re-read was sent for (R250). -/
  vals  : List (Nat × Lane) := []
  asked : List Nat := []
  /-- `waitw`: the tick of its last re-read (R250). -/
  readAt : Nat := 0
  /-- `waitw` and `pld`: the space tag, and per lane the address, as the stream formed them at issue (R217, R239). -/
  space : BitVec 2 := 0
  addrs : List (Nat × Lane) := []
deriving DecidableEq, Repr

/-- The hidden trap state (R350): the trapped lanes and, per lane, what the entry stored. -/
structure Hidden where
  lanes   : Mask
  threads : List Thread
  susp    : Bool
  nextIdx : BitVec 6
  issue   : Issue
  /-- The handler has written sys.fltpc (R351). -/
  pcSet   : Bool := false
  /-- The wait of the trapped group whose barrier arrivals stay counted (R341), and whether that generation has opened
  since. -/
  counted : Option Wait := none
  opened  : Bool := false
deriving DecidableEq, Repr

/-- The block the alteration engine follows (R318): start PC, the PC expected next, instructions issued and in all, the
input registers' values at entry (R320) and as the block read them (R323), and whether a ghost run of its entry had not ended then
(R323). -/
structure BlockTrack where
  start  : Lane
  next   : Lane
  lanes  : Mask
  count  : Nat
  total  : Nat
  inputs : List (Nat × List Lane)
  reads  : List (Nat × List Lane) := []
  late   : Bool := false
deriving DecidableEq, Repr

/-- What an access does when it is performed. -/
inductive AccKind
  | load (sx : Bool)
  | store
  | atomic (op : AmoOp)
  | panelRead
  | panelWrite
  | seepLoad (sx : Bool)
  | seepStore
  | renew
  | life
deriving DecidableEq, Repr

/-- One lane's part of an access: lane, virtual address or offset, physical key or offset, data, comparand, destination
register. -/
structure LaneAcc where
  lane : Nat
  va   : Lane
  addr : Nat
  data : Lane := 0
  cmp  : Lane := 0
  reg  : Nat := 0
deriving DecidableEq, Repr

/-- Where an access goes. -/
inductive Place
  | global
  | scratch (base : Nat)
  | seep (inst : Nat)
  | peer (dev : Nat)
deriving DecidableEq, Repr

/-- A request in flight: one line, tile or location of one instruction (R96, R244). -/
structure Access where
  id    : Nat
  /-- Its place in the order of issue; one that a restore sends anew keeps it (R97, R101, R115). -/
  seq   : Nat
  sk    : Nat
  op    : Option Nat
  grid  : Option Nat := none
  ctx   : Nat
  /-- The owner tag it was issued under (R368). -/
  owner : Nat := 0
  core  : Nat
  kind  : AccKind
  place : Place
  width : Nat
  lanes : List LaneAcc
  pc    : Lane
  instr : Instr
  /-- Bytes of a panel, header first then payload, and the header's address. -/
  bytes : List Byte := []
  hdrAt : Lane := 0
  order : BitVec 2 := 0
  scope : Nat := 0
  hint  : BitVec 2 := 0
  /-- Performed; the WCT not yet returned (R98). -/
  done  : Bool := false
  wct   : Nat := 0
  /-- The tick it was issued, or left for its peer; whether it has left (R97, R101). -/
  sent  : Nat := 0
  out   : Bool := false
  /-- A replay entry held by a replayable fault: sequence number (R115, R363). -/
  held  : Option Nat := none
  replay : Bool := false
  sample : Option Nat := none
deriving DecidableEq, Repr

/-- One skein. -/
structure Skein where
  uid     : Nat := 0
  ctx     : Nat := 0
  /-- The team's uid. The conductor has a pseudo team of its own (R343). -/
  team    : Nat := 0
  index   : Nat := 0
  conductor : Bool := false
  /-- Core and slot; none while swapped out (R39) or out with its context. -/
  core    : Nat := 0
  slot    : Option Nat := none
  quad    : Nat := 0
  /-- Age: the tick and serial at which it became resident (R25). -/
  age     : Nat := 0
  regCount : Nat := 16
  regs    : List VReg := List.replicate 64 {}
  threads : List Thread := List.replicate 32 {}
  flags   : List Nat := List.replicate 12 0
  ops     : List LongOp := []
  levels  : List LoopLevel := List.replicate 4 {}
  streams : List Stream := List.replicate 16 {}
  hd      : List Lane := List.replicate 8 0x00FF000000000000
  /-- Where a handle's failure or fetched range is kept: the operation's uid (R228, R277). -/
  hdOp    : List (Option Nat) := List.replicate 8 none
  pm      : List Lane := List.replicate 4 0x0000FFEF7CEFAE78
  susp    : Bool := false
  repNext : BitVec 6 := 0
  regions : List RegionEntry := []
  flt     : Lane := 0
  fltpc   : Lane := 0
  fltaddr : Lane := 0
  fltlanes : Lane := 0
  fltaux  : Lane := 0
  handler : Option Hidden := none
  /-- Stopped at an escalation (R352): the escalating instruction's place. -/
  escalated : Option Issue := none
  /-- The largest WCT returned per scope .tm, .dv, .dm, .sy (R98). -/
  wct     : List Nat := [0, 0, 0, 0]
  /-- Unacknowledged posted remote stores (R111). -/
  unacked : Nat := 0
  faultQ  : List FaultRec := []
  faultHeld : List FaultRec := []
  waits   : List Wait := []
  /-- Copies filled before this tick are refused (R101). -/
  acquire : Nat := 0
  /-- Lines that the skein has read or written past its core's copy, and when: an older copy of them is refused (R97, R105). -/
  floors  : List (Nat × Nat) := []
  issues  : Nat := 0
  /-- Translation retries of the instruction at a PC (R403). -/
  retries : Lane × Nat := (0, 0)
  /-- Instructions that will issue again although their issue was counted: PC, whether it was sampled (R401). -/
  again   : List (Lane × Bool) := []
  /-- The watchdog's count (R341) and the tick it last moved. -/
  idle    : Nat := 0
  idleAt  : Nat := 0
  block   : Option BlockTrack := none
  /-- Lines that demand fetches have brought to level 0 for clauses that have not issued: header, line (R332). -/
  demand  : List (Lane × Nat) := []
  /-- Arrivals counted at a barrier whose generation has not opened: lane, generation (R30, R32, R33). -/
  counted : List (Nat × WaitKind) := []
  /-- The offset of its slot in the save area (R356); the loads a swap-out turned into replay entries (R115). -/
  area    : Option Nat := none
  replays : List Access := []
  /-- The bytes a swap-out gave its slot. -/
  saved   : List Byte := []
deriving DecidableEq, Repr

/-! ### Teams, grids, seep -/

/-- A named barrier (R30). -/
structure Barrier where
  gen      : Nat := 0
  arrived  : Nat := 0
  expected : Nat := 0
deriving DecidableEq, Repr

/-- A signature of a matrix operation (R262): the skein, the resolved registers, the copied headers. -/
structure Sign where
  sk      : Nat
  quad    : Nat
  a       : List Nat
  b       : List Nat
  c       : List Nat
  headers : List Lane
  op      : Nat
deriving DecidableEq, Repr

/-- One convergence register (R260). -/
structure Cv where
  state   : BitVec 2 := 0
  fail    : Bool := false
  done    : BitVec 4 := 0
  decl    : BitVec 20 := 0
  /-- The signer set: (skein uid, lane) that have neither signed nor exited. -/
  unsigned : List (Nat × Nat) := []
  signed  : List (Nat × Nat) := []
  signs   : List Sign := []
  uid     : Nat := 0
deriving DecidableEq, Repr

/-- One team (R9, R10, R42). -/
structure Team where
  uid      : Nat := 0
  ctx      : Nat := 0
  grid     : Option Nat := none
  index    : Nat := 0
  size     : Nat := 32
  core     : Nat := 0
  resident : Bool := true
  regs0    : Nat := 16
  barriers : List Barrier := []
  scratchBase  : Nat := 0
  scratchBytes : Nat := 0
  qw       : List Lane := List.replicate 8 0
  qhead    : List Nat := List.replicate 8 0
  tl       : List Lane := List.replicate 8 0
  tlIssued : List Nat := List.replicate 8 0
  cv       : List Cv := List.replicate 8 {}
  /-- The offset of its slot in the save area (R356). -/
  area     : Option Nat := none
deriving DecidableEq, Repr

/-- One grid (R9, R12). -/
structure Grid where
  uid       : Nat := 0
  ctx       : Nat := 0
  record    : List Byte := []
  recAddr   : Lane := 0
  count     : Nat := 0
  next      : Nat := 0
  size      : Nat := 0
  regs      : Nat := 16
  barriers  : Nat := 0
  scratch   : Nat := 0
  seep      : Nat := 0
  coop      : Bool := false
  prio      : Nat := 0
  entry     : Lane := 0
  param     : Lane := 0
  affinity  : List Nat := []
  cAddr     : Lane := 0
  cVal      : Lane := 0
  depth     : Nat := 1
  parent    : Option Nat := none
  order     : Nat := 0
  /-- The launch operation on tl7 (R290). -/
  op        : Nat := 0
  barGen    : Nat := 0
  barArrived : Nat := 0
  cancelled : Bool := false
  seepSeq   : Nat := 0
  /-- The largest completion time of stores whose skein has gone (R18). -/
  wct       : Nat := 0
  /-- The completion word is written: its completion time. -/
  word      : Option Nat := none
  /-- The completion word is held by a replayable fault, or has failed (R364). -/
  held      : Option Nat := none
  failed    : Bool := false
  /-- The offset of its slot in the save area (R356). -/
  area      : Option Nat := none
deriving DecidableEq, Repr

/-- State of a seep tile (R83). -/
inductive TileState | empty | live | expired
deriving DecidableEq, Repr

/-- One seep tile that is not in its initial state (R83, R89). -/
structure Tile where
  idx    : Nat
  state  : TileState := .empty
  birth  : BitVec 32 := 0
  valid  : BitVec 16 := 0
  /-- A renew occupies the tile until this tick (R89). -/
  busy   : Option Nat := none
deriving DecidableEq, Repr

/-- One seep instance (R63, R94). -/
structure SeepInst where
  uid     : Nat
  grid    : Nat
  cluster : Nat
  logical : Nat
  tiles   : Nat
  states  : List Tile := []
deriving DecidableEq, Repr

/-- One accumulator of a quadrant that differs from its initial state (R258). -/
structure Acc where
  core    : Nat
  quad    : Nat
  n       : Nat
  rows    : List (List Word) := []
  owner   : Option Nat := none
  ownerCtx : Option Nat := none
  /-- Uncompleted operations that name it (R259). -/
  pending : List Nat := []
deriving DecidableEq, Repr

/-! ### Memory system -/

/-- A sampled memory instruction (R401, R403): what its record will hold, and the accesses still to complete. -/
structure Sample where
  id    : Nat
  ctx   : Nat
  /-- The record's first 32 bytes, as they stood at issue. -/
  head  : List Byte
  left  : Nat
  since : Nat
  taken : Mask
  op    : Nat
  form  : Nat
  lines : Nat
  sectors : Nat
  replays : Nat
  last  : Nat := 0xFF
  serve : Nat := 0
  at'   : Nat := 0
deriving DecidableEq, Repr

/-- A leased copy of a line (R68): where (a core's L1 or a die's L2), its bytes, lease end, fill tick, last use. -/
structure Copy where
  l2    : Bool
  place : Nat
  line  : Nat
  bytes : List Byte
  lease : Nat
  fill  : Nat
  used  : Nat
  keep  : Bool := false
  early : Bool := false
  /-- The owner tag (R368): the partition that filled it. -/
  owner : Nat := 0
deriving DecidableEq, Repr

/-- What a home records of a line in the slices of a partition (R69, R75, R365). -/
structure HomeLine where
  line  : Nat
  lease : Nat := 0
  keep  : Bool := false
  early : Bool := false
  cached : Bool := false
  used  : Nat := 0
  /-- The owner tag (R368): the partition whose slices hold it. -/
  owner : Nat := 0
deriving DecidableEq, Repr

/-- A residency handle (R71). -/
structure Resid where
  ctx   : Nat
  num   : Nat
  base  : Lane
  len   : Lane
  prio  : Nat
  owner : Option Nat
deriving DecidableEq, Repr

/-- A Dowser counter (R77): region (2 MiB) and the four dies' counts. -/
structure DowserCount where
  region : Nat
  counts : List Nat
deriving DecidableEq, Repr

/-- The Dowser's table: where a 2 MiB page of well memory now lies (R80): page, die, frame. -/
structure WellMap where
  page  : Nat
  die   : Nat
  frame : Nat
deriving DecidableEq, Repr

/-- A move in progress (R79). -/
structure Move where
  page  : Nat
  die   : Nat
  frame : Nat
  chunk : Nat
  part  : Nat
deriving DecidableEq, Repr

/-- A cached translation (R362). -/
structure TlbEntry where
  ctx   : Nat
  vf    : Option Nat
  page  : Nat
  size  : Nat
  kind  : BitVec 2
  dev   : Nat
  base  : Nat
  perm  : BitVec 3
  /-- The owner tag (R368). -/
  owner : Nat := 0
deriving DecidableEq, Repr

/-- An instruction line held in a core's L1I (`quad` none) or a quadrant's level-0 cache (R331). One that has left the L1I is `gone`: a
fill brings its bytes again until a `codefetch` lets go of it, since stores to code do not take effect before (R328). -/
structure ILine where
  core  : Nat
  quad  : Option Nat
  ctx   : Nat
  line  : Nat
  bytes : List Byte
  used  : Nat
  /-- The owner tag (R368). -/
  owner : Nat := 0
  /-- Where its bytes lie. -/
  key   : Nat := 0
  gone  : Bool := false
deriving DecidableEq, Repr

/-- A fetch of an instruction line in flight (R331): for whom, and for which fetch operation. -/
structure IReq where
  core  : Nat
  ctx   : Nat
  line  : Nat
  quads : List Nat
  ops   : List Nat
deriving DecidableEq, Repr

/-! ### Engines -/

/-- What an operation of a timeline does. -/
inductive OpKind
  | pump (kind : BitVec 2) (fl : Bool)
  | coll (op fmt : BitVec 2)
  | fetch
  | evict
  | launch
deriving DecidableEq, Repr

/-- A message of an engine to a peer that is not answered (R278, R380): the index of the answer, the address of its first byte, when it
was sent, its name among all that begins (R362), and the lines that no panel access may touch until the answer (R106). -/
structure PeerMsg where
  num   : Nat
  va    : Lane
  tick  : Nat := 0
  id    : Nat := 0
  lines : List (Place × Nat) := []
deriving DecidableEq, Repr

/-- One operation numbered on a timeline (R109, R277). -/
structure EngineOp where
  uid    : Nat := 0
  ctx    : Nat := 0
  team   : Nat := 0
  core   : Nat := 0
  sk     : Nat := 0
  tl     : Nat := 0
  num    : Nat := 0
  kind   : OpKind := .fetch
  prio   : Nat := 0
  order  : Nat := 0
  /-- (source address, destination address, bytes) of each part. -/
  parts  : List (Lane × Lane × Nat) := []
  /-- Header addresses of a panel pump and their spaces: source, destination. -/
  hdrs   : Lane × Lane := (0, 0)
  hdrPls : Place × Place := (.global, .global)
  slot   : Nat := 0
  srcPl  : Place := .global
  dstPl  : Place := .global
  pos    : Nat := 0
  total  : Nat := 0
  flagAt : Nat := 0
  flagV  : Lane := 0
  wct    : Nat := 0
  /-- Writes to peers that are not acknowledged. -/
  outs   : List PeerMsg := []
  status : Byte := 0
  failAddr : Lane := 0
  cancel : Bool := false
  held   : Option Nat := none
  /-- Nothing more to do but to complete; its flag is written (R107). -/
  ready  : Bool := false
  flagged : Bool := false
  done   : Bool := false
  /-- A sluice operation: group, root, count, started, ranks heard from with their data. -/
  group  : Nat := 0
  root   : Nat := 0
  count  : Nat := 0
  members : Nat := 0
  seq    : Nat := 0
  since  : Nat := 0
  heard  : List (Nat × List Byte) := []
  /-- This device's rank, and the members' domain numbers as the join read them (R389). -/
  rank   : Nat := 0
  devs   : List Nat := []
  /-- The segment at hand: the peer units that a pump has asked for; what has been read stands in `heard`. -/
  asked  : List PeerMsg := []
  /-- Lines that it waits for, while an access to a peer holds them (R106, R282). -/
  wants  : List (Place × Nat) := []
  /-- All of it, once it has been read, and the units already written. -/
  seg    : Option (List Byte) := none
  wrote  : List Nat := []
  /-- Bytes a pump has read and written in each 2 MiB region (R77): twice the region, one more for writing. -/
  moved  : List (Nat × Nat) := []
  /-- Tiles that the segment at hand found busy: instance, tile, and the name that marks its place in the order of arrival (R90). -/
  atTiles : List (Nat × Nat × Nat) := []
  /-- A fetch operation: lines still to land, and its range. -/
  lines  : List Nat := []
  first  : Nat := 0
deriving DecidableEq, Repr

/-- One entry of a core's reservation table (R265). -/
structure MatEntry where
  core   : Nat
  team   : Nat
  cv     : Nat
  ctx    : Nat
  prio   : Nat
  acc    : Nat
  declared : Nat
  order  : Nat
  inTable : Bool := true
  running : Bool := false
  /-- The tick at which its running pass ends (R265). -/
  ends    : Nat := 0
deriving DecidableEq, Repr

/-- States of a heat entry (R324). -/
inductive HeatState | counting | recording | searching | basting
deriving DecidableEq, Repr

/-- What a ghost run compares (R323, R327): inputs, results, lanes; and the executing skein's top regions (R329). -/
structure Ghost where
  inputs  : List (Nat × List Lane)
  results : List (Nat × List Lane)
  lanes   : Mask
  regions : List Byte := []
deriving DecidableEq, Repr

/-- One entry of a core's heat table (R319 to R324). -/
structure Heat where
  core   : Nat
  ctx    : Nat
  pc     : Lane
  words  : List Word
  es     : Es
  /-- The block is linear, else bitwise (R318). -/
  lin    : Bool := true
  count  : Nat
  start  : Nat
  state  : HeatState := .counting
  /-- Ghost slots spent on candidates that failed (R322). -/
  ghosts : Nat := 0
  /-- Input values of one lane each, in ascending register order. -/
  swatches : List (List Lane) := []
  cand   : List Word := []
  clean  : Nat := 0
  /-- A basting guard (R323). -/
  guard  : Option Ghost := none
  /-- The skein that executed the block last. -/
  runner : Nat := 0
deriving DecidableEq, Repr

/-- One entry of a core's alteration store (R325 to R327). -/
structure Altered where
  core  : Nat
  ctx   : Nat
  pc    : Lane
  id    : BitVec 16
  orig  : List Word
  words : List Word
  es    : Es
  /-- Executions since the last clean check, and the tick of the last one. -/
  since : Nat := 0
  used  : Nat := 0
  /-- A running seam check (R327). -/
  seam  : Option Ghost := none
  /-- The entry's parity holds. -/
  parity : Bool := true
  runner : Nat := 0
deriving DecidableEq, Repr

/-- An opened barrier whose skeins are released in waves (R34, R35, R396). -/
structure Release where
  uid     : Nat
  /-- The waits it ends. -/
  kind    : WaitKind
  /-- (cluster, skein) still to be released, in the order of release. -/
  skeins  : List (Nat × Nat)
  /-- Clusters whose first wave has not begun, in R35's order. -/
  clusters : List Nat
  /-- Clusters under way: cluster, tick of the first wave, waves begun. -/
  begun   : List (Nat × Nat × Nat) := []
  /-- Wave size and gap of each cluster, as they stood when the barrier opened (R289, R396). -/
  shape   : List (Nat × Nat × Nat)
  /-- The first waves of the clusters follow one another by a cycle: the earliest start of the next, in ticks / 2^16 (R396). -/
  after   : Nat := 0
deriving DecidableEq, Repr

/-! ### Contexts, partitions, device -/

/-- States of a context (R342). -/
inductive CtxState | free | stopped | running | saving | saved | restoring | killing | lost | starting
deriving DecidableEq, Repr

/-- A write of the device's own that is held (R364). -/
structure DevWrite where
  kind  : BitVec 2
  addr  : Lane
  bytes : List Byte
deriving DecidableEq, Repr

/-- A held replayable fault (R363). -/
structure HeldFault where
  seq   : Nat
  kind  : Byte
  addr  : Lane
  bad   : Bool
  sk    : Option Nat := none
  op    : Option Nat := none
  acc   : Option Nat := none
  grid  : Option Nat := none
deriving DecidableEq, Repr

/-- A single step in progress (R399): the skein once it is placed, since when it may issue, whether it has, and whether the
context is being saved again. -/
structure StepRun where
  sk     : Option Nat := none
  since  : Option Nat := none
  issued : Bool := false
  saving : Bool := false
deriving DecidableEq, Repr

/-- The debug block of a context (R398). -/
structure Debug where
  err    : Byte := 0
  busy   : Bool := false
  att    : Bool := false
  stopId : Lane := 0
  tren   : BitVec 4 := 0
  k      : BitVec 5 := 0
  stopEn : BitVec 4 := 0
  /-- The tick of the last write of STOPEN or STOPID, and what they held before that tick (R400). -/
  stopsAt : Nat := 0
  stopsWere : BitVec 4 × Lane := (0, 0)
  sbase  : Lane := 0
  scap   : BitVec 32 := 0
  skn    : BitVec 5 := 0
  team   : BitVec 24 := 0
  /-- A single step in progress. -/
  step   : Option StepRun := none
  /-- Sample counts per core (R401). -/
  counts : List (Nat × Nat) := []
deriving DecidableEq, Repr

/-- A saved skein of an image (R356). -/
structure SavedSkein where
  sk     : Skein
  replay : List Access := []
deriving DecidableEq, Repr

/-- A saved seep instance (R93): its name, grid, logical number and tiles, the teams that share it, the tiles with their
remaining life, the bytes of valid sectors, and the poisoned granules among them. -/
structure SavedSeep where
  uid     : Nat
  grid    : Nat
  logical : Nat
  tiles   : Nat
  teams   : List Nat
  states  : List (Tile × Nat)
  bytes   : List (Nat × Byte)
  poison  : List Nat
deriving DecidableEq, Repr

/-- A context's image (R356, log 9): the image root generation that seals it, what it records, and its records as the save
area was given them: offset and bytes. -/
structure Image where
  ctx     : Nat
  key     : Nat
  part    : Nat
  prot    : Bool
  grids   : List Grid
  teams   : List Team
  skeins  : List SavedSkein
  seeps   : List SavedSeep
  accs    : List Acc
  mats    : List MatEntry
  /-- Per team: its scratch, and the offsets of its poisoned granules. -/
  scratch : List (Nat × List Byte × List Nat)
  handles : List Resid
  paused  : List EngineOp
  records : List (Nat × List Byte)
deriving DecidableEq, Repr

/-- One context: its control block (R340), its per-context registers and what the device keeps for it. -/
structure Context where
  num     : Nat := 0
  state   : CtxState := .free
  err     : Byte := 0
  dev     : Bool := false
  root    : Lane := 0
  trapPc  : Lane := 0
  saveBase : Lane := 0
  saveSize : Lane := 0
  evBase  : Lane := 0
  evCap   : BitVec 32 := 0
  msix    : BitVec 16 := 0
  part    : Nat := 0
  wake    : Lane := 0
  condPc  : Lane := 0
  condParam : Lane := 0
  saveCnt : Lane := 0
  wdog    : BitVec 32 := 0
  dfAddr  : Lane := 0
  dfKind  : Byte := 0
  dfDrop  : BitVec 32 := 0
  /-- sys.lease (R68) and sys.altctl (R316). -/
  lease   : Nat := 32
  altctl  : Lane := 0x0000000810000A61
  conductor : Option Nat := none
  /-- The function it is assigned to (R339). -/
  vf      : Option (Nat × Nat) := none
  image   : Option Image := none
  /-- Halting for: the command's event, when asked (R354); the image being written once the skeins are halted. -/
  halting : Option Nat := none
  halted  : Bool := false
  haltEvent : Byte := 0
  preemptedBy : Nat := 0
  /-- The context table (R114): per skein uid, the WCTs, acknowledgements and records that arrived while it was out. -/
  outWct  : List (Nat × Nat × Nat) := []
  outAcks : List (Nat × Nat) := []
  outRecs : List (Nat × FaultRec × Bool) := []
  outVals : List (Nat × Nat × List LaneWrite) := []
  faults  : List HeldFault := []
  faultSeq : Nat := 0
  /-- Event records appended since the start (R345). -/
  produced : Nat := 0
  held    : Option DevWrite := none
  queued  : List DevWrite := []
  dbg     : Debug := {}
deriving DecidableEq, Repr

/-- States of a partition (R366). -/
inductive PartState | idle | active | lost
deriving DecidableEq, Repr

/-- One partition's block (R366) and what the device keeps for it. -/
structure Partition where
  num    : Nat := 0
  state  : PartState := .idle
  err    : Byte := 0
  prot   : Bool := false
  rek    : Bool := false
  pmsix  : Lane := 0
  frames : List (Nat × Nat) := List.replicate 4 (0, 0)
  dowser : Bool := false
  sweepDie : Nat := 0
  sweepLine : Nat := 0
  reach  : List Bool := []
  clock  : Nat := 18
  /-- Key generations (R368, log 12): the memory key, the one being replaced, the image root. -/
  memKey : Nat := 0
  oldKey : Nat := 0
  imgKey : Nat := 0
  /-- What index 3 of the measurements covers: the block at activate (R373). -/
  measured : List Byte := []
  /-- The tenant's session (R371, R374). -/
  slice  : Nat := 0
  hb     : Nat := 0
  deadline : Nat := 0
  session : Bool := false
  /-- The last slice boundary (R371). -/
  sliceAt : Nat := 0
  /-- Since when no context of it has counted for the deadline (R374). -/
  idleSince : Option Nat := none
  /-- Writes of sys.slew under way (R289): (cluster, tick it was issued, value), oldest first. -/
  slewWrites : List (Nat × Nat × Lane) := []
deriving DecidableEq, Repr

/-- The configuration record as the device keeps it (R347). -/
structure Record where
  version : BitVec 32 := 0
  mode    : Nat := 1
  vfs     : Nat := 0
  ports   : BitVec 18 := 0
  domain  : BitVec 9 := 0
  master  : Bool := false
  clocks  : List (Nat × Nat) := []
  prot    : List Bool := []
  chain   : List Byte := []
  /-- The record's bytes, for index 2 of the measurements (R373). -/
  raw     : List Byte := []
deriving DecidableEq, Repr

/-- One Ubend port (R379 to R384). -/
structure Port where
  num     : Nat := 0
  retries : BitVec 16 := 0
  far     : BitVec 9 := 0
  state   : BitVec 4 := 0
  hold    : Bool := false
  /-- Receiving: the next seq expected, the cumulative counts of buffers freed, and since when counts are to be returned. -/
  expect  : BitVec 16 := 0
  freed   : List (BitVec 16) := [0, 0, 0, 0]
  owed    : Option Nat := none
  /-- A retry has been asked for and the flit it names has not come (R383). -/
  asking  : Bool := false
  /-- Sending: the next seq, the counts S and the counters F of R382, flits that wait, unacknowledged flits (R383). -/
  nextSeq : BitVec 16 := 0
  sent    : List (BitVec 16) := [0, 0, 0, 0]
  got     : List (BitVec 16) := [0, 0, 0, 0]
  out     : List Flit := []
  replay  : List Flit := []
  /-- R384: flits of a lost path, which go before any new request, and the requests of this port that a change of path waits
  for. -/
  lost    : List Flit := []
  old     : List (BitVec 16) := []
  /-- The seq the last retry requests named, and how many did (R383). -/
  asked   : BitVec 16 := 0
  rounds  : Nat := 0
  timeAt  : Nat := 0
  /-- The flits put on the link, oldest first. -/
  wire    : List Flit := []
deriving DecidableEq, Repr

/-- The power block of a cluster (R391). -/
structure Power where
  cluster : Nat := 0
  u       : BitVec 8 := 0
  freq    : BitVec 5 := 18
  uncor   : BitVec 32 := 0
  corr    : BitVec 32 := 0
  mev     : BitVec 32 := 0
  gapMin  : BitVec 8 := 0
  waveMax : BitVec 6 := 63
  thr     : BitVec 15 := 16
  uven    : Bool := true
  /-- The running window of R394: when it began, its correctable errors, whether an uncorrectable one fell in it. -/
  since   : Nat := 0
  window  : Nat := 0
  struck  : Bool := false
  /-- The ticks at which the raises in force expire (R395). -/
  raises  : List Nat := []
  /-- The frequency steps under way (R392): the code aimed at, and the tick the running step completes. -/
  target  : Option (BitVec 5) := none
  stepAt  : Nat := 0
deriving DecidableEq, Repr

/-- The telemetry block (R404). -/
structure Telemetry where
  softCor : Lane := 0
  softUnc : Lane := 0
  margin  : Lane := 0
  seam    : BitVec 32 := 0
  sewn    : BitVec 32 := 0
  parity  : BitVec 32 := 0
  baste   : BitVec 32 := 0
  temp    : BitVec 16 := 0
  watts   : BitVec 16 := 0
  window  : Lane := 0
deriving DecidableEq, Repr

/-! ### The machine -/

/-- What the machine does next, when it is not the model's own choice (log 1). -/
inductive Act
  /-- Time passes. -/
  | tick (n : Nat)
  /-- One of the device's own, the host's or a peer's steps. -/
  | event (i : Instr)
  /-- A skein issues. -/
  | issue (sk : Nat)
deriving DecidableEq, Repr

/-- Memory: cells in rising address order, none equal to what an unlisted address reads as (log 3, 7). -/
abbrev Memory := List Host.Cell

/-- The whole machine. -/
structure State where
  now      : Nat := 0
  -- work
  skeins   : List Skein := []
  teams    : List Team := []
  grids    : List Grid := []
  seeps    : List SeepInst := []
  accs     : List Acc := []
  releases : List Release := []
  -- memory
  mem      : Memory := []
  poisoned : List Nat := []
  accesses : List Access := []
  samples  : List Sample := []
  copies   : List Copy := []
  homes    : List HomeLine := []
  /-- The latest lease end among the lines whose record a home has lost: die, partition, tick (R69). -/
  lostLeases : List (Nat × Nat × Nat) := []
  resids   : List Resid := []
  dowser   : List DowserCount := []
  wellMap  : List WellMap := []
  moves    : List Move := []
  /-- When the Dowser last evaluated (R77). -/
  dowserAt : Nat := 0
  lineKeys : List (Nat × Nat) := []
  /-- The context that last held 256 bytes of a core's scratch: (core, granule, context) (R62, log 8). -/
  scratchOf : List (Nat × Nat × Nat) := []
  tlb      : List TlbEntry := []
  ilines   : List ILine := []
  ireqs    : List IReq := []
  /-- INVADDR, INVCTL, the first access begun after the invalidation at hand, and what the entries it removed covered: context,
  first address, bytes (R362). -/
  invAddr  : Lane := 0
  invCtl   : Lane := 0
  invFrom  : Nat := 0
  invGone  : List (Nat × Nat × Nat) := []
  -- engines
  ops      : List EngineOp := []
  pumpTurn : List (Nat × Nat) := []
  mats     : List MatEntry := []
  heats    : List Heat := []
  altered  : List Altered := []
  altIds   : List (Nat × BitVec 16) := []
  collSeqs : List (Nat × Nat) := []
  -- contexts, partitions, device
  contexts : List Context := []
  partitions : List Partition := []
  slews    : List (Nat × Lane) := []
  record   : Option Record := none
  bootCode : Byte := 0
  barErr   : Byte := 0
  vfMap    : List (Nat × Nat × BitVec 16) := []
  vfRoots  : List (Nat × Lane) := []
  /-- R372: per function its TDISP state, and the partitions of the contexts it held when it was locked. -/
  tdisp    : List (Nat × Byte × List Nat) := []
  msixLog  : List (Nat × Nat) := []
  attest   : List (List Byte) := []
  -- Ubend
  ports    : List Port := []
  ubMsix   : Lane := 0
  timeLock : Bool := false
  /-- R388: when the last time flit arrived, how many in a row agreed, the ticks still to add or to drop, and the ticks counted
  towards the next of them. -/
  timeSeen : Nat := 0
  timeGood : Nat := 0
  timeLag  : Int := 0
  phase    : Nat := 0
  /-- R384: no new request flit until the flits of a lost path are through. -/
  pathHold : Bool := false
  windows  : List (Nat × Lane × Lane × Lane) := []
  groups   : List (Nat × Lane × Lane) := []
  -- power, telemetry
  power    : List Power := []
  limit    : BitVec 12 := 2400
  alert    : Bool := false
  /-- The telemetry block as it shows, and the sums of the running window (R404). -/
  telemetry : Telemetry := {}
  sums     : Telemetry := {}
  powerAt  : Nat := 0
  telemetryAt : Nat := 0
  -- the model's own fields (log 1, 11)
  agenda   : List Act := []
  issue    : Issue := {}
  /-- The instruction just tried is held at issue by a limit (R25): `step` drops the attempt. -/
  blocked  : Bool := false
  freeCtr  : Nat := 0
  idCtr    : Nat := 1
  streak   : Nat := 0
deriving DecidableEq, Repr

/-- The machine right after reset (R346): unconfigured, every block at its reset value, nothing resident. -/
def State.reset : State := {}

end Sys2Proof.Machine
end

