-- ==== Sys2Proof/Machine/Ops.lean ====
section
/-!
DEFINITION. The named operations every meaning is written over: bytes and memory cells, skeins and their registers,
lanes and guards, translation (R360 to R362), the device's own writes and events (R345, R364), taking a trap (R348 to
R350, R352) and returning from one (R351), and the checks an instruction passes when it issues (R164, R168).
-/

namespace Sys2Proof.Machine

/-! ### Bytes and cells -/

/-- `n` bytes of a number, least significant first. -/
def toBytes : Nat → Nat → List Byte
  | 0, _ => []
  | n + 1, v => BitVec.ofNat 8 v :: toBytes n (v / 256)

/-- The number a byte list spells, least significant first. -/
def ofBytes : List Byte → Nat
  | [] => 0
  | b :: bs => b.toNat + 256 * ofBytes bs

/-- What a byte nothing has written reads as (log 3). -/
def unlisted : Byte := 0

/-- One byte. -/
def Memory.read : Memory → Nat → Byte
  | [], _ => unlisted
  | c :: m, a => if c.1 = a then c.2 else Memory.read m a

/-- One byte written, in canonical form. -/
def Memory.write : Memory → Nat → Byte → Memory
  | [], a, v => if v = unlisted then [] else [(a, v)]
  | c :: m, a, v =>
    if a < c.1 then (if v = unlisted then c :: m else (a, v) :: c :: m)
    else if a = c.1 then (if v = unlisted then m else (a, v) :: m)
    else c :: Memory.write m a v

/-- Every cell lies at or above `lo`, addresses rise, and no cell equals `unlisted`. -/
def Memory.wfFrom : Nat → Memory → Bool
  | _, [] => true
  | lo, c :: m => decide (lo ≤ c.1) && c.2 != unlisted && Memory.wfFrom (c.1 + 1) m

/-- The canonical form. -/
def Memory.wf (m : Memory) : Bool := Memory.wfFrom 0 m

/-- `n` bytes from an address. -/
def Memory.readN (m : Memory) (a n : Nat) : List Byte := (List.range n).map fun i => m.read (a + i)

/-- Bytes written from an address upward. -/
def Memory.writeN : Memory → Nat → List Byte → Memory
  | m, _, [] => m
  | m, a, b :: bs => Memory.writeN (m.write a b) (a + 1) bs

/-- A range that reads zero (R62, R83). -/
def Memory.clear (m : Memory) (a n : Nat) : Memory := m.filter fun c => !(decide (a ≤ c.1) && decide (c.1 < a + n))

/-! ### Keys of the spaces (log 7) -/

/-- BAR0's staging area. -/
def stagingKey (off : Nat) : Nat := 2 ^ 50 + off
/-- Host memory. -/
def hostKey (pa : Nat) : Nat := 2 ^ 52 + pa
/-- A core's scratchpad. -/
def scratchKey (core off : Nat) : Nat := 2 ^ 53 + core * 2 ^ 20 + off
/-- A seep instance. -/
def seepKey (inst off : Nat) : Nat := 2 ^ 54 + inst * 2 ^ 24 + off

/-! ### Lists -/

/-- The element at an index replaced by a function of it. -/
def listUpd {α : Type} (l : List α) (i : Nat) (f : α → α) : List α :=
  match l, i with
  | [], _ => []
  | x :: xs, 0 => f x :: xs
  | x :: xs, n + 1 => x :: listUpd xs n f

/-- One element of a bank of `n` replaced by a function of it; an element that is not listed holds `d`. -/
def bankUpd {α : Type} (n : Nat) (d : α) (l : List α) (i : Nat) (f : α → α) : List α :=
  (List.range n).map fun j => if j = i then f (l.getD j d) else l.getD j d

/-- An element put in the place of the one with its key, or at the end. -/
def putBy {α : Type} (key : α → Nat) (x : α) : List α → List α
  | [] => [x]
  | y :: ys => if key y = key x then x :: ys else y :: putBy key x ys

/-- The least element by a key, the first on a tie. -/
def minBy {α : Type} (key : α → Nat) : List α → Option α
  | [] => none
  | x :: xs =>
    match minBy key xs with
    | none => some x
    | some y => if key y < key x then some y else some x

/-- The greatest element by a key, the first on a tie. -/
def maxBy {α : Type} (key : α → Nat) : List α → Option α
  | [] => none
  | x :: xs =>
    match maxBy key xs with
    | none => some x
    | some y => if key x < key y then some y else some x

/-- Lanes 0 to 31. -/
def allLanes : List Nat := List.range 32

/-- The mask of a lane predicate. -/
def laneMask (f : Nat → Bool) : Mask :=
  BitVec.ofNat 32 (allLanes.foldr (fun l m => if f l then m + 2 ^ l else m) 0)

/-- The lanes of a mask, ascending. -/
def maskLanes (m : Mask) : List Nat := allLanes.filter fun l => m.getLsbD l

/-! ### Skeins -/

/-- A skein by its uid. -/
def State.sk? (s : State) (u : Nat) : Option Skein := s.skeins.find? fun k => k.uid == u
/-- A skein by its uid; a blank one when there is none. -/
def State.sk (s : State) (u : Nat) : Skein := (s.sk? u).getD {}
/-- The skein of the instruction being issued. -/
def State.cur (s : State) : Skein := s.sk s.issue.sk
/-- A skein replaced. -/
def State.setSk (s : State) (k : Skein) : State :=
  { s with skeins := s.skeins.map fun x => if x.uid == k.uid then k else x }
/-- The issuing skein changed. -/
def State.updCur (s : State) (f : Skein → Skein) : State := s.setSk (f s.cur)
/-- A skein changed. -/
def State.updSk (s : State) (u : Nat) (f : Skein → Skein) : State :=
  { s with skeins := s.skeins.map fun x => if x.uid == u then f x else x }

/-- R25: the place of a skein in the order of age: a context's conductor just before the oldest skein of its context. -/
def State.rank (s : State) (k : Skein) : Nat :=
  if k.conductor then 2 * (s.skeins.foldl (fun n x => if x.ctx == k.ctx then min n x.age else n) k.age) else 2 * k.age + 1

/-- A team by its uid. -/
def State.team? (s : State) (u : Nat) : Option Team := s.teams.find? fun t => t.uid == u
/-- A team by its uid; a blank one when there is none. -/
def State.team (s : State) (u : Nat) : Team := (s.team? u).getD {}
/-- A team changed. -/
def State.updTeam (s : State) (u : Nat) (f : Team → Team) : State :=
  { s with teams := s.teams.map fun x => if x.uid == u then f x else x }
/-- A grid by its uid. -/
def State.grid? (s : State) (u : Nat) : Option Grid := s.grids.find? fun g => g.uid == u
/-- A grid changed. -/
def State.updGrid (s : State) (u : Nat) (f : Grid → Grid) : State :=
  { s with grids := s.grids.map fun x => if x.uid == u then f x else x }
/-- The grid of a team. -/
def State.gridOf (s : State) (t : Team) : Option Grid := t.grid.bind s.grid?
/-- A context by its number: its control block, all at reset when it was never written. -/
def State.ctx (s : State) (n : Nat) : Context := (s.contexts.find? fun c => c.num == n).getD { num := n }
/-- A context changed. -/
def State.updCtx (s : State) (n : Nat) (f : Context → Context) : State :=
  { s with contexts := putBy (·.num) { f (s.ctx n) with num := n } s.contexts }
/-- A partition by its number. -/
def State.part (s : State) (n : Nat) : Partition := (s.partitions.find? fun p => p.num == n).getD { num := n }
/-- A partition changed. -/
def State.updPart (s : State) (n : Nat) (f : Partition → Partition) : State :=
  { s with partitions := putBy (·.num) { f (s.part n) with num := n } s.partitions }
/-- An engine operation by its uid. -/
def State.op? (s : State) (u : Nat) : Option EngineOp := s.ops.find? fun o => o.uid == u
/-- An engine operation changed. -/
def State.updOp (s : State) (u : Nat) (f : EngineOp → EngineOp) : State :=
  { s with ops := s.ops.map fun o => if o.uid == u then f o else o }

/-- A fresh name (log 1). -/
def State.fresh (s : State) : Nat × State := (s.idCtr, { s with idCtr := s.idCtr + 1 })

/-- R388: n reference ticks pass. A copy of domain time that is behind counts one tick more in every 16, and one that is ahead
only every second tick, until it agrees. -/
def State.pass (s : State) (n : Nat) : State :=
  if s.timeLag = 0 then { s with now := s.now + n }
  else if 0 < s.timeLag then
    let more := min s.timeLag.toNat ((s.phase + n) / 16)
    { s with now := s.now + n + more, timeLag := s.timeLag - more, phase := (s.phase + n) % 16 }
  else
    let less := min (-s.timeLag).toNat ((s.phase % 2 + n) / 2)
    { s with now := s.now + (n - less), timeLag := s.timeLag + less, phase := (s.phase + n) % 2 }

/-- The next free value (log 11). -/
def State.free (s : State) : BitVec 64 × State := (Config.freeValue s.freeCtr, { s with freeCtr := s.freeCtr + 1 })

/-- Bytes of which nothing is known (log 11). -/
def State.freeBytes (s : State) : Nat → List Byte × State
  | 0 => ([], s)
  | n + 1 =>
    let (v, s) := s.free
    let (bs, s) := s.freeBytes n
    (v.setWidth 8 :: bs, s)

/-- R286: a cancellation is noted; that of a collective which every member has joined is ignored. -/
def EngineOp.withdraw (o : EngineOp) : EngineOp :=
  match o.kind with
  | .coll .. => if o.ready || decide (o.members ≤ o.heard.length) then o else { o with cancel := true }
  | _ => { o with cancel := true }

/-- Cluster, die of a core (R1). -/
def clusterOf (core : Nat) : Nat := core / 8
/-- Die of a core (R1). -/
def dieOf (core : Nat) : Nat := core / 192

/-- A cluster's copy of domain time (R95, log 5). -/
def State.nowAt (s : State) (cluster : Nat) : Nat := s.now + Config.clusterLead cluster % (Config.skew + 1)

/-- The package's tick at which a cluster's copy reads a given one. -/
def State.localTick (s : State) (cluster t : Nat) : Nat := t - (s.nowAt cluster - s.now)

/-- A thread of a skein. -/
def Skein.thread (k : Skein) (l : Nat) : Thread := k.threads.getD l {}
/-- A thread changed. -/
def Skein.updThread (k : Skein) (l : Nat) (f : Thread → Thread) : Skein := { k with threads := bankUpd 32 {} k.threads l f }
/-- The threads of a lane set changed. -/
def Skein.updThreads (k : Skein) (p : Nat → Bool) (f : Nat → Thread → Thread) : Skein :=
  { k with threads := allLanes.map fun l => if p l then f l (k.thread l) else k.thread l }

/-! ### Lanes, guards, registers -/

/-- PredAt (R209). -/
def Thread.predAt (t : Thread) (d : Nat) : Bool := t.pred.getLsbD d

/-- R148: the guard in one lane. -/
def guardPasses (g : Guard) (t : Thread) : Bool :=
  match g with
  | .always => true
  | .pos d => t.predAt d.toNat
  | .neg d => !t.predAt d.toNat

/-- The lanes of the issuing group. -/
def State.executing (s : State) (l : Nat) : Bool := s.issue.mask.getLsbD l

/-- The executing lanes whose guard passes. -/
def State.passing (s : State) (g : Guard) (l : Nat) : Bool := s.executing l && guardPasses g (s.cur.thread l)

/-- The lowest lane of a set. -/
def lowest (p : Nat → Bool) : Option Nat := allLanes.find? p

/-- R51: the register a field names in a lane of a region state. -/
def resolveIn (pm : List Lane) (r : Region) (f : Reg) : Nat :=
  match r with
  | none => f.toNat
  | some p =>
    if f.toNat < 56 then f.toNat
    else ((pm.getD p.toNat 0).extractLsb' (6 * (f.toNat - 56)) 6).toNat

/-- R51: the register a field names in a lane. -/
def Skein.resolve (k : Skein) (l : Nat) (f : Reg) : Nat := resolveIn k.pm (k.thread l).region f

/-- A physical register. -/
def Skein.reg (k : Skein) (r : Nat) : VReg := k.regs.getD r {}
/-- One lane of a physical register. -/
def Skein.lane (k : Skein) (r l : Nat) : Lane := (k.reg r).lanes.getD l 0
/-- R51: lane l of the register a field names there. -/
def Skein.read (k : Skein) (f : Reg) (l : Nat) : Lane := k.lane (k.resolve l f) l

/-- R149: the source lane of the crossbar. -/
def permSrc (p : Perm) (l : Nat) : Nat :=
  match p with
  | .ident => l
  | .rot1 => (l + 31) % 32
  | .rdn1 => (l + 1) % 32
  | .mir => 31 - l
  | .bfly1 => l ^^^ 1
  | .bfly2 => l ^^^ 2
  | .bc0 => 0

/-- R150: source B through the crossbar. -/
def Skein.readB (k : Skein) (f : Reg) (p : Perm) (l : Nat) : Lane :=
  if (k.thread (permSrc p l)).exited then 0 else k.read f (permSrc p l)

/-- All 32 lanes hold one value. -/
def sameAll (v : Nat → Lane) : Bool := allLanes.all fun l => v l == v 0

/-- R167: uniform only where the values written are equal. -/
def Tag.norm (t : Tag) (v : Nat → Lane) : Tag :=
  match t with
  | .uniform => if sameAll v then .uniform else .general
  | t => t

/-- A physical register with the lanes of a set replaced. -/
def VReg.put (r : VReg) (p : Nat → Bool) (v : Nat → Lane) (t : Tag) : VReg :=
  { lanes := allLanes.map fun l => if p l then v l else r.lanes.getD l 0
    tag := t
    poison := r.poison &&& ~~~(laneMask p) }

/-- The region states a lane can have. -/
def allRegions : List Region := [none, some 0, some 1, some 2, some 3]

/-- R51, R166, R167: the lanes of `p` written, each in the register its field resolves to; the tag `t` holds only when all
32 lanes wrote that register. -/
def Skein.write (k : Skein) (f : Reg) (p : Nat → Bool) (v : Nat → Lane) (t : Tag) : Skein :=
  allRegions.foldl (fun k' r =>
    let q := fun l => p l && (k.thread l).region == r
    if allLanes.any q then
      let phys := resolveIn k.pm r f
      let all := allLanes.all fun l => p l && k.resolve l f == phys
      { k' with regs := bankUpd 64 {} k'.regs phys fun x => x.put q v (if all then t.norm v else .general) }
    else k') k

/-- R167: a destination that fewer than 32 lanes write is general, also where no lane's guard passes: the registers that the
executing lanes name lose their tags before the write. -/
def Skein.dull (k : Skein) (e : Nat → Bool) (f : Option Reg) : Skein :=
  match f with
  | none => k
  | some f =>
    { k with regs := (List.range 64).map fun r =>
        if allLanes.any fun l => e l && k.resolve l f == r then { k.reg r with tag := .general } else k.reg r }

/-- R166, R167: lanes of a destination written by an instruction that some lanes execute. -/
def Skein.writeBy (k : Skein) (e : Nat → Bool) (f : Reg) (p : Nat → Bool) (v : Nat → Lane) (t : Tag) : Skein :=
  (k.dull e (some f)).write f p v t

/-- The registers a field names over the executing lanes of a mask, through the crossbar; a source lane that has exited counts
as any other (R58, R150, R308). -/
def Skein.named (k : Skein) (m : Mask) (f : Reg) (p : Perm) : List Nat :=
  (allLanes.filterMap fun l => if m.getLsbD l then some (k.resolve (permSrc p l) f) else none).dedup

/-- The tag of a register a field names, over the executing lanes: general where they differ. -/
def Skein.tagOf (k : Skein) (m : Mask) (f : Reg) : Tag :=
  match k.named m f .ident with
  | [r] => (k.reg r).tag
  | _ => .general

/-- R149: the tag of a permuted operand. -/
def permTag (p : Perm) (t : Tag) : Tag :=
  match p with
  | .ident => t
  | .bc0 => .uniform
  | _ => if t = .uniform then .uniform else .general

/-! ### The header of the issuing clause -/

/-- The header fields of the clause being issued. -/
def State.header (s : State) : Header :=
  (decodeHeader s.issue.word).getD ⟨none, none, 0, .vector, .e8, 1⟩
/-- The element size of the clause being issued. -/
def State.es (s : State) : Es := s.header.es

/-! ### Moving past an instruction -/

/-- A thread past the instruction being issued (R142, R219). -/
def Issue.past (i : Issue) (t : Thread) : Thread :=
  let t := { t with waiting := none }
  match i.rep with
  | some r =>
    if r.idx + 1 < r.count then { t with pc := i.pc, clause := some ⟨i.hdr, i.word, i.slot, i.serial, i.body⟩, rep := some { r with idx := r.idx + 1 } }
    else if i.last then { t with pc := i.follow, clause := none, rep := none, repMark := false }
    else { t with pc := i.next, clause := some ⟨i.hdr, i.word, i.slot + 1, i.serial, i.body⟩, rep := none, repMark := false }
  | none =>
    if i.last then { t with pc := i.follow, clause := none, rep := none, repMark := false }
    else { t with pc := i.next, clause := some ⟨i.hdr, i.word, i.slot + 1, i.serial, i.body⟩, rep := none, repMark := false }

/-- The lanes of a skein moved past an instruction. -/
def Skein.pass (k : Skein) (i : Issue) (p : Nat → Bool) : Skein := k.updThreads p fun _ t => i.past t

/-- The issuing group moved past its instruction. -/
def State.advance (s : State) : State := s.updCur fun k => k.pass s.issue s.executing

/-- A thread at a clause header (R46). -/
def Thread.jump (t : Thread) (pc : Lane) : Thread := { t with pc := pc, clause := none, rep := none, repMark := false, waiting := none }

/-! ### Translation (R360 to R362) -/

/-- What a valid leaf gives: kind, peer device, page base and size in bytes, permissions R, W, X. -/
structure Leaf where
  kind : BitVec 2
  dev  : Nat
  base : Nat
  size : Nat
  r    : Bool
  w    : Bool
  x    : Bool
deriving DecidableEq, Repr

/-- What an entry says (R361). -/
inductive Pte
  | invalid
  | bad
  | table (addr : Nat)
  | leaf (l : Leaf)
deriving DecidableEq, Repr

/-- Page size of a leaf at a level (R360). -/
def leafSize (level : Nat) : Nat := if level = 2 then 2 ^ 30 else if level = 3 then 2 ^ 21 else 2 ^ 16

/-- R361: one entry read at a level. -/
def readPte (level : Nat) (e : Lane) : Pte :=
  let addr := (e.extractLsb' 8 44).toNat * 256
  let kind := e.extractLsb' 6 2
  let dev := (e.extractLsb' 52 9).toNat
  if !e.getLsbD 0 then .invalid
  else if e.extractLsb' 61 3 != 0 || e.getLsbD 5 then .bad
  else if e.getLsbD 1 then
    if level < 2 || kind == 3 || (kind != 2 && dev != 0) || addr % leafSize level != 0 then .bad
    else .leaf ⟨kind, dev, addr, leafSize level, e.getLsbD 2, e.getLsbD 3, e.getLsbD 4⟩
  else if level ≥ 4 || kind != 0 || dev != 0 || e.extractLsb' 2 3 != 0 || (level < 3 && addr % 4096 != 0) then .bad
  else .table addr

/-- The index of a level (R360). -/
def pteIndex (level va : Nat) : Nat :=
  match level with
  | 0 => va / 2 ^ 48 % 512
  | 1 => va / 2 ^ 39 % 512
  | 2 => va / 2 ^ 30 % 512
  | 3 => va / 2 ^ 21 % 512
  | _ => va / 2 ^ 16 % 32

/-- A walk from a level, with the levels still to go; a missing or bad entry is `none`, with whether it was bad. `read` gives an
entry's bytes. -/
def walk (read : Nat → List Byte) : Nat → Nat → Nat → Nat → Except Bool Leaf
  | 0, _, _, _ => .error true
  | n + 1, level, table, va =>
    match readPte level (BitVec.ofNat 64 (ofBytes (read (table + 8 * pteIndex level va)))) with
    | .invalid => .error false
    | .bad => .error true
    | .leaf l => .ok l
    | .table t => walk read n (level + 1) t va

/-- A translated page: physical base of the address's page, and what it allows. -/
structure Xlat where
  kind : BitVec 2
  dev  : Nat
  addr : Nat
  r    : Bool
  w    : Bool
  x    : Bool
deriving DecidableEq, Repr

/-- Why a translation gives nothing: no valid entry (with a bad-entry bit). -/
abbrev XMiss := Bool

/-- R64: canonical addresses. -/
def canonical (a : Lane) : Bool :=
  a.extractLsb' 56 8 == 0 || a.extractLsb' 56 8 == 0xFF

/-- The 57 bits of a canonical address. -/
def va57 (a : Lane) : Nat := (a.extractLsb' 0 57).toNat

/-- The memory key of a well or host page address. -/
def Xlat.key (x : Xlat) : Nat := if x.kind = 1 then hostKey x.addr else x.addr

/-! ### Stored bytes: keys and poison (R367, R368, R370, R395) -/

/-- Bytes of the package's four wells. -/
def wellTop : Nat := 4 * Config.wellBytes
/-- A byte of well memory. -/
def isWell (key : Nat) : Bool := decide (key < wellTop)
/-- A byte of host memory. -/
def isHost (key : Nat) : Bool := decide (hostKey 0 ≤ key) && decide (key < scratchKey 0 0)

/-- The address lies inside the capacity of R1 (log 6). -/
def Xlat.there (x : Xlat) : Bool := isWell x.key || isHost x.key

/-- The die and frame where a 2 MiB page of well memory lies (R80). -/
def State.frameOf (s : State) (page : Nat) : Nat × Nat :=
  match s.wellMap.find? fun m => m.page == page with
  | some m => (m.die, m.frame)
  | none => (page / Config.wellFrames, page % Config.wellFrames)

/-- The page that lies in a frame of a die (R80). -/
def State.pageAt (s : State) (die frame : Nat) : Nat :=
  match s.wellMap.find? fun m => m.die == die && m.frame == frame with
  | some m => m.page
  | none => die * Config.wellFrames + frame

/-- A chunk of 32 lines of a moving page has been copied (R79). -/
def Move.copied (m : Move) (line : Nat) : Bool := decide (line % 16384 / 32 < m.chunk)

/-- R79: the die and frame where a line lies while moves are under way: what is copied lies in the new frame, and what lay in
that frame in the old one. -/
def State.frameOfLine (s : State) (line : Nat) : Nat × Nat :=
  let page := line / 16384
  match s.moves.find? fun m => m.page == page && m.copied line with
  | some m => (m.die, m.frame)
  | none =>
    match s.moves.find? fun m => s.pageAt m.die m.frame == page && m.copied line with
    | some m => s.frameOf m.page
    | none => s.frameOf page

/-- R370: whether a line of a partition lies below the sweep pointer. -/
def State.swept (s : State) (p : Partition) (line : Nat) : Bool :=
  let (die, frame) := s.frameOfLine line
  let pos := (frame - (p.frames.getD die (0, 0)).1) * 16384 + line % 16384
  decide (die < p.sweepDie) || (die == p.sweepDie && decide (pos < p.sweepLine))

/-- R368, R370: the key under which a partition reaches a line. -/
def State.keyOf (s : State) (part line : Nat) : Nat :=
  let p := s.part part
  if p.rek && !s.swept p line then p.oldKey else p.memKey

/-- The key a line was written under. -/
def State.writtenKey (s : State) (line : Nat) : Nat := ((s.lineKeys.find? fun x => x.1 == line).map (·.2)).getD 0

/-- Bytes as a key for each line reads them: under a foreign key they are unpredictable (R367). -/
def State.loadUnder (s : State) (keyAt : Nat → Nat) (key n : Nat) : List Byte :=
  (List.range n).map fun i =>
    let a := key + i
    if isWell a && s.writtenKey (a / 128) != keyAt (a / 128) then Config.foreignByte a (s.writtenKey (a / 128)) (keyAt (a / 128))
    else s.mem.read a

/-- Bytes as a partition reads them. -/
def State.load (s : State) (part key n : Nat) : List Byte := s.loadUnder (s.keyOf part) key n

/-- A line taken over under a partition's key, its bytes as that key reads them. -/
def State.takeLine (s : State) (part line : Nat) : State :=
  if isWell (line * 128) && s.writtenKey line != s.keyOf part line then
    { s with
      mem := s.mem.writeN (line * 128) (s.load part (line * 128) 128)
      lineKeys := (line, s.keyOf part line) :: s.lineKeys.filter fun x => x.1 != line }
  else s

/-- Bytes written by a partition; an 8-byte granule written whole is poisoned no longer (R395). -/
def State.store (s : State) (part key : Nat) (bs : List Byte) : State :=
  let hi := key + bs.length
  let s := (List.range ((hi + 127) / 128 - key / 128)).foldl (fun s i => s.takeLine part (key / 128 + i)) s
  { s with
    mem := s.mem.writeN key bs
    poisoned := s.poisoned.filter fun g => !(decide (key ≤ 8 * g) && decide (8 * g + 8 ≤ hi)) }

/-- A range set to zero, its granules poisoned no longer (R62, R83, R88). -/
def State.zero (s : State) (key n : Nat) : State :=
  { s with mem := s.mem.clear key n, poisoned := s.poisoned.filter fun g => !(decide (key ≤ 8 * g) && decide (8 * g < key + n)) }

/-- Some granule of a range is poisoned. -/
def State.poisonAt (s : State) (key n : Nat) : Bool :=
  s.poisoned.any fun g => decide (8 * g < key + n) && decide (key < 8 * g + 8)

/-- The partition that owns a 2 MiB page of well memory (R366). -/
def State.ownerOf (s : State) (page : Nat) : Option Nat :=
  let die := page / Config.wellFrames
  let frame := page % Config.wellFrames
  (s.partitions.find? fun p =>
    let (lo, n) := p.frames.getD die (0, 0)
    decide (lo ≤ frame) && decide (frame < lo + n)).map (·.num)

/-! ### Translation (R360 to R362) -/

/-- The bytes of a page-table entry in well memory (log 6), under the key of the partition that owns the frame (R367, R368). -/
def State.pteBytes (s : State) (a : Nat) : List Byte :=
  s.loadUnder (fun line => match s.ownerOf (line / 16384) with | some p => s.keyOf p line | none => 0) a 8

/-- A cached translation that covers an address (R362). -/
def State.tlbHit (s : State) (c va : Nat) : Option TlbEntry :=
  s.tlb.find? fun e => e.ctx == c && e.page ≤ va && va < e.page + e.size && e.owner == (s.ctx c).part

/-- Whether a partition may reach a peer (R360, R366). -/
def Partition.reaches (p : Partition) (dev : Nat) : Bool := p.reach.getD dev false

/-- R360: the two-stage walk of one address. A peer entry passes here and meets the partition's REACH in R386. -/
def State.walkBoth (s : State) (c : Nat) (a : Lane) : Except XMiss TlbEntry :=
  let cx := s.ctx c
  let va := va57 a
  match walk s.pteBytes 5 0 cx.root.toNat va with
  | .error b => .error b
  | .ok l =>
    let perm (l : Leaf) : BitVec 3 := bit1 l.x ++ bit1 l.w ++ bit1 l.r
    match cx.vf with
    | none => .ok ⟨c, none, va - va % l.size, l.size, l.kind, l.dev, l.base, perm l, cx.part⟩
    | some (vf, _) =>
      if l.kind = 2 then .ok ⟨c, some vf, va - va % l.size, l.size, l.kind, l.dev, l.base, perm l, cx.part⟩
      else
        let ipa := l.base + va % l.size
        match walk s.pteBytes 5 0 ((s.vfRoots.find? fun r => r.1 == vf).map (·.2.toNat) |>.getD 0) ipa with
        | .error b => .error b
        | .ok l2 =>
          let size := min l.size l2.size
          .ok ⟨c, some vf, va - va % size, size, l2.kind, l2.dev, l2.base + (ipa % l2.size - ipa % size), perm l &&& perm l2, cx.part⟩

/-- R360, R362: an address translated, with the entry cached. -/
def State.translate (s : State) (c : Nat) (a : Lane) : State × Except XMiss Xlat :=
  let va := va57 a
  let use (e : TlbEntry) : Xlat :=
    ⟨e.kind, e.dev, e.base + (va - e.page), e.perm.getLsbD 0, e.perm.getLsbD 1, e.perm.getLsbD 2⟩
  match s.tlbHit c va with
  | some e => (s, .ok (use e))
  | none =>
    match s.walkBoth c a with
    | .error b => (s, .error b)
    | .ok e => ({ s with tlb := e :: s.tlb }, .ok (use e))

/-! ### Messages and the device's own writes (R345, R364) -/

/-- A context whose skeins issue: it runs, or its save waits for a slice boundary (R342, R371). -/
def Context.live (c : Context) : Bool := (c.state == .running || c.state == .saving) && c.halting.isNone

/-- States in which a context counts for its partition's deadline (R374). -/
def CtxState.counts : CtxState → Bool
  | .running | .saving | .restoring => true
  | _ => false

/-- R374: time in which no context of a partition counts moves its deadline forward. -/
def State.noteBusy (s : State) (part : Nat) : State :=
  if !(s.part part).session then s
  else
    let busy := s.contexts.any fun c => c.part == part && c.state.counts
    s.updPart part fun p =>
      match p.idleSince with
      | some t => if busy then { p with idleSince := none, deadline := p.deadline + (s.now - t) } else p
      | none => if busy then p else { p with idleSince := some s.now }

/-- A context in a new state. -/
def State.setState (s : State) (c : Nat) (st : CtxState) : State := (s.updCtx c fun x => { x with state := st }).noteBusy (s.ctx c).part

/-- The function a context belongs to: 0 for the physical function, else 1 + vf. -/
def Context.fn (c : Context) : Nat := match c.vf with | none => 0 | some (vf, _) => vf + 1

/-- An MSI-X vector signalled. -/
def State.signal (s : State) (fn vec : Nat) : State := { s with msixLog := s.msixLog ++ [(fn, vec)] }

/-- Whether a partition is protected. -/
def State.protected (s : State) (p : Nat) : Bool := (s.part p).prot

/-- R398: the debug block as it acts on a context: a protected tenant has no stops, no sampling and no trace. -/
def State.debugOf (s : State) (c : Nat) : Debug := if s.protected (s.ctx c).part then {} else (s.ctx c).dbg

/-- A context's MSIX vector signalled; in a protected partition it is a vector of a function that the tenant has (R371, log 79). -/
def State.signalCtx (s : State) (c : Nat) : State :=
  if s.protected (s.ctx c).part && (s.ctx c).vf.isNone then s else s.signal (s.ctx c).fn (s.ctx c).msix.toNat

/-- Bytes written by the device at a virtual address of a context, or the miss (R364: the W bit is needed). -/
def State.devStore (s : State) (c : Nat) (a : Lane) (bs : List Byte) : Option State :=
  match s.translate c a with
  | (s, .ok x) => if x.w && x.kind != 2 && x.there then some (s.store (s.ctx c).part x.key bs) else none
  | (_, .error _) => none

/-- R371: a page is of a partition's own well memory. -/
def State.ownWell (s : State) (part : Nat) (x : Xlat) : Bool := x.kind == 0 && s.ownerOf (x.addr / 2 ^ 21) == some part

/-- Bytes of a record written to an area; an event area of a protected partition lies in its well memory (R371, log 79). -/
def State.recStore (s : State) (c : Nat) (kind : BitVec 2) (a : Lane) (bs : List Byte) : Option State :=
  match s.translate c a with
  | (_, .ok x) => if kind = 2 && s.protected (s.ctx c).part && !s.ownWell (s.ctx c).part x then none else s.devStore c a bs
  | (_, .error _) => none

/-- Bytes read by the device at a virtual address of a context. -/
def State.devLoad (s : State) (c : Nat) (a : Lane) (n : Nat) : Option (List Byte) :=
  match s.translate c a with
  | (s, .ok x) => if x.kind != 2 && x.there then some (s.load (s.ctx c).part x.key n) else none
  | (_, .error _) => none

/-- Zero-extended 64 bits of a number. -/
def u64 (n : Nat) : Lane := BitVec.ofNat 64 n

/-- R364: a write of the device's own that cannot be made is held, and the driver told; one already held leaves it queued. -/
def State.holdDev (s : State) (c : Nat) (d : DevWrite) : State :=
  if (s.ctx c).held.isSome then s.updCtx c fun x => { x with queued := x.queued ++ [d] }
  else (s.updCtx c fun x => { x with held := some d, dfAddr := d.addr, dfKind := 0x80 ||| d.kind.setWidth 8 }).signalCtx c

/-- An area of records: its base, the records it holds, the bytes of one (R345, R402). -/
structure Area where
  base : Lane
  cap  : Nat
  len  : Nat
deriving DecidableEq, Repr

/-- The event area (kind 2) and the trace area (kind 3) of a context. -/
def Context.area (c : Context) (kind : BitVec 2) : Area :=
  if kind = 3 then ⟨c.dbg.sbase, c.dbg.scap.toNat, 64⟩ else ⟨c.evBase, c.evCap.toNat, 32⟩

/-- R345, R402: one record appended to an area: written, counted as dropped when the area is full, or held (R364). -/
def State.tryRecord (s : State) (c : Nat) (kind : BitVec 2) (rec : List Byte) : State :=
  let a := (s.ctx c).area kind
  match s.devLoad c a.base 24 with
  | none => s.holdDev c ⟨kind, a.base, rec⟩
  | some h =>
    let produced := if kind = 2 then (s.ctx c).produced else ofBytes (h.take 8)
    let consumed := ofBytes ((h.drop 8).take 8)
    if (produced + 2 ^ 64 - consumed) % 2 ^ 64 < a.cap then
      let at' := a.base + u64 (64 + a.len * (produced % a.cap))
      match s.recStore c kind at' rec with
      | none => s.holdDev c ⟨kind, at', rec⟩
      | some s' =>
        match s'.recStore c kind a.base (toBytes 8 (produced + 1)) with
        | none => s.holdDev c ⟨kind, a.base, rec⟩
        | some s' =>
          let s' := if kind = 2 then s'.updCtx c fun x => { x with produced := (produced + 1) % 2 ^ 64 } else s'
          if kind = 2 ∧ produced = consumed then s'.signalCtx c else s'
    else
      match s.recStore c kind (a.base + 16) (toBytes 8 (ofBytes (h.drop 16) + 1)) with
      | none => s.holdDev c ⟨kind, a.base + 16, rec⟩
      | some s' => s'

/-- DFDROP one higher, saturating (R340). -/
def Context.drop (c : Context) : Context := { c with dfDrop := if c.dfDrop = 0xFFFFFFFF then c.dfDrop else c.dfDrop + 1 }

/-- R364: a record appended, or queued behind a held write of its area. -/
def State.putRecord (s : State) (c : Nat) (kind : BitVec 2) (rec : List Byte) : State :=
  let cx := s.ctx c
  if (cx.held.toList ++ cx.queued).any fun d => d.kind == kind then
    s.updCtx c fun x => { x with queued := x.queued ++ [⟨kind, 0, rec⟩] }
  else s.tryRecord c kind rec

/-- R345: an event record appended, lost while EVCAP is 0. -/
def State.event (s : State) (c : Nat) (rec : List Byte) : State :=
  if (s.ctx c).evCap = 0 then s.updCtx c Context.drop else s.putRecord c 2 rec

/-- A 32-byte record from its kind, bytes 0x04 to 0x1B, and sys.now[31:0]. -/
def State.record32 (s : State) (kind : Nat) (mid : List Byte) : List Byte :=
  toBytes 4 kind ++ (mid ++ List.replicate 24 0).take 24 ++ toBytes 4 (s.now % 2 ^ 32)

/-- R345: a context record of kinds 0x20 to 0x26. -/
def State.ctxEvent (s : State) (c kind : Nat) : State := s.event c (s.record32 kind (toBytes 2 c))

/-! ### Trace records (R402, R403) -/

/-- Bytes of the top four region identifiers, the top first (R329, R403). -/
def Skein.regionTag (k : Skein) : List Byte :=
  (List.range 4).flatMap fun i => toBytes 2 ((k.regions.reverse.map fun e => e.id.toNat).getD i 0)

/-- The die and core bytes of R329. -/
def coreTag (core : Nat) : List Byte := toBytes 2 (dieOf core * 256 + core % 192)

/-- R403: a record of 64 bytes for a skein, with its kind part. -/
def State.traceBytes (s : State) (k : Skein) (kind : Nat) (pc : Lane) (at' : Nat) (part : List Byte) : List Byte :=
  toBytes 4 kind ++ coreTag k.core ++ toBytes 2 k.index ++ toBytes 8 pc.toNat ++ toBytes 4 (s.team k.team).index ++
    toBytes 4 (at' % 2 ^ 32) ++ k.regionTag ++ (part ++ List.replicate 32 0).take 32

/-- The kind part of a sample record (R403). -/
def Sample.part (x : Sample) : List Byte :=
  toBytes 4 x.taken.toNat ++ toBytes 1 x.op ++ toBytes 1 x.form ++ toBytes 1 (min 255 x.lines) ++ toBytes 1 (min 32 x.sectors) ++
    toBytes 1 (min 255 x.replays) ++ toBytes 1 x.last ++ toBytes 2 x.serve ++ toBytes 8 0 ++ toBytes 4 (x.at' - x.since) ++ toBytes 8 0

/-- R402: the sample of a context that is recorded next: of those complete the one that completed first. -/
def State.nextSample (s : State) (c : Nat) : Option Sample := minBy (·.at') (s.samples.filter fun x => x.ctx == c && x.left == 0)

/-- R402: a complete sample recorded. -/
def State.putSample (s : State) (x : Sample) : State := { s with samples := s.samples.erase x }.putRecord x.ctx 3 (x.head ++ x.part)

/-- R402: up to n complete samples of a context recorded, in the order of their completion. -/
def State.flushSamples (c : Nat) : Nat → State → State
  | 0, s => s
  | n + 1, s =>
    match s.nextSample c with
    | none => s
    | some x => State.flushSamples c n (s.putSample x)

/-- A trace record of a kind from 0x31, when TREN enables it and the partition is not protected, behind what has completed before
(R402). -/
def State.trace (s : State) (k : Skein) (kind : Nat) (pc : Lane) (part : List Byte) : State :=
  if (s.debugOf k.ctx).tren.getLsbD (kind - 0x31) then
    (State.flushSamples k.ctx s.samples.length s).putRecord k.ctx 3 (s.traceBytes k kind pc s.now part)
  else s

/-! ### Taking a trap (R348 to R350, R352) and returning (R351) -/

/-- A precise trap as the device delivers it. -/
structure Trap where
  kind : Byte
  addr : Lane := 0
  aux  : Lane := 0
  code : Byte := 0
  cause : Byte := 0
  res  : BitVec 2 := 0
  left : Nat := 0
  lanes : Option Mask := none
  pc   : Option Lane := none
  /-- The long operation whose mark the delivery clears (R112, R115). -/
  clear : Option Nat := none
  /-- The delivery takes the oldest fault record (R113). -/
  pop  : Bool := false
deriving DecidableEq, Repr

/-- R349: sys.flt. -/
def Trap.flt (t : Trap) : Lane :=
  (t.res ++ BitVec.ofNat 4 (min t.left 15) ++ 0#6 ++ t.code ++ t.cause ++ t.kind).setWidth 64

/-- A count one lower. -/
def decFlag (flags : List Nat) (f : Option (BitVec 4)) : List Nat :=
  match f with
  | some f => bankUpd 12 0 flags f.toNat (· - 1)
  | none => flags
/-- A count one higher. -/
def incFlag (flags : List Nat) (f : Option (BitVec 4)) : List Nat :=
  match f with
  | some f => bankUpd 12 0 flags f.toNat (· + 1)
  | none => flags

/-- A long operation gone without landing: its marks clear and the counts that it still holds fall (R112, R115, R143). -/
def Skein.dropOp (k : Skein) (id : Nat) : Skein :=
  match k.ops.find? fun o => o.id == id with
  | some o => { k with ops := k.ops.filter fun o => o.id != id, flags := decFlag (decFlag k.flags o.setA) o.setB }
  | none => k

/-- R113: a slot of the record queue is freed, and held records enter in arrival order. -/
def Skein.popFault (k : Skein) : Skein :=
  match k.faultHeld with
  | [] => { k with faultQ := k.faultQ.drop 1 }
  | h :: hs => { k with faultQ := k.faultQ.drop 1 ++ [h], faultHeld := hs, unacked := k.unacked - 1 }

/-- What the delivery of a trap does to the records and marks of its skein. -/
def Skein.deliver (k : Skein) (t : Trap) : Skein :=
  let k := if t.pop then k.popFault else k
  match t.clear with
  | some id => k.dropOp id
  | none => k

/-- R352: a trap while a handler runs: the skein stops, the driver is told. -/
def State.escalate (s : State) (t : Trap) : State :=
  let k := s.cur
  let tm := s.team k.team
  (s.updCur fun k => { k with escalated := some s.issue }).event k.ctx
    (s.record32 0x27 (toBytes 2 k.ctx ++ [t.kind, BitVec.ofNat 8 k.index] ++ toBytes 4 (tm.index % 2 ^ 24) ++
      toBytes 4 0 ++ toBytes 8 k.flt.toNat)) |>.signalCtx k.ctx

/-- R350: entry: the trap state and the hidden state are stored, and the trapped group stands at TRAPPC outside any
region. -/
def Skein.enterHandler (k : Skein) (i : Issue) (t : Trap) (trapPc : Lane) : Skein :=
  { k with
    flt := t.flt
    fltpc := t.pc.getD i.pc
    fltaddr := t.addr
    fltlanes := (t.lanes.getD i.mask).setWidth 64
    fltaux := t.aux
    handler := some { lanes := i.mask, threads := k.threads, susp := k.susp, nextIdx := k.repNext, issue := i }
    susp := false
    repNext := 0
    block := none
    threads := allLanes.map fun l =>
      let th := { k.thread l with repMark := false }
      if i.mask.getLsbD l then { th with pc := trapPc, clause := none, region := none, rep := none, waiting := none }
      else th }

/-- R350, R352: a trap taken by the issuing group. -/
def State.takeTrap (s : State) (t : Trap) : State :=
  if s.cur.handler.isSome then s.escalate t
  else (s.trace s.cur 0x32 (t.pc.getD s.issue.pc) (toBytes 8 t.flt.toNat ++ toBytes 8 t.addr.toNat)).updCur fun k =>
    (k.deliver t).enterHandler s.issue t (s.ctx k.ctx).trapPc

/-- R351: where one trapped thread resumes: `res`, the place it was stopped at, a PC the handler wrote. RES 01 leaves a repetition
for the instruction after the repeated one. -/
def resumeAt (h : Hidden) (kind : Byte) (res : BitVec 2) (fltpc : Lane) (was now : Thread) : Thread :=
  let t := { now with region := was.region, repMark := was.repMark, rep := was.rep, clause := was.clause, pc := was.pc,
                      waiting := none, yielded := was.yielded }
  if res = 3 then { t with exited := true }
  else if h.pcSet then { t with pc := fltpc, clause := none, rep := none, repMark := false }
  else if res = 1 then { { h.issue with rep := none }.past t with repMark := was.repMark && !h.issue.last }
  else if res = 2 then { t with pc := h.issue.follow, clause := none, rep := none, repMark := false }
  else if kind = 2 || kind = 10 then { t with pc := fltpc, clause := none }
  else t

/-- A lane stands in a wait. -/
def Skein.standsIn (k : Skein) (w : Wait) : Bool := k.threads.any fun t => t.waiting == some w.id && !t.exited

/-- The waits that some lane still stands in. -/
def Skein.sweepWaits (k : Skein) : Skein := { k with waits := k.waits.filter k.standsIn }

/-- R351: the end of a handler: the trapped threads resume and the hidden state comes back; what the handler's other groups
waited for is abandoned. -/
def Skein.resume (k : Skein) (h : Hidden) : Skein :=
  Skein.sweepWaits { k with
    handler := none
    susp := h.susp
    repNext := h.nextIdx
    threads := allLanes.map fun l =>
      let was := h.threads.getD l {}
      let now := k.thread l
      if now.exited then now
      else if h.lanes.getLsbD l then
        resumeAt h (k.flt.extractLsb' 0 8) (k.flt.extractLsb' 34 2) k.fltpc was now
      else { now with repMark := was.repMark } }

/-! ### Checks at issue (R164, R168, R308) -/

/-- Why an instruction does not take effect: it traps, or a limit holds it at issue (R25). -/
inductive Stop
  | trap (t : Trap)
  | hold
deriving DecidableEq, Repr

/-- An illegal-instruction trap with its cause. -/
def ill (c : Cause) : Option Stop := some (.trap { kind := 1, cause := c.code })
/-- The trap of a cause when a condition holds. -/
def illIf (b : Bool) (c : Cause) : Option Stop := if b then ill c else none
/-- Held at issue when a condition holds. -/
def holdIf (b : Bool) : Option Stop := if b then some .hold else none

/-- The first check that stops. -/
def firstStop : List (Option Stop) → Option Stop
  | [] => none
  | none :: r => firstStop r
  | some x :: _ => some x

/-- The outcome of an instruction: its effect when no check stops it. -/
def State.finish (s : State) (c : Option Stop) (eff : State) : Host.Outcome State Fault Refusal :=
  match c with
  | none => .next eff
  | some (.trap t) => .next (s.takeTrap t)
  | some .hold => .next { s with blocked := true }

/-- Cause 0x07. -/
def State.ckEs (s : State) (ok : Es → Bool) : Option Stop := illIf (!ok s.es) .badSize

/-- Cause 0x08: a transfer not last in its clause. -/
def State.ckLast (s : State) : Option Stop := illIf (!s.issue.last) .placement

/-- Some executing thread is inside a melded region. -/
def State.inRegion (s : State) : Bool := allLanes.any fun l => s.executing l && (s.cur.thread l).region.isSome

/-- Cause 0x09 (R52). -/
def State.ckRegion (s : State) : Option Stop := illIf s.inRegion .inRegion

/-- Cause 0x0A: a vector register at or above the count (R36). -/
def State.ckRegs (s : State) (fs : List Reg) : Option Stop :=
  illIf (fs.any fun f => decide (s.cur.regCount ≤ f.toNat)) .range

/-- The long operation that keeps a register pending, or held. -/
def Skein.pendingBy (k : Skein) (r : Nat) : Option LongOp := k.ops.find? fun o => o.pend.contains r
/-- The long operation that holds a register. -/
def Skein.heldBy (k : Skein) (r : Nat) : Option LongOp := k.ops.find? fun o => o.held.contains r

/-- R113: the trap that delivers the oldest record. -/
def Skein.remoteTrap (k : Skein) : Option Stop :=
  match k.faultQ with
  | [] => none
  | f :: _ => some (.trap
      { kind := 0x10, addr := f.addr, aux := f.pc, code := f.code, left := k.faultQ.length + k.faultHeld.length - 1,
        lanes := some (laneMask fun l => l == f.lane), pop := true, clear := f.op })

/-- R308, R112, R115, R363: what a pending register raises. -/
def Skein.pendTrap (k : Skein) (r : Nat) (o : LongOp) : Option Stop :=
  match o.fail with
  | some .remote => k.remoteTrap
  | some (.replay a n) => some (.trap { kind := 3, addr := a, aux := 0x100 ||| n.setWidth 64, clear := some o.id })
  | some (.denied a n) => some (.trap { kind := 4, addr := a, aux := n.setWidth 64, clear := some o.id })
  | none => some (.trap { kind := 7, aux := u64 r })

/-- R308: the unsettled-operand check over registers read and registers written; a register that a matrix operation holds waits when
the clause of the operation tracked setB. -/
def State.ckMarks (s : State) (srcs dsts : List Nat) : Option Stop :=
  let k := s.cur
  firstStop <|
    ((srcs ++ dsts).map fun r => (k.pendingBy r).bind fun o => k.pendTrap r o) ++
    (dsts.map fun r => (k.heldBy r).bind fun o =>
      if o.matrix && o.setB.isSome then some .hold else some (.trap { kind := 7, aux := u64 (64 + r) }))

/-- R168: the poison check over registers read in every lane. -/
def State.ckPoisonAll (s : State) (srcs : List Nat) : Option Stop :=
  match srcs.find? fun r => (s.cur.reg r).poison != 0 with
  | some r => some (.trap { kind := 0x0B, aux := u64 r })
  | none => none

/-- R168: the poison check over lanes of physical registers. -/
def State.ckPoisonLanes (s : State) (xs : List (Nat × Nat)) : Option Stop :=
  (xs.find? fun x => (s.cur.reg x.1).poison.getLsbD x.2).map fun x => .trap { kind := 0x0B, aux := u64 x.1 }

/-- A source register of an instruction, with its crossbar selection. -/
abbrev SrcReg := Reg × Perm

/-- R150, R166: the register a source names, when some lane of it that an executing lane reads is poisoned. -/
def State.poisonedSrc (s : State) (x : SrcReg) : Option Nat :=
  (allLanes.find? fun l =>
    let j := permSrc x.2 l
    s.executing l && !(s.cur.thread j).exited && (s.cur.reg (s.cur.resolve j x.1)).poison.getLsbD j).map fun l =>
      s.cur.resolve (permSrc x.2 l) x.1

/-- R168: the poison check over the lanes an instruction reads. -/
def State.ckPoison (s : State) (srcs : List SrcReg) : Option Stop :=
  (srcs.findSome? s.poisonedSrc).map fun r => .trap { kind := 0x0B, aux := u64 r }

/-- The physical registers of a list of sources, over the issuing group. -/
def State.namedSrcs (s : State) (srcs : List SrcReg) : List Nat := srcs.flatMap fun x => s.cur.named s.issue.mask x.1 x.2
/-- The physical registers of a list of destinations, over the issuing group. -/
def State.namedDsts (s : State) (ds : List Reg) : List Nat := ds.flatMap fun f => s.cur.named s.issue.mask f .ident

/-- R164, R168: register range, then `extra` (causes 0x0A and 0x0B), then unsettled operands, then poison; R168 gives the last three no
order (DESIGN CHOICE, log 90). -/
def State.ckOperands (s : State) (srcs : List SrcReg) (dsts : List Reg) (extra : Option Stop := none) : Option Stop :=
  firstStop [s.ckRegs (srcs.map (·.1) ++ dsts), extra, s.ckMarks (s.namedSrcs srcs) (s.namedDsts dsts),
    s.ckPoison srcs]

end Sys2Proof.Machine
end

