-- ==== Sys2Proof/Machine/Operands.lean ====
section
/-!
DEFINITION. Operand forms: sub-elements of a lane (R116), source B (R149 to R151), values read from the lowest passing
lane (R218, R257, R276), and the addresses of format M (R239, R240).
-/

namespace Sys2Proof.Machine

/-! ### Sub-elements -/

/-- The sub-elements of a lane at a width, the lowest first (R116). -/
def subs (w : Nat) (v : Lane) : List Nat := (List.range (64 / w)).map fun s => v.toNat / 2 ^ (w * s) % 2 ^ w

/-- Sub-elements laid side by side, the lowest first. -/
def packNat (w : Nat) : List Nat → Nat
  | [] => 0
  | x :: xs => x % 2 ^ w + 2 ^ w * packNat w xs

/-- A lane of sub-elements. -/
def packLane (w : Nat) (xs : List Nat) : Lane := BitVec.ofNat 64 (packNat w xs)

/-- One value in every sub-element (R151). -/
def splat (w v : Nat) : Lane := packLane w (List.replicate (64 / w) v)

/-- SignExt (R138): a pattern read as two's complement. -/
def sgn (w x : Nat) : Int := if x % 2 ^ w < 2 ^ (w - 1) then (x % 2 ^ w : Nat) else (x % 2 ^ w : Nat) - 2 ^ w

/-- Wrap (R138). -/
def wrap (w : Nat) (x : Int) : Nat := (x % (2 ^ w : Nat)).toNat

/-- SignExt of a bit vector to 64 bits. -/
def sx64 {n : Nat} (b : BitVec n) : Lane := b.signExtend 64

/-! ### Source B -/

/-- Source B of an integer instruction (R149, R151). -/
inductive SrcB
  | reg (b : Reg) (p : Perm)
  | imm (v : Word)
deriving DecidableEq, Repr

/-- R151: an integer immediate in a lane. -/
def immLane (es : Es) (v : Word) : Lane :=
  if es = .e64 then v.signExtend 64 else splat es.w v.toNat

/-- Source B in a lane. -/
def State.srcB (s : State) (b : SrcB) (l : Nat) : Lane :=
  match b with
  | .reg f p => s.cur.readB f p l
  | .imm v => immLane s.es v

/-- The registers source B names. -/
def SrcB.regs : SrcB → List SrcReg
  | .reg f p => [(f, p)]
  | .imm _ => []

/-- A plain source register. -/
def plain (f : Reg) : SrcReg := (f, .ident)

/-! ### The lowest passing lane -/

/-- A register read in the lowest executing lane whose guard passes (R218, R257, R276). -/
def State.lowRead (s : State) (g : Guard) (f : Reg) : Option Lane := (lowest (s.passing g)).map fun l => s.cur.read f l

/-! ### Addresses -/

/-- The value of a coefficient times its level's counter (R239). -/
def coef (c : BitVec 32) (k : LoopLevel) : Lane := c.signExtend 64 * k.counter.setWidth 64

/-- R239: the address a stream forms in a lane, before the offset register. -/
def Skein.streamAddr (k : Skein) (n : Nat) (l : Nat) : Lane :=
  let st := k.streams.getD n {}
  let lv := fun i => k.levels.getD i {}
  st.base + coef st.c0 (lv 0) + coef st.c1 (lv 1) + coef st.c2 (lv 2) + coef st.c3 (lv 3) +
    st.lane.signExtend 64 * u64 l

/-- R239: an address with its offset register; field 63 means no offset. -/
def Skein.addr (k : Skein) (n : Nat) (off : Reg) (l : Nat) : Lane :=
  k.streamAddr n l + (if off = 63 then 0 else k.read off l)

/-- The space tag of a stream (R217). -/
def Skein.streamTag (k : Skein) (n : Nat) : BitVec 2 := (k.streams.getD n {}).tag

/-- The offset register as a source, when the field names one. -/
def offRegs (off : Reg) : List SrcReg := if off = 63 then [] else [plain off]

end Sys2Proof.Machine
end

