-- ==== Sys2Proof/Machine/Flags.lean ====
section
/-!
DEFINITION. Sticky flags (R124, R125), predicate pushes (R180), completion-flag counts (R143) and shape tags (R167), and the
one shape every lane-wise instruction has: checks, then lanes written, flags set, and the group moved on.
-/

namespace Sys2Proof.Machine

/-! ### Sticky flags -/

/-- R124: bits of the `stk` word. -/
abbrev Sticky := BitVec 6
/-- R124. -/
def fSAT : Sticky := 32
/-- R124. -/
def fNV : Sticky := 16
/-- R124. -/
def fDZ : Sticky := 8
/-- R124. -/
def fOF : Sticky := 4
/-- R124. -/
def fUF : Sticky := 2
/-- R124. -/
def fNX : Sticky := 1

/-- A flag when a condition holds. -/
def flagIf (b : Bool) (f : Sticky) : Sticky := if b then f else 0

/-- The flags a lane's sub-elements cause together (R138). -/
def orFlags : List Sticky → Sticky
  | [] => 0
  | f :: fs => f ||| orFlags fs

/-- R125: flags set in a lane. -/
def Thread.stick (t : Thread) (f : Sticky) : Thread := { t with sticky := t.sticky ||| f }

/-! ### Predicates -/

/-- R180: a push at depth 0; depth 7 is discarded. -/
def Thread.push (t : Thread) (b : Bool) : Thread := { t with pred := (t.pred <<< 1) ||| (if b then 1 else 0) }

/-! ### Completion flags (R143) -/

/-- An issue that would raise a count above 63 waits. -/
def State.ckFlag (s : State) (a b : Bool) : Option Stop :=
  let tops (f : Option (BitVec 4)) (n : Nat) : Bool :=
    match f with
    | some f => decide (63 < s.cur.flags.getD f.toNat 0 + n)
    | none => false
  let h := s.header
  holdIf <|
    if h.setA = h.setB then tops h.setA (a.toNat + b.toNat)
    else (a && tops h.setA 1) || (b && tops h.setB 1)

/-- The flags a long operation of the issuing clause is counted on. -/
def State.track (s : State) (a b : Bool) : Option (BitVec 4) × Option (BitVec 4) :=
  (if a then s.header.setA else none, if b then s.header.setB else none)

/-- A long operation begun in a skein: its marks stand and its counts rise (R143, R308). -/
def Skein.begin (k : Skein) (now : Nat) (o : LongOp) : Skein :=
  { k with ops := k.ops ++ [{ o with sent := now, serial := k.issues }], flags := incFlag (incFlag k.flags o.setA) o.setB }

/-! ### Shape tags (R167) -/

/-- A tag seen under an element size: an affine tag of another size counts as general. -/
def Tag.at (t : Tag) (es : Es) : Tag :=
  match t with
  | .affine b st e => if e = es then .affine b st e else .general
  | t => t

/-- Two lanes combined sub-element by sub-element, modulo the width. -/
def zipLane (w : Nat) (f : Nat → Nat → Int) (x y : Lane) : Lane :=
  packLane w ((subs w x).zipWith (fun a b => wrap w (f a b)) (subs w y))

/-- Every source uniform gives uniform; every other case general. -/
def tagAll (ts : List Tag) : Tag := if ts.all (· == .uniform) then .uniform else .general

/-- R167, the row of `add`. -/
def tagAdd (es : Es) (ta tb : Tag) (ua ub : Lane) : Tag :=
  match ta.at es, tb.at es with
  | .uniform, .uniform => .uniform
  | .affine b st _, .uniform => .affine (zipLane es.w (fun x y => x + y) b ub) st es
  | .uniform, .affine b st _ => .affine (zipLane es.w (fun x y => x + y) b ua) st es
  | _, _ => .general

/-- R167, the row of `sub`. -/
def tagSub (es : Es) (ta tb : Tag) (_ua ub : Lane) : Tag :=
  match ta.at es, tb.at es with
  | .uniform, .uniform => .uniform
  | .affine b st _, .uniform => .affine (zipLane es.w (fun x y => x - y) b ub) st es
  | _, _ => .general

/-- R167, the row of `mul`. -/
def tagMul (es : Es) (ta tb : Tag) (ua ub : Lane) : Tag :=
  match ta.at es, tb.at es with
  | .uniform, .uniform => .uniform
  | .affine b st _, .uniform =>
    .affine (zipLane es.w (fun x y => x * y) b ub) (zipLane es.w (fun x y => x * y) st ub) es
  | .uniform, .affine b st _ =>
    .affine (zipLane es.w (fun x y => x * y) b ua) (zipLane es.w (fun x y => x * y) st ua) es
  | _, _ => .general

/-- The tag of source B (R149). -/
def State.tagB (s : State) : SrcB → Tag
  | .reg f p => permTag p (s.cur.tagOf s.issue.mask f)
  | .imm _ => .uniform

/-- The tag of a plain source. -/
def State.tagOf (s : State) (f : Reg) : Tag := s.cur.tagOf s.issue.mask f

/-! ### The shape of a lane-wise instruction -/

/-- What a lane-wise instruction does once its checks pass: lanes written (R166), flags set, predicates pushed, the group
moved on. -/
structure LaneEff where
  pass  : Nat → Bool
  dst   : Option Reg := none
  val   : Nat → Lane := fun _ => 0
  tag   : Tag := .general
  flags : Nat → Sticky := fun _ => 0
  push  : Nat → Option Bool := fun _ => none

/-- R166, R180: the effect in the skein. -/
def Skein.laneEff (k : Skein) (e : LaneEff) : Skein :=
  let k' := match e.dst with
    | some d => k.write d e.pass e.val e.tag
    | none => k
  k'.updThreads e.pass fun l t =>
    let t := t.stick (e.flags l)
    match e.push l with
    | some b => t.push b
    | none => t

/-- The effect, and the group past its instruction. -/
def State.laneEff (s : State) (e : LaneEff) : State := (s.updCur fun k => (k.dull s.executing e.dst).laneEff e).advance

/-- A lane-wise instruction: element size, operands and marks checked, then its effect. -/
def State.laneOp (s : State) (es : Es → Bool) (srcs : List SrcReg) (extra : Option Stop) (e : LaneEff) :
    Host.Outcome State Fault Refusal :=
  s.finish (firstStop [s.ckEs es, s.ckOperands srcs e.dst.toList extra]) (s.laneEff e)

/-- A lane-wise instruction given by what each lane's sub-elements become, with their flags. -/
def State.eltOp (s : State) (g : Guard) (es : Es → Bool) (srcs : List SrcReg) (d : Reg) (extra : Option Stop)
    (tag : Tag) (res : Nat → List (Nat × Sticky)) : Host.Outcome State Fault Refusal :=
  s.laneOp es srcs extra
    { pass := s.passing g, dst := some d, tag := tag
      val := fun l => packLane s.es.w ((res l).map (·.1))
      flags := fun l => orFlags ((res l).map (·.2)) }

/-- Every element size (R166). -/
def anyEs : Es → Bool := fun _ => true

end Sys2Proof.Machine
end

