-- ==== Sys2Proof/Machine/Integer.lean ====
section
/-!
DEFINITION. Integer and bit instructions, opcodes 0x01 to 0x1F (R166 to R180).
-/

namespace Sys2Proof.Machine

/-- What one sub-element becomes, with its flags, from the width and the operand patterns. -/
abbrev Fn2 := Nat → Nat → Nat → Nat × Sticky

/-- SatI (R138). -/
def satI (w : Nat) (x : Int) : Nat × Sticky :=
  if x < -(2 ^ (w - 1) : Nat) then (wrap w (-(2 ^ (w - 1) : Nat)), fSAT)
  else if (2 ^ (w - 1) : Nat) ≤ x then (2 ^ (w - 1) - 1, fSAT)
  else (wrap w x, 0)

/-- SatN (R138). -/
def satN (w : Nat) (x : Int) : Nat × Sticky :=
  if x < 0 then (0, fSAT) else if (2 ^ w : Nat) ≤ x then (2 ^ w - 1, fSAT) else (wrap w x, 0)

/-- RoundToIntNE of x / 2^k (R138). -/
def roundHalfEven (x : Int) (k : Nat) : Int :=
  let q := x / (2 ^ k : Nat)
  let r := x % (2 ^ k : Nat)
  if 2 * r < (2 ^ k : Nat) then q
  else if 2 * r = (2 ^ k : Nat) then (if q % 2 = 0 then q else q + 1)
  else q + 1

/-- RShrHalfEven (R138). -/
def rshrHalfEven (x : Int) (k : Nat) : Int := if k = 0 then x else roundHalfEven x k

/-- RShrHalfUp (R138). -/
def rshrHalfUp (x : Int) (k : Nat) : Int := if k = 0 then x else (x + (2 ^ (k - 1) : Nat)) / (2 ^ k : Nat)

/-! ### The table of R172 -/

/-- add. -/
def fnAdd : Fn2 := fun w a b => (wrap w (a + b), 0)
/-- sub. -/
def fnSub : Fn2 := fun w a b => (wrap w ((a : Int) - b), 0)
/-- addsat.i. -/
def fnAddsatI : Fn2 := fun w a b => satI w (sgn w a + sgn w b)
/-- addsat.n. -/
def fnAddsatN : Fn2 := fun w a b => satN w ((a : Int) + b)
/-- subsat.i. -/
def fnSubsatI : Fn2 := fun w a b => satI w (sgn w a - sgn w b)
/-- subsat.n. -/
def fnSubsatN : Fn2 := fun w a b => satN w ((a : Int) - b)
/-- mul. -/
def fnMul : Fn2 := fun w a b => (wrap w ((a : Int) * b), 0)
/-- mulhi.i. -/
def fnMulhiI : Fn2 := fun w a b => (wrap w (sgn w a * sgn w b / (2 ^ w : Nat)), 0)
/-- mulhi.n. -/
def fnMulhiN : Fn2 := fun w a b => (wrap w ((a : Int) * b / (2 ^ w : Nat)), 0)
/-- min.i. -/
def fnMinI : Fn2 := fun w a b => (if sgn w a ≤ sgn w b then a else b, 0)
/-- min.n. -/
def fnMinN : Fn2 := fun _ a b => (if a ≤ b then a else b, 0)
/-- max.i. -/
def fnMaxI : Fn2 := fun w a b => (if sgn w a ≤ sgn w b then b else a, 0)
/-- max.n. -/
def fnMaxN : Fn2 := fun _ a b => (if a ≤ b then b else a, 0)
/-- and. -/
def fnAnd : Fn2 := fun _ a b => (a &&& b, 0)
/-- or. -/
def fnOr : Fn2 := fun _ a b => (a ||| b, 0)
/-- xor. -/
def fnXor : Fn2 := fun _ a b => (a ^^^ b, 0)
/-- andn. -/
def fnAndn : Fn2 := fun w a b => (a &&& (2 ^ w - 1 - b), 0)
/-- shl. -/
def fnShl : Fn2 := fun w a b => (if b < w then a * 2 ^ b % 2 ^ w else 0, 0)
/-- shr.n. -/
def fnShrN : Fn2 := fun w a b => (if b < w then a / 2 ^ b else 0, 0)
/-- shr.i. -/
def fnShrI : Fn2 := fun w a b => (wrap w (sgn w a / (2 ^ (if b < w then b else w) : Nat)), 0)

/-- Two-source lane-wise instructions (R172) with a tag rule of R167. -/
def State.alu2 (s : State) (g : Guard) (d a : Reg) (b : SrcB) (tag : Es → Tag → Tag → Lane → Lane → Tag) (f : Fn2) :
    Host.Outcome State Fault Refusal :=
  let k := s.cur
  let w := s.es.w
  s.eltOp g anyEs (plain a :: b.regs) d none
    (tag s.es (s.tagOf a) (s.tagB b) (k.read a 0) (s.srcB b 0))
    fun l => (subs w (k.read a l)).zipWith (f w) (subs w (s.srcB b l))

/-- The tag rule of every row but add, sub and mul. -/
def tagPlain : Es → Tag → Tag → Lane → Lane → Tag := fun _ ta tb _ _ => tagAll [ta, tb]

/-- nop (R169). -/
def execNop (_g : Guard) (s : State) : Host.Outcome State Fault Refusal := .next s.advance

/-- mov from a register (R170). -/
def execMov (g : Guard) (d b : Reg) (p : Perm) (s : State) : Host.Outcome State Fault Refusal :=
  s.laneOp anyEs [(b, p)] none
    { pass := s.passing g, dst := some d, tag := (permTag p (s.tagOf b)).at s.es, val := fun l => s.cur.readB b p l }

/-- mov of an immediate (R170). -/
def execMovImm (g : Guard) (d : Reg) (imm : Word) (s : State) : Host.Outcome State Fault Refusal :=
  s.laneOp anyEs [] none
    { pass := s.passing g, dst := some d, tag := .uniform, val := fun _ => immLane s.es imm }

/-- movi (R171). -/
def execMovi (g : Guard) (d : Reg) (imm : BitVec 9) (s : State) : Host.Outcome State Fault Refusal :=
  s.laneOp anyEs [] none
    { pass := s.passing g, dst := some d, tag := .uniform, val := fun _ => splat s.es.w (wrap s.es.w imm.toInt) }

/-- add (R172). -/
def execAdd (g : Guard) (d a b : Reg) (p : Perm) (s : State) := s.alu2 g d a (.reg b p) tagAdd fnAdd
/-- add with an immediate (R172). -/
def execAddImm (g : Guard) (d a : Reg) (imm : Word) (s : State) := s.alu2 g d a (.imm imm) tagAdd fnAdd
/-- sub (R172). -/
def execSub (g : Guard) (d a b : Reg) (p : Perm) (s : State) := s.alu2 g d a (.reg b p) tagSub fnSub
/-- sub with an immediate (R172). -/
def execSubImm (g : Guard) (d a : Reg) (imm : Word) (s : State) := s.alu2 g d a (.imm imm) tagSub fnSub
/-- addsat.i (R172). -/
def execAddsatI (g : Guard) (d a b : Reg) (p : Perm) (s : State) := s.alu2 g d a (.reg b p) tagPlain fnAddsatI
/-- addsat.i with an immediate (R172). -/
def execAddsatIImm (g : Guard) (d a : Reg) (imm : Word) (s : State) := s.alu2 g d a (.imm imm) tagPlain fnAddsatI
/-- addsat.n (R172). -/
def execAddsatN (g : Guard) (d a b : Reg) (p : Perm) (s : State) := s.alu2 g d a (.reg b p) tagPlain fnAddsatN
/-- addsat.n with an immediate (R172). -/
def execAddsatNImm (g : Guard) (d a : Reg) (imm : Word) (s : State) := s.alu2 g d a (.imm imm) tagPlain fnAddsatN
/-- subsat.i (R172). -/
def execSubsatI (g : Guard) (d a b : Reg) (p : Perm) (s : State) := s.alu2 g d a (.reg b p) tagPlain fnSubsatI
/-- subsat.i with an immediate (R172). -/
def execSubsatIImm (g : Guard) (d a : Reg) (imm : Word) (s : State) := s.alu2 g d a (.imm imm) tagPlain fnSubsatI
/-- subsat.n (R172). -/
def execSubsatN (g : Guard) (d a b : Reg) (p : Perm) (s : State) := s.alu2 g d a (.reg b p) tagPlain fnSubsatN
/-- subsat.n with an immediate (R172). -/
def execSubsatNImm (g : Guard) (d a : Reg) (imm : Word) (s : State) := s.alu2 g d a (.imm imm) tagPlain fnSubsatN
/-- mul (R172). -/
def execMul (g : Guard) (d a b : Reg) (p : Perm) (s : State) := s.alu2 g d a (.reg b p) tagMul fnMul
/-- mul with an immediate (R172). -/
def execMulImm (g : Guard) (d a : Reg) (imm : Word) (s : State) := s.alu2 g d a (.imm imm) tagMul fnMul
/-- mulhi.i (R172). -/
def execMulhiI (g : Guard) (d a b : Reg) (p : Perm) (s : State) := s.alu2 g d a (.reg b p) tagPlain fnMulhiI
/-- mulhi.i with an immediate (R172). -/
def execMulhiIImm (g : Guard) (d a : Reg) (imm : Word) (s : State) := s.alu2 g d a (.imm imm) tagPlain fnMulhiI
/-- mulhi.n (R172). -/
def execMulhiN (g : Guard) (d a b : Reg) (p : Perm) (s : State) := s.alu2 g d a (.reg b p) tagPlain fnMulhiN
/-- mulhi.n with an immediate (R172). -/
def execMulhiNImm (g : Guard) (d a : Reg) (imm : Word) (s : State) := s.alu2 g d a (.imm imm) tagPlain fnMulhiN
/-- min.i (R172). -/
def execMinI (g : Guard) (d a b : Reg) (p : Perm) (s : State) := s.alu2 g d a (.reg b p) tagPlain fnMinI
/-- min.i with an immediate (R172). -/
def execMinIImm (g : Guard) (d a : Reg) (imm : Word) (s : State) := s.alu2 g d a (.imm imm) tagPlain fnMinI
/-- min.n (R172). -/
def execMinN (g : Guard) (d a b : Reg) (p : Perm) (s : State) := s.alu2 g d a (.reg b p) tagPlain fnMinN
/-- min.n with an immediate (R172). -/
def execMinNImm (g : Guard) (d a : Reg) (imm : Word) (s : State) := s.alu2 g d a (.imm imm) tagPlain fnMinN
/-- max.i (R172). -/
def execMaxI (g : Guard) (d a b : Reg) (p : Perm) (s : State) := s.alu2 g d a (.reg b p) tagPlain fnMaxI
/-- max.i with an immediate (R172). -/
def execMaxIImm (g : Guard) (d a : Reg) (imm : Word) (s : State) := s.alu2 g d a (.imm imm) tagPlain fnMaxI
/-- max.n (R172). -/
def execMaxN (g : Guard) (d a b : Reg) (p : Perm) (s : State) := s.alu2 g d a (.reg b p) tagPlain fnMaxN
/-- max.n with an immediate (R172). -/
def execMaxNImm (g : Guard) (d a : Reg) (imm : Word) (s : State) := s.alu2 g d a (.imm imm) tagPlain fnMaxN
/-- and (R172). -/
def execAnd (g : Guard) (d a b : Reg) (p : Perm) (s : State) := s.alu2 g d a (.reg b p) tagPlain fnAnd
/-- and with an immediate (R172). -/
def execAndImm (g : Guard) (d a : Reg) (imm : Word) (s : State) := s.alu2 g d a (.imm imm) tagPlain fnAnd
/-- or (R172). -/
def execOr (g : Guard) (d a b : Reg) (p : Perm) (s : State) := s.alu2 g d a (.reg b p) tagPlain fnOr
/-- or with an immediate (R172). -/
def execOrImm (g : Guard) (d a : Reg) (imm : Word) (s : State) := s.alu2 g d a (.imm imm) tagPlain fnOr
/-- xor (R172). -/
def execXor (g : Guard) (d a b : Reg) (p : Perm) (s : State) := s.alu2 g d a (.reg b p) tagPlain fnXor
/-- xor with an immediate (R172). -/
def execXorImm (g : Guard) (d a : Reg) (imm : Word) (s : State) := s.alu2 g d a (.imm imm) tagPlain fnXor
/-- andn (R172). -/
def execAndn (g : Guard) (d a b : Reg) (p : Perm) (s : State) := s.alu2 g d a (.reg b p) tagPlain fnAndn
/-- andn with an immediate (R172). -/
def execAndnImm (g : Guard) (d a : Reg) (imm : Word) (s : State) := s.alu2 g d a (.imm imm) tagPlain fnAndn
/-- shl (R172). -/
def execShl (g : Guard) (d a b : Reg) (p : Perm) (s : State) := s.alu2 g d a (.reg b p) tagPlain fnShl
/-- shl with an immediate (R172). -/
def execShlImm (g : Guard) (d a : Reg) (imm : Word) (s : State) := s.alu2 g d a (.imm imm) tagPlain fnShl
/-- shr.n (R172). -/
def execShrN (g : Guard) (d a b : Reg) (p : Perm) (s : State) := s.alu2 g d a (.reg b p) tagPlain fnShrN
/-- shr.n with an immediate (R172). -/
def execShrNImm (g : Guard) (d a : Reg) (imm : Word) (s : State) := s.alu2 g d a (.imm imm) tagPlain fnShrN
/-- shr.i (R172). -/
def execShrI (g : Guard) (d a b : Reg) (p : Perm) (s : State) := s.alu2 g d a (.reg b p) tagPlain fnShrI
/-- shr.i with an immediate (R172). -/
def execShrIImm (g : Guard) (d a : Reg) (imm : Word) (s : State) := s.alu2 g d a (.imm imm) tagPlain fnShrI

/-! ### Unary instructions (R173, R178) -/

/-- One-source lane-wise instructions. -/
def State.alu1 (s : State) (g : Guard) (d a : Reg) (extra : Option Stop) (f : Nat → Nat → Nat) :
    Host.Outcome State Fault Refusal :=
  let k := s.cur
  let w := s.es.w
  s.eltOp g anyEs [plain a] d extra (tagAll [s.tagOf a]) fun l => (subs w (k.read a l)).map fun x => (f w x, 0)

/-- abs. -/
def fnAbs (w x : Nat) : Nat := wrap w (sgn w x).natAbs
/-- neg. -/
def fnNeg (w x : Nat) : Nat := wrap w (-(x : Int))
/-- not. -/
def fnNot (w x : Nat) : Nat := 2 ^ w - 1 - x

/-- abs (R173). -/
def execAbs (g : Guard) (d a : Reg) (s : State) := s.alu1 g d a none fnAbs
/-- neg (R173). -/
def execNeg (g : Guard) (d a : Reg) (s : State) := s.alu1 g d a none fnNeg
/-- not (R173). -/
def execNot (g : Guard) (d a : Reg) (s : State) := s.alu1 g d a none fnNot

/-- The bits of a number, lowest first. -/
def bitsOf (w x : Nat) : List Bool := (List.range w).map x.testBit

/-- The number of one bits. -/
def fnPopc (w x : Nat) : Nat := (bitsOf w x).count true
/-- The number of zero bits above the highest one bit. -/
def fnClz (w x : Nat) : Nat := ((bitsOf w x).reverse.takeWhile (! ·)).length
/-- Bit i moved to bit w - 1 - i. -/
def fnBrev (w x : Nat) : Nat := packNat 1 ((bitsOf w x).reverse.map Bool.toNat)

/-- popc (R178). -/
def execPopc (g : Guard) (d a : Reg) (s : State) := s.alu1 g d a none fnPopc
/-- clz (R178). -/
def execClz (g : Guard) (d a : Reg) (s : State) := s.alu1 g d a none fnClz
/-- brev (R178). -/
def execBrev (g : Guard) (d a : Reg) (s : State) := s.alu1 g d a none fnBrev

/-- R178: pos + len beyond ES raises cause 0x0A. -/
def State.ckField (s : State) (pos len1 : BitVec 6) : Option Stop :=
  illIf (decide (s.es.w < pos.toNat + len1.toNat + 1)) .range

/-- A bit field. -/
def field (x : Nat) (pos len1 : BitVec 6) : Nat := x / 2 ^ pos.toNat % 2 ^ (len1.toNat + 1)

/-- bfx.i (R178). -/
def execBfxI (g : Guard) (d a : Reg) (pos len1 : BitVec 6) (s : State) :=
  s.alu1 g d a (s.ckField pos len1) fun w x => wrap w (sgn (len1.toNat + 1) (field x pos len1))
/-- bfx.n (R178). -/
def execBfxN (g : Guard) (d a : Reg) (pos len1 : BitVec 6) (s : State) :=
  s.alu1 g d a (s.ckField pos len1) fun _ x => field x pos len1

/-- bfi's value: c with a field replaced. -/
def fnBfi (pos len1 : BitVec 6) (a c : Nat) : Nat :=
  c - field c pos len1 * 2 ^ pos.toNat + a % 2 ^ (len1.toNat + 1) * 2 ^ pos.toNat

/-- bfi (R178). -/
def execBfi (g : Guard) (d a c : Reg) (pos len1 : BitVec 6) (s : State) : Host.Outcome State Fault Refusal :=
  let k := s.cur
  let w := s.es.w
  s.eltOp g anyEs [plain a, plain c] d (s.ckField pos len1) (tagAll [s.tagOf a, s.tagOf c])
    fun l => (subs w (k.read a l)).zipWith (fun x y => (fnBfi pos len1 x y, 0)) (subs w (k.read c l))

/-! ### Three sources (R174, R175) -/

/-- mad (R174). -/
def execMad (g : Guard) (d a b : Reg) (p : Perm) (c : Reg) (s : State) : Host.Outcome State Fault Refusal :=
  let k := s.cur
  let w := s.es.w
  s.eltOp g anyEs [plain a, (b, p), plain c] d none (tagAll [s.tagOf a, s.tagB (.reg b p), s.tagOf c])
    fun l => ((subs w (k.read a l)).zip (subs w (k.readB b p l))).zipWith
      (fun ab z => (wrap w ((ab.1 * ab.2 + z : Nat) : Int), 0)) (subs w (k.read c l))

/-- Neighbouring pairs of a list. -/
def pairs {α : Type} : List α → List (α × α)
  | x :: y :: r => (x, y) :: pairs r
  | _ => []

/-- mac2 (R175). -/
def execMac2 (g : Guard) (d a b : Reg) (p : Perm) (c : Reg) (s : State) : Host.Outcome State Fault Refusal :=
  let k := s.cur
  let w := s.es.w
  let h := w / 2
  s.eltOp g (fun e => e != .e8) [plain a, (b, p), plain c] d none (tagAll [s.tagOf a, s.tagB (.reg b p), s.tagOf c])
    fun l =>
      let prods := (subs h (k.read a l)).zipWith (fun x y => sgn h x * sgn h y) (subs h (k.readB b p l))
      (pairs prods).zipWith (fun pq z => satI w (sgn w z + (pq.1 + pq.2))) (subs w (k.read c l))

/-! ### Rounding right shift (R176, R177) -/

/-- The rounded shift of one sub-element. -/
def rshr1 (w : Nat) (u he : Bool) (k x : Nat) : Int :=
  let v : Int := if u then x else sgn w x
  if he then rshrHalfEven v k else rshrHalfUp v k

/-- Two lists interleaved. -/
def interleave {α : Type} : List α → List α → List α
  | x :: xs, y :: ys => x :: y :: interleave xs ys
  | _, _ => []

/-- rshr (R176, R177). -/
def execRshr (g : Guard) (d a : Reg) (sh : ShiftSrc) (u he : Bool) (nw : Option Reg) (s : State) :
    Host.Outcome State Fault Refusal :=
  let k := s.cur
  let w := s.es.w
  let amounts := fun l => match sh with
    | .imm n => List.replicate (64 / w) n.toNat
    | .reg b p => (subs w (k.readB b p l)).map fun x => min x 63
  let shSrc := match sh with | .imm _ => [] | .reg b p => [(b, p)]
  let shTag := match sh with | .imm _ => .uniform | .reg b p => s.tagB (.reg b p)
  let extra := match sh with | .imm n => illIf (decide (w ≤ n.toNat)) .range | .reg _ _ => none
  match nw with
  | none =>
    s.eltOp g anyEs (plain a :: shSrc) d extra (tagAll [s.tagOf a, shTag])
      fun l => (subs w (k.read a l)).zipWith (fun x n => (wrap w (rshr1 w u he n x), 0)) (amounts l)
  | some c =>
    let narrow := fun l (f : Reg) => (subs w (k.read f l)).zipWith
      (fun x n => (if u then satN else satI) (w / 2) (rshr1 w u he n x)) (amounts l)
    s.laneOp (fun e => e != .e8) (plain a :: plain c :: shSrc) extra
      { pass := s.passing g, dst := some d, tag := tagAll [s.tagOf a, s.tagOf c, shTag]
        val := fun l => packLane (w / 2) ((interleave (narrow l a) (narrow l c)).map (·.1))
        flags := fun l => orFlags ((interleave (narrow l a) (narrow l c)).map (·.2)) }

/-! ### Comparison (R179, R180) -/

/-- R161: a condition on two sub-elements. -/
def cmpTest (c : CmpCond) (w a b : Nat) : Bool :=
  match c with
  | .eq => a == b
  | .ne => a != b
  | .ltI => decide (sgn w a < sgn w b)
  | .leI => decide (sgn w a ≤ sgn w b)
  | .gtI => decide (sgn w b < sgn w a)
  | .geI => decide (sgn w b ≤ sgn w a)
  | .ltN => decide (a < b)
  | .leN => decide (a ≤ b)
  | .gtN => decide (b < a)
  | .geN => decide (b ≤ a)

/-- A mask sub-element. -/
def maskElt (w : Nat) (t : Bool) : Nat := if t then 2 ^ w - 1 else 0

/-- cmp (R179, R180). -/
def execCmp (g : Guard) (cond : CmpCond) (wd : Option Reg) (a b : Reg) (p : Perm) (np : Bool) (sub : BitVec 3) (s : State) :
    Host.Outcome State Fault Refusal :=
  let k := s.cur
  let w := s.es.w
  let t := fun l => (subs w (k.read a l)).zipWith (cmpTest cond w) (subs w (k.readB b p l))
  s.laneOp anyEs [plain a, (b, p)] (illIf (decide (64 / w ≤ sub.toNat) || (np && wd.isNone)) .range)
    { pass := s.passing g, dst := wd, tag := tagAll [s.tagOf a, s.tagB (.reg b p)]
      val := fun l => packLane w ((t l).map (maskElt w))
      push := fun l => if np then none else some ((t l).getD sub.toNat false) }

end Sys2Proof.Machine
end

