-- ==== Sys2Proof/Machine/Numeric.lean ====
section
/-!
DEFINITION. Number formats and exact arithmetic (R116 to R138): decoding a pattern, rounding an exact value once, encoding a
narrow element, integers chosen by a rounding mode, square roots, and the enclosures of the special functions (R192).
Values are exact dyadics: a mantissa times a power of two.
-/

namespace Sys2Proof.Machine

/-! ### Formats (R118, R119) -/

/-- A floating-point format: total bits, exponent and fraction bits, bias, greatest finite magnitude, canonical NaN, and
whether it has infinities. -/
structure Fmt where
  w     : Nat
  fbits : Nat
  bias  : Nat
  maxPat : Nat
  canon : Nat
  inf   : Bool
deriving DecidableEq, Repr

/-- f64. -/
def f64 : Fmt := ⟨64, 52, 1023, 0x7FEFFFFFFFFFFFFF, 0x7FF8000000000000, true⟩
/-- f32. -/
def f32 : Fmt := ⟨32, 23, 127, 0x7F7FFFFF, 0x7FC00000, true⟩
/-- f16. -/
def f16 : Fmt := ⟨16, 10, 15, 0x7BFF, 0x7E00, true⟩
/-- bf16. -/
def bf16 : Fmt := ⟨16, 7, 127, 0x7F7F, 0x7FC0, true⟩
/-- e4m3. -/
def e4m3 : Fmt := ⟨8, 3, 7, 0x7E, 0x7F, false⟩
/-- e5m2. -/
def e5m2 : Fmt := ⟨8, 2, 15, 0x7B, 0x7E, true⟩
/-- e3m2: no NaN, so the pattern of a NaN is +0 (R126). -/
def e3m2 : Fmt := ⟨6, 2, 3, 0x1F, 0, false⟩
/-- e2m3. -/
def e2m3 : Fmt := ⟨6, 3, 1, 0x1F, 0, false⟩
/-- e2m1. -/
def e2m1 : Fmt := ⟨4, 1, 1, 0x7, 0, false⟩

/-- The exponent of the smallest subnormal. -/
def Fmt.qmin (F : Fmt) : Int := 1 - (F.bias : Int) - F.fbits

/-- The sign bit's weight. -/
def Fmt.top (F : Fmt) : Nat := 2 ^ (F.w - 1)

/-- The format of a type code; f32 for a type that is no floating-point format. -/
def tyFmt : Ty → Fmt
  | .f16 => f16 | .bf16 => bf16 | .f64 => f64 | .e4m3 => e4m3 | .e5m2 => e5m2 | .e3m2 => e3m2 | .e2m3 => e2m3
  | .e2m1 => e2m1 | _ => f32

/-! ### Values -/

/-- What a pattern means. -/
inductive FVal
  | fin (neg : Bool) (m : Nat) (e : Int)
  | inf (neg : Bool)
  | nan (sig : Bool)
deriving DecidableEq, Repr

/-- Decode (R138). -/
def decodeF (F : Fmt) (b : Nat) : FVal :=
  let neg := b / F.top % 2 == 1
  let mag := b % F.top
  if F.maxPat < mag then
    if F.inf && mag == F.maxPat + 1 then .inf neg
    else .nan (decide (16 ≤ F.w) && !(mag.testBit (F.fbits - 1)))
  else
    let ex := mag / 2 ^ F.fbits
    let fr := mag % 2 ^ F.fbits
    if ex = 0 then .fin neg fr F.qmin else .fin neg (fr + 2 ^ F.fbits) (F.qmin + ex - 1)

/-- A subnormal pattern. -/
def subnormal (F : Fmt) (b : Nat) : Bool := decide (0 < b % F.top) && decide (b % F.top < 2 ^ F.fbits)

/-- A pattern after FZI (R123). -/
def flushIn (F : Fmt) (fzi : Bool) (b : Nat) : Nat := if fzi && subnormal F b then b / F.top % 2 * F.top else b % 2 ^ F.w

/-- DecodeFz (R138). -/
def decodeFz (F : Fmt) (fzi : Bool) (b : Nat) : FVal := decodeF F (flushIn F fzi b)

/-- The sign of a value; a NaN counts as positive. -/
def FVal.neg : FVal → Bool
  | .fin n _ _ => n
  | .inf n => n
  | .nan _ => false

/-- A NaN. -/
def FVal.isNan : FVal → Bool
  | .nan _ => true
  | _ => false

/-- A signalling NaN. -/
def FVal.isSig : FVal → Bool
  | .nan s => s
  | _ => false

/-- An infinity. -/
def FVal.isInf : FVal → Bool
  | .inf _ => true
  | _ => false

/-- A zero. -/
def FVal.isZero : FVal → Bool
  | .fin _ m _ => m == 0
  | _ => false

/-- The value negated. -/
def FVal.negate : FVal → FVal
  | .fin n m e => .fin (!n) m e
  | .inf n => .inf (!n)
  | v => v

/-! ### Dyadics -/

/-- An exact value: mantissa and exponent of two. -/
structure Dy where
  m : Int
  e : Int
deriving DecidableEq, Repr

/-- Sum. -/
def Dy.add (x y : Dy) : Dy :=
  if x.m = 0 then y else if y.m = 0 then x
  else if x.e ≤ y.e then ⟨x.m + y.m * (2 ^ (y.e - x.e).toNat : Nat), x.e⟩
  else ⟨x.m * (2 ^ (x.e - y.e).toNat : Nat) + y.m, y.e⟩

/-- Product. -/
def Dy.mul (x y : Dy) : Dy := ⟨x.m * y.m, x.e + y.e⟩

/-- A signed mantissa. -/
def signed (neg : Bool) (m : Nat) : Int := if neg then -(m : Int) else m

/-- A finite value as a dyadic; zero for the others. -/
def FVal.dy : FVal → Dy
  | .fin n m e => ⟨signed n m, e⟩
  | _ => ⟨0, 0⟩

/-- Whether x lies below y. -/
def Dy.lt (x y : Dy) : Bool := decide ((x.add ⟨-y.m, y.e⟩).m < 0)

/-! ### Rounding (R122 to R124) -/

/-- Bits of a positive number. -/
def blen (m : Nat) : Nat := if m = 0 then 0 else Nat.log2 m + 1

/-- A magnitude divided by 2^k and rounded under a mode; the flag says the quotient is not exact. `stk` says that the true
magnitude lies a fraction of a unit above `m`. -/
def roundShift (mode : BitVec 2) (neg : Bool) (m k : Nat) (stk : Bool) : Nat × Bool :=
  let k := min k (blen m + 2)
  let q := m / 2 ^ k
  let r := m % 2 ^ k
  let ix := r != 0 || stk
  let up :=
    if mode = 0 then decide (2 ^ k < 2 * r) || (2 * r == 2 ^ k && (stk || q % 2 == 1))
    else if mode = 1 then false
    else if mode = 2 then ix && !neg
    else ix && neg
  (if up then q + 1 else q, ix)

/-- A magnitude m × 2^e in units of 2^q. -/
def roundAt (mode : BitVec 2) (neg : Bool) (m : Nat) (e q : Int) (stk : Bool) : Nat × Bool :=
  if q ≤ e then (m * 2 ^ (e - q).toNat, stk) else roundShift mode neg m (q - e).toNat stk

/-- A non-zero magnitude rounded into a format with the exponent range open above: the magnitude pattern, inexact, tiny
after rounding (R124). -/
def roundCore (F : Fmt) (mode : BitVec 2) (neg : Bool) (m : Nat) (e : Int) (stk : Bool) : Nat × Bool × Bool :=
  let q0 : Int := e + blen m - (F.fbits + 1)
  let tiny := decide (q0 < F.qmin) && decide ((roundAt mode neg m e q0 stk).1 < 2 ^ (F.fbits + (F.qmin - q0).toNat))
  let q := max q0 F.qmin
  let (t, ix) := roundAt mode neg m e q stk
  ((q - F.qmin).toNat * 2 ^ F.fbits + t, ix, tiny)

/-- A pattern with its sign. -/
def withSign (F : Fmt) (neg : Bool) (mag : Nat) : Nat := (if neg then F.top else 0) + mag

/-- What overflow delivers (R122). -/
def overflowPat (F : Fmt) (mode : BitVec 2) (neg : Bool) : Nat :=
  if mode = 0 ∨ (mode = 2 ∧ !neg) ∨ (mode = 3 ∧ neg) then withSign F neg (F.maxPat + 1) else withSign F neg F.maxPat

/-- Round (R138) of an exact finite value given by sign, magnitude and exponent; a zero keeps the sign given. -/
def roundF (F : Fmt) (mode : BitVec 2) (fzo : Bool) (neg : Bool) (m : Nat) (e : Int) (stk : Bool := false) : Nat × Sticky :=
  if m = 0 then (withSign F neg 0, 0)
  else
    let (mag, ix, tiny) := roundCore F mode neg m e stk
    if F.maxPat < mag then (overflowPat F mode neg, fOF ||| fNX)
    else if fzo && subnormal F mag then (withSign F neg 0, fUF ||| fNX)
    else (withSign F neg mag, flagIf (tiny && ix) fUF ||| flagIf ix fNX)

/-- Round of a dyadic; `zneg` is the sign of an exact zero. -/
def roundDy (F : Fmt) (mode : BitVec 2) (fzo : Bool) (zneg : Bool) (x : Dy) : Nat × Sticky :=
  if x.m = 0 then (withSign F zneg 0, 0) else roundF F mode fzo (decide (x.m < 0)) x.m.natAbs x.e

/-- The pattern of an infinity. -/
def infPat (F : Fmt) (neg : Bool) : Nat := withSign F neg (F.maxPat + 1)

/-- The integer a mode chooses from m × 2^e, and whether it differs. -/
def roundInt (mode : BitVec 2) (neg : Bool) (m : Nat) (e : Int) : Int × Bool :=
  let (t, ix) := roundAt mode neg m e 0 false
  (signed neg t, ix)

/-! ### Narrow encoding (R126) -/

/-- EncodeNarrow for the floating-point narrow formats. A quiet NaN to e4m3 sets NV as R126's table says, in `cvt` too (DESIGN
CHOICE, log 76: R194 says that a NaN source sets NV only if it is signalling). -/
def encodeNarrow (F : Fmt) (sat : Bool) (v : FVal) : Nat × Sticky :=
  let beyond (neg : Bool) (finite : Bool) : Nat × Sticky :=
    if sat || F.w < 8 then (withSign F neg F.maxPat, fOF ||| fNX)
    else if F.inf then (withSign F neg (F.maxPat + 1), if finite then fOF ||| fNX else 0)
    else (F.canon, fNV ||| fOF ||| fNX)
  match v with
  | .nan sig => (F.canon, if F.inf then flagIf sig fNV else fNV)
  | .inf n => beyond n false
  | .fin n m e =>
    if m = 0 then (withSign F n 0, 0)
    else
      let (mag, ix, tiny) := roundCore F 0 n m e false
      if F.maxPat < mag then beyond n true
      else (withSign F n mag, flagIf (tiny && ix) fUF ||| flagIf ix fNX)

/-! ### Square roots -/

/-- The integer square root, one bit at a time from bit k - 1 down. -/
def isqrtFrom (n : Nat) : Nat → Nat → Nat
  | 0, r => r
  | k + 1, r => isqrtFrom n k (if (r + 2 ^ k) * (r + 2 ^ k) ≤ n then r + 2 ^ k else r)

/-- The integer square root. -/
def isqrt (n : Nat) : Nat := isqrtFrom n (blen n / 2 + 1) 0

/-- √(m × 2^e) as mantissa, exponent and sticky. -/
def sqrtParts (m : Nat) (e : Int) : Nat × Int × Bool :=
  let k : Nat := if e % 2 = 0 then 128 else 129
  let n := m * 2 ^ k
  let r := isqrt n
  (r, (e - k) / 2, r * r != n)

/-- 1 / (m × 2^e). -/
def recipParts (m : Nat) (e : Int) : Nat × Int × Bool :=
  let k := blen m + 64
  (2 ^ k / m, -(k : Int) - e, 2 ^ k % m != 0)

/-- 1 / √(m × 2^e). -/
def rsqrtParts (m : Nat) (e : Int) : Nat × Int × Bool :=
  let m' := if e % 2 = 0 then m else 2 * m
  let e' := if e % 2 = 0 then e else e - 1
  let k := blen m' + 64
  let r := isqrt (2 ^ (2 * k) / m')
  (r, -(k : Int) - e' / 2, r * r * m' != 2 ^ (2 * k))

/-! ### Enclosures of the special functions (R191, R192; log 10) -/

/-- A positive value known to lie within `err` of `m`, in units of 2^e. -/
structure Approx where
  m   : Nat
  e   : Int
  err : Nat
deriving DecidableEq, Repr

/-- ln 2 in units of 2^-128. -/
def cLn2 : Nat := 235865763225513294137944142764154484399
/-- π in units of 2^-128. -/
def cPi : Nat := 1069028584064966747859680373161870783300
/-- π² in units of 2^-128. -/
def cPi2 : Nat := 3358452346175998240370086276790434770032
/-- 2 / ln 2 in units of 2^-192. -/
def c2Ln2 : Nat := 18111887089595741134167089618624923214743037179088274286946

/-- Terms z^k / k! from the k-th on, summed. -/
def expSeries (z : Nat) : Nat → Nat → Nat → Nat
  | 0, _, _ => 0
  | n + 1, k, t => t + expSeries z n (k + 1) (t * z / 2 ^ 128 / (k + 1))

/-- 2^x for a value that is no integer, or an integer outside the exponents of every format. -/
def approxExp2 (x : Dy) : Approx :=
  let big := decide ((4096 : Int) ≤ (roundAt 1 false x.m.natAbs x.e 0 false).1)
  if big then ⟨1, if x.m < 0 then -4096 else 4096, 0⟩
  else
    let fx : Int := if -128 ≤ x.e then x.m * (2 ^ (x.e + 128).toNat : Nat) else x.m / (2 ^ (-128 - x.e).toNat : Nat)
    let n := fx / (2 ^ 128 : Nat)
    let f := (fx % (2 ^ 128 : Nat)).toNat
    if f = 0 && decide (-128 ≤ x.e) then ⟨1, n, 0⟩
    else ⟨expSeries (f * cLn2 / 2 ^ 128) 40 0 (2 ^ 128), n - 128, 2 ^ 20⟩

/-- Terms s^(2k+1) / (2k+1) from the k-th on, summed. -/
def atanhSeries (s2 : Nat) : Nat → Nat → Nat → Nat
  | 0, _, _ => 0
  | n + 1, k, p => p / (2 * k + 1) + atanhSeries s2 n (k + 1) (p * s2 / 2 ^ 192)

/-- log2 of m × 2^e, m no power of two: sign and magnitude. -/
def approxLog2 (m : Nat) (e : Int) : Bool × Approx :=
  let l := blen m - 1
  -- y = a / b in [0.75, 1.5), times 2^k
  let hi := decide (3 * 2 ^ l ≤ 2 * m)
  let k : Int := e + l + (if hi then 1 else 0)
  let b := 2 ^ (if hi then l + 1 else l)
  let negl := decide (m < b)
  let s := (if negl then b - m else m - b) * 2 ^ 192 / (m + b)
  let v := atanhSeries (s * s / 2 ^ 192) 45 0 s * c2Ln2 / 2 ^ 192
  let total : Int := k * (2 ^ 192 : Nat) + signed negl v
  (decide (total < 0), ⟨total.natAbs, -192, 2 ^ 20⟩)

/-- Alternating series: the term after t, from step k, is t × z / (c k). -/
def altSeries (z : Nat) (c : Nat → Nat) : Nat → Nat → Nat → Int
  | 0, _, _ => 0
  | n + 1, k, t => (t : Int) - altSeries z c n (k + 1) (t * z / 2 ^ 128 / c k)

/-- sin(π t) for t = n / 2^k in (0, 1/4]. -/
def approxSin (n k : Nat) : Approx :=
  let z := n * n * cPi2 / 2 ^ (2 * k)
  let p := (altSeries z (fun i => (2 * i + 2) * (2 * i + 3)) 30 0 cPi).toNat
  ⟨n * p, -128 - k, n * 2 ^ 20⟩

/-- cos(π t) for t = n / 2^k in [0, 1/4]. -/
def approxCos (n k : Nat) : Approx :=
  let z := n * n * cPi2 / 2 ^ (2 * k)
  ⟨(altSeries z (fun i => (2 * i + 1) * (2 * i + 2)) 30 0 (2 ^ 128)).toNat, -128, 2 ^ 20⟩

/-- sin(π t) for t = n / 2^k in (0, 1/2). -/
def approxSinHalf (n k : Nat) : Approx :=
  if 4 * n ≤ 2 ^ k then approxSin n k else approxCos (2 ^ k - 2 * n) (k + 1)

/-- A value reduced modulo 2 (R192), in units of 2^-k with k ≥ 1; the pair is numerator and k. -/
def reduce2 (m : Nat) (e : Int) : Nat × Nat :=
  if -1 ≤ e then (m * 2 ^ (e + 1).toNat % 4, 1)
  else (m % 2 ^ ((-e).toNat + 1), (-e).toNat)

/-- sin(π x) for x = n / 2^k in [0, 2): an exact value (sign, magnitude) at a multiple of 1/2, else sign and enclosure. -/
def sinTurn (n k : Nat) : Bool × (Nat ⊕ Approx) :=
  let h := 2 ^ (k - 1)
  let q := n / h % 4
  let r := n % h
  if r = 0 then (q == 3, .inl (q % 2))
  else (decide (2 ≤ q), .inr (if q % 2 = 0 then approxSinHalf r k else approxSinHalf (h - r) k))

/-- R192: |c - x| is at most the bound for every x the enclosure allows: `ulps` of the exact result, or 2^-abs. -/
def withinBound (F : Fmt) (neg : Bool) (a : Approx) (ulps : Nat) (abs : Option Nat) (c : FVal) : Bool :=
  match c with
  | .fin _ _ _ =>
    let lo := a.m - a.err
    let uq := max (a.e + blen lo - (F.fbits + 1)) F.qmin
    let d := c.dy.add ⟨signed (!neg) a.m, a.e⟩
    let worst : Dy := (⟨d.m.natAbs, d.e⟩ : Dy).add ⟨a.err, a.e⟩
    let le (y : Dy) := !(y.lt worst)
    le ⟨ulps, uq⟩ || (match abs with | some k => le ⟨1, -(k : Int)⟩ | none => false)
  | _ => false

/-- A special function's inexact result: the device's own pattern where it keeps the bound, else the nearest (log 10). UF where either
the delivered pattern or the nearest value is tiny (DESIGN CHOICE, log 10). -/
def specialPat (F : Fmt) (fzo : Bool) (neg : Bool) (a : Approx) (ulps : Nat) (abs : Option Nat) (cand : Nat) : Nat × Sticky :=
  let (mag, _, tiny) := roundCore F 0 neg a.m a.e (a.err != 0)
  if F.maxPat < mag then (infPat F neg, fOF ||| fNX)
  else
    let c := cand % 2 ^ F.w
    let r := if withinBound F neg a ulps abs (decodeF F c) then c else withSign F neg mag
    if fzo && subnormal F r then (r / F.top % 2 * F.top, fUF ||| fNX)
    else (r, flagIf (tiny || subnormal F r) fUF ||| fNX)

end Sys2Proof.Machine
end

