-- ==== Sys2Proof/Machine/Float.lean ====
section
/-!
DEFINITION. Floating point, special functions and conversion, opcodes 0x20 to 0x36 (R181 to R198).
-/

namespace Sys2Proof.Machine

/-! ### Operands -/

/-- R123, R181: the operand format of an element size and H. -/
def esFmt (es : Es) (h : Bool) : Fmt :=
  match es with
  | .e64 => f64
  | .e32 => f32
  | _ => if h then bf16 else f16

/-- R182: the element sizes of the arithmetic rows. -/
def esFloat : Es → Bool := fun e => e != .e8

/-- R151: an f32 pattern widened exactly to f64, a NaN with its payload. -/
def widen32 (b : Nat) : Nat :=
  match decodeF f32 b with
  | .fin n m e => (roundF f64 0 false n m e).1
  | .inf n => infPat f64 n
  | .nan _ => b / 2 ^ 31 % 2 * 2 ^ 63 + 0x7FF * 2 ^ 52 + b % 2 ^ 23 * 2 ^ 29

/-- R151: a float immediate in a lane. -/
def fimmLane (es : Es) (v : Word) : Lane :=
  if es = .e64 then u64 (widen32 v.toNat) else splat es.w v.toNat

/-- Source B of a Float pair opcode in a lane. -/
def State.fsrc (s : State) (b : FSrc) (l : Nat) : Lane :=
  match b with
  | .reg f p _ => s.cur.readB f p l
  | .imm v => fimmLane s.es v

/-- The registers it names. -/
def fsrcRegs : FSrc → List SrcReg
  | .reg f p _ => [(f, p)]
  | .imm _ => []

/-- R160: its control word; all zero beside an immediate. -/
def fsrcCtl : FSrc → FCtl
  | .reg _ _ c => c
  | .imm _ => ⟨0, false, false, false, false⟩

/-- R181: a result is uniform when every register source is. -/
def State.ftag (s : State) (srcs : List SrcReg) : Tag := tagAll (srcs.map fun x => permTag x.2 (s.tagOf x.1))

/-! ### Exact values of two and three operands (R184, R185, R187) -/

/-- NV for a signalling NaN among the operands. -/
def sigNV (vs : List FVal) : Sticky := flagIf (vs.any FVal.isSig) fNV

/-- x + y. -/
def fAddV (F : Fmt) (c : FCtl) (x y : FVal) : Nat × Sticky :=
  if x.isNan || y.isNan then (F.canon, sigNV [x, y])
  else if x.isInf && y.isInf && x.neg != y.neg then (F.canon, fNV)
  else if x.isInf then (infPat F x.neg, 0)
  else if y.isInf then (infPat F y.neg, 0)
  else roundDy F c.rm c.fzo (if x.neg = y.neg then x.neg else c.rm == 3) (x.dy.add y.dy)

/-- 0 × ∞. -/
def zeroInf (x y : FVal) : Bool := (x.isZero && y.isInf) || (x.isInf && y.isZero)

/-- x × y. -/
def fMulV (F : Fmt) (c : FCtl) (x y : FVal) : Nat × Sticky :=
  let n := x.neg != y.neg
  if x.isNan || y.isNan then (F.canon, sigNV [x, y])
  else if zeroInf x y then (F.canon, fNV)
  else if x.isInf || y.isInf then (infPat F n, 0)
  else roundDy F c.rm c.fzo n (x.dy.mul y.dy)

/-- x × y + z with one rounding. -/
def fFmaV (F : Fmt) (c : FCtl) (x y z : FVal) : Nat × Sticky :=
  let n := x.neg != y.neg
  if x.isNan || y.isNan || z.isNan || zeroInf x y then (F.canon, sigNV [x, y, z] ||| flagIf (zeroInf x y) fNV)
  else if x.isInf || y.isInf then (if z.isInf && z.neg != n then (F.canon, fNV) else (infPat F n, 0))
  else if z.isInf then (infPat F z.neg, 0)
  else roundDy F c.rm c.fzo (if n = z.neg then n else c.rm == 3) ((x.dy.mul y.dy).add z.dy)

/-- x × 2^k; an exponent beyond every format's range acts as one just beyond it. -/
def fScaleV (F : Fmt) (c : FCtl) (x : FVal) (k : Int) : Nat × Sticky :=
  match x with
  | .nan sig => (F.canon, flagIf sig fNV)
  | .inf n => (infPat F n, 0)
  | .fin n m e => roundF F c.rm c.fzo n m (e + max (-8192) (min k 8192))

/-- A pattern's place in the order of R185, −0 below +0. -/
def orderKey (F : Fmt) (b : Nat) : Int := if b / F.top % 2 = 1 then -(b % F.top : Nat) - 1 else (b % F.top : Nat)

/-- minimumNumber and maximumNumber of two patterns already flushed. -/
def fPickV (F : Fmt) (wantMax : Bool) (a b : Nat) : Nat × Sticky :=
  let x := decodeF F a
  let y := decodeF F b
  let fl := sigNV [x, y]
  if x.isNan && y.isNan then (F.canon, fl)
  else if x.isNan then (b, fl)
  else if y.isNan then (a, fl)
  else if wantMax then (if orderKey F a < orderKey F b then b else a, fl)
  else (if orderKey F b < orderKey F a then b else a, fl)

/-- Terms of an exact sum with special values: NaN, infinities of both signs, infinity, or the dyadic. -/
inductive SumV
  | nan (flags : Sticky)
  | inf (neg : Bool)
  | fin (d : Dy) (zneg : Option Bool)
deriving DecidableEq, Repr

/-- An exact sum of values (R187, R205); `zneg` is the common sign when all terms are zeros of one sign. -/
def sumV (vs : List FVal) : SumV :=
  if vs.any FVal.isNan then .nan (sigNV vs)
  else
    let pos := vs.any fun v => v.isInf && !v.neg
    let neg := vs.any fun v => v.isInf && v.neg
    if pos && neg then .nan fNV
    else if pos then .inf false
    else if neg then .inf true
    else
      .fin (vs.foldl (fun d v => d.add v.dy) ⟨0, 0⟩)
        (if vs.all fun v => v.neg then some true else if vs.all fun v => !v.neg then some false else none)

/-- The sum delivered in a format. -/
def SumV.deliver (F : Fmt) (c : FCtl) : SumV → Nat × Sticky
  | .nan f => (F.canon, f)
  | .inf n => (infPat F n, 0)
  | .fin d z => roundDy F c.rm c.fzo (z.getD (c.rm == 3)) d

/-- A product as a value, NaN with its flag for 0 × ∞. -/
def prodV (x y : FVal) : FVal × Bool :=
  if x.isNan || y.isNan then (.nan (x.isSig || y.isSig), false)
  else if zeroInf x y then (.nan false, true)
  else if x.isInf || y.isInf then (.inf (x.neg != y.neg), false)
  else match x, y with
    | .fin n m e, .fin n' m' e' => (.fin (n != n') (m * m') (e + e'), false)
    | _, _ => (.nan false, false)

/-- R187: infinite terms of both signs. -/
def bothInf (vs : List FVal) : Bool := (vs.any fun v => v.isInf && !v.neg) && vs.any fun v => v.isInf && v.neg

/-- fdot2 (R187). -/
def fDotV (F : Fmt) (c : FCtl) (z x0 y0 x1 y1 : FVal) : Nat × Sticky :=
  let p := prodV x0 y0
  let q := prodV x1 y1
  let r := (sumV [z, p.1, q.1]).deliver F c
  (r.1, r.2 ||| flagIf (p.2 || q.2 || bothInf [z, p.1, q.1]) fNV)

/-! ### Lane-wise float instructions -/

/-- Two sources, one result pattern for each pair of sub-elements. -/
def State.fop2 (s : State) (g : Guard) (d a : Reg) (b : FSrc) (f : Fmt → FCtl → Nat → Nat → Nat × Sticky) :
    Host.Outcome State Fault Refusal :=
  let k := s.cur
  let w := s.es.w
  let F := esFmt s.es (fsrcCtl b).h
  s.eltOp g esFloat (plain a :: (fsrcRegs b)) d none (s.ftag (plain a :: (fsrcRegs b)))
    fun l => (subs w (k.read a l)).zipWith (fun x y => f F (fsrcCtl b) x y) (subs w (s.fsrc b l))

/-- A function of two decoded values. -/
def onVals (f : Fmt → FCtl → FVal → FVal → Nat × Sticky) (F : Fmt) (c : FCtl) (x y : Nat) : Nat × Sticky :=
  f F c (decodeFz F c.fzi x) (decodeFz F c.fzi y)

/-- fadd (R184). -/
def execFadd (g : Guard) (d a : Reg) (b : FSrc) (s : State) := s.fop2 g d a b (onVals fAddV)
/-- fsub (R184). -/
def execFsub (g : Guard) (d a : Reg) (b : FSrc) (s : State) := s.fop2 g d a b (onVals fun F c x y => fAddV F c x y.negate)
/-- fmul (R184). -/
def execFmul (g : Guard) (d a : Reg) (b : FSrc) (s : State) := s.fop2 g d a b (onVals fMulV)
/-- fmin (R185). -/
def execFmin (g : Guard) (d a : Reg) (b : FSrc) (s : State) :=
  s.fop2 g d a b fun F c x y => fPickV F false (flushIn F c.fzi x) (flushIn F c.fzi y)
/-- fmax (R185). -/
def execFmax (g : Guard) (d a : Reg) (b : FSrc) (s : State) :=
  s.fop2 g d a b fun F c x y => fPickV F true (flushIn F c.fzi x) (flushIn F c.fzi y)

/-- fscale (R184). -/
def execFscale (g : Guard) (d a b : Reg) (p : Perm) (c : FCtl) (s : State) :=
  s.fop2 g d a (.reg b p c) fun F c x y => fScaleV F c (decodeFz F c.fzi x) (sgn F.w y)

/-- ffma (R184). -/
def execFfma (g : Guard) (d a b : Reg) (p : Perm) (cr : Reg) (c : FCtl) (s : State) : Host.Outcome State Fault Refusal :=
  let k := s.cur
  let w := s.es.w
  let F := esFmt s.es c.h
  let v := decodeFz F c.fzi
  s.eltOp g esFloat [plain a, (b, p), plain cr] d none (s.ftag [plain a, (b, p), plain cr])
    fun l => ((subs w (k.read a l)).zip (subs w (k.readB b p l))).zipWith
      (fun xy z => fFmaV F c (v xy.1) (v xy.2) (v z)) (subs w (k.read cr l))

/-- fdot2 (R187). -/
def execFdot2 (g : Guard) (d a b : Reg) (p : Perm) (cr : Reg) (c : FCtl) (s : State) : Host.Outcome State Fault Refusal :=
  let k := s.cur
  let w := s.es.w
  let F := esFmt s.es false
  let G := if s.es = .e64 then f32 else bf16
  let v := decodeFz G c.fzi
  s.eltOp g (fun e => e == .e32 || e == .e64) [plain a, (b, p), plain cr] d none (s.ftag [plain a, (b, p), plain cr])
    fun l =>
      let ps := pairs ((subs (w / 2) (k.read a l)).zip (subs (w / 2) (k.readB b p l)))
      ps.zipWith (fun q z => fDotV F c (decodeFz F c.fzi z) (v q.1.1) (v q.1.2) (v q.2.1) (v q.2.2)) (subs w (k.read cr l))

/-- One source, one result pattern for each sub-element. -/
def State.fop1 (s : State) (g : Guard) (d a : Reg) (f : Nat → Nat × Sticky) : Host.Outcome State Fault Refusal :=
  s.eltOp g esFloat [plain a] d none (s.ftag [plain a]) fun l => (subs s.es.w (s.cur.read a l)).map f

/-- fneg (R186). -/
def execFneg (g : Guard) (d a : Reg) (s : State) := s.fop1 g d a fun x => (x ^^^ 2 ^ (s.es.w - 1), 0)
/-- fabs (R186). -/
def execFabs (g : Guard) (d a : Reg) (s : State) := s.fop1 g d a fun x => (x % 2 ^ (s.es.w - 1), 0)

/-- R188: an integral value of the format. -/
def fRndV (F : Fmt) (c : FCtl) (b : Nat) : Nat × Sticky :=
  match decodeF F b with
  | .nan sig => (F.canon, flagIf sig fNV)
  | .inf n => (infPat F n, 0)
  | .fin n m e =>
    let (r, ix) := roundInt c.rm n m e
    ((roundF F 0 false n r.natAbs 0).1, flagIf ix fNX)

/-- frnd (R188). -/
def execFrnd (g : Guard) (d a : Reg) (c : FCtl) (s : State) :=
  let F := esFmt s.es c.h
  s.fop1 g d a fun x => fRndV F c (flushIn F c.fzi x)

/-- R189: the class mask. -/
def fClassV (F : Fmt) (b : Nat) : Nat :=
  match decodeF F b with
  | .nan sig => if sig then 2 ^ 8 else 2 ^ 9
  | .inf n => if n then 2 ^ 0 else 2 ^ 7
  | .fin n m _ =>
    if m = 0 then (if n then 2 ^ 3 else 2 ^ 4)
    else if subnormal F b then (if n then 2 ^ 2 else 2 ^ 5)
    else if n then 2 ^ 1 else 2 ^ 6

/-- fclass (R189). -/
def execFclass (g : Guard) (d a : Reg) (c : FCtl) (s : State) :=
  let F := esFmt s.es c.h
  s.fop1 g d a fun x => (fClassV F (flushIn F c.fzi x), 0)

/-! ### Comparison (R190) -/

/-- Whether x lies below y; false beside a NaN. -/
def fLt (x y : FVal) : Bool :=
  match x, y with
  | .nan _, _ => false
  | _, .nan _ => false
  | .inf n, .inf n' => n && !n'
  | .inf n, _ => n
  | _, .inf n => !n
  | x, y => x.dy.lt y.dy

/-- R190: a condition on two values, with NV. -/
def fCond (c : FCond) (x y : FVal) : Bool × Sticky :=
  let un := x.isNan || y.isNan
  let quiet := sigNV [x, y]
  let loud := flagIf un fNV
  let eq := !un && !fLt x y && !fLt y x
  match c with
  | .eq => (eq, quiet)
  | .ne => (!eq, quiet)
  | .lt => (fLt x y, loud)
  | .le => (eq || fLt x y, loud)
  | .gt => (fLt y x, loud)
  | .ge => (eq || fLt y x, loud)
  | .unord => (un, quiet)
  | .ord => (!un, quiet)

/-- fcmp (R190). -/
def execFcmp (g : Guard) (cond : FCond) (d a b : Reg) (p : Perm) (c : FCtl) (s : State) : Host.Outcome State Fault Refusal :=
  let k := s.cur
  let w := s.es.w
  let F := esFmt s.es c.h
  let t := fun l => (subs w (k.read a l)).zipWith
    (fun x y => fCond cond (decodeFz F c.fzi x) (decodeFz F c.fzi y)) (subs w (k.readB b p l))
  s.laneOp esFloat [plain a, (b, p)] none
    { pass := s.passing g, dst := some d, tag := s.ftag [plain a, (b, p)]
      val := fun l => packLane w ((t l).map fun r => maskElt w r.1)
      flags := fun l => orFlags ((t l).map (·.2))
      push := fun l => some (((t l).map (·.1)).getD 0 false) }

/-! ### Special functions (R191, R192): long operations -/

/-- The physical registers a field resolves to in the lanes that take an instruction (R308). -/
def State.takeNames (s : State) (g : Guard) (f : Reg) : List Nat :=
  (allLanes.filterMap fun l => if s.passing g l then some (s.cur.resolve l f) else none).dedup

/-- Whether some lane takes the instruction: with none it begins no operation (log 19). -/
def State.anyPass (s : State) (g : Guard) : Bool := allLanes.any (s.passing g)

/-- R167: the group past an instruction that no lane takes: its destination is general. -/
def State.passBy (s : State) (d : Reg) : State := (s.updCur fun k => k.dull s.executing (some d)).advance

/-- A long operation begun when some lane takes it, and the group moved past; with none it has no effect (R253, R257). -/
def State.beginIf (s : State) (g : Guard) (o : LongOp) : State :=
  if s.anyPass g then
    let (id, s1) := s.fresh
    (s1.updCur fun k => k.begin s.now { o with id := id }).advance
  else s.advance

/-- A long operation begun when some lane takes it; a destination that no lane writes is general (R167). One that other lanes write
becomes general when they land: a register that only lanes with a failing guard name keeps its
tag (DESIGN CHOICE, log 19). -/
def State.beginOp (s : State) (g : Guard) (d : Reg) (o : LongOp) : State := if s.anyPass g then s.beginIf g o else s.passBy d

/-- A long operation of one source and one destination, its result computed from the values read at issue. -/
def State.longOp1 (s : State) (g : Guard) (es : Es → Bool) (d a : Reg) (f : Nat → Nat × Sticky) :
    Host.Outcome State Fault Refusal :=
  let k := s.cur
  let w := s.es.w
  let lanes := allLanes.filter (s.passing g)
  let res := fun l => (subs w (k.read a l)).map f
  let (sa, sb) := s.track true true
  let o : LongOp :=
    { id := 0, lanes := laneMask (s.passing g), pend := s.takeNames g d, held := s.takeNames g a, setA := sa, setB := sb
      writes := lanes.map fun l => ⟨k.resolve l d, l, packLane w ((res l).map (·.1)), false⟩
      flags := lanes.map fun l => (l, orFlags ((res l).map (·.2)))
      uni := s.ftag [plain a] == .uniform }
  s.finish (firstStop [s.ckEs es, s.ckOperands [plain a] [d], s.ckFlag (s.anyPass g) (s.anyPass g)]) (s.beginOp g d o)

/-- The three correctly rounded functions: special cases of R191 and the exact value. -/
def fRootV (F : Fmt) (c : FCtl) (x : FVal) (zero : Bool → Nat × Sticky) (inf : Bool → Nat × Sticky) (signedOk : Bool)
    (parts : Nat → Int → Nat × Int × Bool) : Nat × Sticky :=
  match x with
  | .nan sig => (F.canon, flagIf sig fNV)
  | .inf n => if n && !signedOk then (F.canon, fNV) else inf n
  | .fin n m e =>
    if m = 0 then zero n
    else if n && !signedOk then (F.canon, fNV)
    else
      let (m', e', stk) := parts m e
      roundF F c.rm c.fzo n m' e' stk

/-- frcp. -/
def fRcpV (F : Fmt) (c : FCtl) (x : FVal) : Nat × Sticky :=
  fRootV F c x (fun n => (infPat F n, fDZ)) (fun n => (withSign F n 0, 0)) true recipParts
/-- frsqrt. -/
def fRsqrtV (F : Fmt) (c : FCtl) (x : FVal) : Nat × Sticky :=
  fRootV F c x (fun n => (infPat F n, fDZ)) (fun _ => (0, 0)) false rsqrtParts
/-- fsqrt. -/
def fSqrtV (F : Fmt) (c : FCtl) (x : FVal) : Nat × Sticky :=
  fRootV F c x (fun n => (withSign F n 0, 0)) (fun _ => (infPat F false, 0)) false sqrtParts

/-- A one-source float long operation on decoded values. -/
def State.flong (s : State) (g : Guard) (es : Es → Bool) (d a : Reg) (c : FCtl) (f : Fmt → Nat → Nat × Sticky) :
    Host.Outcome State Fault Refusal :=
  let F := esFmt s.es c.h
  s.longOp1 g es d a fun x => f F (flushIn F c.fzi x)

/-- frcp (R191, R192). -/
def execFrcp (g : Guard) (d a : Reg) (c : FCtl) (s : State) := s.flong g esFloat d a c fun F x => fRcpV F c (decodeF F x)
/-- frsqrt (R191, R192). -/
def execFrsqrt (g : Guard) (d a : Reg) (c : FCtl) (s : State) := s.flong g esFloat d a c fun F x => fRsqrtV F c (decodeF F x)
/-- fsqrt (R191, R192). -/
def execFsqrt (g : Guard) (d a : Reg) (c : FCtl) (s : State) := s.flong g esFloat d a c fun F x => fSqrtV F c (decodeF F x)

/-- R182: the element sizes of the four bounded functions. -/
def esSpecial : Es → Bool := fun e => e == .e16 || e == .e32

/-- The number of a format in `Config.special`. -/
def Fmt.code (F : Fmt) : Nat := F.w * 64 + F.fbits

/-- The device's own pattern for an inexact result (log 10). -/
def specialCand (fn : Nat) (F : Fmt) (c : FCtl) (x : Nat) : Nat :=
  (Config.special fn F.code (FCtl.bits c) (u64 x)).toNat

/-- R192: the ulp bound. -/
def ulpBound (F : Fmt) : Nat := if F.w = 32 then 2 else 1

/-- fexp2. -/
def fExp2V (F : Fmt) (c : FCtl) (x : Nat) : Nat × Sticky :=
  match decodeF F x with
  | .nan sig => (F.canon, flagIf sig fNV)
  | .inf n => if n then (0, 0) else (infPat F false, 0)
  | .fin n m e =>
    if m = 0 then roundF F 0 false false 1 0
    else
      let a := approxExp2 ⟨signed n m, e⟩
      if a.err = 0 && decide (F.qmin ≤ a.e) then roundF F 0 c.fzo false a.m a.e
      else specialPat F c.fzo false a (ulpBound F) none (specialCand 0 F c x)

/-- flog2. -/
def fLog2V (F : Fmt) (c : FCtl) (x : Nat) : Nat × Sticky :=
  match decodeF F x with
  | .nan sig => (F.canon, flagIf sig fNV)
  | .inf n => if n then (F.canon, fNV) else (infPat F false, 0)
  | .fin n m e =>
    if m = 0 then (infPat F true, fDZ)
    else if n then (F.canon, fNV)
    else if m = 2 ^ (blen m - 1) then
      roundDy F 0 c.fzo false ⟨e + blen m - 1, 0⟩
    else
      let r := approxLog2 m e
      specialPat F c.fzo r.1 r.2 (ulpBound F) (if F.w = 32 then some 23 else none) (specialCand 1 F c x)

/-- fsin and fcos of a reduced argument n / 2^k, with the sign of the result before the quadrant's and of an exact zero. -/
def fTurnV (fn : Nat) (F : Fmt) (c : FCtl) (x n k : Nat) (neg zneg : Bool) : Nat × Sticky :=
  match sinTurn n k with
  | (_, .inl 0) => (withSign F zneg 0, 0)
  | (q, .inl m) => roundF F 0 c.fzo (q != neg) m 0
  | (q, .inr a) => specialPat F c.fzo (q != neg) a (ulpBound F * (if F.w = 32 then 0 else 1))
      (some (if F.w = 32 then 22 else 11)) (specialCand fn F c x)

/-- fsin. -/
def fSinV (F : Fmt) (c : FCtl) (x : Nat) : Nat × Sticky :=
  match decodeF F x with
  | .nan sig => (F.canon, flagIf sig fNV)
  | .inf _ => (F.canon, fNV)
  | .fin n m e =>
    let r := reduce2 m e
    fTurnV 2 F c x r.1 r.2 n n

/-- fcos: cos(π x) = sin(π (|x| + 1/2)). -/
def fCosV (F : Fmt) (c : FCtl) (x : Nat) : Nat × Sticky :=
  match decodeF F x with
  | .nan sig => (F.canon, flagIf sig fNV)
  | .inf _ => (F.canon, fNV)
  | .fin _ m e =>
    let r := reduce2 m e
    fTurnV 3 F c x ((r.1 + 2 ^ (r.2 - 1)) % 2 ^ (r.2 + 1)) r.2 false false

/-- fexp2 (R191, R192). -/
def execFexp2 (g : Guard) (d a : Reg) (c : FCtl) (s : State) := s.flong g esSpecial d a c fun F x => fExp2V F c x
/-- flog2 (R191, R192). -/
def execFlog2 (g : Guard) (d a : Reg) (c : FCtl) (s : State) := s.flong g esSpecial d a c fun F x => fLog2V F c x
/-- fsin (R191, R192). -/
def execFsin (g : Guard) (d a : Reg) (c : FCtl) (s : State) := s.flong g esSpecial d a c fun F x => fSinV F c x
/-- fcos (R191, R192). -/
def execFcos (g : Guard) (d a : Reg) (c : FCtl) (s : State) := s.flong g esSpecial d a c fun F x => fCosV F c x

/-! ### Conversion (R193 to R198) -/

/-- Bits of an element in its slot: 6 and 4 for the small formats. -/
def tyBits : Ty → Nat
  | .e3m2 | .e2m3 => 6
  | .e2m1 => 4
  | t => t.cvtW

/-- A signed integer type. -/
def tySigned : Ty → Bool
  | .i8 | .i16 | .i32 | .i64 => true
  | _ => false

/-- An integer type's value. -/
def tyIntVal (t : Ty) (x : Nat) : Int := if (tySigned t) then sgn t.cvtW x else (x % 2 ^ t.cvtW : Nat)

/-- R195: the least and greatest value of an integer type. -/
def tyRange (t : Ty) : Int × Int :=
  if (tySigned t) then (-(2 ^ (t.cvtW - 1) : Nat), (2 ^ (t.cvtW - 1) : Nat) - 1) else (0, (2 ^ t.cvtW : Nat) - 1)

/-- R195: a conversion to an integer type. -/
def toIntV (t : Ty) (c : FCtl) (v : FVal) : Nat × Sticky :=
  let w := t.cvtW
  let (lo, hi) := (tyRange t)
  let indef : Nat := if (tySigned t) then 2 ^ (w - 1) else 2 ^ w - 1
  let out (neg : Bool) : Nat × Sticky := (if c.satc then wrap w (if neg then lo else hi) else indef, fNV)
  match v with
  | .nan _ => (if c.satc then 0 else indef, fNV)
  | .inf n => out n
  | .fin n m e =>
    if decide (80 < (e + blen m : Int)) && m != 0 then out n
    else
      let (r, ix) := roundInt c.rm n m e
      if lo ≤ r ∧ r ≤ hi then (wrap w r, flagIf ix fNX) else out (decide (r < lo))

/-- R196: f32 to e8m0. -/
def toScaleV (v : FVal) : Nat × Sticky :=
  match v with
  | .nan sig => (0xFF, flagIf sig fNV)
  | .inf _ => (0xFE, fOF ||| fNX)
  | .fin n m e =>
    if m = 0 then (0, fNV)
    else
      let k : Int := max 0 (min 254 (e + blen m - 1 + 127))
      (k.toNat, flagIf (n || m != 2 ^ (blen m - 1) || k != e + blen m - 1 + 127) fNX)

/-- R196: e8m0 to f32. -/
def ofScaleV (x : Nat) : Nat × Sticky :=
  if x % 256 = 255 then (f32.canon, 0) else roundF f32 0 false false 1 ((x % 256 : Nat) - 127)

/-- A value of one standard or narrow format as another, one rounding. -/
def toFmtV (F : Fmt) (c : FCtl) (v : FVal) : Nat × Sticky :=
  match v with
  | .nan sig => (F.canon, flagIf sig fNV)
  | .inf n => (infPat F n, 0)
  | .fin n m e => roundF F c.rm c.fzo n m e

/-- R194: one element converted, under a legal pair. -/
def convert (dst src : Ty) (c : FCtl) (x : Nat) : Nat × Sticky :=
  let v := decodeFz (tyFmt src) c.fzi x
  match src.kind, dst.kind with
  | .int, _ => let i := tyIntVal src x; roundDy (tyFmt dst) c.rm false false ⟨i, 0⟩
  | _, .int => toIntV dst c v
  | _, .narrow => encodeNarrow (tyFmt dst) c.satc v
  | _, .scale => toScaleV v
  | .scale, _ => ofScaleV x
  | _, .std => toFmtV (tyFmt dst) c v

/-- R193: the element size a pair asks for. -/
def convEs (dst src : Ty) (es : Es) : Bool := es.w == max dst.cvtW src.cvtW

/-- R194: cause 0x0A for a pair the table does not list, ahead of the element size. -/
def ckPair (spec : Option FSpec) : Option Stop := illIf spec.isNone .range

/-- R193: the bits above an i result copy its sign; every other result is zero-filled. -/
def widenInt (w : Nat) (dst : Ty) (x : Nat) : Nat := if (tySigned dst) then wrap w (sgn dst.cvtW x) else x

/-- cvt (R193 to R196). -/
def execCvt (g : Guard) (dst src : Ty) (d a : Reg) (c : FCtl) (s : State) : Host.Outcome State Fault Refusal :=
  let w := s.es.w
  let res := fun l => (subs w (s.cur.read a l)).map fun x =>
    let r := convert dst src c (x % 2 ^ (tyBits src))
    (widenInt w dst r.1, r.2)
  s.finish (firstStop [ckPair (cvtSpec dst src), s.ckEs (convEs dst src), s.ckOperands [plain a] [d]])
    (s.laneEff
      { pass := s.passing g, dst := some d, tag := s.ftag [plain a]
        val := fun l => packLane w ((res l).map (·.1))
        flags := fun l => orFlags ((res l).map (·.2)) })

/-- R197: the slot width of a packed type. -/
def tySlotW (t : Ty) : Nat := if t = .e2m1 then 4 else t.cvtW

/-- A list with the elements from `at'` on replaced by another list. -/
def setSlots {α : Type} (l : List α) (at' : Nat) (new : List α) : List α := l.take at' ++ new ++ l.drop (at' + new.length)

/-- pack (R197). vd is read as well where some of its slots keep their bits, its poison with it (R168). -/
def execPack (g : Guard) (dst src : Ty) (d a cr : Reg) (part : BitVec 6) (c : FCtl) (s : State) :
    Host.Outcome State Fault Refusal :=
  let k := s.cur
  let w := s.es.w
  let wd := (tySlotW dst)
  let n := 64 / w
  let srcs := [plain a, plain cr]
  let res := fun l => ((subs w (k.read a l)) ++ (subs w (k.read cr l))).map fun x => convert dst src c (x % 2 ^ (tyBits src))
  s.finish (firstStop [ckPair (packSpec dst src), s.ckEs (fun e => e.w == src.cvtW),
      s.ckOperands (if w / (2 * wd) = 1 then srcs else plain d :: srcs) [d]
        (illIf (decide (w / (2 * wd) ≤ part.toNat)) .range)])
    (s.laneEff
      { pass := s.passing g, dst := some d, tag := s.ftag (plain d :: srcs)
        val := fun l => packLane wd (setSlots (subs wd (k.read d l)) (part.toNat * 2 * n) ((res l).map (·.1)))
        flags := fun l => orFlags ((res l).map (·.2)) })

/-- unpack (R198). -/
def execUnpack (g : Guard) (dst src : Ty) (d a : Reg) (part : BitVec 6) (c : FCtl) (s : State) :
    Host.Outcome State Fault Refusal :=
  let w := s.es.w
  let ws := (tySlotW src)
  let n := 64 / w
  let res := fun l => (((subs ws (s.cur.read a l)).drop (part.toNat * n)).take n).map fun x =>
    convert dst src c (x % 2 ^ (tyBits src))
  s.finish (firstStop [ckPair (unpackSpec dst src), s.ckEs (fun e => e.w == dst.cvtW),
      s.ckOperands [plain a] [d] (illIf (decide (w / ws ≤ part.toNat)) .range)])
    (s.laneEff
      { pass := s.passing g, dst := some d, tag := s.ftag [plain a]
        val := fun l => packLane w ((res l).map (·.1))
        flags := fun l => orFlags ((res l).map (·.2)) })

end Sys2Proof.Machine
end

