-- ==== Sys2Proof/Machine/Issue.lean ====
section
/-!
DEFINITION. Issue: the group a skein issues for (R25 to R29, R44 to R46, R49, R220), demand fetch of a clause (R141, R142,
R163, R331, R332), the stepping of a repeated instruction (R219), and what an issue counts.
-/

namespace Sys2Proof.Machine

/-! ### Instruction lines (R331) -/

/-- The 128-byte line of an address. -/
def lineOf (a : Lane) : Nat := va57 a / 128

/-- Cache lines the level-0 cache and the L1 instruction cache hold. -/
def l0Lines : Nat := 128
/-- Ways of a set of the L1 instruction cache. -/
def l1iWays : Nat := 8
/-- Sets of the L1 instruction cache. -/
def l1iSets : Nat := 128

/-- A line held by a quadrant's level 0, or by the core's L1 instruction cache. -/
def State.iline? (s : State) (core : Nat) (quad : Option Nat) (ctx line : Nat) : Option ILine :=
  s.ilines.find? fun i => !i.gone && i.core == core && i.quad == quad && i.ctx == ctx && i.line == line && i.owner == (s.ctx ctx).part

/-- The set of a line in its cache: level 0 is one set. -/
def ILine.sameSet (i : ILine) (core : Nat) (quad : Option Nat) (line : Nat) : Bool :=
  i.core == core && i.quad == quad && (quad.isSome || i.line % l1iSets == line % l1iSets)

/-- A line put into a cache, the least recently used of a full set leaving (R331): `ilines` lists the last used first. What leaves the L1
instruction cache is remembered (R328). -/
def State.putLine (s : State) (x : ILine) : State :=
  let rest := s.ilines.filter fun i => !(i.core == x.core && i.quad == x.quad && i.ctx == x.ctx && i.line == x.line)
  let set := rest.filter fun i => !i.gone && i.sameSet x.core x.quad x.line
  let cap := if x.quad.isSome then l0Lines else l1iWays
  let rest := if set.length < cap then rest else
    match set.getLast? with
    | some v => if v.quad.isSome then rest.filter fun i => i != v else rest.map fun i => if i == v then { v with gone := true } else i
    | none => rest
  { s with ilines := x :: rest }

/-- The last use of some lines moved to now: they stand first. -/
def State.touch (s : State) (p : ILine → Bool) : State :=
  { s with ilines := ((s.ilines.filter p).map fun i => { i with used := s.now }) ++ s.ilines.filter fun i => !p i }

/-- A line's last use moved to now. -/
def State.useLine (s : State) (core : Nat) (quad : Option Nat) (ctx line : Nat) : State :=
  s.touch fun i => i.core == core && i.quad == quad && i.ctx == ctx && i.line == line

/-- The word at a canonical address (R64, R332), when the skein's quadrant holds its line in level 0. -/
def State.l0Word (s : State) (k : Skein) (a : Lane) : Option Word :=
  if !canonical a then none
  else
    (s.iline? k.core (some k.quad) k.ctx (lineOf a)).map fun i =>
      BitVec.ofNat 32 (ofBytes ((i.bytes.drop (va57 a % 128)).take 4))

/-! ### Reading a clause (R163) -/

/-- What level 0 shows of the clause at a header. -/
inductive ClauseRead
  | missing (addrs : List Lane)
  | bad (word : Word)
  | ok (word : Word) (h : Header) (body : List Word)
deriving DecidableEq, Repr

/-- The word addresses among n from an address that level 0 does not hold. -/
def missingWords (get : Lane → Option Word) (a : Lane) : Nat → List Lane
  | 0 => []
  | n + 1 => (if (get a).isNone then [a] else []) ++ missingWords get (a + 4) n

/-- R163: the words of n instructions from an address, an extension word after each word that calls for one; the first
address that is missing otherwise. An unassigned opcode has no length, so nothing after it is read. -/
def readBody (get : Lane → Option Word) (a : Lane) : Nat → Except Lane (List Word)
  | 0 => .ok []
  | n + 1 =>
    match get a with
    | none => .error a
    | some w =>
      if (opInfo (Word.opcode w)).isNone then .ok [w]
      else if Word.hasExt w then
        match get (a + 4) with
        | none => .error (a + 4)
        | some x =>
          match readBody get (a + 8) n with
          | .error e => .error e
          | .ok ws => .ok (w :: x :: ws)
      else
        match readBody get (a + 4) n with
        | .error e => .error e
        | .ok ws => .ok (w :: ws)

/-- R141, R331: the clause at a header, or the words still to be fetched: those of the extent without extension words at once,
each further one as the words before it show. -/
def readClause (get : Lane → Option Word) (hdr : Lane) : ClauseRead :=
  match get hdr with
  | none => .missing [hdr]
  | some w =>
    match decodeHeader w with
    | none => .bad w
    | some h =>
      match missingWords get (hdr + 4) h.count.toNat with
      | [] =>
        match readBody get (hdr + 4) h.count.toNat with
        | .ok b => .ok w h b
        | .error a => .missing [a]
      | ms => .missing ms

/-- The words of an instruction at an index of a clause's body. -/
def wordsAt (body : List Word) (i : Nat) : List Word :=
  match body.drop i with
  | [] => []
  | w :: r => if Word.hasExt w then w :: r.take 1 else [w]

/-- The index in the body of the instruction at a PC. -/
def bodyIdx (hdr pc : Lane) : Nat := (pc - hdr).toNat / 4 - 1

/-! ### Repetition (R219) -/

/-- Stepped fields of an instruction's words at a repetition. -/
def stepWords (step : BitVec 4) (i : Nat) (ws : List Word) : List Word :=
  let n := BitVec.ofNat 32 i
  let add (b : Bool) (sh : Nat) : Word := if b then n <<< sh else 0
  match ws with
  | [] => []
  | w :: r =>
    (w + add (step.getLsbD 3) 19 + add (step.getLsbD 2) 13 + add (step.getLsbD 1) 7) ::
      (match r with
       | [] => []
       | x :: t => (x + add (step.getLsbD 0) 26) :: t)

/-! ### Groups (R44 to R46) -/

/-- The opcode of the next instruction of a lane, as far as its clause or level 0 shows it. -/
def State.nextOpcode (s : State) (k : Skein) (l : Nat) : Option Nat :=
  let t := k.thread l
  match t.clause with
  | some c => ((wordsAt c.body (bodyIdx c.hdr t.pc)).head?).map Word.opcode
  | none =>
    match s.l0Word k t.pc, s.l0Word k (t.pc + 4) with
    | some _, some w => some (Word.opcode w)
    | _, _ => none

/-- R49: a region is open in the skein. While its threads run a trap handler no region is set for any of them (R54): the model counts
none as open then, so that the handler's own `meld` and `ldpm` issue, though only `mend` closes a region (R53) (DESIGN CHOICE, log 89). -/
def Skein.regionOpen (k : Skein) : Bool := k.threads.any fun t => !t.exited && t.region.isSome

/-- R49, R220: held, not runnable. -/
def State.heldBack (s : State) (k : Skein) (l : Nat) : Bool :=
  let t := k.thread l
  (k.regionOpen && t.region.isNone && (s.nextOpcode k l == some 0x57 || s.nextOpcode k l == some 0x59)) ||
    (k.susp && !t.repMark && s.nextOpcode k l == some 0x48)

/-- Lanes whose groups may issue: all, or the trapped ones while a handler runs (R350). -/
def Skein.handlerLane (k : Skein) (l : Nat) : Bool :=
  match k.handler with
  | some h => h.lanes.getLsbD l
  | none => true

/-- R27: runnable. -/
def State.runnable (s : State) (k : Skein) (l : Nat) : Bool :=
  let t := k.thread l
  !t.exited && t.waiting.isNone && k.handlerLane l && !s.heldBack k l

/-- R44: two threads of one group. -/
def sameGroup (a b : Thread) : Bool :=
  a.pc == b.pc && a.region.isSome == b.region.isSome && a.clause.map (fun c => (c.hdr, c.serial)) == b.clause.map (fun c => (c.hdr, c.serial))

/-- The order of R45: PC, then the earlier clause entry. Of groups at one header the one outside a region comes first, and
the lowest lane decides last (DESIGN CHOICE, log 71). -/
def entryKey (t : Thread) (l : Nat) : Nat :=
  ((t.pc.toNat * 2 ^ 64 + (match t.clause with | some c => c.serial + 1 | none => 0)) * 2 + (if t.region.isSome then 1 else 0)) * 32 + l

/-- What R45 selects: the group's lowest lane and mask, and a repeating group that R27 takes the issue from (R220). -/
structure Pick where
  lane : Nat
  mask : Mask
  susp : Option Nat := none
deriving DecidableEq, Repr

/-- The group of a lane among the runnable ones. -/
def State.groupOf (s : State) (k : Skein) (l : Nat) : Mask :=
  laneMask fun m => s.runnable k m && sameGroup (k.thread l) (k.thread m)

/-- A thread back at the `rep` of its run. -/
def Thread.atRep (t : Thread) (r : RepRun) (mark : Bool) : Thread :=
  { t with pc := r.pc, rep := none, repMark := mark, clause := t.clause.map fun c => { c with slot := r.slot } }

/-- R220: suspended repetitions: marks, the threads at the `rep`, SUSP and next. A repetition that has not begun goes back to its
`rep` unmarked. A skein has one sys.rep: of groups in the midst of repetitions that of the lowest lane takes it; any other, and all
while SUSP is set already, keep their place in the hidden state (DESIGN CHOICE, log 86). -/
def Skein.suspend (k : Skein) (p : Nat → Bool) : Skein :=
  let k := k.updThreads p fun _ t =>
    match t.rep with
    | some r => if r.idx = 0 then t.atRep r false else t
    | none => t
  match if k.susp then none else lowest fun l => p l && (k.thread l).rep.isSome with
  | none => k
  | some l0 =>
    let t0 := k.thread l0
    { k.updThreads (fun l => p l && sameGroup t0 (k.thread l) && (k.thread l).rep == t0.rep) fun _ t =>
        match t.rep with
        | some r => t.atRep r true
        | none => t with
      susp := true
      repNext := BitVec.ofNat 6 ((t0.rep.map (·.idx)).getD 0) }

/-- R27, R45, R219: the group that issues next. Of threads that share the highest starvation count, R45's order decides; a
yielded thread that stands in the group selected issues with it (DESIGN CHOICE, log 71). -/
def State.pickFrom (s : State) (k : Skein) : Option Pick :=
  let run := allLanes.filter (s.runnable k)
  let pickOf (l : Nat) (susp : Option Nat) : Option Pick := some ⟨l, s.groupOf k l, susp⟩
  let repeating := minBy (fun l => entryKey (k.thread l) l) (run.filter fun l => (k.thread l).rep.isSome)
  match minBy (fun l => (63 - (k.thread l).starve) * 2 ^ 256 + entryKey (k.thread l) l) run with
  | none => none
  | some top =>
    if 32 ≤ (k.thread top).starve then
      pickOf top (repeating.filter fun r => !(sameGroup (k.thread r) (k.thread top)))
    else
      match repeating with
      | some r => pickOf r none
      | none =>
        let awake := run.filter fun l => !(k.thread l).yielded
        (minBy (fun l => entryKey (k.thread l) l) (if awake.isEmpty then run else awake)).bind fun l => pickOf l none

/-- R220: a skein with the repetition suspended of the group that a lane stands in. -/
def State.suspendAt (s : State) (k : Skein) (r : Nat) : Skein :=
  k.suspend fun l => sameGroup (k.thread r) (k.thread l) && (k.thread l).rep.isSome && s.runnable k l

/-- The skein as a selection leaves it, with the repetition suspended that the issue is taken from. -/
def State.picked (s : State) (k : Skein) (p : Pick) : Skein :=
  match p.susp with
  | some r => s.suspendAt k r
  | none => k

/-- R27, R45, R220: the group that issues next. When R27 takes the issue from a repetition for a group at a `rep`, SUSP holds that
group, and the selection is made among the others. -/
def State.pick (s : State) (k : Skein) : Option Pick :=
  (s.pickFrom k).bind fun p =>
    if s.heldBack (s.picked k p) p.lane then (s.pickFrom (s.picked k p)).map fun q => { q with susp := p.susp } else some p

/-! ### What an issue counts -/

/-- R27, R28: starvation counts and yield marks at an issue for the lanes of a mask. -/
def State.countIssue (s : State) (k : Skein) (m : Mask) : Skein :=
  { k with
    issues := k.issues + 1
    threads := allLanes.map fun l =>
      let t := k.thread l
      if m.getLsbD l then { t with starve := 0, yielded := false }
      else if s.runnable k l then
        { t with starve := if t.yielded then 0 else min 63 (t.starve + 1), yielded := false }
      else { t with yielded := false } }

/-! ### The plan of a skein -/

/-- What a skein would do when it issues next. -/
inductive Plan
  | none
  /-- Words to demand-fetch (R331). -/
  | fetch (mask : Mask) (hdr : Lane) (addrs : List Lane)
  /-- R141: a clause trap at the header. -/
  | badHeader (mask : Mask) (hdr : Lane) (word : Word)
  | go (p : Pick) (i : Issue)
deriving DecidableEq, Repr

/-- R25: every flag of the wait mask is clear. -/
def waitMet (h : Header) (flags : List Nat) : Bool := (List.range 12).all fun n => !h.wait.getLsbD n || flags.getD n 0 == 0

/-- Waits that stall the whole skein: `fence` (R103), `grow` (R37), an access held by a replayable fault (R363). -/
def Skein.stalled (k : Skein) : Bool :=
  k.waits.any fun w => match w.kind with | .fence _ | .grow | .replay _ => true | _ => false

/-- R399: during a single step only its skein issues, once. -/
def Debug.lets (d : Debug) (u : Nat) : Bool :=
  match d.step with
  | some st => st.sk == some u && !st.issued
  | none => true

/-- A skein that may issue at all: resident, no altered code of it still issuing (R326), not stalled, not stopped at an escalation, its
context live. -/
def State.mayIssue (s : State) (k : Skein) : Bool :=
  k.slot.isSome && decide (k.idleAt ≤ s.now) && !k.stalled && k.escalated.isNone && (s.ctx k.ctx).live && (s.ctx k.ctx).dbg.lets k.uid

/-- The issue of an instruction at an index of a clause. An unassigned opcode gives no length (R163): the next instruction is the word
after it, and the following header the word after the truncated body (DESIGN CHOICE, log 77). -/
def mkIssue (k : Skein) (m : Mask) (hdr : Lane) (word : Word) (h : Header) (body : List Word) (pc : Lane) (slot serial : Nat)
    (rep : Option RepRun) : Issue :=
  let ws := wordsAt body (bodyIdx hdr pc)
  { sk := k.uid, mask := m, pc := pc, hdr := hdr, word := word, slot := slot
    words := match rep with | some r => stepWords r.step r.idx ws | none => ws
    next := pc + 4 * u64 ws.length
    follow := hdr + 4 * u64 (1 + body.length)
    last := decide (h.count.toNat ≤ slot + 1)
    serial := serial, body := body, rep := rep }

/-- R25, R45, R141, R331: what the skein would do now. -/
def State.plan (s : State) (k : Skein) : Plan :=
  if !s.mayIssue k then .none
  else
    match s.pick k with
    | none => .none
    | some p =>
      let t := (s.picked k p).thread p.lane
      match t.clause with
      | some c =>
        match decodeHeader c.word with
        | none => .none
        | some h => .go p (mkIssue k p.mask c.hdr c.word h c.body t.pc c.slot c.serial t.rep)
      | none =>
        match readClause (s.l0Word k) t.pc with
        | .missing as => .fetch p.mask t.pc as
        | .bad w => .badHeader p.mask t.pc w
        | .ok w h body =>
          if waitMet h k.flags then .go p (mkIssue k p.mask t.pc w h body (t.pc + 4) 0 (k.issues + 1) none) else .none

/-! ### Demand fetch (R331, R332) -/

/-- R332: an address whose line can be fetched for execution. -/
def State.fetchable (s : State) (ctx : Nat) (a : Lane) : State × Option Xlat :=
  if !canonical a then (s, none)
  else
    match s.translate ctx a with
    | (s, .ok x) => (s, if x.x && x.kind != 2 then some x else none)
    | (s, .error _) => (s, none)

/-- The first address of a list that cannot be fetched. -/
def State.unfetchable (s : State) (ctx : Nat) : List Lane → State × Option Lane
  | [] => (s, none)
  | a :: as =>
    match s.fetchable ctx a with
    | (s, none) => (s, some a)
    | (s, some _) => s.unfetchable ctx as

/-- A line wanted by a quadrant, for a fetch operation, or for the L1 instruction cache alone: joined to a fill in flight, or
requested anew (R331). -/
def State.wantLine (s : State) (core ctx line : Nat) (quad op : Option Nat) : State :=
  let same (r : IReq) : Bool := r.core == core && r.ctx == ctx && r.line == line
  if s.ireqs.any same then
    { s with ireqs := s.ireqs.map fun r =>
        if same r then { r with quads := (quad.toList ++ r.quads).dedup, ops := op.toList ++ r.ops } else r }
  else { s with ireqs := s.ireqs ++ [⟨core, ctx, line, quad.toList, op.toList⟩] }

/-- One line demanded: from the L1 instruction cache when it is there, else from its home. -/
def State.demandLine (s : State) (k : Skein) (line : Nat) : State :=
  match s.iline? k.core (some k.quad) k.ctx line with
  | some _ => s
  | none =>
    match s.iline? k.core none k.ctx line with
    | some i => (s.useLine k.core none k.ctx line).putLine { i with quad := some k.quad, used := s.now }
    | none => s.wantLine k.core k.ctx line (some k.quad) none

/-- What is at hand when a trap is raised at a header. The clause's length is not known, so what follows it (R351) is taken to be
the next word (DESIGN CHOICE, log 77). -/
def headerIssue (sk : Nat) (m : Mask) (hdr : Lane) : Issue :=
  { sk := sk, mask := m, pc := hdr, hdr := hdr, next := hdr + 4, follow := hdr + 4 }

/-- R332: the fault of a demand fetch; the lines it brought leave level 0 again, and those under way do not enter it. -/
def State.fetchFault (s : State) (k : Skein) (m : Mask) (hdr bad : Lane) : State :=
  let s := { s with
    ilines := s.ilines.filter fun i =>
      !(i.core == k.core && i.quad == some k.quad && i.ctx == k.ctx && k.demand.contains (hdr, i.line))
    ireqs := s.ireqs.map fun (r : IReq) =>
      if r.core == k.core && r.ctx == k.ctx && k.demand.contains (hdr, r.line) then { r with quads := r.quads.filter (· != k.quad) } else r }
  let s := s.updSk k.uid fun k => { k with demand := k.demand.filter fun d => d.1 != hdr }
  { s with issue := headerIssue k.uid m hdr }.takeTrap { kind := 0x0A, addr := bad, pc := some hdr }

/-- R141: a clause trap at the header. -/
def State.headerTrap (s : State) (k : Skein) (m : Mask) (hdr : Lane) (w : Word) : State :=
  { s with issue := headerIssue k.uid m hdr }.takeTrap
    { kind := 2, addr := hdr, aux := w.setWidth 64, pc := some hdr }

/-- R331, R332: the missing words of a clause demanded. -/
def State.demand (s : State) (k : Skein) (m : Mask) (hdr : Lane) (addrs : List Lane) : State :=
  match s.unfetchable k.ctx addrs with
  | (s, some a) => s.fetchFault k m hdr a
  | (s, none) =>
    let lines := (addrs.map lineOf).dedup
    let s := lines.foldl (fun s n => s.demandLine k n) s
    s.updSk k.uid fun k => { k with demand := (k.demand ++ lines.map fun n => (hdr, n)).dedup }

/-! ### The issue itself -/

/-- R142, R164: cause 0x02, after 0x01 and before every other check; `rep` belongs to any class but control. -/
def classOk (h : Header) (w : Word) : Bool :=
  match opInfo (Word.opcode w) with
  | none => true
  | some (_, some c, _) => c == h.cls
  | some (_, none, _) => h.cls != .control

/-- R164: the instruction an issue's words hold, or the cause that stops it. -/
def Issue.decode (i : Issue) : Except Cause Instr :=
  match decodeHeader i.word, i.words with
  | some h, w :: r => if classOk h w then decodeWord h.es w (r.headD 0) else .error .classMismatch
  | _, _ => .error .unassigned

/-- A `rep` word, which takes no issue slot of its own (R219). -/
def Issue.isRep (i : Issue) : Bool := (i.words.head?.map Word.opcode) == some 0x48

/-- The lines of the clause of an issue count as used (R331). -/
def State.useClause (s : State) (k : Skein) (i : Issue) : State :=
  let lo := lineOf i.hdr
  let hi := lineOf (i.follow - 4)
  s.touch fun x => x.core == k.core && x.quad == some k.quad && x.ctx == k.ctx && decide (lo ≤ x.line) && decide (x.line ≤ hi)

/-- The state in which an instruction takes effect: its group inside the clause, the issue counted, the issue at hand. -/
def State.atIssue (s : State) (p : Pick) (i : Issue) : State :=
  let s := { (if i.slot = 0 then s.useClause (s.sk i.sk) i else s) with issue := i, blocked := false }
  s.updCur fun k =>
    let k := s.picked k p
    let k := if i.isRep then k else s.countIssue k p.mask
    { k.updThreads p.mask.getLsbD fun _ t =>
        { t with pc := i.pc, clause := some ⟨i.hdr, i.word, i.slot, i.serial, i.body⟩ } with
      demand := k.demand.filter fun d => d.1 != i.hdr }

/-- After an issue: time has moved on (log 2), and the watchdog's count starts anew (R341). -/
def State.afterIssue (s : State) : State :=
  if s.issue.isRep then s
  else (s.pass 1).updSk s.issue.sk fun k => { k with idle := 0, idleAt := (s.pass 1).now }

end Sys2Proof.Machine
end

