-- ==== Sys2Proof/Machine/Lane.lean ====
section
/-!
DEFINITION. Waiting groups (R25), the synchronising cross-lane instructions and their completion (R55 to R59, R199 to R205),
table lookup, identifiers and select (R206 to R208).
-/

namespace Sys2Proof.Machine

/-! ### Waiting groups (R25) -/

/-- The executing threads wait at the instruction being issued. -/
def State.beginWait (s : State) (kind : WaitKind) (i : Instr) : State :=
  let (id, s1) := s.fresh
  s1.updCur fun k =>
    { k.updThreads s.executing fun _ t => { t with waiting := some id } with
      waits := k.waits ++
        [{ id := id, kind := kind, lanes := s.issue.mask, instr := i, issue := s.issue, es := s.es, since := id, tick := s.now }] }

/-- R354: waits that a halt leaves as they are: the counted arrival of a `bar` (R287), a pending `grow` (R292), a `sleep`
(R237). -/
def WaitKind.stays : WaitKind → Bool
  | .bar .. | .grow | .sleep _ => true
  | _ => false

/-- A wait by its name. -/
def Skein.wait? (k : Skein) (id : Nat) : Option Wait := k.waits.find? fun w => w.id == id

/-- The lanes still standing in a wait. -/
def Skein.inWait (k : Skein) (id : Nat) (l : Nat) : Bool := (k.thread l).waiting == some id && !(k.thread l).exited

/-- A wait ends with its instruction done: its lanes move past it. -/
def Skein.endWait (k : Skein) (w : Wait) : Skein :=
  { k.pass w.issue (k.inWait w.id) with waits := k.waits.filter fun x => x.id != w.id }

/-- A wait ends with its instruction not executed: its lanes stand at it again. -/
def Skein.dropWait (k : Skein) (id : Nat) : Skein :=
  let k := match k.ops.find? fun o => o.forWait == some id with
    | some o => k.dropOp o.id
    | none => k
  { k.updThreads (k.inWait id) fun _ t => { t with waiting := none } with
    waits := k.waits.filter fun x => x.id != id }

/-- The state in which a waiting instruction takes its effect: its own issue at hand. -/
def State.atWait (s : State) (w : Wait) : State := { s with issue := w.issue }

/-! ### Members (R55, R56, R200) -/

/-- The mask a lane supplies. -/
def State.maskAt (s : State) (m : MaskSrc) (l : Nat) : Mask :=
  match m with
  | .full => 0xFFFFFFFF
  | .reg c => (s.cur.read c l).setWidth 32

/-- The mask register, when there is one. -/
def maskRegs : MaskSrc → List SrcReg
  | .full => []
  | .reg c => [plain c]

/-- The mask of the executing group: that of its lowest lane. -/
def State.groupMask (s : State) (m : MaskSrc) : Mask := s.maskAt m ((lowest s.executing).getD 0)

/-- R55: one mask over the executing threads, and it includes them all. -/
def State.ckMembers (s : State) (m : MaskSrc) : Option Stop :=
  illIf (!(allLanes.all fun l => !s.executing l || (s.maskAt m l == s.groupMask m && (s.groupMask m).getLsbD l))) .state

/-- The waits that combine with one: the same skein, PC, instruction and mask (R55, R219). -/
def Skein.mates (k : Skein) (w : Wait) : List Wait :=
  k.waits.filter fun x =>
    x.kind == w.kind && x.issue.pc == w.issue.pc && x.issue.words == w.issue.words &&
      x.issue.rep.map (·.idx) == w.issue.rep.map (·.idx)

/-- The union of the waiting groups. -/
def Skein.matesIn (k : Skein) (w : Wait) (l : Nat) : Bool := (k.mates w).any fun x => k.inWait x.id l

/-- R56: every member that has not exited is waiting. -/
def Skein.allThere (k : Skein) (w : Wait) : Bool :=
  match w.kind with
  | .sync m => allLanes.all fun l => !m.getLsbD l || (k.thread l).exited || k.matesIn w l
  | _ => false

/-! ### What a synchronising instruction computes -/

/-- Guard, sources with the destination, of a synchronising instruction. -/
def syncGuard : Instr → Guard
  | .shfl g .. | .slide g .. | .vote g .. | .redux g .. => g
  | _ => .always

/-- The mask operand of a synchronising instruction. -/
def syncMaskOf : Instr → MaskSrc
  | .shfl _ _ _ _ _ m _ _ | .slide _ _ _ _ _ m _ _ | .vote _ _ _ m _ | .redux _ _ _ _ m _ _ _ _ => m
  | _ => .full

/-- The registers whose elements it reads. -/
def syncSrcs : Instr → List Reg
  | .shfl _ .at _ a b _ _ _ => [a, b]
  | .shfl _ _ _ a _ _ _ _ => [a]
  | .slide _ _ _ a nb _ _ _ => a :: nb.toList
  | .redux _ _ _ a .. => [a]
  | _ => []

/-- The members that supply a value and receive a result (R200). -/
def Skein.part (k : Skein) (w : Wait) (l : Nat) : Bool := k.matesIn w l && guardPasses (syncGuard w.instr) (k.thread l)

/-- Every register it reads, the mask register among them (R55, R160). -/
def syncRegs (i : Instr) : List Reg := syncSrcs i ++ (maskRegs (syncMaskOf i)).map (·.1)

/-- The physical registers read, over the contributing lanes. -/
def Skein.syncReads (k : Skein) (w : Wait) : List Nat :=
  ((syncRegs w.instr).flatMap fun f => (allLanes.filter (k.part w)).map fun l => k.resolve l f).dedup

/-- R168, R200: some lane read is poisoned; what is still pending is not read yet. -/
def Skein.syncPoison (k : Skein) (w : Wait) : Bool :=
  (syncRegs w.instr).any fun f => allLanes.any fun l =>
    k.part w l && (k.pendingBy (k.resolve l f)).isNone && (k.reg (k.resolve l f)).poison.getLsbD l

/-- Element j of a register over the contributing lanes; the fill value for an absent lane (R57). -/
def Skein.element (k : Skein) (w : Wait) (f : Reg) (fill : Nat) (j : Nat) : Nat :=
  let n := 64 / w.es.w
  let l := j / n
  if l < 32 && k.part w l then (subs w.es.w (k.read f l)).getD (j % n) 0 else fill

/-- R202: the source index of element e. -/
def shflIndex (mode : ShflMode) (n : Nat) (amt e b : Nat) : Int :=
  match mode with
  | .at => b
  | .back => (e : Int) - amt
  | .fwd => e + amt
  | .swap => (e ^^^ amt : Nat)
  | .rot => ((e : Int) - amt) % (n : Int)

/-- R201: the fill value. -/
def fillElt (w : Nat) (fill : Byte) : Nat := wrap w fill.toInt

/-- Identity of a reduction, as a pattern (R205). -/
def reduxIdent (op : ReduxOp) (w : Nat) (F : Fmt) : Nat :=
  match op with
  | .add | .or | .xor | .maxN => 0
  | .minI => 2 ^ (w - 1) - 1
  | .minN | .and => 2 ^ w - 1
  | .maxI => 2 ^ (w - 1)
  | .fadd => F.top
  | .fmin => infPat F false
  | .fmax => infPat F true

/-- The reduction of the supplied patterns of one segment (R205). -/
def reduxOf (op : ReduxOp) (w : Nat) (F : Fmt) (c : FCtl) (xs : List Nat) : Nat × Sticky :=
  let fold (f : Fn2) : Nat × Sticky := (xs.foldl (fun a x => (f w a x).1) (reduxIdent op w F), 0)
  match op with
  | .add => fold fnAdd
  | .minI => fold fnMinI
  | .minN => fold fnMinN
  | .maxI => fold fnMaxI
  | .maxN => fold fnMaxN
  | .and => fold fnAnd
  | .or => fold fnOr
  | .xor => fold fnXor
  | .fadd => (sumV (xs.map (decodeFz F c.fzi))).deliver F c
  | .fmin => pick false
  | .fmax => pick true
where
  /-- R185 over a list: one supplied value. -/
  pick (wantMax : Bool) : Nat × Sticky :=
    match xs.map (flushIn F c.fzi) with
    | [] => (0, 0)
    | y :: ys => ys.foldl (fun a x => let r := fPickV F wantMax a.1 x; (r.1, a.2 ||| r.2)) (y, 0)

/-- R205: lanes of a segment. -/
def segLen (seg : BitVec 3) : Nat := if seg = 0 then 32 else 2 ^ seg.toNat

/-- Lane-wise results of a synchronising instruction at its completion. -/
def Skein.syncEff (k : Skein) (w : Wait) : LaneEff :=
  let es := w.es.w
  let n := 64 / es
  let N := 32 * n
  let tagOf (f : Reg) : Tag := k.tagOf (laneMask (k.matesIn w)) f
  match w.instr with
  | .shfl _ mode d a b _ fill amt =>
    let f := fillElt es fill
    { pass := k.part w, dst := some d, tag := tagAll ((syncRegs w.instr).map tagOf)
      val := fun l => packLane es <| (List.range n).map fun s =>
        let j := shflIndex mode N amt.toNat (l * n + s) ((subs es (k.read b l)).getD s 0)
        if 0 ≤ j ∧ j < (N : Int) then k.element w a f j.toNat else f }
  | .slide _ down d a nb _ fill amt =>
    let f := fillElt es fill
    let other := fun (j : Nat) => match nb with | some b => k.element w b f j | none => f
    { pass := k.part w, dst := some d, tag := tagAll ((syncRegs w.instr).map tagOf)
      val := fun l => packLane es <| (List.range n).map fun s =>
        let e := l * n + s
        let m := amt.toNat
        if down then (if e + m < N then k.element w a f (e + m) else other (e + m - N))
        else if m ≤ e then k.element w a f (e - m) else other (N - m + e) }
  | .vote _ op d _ dep =>
    let supplied := (allLanes.filter (k.part w)).map fun l => (k.thread l).predAt dep.toNat
    let bits := laneMask fun l => k.part w l && (k.thread l).predAt dep.toNat
    let cnt := supplied.count true
    match op with
    | .or => { pass := k.part w, push := fun _ => some (supplied.any id) }
    | .and => { pass := k.part w, push := fun _ => some (supplied.all id) }
    | .eqv => { pass := k.part w, push := fun _ => some (supplied.all id || supplied.all not) }
    | .bits => { pass := k.part w, dst := some d, tag := .uniform, val := fun _ => bits.setWidth 64 }
    | .cnt => { pass := k.part w, dst := some d, tag := .uniform, val := fun _ => u64 cnt, push := fun _ => some (cnt != 0) }
  | .redux _ op d a _ seg h fzo fzi =>
    let F := esFmt w.es h
    let c : FCtl := ⟨0, h, fzo, fzi, false⟩
    let g := segLen seg
    let supply := fun (l s : Nat) =>
      if k.part w l then (subs es (k.read a l)).getD s 0 else reduxIdent op es F
    let res := fun (l : Nat) => (List.range n).map fun s =>
      reduxOf op es F c ((List.range g).map fun i => supply (l / g * g + i) s)
    { pass := k.part w, dst := some d, tag := if g = 32 then .uniform else .general
      val := fun l => packLane es ((res l).map (·.1))
      flags := fun l => orFlags ((res l).map (·.2)) }
  | _ => { pass := fun _ => false }

/-- R56, R200: a completion: result computed once over the union, delivered, and every group past its instruction. -/
def Skein.completeSync (k : Skein) (w : Wait) : Skein :=
  (k.mates w).foldl (fun k x => k.endWait x) ((k.dull (k.matesIn w) (k.syncEff w).dst).laneEff (k.syncEff w))

/-- The groups of a synchronising wait go back to the instruction, and issue it anew. -/
def Skein.dropMates (k : Skein) (w : Wait) : Skein := (k.mates w).foldl (fun k x => k.dropWait x.id) k

/-- R56, R200: a wait whose members are all there and whose operands are settled completes; an operand that is poisoned or
never lands (R112, R115) sends its groups back to the instruction, which traps when it issues. -/
def State.trySync (s : State) (u id : Nat) : State :=
  let k := s.sk u
  match k.wait? id with
  | none => s
  | some w =>
    if !k.allThere w then s
    else if (k.syncReads w).any (fun r => (k.pendingBy r).any fun o => o.fail.isSome) || k.syncPoison w then
      s.updSk u fun k => k.dropMates w
    else if (k.syncReads w).any fun r => (k.pendingBy r).isSome then s
    else s.updSk u fun k => k.completeSync w

/-- R112, R115: the trap of a register that will never land, among registers that an instruction else waits for. -/
def State.ckFailed (s : State) (srcs : List Nat) : Option Stop :=
  firstStop (srcs.map fun r => ((s.cur.pendingBy r).filter fun o => o.fail.isSome).bind fun o => s.cur.pendTrap r o)

/-- R168, R200: the poison check of the lanes that the issuing group reads, but for registers that are still pending: those are read
at completion. -/
def State.ckSettledPoison (s : State) (srcs : List Reg) : Option Stop :=
  s.ckPoisonLanes <| (srcs.flatMap fun f => (allLanes.filter s.executing).map fun l => (s.cur.resolve l f, l)).filter fun x =>
    (s.cur.pendingBy x.1).isNone

/-- R200: the mask register of the issuing group is still pending. -/
def State.maskPending (s : State) (m : MaskSrc) : Bool := (s.namedSrcs (maskRegs m)).any fun r => (s.cur.pendingBy r).isSome

/-- R56, R200: every synchronising wait of a skein that can complete does. -/
def State.trySyncs (s : State) (u : Nat) : State := (s.sk u).waits.foldl (fun s w => s.trySync u w.id) s

/-- R55, R56: the group stands at its instruction with its mask, and completes at once when all are there. -/
def State.syncBegin (s : State) (i : Instr) : State :=
  (s.beginWait (.sync (s.groupMask (syncMaskOf i))) i).trySync s.issue.sk s.idCtr

/-- R55, R56, R200: a synchronising instruction: checks, then its group waits, for its mask register first while that is
pending. -/
def State.syncOp (s : State) (i : Instr) (es : Es → Bool) (m : MaskSrc) (dsts : List Reg) (extra : Option Stop) :
    Host.Outcome State Fault Refusal :=
  let srcs := (syncSrcs i).map plain
  s.finish
    (firstStop [s.ckEs es, s.ckRegs (syncSrcs i ++ (maskRegs m).map (·.1) ++ dsts), extra,
      s.ckFailed (s.namedSrcs (maskRegs m ++ srcs)), s.ckMarks [] (s.namedDsts dsts), s.ckSettledPoison ((maskRegs m).map (·.1) ++ syncSrcs i),
      if s.maskPending m then none else s.ckMembers m])
    (if s.maskPending m then s.beginWait .syncPre i else s.syncBegin i)

/-- R201: an amount at or above N. -/
def State.ckAmt (s : State) (amt : BitVec 8) : Option Stop := illIf (decide (32 * (64 / s.es.w) ≤ amt.toNat)) .range

/-- shfl (R202). -/
def execShfl (g : Guard) (mode : ShflMode) (d a b : Reg) (mask : MaskSrc) (fill amt : BitVec 8) (s : State) :=
  s.syncOp (.shfl g mode d a b mask fill amt) anyEs mask [d] (s.ckAmt amt)

/-- slide (R203). -/
def execSlide (g : Guard) (down : Bool) (d a : Reg) (nb : Option Reg) (mask : MaskSrc) (fill amt : BitVec 8) (s : State) :=
  s.syncOp (.slide g down d a nb mask fill amt) anyEs mask [d] (s.ckAmt amt)

/-- vote (R204). -/
def execVote (g : Guard) (op : VoteOp) (d : Reg) (mask : MaskSrc) (dep : BitVec 2) (s : State) :=
  s.syncOp (.vote g op d mask dep) anyEs mask (if op.writes then [d] else []) none

/-- redux (R205). -/
def execRedux (g : Guard) (op : ReduxOp) (d a : Reg) (mask : MaskSrc) (seg : BitVec 3) (h fzo fzi : Bool) (s : State) :=
  s.syncOp (.redux g op d a mask seg h fzo fzi) (fun e => !op.isFloat || e != .e8) mask [d]
    (illIf (decide (4 < seg.toNat)) .range)

/-- R200: the mask register has landed: the members are checked, and the group stands at its instruction with its mask. -/
def State.syncMasked (s : State) (u : Nat) (w : Wait) : State :=
  let s0 := { s.updSk u fun k => k.dropWait w.id with issue := { w.issue with sk := u } }
  let m := syncMaskOf w.instr
  if (s0.namedSrcs (maskRegs m)).any (fun r => (s0.cur.pendingBy r).any fun o => o.fail.isSome) || (s0.ckSettledPoison ((maskRegs m).map (·.1))).isSome then
    { s0 with issue := s.issue }
  else if s0.maskPending m then s
  else
    match s0.ckMembers m with
    | some (.trap t) => { s0.takeTrap t with issue := s.issue }
    | _ => { s0.syncBegin w.instr with issue := s.issue }

/-- The completion of a synchronising wait (R56), or of the wait for its mask register (R200). -/
def execSyncComplete (sk wait : Nat) (s : State) : Host.Outcome State Fault Refusal :=
  .next (match ((s.sk sk).wait? wait).filter fun w => w.kind == .syncPre with
    | some w => if allLanes.all fun l => !(s.sk sk).inWait w.id l || (s.sk sk).handlerLane l then s.syncMasked sk w else s
    | none => s.trySync sk wait)

/-! ### Table lookup, identifiers, select (R206 to R208) -/

/-- R206: the register and lane that each byte of b in the executing lanes looks up in a wide table. -/
def State.lookedUp (s : State) (a b : Reg) : List (Nat × Nat) :=
  ((allLanes.filter s.executing).flatMap fun l => (subs 8 (s.cur.read b l)).map (· / 8)).filterMap fun j =>
    if (s.cur.thread j).exited then none else some (s.cur.resolve j a, j)

/-- R168, R206: the operand checks of a wide lookup, which reads of a the lanes looked up alone. -/
def State.ckWide (s : State) (d a b : Reg) (extra : Option Stop) : Option Stop :=
  firstStop [s.ckRegs [a, b, d], extra,
    s.ckMarks (s.namedSrcs [plain a, plain b] ++ (s.lookedUp a b).map (·.1)) (s.namedDsts [d]),
    s.ckPoison [plain b], s.ckPoisonLanes (s.lookedUp a b)]

/-- tbl (R206). -/
def execTbl (g : Guard) (d a b : Reg) (wide : Bool) (cnt1 : BitVec 3) (fill : BitVec 8) (s : State) :
    Host.Outcome State Fault Refusal :=
  let k := s.cur
  let cnt := cnt1.toNat + 1
  let tabs := (List.range cnt).map fun r => a + BitVec.ofNat 6 r
  let srcs := tabs.map plain ++ [plain b]
  let past := illIf (decide (63 < a.toNat + cnt - 1)) .range
  let table := fun l => tabs.flatMap fun f => subs 8 (k.read f l)
  s.finish (firstStop [s.ckEs (· == .e8), if wide then s.ckWide d a b past else s.ckOperands srcs [d] past]) <| s.laneEff
    { pass := s.passing g, dst := some d
      tag := if wide then .general else s.ftag srcs
      val := fun l => packLane 8 <| (subs 8 (k.read b l)).map fun x =>
        if wide then
          (if (k.thread (x / 8)).exited then 0 else (subs 8 (k.read a (x / 8))).getD (x % 8) 0)
        else (table l).getD x fill.toNat }

/-- R207: the identifier a selector names; `none` past the last. -/
def State.ident (s : State) (sel : BitVec 4) (l : Nat) : Option Nat :=
  let k := s.cur
  let slot := k.slot.getD 0
  match sel.toNat with
  | 0 => some l
  | 1 => some slot
  | 2 => some (slot % 8)
  | 3 => some k.quad
  | 4 => some (k.core % 192)
  | 5 => some (clusterOf k.core)
  | 6 => some (dieOf k.core)
  | 7 => some (match s.record with | some r => if r.ports = 0 then 0 else r.domain.toNat | none => 0)
  | 8 => some (s.ctx k.ctx).part
  | _ => none

/-- lid (R207). -/
def execLid (g : Guard) (d : Reg) (sel : BitVec 4) (s : State) : Host.Outcome State Fault Refusal :=
  let w := s.es.w
  s.laneOp anyEs [] (illIf (s.ident sel 0).isNone .range)
    { pass := s.passing g, dst := some d
      tag := if sel = 0 then .affine 0 (splat w 1) s.es else .uniform
      val := fun l => splat w (((s.ident sel l).getD 0) % 2 ^ w) }

/-- sel (R208). -/
def execSel (g : Guard) (d a b : Reg) (p : Perm) (by' : SelSrc) (s : State) : Host.Outcome State Fault Refusal :=
  let k := s.cur
  match by' with
  | .mask c =>
    s.laneOp anyEs [plain a, (b, p), plain c] none
      { pass := s.passing g, dst := some d, tag := s.ftag [plain a, (b, p), plain c]
        val := fun l => (k.read a l &&& k.read c l) ||| (k.readB b p l &&& ~~~(k.read c l)) }
  | .pred dep =>
    s.laneOp anyEs [plain a, (b, p)] none
      { pass := s.passing g, dst := some d
        val := fun l => if (k.thread l).predAt dep.toNat then k.read a l else k.readB b p l }

end Sys2Proof.Machine
end

