-- ==== Sys2Proof/Machine/LoopStream.lean ====
section
/-!
DEFINITION. Predicates, shape tags, sticky flags, the repeat prefix, the loop-nest unit and the address streams (R155, R209 to
R220).
-/

namespace Sys2Proof.Machine

/-! ### Predicates (R209, R210) -/

/-- Effects on the predicates of the passing lanes. -/
def State.predOp (s : State) (g : Guard) (srcs : List SrcReg) (extra : Option Stop) (f : Nat → Thread → Thread) :
    Host.Outcome State Fault Refusal :=
  s.finish (s.ckOperands srcs [] extra) (s.updCur fun k => k.updThreads (s.passing g) f).advance

/-- ppush (R209). -/
def execPpush (g : Guard) (a : Reg) (sub : BitVec 6) (s : State) :=
  s.predOp g [plain a] (illIf (decide (64 / s.es.w ≤ sub.toNat)) .range)
    fun l t => t.push ((subs s.es.w (s.cur.read a l)).getD sub.toNat 0 != 0)

/-- ppop (R209). -/
def execPpop (g : Guard) (k : BitVec 6) (s : State) :=
  s.predOp g [] (illIf (decide (k.toNat = 0 ∨ 8 < k.toNat)) .range) fun _ t => { t with pred := t.pred >>> k.toNat }

/-- pmov from the predicates (R209). -/
def execPmovFromPred (g : Guard) (d : Reg) (s : State) : Host.Outcome State Fault Refusal :=
  s.laneOp anyEs [] none
    { pass := s.passing g, dst := some d, tag := .uniform, val := fun l => (s.cur.thread l).pred.setWidth 64 }

/-- pmov to the predicates (R209). -/
def execPmovToPred (g : Guard) (a : Reg) (s : State) :=
  s.predOp g [plain a] none fun l t => { t with pred := (s.cur.read a l).setWidth 8 }

/-- The truth-table bit of two predicates (R210). -/
def plogBit (tt : BitVec 4) (x y : Bool) : Bool := tt.getLsbD (2 * x.toNat + y.toNat)

/-- plog (R210). -/
def execPlog (g : Guard) (repl : Bool) (tt : BitVec 4) (dx dy : BitVec 3) (s : State) :=
  s.predOp g [] none fun _ t =>
    let q := plogBit tt (t.predAt dx.toNat) (t.predAt dy.toNat)
    if repl then { t with pred := (t.pred &&& 0xFE) ||| (if q then 1 else 0) } else t.push q

/-- Depth k moved to depth 0, the depths below it one deeper (R210). -/
def rollPred (p : BitVec 8) (k : Nat) : BitVec 8 :=
  BitVec.ofNat 8 (packNat 1 (((List.range 8).map fun d =>
    (if d = 0 then p.getLsbD k else if d ≤ k then p.getLsbD (d - 1) else p.getLsbD d).toNat)))

/-- ppick (R210). -/
def execPpick (g : Guard) (roll : Bool) (k : BitVec 3) (s : State) :=
  s.predOp g [] none fun _ t =>
    if roll then { t with pred := rollPred t.pred k.toNat } else t.push (t.predAt k.toNat)

/-! ### Tags and flags (R211 to R213) -/

/-- The word `tag` writes. -/
def tagWord : Tag → Lane
  | .general => 0
  | .uniform => 1
  | .affine _ _ e => 2 ||| ((Es.bits e).setWidth 64 <<< 2)

/-- tag (R51, R211): in each lane the tag of the register that va resolves to there. A poisoned va raises the poison trap as any register
read does (DESIGN CHOICE, log 90). -/
def execTag (g : Guard) (d a : Reg) (s : State) : Host.Outcome State Fault Refusal :=
  s.laneOp anyEs [plain a] none
    { pass := s.passing g, dst := some d, tag := .uniform, val := fun l => tagWord (s.cur.reg (s.cur.resolve l a)).tag }

/-- iota (R212). -/
def execIota (g : Guard) (d : Reg) (base : IotaBase) (stride : BitVec 8) (s : State) : Host.Outcome State Fault Refusal :=
  let w := s.es.w
  let x := fun l => match base with
    | .imm b => List.replicate (64 / w) (wrap w b.toInt)
    | .reg a => subs w (s.cur.read a l)
  let srcs := match base with | .imm _ => [] | .reg a => [plain a]
  let flat := match base with | .imm _ => true | .reg a => s.tagOf a == .uniform
  s.laneOp anyEs srcs none
    { pass := s.passing g, dst := some d
      tag := if !flat then .general else if stride = 0 then .uniform
        else .affine (packLane w (x 0)) (splat w (wrap w stride.toInt)) s.es
      val := fun l => packLane w ((x l).map fun y => wrap w (y + l * stride.toInt)) }

/-- stk (R213). -/
def execStk (g : Guard) (d : Reg) (s : State) : Host.Outcome State Fault Refusal :=
  s.finish (s.ckOperands [] [d])
    (s.updCur fun k =>
      (k.writeBy s.executing d (s.passing g) (fun l => (s.cur.thread l).sticky.setWidth 64) .general).updThreads (s.passing g)
        fun _ t => { t with sticky := 0 }).advance

/-! ### The repeat prefix (R155, R219, R220) -/

/-- What a field of an instruction word holds: nothing, a vector register, or a number or another file's register. -/
inductive FieldUse | none | reg | num
deriving DecidableEq, Repr

/-- The fields d, a, b and c a `rep` may step. -/
structure Fields where
  d : FieldUse := .none
  a : FieldUse := .none
  b : FieldUse := .none
  c : FieldUse := .none
deriving DecidableEq, Repr

/-- A mask operand's field c. -/
def maskUse : MaskSrc → FieldUse
  | .full => .none
  | .reg _ => .reg

/-- A Float pair source's field b. -/
def fsrcUse : FSrc → FieldUse
  | .reg .. => .reg
  | .imm _ => .none

/-- R147, R155: which of d, a, b, c an instruction has (log 20). -/
def fieldsOf : Instr → Fields
  | .mov .. => { d := .reg, b := .reg }
  | .movImm .. | .movi .. | .lid .. | .asget .. | .kget .. | .stk .. | .pmovFromPred .. | .maccFrom .. | .sysr .. | .htest .. =>
    { d := .reg }
  | .add .. | .sub .. | .addsatI .. | .addsatN .. | .subsatI .. | .subsatN .. | .mul .. | .mulhiI .. | .mulhiN .. | .minI ..
  | .minN .. | .maxI .. | .maxN .. | .and .. | .or .. | .xor .. | .andn .. | .shl .. | .shrN .. | .shrI .. | .fscale ..
  | .fcmp .. | .tbl .. | .residReg .. => { d := .reg, a := .reg, b := .reg }
  | .addImm .. | .subImm .. | .addsatIImm .. | .addsatNImm .. | .subsatIImm .. | .subsatNImm .. | .mulImm .. | .mulhiIImm ..
  | .mulhiNImm .. | .minIImm .. | .minNImm .. | .maxIImm .. | .maxNImm .. | .andImm .. | .orImm .. | .xorImm .. | .andnImm ..
  | .shlImm .. | .shrNImm .. | .shrIImm .. | .abs .. | .neg .. | .not .. | .popc .. | .clz .. | .brev .. | .bfxI ..
  | .bfxN .. | .fneg .. | .fabs .. | .frnd .. | .fclass .. | .frcp .. | .frsqrt .. | .fsqrt .. | .fexp2 .. | .flog2 ..
  | .fsin .. | .fcos .. | .cvt .. | .tag .. => { d := .reg, a := .reg }
  | .mad .. | .mac2 .. | .ffma .. | .fdot2 .. => { d := .reg, a := .reg, b := .reg, c := .reg }
  | .rshr _ _ _ sh _ _ nw =>
    { d := .reg, a := .reg, b := match sh with | .reg .. => .reg | .imm _ => .none
      c := if nw.isSome then .reg else .none }
  | .bfi .. => { d := .reg, a := .reg, c := .reg }
  | .cmp _ _ wd .. => { d := if wd.isSome then .reg else .none, a := .reg, b := .reg }
  | .fadd _ _ _ x | .fsub _ _ _ x | .fmul _ _ _ x | .fmin _ _ _ x | .fmax _ _ _ x =>
    { d := .reg, a := .reg, b := fsrcUse x }
  | .pack .. => { d := .reg, a := .reg, b := .num, c := .reg }
  | .unpack .. => { d := .reg, a := .reg, b := .num }
  | .shfl _ md _ _ _ m _ _ => { d := .reg, a := .reg, b := if md = .at then .reg else .none, c := maskUse m }
  | .slide _ _ _ _ nb m _ _ => { d := .reg, a := .reg, b := if nb.isSome then .reg else .none, c := maskUse m }
  | .vote _ op _ m _ => { d := if op.writes then .reg else .none, c := maskUse m }
  | .redux _ _ _ _ m _ _ _ _ => { d := .reg, a := .reg, c := maskUse m }
  | .sel _ _ _ _ _ by' => { d := .reg, a := .reg, b := .reg, c := match by' with | .mask _ => .reg | .pred _ => .none }
  | .ppush .. => { a := .reg, b := .num }
  | .ppop .. => { b := .num }
  | .pmovToPred .. | .jmp .. | .jmpL .. | .jmpf .. | .ldpm .. | .residPrio .. | .residDemote .. | .residDrop .. | .maccTo ..
  | .tlwait .. | .sysw .. => { a := .reg }
  | .iota _ _ b _ => { d := .reg, a := match b with | .imm _ => .none | .reg _ => .reg }
  | .lset _ _ b | .sleep b => { a := match b with | .imm _ => .none | .reg _ => .reg }
  | .bar _ _ b => { a := match b with | .imm _ => .none | .reg _ => .reg }
  | .asset _ _ _ b => { a := match b with | .imm _ => .none | .reg _ => .reg }
  | .ld .. | .ldExt .. | .st .. | .stExt .. | .ldsc .. | .ldscExt .. | .stsc .. | .stscExt .. | .sld .. | .sldExt .. | .sst ..
  | .sstExt .. | .srenew .. | .slife .. => { d := .reg }
  | .amo _ op .. => { d := .reg, c := if op = .cas then .reg else .none }
  | .waitw .. | .pld .. | .pst .. => { d := .reg, c := .reg }
  | .codefetch .. => { d := .num }
  | .residEvict .. | .launch .. => { d := .num, a := .reg }
  | .qpush .. => { a := .reg, b := .num }
  | .qpop .. => { d := .reg, b := .num }
  | .mcfg _ _ m _ => { d := .num, a := maskUse m }
  | .msign .. | .pump .. | .coll .. => { d := .num, a := .reg, b := .reg, c := .reg }
  | .mzero .. => { d := .num }
  | .qnt .. | .dqnt .. => { d := .reg, a := .reg, c := .reg }
  | .gridgrow _ _ n => { d := .reg, a := match n with | .imm _ => .none | .reg _ => .reg }
  | _ => {}

/-- R155: what a `rep` may not repeat: transfers, `rep`, `meld`, `mend`, by opcode and function code. -/
def notRepeatable (ws : List Word) : Bool :=
  match ws with
  | [] => true
  | w :: r =>
    let op := Word.opcode w
    op == 0x48 || (decide (0x50 ≤ op) && decide (op ≤ 0x55)) || op == 0x57 || op == 0x58 || op == 0x5C || op == 0x5D ||
      (op == 0x7E && Word.fld (r.headD 0) 20 6 == 2)

/-- One stepped field: its kind and its number in the words. -/
def stepCheck (regs cnt : Nat) (use : FieldUse) (v : Nat) : Bool :=
  decide (v + cnt - 1 ≤ 63) && (use != .reg || decide (v + cnt - 1 < regs))

/-- R155: the checks of a `rep` after R164's placement: the field exists (0x05), the instruction repeats (0x08), no step
passes its bound (0x0A). A word that decodes to no instruction is left to its own check at repetition 0. -/
def State.ckRep (s : State) (cnt : Nat) (step : BitVec 4) (next : List Word) : Option Stop :=
  let w := next.headD 0
  let x := (next.drop 1).headD 0
  let f : Fields := match decodeWord s.es w x with
    | .ok i => fieldsOf i
    | .error _ => ⟨.num, .num, .num, .num⟩
  let uses := [(step.getLsbD 3, f.d, (Word.fld w 19 6).toNat), (step.getLsbD 2, f.a, (Word.fld w 13 6).toNat),
    (step.getLsbD 1, f.b, (Word.fld w 7 6).toNat), (step.getLsbD 0, f.c, (Word.fld x 26 6).toNat)]
  firstStop [illIf s.issue.last .placement,
    illIf (uses.any fun u => u.1 && u.2.1 == .none) .reserved,
    illIf (notRepeatable next) .placement,
    illIf (uses.any fun u => u.1 && !(stepCheck s.cur.regCount cnt u.2.1 u.2.2)) .range]

/-- rep (R155, R219, R220): the group's next issue is repetition 0, or the next one of its suspended repeat. -/
def execRep (cnt1 : BitVec 6) (step : BitVec 4) (s : State) : Host.Outcome State Fault Refusal :=
  let i := s.issue
  let k := s.cur
  let next := wordsAt i.body (bodyIdx i.hdr i.next)
  let resumes := k.susp && (allLanes.all fun l => !s.executing l || (k.thread l).repMark)
  let start := if resumes then k.repNext.toNat else 0
  s.finish (s.ckRep (cnt1.toNat + 1) step next)
    (s.updCur fun k =>
      { k.updThreads s.executing fun _ t =>
          { t with pc := i.next, clause := some ⟨i.hdr, i.word, i.slot + 1, i.serial, i.body⟩, repMark := false
                   rep := some ⟨cnt1.toNat + 1, step, start, i.pc, i.slot⟩ } with
        susp := if resumes then false else k.susp
        repNext := if resumes then 0 else k.repNext })

/-! ### The loop-nest unit (R214 to R216) -/

/-- A level of the skein. -/
def Skein.level (k : Skein) (n : Nat) : LoopLevel := k.levels.getD n {}

/-- R214: level n begun with a bound, every level above it inactive. -/
def Skein.lset (k : Skein) (n : Nat) (bound : BitVec 32) : Skein :=
  { k with levels := (List.range 4).map fun i =>
      if i = n then ⟨0, bound, true⟩
      else if n < i then { k.level i with counter := 0, active := false }
      else k.level i }

/-- lset (R214). -/
def execLset (g : Guard) (n : BitVec 2) (bound : Src16) (s : State) : Host.Outcome State Fault Refusal :=
  let srcs := match bound with | .imm _ => [] | .reg a => [plain a]
  let v : Option (BitVec 32) := match bound with
    | .imm v => if s.anyPass g then some (v.setWidth 32 + 1) else none
    | .reg a => (s.lowRead g a).map fun x => x.setWidth 32
  s.finish (s.ckOperands srcs [])
    (match v with
     | some b => (s.updCur fun k => k.lset n.toNat b).advance
     | none => s.advance)

/-- R223: the target of a format-B instruction. -/
def State.target (s : State) (off : BitVec 21) : Lane := s.issue.hdr + 4 * off.signExtend 64

/-- R223, R226: a protection trap for an address that is not canonical. -/
def ckCanon (taken : Bool) (a : Lane) : Option Stop :=
  if taken && !canonical a then some (.trap { kind := 4, addr := a }) else none

/-- The highest active level. -/
def Skein.topLevel (k : Skein) : Option Nat := (List.range 4).reverse.find? fun n => (k.level n).active

/-- loop (R215). -/
def execLoop (off : BitVec 21) (s : State) : Host.Outcome State Fault Refusal :=
  match s.cur.topLevel with
  | none => s.finish (firstStop [s.ckRegion, ill .state]) s
  | some n =>
    let c := (s.cur.level n).counter + 1
    let again := decide (c < (s.cur.level n).bound)
    s.finish (firstStop [s.ckRegion, ckCanon again (s.target off)])
      (if again then
        s.updCur fun k => { k.updThreads s.executing fun _ t => t.jump (s.target off) with
          levels := bankUpd 4 {} k.levels n fun x => { x with counter := c } }
       else (s.updCur fun k => { k with levels := bankUpd 4 {} k.levels n fun x => { x with counter := 0, active := false } }).advance)

/-- kget (R216). -/
def execKget (g : Guard) (d : Reg) (n : BitVec 2) (bnd : Bool) (s : State) : Host.Outcome State Fault Refusal :=
  let l := s.cur.level n.toNat
  let v := (if bnd then l.bound else l.counter).toNat
  s.laneOp anyEs [] none
    { pass := s.passing g, dst := some d, tag := .uniform, val := fun _ => splat s.es.w (v % 2 ^ s.es.w) }

/-! ### Address streams (R217, R218) -/

/-- A field of a stream written (R218): the register's lane, or the immediate. -/
def Stream.setField (st : Stream) (field : BitVec 3) (v : Lane) : Stream :=
  let w : BitVec 32 := v.setWidth 32
  match field.toNat with
  | 0 => { st with base := v }
  | 1 => { st with c0 := w }
  | 2 => { st with c1 := w }
  | 3 => { st with c2 := w }
  | 4 => { st with c3 := w }
  | 5 => { st with lane := w }
  | 6 => { st with tag := v.setWidth 2 }
  | _ => {}

/-- asset (R218). -/
def execAsset (g : Guard) (n : BitVec 4) (field : BitVec 3) (src : Src12) (s : State) : Host.Outcome State Fault Refusal :=
  let srcs := match src with
    | .imm _ => []
    | .reg a => if field = 7 then [] else [plain a]
  let v : Option Lane := match src with
    | .imm v => if s.anyPass g then some (v.signExtend 64) else none
    | .reg a => s.lowRead g a
  let bad := match src with
    | .imm v => field == 6 && decide (2 < v.toNat)
    | .reg _ => false
  s.finish (s.ckOperands srcs [] (illIf bad .range))
    (match v with
     | some x => (s.updCur fun k => { k with streams := bankUpd 16 {} k.streams n.toNat fun st => st.setField field x }).advance
     | none => s.advance)

/-- A field of a stream as a 64-bit value (R218). -/
def Stream.field (st : Stream) (field : BitVec 3) : Lane :=
  match field.toNat with
  | 0 => st.base
  | 1 => st.c0.signExtend 64
  | 2 => st.c1.signExtend 64
  | 3 => st.c2.signExtend 64
  | 4 => st.c3.signExtend 64
  | 5 => st.lane.signExtend 64
  | _ => st.tag.setWidth 64

/-- asget (R218). -/
def execAsget (g : Guard) (d : Reg) (n : BitVec 4) (field : BitVec 3) (s : State) : Host.Outcome State Fault Refusal :=
  let v := ((s.cur.streams.getD n.toNat {}).field field).toNat
  s.laneOp anyEs [] (illIf (field == 7) .range)
    { pass := s.passing g, dst := some d, tag := .uniform, val := fun _ => splat s.es.w (v % 2 ^ s.es.w) }

end Sys2Proof.Machine
end

