-- ==== Sys2Proof/Machine/Order.lean ====
section
/-!
DEFINITION. Ordering: what a skein still has outstanding, the completion condition of a fence (R103), the effect of an acquire
(R101), and the clock rates that cycles are counted in (R3, R391).
-/

namespace Sys2Proof.Machine

/-! ### Clocks (R3, R391, R371) -/

/-- The partition a cluster belongs to under the configured mode (R365). -/
def State.partOfCluster (s : State) (c : Nat) : Nat :=
  c / (96 / (match s.record with | some r => max r.mode 1 | none => 1))

/-- The power block of a cluster. -/
def State.powerOf (s : State) (c : Nat) : Power := (s.power.find? fun p => p.cluster == c).getD { cluster := c }
/-- A power block changed. -/
def State.updPower (s : State) (c : Nat) (f : Power → Power) : State :=
  { s with power := putBy (·.cluster) { f (s.powerOf c) with cluster := c } s.power }

/-- The arithmetic clock of a cluster in MHz: code 18 in a protected partition (R392). -/
def State.mhz (s : State) (c : Nat) : Nat :=
  400 + 25 * (if s.protected (s.partOfCluster c) then 18 else (s.powerOf c).freq.toNat)

/-- Ticks that n arithmetic cycles of a cluster take, rounded up (R89). -/
def State.cycleTicks (s : State) (c n : Nat) : Nat := (100 * n + s.mhz c - 1) / s.mhz c

/-! ### Outstanding accesses -/

/-- Reads and returns a value: what `fence` at .sk waits for. -/
def AccKind.reads : AccKind → Bool
  | .load _ | .panelRead | .seepLoad _ | .renew | .life => true
  | _ => false

/-- Writes: what `fence` at .tm waits for. -/
def AccKind.writes : AccKind → Bool
  | .store | .atomic _ | .panelWrite | .seepStore => true
  | _ => false

/-- A peer page. -/
def Place.isPeer : Place → Bool
  | .peer _ => true
  | _ => false

/-- A posted remote store (R111). -/
def Access.posted (a : Access) : Bool := a.kind == .store && a.place.isPeer

/-- The accesses of a skein not yet out of the way. -/
def State.outstanding (s : State) (u : Nat) : List Access := s.accesses.filter fun a => a.sk == u

/-- R103: the completion condition of a fence at a scope (0 .sk, 1 .tm, 2 .dv, 3 .dm, 4 .sy), with every row above it. A load
has returned when its registers have landed. -/
def State.fenceMet (s : State) (k : Skein) (scope : Nat) : Bool :=
  let out := s.outstanding k.uid
  let now := s.nowAt (clusterOf k.core)
  (out.all fun a => !a.kind.reads) && (k.ops.all fun o => !o.load || o.pend.isEmpty || o.await != 0 || o.fail.isSome) &&
    (decide (scope < 1) || out.all fun a => !a.kind.writes || a.posted || a.done) &&
    (decide (scope < 2) || ((out.all fun a => !a.done) && decide (k.wct.getD 1 0 < now))) &&
    (decide (scope < 3) || (k.unacked == 0 && decide (k.wct.getD 2 0 < now)))

/-- R101: an acquire at a scope, performed at a tick: from .dv on, the core's L1 data lines go, and copies filled earlier are
refused. -/
def State.acquire (s : State) (u scope tick : Nat) : State :=
  if scope < 2 then s
  else
    let k := s.sk u
    { s with copies := s.copies.filter fun c => c.l2 || c.place != k.core }.updSk u fun k => { k with acquire := tick }

/-- R102, R113: what a release at a scope meets at issue: a queued fault record traps at .dm and .sy; an unmet condition
holds. -/
def State.ckRelease (s : State) (scope : Nat) : Option Stop :=
  firstStop [if scope < 3 then none else s.cur.remoteTrap, holdIf (!s.fenceMet s.cur scope)]

/-- The largest WCT returned, at a scope (index 0 .tm, 1 .dv, 2 .dm, 3 .sy) and every wider one (R98). -/
def Skein.noteWct (k : Skein) (from' w : Nat) : Skein :=
  { k with wct := (List.range 4).map fun i => if from' ≤ i then max (k.wct.getD i 0) w else k.wct.getD i 0 }

end Sys2Proof.Machine
end

