-- ==== Sys2Proof/Machine/Team.lean ====
section
/-!
DEFINITION. What threads of a team do together: barriers and their release waves (R30 to R35, R287, R288, R396), growing and
shrinking register counts with swap-out (R36 to R39, R292), retiring threads, the end of signing (R264), and the drain of an
exited skein (R40 to R42).
-/

namespace Sys2Proof.Machine

/-! ### Barriers -/

/-- A skein's threads that have not exited. -/
def Skein.live (k : Skein) : List Nat := allLanes.filter fun l => !(k.thread l).exited

/-- The skeins of a team. -/
def State.skeinsOf (s : State) (team : Nat) : List Skein := s.skeins.filter fun k => k.team == team

/-- The skeins of a grid's teams. -/
def State.gridSkeins (s : State) (g : Nat) : List Skein := s.skeins.filter fun k => (s.team k.team).grid == some g

/-- The live threads of a grid (R33). -/
def State.gridLive (s : State) (g : Nat) : Nat := ((s.gridSkeins g).map fun k => k.live.length).sum

/-- The clusters hosting a grid's teams, ascending (R35). -/
def State.gridClusters (s : State) (g : Nat) : List Nat :=
  (List.range Config.clusters).filter fun c => s.teams.any fun t => t.grid == some g && t.resident && clusterOf t.core == c

/-- A cluster's copy of sys.slew (R289). -/
def State.slew (s : State) (c : Nat) : Lane := ((s.slews.find? fun x => x.1 == c).map (·.2)).getD 0x1007

/-- R396: wave size and gap of a cluster. -/
def State.waveShape (s : State) (c : Nat) : Nat × Nat :=
  let v := s.slew c
  let p := s.powerOf c
  (min ((v.extractLsb' 0 6).toNat + 1) (p.waveMax.toNat + 1), max (v.extractLsb' 8 8).toNat p.gapMin.toNat)

/-- The waits of a kind that a skein holds. -/
def Skein.waitsOf (k : Skein) (kind : WaitKind) : List Wait := k.waits.filter fun w => w.kind == kind

/-- R34: the place of a skein in the order of release: the tick of its last arrival, then core, quadrant and slot (log 34). -/
def Skein.arrivedAt (k : Skein) (kind : WaitKind) : Nat :=
  ((((k.waitsOf kind).map (·.tick)).foldl max 0 * 2 ^ 10 + k.core) * 4 + k.quad) * 2 ^ 5 + k.slot.getD 16

/-- Skeins by an order of release. -/
def sortSkeins (kind : WaitKind) : List Skein → List Skein
  | [] => []
  | k :: ks =>
    let r := sortSkeins kind ks
    r.takeWhile (fun x => decide (x.arrivedAt kind < k.arrivedAt kind)) ++ k ::
      r.dropWhile (fun x => decide (x.arrivedAt kind < k.arrivedAt kind))

/-- A generation opens for a skein: its arrivals are spent, and a trapped group whose arrivals stayed counted goes with it
(R341). -/
def Skein.openCounted (k : Skein) (kind : WaitKind) : Skein :=
  let k := { k with counted := k.counted.filter fun x => x.2 != kind }
  match k.handler with
  | some h =>
    if h.counted.map (·.kind) = some kind then { k with handler := some { h with opened := true } } else k
  | none => k

/-- R30, R34, R35: a generation opens: its waiting skeins become releasable, cluster by cluster. -/
def State.openBarrier (s : State) (kind : WaitKind) (ks : List Skein) (clusters : List Nat) : State :=
  let waiting := sortSkeins kind (ks.filter fun k => !(k.waitsOf kind).isEmpty)
  let cs := clusters.filter fun c => waiting.any fun k => clusterOf k.core == c
  let (u, s1) := s.fresh
  { s1 with
    releases := s1.releases ++ [⟨u, kind, waiting.map fun k => (clusterOf k.core, k.uid), cs, [], cs.map fun c => (c, s.waveShape c), 0⟩]
    skeins := s1.skeins.map fun k => if ks.any (fun x => x.uid == k.uid) then k.openCounted kind else k }

/-- Arrivals at a barrier, lane by lane (R30): the barrier, the generation each lane waits for, the generations opened. -/
structure Arrivals where
  bar    : Barrier
  lanes  : List (Nat × Nat) := []
  opened : List Nat := []
deriving DecidableEq, Repr

/-- R30: one thread arrives with a count. -/
def Arrivals.arrive (a : Arrivals) (cnt lane : Nat) : Arrivals :=
  let b := if a.bar.arrived = 0 then { a.bar with expected := cnt } else a.bar
  let lanes := a.lanes ++ [(lane, b.gen)]
  if b.arrived + 1 = b.expected then ⟨⟨b.gen + 1, 0, 0⟩, lanes, a.opened ++ [b.gen]⟩
  else ⟨{ b with arrived := b.arrived + 1 }, lanes, a.opened⟩

/-- The lanes of the issuing group that arrive: the guard passes. -/
def barGuard : Instr → Guard
  | .bar g .. => g
  | _ => .always

/-- The named barrier and the count an instruction carries, read in the lowest arriving lane (R287). -/
def State.barCount (s : State) (g : Guard) (cnt : Src10) : Nat :=
  match cnt with
  | .imm v => v.toNat + 1
  | .reg a => ((s.lowRead g a).getD 0).toNat % 2 ^ 32

/-- R30, R34, R287: the passing threads arrive; each waits for its generation, and generations that fill open. A group inside a region
waits as a whole, for the last of them (R52). -/
def State.barArrive (s : State) (g : Guard) (n cnt : Nat) (i : Instr) : State :=
  let tm := s.team s.cur.team
  let a : Arrivals := (allLanes.filter (s.passing g)).foldl (fun a l => a.arrive cnt l) { bar := tm.barriers.getD n {} }
  let whole := s.inRegion
  let gens := if whole then (a.lanes.map (·.2)).getLast?.toList else (a.lanes.map (·.2)).dedup
  let issue := s.issue
  let s := s.updTeam tm.uid fun t => { t with barriers := listUpd t.barriers n fun _ => a.bar }
  let s := gens.foldl (fun s gen =>
    let m := if whole then issue.mask else laneMask fun l => a.lanes.contains (l, gen)
    { { s with issue := { issue with mask := m } }.beginWait (.bar n gen) i with issue := issue }) s
  let s := s.updCur fun k => { k with counted := k.counted ++ a.lanes.map fun x => (x.1, .bar n x.2) }
  a.opened.foldl (fun s gen =>
    let ks := s.skeinsOf tm.uid
    s.openBarrier (.bar n gen) ks [clusterOf tm.core]) s

/-- R30: the count an opening arrival must carry. -/
def badCount (b : Barrier) (cnt arrivals : Nat) : Bool :=
  (decide (b.arrived = 0) || decide (b.expected < b.arrived + arrivals)) && (cnt == 0 || decide (1024 < cnt))

/-- R287: the failing lanes of a `bar` go on; inside a region, where it blocks the group as a whole, they wait with it (R52). -/
def State.barSplit (s : State) (g : Guard) : State := if s.inRegion && s.anyPass g then s else s.updCur fun k => k.pass s.issue fun l => s.executing l && !s.passing g l

/-- The threads of a `bar` that wait: those whose guard passes (R287), inside a region the whole group (R52). -/
def State.barMask (s : State) (g : Guard) : Mask := if s.inRegion then s.issue.mask else laneMask (s.passing g)

/-- bar (R30, R31, R52, R287): the release at .tm comes first; until it is met the threads that wait do so uncounted (log 72). -/
def execBar (g : Guard) (n : BitVec 5) (cnt : Src10) (s : State) : Host.Outcome State Fault Refusal :=
  let srcs := match cnt with | .imm _ => [] | .reg a => [plain a]
  let tm := s.team s.cur.team
  let b := tm.barriers.getD n.toNat {}
  let c := s.barCount g cnt
  let arriving := (allLanes.filter (s.passing g)).length
  let s1 := s.barSplit g
  s.finish (firstStop [s.ckOperands srcs [] (illIf (decide (tm.barriers.length ≤ n.toNat)) .range),
      illIf (decide (0 < arriving) && badCount b c arriving) .range])
    (if arriving = 0 then s1
     else if s.fenceMet s.cur 1 then s1.barArrive g n.toNat c (.bar g n cnt)
     else { { s1 with issue := { s.issue with mask := s.barMask g } }.beginWait .barPre (.bar g n cnt) with issue := s.issue })

/-- The grid's barrier opens when every live thread has arrived (R33). -/
def State.tryGbar (s : State) (g : Nat) : State :=
  match s.grid? g with
  | none => s
  | some gr =>
    if gr.barArrived = 0 ∨ gr.barArrived < s.gridLive g then s
    else
      let cs := s.gridClusters g
      let r := gr.barGen % max cs.length 1
      let s := s.openBarrier (.gbar gr.barGen) (s.gridSkeins g) (cs.drop r ++ cs.take r)
      s.updGrid g fun x => { x with barGen := x.barGen + 1, barArrived := 0 }

/-- R33: the executing threads arrive at the grid barrier. -/
def State.gbarArrive (s : State) (g : Grid) (i : Instr) : State :=
  (((s.beginWait (.gbar g.barGen) i).updCur fun k =>
      { k with counted := k.counted ++ (allLanes.filter s.executing).map fun l => (l, .gbar g.barGen) }).updGrid g.uid fun x =>
    { x with barArrived := x.barArrived + (allLanes.filter s.executing).length }).tryGbar g.uid

/-- gbar (R33, R288): legal in a cooperative grid, unguarded; the release at .dv comes first. -/
def execGbar (g : Guard) (s : State) : Host.Outcome State Fault Refusal :=
  match s.gridOf (s.team s.cur.team) with
  | none => s.finish (ill .state) s
  | some gr =>
    s.finish (illIf (g != .always || !gr.coop) .state)
      (if s.fenceMet s.cur 2 then s.gbarArrive gr (.gbar g) else s.beginWait .gbarPre (.gbar g))

/-- One arrival fewer at a barrier, while the generation it was counted for is still to open. -/
def State.unarrive (s : State) (k : Skein) : WaitKind → State
  | .bar n gen => s.updTeam k.team fun t =>
      { t with barriers := listUpd t.barriers n fun b => if b.gen = gen then { b with arrived := b.arrived - 1 } else b }
  | .gbar gen =>
    match (s.team k.team).grid with
    | some g => s.updGrid g fun x => if x.barGen = gen then { x with barArrived := x.barArrived - 1 } else x
    | none => s
  | _ => s

/-- R32, R33: the arrivals of some lanes of a skein are counted no longer. -/
def State.uncount (s : State) (u : Nat) (p : Nat × WaitKind → Bool) : State :=
  let k := s.sk u
  ((k.counted.filter p).foldl (fun s x => s.unarrive k x.2) s).updSk u fun k => { k with counted := k.counted.filter fun x => !p x }

/-- The acquire that a release of waiting threads makes: at .dv for `gbar` (R33). -/
def WaitKind.acquires : WaitKind → Nat
  | .gbar _ => 2
  | _ => 1

/-- R34: one skein released: its threads at the barrier go on, with the acquire. -/
def State.releaseSkein (s : State) (kind : WaitKind) (u : Nat) : State :=
  match s.sk? u with
  | none => s
  | some k =>
    if (k.waitsOf kind).isEmpty then s
    else (s.updSk u fun k => (k.waitsOf kind).foldl (fun k w => k.endWait w) k).acquire u kind.acquires s.now

/-- The wave size of a cluster in a release. -/
def Release.size (r : Release) (c : Nat) : Nat := ((r.shape.find? fun x => x.1 == c).map (·.2.1)).getD 1
/-- The gap of a cluster in a release. -/
def Release.gap (r : Release) (c : Nat) : Nat := ((r.shape.find? fun x => x.1 == c).map (·.2.2)).getD 0

/-- R396: the cluster whose next wave may start now: one under way whose gap has passed, else the next cluster of R35, when a cycle
has passed since the first wave of the cluster before. -/
def State.waveReady (s : State) (r : Release) : Option Nat :=
  match r.begun.find? fun b =>
      r.skeins.any (fun x => x.1 == b.1) && decide (b.2.1 + s.cycleTicks b.1 (r.gap b.1 * b.2.2) ≤ s.now) with
  | some b => some b.1
  | none => if r.after < (s.now + 1) * 2 ^ 16 then r.clusters.head? else none

/-- R396: the earliest start, in ticks / 2^16, of the first wave after that of a cluster which starts now. -/
def State.cycleAfter (s : State) (r : Release) (c : Nat) : Nat := max r.after (s.now * 2 ^ 16) + (100 * 2 ^ 16 + s.mhz c - 1) / s.mhz c

/-- A release wave starts in a cluster (R34, R35, R396). -/
def State.wave (s : State) (u : Nat) : State :=
  match s.releases.find? fun r => r.uid == u with
  | none => s
  | some r =>
    match s.waveReady r with
    | none => s
    | some c =>
      let now := ((r.skeins.filter fun x => x.1 == c).take (r.size c)).map (·.2)
      let rest := r.skeins.filter fun x => !(x.1 == c && now.contains x.2)
      let begun := match r.begun.find? fun b => b.1 == c with
        | some b => (c, b.2.1, b.2.2 + 1) :: r.begun.filter fun b => b.1 != c
        | none => r.begun ++ [(c, s.now, 1)]
      let r' := { r with
        skeins := rest, clusters := r.clusters.filter (· != c), begun := begun
        after := if r.clusters.contains c then s.cycleAfter r c else r.after }
      let s := { s with releases := s.releases.flatMap fun x => if x.uid == u then (if rest.isEmpty then [] else [r']) else [x] }
      now.foldl (fun s k => s.releaseSkein r.kind k) s

/-- BARRIER_WAVE. -/
def execBarrierWave (release : Nat) (s : State) : Host.Outcome State Fault Refusal := .next (s.wave release)

/-! ### Growing and shrinking (R36 to R39, R292) -/

/-- A register that `grow` adds or a new skein starts with: zero, uniform (R36, R37). -/
def freshReg : VReg := {}

/-- Free register storage of a quadrant in bytes (R20, R37). -/
def State.quadFree (s : State) (core quad : Nat) : Nat :=
  Config.quadRegBytes - ((s.skeins.filter fun k => k.slot.isSome && k.core == core && k.quad == quad).map fun k =>
    256 * k.regCount).sum

/-- The slots of a quadrant that are free, lowest first (R306). -/
def State.freeSlots (s : State) (core quad : Nat) : List Nat :=
  (List.range 16).filter fun n => !(s.skeins.any fun k => k.slot == some n && k.core == core && k.quad == quad)

/-- The wait of a skein in `grow`. -/
def Skein.growing (k : Skein) : Option Wait := k.waits.find? fun w => w.kind == .grow

/-- R37: eight registers more. -/
def Skein.grown (k : Skein) : Skein :=
  { k with
    regCount := k.regCount + 8
    regs := (List.range 64).map fun r => if k.regCount ≤ r ∧ r < k.regCount + 8 then freshReg else k.reg r }

/-- R37 to R39: a waiting grow could use the storage that its quadrant has free: 2,048 bytes, or for a skein that is swapped out a slot
and its whole storage. -/
def State.growFits (s : State) (k : Skein) : Bool :=
  k.growing.isSome && (if k.slot.isSome then decide (2048 ≤ s.quadFree k.core k.quad)
    else decide (256 * (k.regCount + 8) ≤ s.quadFree k.core k.quad) && !(s.freeSlots k.core k.quad).isEmpty)

/-- R38: an older skein of the quadrant waits in `grow` and could use what is free. -/
def State.olderGrows (s : State) (k : Skein) : Bool :=
  s.skeins.any fun x => x.core == k.core && x.quad == k.quad && s.growFits x && decide (s.rank x < s.rank k)

/-- R38: the storage of a quadrant goes to its oldest waiting grow. -/
def State.grantGrow (s : State) (core quad : Nat) : State :=
  if s.quadFree core quad < 2048 then s
  else
    match minBy s.rank (s.skeins.filter fun k => k.slot.isSome && k.core == core && k.quad == quad && k.growing.isSome) with
    | none => s
    | some k =>
      if s.olderGrows k then s else
      match k.growing with
      | none => s
      | some w => s.updSk k.uid fun k => (k.endWait w).grown

/-- R25: the age of a skein resident since a tick: the tick, then launch order, team index and skein index. -/
def ageOf (now order team sk : Nat) : Nat := now * 2 ^ 61 + (order * 2 ^ 24 + team) * 2 ^ 5 + sk
/-- An age from a new tick on. -/
def ageAt (now age : Nat) : Nat := now * 2 ^ 61 + age % 2 ^ 61

/-- The eight registers a `shrink` removes. -/
def Skein.topRegs (k : Skein) : List Nat := (List.range 8).map fun i => k.regCount - 8 + i

/-- R37, R267: none of the eight is pending or held. -/
def Skein.canShrink (k : Skein) : Bool := k.topRegs.all fun r => (k.pendingBy r).isNone && (k.heldBy r).isNone

/-- R37: eight registers fewer; their contents are gone. -/
def Skein.shrunk (k : Skein) : Skein :=
  { k with
    regCount := k.regCount - 8
    regs := (List.range 64).map fun r => if k.regCount - 8 ≤ r then freshReg else k.reg r }

/-- shrink (R37, R52, R292). -/
def execShrink (s : State) : Host.Outcome State Fault Refusal :=
  s.finish (firstStop [s.ckRegion, illIf (s.cur.regCount == 16) .state])
    (if s.cur.canShrink then (s.updCur Skein.shrunk).advance else s.beginWait .shrink .shrink)

/-! ### The end of signing (R264) -/

/-- A waiting `shrink` ends as soon as none of its registers is pending or held (R37, R267); at 16 registers it goes back to
its instruction, which traps. -/
def Skein.tryShrink (k : Skein) : Skein :=
  (k.waits.filter fun w => w.kind == .shrink).foldl (fun k w =>
    if k.regCount = 16 then k.dropWait w.id else if k.canShrink then (k.endWait w).shrunk else k) k

/-- The long operation of a matrix operation gone: both counts fall, nothing is held (R264, R266). -/
def Skein.endMatrix (k : Skein) (op : Nat) : Skein :=
  match k.ops.find? fun o => o.id == op with
  | some o => { k with ops := k.ops.filter fun o => o.id != op, flags := decFlag (decFlag k.flags o.setA) o.setB }.tryShrink
  | none => k

/-- Accumulators no longer pending because of an operation (R259). -/
def State.freeAccs (s : State) (op : Nat) : State :=
  { s with accs := s.accs.map fun a => { a with pending := a.pending.filter (· != op) } }

/-- The register of a convergence state. -/
def Team.cvAt (t : Team) (n : Nat) : Cv := t.cv.getD n {}
/-- A convergence register changed. -/
def State.updCv (s : State) (team n : Nat) (f : Cv → Cv) : State := s.updTeam team fun t => { t with cv := bankUpd 8 {} t.cv n f }

/-- A matrix operation ends: its signers' registers and its accumulators are released (R264, R266). -/
def State.endOp (s : State) (team n : Nat) (fail : Bool) : State :=
  let cv := (s.team team).cvAt n
  let s := cv.signs.foldl (fun s g => s.updSk g.sk fun k => k.endMatrix g.op) s
  let s := { s with mats := s.mats.filter fun m => !(m.team == team && m.cv == n) }
  (s.updCv team n fun c => { c with state := 0, fail := fail, unsigned := [], signed := [], signs := [] }).freeAccs cv.uid

/-- Fields of `mcfg`'s extension word kept in a convergence register (R260, R261). -/
def declAcc (d : BitVec 20) : Nat := (d.extractLsb' 16 2).toNat
/-- Passes of the operation. -/
def declPasses (d : BitVec 20) : Nat := (d.extractLsb' 13 3).toNat + 1
/-- Its priority. -/
def declPrio (d : BitVec 20) : Nat := (d.extractLsb' 11 2).toNat

/-- R265: a free entry of a core's table goes to the operation that has waited longest since its signing ended; among entries,
`order` is the order of entering. -/
def State.fillTable (s : State) (core : Nat) : State :=
  let used := (s.mats.filter fun m => m.core == core && m.inTable).length
  if 8 ≤ used then s
  else
    match minBy (·.order) (s.mats.filter fun m => m.core == core && !m.inTable) with
    | none => s
    | some m =>
      let (o, s) := s.fresh
      { s with mats := s.mats.map fun x => if x == m then { x with inTable := true, order := o } else x }

/-- R265: a core's table takes as many waiting operations as it has room for. -/
def State.fillCore (s : State) (core : Nat) : State := (List.range 8).foldl (fun s _ => s.fillTable core) s

/-- R264: when no thread of the signer set is waiting any longer, signing ends. -/
def State.endSigning (s : State) (team n : Nat) : State :=
  let tm := s.team team
  let cv := tm.cvAt n
  if cv.state != 1 || !cv.unsigned.isEmpty then s
  else if cv.signs.length = 4 then
    let (o, s1) := s.fresh
    let e : MatEntry := ⟨tm.core, team, n, tm.ctx, declPrio cv.decl, declAcc cv.decl, cv.uid, o, false, false, 0⟩
    ({ s1 with mats := s1.mats ++ [e] }.updCv team n fun c => { c with state := 2 }).fillTable tm.core
  else s.endOp team n true

/-! ### Retiring threads (R40, R11, R33, R264, R351) -/

/-- R351: a handler ends when every trapped thread has exited. -/
def Skein.handlerGone (k : Skein) : Skein :=
  match k.handler with
  | some h => if allLanes.all fun l => !h.lanes.getLsbD l || (k.thread l).exited then k.resume h else k
  | none => k

/-- The signer leaves the sets of its team (R264). -/
def State.leaveSigners (s : State) (u : Nat) : State :=
  let k := s.sk u
  (List.range 8).foldl (fun s n =>
    (s.updCv k.team n fun c => { c with unsigned := c.unsigned.filter fun x => !(x.1 == u && (k.thread x.2).exited) }).endSigning k.team n) s

/-- What follows once threads of a skein have exited: a member that exits is waited for no longer (R56). -/
def State.afterExit (s : State) (u : Nat) : State :=
  let s := ((s.updSk u Skein.handlerGone).trySyncs u).leaveSigners u
  match (s.team (s.sk u).team).grid with
  | some g => s.tryGbar g
  | none => s

/-- R40: threads of a skein retire. -/
def State.retire (s : State) (u : Nat) (p : Nat → Bool) : State :=
  ((s.uncount u fun x => p x.1).updSk u fun k => k.updThreads p fun _ t =>
    { t with exited := true, clause := none, rep := none, repMark := false, region := none, waiting := none }).afterExit u

/-- R11: the team's leader: the live thread of lowest index, as skein and lane. -/
def State.leader (s : State) (team : Nat) : Option (Nat × Nat) :=
  match minBy (·.index) ((s.skeinsOf team).filter fun k => !k.live.isEmpty) with
  | none => none
  | some k => k.live.head?.map fun l => (k.uid, l)

/-! ### Settling waits -/

/-- Condition and effect of the waits that end inside other steps: `shrink` (R37), `exit` (R40), and a synchronising instruction whose
last register has landed (R200). -/
def State.settleWait (s : State) (u : Nat) (w : Wait) : State :=
  let k := s.sk u
  match w.kind with
  | .shrink => s.updSk u Skein.tryShrink
  | .sync _ => s.trySync u w.id
  | .exit =>
    if !k.faultQ.isEmpty then s.updSk u fun k => k.dropWait w.id
    else if k.unacked = 0 then
      let p := k.inWait w.id
      (s.updSk u fun k => { k with waits := k.waits.filter fun x => x.id != w.id }).retire u p
    else s
  | _ => s

/-- Every wait of a skein tried once. -/
def State.settle (s : State) (u : Nat) : State := (s.sk u).waits.foldl (fun s w => s.settleWait u w) s

/-! ### Drain and team exit (R41, R42) -/

/-- R41, R115, R267: nothing is still to land in a skein's registers. -/
def State.drained (s : State) (k : Skein) : Bool :=
  k.live.isEmpty && k.handler.isNone && (k.ops.all fun o => o.fail.isSome) &&
    (s.outstanding k.uid).all fun a => !a.kind.reads && a.op.isNone

/-- R42, R279: a team exits: its pump, sluice and code-fetch operations are cancelled, its storage is free. -/
def State.teamExit (s : State) (team : Nat) : State :=
  let core := (s.team team).core
  State.fillCore (core := core) { s with
    teams := s.teams.filter fun t => t.uid != team
    accs := s.accs.map fun a => if a.owner == some team then { a with owner := none, pending := [] } else a
    mats := s.mats.filter fun m => m.team != team
    ops := s.ops.map fun o =>
      match o.kind with
      | .evict | .launch => o
      | _ => if o.team == team && !o.done then o.withdraw else o }

/-- A context that ends: its heat entries and altered blocks are gone (R330), and no line that has left a cache is remembered (log 91). -/
def State.dropAlter (s : State) (c : Nat) : State :=
  { s with
    heats := s.heats.filter fun h => h.ctx != c
    altered := s.altered.filter fun a => a.ctx != c
    ilines := s.ilines.filter fun i => !(i.gone && i.ctx == c) }

/-- R343: a context whose conductor and grids are gone is stopped. -/
def State.tryIdle (s : State) (c : Nat) : State :=
  if (s.ctx c).state == .running && (s.ctx c).conductor.isNone && !(s.skeins.any fun k => k.ctx == c) && !(s.grids.any fun g => g.ctx == c) then
    (((s.dropAlter c).setState c .stopped).ctxEvent c 0x26).signalCtx c
  else s

/-- SKEIN_SLOT_RELEASE (R41, R42). -/
def execSkeinSlotRelease (sk : Nat) (s : State) : Host.Outcome State Fault Refusal :=
  match s.sk? sk with
  | none => .next s
  | some k =>
    if !s.drained k then .next s
    else
      let s := { s with skeins := s.skeins.filter fun x => x.uid != sk }
      let s := match (s.team k.team).grid with
        | some g => s.updGrid g fun x => { x with wct := max x.wct (k.wct.foldl max 0) }
        | none => s
      let s := if k.conductor then s.updCtx k.ctx fun c => { c with conductor := none } else s
      .next ((if (s.skeinsOf k.team).isEmpty then s.teamExit k.team else s).tryIdle k.ctx)

end Sys2Proof.Machine
end

