-- ==== Sys2Proof/Machine/Control.lean ====
section
/-!
DEFINITION. Control instructions (R221 to R238): transfers, calls, the fenced jump, exit, yield, melded regions, profiling
regions, deliberate traps, sleep, instruction prefetch; and the steps that wake a sleeper and detect a member deadlock (R59).
-/

namespace Sys2Proof.Machine

/-! ### Transfers (R222 to R228) -/

/-- R226, R227: the first taking thread whose address is not a multiple of 4. R348 lists no access kind for a transfer: the field stays 0
here and in `State.ckTargets` (DESIGN CHOICE, log 37). -/
def State.ckAligned (s : State) (g : Guard) (tgt : Nat → Lane) : Option Stop :=
  (lowest fun l => s.passing g l && (tgt l).extractLsb' 0 2 != 0).map fun l => .trap { kind := 5, addr := tgt l }

/-- R223, R226: the first taking thread whose address is not canonical. The access kind of its trap stays 0 (DESIGN CHOICE, log 37). -/
def State.ckTargets (s : State) (g : Guard) (tgt : Nat → Lane) : Option Stop :=
  (lowest fun l => s.passing g l && !canonical (tgt l)).map fun l => .trap { kind := 4, addr := tgt l }

/-- R222: passing threads move, the link register set first when asked; the others fall through. -/
def State.move (s : State) (g : Guard) (link : Bool) (tgt : Nat → Lane) : State :=
  s.updCur fun k => k.updThreads s.executing fun l t =>
    if guardPasses g t then { t with link := if link then s.issue.follow else t.link }.jump (tgt l)
    else s.issue.past t

/-- A transfer: placement, region, operands, the checks of its own, addresses, then the move (R221, R222). -/
def State.transfer (s : State) (g : Guard) (srcs : List SrcReg) (extra late : Option Stop) (link : Bool) (tgt : Nat → Lane) :
    Host.Outcome State Fault Refusal :=
  s.finish (firstStop [s.ckLast, s.ckRegion, s.ckOperands srcs [] extra, late, s.ckAligned g tgt, s.ckTargets g tgt])
    (s.move g link tgt)

/-- br (R224). -/
def execBr (g : Guard) (off : BitVec 21) (s : State) := s.transfer g [] none none false fun _ => s.target off
/-- call (R226). -/
def execCall (g : Guard) (off : BitVec 21) (s : State) := s.transfer g [] none none true fun _ => s.target off
/-- ret (R226). -/
def execRet (g : Guard) (s : State) := s.transfer g [] none none false fun l => (s.cur.thread l).link
/-- jmp (R227). -/
def execJmp (g : Guard) (a : Reg) (s : State) := s.transfer g [plain a] none none false (s.cur.read a)
/-- jmp.l (R227). -/
def execJmpL (g : Guard) (a : Reg) (s : State) := s.transfer g [plain a] none none true (s.cur.read a)

/-! ### Handle registers (R277) -/

/-- A handle register. -/
def Skein.handle (k : Skein) (n : Nat) : Lane := k.hd.getD n 0
/-- Its pending bit. -/
def hdPending (h : Lane) : Bool := h.getLsbD 63
/-- Its timeline. -/
def hdTl (h : Lane) : Nat := (h.extractLsb' 56 3).toNat
/-- Its status. -/
def hdStatus (h : Lane) : Byte := h.extractLsb' 48 8
/-- No operation was ever assigned to it (R278). -/
def hdEmpty (h : Lane) : Bool := !hdPending h && hdStatus h == 0xFF

/-- The operation a handle register of the skein names. -/
def State.hdOpOf (s : State) (k : Skein) (n : Nat) : Option EngineOp := (k.hdOp.getD n none).bind s.op?

/-! ### The fenced jump (R228) -/

/-- R228: the acquire for instruction fetch: older copies of the fetched range are not used again. -/
def State.acquireCode (s : State) (k : Skein) (n : Nat) : State :=
  match s.hdOpOf k n with
  | none => s
  | some o => { s with ilines := s.ilines.filter fun i =>
      !(i.core == k.core && i.ctx == k.ctx && decide (o.first ≤ i.line) && decide (i.line < o.first + o.count)) }

/-- jmpf, jmpf.l (R228). -/
def execJmpf (g : Guard) (a : Reg) (l : Bool) (n : BitVec 3) (s : State) : Host.Outcome State Fault Refusal :=
  let k := s.cur
  let h := k.handle n.toNat
  let landed := !hdPending h && hdStatus h == 0
  let late := if s.anyPass g && !landed then
      some (.trap { kind := 9, aux := (hdStatus h).setWidth 64, code := hdStatus h }) else none
  s.finish (firstStop [s.ckLast, s.ckRegion, s.ckOperands [plain a] [] (illIf (hdEmpty h || hdTl h != 5) .state), late,
      s.ckAligned g (k.read a), s.ckTargets g (k.read a)])
    (if s.anyPass g then (s.acquireCode k n.toNat).move g l (k.read a) else s.advance)

/-! ### Exit and yield -/

/-- R40: the passing threads are the last live ones of the skein. -/
def State.lastLive (s : State) (g : Guard) : Bool := s.cur.live.all (s.passing g)

/-- exit (R229, R40, R113): the last live threads first wait for acknowledgements. -/
def execExit (g : Guard) (s : State) : Host.Outcome State Fault Refusal :=
  let k := s.cur
  let last := s.anyPass g && s.lastLive g
  let p := s.passing g
  s.finish (firstStop [s.ckLast, s.ckRegion, if last then k.remoteTrap else none])
    (if last && k.unacked != 0 then
      { { s with issue := { s.issue with mask := laneMask p } }.beginWait .exit (.exit g) with issue := s.issue }
     else (s.updCur fun k => k.pass s.issue fun l => s.executing l && !p l).retire k.uid p)

/-- yield (R230, R28). -/
def execYield (s : State) : Host.Outcome State Fault Refusal :=
  .next (s.updCur fun k => k.updThreads s.executing fun _ t => { t with yielded := true }).advance

/-! ### Melded regions (R48 to R54, R231 to R233) -/

/-- R48: the path of a thread. -/
def meldPath (p4 : Bool) (da db : Nat) (t : Thread) : BitVec 2 :=
  (if t.predAt da then 0 else 1) + (if p4 && !t.predAt db then 2 else 0)

/-- meld, meld.4 (R48, R231). -/
def execMeld (g : Guard) (p4 : Bool) (db da : BitVec 3) (s : State) : Host.Outcome State Fault Refusal :=
  s.finish (firstStop [s.ckRegion, illIf (g != .always || s.cur.regCount < 64) .state])
    (s.updCur fun k => k.updThreads s.executing fun _ t => { t with region := some (meldPath p4 da.toNat db.toNat t) }).advance

/-- mend (R53, R232). -/
def execMend (g : Guard) (s : State) : Host.Outcome State Fault Refusal :=
  let outside := allLanes.any fun l => s.executing l && (s.cur.thread l).region.isNone
  s.finish (firstStop [illIf outside .inRegion, illIf (g != .always) .state])
    (s.updCur fun k => k.updThreads s.executing fun _ t => { t with region := none }).advance

/-- ldpm (R50, R233). -/
def execLdpm (g : Guard) (n : BitVec 2) (a : Reg) (s : State) : Host.Outcome State Fault Refusal :=
  let v := s.lowRead g a
  let bad := match v with | some x => x.extractLsb' 48 16 != 0 | none => false
  s.finish (firstStop [s.ckRegion, s.ckOperands [plain a] [], illIf bad .range])
    (match v with
     | some x => (s.updCur fun k => { k with pm := bankUpd 4 0 k.pm n.toNat fun _ => x }).advance
     | none => s.advance)

/-! ### Profiling regions (R234, R235, R400) -/

/-- R400: a stop is armed for an identifier at a tick: what was written acts from the next tick on. -/
def Debug.armed (d : Debug) (now : Nat) (id : BitVec 16) : Bool :=
  let (en, ids) := if d.stopsAt < now then (d.stopEn, d.stopId) else d.stopsWere
  (List.range 4).any fun i => en.getLsbD i && ids.extractLsb' (16 * i) 16 == id

/-- An edge of a profiling region once it has taken effect: its trace record, and the stop when one is armed. -/
def State.regionEdge (s : State) (id : BitVec 16) (leaving na : Bool) : State :=
  let k := s.cur
  let s := s.trace k 0x31 s.issue.pc (toBytes 2 id.toNat ++ [if leaving then 1 else 0, if na then 1 else 0])
  if (s.debugOf k.ctx).armed s.now id then s.takeTrap { kind := 0x0E, aux := id.setWidth 64, res := 1 } else s.advance

/-- enter, enter.na (R234). -/
def execEnter (na : Bool) (id : BitVec 16) (s : State) : Host.Outcome State Fault Refusal :=
  s.finish (illIf (decide (16 ≤ s.cur.regions.length)) .state)
    ((s.updCur fun k => { k with regions := k.regions ++ [⟨id, na⟩] }).regionEdge id false na)

/-- leave (R234). -/
def execLeave (s : State) : Host.Outcome State Fault Refusal :=
  match s.cur.regions.getLast? with
  | none => s.finish (ill .state) s
  | some e => .next ((s.updCur fun k => { k with regions := k.regions.dropLast }).regionEdge e.id true e.na)

/-! ### Deliberate traps (R236) -/

/-- R236: taken by every executing thread when one passes its guard. -/
def State.deliberate (s : State) (g : Guard) (kind : Byte) (aux : Lane) : Host.Outcome State Fault Refusal :=
  s.finish s.ckLast
    (if s.anyPass g then s.takeTrap { kind := kind, aux := aux, res := 2, lanes := some (laneMask (s.passing g)) } else s.advance)

/-- trap (R236). -/
def execTrap (g : Guard) (code : BitVec 16) (s : State) := s.deliberate g 0x0C (code.setWidth 64)
/-- brk (R236). -/
def execBrk (g : Guard) (s : State) := s.deliberate g 0x0D 0

/-! ### Sleep and prefetch (R237, R238) -/

/-- The amount an operand gives: an immediate count minus one, or bits 31:0 of the lowest executing lane. -/
def State.amount16 (s : State) (src : Src16) : Nat :=
  match src with
  | .imm v => v.toNat + 1
  | .reg a => ((s.lowRead .always a).getD 0).toNat % 2 ^ 32

/-- The register of an amount. -/
def src16Regs : Src16 → List SrcReg
  | .imm _ => []
  | .reg a => [plain a]

/-- sleep (R237). -/
def execSleep (src : Src16) (s : State) : Host.Outcome State Fault Refusal :=
  let n := s.amount16 src
  s.finish (s.ckOperands (src16Regs src) [])
    (if n = 0 then s.advance else s.beginWait (.sleep (s.nowAt (clusterOf s.cur.core) + n)) (.sleep src))

/-- SLEEP_WAKE (R237). -/
def execSleepWake (sk wait : Nat) (s : State) : Host.Outcome State Fault Refusal :=
  let k := s.sk sk
  match k.wait? wait with
  | some w =>
    match w.kind with
    | .sleep wake =>
      .next (if wake ≤ s.nowAt (clusterOf k.core) then s.updSk sk fun k => { k.endWait w with idle := 0, idleAt := s.now } else s)
    | _ => .next s
  | none => .next s

/-- ipref (R238). -/
def execIpref (off : BitVec 21) (s : State) : Host.Outcome State Fault Refusal :=
  let k := s.cur
  let a := s.target off
  let here := (s.iline? k.core none k.ctx (lineOf a)).isSome ||
    s.ireqs.any fun r => r.core == k.core && r.ctx == k.ctx && r.line == lineOf a
  match s.fetchable k.ctx a with
  | (s, some _) => .next (if here then s else s.wantLine k.core k.ctx (lineOf a) none none).advance
  | (s, none) => .next s.advance

/-! ### Member deadlock (R59) -/

/-- The wait of a thread, when it stands in a synchronising instruction. -/
def Skein.syncWaitOf (k : Skein) (l : Nat) : Option Wait :=
  (k.thread l).waiting.bind fun id => (k.wait? id).filter fun w => match w.kind with | .sync _ => true | _ => false

/-- R59: nothing can move. -/
def State.deadlocked (s : State) (k : Skein) : Bool :=
  (k.live.all fun l => (k.syncWaitOf l).isSome || ((k.thread l).waiting.isNone && s.heldBack k l)) &&
    (k.live.any fun l => (k.syncWaitOf l).isSome) &&
    (k.live.all fun l => match k.syncWaitOf l with | some w => !k.allThere w | none => true)

/-- MEMBER_DEADLOCK (R59): the trap at the waiting group of lowest PC, of two with different masks there the one of the lowest
lane (DESIGN CHOICE, log 71); every waiting thread stands at its instruction. -/
def execMemberDeadlock (sk : Nat) (s : State) : Host.Outcome State Fault Refusal :=
  let k := s.sk sk
  if !s.deadlocked k then .next s
  else
    match minBy (fun w => w.issue.pc.toNat) (k.live.filterMap k.syncWaitOf) with
    | none => .next s
    | some w =>
      let waiting := laneMask fun l => !(k.thread l).exited && (k.syncWaitOf l).isSome
      let m := match w.kind with | .sync m => m | _ => 0
      let mine := laneMask (k.inWait w.id)
      let ids := (k.live.filterMap k.syncWaitOf).map (·.id)
      let s := s.updSk sk fun k => ids.foldl (fun k i => k.dropWait i) k
      .next ({ s with issue := { w.issue with sk := sk, mask := mine } }.takeTrap { kind := 8, aux := m.setWidth 64, lanes := some waiting })

end Sys2Proof.Machine
end

