-- ==== Sys2Proof/Machine/SaveImage.lean ====
section
/-!
DEFINITION. The bytes of save images (R39, R93, R311, R356 to R359, R368, R376): the slots of records, what each record holds,
and how a record is read back. The spec fixes sizes, contents, the register directory and data, and the trailer; the offsets of
fields inside a fixed part are the model's (log 9).
-/

namespace Sys2Proof.Machine

/-! ### Byte fields -/

/-- Fields of given lengths laid one after another. -/
def layFields (fs : List (Nat × Nat)) : List Byte := fs.flatMap fun x => toBytes x.1 x.2

/-- Bytes filled up with zeros. -/
def padTo (n : Nat) (bs : List Byte) : List Byte := (bs ++ List.replicate (n - bs.length) 0).take n

/-- The number in n bytes from an offset. -/
def fieldAt (bs : List Byte) (off n : Nat) : Nat := ofBytes ((bs.drop off).take n)

/-- The 64-bit word at an offset. -/
def laneAt (bs : List Byte) (off : Nat) : Lane := BitVec.ofNat 64 (fieldAt bs off 8)

/-- A field of a record, given the bytes that were written: while its bytes say what they said then, it holds what the device has kept of
it, with what has arrived since (R39, R114); bytes that an edit has changed say it anew (R358). -/
def edited {α : Type} [DecidableEq α] (g : List Byte → α) (old bs : List Byte) (live : α) : α := if g old = g bs then live else g bs

/-! ### The skein record: its fixed part (R356) -/

/-- The region state of a thread in four bits: bit 2 inside, bits 1:0 the path. -/
def regionCode : Region → Nat
  | none => 0
  | some p => 4 + p.toNat

/-- A region state from its code. -/
def regionOf (n : Nat) : Region := if n / 4 % 2 = 1 then some (BitVec.ofNat 2 n) else none

/-- Status bits of a thread: exited, yield mark, repeat mark, region state. -/
def Thread.status (t : Thread) : Nat :=
  (if t.exited then 1 else 0) + (if t.yielded then 2 else 0) + (if t.repMark then 4 else 0) + 8 * regionCode t.region

/-- R376: the PC an image records for a thread: a sleeping thread's stands after its `sleep`. -/
def Skein.savedPc (k : Skein) (l : Nat) : Lane :=
  let t := k.thread l
  match k.waits.find? fun w => t.waiting == some w.id with
  | some w => match w.kind with | .sleep _ => (w.issue.past t).pc | _ => t.pc
  | none => t.pc

/-- The wake tick of a thread that sleeps (R237). -/
def Skein.wakeTick (k : Skein) (l : Nat) : Nat :=
  match k.waits.find? fun w => (k.thread l).waiting == some w.id with
  | some w => match w.kind with | .sleep n => n | _ => 0
  | none => 0

/-- Bytes of one loop level. -/
def LoopLevel.bytes (v : LoopLevel) : List Byte :=
  layFields [(4, v.counter.toNat), (4, v.bound.toNat), (4, if v.active then 1 else 0)]

/-- Bytes of one stream. -/
def Stream.bytes (v : Stream) : List Byte :=
  layFields [(8, v.base.toNat), (4, v.tag.toNat), (4, v.c0.toNat), (4, v.c1.toNat), (4, v.c2.toNat), (4, v.c3.toNat), (4, v.lane.toNat)]

/-- Bytes of one fault record. -/
def FaultRec.bytes (f : FaultRec) : List Byte := layFields [(4, f.lane), (4, f.code.toNat), (8, f.pc.toNat), (8, f.addr.toNat)]

/-- Bytes of the hidden trap state (R350). -/
def hiddenBytes : Option Hidden → List Byte
  | none => []
  | some h => layFields ([(4, 1), (4, h.lanes.toNat), (4, (if h.susp then 64 else 0) + h.nextIdx.toNat), (4, if h.pcSet then 1 else 0)] ++
      allLanes.map fun l => (1, (h.threads.getD l {}).status))

/-- R356: the 2,048 bytes of a skein's fixed part. -/
def Skein.fixed (k : Skein) : List Byte :=
  padTo 2048 <|
    allLanes.flatMap (fun l => toBytes 8 (k.savedPc l).toNat) ++
    allLanes.flatMap (fun l => toBytes 8 (k.thread l).link.toNat) ++
    allLanes.flatMap (fun l => layFields [(1, (k.thread l).pred.toNat), (1, (k.thread l).status), (1, (k.thread l).starve), (1, (k.thread l).sticky.toNat)]) ++
    (List.range 4).flatMap (fun i => (k.levels.getD i {}).bytes) ++
    (List.range 16).flatMap (fun i => (k.streams.getD i {}).bytes) ++
    (List.range 8).flatMap (fun i => toBytes 8 (k.hd.getD i 0).toNat) ++
    (List.range 12).map (fun i => BitVec.ofNat 8 (k.flags.getD i 0)) ++
    toBytes 4 ((if k.susp then 64 else 0) + k.repNext.toNat) ++
    (List.range 4).flatMap (fun i => toBytes 8 (k.pm.getD i 0).toNat) ++
    padTo 52 (toBytes 4 k.regions.length ++ k.regions.flatMap fun r => layFields [(2, r.id.toNat), (1, if r.na then 1 else 0)]) ++
    layFields [(2, k.regCount), (2, if k.waits.any fun w => w.kind == .grow then 1 else 0)] ++
    (List.range 4).flatMap (fun i => toBytes 8 (k.wct.getD i 0)) ++
    layFields [(4, k.unacked), (4, k.faultQ.length)] ++ padTo 192 (k.faultQ.flatMap FaultRec.bytes) ++
    layFields [(8, k.flt.toNat), (8, k.fltpc.toNat), (8, k.fltaddr.toNat), (8, k.fltlanes.toNat), (8, k.fltaux.toNat)] ++
    padTo 48 (hiddenBytes k.handler) ++
    allLanes.flatMap fun l => toBytes 8 (k.wakeTick l)

/-- Offsets of the fixed part's fields. -/
structure SkeinAt where
  links  : Nat := 256
  lanes  : Nat := 512
  levels : Nat := 640
  streams : Nat := 688
  hd     : Nat := 1200
  flags  : Nat := 1264
  rep    : Nat := 1276
  pm     : Nat := 1280
  regions : Nat := 1312
  count  : Nat := 1364
  wct    : Nat := 1368
  unacked : Nat := 1400
  faults : Nat := 1408
  flt    : Nat := 1600
  hidden : Nat := 1640
  wake   : Nat := 1688
deriving DecidableEq, Repr

/-- The one layout. -/
def skeinAt : SkeinAt := {}

/-! ### Register directory and data (R311, R357) -/

/-- R357: the directory byte of a register. -/
def Skein.dirByte (k : Skein) (r : Nat) : Byte :=
  let v := k.reg r
  let tag : BitVec 4 := if k.regCount ≤ r then 3 else
    match v.tag with
    | .general => 0
    | .uniform => 1
    | .affine _ _ e => 2 ||| ((Es.bits e).setWidth 4 <<< 2)
  0#2 ++ bit1 (k.heldBy r).isSome ++ bit1 (k.pendingBy r).isSome ++ tag

/-- R357: the data of a register: 8 bytes uniform, 16 affine, 256 general, none when absent. -/
def Skein.dataBytes (k : Skein) (r : Nat) : List Byte :=
  if k.regCount ≤ r then []
  else
    match (k.reg r).tag with
    | .uniform => toBytes 8 (k.lane r 0).toNat
    | .affine b st _ => toBytes 8 b.toNat ++ toBytes 8 st.toNat
    | .general => allLanes.flatMap fun l => toBytes 8 (k.lane r l).toNat

/-- R357: bytes of data a directory byte announces. -/
def dataLen (d : Byte) : Nat :=
  match (d.extractLsb' 0 2).toNat with
  | 0 => 256
  | 1 => 8
  | 2 => 16
  | _ => 0

/-- R167: the lanes of an affine register. -/
def affineLane (b st : Lane) (e : Es) (l : Nat) : Lane :=
  packLane e.w ((subs e.w b).zipWith (fun x y => wrap e.w (x + l * y)) (subs e.w st))

/-- A register read back from its directory byte and its data (R357). -/
def readReg (d : Byte) (bs : List Byte) (old : VReg) : VReg :=
  match (d.extractLsb' 0 2).toNat with
  | 0 => { old with lanes := allLanes.map fun l => laneAt bs (8 * l), tag := .general }
  | 1 => { old with lanes := List.replicate 32 (laneAt bs 0), tag := .uniform }
  | 2 =>
    let e := Es.ofBits (d.extractLsb' 2 2)
    { old with lanes := allLanes.map (affineLane (laneAt bs 0) (laneAt bs 8) e), tag := .affine (laneAt bs 0) (laneAt bs 8) e }
  | _ => {}

/-! ### Convergence records and replay entries (R268, R357) -/

/-- R268: the 64-byte convergence record of a signature: its register, state and passes done, the operand registers, and the
header copies. -/
def convRecord (n : Nat) (c : Cv) (g : Sign) : List Byte :=
  padTo 64 (layFields [(1, n), (1, c.state.toNat), (1, c.done.toNat), (1, g.quad), (4, g.op)] ++
    (g.headers.take 4).flatMap (fun h => toBytes 8 h.toNat) ++
    [BitVec.ofNat 8 (g.a.headD 0), BitVec.ofNat 8 (g.b.headD 0), BitVec.ofNat 8 (g.c.headD 0)])

/-- The convergence records of a skein. -/
def convRecords (t : Team) (u : Nat) : List (List Byte) :=
  (List.range 8).flatMap fun n => ((t.cv.getD n {}).signs.filter fun g => g.sk == u).map fun g => convRecord n (t.cv.getD n {}) g

/-- The load instructions among the accesses of a skein that is out, each by its first access (R115). -/
def entryHeads (as : List Access) : List Access :=
  as.filter fun a => (as.find? fun x => x.op == a.op && (a.op.isSome || x.id == a.id)).map (·.id) == some a.id

/-- The lanes and formed addresses of the entry that an access stands for, in ascending order. -/
def entryLanes (as : List Access) (a : Access) : List (Nat × Lane) :=
  let mine := (as.filter fun x => x.op == a.op && (a.op.isSome || x.id == a.id)).flatMap (·.lanes)
  allLanes.filterMap fun l => (mine.find? fun x => x.lane == l).map fun x => (l, x.va)

/-- R357: a replay entry: a header of 32 bytes, then the formed address of each lane. -/
def replayEntry (k : Skein) (as : List Access) (a : Access) : List Byte :=
  let ws := encode a.instr
  let ls := entryLanes as a
  let setA := (k.ops.find? fun o => some o.id == a.op).bind (·.setA)
  padTo 32 (layFields [(4, (ws.headD 0).toNat), (4, (ws.getD 1 0).toNat), (8, a.pc.toNat),
    (4, (laneMask fun l => ls.any fun x => x.1 == l).toNat), (1, match setA with | some f => f.toNat | none => 15)]) ++
    ls.flatMap fun x => toBytes 8 x.2.toNat

/-- R357: bytes of the replay entry at the head of a list: 32, and 8 for each lane of its mask. -/
def entryLen (bs : List Byte) : Nat := 32 + 8 * (maskLanes (BitVec.ofNat 32 (fieldAt bs 16 4))).length

/-- Bytes of n replay entries one after another. -/
def entriesLen : Nat → List Byte → Nat
  | 0, _ => 0
  | n + 1, bs => entryLen bs + entriesLen n (bs.drop (entryLen bs))

/-- R356, R357: the bytes of a skein's record. -/
def Skein.record (k : Skein) (t : Team) (as : List Access) : List Byte :=
  k.fixed ++ (List.range 64).map k.dirByte ++ (List.range 64).flatMap k.dataBytes ++ (convRecords t k.uid).flatten ++
    (entryHeads as).flatMap fun a => replayEntry k as a

/-! ### Reading a skein's record back -/

/-- One thread as its bytes say; a PC that an edit has changed is a clause header. -/
def Skein.threadFrom (k : Skein) (old bs : List Byte) (l : Nat) : Thread :=
  let t := k.thread l
  let at' := skeinAt.lanes + 4 * l
  let st (b : List Byte) : Nat := fieldAt b (at' + 1) 1
  let t : Thread := { t with
    link := edited (fun b => laneAt b (skeinAt.links + 8 * l)) old bs t.link
    pred := edited (fun b => BitVec.ofNat 8 (fieldAt b at' 1)) old bs t.pred
    exited := edited (fun b => decide (st b % 2 = 1)) old bs t.exited
    yielded := edited (fun b => decide (st b / 2 % 2 = 1)) old bs t.yielded
    repMark := edited (fun b => decide (st b / 4 % 2 = 1)) old bs t.repMark
    region := edited (fun b => regionOf (st b / 8)) old bs t.region
    starve := edited (fun b => fieldAt b (at' + 2) 1) old bs t.starve
    sticky := edited (fun b => BitVec.ofNat 6 (fieldAt b (at' + 3) 1)) old bs t.sticky }
  let pc (b : List Byte) : Lane := laneAt b (8 * l)
  if pc old = pc bs then t else { t with pc := pc bs, clause := none, rep := none, waiting := none }

/-- A loop level from its bytes. -/
def levelFrom (bs : List Byte) (o : Nat) : LoopLevel :=
  ⟨BitVec.ofNat 32 (fieldAt bs o 4), BitVec.ofNat 32 (fieldAt bs (o + 4) 4), decide (fieldAt bs (o + 8) 4 % 2 = 1)⟩

/-- A stream from its bytes. -/
def streamFrom (bs : List Byte) (o : Nat) : Stream :=
  ⟨laneAt bs o, BitVec.ofNat 2 (fieldAt bs (o + 8) 4), BitVec.ofNat 32 (fieldAt bs (o + 12) 4), BitVec.ofNat 32 (fieldAt bs (o + 16) 4),
    BitVec.ofNat 32 (fieldAt bs (o + 20) 4), BitVec.ofNat 32 (fieldAt bs (o + 24) 4), BitVec.ofNat 32 (fieldAt bs (o + 28) 4)⟩

/-- A fault record from its bytes, with the load it stands for (R112). -/
def recFrom (bs : List Byte) (o : Nat) (op : Option Nat) : FaultRec :=
  ⟨fieldAt bs o 4, laneAt bs (o + 8), laneAt bs (o + 16), BitVec.ofNat 8 (fieldAt bs (o + 4) 4), op⟩

/-- The hidden trap state as its bytes say. -/
def Hidden.loaded (h : Hidden) (old bs : List Byte) : Hidden :=
  let o := skeinAt.hidden
  let st (b : List Byte) (l : Nat) : Nat := fieldAt b (o + 16 + l) 1
  { h with
    lanes := edited (fun b => BitVec.ofNat 32 (fieldAt b (o + 4) 4)) old bs h.lanes
    susp := edited (fun b => decide (fieldAt b (o + 8) 4 / 64 % 2 = 1)) old bs h.susp
    nextIdx := edited (fun b => BitVec.ofNat 6 (fieldAt b (o + 8) 4)) old bs h.nextIdx
    pcSet := edited (fun b => decide (fieldAt b (o + 12) 4 % 2 = 1)) old bs h.pcSet
    threads := allLanes.map fun l =>
      let t := h.threads.getD l {}
      { t with repMark := edited (fun b => decide (st b l / 4 % 2 = 1)) old bs t.repMark
               region := edited (fun b => regionOf (st b l / 8)) old bs t.region } }

/-- The directory of a record. -/
def dirOf (bs : List Byte) : List Byte := (bs.drop 2048).take 64

/-- Where the data of a register begins in the register data. -/
def dataOff (dir : List Byte) (r : Nat) : Nat := ((dir.take r).map dataLen).sum

/-- A register as a record says. -/
def regFrom (bs : List Byte) (r : Nat) (v : VReg) : VReg := readReg ((dirOf bs).getD r 0) ((bs.drop 2112).drop (dataOff (dirOf bs) r)) v

/-- The fault records that a record lists. -/
def faultsFrom (k : Skein) (bs : List Byte) : List FaultRec :=
  (List.range (fieldAt bs (skeinAt.unacked + 4) 4)).map fun i => recFrom bs (skeinAt.faults + 24 * i) ((k.faultQ[i]?).bind (·.op))

/-- The region stack that a record lists. -/
def regionsFrom (bs : List Byte) : List RegionEntry :=
  (List.range (fieldAt bs skeinAt.regions 4)).map fun i =>
    ⟨BitVec.ofNat 16 (fieldAt bs (skeinAt.regions + 4 + 3 * i) 2), decide (fieldAt bs (skeinAt.regions + 6 + 3 * i) 1 % 2 = 1)⟩

/-- The marks of long operations: those that an edit has cleared in the directory are gone. -/
def LongOp.marked (o : LongOp) (old bs : List Byte) : LongOp :=
  let keeps (n r : Nat) : Bool := !((dirOf old).getD r 0).getLsbD n || ((dirOf bs).getD r 0).getLsbD n
  { o with pend := o.pend.filter (keeps 4), held := o.held.filter (keeps 5) }

/-- A wait for a wake tick as a record says. -/
def Wait.woken (w : Wait) (old bs : List Byte) : Wait :=
  match w.kind with
  | .sleep n => { w with kind := .sleep (edited (fun b => fieldAt b (skeinAt.wake + 8 * (maskLanes w.lanes).headD 0) 8) old bs n) }
  | _ => w

/-- R356, R357: a skein as its record says, given the record as it was written. -/
def Skein.loaded (k : Skein) (old bs : List Byte) : Skein :=
  let lane (o : Nat) (v : Lane) : Lane := edited (fun b => laneAt b o) old bs v
  let num (o n v : Nat) : Nat := edited (fun b => fieldAt b o n) old bs v
  let rep (b : List Byte) : Nat := fieldAt b skeinAt.rep 4
  { k with
    regCount := num skeinAt.count 2 k.regCount
    regs := (List.range 64).map fun r => edited (fun b => regFrom b r (k.reg r)) old bs (k.reg r)
    threads := allLanes.map (k.threadFrom old bs)
    flags := (List.range 12).map fun i => num (skeinAt.flags + i) 1 (k.flags.getD i 0)
    ops := k.ops.map fun o => o.marked old bs
    levels := (List.range 4).map fun i => edited (fun b => levelFrom b (skeinAt.levels + 12 * i)) old bs (k.levels.getD i {})
    streams := (List.range 16).map fun i => edited (fun b => streamFrom b (skeinAt.streams + 32 * i)) old bs (k.streams.getD i {})
    hd := (List.range 8).map fun i => lane (skeinAt.hd + 8 * i) (k.hd.getD i 0)
    pm := (List.range 4).map fun i => lane (skeinAt.pm + 8 * i) (k.pm.getD i 0)
    susp := edited (fun b => decide (rep b / 64 % 2 = 1)) old bs k.susp
    repNext := edited (fun b => BitVec.ofNat 6 (rep b)) old bs k.repNext
    regions := edited regionsFrom old bs k.regions
    wct := (List.range 4).map fun i => num (skeinAt.wct + 8 * i) 8 (k.wct.getD i 0)
    unacked := num skeinAt.unacked 4 k.unacked
    faultQ := edited (faultsFrom k) old bs k.faultQ
    flt := lane skeinAt.flt k.flt, fltpc := lane (skeinAt.flt + 8) k.fltpc, fltaddr := lane (skeinAt.flt + 16) k.fltaddr
    fltlanes := lane (skeinAt.flt + 24) k.fltlanes, fltaux := lane (skeinAt.flt + 32) k.fltaux
    handler := k.handler.map fun h => h.loaded old bs
    waits := k.waits.map fun w => w.woken old bs }

/-- Where the convergence records of a skein's record begin. -/
def tailAt (bs : List Byte) : Nat := 2112 + ((dirOf bs).map dataLen).sum

/-- Where its replay entries begin, behind n convergence records. -/
def entriesAt (bs : List Byte) (n : Nat) : Nat := tailAt bs + 64 * n

/-- The bytes of a record that its skein, its team and its loads announce: what a record in the area is long (R357). -/
def recordLen (bs : List Byte) (k : Skein) (t : Team) (as : List Access) : Nat :=
  let n := (convRecords t k.uid).length
  entriesAt bs n + entriesLen (entryHeads as).length (bs.drop (entriesAt bs n))

/-- What a load instruction asks for: kind, width, order, scope, hint, destination, and whether from scratch. -/
structure LoadSpec where
  kind  : AccKind
  width : Nat
  order : BitVec 2
  scope : Nat
  hint  : BitVec 2
  dst   : Reg
  near  : Bool
deriving DecidableEq, Repr

/-- A load as its fields say. -/
def loadOf (d : Reg) (w : BitVec 2) (e : MemExt) (near : Bool) : LoadSpec := ⟨.load e.sx, 2 ^ w.toNat, e.order, e.scope.toNat, e.hint, d, near⟩

/-- R357: the load that the words of a replay entry say. -/
def loadSpec : Instr → Option LoadSpec
  | .ld _ d _ w => some (loadOf d w ⟨true, 0, 0, 0, false⟩ false)
  | .ldExt _ d _ w e => some (loadOf d w e false)
  | .ldsc _ d _ w => some (loadOf d w ⟨true, 0, 0, 0, false⟩ true)
  | .ldscExt _ d _ w e => some (loadOf d w e true)
  | _ => none

/-- The instruction that the words at the head of a replay entry hold. -/
def entryInstr (bs : List Byte) : Option Instr :=
  match decodeWord .e32 (BitVec.ofNat 32 (fieldAt bs 0 4)) (BitVec.ofNat 32 (fieldAt bs 4 4)) with
  | .ok i => some i
  | .error _ => none

/-- The lanes of a replay entry with their formed addresses, as its bytes say. -/
def entryAddrs (bs : List Byte) : List (Nat × Lane) :=
  let ls := maskLanes (BitVec.ofNat 32 (fieldAt bs 16 4))
  (List.range ls.length).map fun i => (ls.getD i 0, laneAt bs (32 + 8 * i))

/-- The accesses of one replay entry. -/
def entryMates (as : List Access) (a : Access) : List Access := as.filter fun x => x.op == a.op && (a.op.isSome || x.id == a.id)

/-- R357, R358: the accesses that an edited entry stands for, one for each line; names beyond those the device gives mark the later. -/
def entryAccesses (k : Skein) (a : Access) (bs : List Byte) (i : Instr) (q : LoadSpec) : List Access :=
  let ls := entryAddrs bs
  let base := match a.place with | .scratch b => b | _ => 0
  let us := (ls.map fun x => x.2.toNat / 128).dedup
  (List.range us.length).map fun n =>
    { a with
      id := a.id + n * 2 ^ 64, kind := q.kind, width := q.width, order := q.order, scope := q.scope, hint := q.hint, instr := i
      pc := laneAt bs 8
      lanes := (ls.filter fun x => x.2.toNat / 128 == us.getD n 0).map fun x =>
        { lane := x.1, va := x.2, addr := base + x.2.toNat, reg := k.resolve x.1 q.dst } }

/-- The load of an edited entry as its long operation: what it waits for, its marks and its flag. -/
def LongOp.reloaded (o : LongOp) (bs : List Byte) (as : List Access) : LongOp :=
  { o with
    await := as.length, writes := o.writes.filter fun w => !(as.any fun a => a.lanes.any fun x => x.lane == w.lane)
    pend := o.pend.filter fun r => as.any fun a => a.lanes.any fun x => x.reg == r, uni := false
    setA := if fieldAt bs 20 1 < 12 then some (BitVec.ofNat 4 (fieldAt bs 20 1)) else none }

/-- R357, R358: a skein and its loads with the replay entries as their bytes say, given the entries as they were written. -/
def loadEntries : List Access → List Byte → List Byte → Skein × List Access → Skein × List Access
  | [], _, _, x => x
  | a :: rest, old, bs, (k, as) =>
    let next := loadEntries rest (old.drop (entryLen old)) (bs.drop (entryLen bs))
    if old.take (entryLen old) = bs.take (entryLen bs) then next (k, as)
    else
      match entryInstr bs with
      | none => next (k, as)
      | some i =>
        match loadSpec i with
        | none => next (k, as)
        | some q =>
          let xs := entryAccesses k a bs i q
          let mine := (entryMates as a).map (·.id)
          next ({ k with ops := k.ops.map fun o => if some o.id == a.op then o.reloaded bs xs else o },
            (as.filter fun x => !mine.contains x.id) ++ xs)

/-- R359, code 0x06: a replay entry holds a load of its space, lanes, a flag and addresses inside their limits. -/
def entryOk (a : Access) (bs : List Byte) : Bool :=
  (match (entryInstr bs).bind loadSpec with
    | some q => q.near == (match a.place with | .scratch _ => true | _ => false)
    | none => false) &&
  fieldAt bs 16 4 != 0 && (decide (fieldAt bs 20 1 < 12) || fieldAt bs 20 1 == 15) && canonical (laneAt bs 8) && (laneAt bs 8).extractLsb' 0 2 == 0 &&
  (entryAddrs bs).all fun x => canonical x.2

/-- The replay entries of a record inside their limits. -/
def entriesOk : List Access → List Byte → Bool
  | [], _ => true
  | a :: rest, bs => entryOk a bs && entriesOk rest (bs.drop (entryLen bs))

/-- R268: a signature as its convergence record says, given the record as it was written: its operand registers and header copies. -/
def Sign.loaded (g : Sign) (old bs : List Byte) : Sign :=
  let span (o : Nat) (rs : List Nat) : List Nat :=
    if fieldAt old o 1 = fieldAt bs o 1 then rs else (List.range rs.length).map fun i => fieldAt bs o 1 + i
  { g with
    a := span 40 g.a, b := span 41 g.b, c := span 42 g.c
    headers := (List.range g.headers.length).map fun i =>
      if i < 4 then edited (fun x => laneAt x (8 + 8 * i)) old bs (g.headers.getD i 0) else g.headers.getD i 0 }

/-- R359, codes 0x03 and 0x04: a convergence record is that of its signature, its register in a state that the team's record says too. -/
def convOk (n : Nat) (g : Sign) (word : Lane) (bs : List Byte) : Bool :=
  fieldAt bs 0 1 == n && fieldAt bs 1 1 == (word.extractLsb' 62 2).toNat && fieldAt bs 2 1 == (word.extractLsb' 48 4).toNat &&
    fieldAt bs 3 1 == g.quad && fieldAt bs 4 4 == g.op % 2 ^ 32

/-- The signatures of a skein, with their registers, in the order of its convergence records. -/
def signsOf (t : Team) (u : Nat) : List (Nat × Sign) :=
  (List.range 8).flatMap fun n => ((t.cv.getD n {}).signs.filter fun g => g.sk == u).map fun g => (n, g)

/-! ### Checks of a skein's record (R359) -/

/-- R359, code 0x04: the directory is valid, the count fits it, and every mark has its operation. -/
def Skein.dirOk (k : Skein) (bs : List Byte) : Bool :=
  let dir := (bs.drop 2048).take 64
  let n := fieldAt bs skeinAt.count 2
  decide (16 ≤ n) && decide (n ≤ 64) && decide (n % 8 = 0) && (List.range 64).all fun r =>
    let d := dir.getD r 0
    d.extractLsb' 6 2 == 0 && (d.extractLsb' 0 2 == 3) == decide (n ≤ r) && (d.extractLsb' 0 2 == 2 || d.extractLsb' 2 2 == 0) &&
      (!d.getLsbD 4 || (k.pendingBy r).isSome) && (!d.getLsbD 5 || (k.heldBy r).isSome)

/-- R359, code 0x06: the trap state inside its limits (R349, R350). -/
def Skein.trapOk (k : Skein) (bs : List Byte) : Bool :=
  let flt := laneAt bs skeinAt.flt
  let h := skeinAt.hidden
  flt.extractLsb' 24 6 == 0 && flt.extractLsb' 36 28 == 0 && (laneAt bs (skeinAt.flt + 24)).extractLsb' 32 32 == 0 &&
    fieldAt bs h 4 == (if k.handler.isSome then 1 else 0) &&
    (k.handler.isNone || (decide (fieldAt bs (h + 8) 4 < 128) && decide (fieldAt bs (h + 12) 4 < 2) &&
      allLanes.all fun l => decide (fieldAt bs (h + 16 + l) 1 < 64)))

/-- R359, code 0x06: the fields of a skein inside their limits. -/
def Skein.limitsOk (k : Skein) (bs : List Byte) : Bool :=
  (allLanes.all fun l =>
    let st := fieldAt bs (skeinAt.lanes + 4 * l + 1) 1
    canonical (laneAt bs (8 * l)) && (laneAt bs (8 * l)).extractLsb' 0 2 == 0 && decide (fieldAt bs (skeinAt.lanes + 4 * l + 2) 1 ≤ 63) &&
      decide (st < 64) && decide (fieldAt bs (skeinAt.lanes + 4 * l + 3) 1 < 64)) &&
    ((List.range 4).all fun i => (laneAt bs (skeinAt.pm + 8 * i)).extractLsb' 48 16 == 0) &&
    ((List.range 4).all fun i => decide (fieldAt bs (skeinAt.levels + 12 * i + 8) 4 < 2)) &&
    ((List.range 16).all fun i => decide (fieldAt bs (skeinAt.streams + 32 * i + 8) 4 ≤ 2)) &&
    ((List.range 8).all fun i => (laneAt bs (skeinAt.hd + 8 * i)).extractLsb' 59 4 == 0) &&
    ((List.range 12).all fun i => decide (fieldAt bs (skeinAt.flags + i) 1 ≤ 63)) &&
    decide (fieldAt bs skeinAt.regions 4 ≤ 16) && decide (fieldAt bs skeinAt.unacked 4 ≤ 64) &&
    ((List.range (fieldAt bs skeinAt.regions 4)).all fun i => decide (fieldAt bs (skeinAt.regions + 6 + 3 * i) 1 < 2)) &&
    decide (fieldAt bs (skeinAt.unacked + 4) 4 ≤ 8) && ((List.range (fieldAt bs (skeinAt.unacked + 4) 4)).all fun i =>
      let o := skeinAt.faults + 24 * i
      decide (fieldAt bs o 4 < 32) && decide (1 ≤ fieldAt bs (o + 4) 4) && decide (fieldAt bs (o + 4) 4 ≤ 5)) &&
    decide (fieldAt bs skeinAt.rep 4 < 128) && fieldAt bs (skeinAt.count + 2) 2 == (if k.waits.any fun w => w.kind == .grow then 1 else 0) &&
    k.trapOk bs

/-! ### Team, grid and context records (R356) -/

/-- R260: sys.cvN. -/
def Cv.word (c : Cv) : Lane :=
  c.state ++ bit1 c.fail ++ 0#9 ++ c.done ++ 0#8 ++ BitVec.ofNat 8 c.unsigned.length ++ 0#12 ++ c.decl

/-- R356: the 1,024 bytes of a team's fixed part: barriers, queues with hidden heads, timelines, convergence states, owned
accumulators, and how many paused operations follow. -/
def Team.fixed (t : Team) (owned : List Nat) (paused : Nat) : List Byte :=
  padTo 1024 <|
    padTo 512 (t.barriers.flatMap fun b => layFields [(8, b.gen), (4, b.arrived), (4, b.expected)]) ++
    (List.range 8).flatMap (fun i => layFields [(8, (t.qw.getD i 0).toNat), (4, t.qhead.getD i 0)]) ++
    (List.range 8).flatMap (fun i => toBytes 8 (t.tl.getD i 0).toNat) ++
    (List.range 8).flatMap (fun i => toBytes 8 (t.cv.getD i {}).word.toNat) ++
    [BitVec.ofNat 8 ((owned.dedup.map fun n => 2 ^ n).sum), BitVec.ofNat 8 paused]

/-- The accumulators a team owns, by number. -/
def ownedAccs (accs : List Acc) (t : Team) : List Nat :=
  (List.range 4).filter fun n => accs.any fun a => a.owner == some t.uid && a.n == n

/-- The 4 KiB of one accumulator of a quadrant. -/
def accBytes (accs : List Acc) (t : Team) (n q : Nat) : List Byte :=
  match accs.find? fun a => a.owner == some t.uid && a.n == n && a.quad == q with
  | some a => padTo 4096 ((List.range 16).flatMap fun i => (List.range 64).flatMap fun j => toBytes 4 ((a.rows.getD i []).getD j 0).toNat)
  | none => List.replicate 4096 0

/-- R356: the 64 bytes of a paused pump operation. -/
def EngineOp.pausedBytes (o : EngineOp) : List Byte :=
  padTo 64 (layFields [(1, o.tl), (1, o.prio), (2, o.status.toNat), (8, o.num), (8, o.pos), (8, o.total), (8, o.flagAt), (8, o.flagV.toNat), (8, o.failAddr.toNat)])

/-- R356: the bytes of a team's record. -/
def Team.record (t : Team) (accs : List Acc) (scratch : List Byte) (paused : List EngineOp) : List Byte :=
  let owned := ownedAccs accs t
  t.fixed owned paused.length ++ scratch ++ (owned.flatMap fun n => (List.range 4).flatMap fun q => accBytes accs t n q) ++
    paused.flatMap EngineOp.pausedBytes

/-- The accumulators that a team's record says it owns. -/
def ownedIn (bs : List Byte) : List Nat := (List.range 4).filter fun n => fieldAt bs 736 1 / 2 ^ n % 2 == 1

/-- Where the paused operations of a team's record begin. -/
def pausedAt (t : Team) (bs : List Byte) : Nat := 1024 + t.scratchBytes + 16384 * (ownedIn bs).length

/-- The bytes that a team's record is long. -/
def teamLen (t : Team) (bs : List Byte) : Nat := pausedAt t bs + 64 * fieldAt bs 737 1

/-- A convergence register as its word says (R260). -/
def Cv.ofWord (c : Cv) (w : Lane) : Cv :=
  { c with state := w.extractLsb' 62 2, fail := w.getLsbD 61, done := w.extractLsb' 48 4, decl := w.extractLsb' 0 20 }

/-- A team as its record says, given the record as it was written. -/
def Team.loaded (t : Team) (old bs : List Byte) : Team :=
  { t with
    barriers := (List.range t.barriers.length).map fun i =>
      edited (fun b => (⟨fieldAt b (16 * i) 8, fieldAt b (16 * i + 8) 4, fieldAt b (16 * i + 12) 4⟩ : Barrier)) old bs (t.barriers.getD i {})
    qw := (List.range 8).map fun i => edited (fun b => laneAt b (512 + 12 * i)) old bs (t.qw.getD i 0)
    qhead := (List.range 8).map fun i => edited (fun b => fieldAt b (520 + 12 * i) 4) old bs (t.qhead.getD i 0)
    tl := (List.range 8).map fun i => edited (fun b => laneAt b (608 + 8 * i)) old bs (t.tl.getD i 0)
    cv := (List.range 8).map fun i =>
      let c := t.cv.getD i {}
      if laneAt old (672 + 8 * i) = laneAt bs (672 + 8 * i) then c else c.ofWord (laneAt bs (672 + 8 * i)) }

/-- R356: a paused operation as its 64 bytes say, given those that were written. -/
def EngineOp.loaded (o : EngineOp) (old bs : List Byte) : EngineOp :=
  let num (a n v : Nat) : Nat := edited (fun b => fieldAt b a n) old bs v
  let lane (a : Nat) (v : Lane) : Lane := edited (fun b => laneAt b a) old bs v
  { o with
    prio := num 1 1 o.prio, status := edited (fun b => BitVec.ofNat 8 (fieldAt b 2 2)) old bs o.status
    pos := num 12 8 o.pos, total := num 20 8 o.total, flagAt := num 28 8 o.flagAt, flagV := lane 36 o.flagV, failAddr := lane 44 o.failAddr }

/-- R359, code 0x06: barriers (R30), queue words inside their scratch with their heads (R254), and paused operations inside their limits;
the reserved bits of convergence words zero (R260). -/
def Team.limitsOk (t : Team) (bs : List Byte) : Bool :=
  ((List.range t.barriers.length).all fun i =>
    let n := fieldAt bs (16 * i + 8) 4
    let e := fieldAt bs (16 * i + 12) 4
    decide (e ≤ 1024) && (decide (n < e) || decide (n = 0))) &&
  ((List.range 8).all fun i =>
    let q := laneAt bs (512 + 12 * i)
    let depth := (q.extractLsb' 19 13).toNat
    decide ((q.extractLsb' 0 19).toNat + depth * 2 ^ (q.extractLsb' 32 2).toNat ≤ t.scratchBytes ∨ depth = 0) &&
      decide ((q.extractLsb' 48 13).toNat ≤ depth) && decide (depth ≤ 4096) && decide (fieldAt bs (520 + 12 * i) 4 < max depth 1)) &&
  ((List.range 8).all fun i =>
    let w := laneAt bs (672 + 8 * i)
    w.extractLsb' 52 9 == 0 && w.extractLsb' 40 8 == 0 && w.extractLsb' 20 12 == 0 && decide ((w.extractLsb' 48 4).toNat ≤ 8)) &&
  decide (fieldAt bs 736 1 < 16) &&
  (List.range (fieldAt bs 737 1)).all fun i =>
    let o := pausedAt t bs + 64 * i
    decide (fieldAt bs (o + 1) 1 < 4) && decide (fieldAt bs (o + 2) 2 < 256) && decide (fieldAt bs (o + 12) 8 ≤ fieldAt bs (o + 20) 8)

/-- R356: the 256 bytes of a grid's record: the launch record, team count, next index, depth, barrier generation, parent. -/
def Grid.fixed (g : Grid) (parent : Nat) : List Byte :=
  padTo 256 (padTo 64 g.record ++ layFields [(4, g.count), (4, g.next), (4, g.depth), (8, g.barGen), (4, parent)])

/-- A grid as its record says, given the record as it was written; the launch record itself is read once (R17). -/
def Grid.loaded (g : Grid) (old bs : List Byte) (grids : List Grid) : Grid :=
  let num (a n v : Nat) : Nat := edited (fun b => fieldAt b a n) old bs v
  { g with
    record := if g.record.isEmpty then [] else edited (fun b => b.take 64) old bs g.record
    count := num 64 4 g.count, next := num 68 4 g.next, depth := num 72 4 g.depth, barGen := num 76 8 g.barGen
    parent := if fieldAt old 84 4 = fieldAt bs 84 4 then g.parent else
      (if fieldAt bs 84 4 = 0 then none else (grids[fieldAt bs 84 4 - 1]?).map (·.uid)) }

/-- R359, code 0x06: the fields of a grid inside their limits (R12). -/
def Grid.limitsOk (bs : List Byte) : Bool :=
  decide (fieldAt bs 68 4 ≤ fieldAt bs 64 4) && decide (1 ≤ fieldAt bs 72 4) && decide (fieldAt bs 72 4 ≤ 10)

/-- R93: a tile's state in 24 bytes: its state, valid bits, remaining life, and the sectors that follow. -/
def tileBytes24 (x : Tile × Nat) : List Byte :=
  let st : Nat := match x.1.state with | .empty => 0 | .live => 1 | .expired => 2
  padTo 24 (layFields [(1, st), (1, 0), (2, x.1.valid.toNat), (4, x.2), (4, (List.range 16).countP fun i => x.1.valid.getLsbD i)])

/-- R93: the valid sectors of a tile. -/
def SavedSeep.sectors (i : SavedSeep) (t : Tile) : List Byte :=
  ((List.range 16).filter fun n => t.valid.getLsbD n).flatMap fun n =>
    (List.range 256).map fun b => ((i.bytes.find? fun x => x.1 == 4096 * t.idx + 256 * n + b).map (·.2)).getD 0

/-- R93, R356: the bytes of a seep instance: logical number and tile count, each tile's state, then the valid sectors. -/
def SavedSeep.record (i : SavedSeep) : List Byte :=
  let tile (n : Nat) : Tile × Nat := (i.states.find? fun x => x.1.idx == n).getD ({ idx := n }, 0)
  padTo 64 (layFields [(4, i.logical), (4, i.tiles)]) ++ (List.range i.tiles).flatMap (fun n => tileBytes24 (tile n)) ++
    (List.range i.tiles).flatMap fun n => i.sectors (tile n).1

/-- Where the sectors of a tile begin in an instance's record. -/
def sectorAt (bs : List Byte) (tiles n : Nat) : Nat :=
  64 + 24 * tiles + 256 * ((List.range n).map fun j => fieldAt bs (64 + 24 * j + 8) 4).sum

/-- R94, R359, code 0x05: each tile's state, life and sectors agree. -/
def SavedSeep.recordOk (i : SavedSeep) (bs : List Byte) : Bool :=
  (List.range i.tiles).all fun n =>
    let o := 64 + 24 * n
    let st := fieldAt bs o 1
    let valid : BitVec 16 := BitVec.ofNat 16 (fieldAt bs (o + 2) 2)
    let life := fieldAt bs (o + 4) 4
    decide (st ≤ 2) && decide (fieldAt bs (o + 8) 4 = (List.range 16).countP fun s => valid.getLsbD s) &&
      (if st = 1 then decide (1 ≤ life) && decide (life ≤ Config.seepLife) else decide (valid = 0) && decide (life = 0))

/-- R94: an instance as its record says; a record that stands as it was written leaves it as it is. -/
def SavedSeep.loaded (i : SavedSeep) (old bs : List Byte) : SavedSeep :=
  if old = bs then i else
  let st (n : Nat) : Nat := fieldAt bs (64 + 24 * n) 1
  let valid (n : Nat) : BitVec 16 := BitVec.ofNat 16 (fieldAt bs (66 + 24 * n) 2)
  let tile (n : Nat) : Tile := { idx := n, state := if st n = 1 then .live else if st n = 2 then .expired else .empty, valid := valid n }
  let data (n : Nat) : List (Nat × Byte) :=
    let secs := (List.range 16).filter fun s => (valid n).getLsbD s
    (List.range secs.length).flatMap fun j => (List.range 256).map fun b =>
      (4096 * n + 256 * secs.getD j 0 + b, bs.getD (sectorAt bs i.tiles n + 256 * j + b) 0)
  { i with
    logical := fieldAt bs 0 4
    states := ((List.range i.tiles).filter fun n => st n != 0).map fun n => (tile n, fieldAt bs (68 + 24 * n) 4)
    bytes := (List.range i.tiles).flatMap data }

/-- R356: the context header: version, number, partition, protected bit, counts and first slot offsets of grids, teams and
skeins, the handle count; then the handles. -/
def Image.header (im : Image) : List Byte :=
  let first (l : List (Option Nat)) : Nat := ((l.filterMap id).foldl (fun n x => if n = 0 then x else min n x) 0)
  padTo 256 (layFields [(2, 1), (2, im.ctx), (2, im.part), (2, if im.prot then 1 else 0),
    (4, im.grids.length), (4, im.teams.length), (4, im.skeins.length),
    (8, first (im.grids.map (·.area))), (8, first (im.teams.map (·.area))), (8, first (im.skeins.map (·.sk.area))), (4, im.handles.length)]) ++
  im.handles.flatMap fun r => layFields [(8, r.base.toNat), (8, r.len.toNat), (4, r.prio),
    (4, match r.owner with | some g => g % 2 ^ 32 | none => 0xFFFFFFFF)]

/-- The team of a saved skein. -/
def Image.teamOf (im : Image) (k : Skein) : Team := (im.teams.find? fun t => t.uid == k.team).getD {}

/-- The scratch of a saved team. -/
def Image.scratchOf (im : Image) (t : Team) : List Byte := ((im.scratch.find? fun x => x.1 == t.uid).map (·.2.1)).getD []

/-- The paused operations of a saved team. -/
def Image.pausedOf (im : Image) (t : Team) : List EngineOp := im.paused.filter fun o => o.team == t.uid

/-- The bytes of a saved team's record. -/
def Image.teamRecord (im : Image) (t : Team) : List Byte := t.record im.accs (im.scratchOf t) (im.pausedOf t)

/-- The place of a grid's parent among the grids of an image, counted from 1; 0 for none. -/
def Image.parentOf (im : Image) (g : Grid) : Nat :=
  match g.parent.bind fun p => im.grids.findIdx? fun x => x.uid == p with
  | some i => i + 1
  | none => 0

/-- The instances of a saved grid, in the order of their numbers. -/
def Image.seepsOf (im : Image) (g : Grid) : List SavedSeep :=
  let mine := im.seeps.filter fun i => i.grid == g.uid
  (List.range g.seepSeq).flatMap fun n => mine.filter fun i => i.logical == n

/-- R356: the bytes of a saved grid's record: its fixed part, and its instances behind it. -/
def Image.gridRecord (im : Image) (g : Grid) : List Byte := g.fixed (im.parentOf g) ++ (im.seepsOf g).flatMap SavedSeep.record

/-- A record at its slot. -/
def atSlot (area : Option Nat) (bs : List Byte) : List (Nat × List Byte) :=
  match area with
  | some o => [(o, bs)]
  | none => []

/-- R356: the records a context save writes: those of skeins swapped out already stand. -/
def Image.toWrite (im : Image) : List (Nat × List Byte) :=
  (0, im.header) :: (im.grids.flatMap fun g => atSlot g.area (im.gridRecord g)) ++ (im.teams.flatMap fun t => atSlot t.area (im.teamRecord t)) ++
    (im.skeins.filter fun x => x.sk.slot.isSome).flatMap fun x => atSlot x.sk.area (x.sk.record (im.teamOf x.sk) x.replay)

/-! ### Sealing (R358, R368, R376) -/

/-- R368: the image key of a context: HMAC-SHA-256 under the image root, over the number as two little-endian bytes. -/
def imageKey (root ctx : Nat) : BitVec 256 := Config.hmacSha256 (Config.imageRoot root) (toBytes 2 ctx)

/-- R358: the 96-bit nonce: the context number, zero, the save counter. -/
def imageNonce (ctx cnt : Nat) : BitVec 96 := BitVec.ofNat 16 ctx ++ 0#16 ++ BitVec.ofNat 64 cnt

/-- R376: a record as it stands in the save area: encrypted under the context's image key when the context is protected. -/
def sealRecord (prot : Bool) (root ctx cnt : Nat) (r : Nat × List Byte) : Nat × List Byte :=
  if prot then (r.1, (List.range r.2.length).map fun i => Config.sealByte (imageKey root ctx) (imageNonce ctx cnt) (r.1 + i) r.2) else r

/-- One byte into a reflected CRC-32 (R358), with the bits still to go. -/
def crcBits : Nat → Word → Word
  | 0, c => c
  | n + 1, c => crcBits n (if c.getLsbD 0 then (c >>> 1) ^^^ 0xEDB88320 else c >>> 1)

/-- R358: the CRC-32 of a list of bytes. -/
def crc32 (bs : List Byte) : Word := (bs.foldl (fun (c : Word) b => crcBits 8 (c ^^^ b.setWidth 32)) 0xFFFFFFFF) ^^^ 0xFFFFFFFF

/-- R358: the check field over the bytes before it: the GCM tag of a protected image, the CRC-32 of any other. -/
def checkField (prot : Bool) (root ctx cnt : Nat) (before : List Byte) : List Byte :=
  if prot then toBytes 16 (Config.gcmTag (imageKey root ctx) (imageNonce ctx cnt) before).toNat
  else toBytes 4 (crc32 before).toNat ++ List.replicate 12 0

/-! ### The save area -/

/-- A range cut at the multiples of a size, with fuel. -/
def cutAt (size : Nat) : Nat → Lane → Nat → List (Lane × Nat)
  | 0, _, _ => []
  | f + 1, a, n =>
    if n = 0 then []
    else
      let m := min n (size - a.toNat % size)
      (a, m) :: cutAt size f (a + u64 m) (n - m)

/-- A range of the save area, by pages. -/
def areaPages (base : Lane) (n : Nat) : List (Lane × Nat) := cutAt 65536 (n / 65536 + 2) base n

/-- The first address of a range that the device cannot write (R364). -/
def State.areaMiss (s : State) (c : Nat) (base : Lane) (n : Nat) : Option Lane :=
  ((areaPages base n).find? fun p => (s.devStore c p.1 []).isNone).map (·.1)

/-- Bytes written over a range, page by page. -/
def State.writeArea (s : State) (c : Nat) : List (Lane × Nat) → List Byte → State
  | [], _ => s
  | (a, n) :: r, bs => State.writeArea ((s.devStore c a (bs.take n)).getD s) c r (bs.drop n)

/-- Bytes read over a range, page by page. -/
def State.readArea (s : State) (c : Nat) : List (Lane × Nat) → Option (List Byte)
  | [] => some []
  | (a, n) :: r =>
    match s.devLoad c a n, s.readArea c r with
    | some x, some y => some (x ++ y)
    | _, _ => none

/-- Bytes at an offset of a context's save area. -/
def State.areaBytes (s : State) (c off n : Nat) : Option (List Byte) := s.readArea c (areaPages ((s.ctx c).saveBase + u64 off) n)

/-- The first address that the writing of records cannot reach. -/
def State.recordsMiss (s : State) (c : Nat) (rs : List (Nat × List Byte)) : Option Lane :=
  rs.findSome? fun r => s.areaMiss c ((s.ctx c).saveBase + u64 r.1) r.2.length

/-- Records written into the save area. -/
def State.writeRecords (s : State) (c : Nat) (rs : List (Nat × List Byte)) : State :=
  rs.foldl (fun s r => s.writeArea c (areaPages ((s.ctx c).saveBase + u64 r.1) r.2.length) r.2) s

/-- R364: a write of the save area that cannot be made is held, unless one is held already. -/
def State.holdSave (s : State) (c : Nat) (a : Lane) : State := if (s.ctx c).held.isSome then s else s.holdDev c ⟨1, a, []⟩

/-! ### Slots (R356) -/

/-- Where the slots begin: after the header and the worst case of its handle table. -/
def slotsFrom : Nat := 256 + 98304
/-- The slot of a skein: its worst case. -/
def skeinSlot : Nat := 2048 + 64 + 16384 + 512 + 4608
/-- The slot of a team. -/
def teamSlot (scratch : Nat) : Nat := 1024 + scratch + 65536 + 16384
/-- The slot of a grid without seep. -/
def gridSlot : Nat := 256
/-- What a seep instance adds to the slot of its grid. -/
def seepSlot (tiles : Nat) : Nat := 64 + 4120 * tiles

/-- The slot of a grid: room for the instances it has. -/
def State.gridNeed (s : State) (g : Nat) : Nat := gridSlot + ((s.seeps.filter fun i => i.grid == g).map fun i => seepSlot i.tiles).sum

/-- The slots of a context in use, but for that of a grid: offset, size. -/
def State.slotsBut (s : State) (c : Nat) (skip : Option Nat) : List (Nat × Nat) :=
  (s.grids.filter fun g => g.ctx == c && skip != some g.uid).filterMap (fun g => g.area.map fun o => (o, s.gridNeed g.uid)) ++
  (s.teams.filter fun t => t.ctx == c).filterMap (fun t => t.area.map fun o => (o, teamSlot t.scratchBytes)) ++
  (s.skeins.filter fun k => k.ctx == c).filterMap (fun k => k.area.map fun o => (o, skeinSlot))

/-- The slots of a context in use: offset, size. -/
def State.slotsUsed (s : State) (c : Nat) : List (Nat × Nat) := s.slotsBut c none

/-- The lowest offset at which a slot fits among those in use, before the trailer. -/
def slotFit (top : Nat) (used : List (Nat × Nat)) (n : Nat) : Option Nat :=
  let free (o : Nat) : Bool := decide (o + n + 64 ≤ top) && used.all fun u => decide (o + n ≤ u.1) || decide (u.1 + u.2 ≤ o)
  minBy id ((slotsFrom :: used.map fun u => u.1 + u.2).filter free)

/-- Slots of given sizes taken one after another; none when one does not fit. -/
def slotFits (top : Nat) : List (Nat × Nat) → List Nat → Option (List Nat)
  | _, [] => some []
  | used, n :: ns =>
    match slotFit top used n with
    | none => none
    | some o => (slotFits top ((o, n) :: used) ns).map fun r => o :: r

/-- The slot a record of a context takes (R356). -/
def State.takeSlot (s : State) (c n : Nat) : Option Nat := slotFit (s.ctx c).saveSize.toNat (s.slotsUsed c) n

/-! ### One skein's record (R39, R353) -/

/-- R115, R354: the loads of a skein that a halt turns into replay entries. -/
def State.replayOf (s : State) (u : Nat) : List Access :=
  s.accesses.filter fun a => a.sk == u && !a.done && (match a.kind with | .load _ | .seepLoad _ | .renew | .life => true | _ => false)

/-- The record of a skein as it goes into the save area. -/
def State.recordOfSk (s : State) (k : Skein) (as : List Access) : List (Nat × List Byte) :=
  let cx := s.ctx k.ctx
  let p := s.part cx.part
  match k.area with
  | some o => [sealRecord p.prot p.imgKey k.ctx cx.saveCnt.toNat (o, k.record (s.team k.team) as)]
  | none => []

/-- R39, R356: the record of a skein that is swapped out written to its slot, its loads kept as replay entries; or the address
that the write cannot reach. -/
def State.writeRecord (s : State) (u : Nat) : Except Lane State :=
  let k := s.sk u
  let as := s.replayOf u
  let rs := s.recordOfSk k as
  match s.recordsMiss k.ctx rs with
  | some a => .error a
  | none =>
    let s := { s with accesses := s.accesses.filter fun a => !(as.any fun x => x.id == a.id) }.updSk u fun k =>
      { k with replays := as, saved := (rs.head?.map Prod.snd).getD [] }
    .ok (s.writeRecords k.ctx rs)

/-- R357: a saved skein with its loads as its record says, given the record as it was written. -/
def SavedSkein.loaded (x : SavedSkein) (t : Team) (old bs : List Byte) : SavedSkein :=
  let n := (convRecords t x.sk.uid).length
  let r := loadEntries (entryHeads x.replay) (old.drop (entriesAt old n)) (bs.drop (entriesAt bs n)) (x.sk.loaded old bs, x.replay)
  ⟨r.1, r.2⟩

/-- R39, R43: a skein that is swapped out as its slot says, with what has arrived for it since (R114): a protected record is as it was
sealed. -/
def State.readRecord (s : State) (u : Nat) : Option Skein :=
  let k := s.sk u
  let cx := s.ctx k.ctx
  match k.area with
  | none => some k
  | some o =>
    if (s.part cx.part).prot then some k
    else
      (s.areaBytes k.ctx o skeinSlot).map fun bs =>
        let x := SavedSkein.loaded ⟨k, k.replays⟩ (s.team k.team) k.saved bs
        { x.sk with replays := x.replay }

end Sys2Proof.Machine
end

