-- ==== Sys2Proof/Machine/Link.lean ====
section
/-!
DEFINITION. The sending side of the Ubend ports: windows, sequence numbers and the replay buffer (R381 to R384), and the checks
a peer access passes on the issuing device (R386).
-/

namespace Sys2Proof.Machine

/-! ### Flits (R380) -/

/-- R380: bytes 0 to 251 of a flit; `len` counts the payload bytes. -/
def flitBytes (f : Flit) : List Byte :=
  [f.kind ++ 0#2 ++ f.vc, BitVec.ofNat 8 f.payload.length] ++ toBytes 2 f.seq.toNat ++ toBytes 2 f.ack.toNat ++ [0, 0] ++
    ((List.range 4).flatMap fun i => toBytes 2 (f.freed.getD i 0).toNat) ++ toBytes 2 f.dst.toNat ++ toBytes 2 f.src.toNat ++ [0, 0, 0, 0] ++
    (f.payload ++ List.replicate 228 0).take 228

/-- R380: a flit is whole: its CRC matches, and its payload fits. -/
def flitOk (f : Flit) : Bool := decide (f.payload.length ≤ 228) && f.crc == crc32 (flitBytes f)

/-- A flit with its CRC. -/
def sealFlit (f : Flit) : Flit := { f with crc := crc32 (flitBytes f) }

/-- A port by its number. -/
def State.port (s : State) (n : Nat) : Port := (s.ports.find? fun p => p.num == n).getD { num := n }
/-- A port changed. -/
def State.updPort (s : State) (n : Nat) (f : Port → Port) : State :=
  { s with ports := putBy (·.num) { f (s.port n) with num := n } s.ports }

/-- The ports that are up, ascending (R384). -/
def State.upPorts (s : State) : List Nat := (List.range 18).filter fun n => (s.port n).state == 2

/-- R382: the window of a channel. -/
def Port.window (p : Port) (vc : Nat) : BitVec 16 := 64 + p.got.getD vc 0 - p.sent.getD vc 0

/-- A flit put on the link under the next seq; it stays in the replay buffer (R383). -/
def Port.emit (p : Port) (f : Flit) : Port :=
  let f := sealFlit { f with seq := p.nextSeq, ack := p.expect - 1, freed := p.freed }
  { p with
    nextSeq := p.nextSeq + 1
    sent := listUpd p.sent f.vc.toNat (· + 1)
    replay := p.replay ++ [f]
    wire := p.wire ++ [f]
    owed := none }

/-- The flit of the highest channel that has a window, the first on a tie. -/
def Port.pick (p : Port) (fs : List Flit) : Option Flit := minBy (fun f => 3 - f.vc.toNat) (fs.filter fun f => p.window f.vc.toNat != 0)

/-- R381, R384: the flit that goes next, and the port without it: flits of a lost path before others of their channel, and
while a change of path lasts no new flit of VC1 or VC2. -/
def Port.nextFlit (p : Port) (held : Bool) : Option (Flit × Port) :=
  let out := p.out.filter fun f => !(held && (f.vc == 1 || f.vc == 2))
  match p.pick (p.lost ++ out) with
  | none => none
  | some f => some (f, if p.lost.contains f then { p with lost := p.lost.erase f } else { p with out := p.out.erase f })

/-- R381, R382, R383: flits leave while a channel has a window and the replay buffer has room. -/
def Port.drain (held : Bool) : Nat → Port → Port
  | 0, p => p
  | n + 1, p =>
    if 256 ≤ p.replay.length then p
    else
      match p.nextFlit held with
      | none => p
      | some (f, p) => Port.drain held n (p.emit f)

/-- R384: the port a flit to a device for a domain address leaves on. -/
def State.pathOf (s : State) (dev da : Nat) : Option Nat :=
  let u := s.upPorts
  u[(dev + da / 128 % 512) % max u.length 1]?

/-- The device's own domain number (R379). -/
def State.ownDev (s : State) : Nat :=
  match s.record with
  | some r => r.domain.toNat
  | none => 0

/-- A channel flit handed to its port. -/
def State.sendFlit (s : State) (dev da : Nat) (kind : BitVec 4) (vc : BitVec 2) (payload : List Byte) : State :=
  match s.pathOf dev da with
  | none => s
  | some n =>
    s.updPort n fun p =>
      Port.drain s.pathHold 256 { p with out := p.out ++ [⟨kind, vc, 0, 0, [], BitVec.ofNat 9 dev, BitVec.ofNat 9 s.ownDev, payload, 0⟩] }

/-- R386: a peer access the issuing device refuses. -/
def State.peerRefused (s : State) (part dev : Nat) : Bool :=
  (match s.record with | some r => r.ports == 0 | none => true) || dev == s.ownDev || !(s.part part).reaches dev

/-- A device that is its own master, or the domain's (R388). -/
def State.isMaster (s : State) : Bool := match s.record with | some r => r.master || r.ports == 0 | none => true

/-- LOCK of UBTIME (R388): a master is always locked. -/
def State.locksTime (s : State) : Bool := s.isMaster || s.timeLock

/-- R386, R388: no flit can be sent now: the access produces code 0x05. -/
def State.peerLost (s : State) : Bool :=
  s.upPorts.isEmpty || !s.locksTime

end Sys2Proof.Machine
end

