-- ==== Sys2Proof/Machine/Memory.lean ====
section
/-!
DEFINITION. Lane-wise memory accesses: addresses and their checks (R60 to R67, R239 to R245), translation faults that hold the
access (R363), the requests an instruction makes (R244), how each is performed and returns (R65 to R76, R95 to R105, R111 to
R115), seep tiles (R83 to R92), and the landing of long operations (R143, R308).
-/

namespace Sys2Proof.Machine

/-! ### Homes and copies (R65 to R70, R75, R76) -/

/-- R65, R79: the die whose L2 is home to a byte; a chunk already copied lies at its new die. -/
def State.homeDie (s : State) (key : Nat) : Nat :=
  if isHost key then
    let pa := key - hostKey 0
    (pa / 2 ^ 7 % 4) ^^^ (pa / 2 ^ 13 % 4) ^^^ (pa / 2 ^ 19 % 4)
  else
    (s.frameOfLine (key / 128)).1

/-- What the home records of a line in a partition's slices (R365, R368). -/
def State.home (s : State) (part line : Nat) : HomeLine :=
  (s.homes.find? fun h => h.line == line && h.owner == part).getD { line := line, owner := part }
/-- The home's record changed. -/
def State.updHome (s : State) (part line : Nat) (f : HomeLine → HomeLine) : State :=
  { s with homes := f (s.home part line) :: s.homes.filter fun h => !(h.line == line && h.owner == part) }

/-- R73: a line lies in a handle's range: one of its 64 KiB pages translates to the line. -/
def State.residHolds (s : State) (r : Resid) (line : Nat) : Bool :=
  (List.range (r.len.toNat / 65536)).any fun i =>
    match (s.translate r.ctx (r.base + u64 (65536 * i))).2 with
    | .ok x => x.kind != 2 && decide (x.key / 128 ≤ line) && decide (line < x.key / 128 + 512)
    | .error _ => false

/-- R73, R368: a line cached under an owner tag lies in the range of a handle of that partition. -/
def State.residOwns (s : State) (r : Resid) (owner line : Nat) : Bool := (s.ctx r.ctx).part == owner && s.residHolds r line

/-- The rank of a cached line (R71, R74): the priority of its handle, 0 where none holds it, the highest where several do (log 40). -/
def State.rankOf (s : State) (owner line : Nat) : Nat :=
  ((s.resids.filter fun r => s.residOwns r owner line).map (·.prio)).foldl max 0

/-- R75: the effect of a hint on the two bits. -/
def hintBits (hint : BitVec 2) (keep early : Bool) : Bool × Bool :=
  if hint = 1 then (true, false) else if hint = 2 then (keep, early || !keep) else (keep, early)

/-- R68, R101: a usable copy of a line. -/
def State.copyOf (s : State) (l2 : Bool) (place line ctx acq : Nat) : Option Copy :=
  s.copies.find? fun c =>
    c.l2 == l2 && c.place == place && c.line == line && c.owner == (s.ctx ctx).part && decide (s.now < c.lease) &&
      decide (acq ≤ c.fill)

/-- A partition's copy dropped. -/
def State.dropCopy (s : State) (part : Nat) (l2 : Bool) (place line : Nat) : State :=
  { s with copies := s.copies.filter fun c => !(c.l2 == l2 && c.place == place && c.line == line && c.owner == part) }

/-- R76: the order in which a cache gives up a line: ended lease, early, lowest priority, keep; the least recently used first. -/
def lineKey (dead early keep : Bool) (rank used : Nat) : Nat :=
  (if dead then 0 else if early then 1 + rank else if keep then 17 + rank else 9 + rank) * 2 ^ 64 + used

/-- R76: the place of a copy in that order. -/
def State.victimKey (s : State) (c : Copy) : Nat :=
  lineKey (decide (c.lease ≤ s.now)) c.early c.keep (s.rankOf c.owner c.line) c.used

/-- R76: the place of a line at its home; it has no lease. -/
def State.homeKey (s : State) (h : HomeLine) : Nat := lineKey false h.early h.keep (s.rankOf h.owner h.line) h.used

/-- Lines of a core's L1 data cache (R1). -/
def l1Lines : Nat := 1024

/-- R1, R365: lines of a partition's slices of one die's L2: of 48 slices of 16 MiB, those that the mode gives it. -/
def State.l2Lines (s : State) : Nat := 131072 * (48 / ((s.record.map (·.mode)).getD 1))

/-- The records a die keeps of lines at home in a partition's slices of it. -/
def State.homeSet (s : State) (die part : Nat) : List HomeLine :=
  s.homes.filter fun h => h.owner == part && s.homeDie (h.line * 128) == die

/-- R69: the latest lease end a die keeps for the lines of a partition whose records it has lost. -/
def State.lostLease (s : State) (die part : Nat) : Nat :=
  ((s.lostLeases.find? fun x => x.1 == die && x.2.1 == part).map (·.2.2)).getD 0

/-- R69: a home gives up a line, and with it the line's record: the latest lease end of every line of the set bears on all of them
from then on (log 13: a partition's slices of a die are one set). -/
def State.loseHome (s : State) (die part : Nat) (h : HomeLine) : State :=
  { s with
    homes := s.homes.filter fun x => !(x.line == h.line && x.owner == h.owner)
    lostLeases := (die, part, ((s.homeSet die part).map (·.lease)).foldl max (max h.lease (s.lostLease die part))) ::
      s.lostLeases.filter fun x => !(x.1 == die && x.2.1 == part) }

/-- R76, R365: room for one more line in a partition's slices of a die's L2: its leased copies and its lines at home there count
(log 13). -/
def State.makeRoom (s : State) (die part : Nat) : State :=
  let cs := s.copies.filter fun c => c.l2 && c.place == die && c.owner == part
  let hs := (s.homeSet die part).filter (·.cached)
  if cs.length + hs.length < s.l2Lines then s
  else
    match minBy s.victimKey cs, minBy s.homeKey hs with
    | some c, some h => if s.victimKey c ≤ s.homeKey h then { s with copies := s.copies.erase c } else s.loseHome die part h
    | some c, none => { s with copies := s.copies.erase c }
    | none, some h => s.loseHome die part h
    | none, none => s

/-- A copy put into its cache (R76, log 13). -/
def State.putCopy (s : State) (c : Copy) : State :=
  let s := s.dropCopy c.owner c.l2 c.place c.line
  let set := s.copies.filter fun x => !x.l2 && x.place == c.place
  let s :=
    if c.l2 then s.makeRoom c.place c.owner
    else if set.length < l1Lines then s
    else
      match minBy s.victimKey set with
      | some v => { s with copies := s.copies.erase v }
      | none => s
  { s with copies := c :: s.copies }

/-- R66, R75, R76, R365: a line stands at its home from here on in a partition's slices, with what a hint does to it there: a refill
clears both bits first. -/
def State.fillHome (s : State) (line part : Nat) (hint : BitVec 2) : State :=
  let s := if (s.home part line).cached then s else s.makeRoom (s.homeDie (line * 128)) part
  s.updHome part line fun h =>
    let (hk, he) := if h.cached then hintBits hint h.keep h.early else hintBits hint false false
    { h with cached := true, keep := hk, early := he, used := s.now }

/-- R75: what a hint does to the issuing core's copy. -/
def State.hintCopy (s : State) (part core line : Nat) (hint : BitVec 2) : State :=
  { s with copies := s.copies.map fun c =>
      if !c.l2 && c.place == core && c.line == line && c.owner == part then
        (let (ke, ea) := hintBits hint c.keep c.early; { c with keep := ke, early := ea })
      else c }

/-- R75: what the hint of a load that a copy serves does at the line's home, where the line stands there. -/
def State.hintHome (s : State) (part line : Nat) (hint : BitVec 2) : State :=
  if !(s.home part line).cached then s
  else s.updHome part line fun h => let (ke, ea) := hintBits hint h.keep h.early; { h with keep := ke, early := ea }

/-- R77: one more request of a die at the home of a region. -/
def State.countDie (s : State) (key core n : Nat) : State :=
  if !isWell key then s
  else
    let region := key / 2 ^ 21
    let d := dieOf core
    let old := (s.dowser.find? fun x => x.region == region).getD ⟨region, [0, 0, 0, 0]⟩
    { s with dowser := ⟨region, listUpd old.counts d fun c => min 65535 (c + n)⟩ :: s.dowser.filter fun x => x.region != region }

/-- A line read at its home for a core: the lease it grants is recorded, the issuing core takes a copy, and its die one where it is
not the home (R68, R69, R96). The hint acts at the home and in the L1 (R75). -/
def State.fillAtHome (s : State) (core ctx line : Nat) (hint : BitVec 2) : State × List Byte :=
  let part := (s.ctx ctx).part
  let bytes := s.load part (line * 128) 128
  let lease := s.now + (s.ctx ctx).lease
  let (ke, ea) := hintBits hint false false
  let c : Copy := { l2 := false, place := core, line := line, bytes := bytes, lease := lease, fill := s.now, used := s.now,
                    keep := ke, early := ea, owner := part }
  let hd := s.homeDie (line * 128)
  let s := (s.fillHome line part hint).updHome part line fun h => { h with lease := max h.lease lease }
  let s := s.putCopy c
  (if hd = dieOf core then s.dropCopy part true hd line
   else s.putCopy { c with l2 := true, place := dieOf core, keep := false, early := false }, bytes)

/-- R403: whether a request at a line's home reads the well: the home does not hold the line. -/
def State.serveBits (s : State) (part line : Nat) : Nat := if (s.home part line).cached || !isWell (line * 128) then 0 else 16

/-- R68, R75, R96: where a plain load of a line is served: the core's copy, the die's copy, or the home, where the request counts
(R77). The bits say L1 and well (R403). -/
def State.readLine (s : State) (core ctx line acq : Nat) (hint : BitVec 2) : State × List Byte × Nat :=
  let part := (s.ctx ctx).part
  match s.copyOf false core line ctx acq with
  | some c =>
    let (ke, ea) := hintBits hint c.keep c.early
    ({ s with copies := { c with used := s.now, keep := ke, early := ea } :: s.copies.erase c }.hintHome part line hint, c.bytes, 1)
  | none =>
    let far := s.homeDie (line * 128) != dieOf core
    match if far then s.copyOf true (dieOf core) line ctx acq else none with
    | some c =>
      let (ke, ea) := hintBits hint false false
      let s := { s with copies := { c with used := s.now } :: s.copies.erase c }
      ((s.putCopy { c with l2 := false, place := core, lease := min c.lease (s.now + (s.ctx ctx).lease), used := s.now,
                           keep := ke, early := ea }).hintHome part line hint, c.bytes, 0)
    | none =>
      let (s', b) := (s.countDie (line * 128) core 1).fillAtHome core ctx line hint
      (s', b, s.serveBits part line)

/-- R69, R98: the latest lease end that bears on a write to a line: what any slice records of the line, and what the home keeps for
the lines of the set; a line of host memory belongs to the sets of every partition. -/
def State.leaseOf (s : State) (part line : Nat) : Nat :=
  let die := s.homeDie (line * 128)
  let lost := s.lostLeases.filter fun x => x.1 == die && (isHost (line * 128) || x.2.1 == part)
  max (((s.homes.filter fun h => h.line == line).map (·.lease)).foldl max 0) ((lost.map (·.2.2)).foldl max 0)

/-- R98: the completion time of a write performed now to a line. -/
def State.wctOf (s : State) (part line : Nat) : Nat := max s.now (s.leaseOf part line) + Config.skew

/-- R70: bytes of a store performed at their home: the issuing core's copy follows, the issuing die's copy goes. -/
def State.writeHome (s : State) (core part key : Nat) (bs : List Byte) : State :=
  let line := key / 128
  let s := (s.store part key bs).dropCopy part true (dieOf core) line
  { s with copies := s.copies.map fun c =>
      if !c.l2 && c.place == core && c.line == line && c.owner == part then
        { c with bytes := c.bytes.take (key % 128) ++ bs ++ c.bytes.drop (key % 128 + bs.length) }
      else c }

/-- R97, R105: a skein has read or written lines past its core's copy: copies of them that were filled until now serve it no more.
A copy's lease has ended 256 ticks after its fill (R68). -/
def State.noteFloor (s : State) (u : Nat) (lines : List Nat) : State :=
  if lines.isEmpty then s
  else s.updSk u fun k =>
    { k with floors := lines.map (fun l => (l, s.now)) ++ k.floors.filter fun x => decide (s.now < x.2 + 256) && !lines.contains x.1 }

/-- R97, R101, R105: the tick from which on a copy of a line must have been filled to serve a skein. -/
def Skein.freshFrom (k : Skein) (line : Nat) : Nat :=
  max k.acquire (((k.floors.find? fun x => x.1 == line).map (·.2 + 1)).getD 0)

/-! ### Sampling (R401, R403) -/

/-- R401: the issue counted; whether it is sampled. An instruction that issues again after a halt or a held fault has been counted,
and was sampled or not, at its issue. -/
def State.sampleIssue (s : State) : State × Bool :=
  let k := s.cur
  let d := s.debugOf k.ctx
  if d.k = 0 then (s, false)
  else match k.again.find? fun x => x.1 == s.issue.pc with
  | some x => (s.updCur fun k => { k with again := k.again.erase x }, x.2)
  | none =>
    let n := ((d.counts.find? fun c => c.1 == k.core).map (·.2)).getD 0 + 1
    let hit := decide (2 ^ d.k.toNat ≤ n)
    (s.updCtx k.ctx fun c => { c with dbg := { c.dbg with
        counts := (k.core, if hit then 0 else n) :: c.dbg.counts.filter fun x => x.1 != k.core } }, hit)

/-- R363, R401: an instruction held for the driver has not issued yet: it counts when it issues again, so the counts stand as they did
before (log 35). -/
def State.unsample (s before : State) : State :=
  let c := before.cur.ctx
  if (before.debugOf c).k = 0 then s
  else (s.updCtx c fun x => { x with dbg := { x.dbg with counts := (before.ctx c).dbg.counts } }).updCur fun k =>
    { k with again := before.cur.again }

/-- R401: an instruction of a skein that will issue again has been counted; whether it is sampled. -/
def State.recount (s : State) (u : Nat) (pc : Lane) (sampled : Bool) : State :=
  s.updSk u fun k => { k with again := (pc, sampled) :: k.again }

/-- R403: an instruction has issued: its retries belong to no later one at its PC. -/
def State.issued (s : State) : State :=
  s.updCur fun k => if k.retries.1 = s.issue.pc then { k with retries := (0, 0) } else k

/-- R403: a sampled access has ended in a fault: its lanes have not taken effect, and no other is awaited from it. -/
def State.sampleFail (s : State) (a : Access) : State :=
  { s with samples := s.samples.map fun (x : Sample) =>
      if some x.id == a.sample then { x with left := x.left - 1, taken := x.taken &&& ~~~ laneMask fun l => a.lanes.any fun y => y.lane == l } else x }

/-- A sampled access has completed in its lanes. -/
def State.sampleDone (s : State) (a : Access) (serve : Nat) : State :=
  match a.sample with
  | none => s
  | some i =>
    let lane := (a.lanes.map (·.lane)).foldl min 32
    { s with samples := s.samples.map fun x =>
        if x.id != i then x
        else { x with
          left := x.left - 1
          last := if x.at' = s.now ∧ x.last < lane then x.last else lane
          at' := s.now
          serve := x.serve ||| serve ||| (match a.place with | .peer _ => 2 | .scratch _ => 4 | .seep _ => 8 | .global => 0) } }

/-- SAMPLE_RECORD (R401, R402): written once the last lane has completed, behind what completed before. -/
def execSampleRecord (id : Nat) (s : State) : Host.Outcome State Fault Refusal :=
  match s.samples.find? fun x => x.id == id with
  | some x => .next (if s.nextSample x.ctx = some x then s.putSample x else s)
  | none => .next s

/-! ### Forming the accesses of an instruction -/

/-- What translating a lane gave. -/
inductive Formed
  | trap (t : Trap)
  /-- No valid entry (R363): address, bad bit. -/
  | miss (a : Lane) (bad : Bool)
  | ok (xs : List (Place × LaneAcc))
deriving DecidableEq, Repr

/-- A memory instruction as its checks and effect see it. -/
structure MemReq where
  instr : Instr
  g     : Guard
  m     : MemOp
  /-- Bytes each lane checks against its space; whether alignment applies. -/
  n     : Nat
  align : Bool := true
  /-- Access kind (R348), permissions needed, tags accepted (R240). -/
  acc   : Nat
  r     : Bool
  w     : Bool
  tags  : List Nat
  /-- Registers read at issue or after, written, and held. -/
  srcs  : List Reg := []
  dsts  : List Reg := []
  range : Option Stop := none
  kind  : AccKind
  order : BitVec 2 := 0
  scope : Nat := 0
  hint  : BitVec 2 := 0
  data  : Option Reg := none
  cmp   : Option Reg := none

/-- The scratch bytes of the issuing skein's team. -/
def State.scratchLim (s : State) : Nat := (s.team s.cur.team).scratchBytes
/-- The seep bytes of its grid (R61). -/
def State.seepLim (s : State) : Nat := match s.gridOf (s.team s.cur.team) with | some g => 4096 * g.seep | none => 0
/-- The seep instance it reaches (R63). -/
def State.seepOf (s : State) : Nat :=
  match s.gridOf (s.team s.cur.team) with
  | some g => ((s.seeps.find? fun i => i.grid == g.uid && i.cluster == clusterOf s.cur.core).map (·.uid)).getD 0
  | none => 0

/-- R61: the trap of a lane outside its space. -/
def State.ckRange (s : State) (tag n acc : Nat) (a : Lane) : Option Stop :=
  let past (lim : Nat) (k : Byte) (x : Lane) : Option Stop :=
    if lim < a.toNat + n then some (.trap { kind := k, addr := u64 (max a.toNat lim), aux := x }) else none
  match tag with
  | 0 => if canonical a then none else some (.trap { kind := 4, addr := a, aux := u64 acc })
  | 1 => past s.scratchLim 4 (u64 acc)
  | _ => past s.seepLim 6 0

/-- The first lane that a check stops. -/
def firstLane (f : Nat → Option Stop) : List Nat → Option Stop
  | [] => none
  | l :: ls => match f l with | some x => some x | none => firstLane f ls

/-- R245 step 4, R386: one lane's place. -/
def State.formLane (s : State) (q : MemReq) (tag l : Nat) (a : Lane) (data cmp : Lane) : State × Formed :=
  let k := s.cur
  let reg := match q.dsts with | d :: _ => k.resolve l d | [] => 0
  let x (addr : Nat) : LaneAcc := ⟨l, a, addr, data, cmp, reg⟩
  match tag with
  | 1 => let b := (s.team k.team).scratchBase; (s, .ok [(.scratch b, x (b + a.toNat))])
  | 2 => (s, .ok [(.seep s.seepOf, x a.toNat)])
  | _ =>
    match s.translate k.ctx a with
    | (s, .error bad) => (s, .miss a bad)
    | (s, .ok t) =>
      let prot : Formed := .trap { kind := 4, addr := a, aux := u64 q.acc }
      if (q.r && !t.r) || (q.w && !t.w) then (s, prot)
      else if t.kind = 2 then
        (s, if s.peerRefused (s.ctx k.ctx).part t.dev then prot else .ok [(.peer t.dev, x t.addr)])
      else (s, .ok [(.global, x t.key)])

/-- Every lane's place, in ascending lane order; the first failing lane decides. -/
def State.formAll (s : State) (q : MemReq) (tag : Nat) : List (Nat × Lane) → State × Formed
  | [] => (s, .ok [])
  | (l, a) :: rest =>
    let k := s.cur
    let val (r : Option Reg) : Lane := match r with | some f => k.read f l | none => 0
    match s.formLane q tag l a (val q.data) (val q.cmp) with
    | (s, .ok xs) =>
      match s.formAll q tag rest with
      | (s, .ok ys) => (s, .ok (xs ++ ys))
      | r => r
    | r => r

/-- R244, R91: the request a lane belongs to: its line, or its tile. -/
def unitOf (x : Place × LaneAcc) : Place × Nat :=
  (x.1, match x.1 with | .seep _ => x.2.addr / 4096 | _ => x.2.addr / 128)

/-- The requests of an instruction, each with the lanes it serves, ascending. -/
def groupUnits (xs : List (Place × LaneAcc)) : List (Place × List LaneAcc) :=
  ((xs.map unitOf).dedup).map fun u => (u.1, (xs.filter fun x => unitOf x == u).map (·.2))

/-! ### Replayable faults (R363) -/

/-- R363: a fault is held and the driver told: the record's sequence number. -/
def State.holdFault (s : State) (c : Nat) (f : HeldFault) : Nat × State :=
  let seq := (s.ctx c).faultSeq + 1
  let s := s.updCtx c fun x => { x with faultSeq := seq, faults := x.faults ++ [{ f with seq := seq }] }
  (seq, (s.event c (s.record32 0x28 (toBytes 2 c ++ [f.kind, if f.bad then 1 else 0] ++ toBytes 8 f.addr.toNat ++
    toBytes 4 seq))).signalCtx c)

/-- The issuing instruction waits for the driver. -/
def State.holdIssue (s : State) (i : Instr) (kind : Byte) (a : Lane) (bad : Bool) : State :=
  let k := s.cur
  let (seq, s) := s.holdFault k.ctx { seq := 0, kind := kind, addr := a, bad := bad, sk := some k.uid }
  s.beginWait (.replay seq) i

/-! ### The memory instruction -/

/-- Outstanding load instructions of a skein (R357). -/
def Skein.loads (k : Skein) : Nat := (k.ops.filter fun o => o.load && o.fail.isNone).length

/-- R113, R111, R102, R357: what holds or traps an instruction once its places are known. -/
def State.ckLimits (s : State) (q : MemReq) (xs : List (Place × LaneAcc)) : Option Stop :=
  let k := s.cur
  let peers := if q.kind = .store then ((groupUnits xs).filter fun u => u.1.isPeer).length else 0
  let some' := !xs.isEmpty
  firstStop [
    if peers != 0 && decide (8 ≤ k.faultQ.length) then k.remoteTrap else none,
    holdIf (peers != 0 && decide (64 < k.unacked + peers)),
    holdIf (some' && q.kind.reads && decide (16 ≤ k.loads)),
    if some' && q.order.getLsbD 1 then s.ckRelease q.scope else none,
    s.ckFlag (some' && !q.dsts.isEmpty) (some' && q.data.isSome)]

/-- R111, R386, R388: a peer access that no flit can carry. -/
def State.queueFault (s : State) (u : Nat) (f : FaultRec) (posted : Bool) : State :=
  s.updSk u fun k =>
    let k : Skein := match f.op with
      | some id => { k with ops := k.ops.map fun (o : LongOp) => if o.id == id then { o with fail := some .remote } else o }
      | none => k
    if k.faultQ.length < 8 then { k with faultQ := k.faultQ ++ [f], unacked := if posted then k.unacked - 1 else k.unacked }
    else { k with faultHeld := k.faultHeld ++ [f], unacked := if posted then k.unacked else k.unacked + 1 }

/-- The record a faulting access leaves (R113); of a request that serves several lanes, the lowest lane's (DESIGN CHOICE, log 75). -/
def Access.record (a : Access) (code : Byte) : FaultRec :=
  let l := (a.lanes.head?).getD ⟨0, 0, 0, 0, 0, 0⟩
  ⟨l.lane, a.pc, l.va, code, if a.posted then none else a.op⟩

/-- R112, R113: an access ends in a fault record. -/
def State.failAccess (s : State) (a : Access) (code : Byte) : State :=
  (({ s with accesses := s.accesses.filter fun x => x.id != a.id }.sampleFail a).queueFault a.sk (a.record code) a.posted).settle a.sk

/-- A seep instance. -/
def State.seepInst (s : State) (i : Nat) : SeepInst := (s.seeps.find? fun x => x.uid == i).getD ⟨i, 0, 0, 0, 0, []⟩
/-- A tile of an instance. -/
def SeepInst.tile (i : SeepInst) (n : Nat) : Tile := (i.states.find? fun t => t.idx == n).getD { idx := n }
/-! ### When an access may be performed -/

/-- The line or tile of a request. -/
def Access.unit (a : Access) : Place × Nat := unitOf (a.place, (a.lanes.head?).getD ⟨0, 0, 0, 0, 0, 0⟩)

/-- The lines of a request: those of a panel are several (R106). -/
def Access.units (a : Access) : List (Place × Nat) := (a.lanes.map fun x => unitOf (a.place, x)).dedup

/-- A seep tile is held by a renew. -/
def State.tileBusy (s : State) (a : Access) : Option Nat :=
  match a.place with
  | .seep i => ((s.seepInst i).tile a.unit.2).busy
  | _ => none

/-- R90: a pump segment that found the tile busy keeps its place: what was issued after it comes behind it. -/
def State.pumpAhead (s : State) (a : Access) : Bool :=
  match a.place with
  | .seep i => s.ops.any fun o => o.atTiles.any fun x => x.1 == i && x.2.1 == a.unit.2 && decide (x.2.2 < a.seq)
  | _ => false

/-- R115: the loads of a skein that is out, which its restore performs anew. -/
def State.entriesOut (s : State) (u ctx : Nat) : List Access :=
  match s.sk? u with
  | some k => k.replays
  | none => ((s.ctx ctx).image.toList.flatMap (·.skeins)).flatMap fun x => if x.sk.uid == u then x.replay else []

/-- R97, R101, R92, R111, R115: the earlier accesses of its skein that an access waits for, loads that a restore performs anew among
them. Posted stores keep their order on their channel. -/
def State.mustWait (s : State) (a : Access) : Bool :=
  (s.accesses.filter (fun b => b.sk == a.sk) ++ s.entriesOut a.sk a.ctx).any fun b =>
    decide (b.seq < a.seq) && !b.done && !(a.posted && b.posted && b.out) &&
      (b.units.any a.units.contains || b.order.getLsbD 0 ||
        (match a.place, b.place with | .seep _, .seep _ => (s.tileBusy b).isNone | _, _ => false))

/-- The flit kind of a peer access and its channel (R380). -/
def AccKind.flit : AccKind → BitVec 4 × BitVec 2
  | .store | .panelWrite => (4, 1)
  | .atomic _ => (5, 2)
  | _ => (3, 2)

/-- A mask of the bytes of a line. -/
def byteMask (p : Nat → Bool) : List Byte :=
  (List.range 16).map fun i => BitVec.ofNat 8 ((List.range 8).foldl (fun a j => a + if p (8 * i + j) then 2 ^ j else 0) 0)

/-- R380: the payloads of the flits that carry a request for one line: its domain address and the request's tag, then for a load
the bytes asked for, for a store the bytes written and the line's bytes with them, for an atomic the operation, the width, and for
each lane its place in the line, its operand and its comparand, twelve lanes to a flit. The layout is the model's (log 82). -/
def Access.payloads (a : Access) : List (List Byte) :=
  let l := (a.lanes.head?).getD ⟨0, 0, 0, 0, 0, 0⟩
  let head := toBytes 8 (l.addr / 128 * 128) ++ toBytes 4 (a.id % 2 ^ 32)
  let hit (x : LaneAcc) (i : Nat) : Bool := decide (x.addr % 128 ≤ i) && decide (i < x.addr % 128 + a.width)
  match a.kind with
  | .atomic op =>
    (List.range ((a.lanes.length + 11) / 12)).map fun i =>
      head ++ [op.bits.setWidth 8] ++ toBytes 1 a.width ++ ((a.lanes.drop (12 * i)).take 12).flatMap fun x =>
        toBytes 1 (x.addr % 128) ++ toBytes a.width x.data.toNat ++ (if op = .cas then toBytes a.width x.cmp.toNat else [])
  | .store =>
    [head ++ byteMask (fun i => a.lanes.any fun x => hit x i) ++ (List.range 128).map fun i =>
      match a.lanes.reverse.find? fun x => hit x i with
      | some x => BitVec.ofNat 8 (x.data.toNat / 256 ^ (i - x.addr % 128) % 256)
      | none => 0]
  | _ => [head ++ byteMask fun i => a.lanes.any fun x => hit x i]

/-- R113, R114: a fault record arrives for an access of a peer page; from the halt of its context on it goes to the context table,
behind the records that are there. What a context that is gone has sent ends with nobody to hear of it (R355). -/
def State.recordArrives (s : State) (a : Access) (code : Byte) : State :=
  match s.sk? a.sk, (s.ctx a.ctx).halted with
  | some _, false => s.failAccess a code
  | _, _ =>
    let s := { s with accesses := s.accesses.filter fun x => x.id != a.id }.sampleFail a
    if (s.ctx a.ctx).halted || (s.ctx a.ctx).image.isSome then
      s.updCtx a.ctx fun c => { c with outRecs := c.outRecs ++ [(a.sk, a.record code, a.posted)] }
    else s

/-- A peer access leaves the device, or comes back at once with code 0x05 (R386), to wherever its skein is (R114). -/
def State.sendPeer (s : State) (a : Access) (dev : Nat) : State :=
  if s.peerLost then s.recordArrives a 5
  else
    let l := (a.lanes.head?).getD ⟨0, 0, 0, 0, 0, 0⟩
    a.payloads.foldl (fun s p => s.sendFlit dev l.addr a.kind.flit.1 a.kind.flit.2 p) s

/-- R97, R101: a peer access leaves once no earlier access of its skein holds it back. -/
def State.trySend (s : State) (a : Access) (dev : Nat) : State :=
  if s.mustWait a then s
  else
    let a := { a with out := true, sent := s.now }
    { s with accesses := s.accesses.map fun (x : Access) => if x.id == a.id then a else x }.sendPeer a dev

/-- One request made by the issuing instruction. -/
def State.request (s : State) (q : MemReq) (op sample : Option Nat) (u : Place × List LaneAcc) : State :=
  let k := s.cur
  let (id, s) := s.fresh
  let a : Access :=
    { id := id, seq := id, sk := k.uid, op := op, grid := (s.team k.team).grid, ctx := k.ctx, owner := (s.ctx k.ctx).part, core := k.core
      kind := q.kind, place := u.1, width := q.n, lanes := u.2
      pc := s.issue.pc, instr := q.instr, order := q.order, scope := q.scope, hint := q.hint, sent := s.now, sample := sample }
  let s := { s with accesses := s.accesses ++ [a] }
  let s := if a.posted then s.updCur fun k => { k with unacked := k.unacked + 1 } else s
  match u.1, q.kind with
  | .peer dev, _ => s.trySend a dev
  | .global, .atomic _ =>
    u.2.foldl (fun s x => (s.dropCopy a.owner false k.core (x.addr / 128)).dropCopy a.owner true (dieOf k.core) (x.addr / 128)) s
  | _, _ => s

/-- Distinct 32-byte sectors of the places of an instruction. -/
def sectors (xs : List (Place × LaneAcc)) : Nat := ((xs.map fun x => (x.1, x.2.addr / 32)).dedup).length

/-- R403: distinct 128-byte lines of the places of an instruction. -/
def lineCount (xs : List (Place × LaneAcc)) : Nat := ((xs.map fun x => (x.1, x.2.addr / 128)).dedup).length

/-- The sample of an instruction at issue. -/
def State.newSample (s : State) (xs : List (Place × LaneAcc)) (units : Nat) : State :=
  let k := s.cur
  let (id, s) := s.fresh
  let w := s.issue.words.headD 0
  let rt := if k.retries.1 = s.issue.pc then k.retries.2 else 0
  { s with samples := s.samples ++ [
    { id := id, ctx := k.ctx, head := (s.traceBytes k 0x30 s.issue.pc s.now []).take 32, left := units, since := s.now, at' := s.now
      taken := laneMask fun l => xs.any fun x => x.2.lane == l
      op := Word.opcode w, form := (Word.fld w 13 2).toNat * 8 + (Word.fld w 0 3).toNat, lines := lineCount xs
      sectors := sectors xs, replays := rt }] }

/-- R401, R403: a sampled instruction that no lane passes: nothing is awaited of it. -/
def State.sampleNone (s : State) (hit : Bool) : State := if hit then s.newSample [] 0 else s

/-- R244, R248, R143: the effect at issue: the long operation begun, the requests made, the group moved past. -/
def State.memEffect (s : State) (q : MemReq) (xs : List (Place × LaneAcc)) (hit : Bool) : State :=
  let units := groupUnits xs
  let s := (if hit then s.newSample xs units.length else s).issued
  let sample := if hit then (s.samples.getLast?).map (·.id) else none
  if xs.isEmpty then (s.updCur fun k => k.dull s.executing q.dsts.head?).advance
  else
    let (id, s) := s.fresh
    let reads := !q.dsts.isEmpty
    let (sa, sb) := s.track reads q.data.isSome
    let pend := q.dsts.flatMap (s.takeNames q.g)
    let o : LongOp :=
      { id := id, lanes := laneMask (s.passing q.g), pend := pend
        held := ((q.data.toList ++ q.cmp.toList).flatMap (s.takeNames q.g)).dedup
        setA := sa, setB := sb, await := if reads then units.length else 0, load := q.kind.reads
        pushing := match q.kind with | .seepLoad _ | .renew => true | _ => false
        uni := decide (xs.length = 32) && decide (pend.length = 1) && q.kind.reads && xs.all fun x => x.2.va == ((xs.head?).map (·.2.va)).getD 0 }
    let s := s.updCur fun k => k.begin s.now o
    (units.foldl (fun s u => s.request q (if reads then some id else none) sample u) s).advance

/-- The lanes that take effect, with their addresses (R239). -/
def State.memLanes (s : State) (q : MemReq) : List (Nat × Lane) :=
  (allLanes.filter (s.passing q.g)).map fun l => (l, s.cur.addr q.m.stream.toNat q.m.off l)

/-- The space tag of the instruction's stream. -/
def State.memTag (s : State) (q : MemReq) : Nat := (s.cur.streamTag q.m.stream.toNat).toNat

/-- R245, steps 1 to 3. -/
def State.memCheck (s : State) (q : MemReq) : Option Stop :=
  let tag := s.memTag q
  let addr := fun l => s.cur.addr q.m.stream.toNat q.m.off l
  let lanes := allLanes.filter (s.passing q.g)
  firstStop [
    s.ckOperands (offRegs q.m.off ++ q.srcs.map plain) q.dsts (firstStop [q.range, illIf (!q.tags.contains tag) .state]),
    firstLane (fun l => s.ckRange tag q.n q.acc (addr l)) lanes,
    if q.align then
      firstLane (fun l => if (addr l).toNat % q.n = 0 then none else some (.trap { kind := 5, addr := addr l, aux := u64 q.acc })) lanes
    else none]

/-- A memory instruction (R245): its checks in order, then its effect. -/
def State.memOp (s0 : State) (q : MemReq) : Host.Outcome State Fault Refusal :=
  let (s, hit) := s0.sampleIssue
  match s.memCheck q with
  | some x => s.finish (some x) s
  | none =>
    match s.formAll q (s.memTag q) (s.memLanes q) with
    | (s, .trap t) => .next (s.takeTrap t)
    | (s, .miss a b) => .next ((s.unsample s0).holdIssue q.instr (BitVec.ofNat 8 q.acc) a b)
    | (s, .ok xs) => s.finish (s.ckLimits q xs) (s.memEffect q xs hit)

/-! ### Landing (R143, R167, R244, R308) -/

/-- Lane values written into physical registers, a later one of a lane over an earlier. -/
def Skein.landWrites (k : Skein) (uni : Bool) (ws : List LaneWrite) : Skein :=
  ((ws.map (·.reg)).dedup).foldl (fun k r =>
    let mine := (ws.filter fun w => w.reg == r).reverse
    let val := fun l => ((mine.find? fun w => w.lane == l).map (·.val)).getD 0
    let bad := fun l => ((mine.find? fun w => w.lane == l).map (·.poison)).getD false
    let p := fun l => mine.any fun w => w.lane == l
    { k with regs := bankUpd 64 {} k.regs r fun x =>
        let y := x.put p val (if uni && allLanes.all p then Tag.uniform.norm val else .general)
        { y with poison := y.poison ||| laneMask bad } }) k

/-- R88: predicates pushed when a long operation lands. -/
def Skein.landPushes (k : Skein) (o : LongOp) : Skein :=
  k.updThreads (fun l => o.pushes.any fun p => p.1 == l) fun l t => t.push (((o.pushes.find? fun p => p.1 == l).map (·.2)).getD false)

/-- R125: flags set when a long operation lands. -/
def Skein.landFlags (k : Skein) (o : LongOp) : Skein :=
  k.updThreads (fun l => o.flags.any fun p => p.1 == l) fun l t => t.stick (((o.flags.find? fun p => p.1 == l).map (·.2)).getD 0)

/-- R143, R308: a long write lands: registers written, pending marks clear, the setA count falls. -/
def Skein.land (k : Skein) (o : LongOp) : Skein :=
  let k := ((k.landWrites o.uni o.writes).landPushes o).landFlags o
  let o' := { o with pend := [], writes := [], pushes := [], flags := [], setA := none, load := false }
  { k with
    flags := decFlag k.flags o.setA
    ops := k.ops.flatMap fun x => if x.id == o.id then (if o.held.isEmpty && o.setB.isNone then [] else [o']) else [x] }

/-- R88: an earlier operation of the skein that pushes predicates in a lane of this one has still to land. -/
def Skein.pushesAhead (k : Skein) (o : LongOp) : Bool :=
  o.pushing && (k.ops.takeWhile fun x => x.id != o.id).any fun x => x.pushing && !x.pend.isEmpty && x.lanes &&& o.lanes != 0

/-- REGISTER_WRITE_LAND. Operations that push predicates land in the order of issue (R88). -/
def execRegisterWriteLand (sk op : Nat) (s : State) : Host.Outcome State Fault Refusal :=
  match (s.sk sk).ops.find? fun o => o.id == op with
  | some o =>
    .next (if o.pend.isEmpty || o.await != 0 || o.fail.isSome || o.matrix || (s.sk sk).pushesAhead o then s
      else (s.updSk sk fun k => k.land o).settle sk)
  | none => .next s

/-- R143, R308: a long read has read its registers: held marks clear, the setB count falls. -/
def Skein.releaseSrc (k : Skein) (o : LongOp) : Skein :=
  { k with
    flags := decFlag k.flags o.setB
    ops := k.ops.flatMap fun x =>
      if x.id == o.id then (if o.pend.isEmpty then [] else [{ o with held := [], setB := none }]) else [x] }

/-- SOURCE_RELEASE. -/
def execSourceRelease (sk op : Nat) (s : State) : Host.Outcome State Fault Refusal :=
  match (s.sk sk).ops.find? fun o => o.id == op with
  | some o => .next (if (o.held.isEmpty && o.setB.isNone) || o.matrix then s else (s.updSk sk fun k => k.releaseSrc o).settle sk)
  | none => .next s

/-- Values that a request brings for its long operation; while its skein is out they wait in the context table (R115). -/
def State.deliver (s : State) (a : Access) (ws : List LaneWrite) (ps : List (Nat × Bool)) : State :=
  match a.op, s.sk? a.sk with
  | some id, some _ =>
    s.updSk a.sk fun k => { k with ops := k.ops.map fun o =>
      if o.id == id then
        { o with await := o.await - 1, writes := o.writes ++ ws, pushes := o.pushes ++ ps }
      else o }
  | some id, none => s.updCtx a.ctx fun c => { c with outVals := c.outVals ++ [(a.sk, id, ws)] }
  | none, _ => s

/-! ### Performing (R95 to R99, R105) -/

/-- The value a load gives a lane (R243). -/
def loadVal (sx : Bool) (bs : List Byte) : Lane :=
  if sx then BitVec.ofInt 64 (sgn (8 * bs.length) (ofBytes bs)) else u64 (ofBytes bs)

/-- The bytes a lane stores. -/
def storeBytes (a : Access) (x : LaneAcc) : List Byte := toBytes a.width x.data.toNat

/-- R247: the new value of an atomic. -/
def amoNew (op : AmoOp) (w old y c : Nat) : Nat :=
  match op with
  | .swap => y
  | .cas => if old = c then y else old
  | .add => (old + y) % 2 ^ w
  | .and => old &&& y
  | .or => old ||| y
  | .xor => old ^^^ y
  | .minI => if sgn w y < sgn w old then y else old
  | .maxI => if sgn w old < sgn w y then y else old
  | .minN => min old y
  | .maxN => max old y
  | .fadd =>
    let F := if w = 32 then f32 else f64
    (fAddV F ⟨0, false, false, false, false⟩ (decodeF F old) (decodeF F y)).1

/-- Bytes of a place as a core reads them there. -/
def State.placeRead (s : State) (a : Access) (x : LaneAcc) : List Byte :=
  match a.place with
  | .scratch _ => s.mem.readN (scratchKey a.core x.addr) a.width
  | _ => s.load a.owner x.addr a.width

/-- The key of a lane's bytes, for poison. -/
def Access.key (a : Access) (x : LaneAcc) : Nat :=
  match a.place with
  | .scratch _ => scratchKey a.core x.addr
  | .seep i => seepKey i x.addr
  | _ => x.addr

/-- Bytes of a place written there. -/
def State.placeWrite (s : State) (a : Access) (x : LaneAcc) (bs : List Byte) : State :=
  match a.place with
  | .scratch _ => s.store 0 (scratchKey a.core x.addr) bs
  | _ => s.writeHome a.core a.owner x.addr bs

/-- The access taken off the list, or kept until its WCT has returned. -/
def State.finishAccess (s : State) (a : Access) (wct : Option Nat) : State :=
  { s with accesses := s.accesses.flatMap fun x =>
      if x.id != a.id then [x]
      else match wct with
        | none => []
        | some w => [{ x with done := true, wct := w }] }

/-- The completion time of a performed write at its place (R98). -/
def State.placeWct (s : State) (a : Access) : Nat :=
  match a.place with
  | .global => (a.lanes.map fun x => s.wctOf a.owner (x.addr / 128)).foldl max 0
  | _ => s.nowAt (clusterOf a.core)

/-- R101: what an acquiring access does when it returns; its own fill comes after the drop and is kept. -/
def State.acquireBy (s : State) (a : Access) : State :=
  if a.order.getLsbD 0 then s.acquire a.sk a.scope s.now else s

/-- R243, R96: a load performed. -/
def State.performLoad (s : State) (a : Access) (sx : Bool) : State :=
  let bad (x : LaneAcc) : Bool := s.poisonAt (a.key x) a.width
  let ret (s : State) (serve : Nat) (f : LaneAcc → List Byte) : State :=
    (((s.deliver a (a.lanes.map fun x => ⟨x.reg, x.lane, loadVal sx (f x), bad x⟩) []).finishAccess a none).sampleDone a serve).settle a.sk
  match a.place with
  | .global =>
    let x0 := (a.lanes.head?).getD ⟨0, 0, 0, 0, 0, 0⟩
    let line := x0.addr / 128
    let acq := (s.sk a.sk).freshFrom line
    let well := s.serveBits a.owner line
    let s := s.acquireBy a
    let (s, b, serve) := if a.order.getLsbD 0 then
        (let (s, b) := (s.countDie x0.addr a.core 1).fillAtHome a.core a.ctx line a.hint; (s, b, well))
      else s.readLine a.core a.ctx line acq a.hint
    ret s serve fun x => (b.drop (x.addr % 128)).take a.width
  | _ => ret (s.acquireBy a) 0 (s.placeRead a)

/-- R66, R75, R77: what an access to global memory leaves at its line's home and in the issuing core's copy. -/
def State.visitHome (s : State) (a : Access) : State :=
  match a.place with
  | .global =>
    let x0 := (a.lanes.head?).getD ⟨0, 0, 0, 0, 0, 0⟩
    ((s.countDie x0.addr a.core 1).fillHome (x0.addr / 128) a.owner a.hint).hintCopy a.owner a.core (x0.addr / 128) a.hint
  | _ => s

/-- R403: what the home of an access reads from the well. -/
def State.wellBits (s : State) (a : Access) : Nat :=
  match a.place with
  | .global => (a.lanes.map fun x => s.serveBits a.owner (x.addr / 128)).foldl max 0
  | _ => 0

/-- The lines of global memory that an access touches. -/
def Access.lines (a : Access) : List Nat :=
  match a.place with
  | .global => (a.lanes.map fun x => x.addr / 128).dedup
  | _ => []

/-- R243, R244: a store performed, its lanes in ascending order. -/
def State.performStore (s : State) (a : Access) : State :=
  let well := s.wellBits a
  let s := (a.lanes.foldl (fun s x => s.placeWrite a x (storeBytes a x)) s).visitHome a
  let s := if (s.sk a.sk).core = a.core then s else s.noteFloor a.sk a.lines
  (s.finishAccess a (some (s.placeWct a))).sampleDone a well

/-- R105: bytes that an atomic writes at its place: no copy of its line changes. -/
def State.atomicWrite (s : State) (a : Access) (x : LaneAcc) (bs : List Byte) : State :=
  match a.place with
  | .scratch _ => s.store 0 (scratchKey a.core x.addr) bs
  | _ => s.store a.owner x.addr bs

/-- R105, R248: one lane of an atomic. -/
def State.atomicLane (a : Access) (op : AmoOp) (p : State × List LaneWrite) (x : LaneAcc) : State × List LaneWrite :=
  let old := ofBytes (p.1.placeRead a x)
  let w := 8 * a.width
  (p.1.atomicWrite a x (toBytes a.width (amoNew op w old (x.data.toNat % 2 ^ w) (x.cmp.toNat % 2 ^ w))),
    p.2 ++ [⟨x.reg, x.lane, u64 old, p.1.poisonAt (a.key x) a.width⟩])

/-- R105, R248: an atomic performed at its home, lanes ascending. -/
def State.performAtomic (s : State) (a : Access) (op : AmoOp) : State :=
  let well := s.wellBits a
  let (s, ws) := a.lanes.foldl (State.atomicLane a op) (s, [])
  let s := (s.visitHome a).noteFloor a.sk a.lines
  ((((s.acquireBy a).deliver a ws []).finishAccess a (some (s.placeWct a))).sampleDone a well).settle a.sk

/-! ### Seep tiles (R83 to R92) -/

/-- The cluster of an instance. -/
def State.seepCluster (s : State) (i : Nat) : Nat := (s.seepInst i).cluster

/-- A tile changed. -/
def State.updTile (s : State) (i n : Nat) (f : Tile → Tile) : State :=
  { s with seeps := s.seeps.map fun x =>
      if x.uid == i then { x with states := f (x.tile n) :: x.states.filter fun t => t.idx != n } else x }

/-- R86: the age of a tile at a tick. -/
def Tile.age (t : Tile) (T : Nat) : Nat := (BitVec.ofNat 32 T - t.birth).toNat
/-- R86: a live tile has expired at a tick. -/
def Tile.expired (t : Tile) (T : Nat) : Bool := t.state == .live && decide (Config.seepLife ≤ t.age T)
/-- R86: live at a tick. -/
def Tile.liveAt (t : Tile) (T : Nat) : Bool := t.state == .live && decide (t.age T < Config.seepLife)

/-- R88: bytes of a tile: zero in sectors that are not valid, and in a tile that is not live. -/
def State.tileBytes (s : State) (i : Nat) (t : Tile) (T off n : Nat) : List Byte :=
  (List.range n).map fun j =>
    let o := off + j
    if t.liveAt T && t.valid.getLsbD (o % 4096 / 256) then s.mem.read (seepKey i o) else 0

/-- R88: poison among bytes of a tile: there is none in sectors that are not valid, nor in a tile that is not live. -/
def State.tilePoison (s : State) (i : Nat) (t : Tile) (T off n : Nat) : Bool :=
  (List.range n).any fun j => t.liveAt T && t.valid.getLsbD ((off + j) % 4096 / 256) && s.poisonAt (seepKey i (off + j)) 1

/-- R88: a birth: live, born now, nothing valid. -/
def State.birth (s : State) (i n T : Nat) : State :=
  (s.zero (seepKey i (4096 * n)) 4096).updTile i n fun t =>
    { t with state := .live, birth := BitVec.ofNat 32 T, valid := 0 }

/-- R88: bytes written into a live tile; a sector first written is zero elsewhere. -/
def State.tileWrite (s : State) (i off : Nat) (bs : List Byte) : State :=
  let n := off / 4096
  let lo := off % 4096 / 256
  let hi := (off % 4096 + bs.length - 1) / 256
  let fresh := (List.range 16).filter fun c => decide (lo ≤ c) && decide (c ≤ hi) && !((s.seepInst i).tile n).valid.getLsbD c
  let s := fresh.foldl (fun s c => s.zero (seepKey i (4096 * n + 256 * c)) 256) s
  (s.store 0 (seepKey i off) bs).updTile i n fun t =>
    { t with valid := (List.range 16).foldl (fun v c => if lo ≤ c ∧ c ≤ hi then v ||| ((1 : BitVec 16) <<< c) else v) t.valid }

/-- R88: the lanes of one store to a tile, with the birth when it is not live. -/
def State.tileStore (s : State) (i n T : Nat) (ws : List (Nat × List Byte)) : State :=
  let s := if ((s.seepInst i).tile n).liveAt T then s else s.birth i n T
  ws.foldl (fun s w => s.tileWrite i w.1 w.2) s

/-- R88, R91: one seep operation performed on its tile at tick T. -/
def State.performSeep (s : State) (a : Access) (i T : Nat) : State :=
  let n := ((a.lanes.head?).getD ⟨0, 0, 0, 0, 0, 0⟩).addr / 4096
  let t := (s.seepInst i).tile n
  let live := t.liveAt T
  let back (s : State) (v : LaneAcc → Lane) (push : Option Bool) (bad : LaneAcc → Bool) : State :=
    (((s.deliver a (a.lanes.map fun x => ⟨x.reg, x.lane, v x, bad x⟩)
      (match push with | some b => a.lanes.map fun x => (x.lane, b) | none => [])).finishAccess a none).sampleDone a 0).settle a.sk
  match a.kind with
  | .seepLoad sx =>
    back (s.acquireBy a) (fun x => loadVal sx (s.tileBytes i t T x.addr a.width)) (some (!live))
      fun x => s.tilePoison i t T x.addr a.width
  | .renew =>
    let s' := if live then
        s.updTile i n fun t => { t with birth := BitVec.ofNat 32 T, busy := some (T + s.cycleTicks (s.seepCluster i) 64) }
      else s
    back s' (fun _ => if live then u64 Config.seepLife else 0) (some live) fun _ => false
  | .life => back s (fun _ => if live then u64 (Config.seepLife - t.age T) else 0) none fun _ => false
  | _ =>
    let s := s.tileStore i n T (a.lanes.map fun x => (x.addr, storeBytes a x))
    (s.finishAccess a (some T)).sampleDone a 0

/-- A place outside the capacity of R1 (log 6). -/
def Access.beyond (a : Access) : Option Nat :=
  match a.place with
  | .global => (a.lanes.find? fun x => !isWell x.addr && !isHost x.addr).map (·.addr)
  | _ => none

/-- SEEP_SWEEP_VISIT (R87). -/
def execSeepSweepVisit (seep tile : Nat) (s : State) : Host.Outcome State Fault Refusal :=
  .next (if ((s.seepInst seep).tile tile).expired (s.nowAt (s.seepCluster seep)) then s.updTile seep tile fun t => { t with state := .expired, valid := 0 } else s)

/-- A completion time that returns for a skein that is no longer there: kept in the context table while the context is out
(R114), else with the grid, whose retirement waits for it (R18). -/
def State.lateWct (s : State) (a : Access) (from' w : Nat) : State :=
  let note (x : Grid) : Grid := if some x.uid = a.grid then { x with wct := max x.wct w } else x
  if (s.ctx a.ctx).image.isSome then
    s.updCtx a.ctx fun c =>
      { c with outWct := c.outWct ++ [(a.sk, from', w)], image := c.image.map fun (im : Image) => { im with grids := im.grids.map note } }
  else
    match a.grid with
    | some g => s.updGrid g fun x => { x with wct := max x.wct w }
    | none => s

/-- WCT_RETURN (R98): the completion time reaches the skein, or the context table while it is out (R114). -/
def execWctReturn (id : Nat) (s : State) : Host.Outcome State Fault Refusal :=
  match s.accesses.find? fun a => a.id == id && a.done with
  | some a =>
    let s := { s with accesses := s.accesses.filter fun x => x.id != id }
    .next (match s.sk? a.sk with
      | some _ => (s.updSk a.sk fun k => k.noteWct 0 a.wct).settle a.sk
      | none => s.lateWct a 0 a.wct)
  | none => .next s

/-! ### What peers answer (R111 to R114, R385 to R387) -/

/-- R250: what a re-read of `waitw` at a peer brought. -/
def Wait.note (w : Wait) (vals : List LaneWrite) : Wait :=
  { w with
    vals := vals.map (fun v => (v.lane, v.val)) ++ w.vals.filter fun x => !(vals.any fun v => v.lane == x.1)
    asked := w.asked.filter fun l => !(vals.any fun v => v.lane == l) }

/-- The wait a peer's re-read belongs to takes its values. -/
def State.noteRead (s : State) (a : Access) (vals : List LaneWrite) : State :=
  let f (w : Wait) : Wait := if a.op == some w.id then w.note vals else w
  s.updSk a.sk fun k => { k with waits := k.waits.map f }

/-- R98, R114: the completion time of a peer's atomic reaches its skein, or the context table while it is out. -/
def State.peerWct (s : State) (a : Access) (data : List Lane) : State :=
  match a.kind with
  | .atomic _ =>
    let wct := (data.getD a.lanes.length 0).toNat
    match s.sk? a.sk with
    | some _ => s.updSk a.sk fun k => k.noteWct 2 wct
    | none => s.lateWct a 2 wct
  | _ => s

/-- RESPONSE (R112, R98): load data, or the old values of an atomic and after them its completion time (log 82). -/
def execResponse (id : Nat) (data : List Lane) (s : State) : Host.Outcome State Fault Refusal :=
  match s.accesses.find? fun a => a.id == id && a.place.isPeer && a.out && !a.posted with
  | some a =>
    let vals := (List.range a.lanes.length).map fun i =>
      let x := a.lanes.getD i ⟨0, 0, 0, 0, 0, 0⟩
      let w := 8 * a.width
      let v := (data.getD i 0).toNat % 2 ^ w
      let d : Lane := match a.kind with | .load true => BitVec.ofInt 64 (sgn w v) | _ => u64 v
      (⟨x.reg, x.lane, d, false⟩ : LaneWrite)
    .next ((((((s.acquireBy a).peerWct a data).deliver a vals []).noteRead a vals).finishAccess a none).sampleDone a 0 |>.settle a.sk)
  | none => .next s

/-- REMOTE_ACKNOWLEDGEMENT (R111, R98, R114): a posted store is acknowledged with its completion time. -/
def execRemoteAcknowledgement (id : Nat) (wct : Lane) (s : State) : Host.Outcome State Fault Refusal :=
  match s.accesses.find? fun a => a.id == id && a.posted && a.out with
  | some a =>
    let s := (s.finishAccess a none).sampleDone a 0
    .next (match s.sk? a.sk with
      | some _ => (s.updSk a.sk fun k => { k.noteWct 2 wct.toNat with unacked := k.unacked - 1 }).settle a.sk
      | none =>
        let s := s.lateWct a 2 wct.toNat
        if (s.ctx a.ctx).image.isSome then s.updCtx a.ctx fun c => { c with outAcks := c.outAcks ++ [(a.sk, 1)] } else s)
  | none => .next s

/-- FAULT_RECORD_ARRIVAL (R113). -/
def execFaultRecordArrival (id : Nat) (code : Byte) (s : State) : Host.Outcome State Fault Refusal :=
  match s.accesses.find? fun a => a.id == id && a.place.isPeer && a.out with
  | some a => .next (s.recordArrives a code)
  | none => .next s

/-! ### The instructions (R243 to R248) -/

/-- Width in bytes of a width code. -/
def widthOf (w : BitVec 2) : Nat := 2 ^ w.toNat

/-- No extension word: plain order, no hint. -/
def noExt : MemExt := ⟨true, 0, 0, 0, false⟩

/-- R100, R241, R242: the values an extension word may not have: cause 0x0A. -/
def ckExt (loads : Bool) (e : MemExt) : Option Stop :=
  illIf ((e.order != 0 && !e.x) || e.order == 3 || e.order == (if loads then 2 else 1) || decide (4 < e.scope.toNat) || e.hint == 3) .range

/-- A lane-wise load (R243). -/
def State.loadOp (s : State) (i : Instr) (g : Guard) (d : Reg) (m : MemOp) (w : BitVec 2) (e : MemExt) (tag : Nat) :=
  s.memOp { instr := i, g := g, m := m, n := widthOf w, acc := 0, r := true, w := false, tags := [tag], dsts := [d], range := ckExt true e
            kind := if tag = 2 then .seepLoad e.sx else .load e.sx, order := e.order, scope := e.scope.toNat, hint := e.hint }

/-- A lane-wise store (R243). -/
def State.storeOp (s : State) (i : Instr) (g : Guard) (d : Reg) (m : MemOp) (w : BitVec 2) (e : MemExt) (tag : Nat) :=
  s.memOp { instr := i, g := g, m := m, n := widthOf w, acc := 1, r := false, w := true, tags := [tag], srcs := [d], range := ckExt false e
            kind := if tag = 2 then .seepStore else .store, order := e.order, scope := e.scope.toNat, hint := e.hint, data := some d }

/-- ld (R243). -/
def execLd (g : Guard) (d : Reg) (m : MemOp) (w : BitVec 2) (s : State) := s.loadOp (.ld g d m w) g d m w noExt 0
/-- ld with its extension word (R243). -/
def execLdExt (g : Guard) (d : Reg) (m : MemOp) (w : BitVec 2) (e : MemExt) (s : State) := s.loadOp (.ldExt g d m w e) g d m w e 0
/-- st (R243). -/
def execSt (g : Guard) (d : Reg) (m : MemOp) (w : BitVec 2) (s : State) := s.storeOp (.st g d m w) g d m w noExt 0
/-- st with its extension word (R243). -/
def execStExt (g : Guard) (d : Reg) (m : MemOp) (w : BitVec 2) (e : MemExt) (s : State) := s.storeOp (.stExt g d m w e) g d m w e 0
/-- ldsc (R243). -/
def execLdsc (g : Guard) (d : Reg) (m : MemOp) (w : BitVec 2) (s : State) := s.loadOp (.ldsc g d m w) g d m w noExt 1
/-- ldsc with its extension word (R243). -/
def execLdscExt (g : Guard) (d : Reg) (m : MemOp) (w : BitVec 2) (e : MemExt) (s : State) := s.loadOp (.ldscExt g d m w e) g d m w e 1
/-- stsc (R243). -/
def execStsc (g : Guard) (d : Reg) (m : MemOp) (w : BitVec 2) (s : State) := s.storeOp (.stsc g d m w) g d m w noExt 1
/-- stsc with its extension word (R243). -/
def execStscExt (g : Guard) (d : Reg) (m : MemOp) (w : BitVec 2) (e : MemExt) (s : State) := s.storeOp (.stscExt g d m w e) g d m w e 1
/-- sld (R243, R88). -/
def execSld (g : Guard) (d : Reg) (m : MemOp) (w : BitVec 2) (s : State) := s.loadOp (.sld g d m w) g d m w noExt 2
/-- sld with its extension word (R243, R88). -/
def execSldExt (g : Guard) (d : Reg) (m : MemOp) (w : BitVec 2) (e : MemExt) (s : State) := s.loadOp (.sldExt g d m w e) g d m w e 2
/-- sst (R243, R88). -/
def execSst (g : Guard) (d : Reg) (m : MemOp) (w : BitVec 2) (s : State) := s.storeOp (.sst g d m w) g d m w noExt 2
/-- sst with its extension word (R243, R88). -/
def execSstExt (g : Guard) (d : Reg) (m : MemOp) (w : BitVec 2) (e : MemExt) (s : State) := s.storeOp (.sstExt g d m w e) g d m w e 2

/-- `srenew` and `slife` (R246). -/
def State.tileOp (s : State) (i : Instr) (g : Guard) (d : Reg) (m : MemOp) (kind : AccKind) :=
  s.memOp { instr := i, g := g, m := m, n := 1, align := false, acc := 0, r := true, w := false, tags := [2], dsts := [d], kind := kind }

/-- srenew (R246, R88, R89). -/
def execSrenew (g : Guard) (d : Reg) (m : MemOp) (s : State) := s.tileOp (.srenew g d m) g d m .renew
/-- slife (R246, R88). -/
def execSlife (g : Guard) (d : Reg) (m : MemOp) (s : State) := s.tileOp (.slife g d m) g d m .life

/-- amo (R247, R248). -/
def execAmo (g : Guard) (op : AmoOp) (d : Reg) (m : MemOp) (size : BitVec 3) (order : BitVec 2) (c : Reg) (scope : BitVec 3)
    (hint : BitVec 2) (s : State) :=
  let cas := if op = .cas then [c] else []
  s.memOp { instr := .amo g op d m size order c scope hint, g := g, m := m, n := if size = 3 then 8 else 4, acc := 2, r := true, w := true
            tags := [0, 1], srcs := d :: cas, dsts := [d]
            range := illIf ((size != 2 && size != 3) || decide (4 < scope.toNat) || hint == 3) .range
            kind := .atomic op, order := order, scope := scope.toNat, hint := hint, data := some d
            cmp := if op = .cas then some c else none }

end Sys2Proof.Machine
end

