-- ==== Sys2Proof/Machine/Engine.lean ====
section
/-!
DEFINITION. Timelines and handles (R109, R110, R276 to R279): how an engine's operation is numbered and named by a handle, how
it completes, what completes with it; `hwait`, `htest`, `hcancel`, `tlwait` (R285, R286).
-/

namespace Sys2Proof.Machine

/-! ### Numbering (R109, R277, R279) -/

/-- A handle register's word; the status bits show 0 while the operation is pending. -/
def handleWord (pending : Bool) (tl : Nat) (status : Byte) (n : Nat) : Lane :=
  bit1 pending ++ 0#4 ++ BitVec.ofNat 3 tl ++ status ++ BitVec.ofNat 48 n

/-- Operations of a timeline that have not completed. -/
def State.openOps (s : State) (team tl : Nat) : List EngineOp := s.ops.filter fun o => o.team == team && o.tl == tl && !o.done

/-- R279: a 65th operation waits at issue. -/
def State.ckTimeline (s : State) (tl : Nat) : Option Stop := holdIf (decide (64 ≤ (s.openOps s.cur.team tl).length))

/-- An operation accepted for the issuing skein: numbered, and named by a handle register. -/
def State.startOp (s : State) (hd tl : Nat) (o : EngineOp) : Nat × State :=
  let k := s.cur
  let (u, s) := s.fresh
  let n := (s.team k.team).tlIssued.getD tl 0 + 1
  let o := { o with uid := u, ctx := k.ctx, team := k.team, core := k.core, sk := k.uid, tl := tl, num := n, order := u }
  let s := { s with ops := s.ops ++ [o] }.updTeam k.team fun t => { t with tlIssued := bankUpd 8 0 t.tlIssued tl fun _ => n }
  (u, s.updCur fun k =>
    { k with hd := bankUpd 8 0 k.hd hd fun _ => handleWord true tl 0 n, hdOp := bankUpd 8 none k.hdOp hd fun _ => some u })

/-- R109: a counter stands below the first operation that has not completed. -/
def State.moveTl (s : State) (team tl : Nat) : State :=
  let nums := (s.openOps team tl).map (·.num)
  let upTo (t : Team) : Lane := u64 (match minBy id nums with | some n => n - 1 | none => t.tlIssued.getD tl 0)
  s.updTeam team fun t => { t with tl := bankUpd 8 0 t.tl tl fun _ => upTo t }

/-! ### Completion (R109, R110, R277, R278) -/

/-- R278: the statuses on which `hwait` traps. -/
def statusTraps (st : Byte) : Bool := [0x01, 0x03, 0x04, 0x05, 0x07, 0x08, 0x09].contains st

/-- A wait for a handle or a timeline that has become satisfied (R285, R293); a status that traps lets the instruction issue
again, and trap. -/
def State.settleHandle (s : State) (u : Nat) (w : Wait) : State :=
  let k := s.sk u
  match w.kind with
  | .hwait n =>
    let h := k.handle n
    if hdPending h then s
    else if statusTraps (hdStatus h) then s.updSk u fun k => k.dropWait w.id
    else (s.updSk u fun k => k.endWait w).acquire u 4 s.now
  | .tlwait n v =>
    if v.toNat ≤ ((s.team k.team).tl.getD n 0).toNat then (s.updSk u fun k => k.endWait w).acquire u 4 s.now else s
  | .sysr n =>
    let h := k.handle n
    if hdPending h then s
    else
      (s.updSk u fun k =>
        let k := match w.instr with
          | .sysr g d _ => k.writeBy (k.inWait w.id) d (fun l => k.inWait w.id l && guardPasses g (k.thread l)) (fun _ => h) .uniform
          | _ => k
        k.endWait w).acquire u 4 s.now
  | _ => s

/-- Every wait of a skein for handles and timelines tried once. -/
def State.settleHandles (s : State) (u : Nat) : State := (s.sk u).waits.foldl (fun s w => s.settleHandle u w) s

/-- The handle registers that name an operation show its end. -/
def Skein.showOp (k : Skein) (o : EngineOp) : Skein :=
  { k with hd := (List.range 8).map fun i =>
      if k.hdOp.getD i none == some o.uid then handleWord false o.tl o.status o.num else k.handle i }

/-- R109, R277: an operation completes with a status. -/
def State.finishOp (s : State) (u : Nat) (status : Byte) : State :=
  match s.op? u with
  | none => s
  | some o =>
    let o := { o with status := status, done := true, ready := true, held := none }
    let s := (s.updOp u fun _ => o).moveTl o.team o.tl
    let s : State := { s with skeins := s.skeins.map fun (k : Skein) => k.showOp o }
    (s.skeins.filter fun (k : Skein) => k.team == o.team).foldl (fun (s : State) (k : Skein) => s.settleHandles k.uid) s

/-- A segment of a pump is in progress. -/
def EngineOp.midway (o : EngineOp) : Bool :=
  match o.kind with
  | .pump .. => !o.asked.isEmpty || !o.heard.isEmpty || !o.atTiles.isEmpty || o.seg.isSome
  | _ => false

/-- R278, R286: the status with which an operation may complete, once what it wrote is visible: a failure stands, and a
cancellation before the end is one of its own; a segment in progress ends first. -/
def EngineOp.verdict (o : EngineOp) : Option Byte :=
  if o.done then none
  else
    let own := if o.ready then some o.status else none
    if !o.cancel || (o.ready && o.status != 0 && o.status != 6) then own
    else
      match o.kind with
      | .pump .. => if o.flagged then own else if o.midway then none else some 2
      | .fetch => some 2
      | .coll .. => some 2
      | _ => own

/-- R109: everything the operation wrote is visible at .sy. -/
def State.opVisible (s : State) (o : EngineOp) : Bool := decide (o.wct < s.nowAt (clusterOf o.core)) && o.outs.isEmpty

/-- R284, R286: the other members of a collective are told that this one has withdrawn, or has failed at an address of its own. -/
def State.tellMembers (s : State) (o : EngineOp) (st : Byte) : State :=
  match o.kind with
  | .coll .. =>
    if st = 1 || st = 2 || st = 8 then
      (o.devs.filter (· != s.ownDev)).foldl (fun s d =>
        s.sendFlit d 0 9 0 (3 :: toBytes 2 o.group ++ toBytes 8 o.seq ++ toBytes 2 o.rank)) s
    else s
  | _ => s

/-- OPERATION_COMPLETE (R109). -/
def execOperationComplete (op : Nat) (s : State) : Host.Outcome State Fault Refusal :=
  match s.op? op with
  | some o =>
    match o.verdict with
    | some st => .next (if s.opVisible o then (s.tellMembers o st).finishOp op st else s)
    | none => .next s
  | none => .next s

/-! ### Handles (R285, R286) -/

/-- R278, R348: the trap of a failed operation. -/
def State.hwaitTrap (s : State) (n : BitVec 3) : Option Stop :=
  let h := s.cur.handle n.toNat
  if statusTraps (hdStatus h) then
    some (.trap { kind := 0x11, addr := ((s.hdOpOf s.cur n.toNat).map (·.failAddr)).getD 0, aux := n.setWidth 64, code := hdStatus h })
  else none

/-- hwait (R285): a failed operation traps (R278, R348); an empty handle is cause 0x0B, whatever the guard (R164). -/
def execHwait (g : Guard) (n : BitVec 3) (s : State) : Host.Outcome State Fault Refusal :=
  let h := s.cur.handle n.toNat
  s.finish (firstStop [illIf (!hdPending h && hdEmpty h) .state,
      if s.anyPass g && !hdPending h then s.hwaitTrap n else none])
    (if !s.anyPass g then s.advance
     else if hdPending h then s.beginWait (.hwait n.toNat) (.hwait g n)
     else s.advance.acquire s.cur.uid 4 s.now)

/-- htest (R285): the status and the pending bit, without waiting. -/
def execHtest (g : Guard) (d : Reg) (n : BitVec 3) (s : State) : Host.Outcome State Fault Refusal :=
  let h := s.cur.handle n.toNat
  let v : Lane := (bit1 (hdPending h) ++ hdStatus h).setWidth 64
  s.finish (s.ckOperands [] [d])
    (if !s.anyPass g then s.advance
     else (s.updCur fun k =>
      let p := s.passing g
      (k.writeBy s.executing d p (fun _ => v) .uniform).updThreads p fun _ t => t.push (!hdPending h)).advance)

/-- hcancel (R285, R286): the engines for which a cancellation has an effect take note of it. -/
def execHcancel (g : Guard) (n : BitVec 3) (s : State) : Host.Outcome State Fault Refusal :=
  let s' := s.advance
  if !s.anyPass g then .next s'
  else
    match s.hdOpOf s.cur n.toNat with
    | none => .next s'
    | some o =>
      .next (if o.done then s' else
        match o.kind with
        | .launch =>
          { s' with grids := s'.grids.map fun x => if x.op == o.uid && x.word.isNone then { x with cancelled := true } else x }
        | .evict => s'
        | _ => s'.updOp o.uid EngineOp.withdraw)

/-- tlwait (R285). -/
def execTlwait (g : Guard) (n : BitVec 3) (a : Reg) (s : State) : Host.Outcome State Fault Refusal :=
  match s.lowRead g a with
  | none => s.finish (s.ckOperands [plain a] []) s.advance
  | some v =>
    s.finish (s.ckOperands [plain a] [])
      (if v.toNat ≤ ((s.team s.cur.team).tl.getD n.toNat 0).toNat then s.advance.acquire s.cur.uid 4 s.now
       else s.beginWait (.tlwait n.toNat v) (.tlwait g n a))

end Sys2Proof.Machine
end

