-- ==== Sys2Proof/Machine/Wait.lean ====
section
/-!
DEFINITION. `fence` (R103, R249), the completion of releases that waiting groups make (R31, R33), `waitw` (R108, R250),
data prefetch (R251), residency handles (R71 to R74, R253), and the team's queues (R254 to R256).
-/

namespace Sys2Proof.Machine

/-! ### Fences (R103, R249) -/

/-- fence (R249): the whole skein stalls until the condition holds; then an acquire. -/
def execFence (scope : BitVec 3) (s : State) : Host.Outcome State Fault Refusal :=
  let n := scope.toNat
  s.finish (firstStop [illIf (decide (4 < n)) .range, if n < 3 then none else s.cur.remoteTrap])
    (if s.fenceMet s.cur n then s.advance.acquire s.cur.uid n s.now else s.beginWait (.fence n) (.fence scope))

/-- The group of a wait arrives: the wait is gone and its instruction is at hand. -/
def State.takeWait (s : State) (u : Nat) (w : Wait) : State :=
  { s.updSk u fun k => k.dropWait w.id with issue := { w.issue with sk := u } }

/-- A group whose threads may act now: no handler runs, or it is the handler's. -/
def Skein.mayAct (k : Skein) (w : Wait) : Bool := allLanes.all fun l => !k.inWait w.id l || k.handlerLane l

/-- FENCE_COMPLETE: a fence's condition is met (R103), or that of the release of a `bar` or `gbar`, whose threads then arrive
(R31, R33). A queued fault record makes a fence at .dm or .sy issue again, and trap (R113). -/
def execFenceComplete (sk wait : Nat) (s : State) : Host.Outcome State Fault Refusal :=
  let k := s.sk sk
  match k.wait? wait with
  | none => .next s
  | some w =>
    match w.kind, w.instr with
    | .fence n, _ =>
      .next (if 3 ≤ n ∧ !k.faultQ.isEmpty then s.updSk sk fun k => k.dropWait wait
        else if s.fenceMet k n then (s.updSk sk fun k => k.endWait w).acquire sk n s.now
        else s)
    | .barPre, .bar g n cnt =>
      .next (if !s.fenceMet k 1 || !k.mayAct w then s
        else
          let s := s.takeWait sk w
          let c := s.barCount g cnt
          let b := (s.team k.team).barriers.getD n.toNat {}
          if badCount b c (allLanes.filter (s.passing g)).length then s.takeTrap { kind := 1, cause := Cause.range.code }
          else s.barArrive g n.toNat c w.instr)
    | .gbarPre, _ =>
      .next (if !s.fenceMet k 2 || !k.mayAct w then s
        else
          match s.gridOf (s.team k.team) with
          | some gr => (s.takeWait sk w).gbarArrive gr w.instr
          | none => s)
    | _, _ => .next s

/-! ### waitw (R108, R250) -/

/-- The accesses of a `waitw`, its condition and its timeout in ticks. -/
structure WaitReq where
  q    : MemReq
  cond : BitVec 3
  time : Nat

/-- A `waitw` as its checks and re-reads see it. -/
def waitReq (i : Instr) : Option WaitReq :=
  match i with
  | .waitw g d m size order c scope cond t => some
      { q := { instr := i, g := g, m := m, n := if size = 3 then 8 else 4, acc := 0, r := true, w := false, tags := [0, 1]
               srcs := [c], dsts := [d], kind := .load false, scope := scope.toNat, cmp := some c
               range := illIf (order != 0 || (size != 2 && size != 3) || decide (4 < scope.toNat) || decide (4 < cond.toNat)) .range }
        cond := cond, time := 64 * t.toNat }
  | _ => none

/-- The condition on a word and its comparand. -/
def waitCond (cond : BitVec 3) (v c : Nat) : Bool :=
  if cond = 0 then v == c
  else if cond = 1 then v != c
  else if cond = 2 then decide (c ≤ v)
  else if cond = 3 then decide (v < c)
  else (v &&& c) != 0

/-- R217, R239: the wait that has just begun keeps the space and the addresses that its stream formed at issue. -/
def State.keepAddrs (s : State) (tag : Nat) (lanes : List (Nat × Lane)) : State :=
  let id := s.idCtr - 1
  s.updCur fun k => { k with waits := k.waits.map fun w =>
    if w.id == id then { w with space := BitVec.ofNat 2 tag, addrs := lanes, readAt := s.now } else w }

/-- waitw (R250): with no passing lane it completes at once; otherwise its threads wait. -/
def execWaitw (g : Guard) (d : Reg) (m : MemOp) (size : BitVec 3) (order : BitVec 2) (c : Reg) (scope cond : BitVec 3)
    (t : BitVec 14) (s : State) : Host.Outcome State Fault Refusal :=
  let i : Instr := .waitw g d m size order c scope cond t
  match waitReq i with
  | none => .next s
  | some r =>
    match s.memCheck r.q with
    | some x => s.finish (some x) s
    | none =>
      match s.formAll r.q (s.memTag r.q) (s.memLanes r.q) with
      | (s, .trap t) => .next (s.takeTrap t)
      | (s, .miss a b) => .next (s.holdIssue i 0 a b)
      | (s, .ok xs) =>
        .next (if xs.isEmpty then s.advance
          else (s.beginWait (.waitw s.now (if r.time = 0 then none else some (s.now + r.time))) i).keepAddrs (s.memTag r.q) (s.memLanes r.q))

/-- An earlier access of the skein that a re-read must stay behind (R97, R101). -/
def State.readBehind (s : State) (u : Nat) (w : Wait) (xs : List (Place × LaneAcc)) : Bool :=
  s.accesses.any fun b =>
    b.sk == u && decide (b.seq < w.id) && !b.done && (b.order.getLsbD 0 || xs.any fun x => unitOf x == b.unit)

/-- The word of one lane, read at its home or at the scratchpad. -/
def State.readWord (s : State) (k : Skein) (n : Nat) (x : Place × LaneAcc) : Lane :=
  u64 (ofBytes (match x.1 with
    | .scratch _ => s.mem.readN (scratchKey k.core x.2.addr) n
    | _ => s.load (s.ctx k.ctx).part x.2.addr n))

/-- Lanes of peer pages whose words are asked for anew (R250). -/
def State.askPeers (s : State) (q : MemReq) (w : Wait) (xs : List (Place × LaneAcc)) : State :=
  let ask := xs.filter fun x => x.1.isPeer && !w.asked.contains x.2.lane
  let note (x : Wait) : Wait := if x.id = w.id then { x with asked := x.asked ++ ask.map fun y => y.2.lane } else x
  (groupUnits ask).foldl (fun s u => s.request q (some w.id) none u)
    (s.updCur fun k => { k with waits := k.waits.map note })

/-- The words a re-read gives: the fresh ones, and for peer pages the last that came. -/
def State.waitVals (s : State) (k : Skein) (n : Nat) (w : Wait) (xs : List (Place × LaneAcc)) : List (Nat × Lane) :=
  xs.filterMap fun x =>
    if x.1.isPeer then (w.vals.find? fun v => v.1 == x.2.lane) else some (x.2.lane, s.readWord k n x)

/-- The lines of global memory that a re-read asks for, each in one request (R244). -/
def waitLines (xs : List (Place × LaneAcc)) : List Nat := ((xs.filter fun x => x.1 == .global).map fun x => x.2.addr / 128).dedup

/-- R250: the end of a `waitw`: values and predicates are written, and on success the final read acquires (R101, R108). A lane of a
peer page whose re-read no answer has come to has no last value: its value is free (DESIGN CHOICE, log 11, 39). -/
def State.endWaitw (s : State) (k : Skein) (w : Wait) (q : MemReq) (xs : List (Place × LaneAcc)) (vals : List (Nat × Lane))
    (ok : Bool) : State :=
  let val (l : Nat) : Lane := ((vals.find? fun v => v.1 == l).map (·.2)).getD (Config.freeValue s.freeCtr)
  let key (x : Place × LaneAcc) : Nat := match x.1 with | .scratch _ => scratchKey k.core x.2.addr | _ => x.2.addr
  let bad (x : Place × LaneAcc) : Bool := !x.1.isPeer && s.poisonAt (key x) q.n
  let ws := xs.map fun x => (⟨x.2.reg, x.2.lane, val x.2.lane, bad x⟩ : LaneWrite)
  let same := decide (xs.length = 32) && xs.all fun x => x.2.va == ((xs.head?).map (·.2.va)).getD 0
  let s := { s with freeCtr := s.freeCtr + 1 }
  let s := s.updSk k.uid fun k =>
    ((k.landWrites same ws).updThreads (fun l => xs.any fun x => x.2.lane == l) fun _ t => t.push ok).endWait w
  let lines := waitLines xs
  if !ok then s.noteFloor k.uid lines
  else lines.foldl (fun s l => (s.fillAtHome k.core k.ctx l 0).1) (s.acquire k.uid q.scope s.now)

/-- R250: one re-read; `late` ends the wait whether or not the condition holds. -/
def State.reread (s : State) (u : Nat) (w : Wait) (r : WaitReq) (late : Bool) : State :=
  let k := s.sk u
  let s0 := { s with issue := { w.issue with sk := u } }
  match s0.formAll r.q w.space.toNat (w.addrs.filter fun x => k.inWait w.id x.1) with
  | (s0, .ok xs) =>
    if s0.readBehind u w xs then s
    else
      let vals := s0.waitVals k r.q.n w xs
      let ok := xs.all fun x =>
        match vals.find? fun v => v.1 == x.2.lane with
        | some v => waitCond r.cond (v.2.toNat % 2 ^ (8 * r.q.n)) (x.2.cmp.toNat % 2 ^ (8 * r.q.n))
        | none => false
      let s1 := (waitLines xs).foldl (fun s l => (s.countDie (128 * l) k.core 1).fillHome l (s.ctx k.ctx).part 0) s0
      if ok || late then { s1.endWaitw k w r.q xs vals ok with issue := s.issue }
      else
        let s2 := s1.updSk u fun k => { k with waits := k.waits.map fun x => if x.id == w.id then { x with readAt := s.now } else x }
        { s2.askPeers r.q w xs with issue := s.issue }
  | _ => s.updSk u fun k => k.dropWait w.id

/-- R250, R256, R354: a halt of the context has been asked for: what still waits stops, and issues anew after the restore. -/
def State.stopping (s : State) (k : Skein) : Bool := (s.ctx k.ctx).halting.isSome

/-- WAITW_REREAD. -/
def execWaitwReread (sk wait : Nat) (s : State) : Host.Outcome State Fault Refusal :=
  match (s.sk sk).wait? wait with
  | some w =>
    match w.kind, waitReq w.instr with
    | .waitw .., some r => .next (if s.stopping (s.sk sk) then s else s.reread sk w r false)
    | _, _ => .next s
  | none => .next s

/-- WAITW_TIMEOUT. -/
def execWaitwTimeout (sk wait : Nat) (s : State) : Host.Outcome State Fault Refusal :=
  match (s.sk sk).wait? wait with
  | some w =>
    match w.kind, waitReq w.instr with
    | .waitw _ (some lim), some r => .next (if lim ≤ s.now && !s.stopping (s.sk sk) then s.reread sk w r true else s)
    | _, _ => .next s
  | none => .next s

/-! ### Data prefetch (R251) -/

/-- The lines a prefetch brings: canonical, translated, on the device; a page without the R permission brings none either, and
traps nothing (DESIGN CHOICE, log 67). -/
def State.prefLines (s : State) (c : Nat) : List Lane → State × List Nat
  | [] => (s, [])
  | a :: as =>
    if !canonical a then s.prefLines c as
    else
      match s.translate c a with
      | (s, .error _) => s.prefLines c as
      | (s, .ok x) =>
        let (s, r) := s.prefLines c as
        (s, if x.kind = 2 || !x.r || !(isWell x.key || isHost x.key) then r else x.key / 128 :: r)

/-- A prefetch: the checks, then each line. -/
def State.prefetch (s : State) (g : Guard) (m : MemOp) (f : State → Nat → State) : Host.Outcome State Fault Refusal :=
  let k := s.cur
  let lanes := allLanes.filter (s.passing g)
  let (s', ls) := s.prefLines k.ctx (lanes.map fun l => k.addr m.stream.toNat m.off l)
  s.finish (s.ckOperands (offRegs m.off) [] (illIf (k.streamTag m.stream.toNat != 0) .state))
    (ls.dedup.foldl f s').advance

/-- prefd.l1: the line at its home, and a leased copy in the issuing L1. -/
def execPrefdL1 (g : Guard) (m : MemOp) (s : State) : Host.Outcome State Fault Refusal :=
  s.prefetch g m fun s x => (s.readLine s.cur.core s.cur.ctx x (s.cur.freshFrom x) 0).1

/-- prefd.l2: the line at its home only. -/
def execPrefdL2 (g : Guard) (m : MemOp) (s : State) : Host.Outcome State Fault Refusal :=
  s.prefetch g m fun s x => (s.countDie (x * 128) s.cur.core 1).fillHome x (s.ctx s.cur.ctx).part 0

/-! ### Residency (R71 to R74, R253) -/

/-- The live handles of a context. -/
def State.residsOf (s : State) (c : Nat) : List Resid := s.resids.filter fun r => r.ctx == c

/-- R71: the limits of a range; a base that is not canonical, and a range that runs past the 57-bit space, break none of them and
are registered (DESIGN CHOICE, log 78). -/
def residOk (base len : Lane) : Bool :=
  decide (base.toNat % 65536 = 0) && decide (len.toNat % 65536 = 0) && decide (65536 ≤ len.toNat) && decide (len.toNat ≤ 2 ^ 46)

/-- R71: two ranges meet. -/
def Resid.meets (r : Resid) (base len : Lane) : Bool :=
  decide (r.base.toNat < base.toNat + len.toNat) && decide (base.toNat < r.base.toNat + r.len.toNat)

/-- R71: a handle registered at the lowest free number, or refused. -/
def State.register (s : State) (c : Nat) (owner : Option Nat) (base len : Lane) (prio : Nat) : State × Option Nat :=
  let live := s.residsOf c
  if !residOk base len || live.any (fun r => r.meets base len) then (s, none)
  else
    match (List.range 4096).find? fun n => !(live.any fun r => r.num == n) with
    | none => (s, none)
    | some n => ({ s with resids := s.resids ++ [⟨c, n, base, len, prio, owner⟩] }, some n)

/-- resid.reg (R253): a long write of the number, or of 0xFFFF_FFFF. -/
def execResidReg (g : Guard) (d a b : Reg) (prio : BitVec 3) (s : State) : Host.Outcome State Fault Refusal :=
  let k := s.cur
  let (sa, _) := s.track true false
  let eff :=
    match s.lowRead g a, s.lowRead g b with
    | some base, some len =>
      let (s1, n) := s.register k.ctx (s.team k.team).grid base len prio.toNat
      let lanes := allLanes.filter (s.passing g)
      s1.beginIf g
        { id := 0, lanes := laneMask (s.passing g), pend := s.takeNames g d, setA := sa
          writes := lanes.map fun l => ⟨k.resolve l d, l, match n with | some n => u64 n | none => 0xFFFFFFFF, false⟩
          pushes := lanes.map fun l => (l, n.isSome)
          uni := s.ftag [plain a, plain b] == .uniform }
    | _, _ => s.advance
  s.finish (firstStop [s.ckOperands [plain a, plain b] [d], s.ckFlag (s.anyPass g) false]) eff

/-- The live handle a register names. -/
def State.residNamed (s : State) (v : Lane) : Option Resid :=
  (s.residsOf s.cur.ctx).find? fun r => decide (v.toNat % 2 ^ 32 = r.num)

/-- A handle changed. -/
def State.updResid (s : State) (r : Resid) (f : Resid → Resid) : State :=
  { s with resids := s.resids.map fun x => if x == r then f x else x }

/-- The result of a form of `resid` that pushes its outcome in each passing lane. -/
def State.pushAll (s : State) (g : Guard) (b : Bool) : State :=
  s.updCur fun k => k.updThreads (s.passing g) fun _ t => t.push b

/-- A form of `resid` over a live handle: refused when there is none, or when the form refuses. -/
def State.residForm (s : State) (g : Guard) (a : Reg) (f : Resid → Option State) : Host.Outcome State Fault Refusal :=
  s.finish (s.ckOperands [plain a] [])
    (match s.lowRead g a with
     | none => s.advance
     | some v =>
       match (s.residNamed v).bind f with
       | some s' => (s'.pushAll g true).advance
       | none => (s.pushAll g false).advance)

/-- resid.prio (R73). -/
def execResidPrio (g : Guard) (a : Reg) (prio : BitVec 3) (s : State) : Host.Outcome State Fault Refusal :=
  s.residForm g a fun r => some (s.updResid r fun x => { x with prio := prio.toNat })

/-- resid.demote (R73): a lower priority; keep and early go from every cached line of the range. -/
def execResidDemote (g : Guard) (a : Reg) (prio : BitVec 3) (s : State) : Host.Outcome State Fault Refusal :=
  s.residForm g a fun r =>
    if r.prio ≤ prio.toNat then none
    else
      let s' := s.updResid r fun x => { x with prio := prio.toNat }
      some { s' with
        copies := s'.copies.map fun x => if s'.residOwns r x.owner x.line then { x with keep := false, early := false } else x
        homes := s'.homes.map fun x => if s'.residOwns r x.owner x.line then { x with keep := false, early := false } else x }

/-- resid.evict (R73, R74): every copy of the range goes, and the operation completes on tl6. -/
def execResidEvict (g : Guard) (n a : Reg) (s : State) : Host.Outcome State Fault Refusal :=
  let late := s.anyPass g && ((s.lowRead g a).bind s.residNamed).isSome
  let eff :=
    match s.lowRead g a with
    | none => s.advance
    | some v =>
      match s.residNamed v with
      | none => (s.pushAll g false).advance
      | some r =>
        let (u, s') := s.startOp n.toNat 6 { kind := .evict }
        ({ s'.updOp u (fun o => { o with ready := true }) with
            copies := s'.copies.filter fun x => !(s'.residOwns r x.owner x.line)
            homes := s'.homes.map fun (x : HomeLine) =>
              if s'.residOwns r x.owner x.line then { x with cached := false, keep := false, early := false } else x
          }.pushAll g true).advance
  s.finish (firstStop [s.ckOperands [plain a] [] (illIf (decide (8 ≤ n.toNat)) .range), if late then s.ckTimeline 6 else none]) eff

/-- resid.drop (R73). -/
def execResidDrop (g : Guard) (a : Reg) (s : State) : Host.Outcome State Fault Refusal :=
  s.residForm g a fun r => some { s with resids := s.resids.filter fun x => x != r }

/-! ### Queues (R254 to R256) -/

/-- Entries held. -/
def qCount (q : Lane) : Nat := (q.extractLsb' 48 13).toNat
/-- Element bytes. -/
def qBytes (q : Lane) : Nat := 2 ^ (q.extractLsb' 32 2).toNat
/-- Depth in entries. -/
def qDepth (q : Lane) : Nat := (q.extractLsb' 19 13).toNat
/-- Scratch offset of the storage. -/
def qBase (q : Lane) : Nat := (q.extractLsb' 0 19).toNat
/-- A queue word with its count replaced. -/
def qSetCount (q : Lane) (n : Nat) : Lane := (0#3 ++ BitVec.ofNat 13 n ++ q.extractLsb' 0 48)

/-- R254: the place of an entry in scratch. -/
def Team.qKey (t : Team) (n i : Nat) : Nat :=
  let q := t.qw.getD n 0
  scratchKey t.core (t.scratchBase + qBase q + (t.qhead.getD n 0 + i) % max (qDepth q) 1 * qBytes q)

/-- R255: the passing threads' entries are appended, lane by lane. -/
def State.pushEntries (s : State) (g : Guard) (a : Reg) (n : Nat) : State :=
  let k := s.cur
  let t := s.team k.team
  let q := t.qw.getD n 0
  let lanes := allLanes.filter (s.passing g)
  let s' := (List.range lanes.length).foldl (fun s i =>
    s.store 0 (t.qKey n (qCount q + i)) (toBytes (qBytes q) (k.read a (lanes.getD i 0)).toNat)) s
  s'.updTeam t.uid fun t => { t with qw := bankUpd 8 0 t.qw n fun q => qSetCount q (qCount q + lanes.length) }

/-- R255: entries are removed and given to the passing threads in ascending order. -/
def State.popEntries (s : State) (g : Guard) (d : Reg) (n : Nat) : State :=
  let k := s.cur
  let t := s.team k.team
  let q := t.qw.getD n 0
  let lanes := allLanes.filter (s.passing g)
  let val (i : Nat) : Lane := u64 (ofBytes (s.mem.readN (t.qKey n i) (qBytes q)))
  let bad (i : Nat) : Bool := s.poisonAt (t.qKey n i) (qBytes q)
  let ws := (List.range lanes.length).map fun i => (⟨k.resolve (lanes.getD i 0) d, lanes.getD i 0, val i, bad i⟩ : LaneWrite)
  (s.updCur fun k => k.landWrites false ws).updTeam t.uid fun t =>
    { t with
      qw := bankUpd 8 0 t.qw n fun q => qSetCount q (qCount q - lanes.length)
      qhead := bankUpd 8 0 t.qhead n fun h => (h + lanes.length) % max (qDepth q) 1 }

/-- Guard, queue and side of a queue instruction: pushing is true. -/
def queueOf : Instr → Option (Guard × Nat × Bool)
  | .qpush g _ n => some (g, n.toNat, true)
  | .qpop g _ n => some (g, n.toNat, false)
  | _ => none

/-- The step of a queue instruction. -/
def State.queueAct (s : State) (i : Instr) : State :=
  match i with
  | .qpush g a n => s.pushEntries g a n.toNat
  | .qpop g d n => s.popEntries g d n.toNat
  | _ => s

/-- R255: room, or entries, for p lanes. -/
def queueFits (q : Lane) (push : Bool) (p : Nat) : Bool :=
  if push then decide (qCount q + p ≤ qDepth q) else decide (p ≤ qCount q)

/-- A wait of a skein on a side of a queue. -/
def Skein.queueWait (k : Skein) (n : Nat) (push : Bool) : Option Wait :=
  k.waits.find? fun w => w.kind == (if push then .qpush n else .qpop n)

/-- R38, R255: no skein of the team that waits on that side is older. -/
def State.queueTurn (s : State) (k : Skein) (n : Nat) (push : Bool) : Bool :=
  (s.skeinsOf k.team).all fun x => x.uid == k.uid || (x.queueWait n push).isNone || decide (s.rank k ≤ s.rank x)

/-- A queue instruction may take its step (R255, R256). -/
def State.queueReady (s : State) (k : Skein) (n : Nat) (push : Bool) (p : Nat) : Bool :=
  queueFits ((s.team k.team).qw.getD n 0) push p && s.queueTurn k n push && (!push || s.fenceMet k 1)

/-- A queue instruction at issue (R255, R256): its step, or a wait for it. -/
def State.queueOp (s : State) (i : Instr) (g : Guard) (n : BitVec 6) (srcs : List SrcReg) (ds : List Reg) (push : Bool) :
    Host.Outcome State Fault Refusal :=
  let k := s.cur
  let p := (allLanes.filter (s.passing g)).length
  let depth := qDepth ((s.team k.team).qw.getD n.toNat 0)
  let waiting := (s.skeinsOf k.team).any fun x => (x.queueWait n.toNat push).isSome
  s.finish (s.ckOperands srcs ds (firstStop [illIf (decide (8 ≤ n.toNat)) .range,
      illIf (decide (0 < p) && (decide (depth = 0) || decide (depth < p))) .state]))
    (if p = 0 then s.advance
     else if s.queueReady k n.toNat push p && !waiting then (s.queueAct i).advance
     else s.beginWait (if push then .qpush n.toNat else .qpop n.toNat) i)

/-- qpush (R255). -/
def execQpush (g : Guard) (a : Reg) (n : BitVec 6) (s : State) := s.queueOp (.qpush g a n) g n [plain a] [] true
/-- qpop (R255). -/
def execQpop (g : Guard) (d : Reg) (n : BitVec 6) (s : State) := s.queueOp (.qpop g d n) g n [] [d] false

/-- QUEUE_STEP (R255): a waiting skein takes its step. -/
def execQueueStep (sk wait : Nat) (s : State) : Host.Outcome State Fault Refusal :=
  let k := s.sk sk
  match k.wait? wait with
  | none => .next s
  | some w =>
    match queueOf w.instr with
    | none => .next s
    | some (g, n, push) =>
      let s0 := { s with issue := { w.issue with sk := sk } }
      let p := (allLanes.filter (s0.passing g)).length
      .next (if !s.stopping k && s.queueReady k n push p then { (s0.queueAct w.instr).updSk sk fun k => k.endWait w with issue := s.issue } else s)

end Sys2Proof.Machine
end

