-- ==== Sys2Proof/Machine/Matrix.lean ====
section
/-!
DEFINITION. Panels as values (R127 to R132, R135 to R137), accumulators (R258, R259, R269, R270), the declaring and signing of
matrix operations (R260 to R264), and the passes of the core's engine (R265, R266).
-/

namespace Sys2Proof.Machine

/-! ### Panels (R127 to R132) -/

/-- A panel header's fields (R128). -/
def hFmt (h : Word) : Nat := (h.extractLsb' 28 4).toNat
/-- Its e8m0 scale. -/
def hScale (h : Word) : Nat := (h.extractLsb' 20 8).toNat
/-- Its planes. -/
def hPlanes (h : Word) : Nat := (h.extractLsb' 16 4).toNat
/-- A 32 × 32 panel. -/
def hGeom (h : Word) : Bool := h.getLsbD 15
/-- Planes of an i8 value. -/
def hSgn (h : Word) : Bool := h.getLsbD 14
/-- A centred read. -/
def hCtr (h : Word) : Bool := h.getLsbD 13

/-- R128: planes, sgn and ctr of a format. -/
def planesOk (fmt planes : Nat) (sgn ctr : Bool) : Bool :=
  if fmt = 6 then decide (2 ≤ planes) && decide (planes ≤ 8) else planes == 0 && !sgn && !ctr

/-- R129: a valid header. -/
def headerOk (h : Word) : Bool :=
  decide (hFmt h < 8) && planesOk (hFmt h) (hPlanes h) (hSgn h) (hCtr h) && h.extractLsb' 0 13 == 0 &&
    ((hFmt h != 5 && hFmt h != 6) || hScale h == 0x7F)

/-- R127: payload bytes. -/
def payloadBytes (h : Word) : Nat :=
  let n := if hGeom h then 1024 else 256
  if hFmt h < 4 then n
  else if hFmt h < 6 then n / 2
  else if hFmt h = 7 then 2 * n
  else n / 8 * hPlanes h

/-- R119: bytes of a payload as the device writes them: an element of six bits leaves bits 7:6 of its byte zero. -/
def cleanPayload (h : Word) (bs : List Byte) : List Byte := if hFmt h = 2 ∨ hFmt h = 3 then bs.map (· &&& 0x3F) else bs

/-- Registers a payload takes. -/
def payloadRegs (h : Word) : Nat := (payloadBytes h + 255) / 256

/-- A header of fields. -/
def mkHeader (fmt : BitVec 4) (scale : Nat) (planes : BitVec 4) (sgn ctr : Bool) : Word :=
  (fmt ++ BitVec.ofNat 8 scale ++ planes ++ 0#1 ++ bit1 sgn ++ bit1 ctr ++ 0#13)

/-- One byte of a list. -/
def byteAt (bs : List Byte) (i : Nat) : Nat := (bs.getD i 0).toNat

/-- R131: the stored planes of an element as an 8-bit value, missing planes zero. -/
def planeBits (bs : List Byte) (plane e : Nat) : Nat → Nat
  | 0 => 0
  | p + 1 => planeBits bs plane e p + byteAt bs (plane * p + e / 8) / 2 ^ (e % 8) % 2 * 2 ^ (7 - p)

/-- R127: the pattern of an element. -/
def eltPat (h : Word) (bs : List Byte) (e : Nat) : Nat :=
  if hFmt h < 2 then byteAt bs e
  else if hFmt h < 4 then byteAt bs e % 64
  else if hFmt h < 6 then byteAt bs (e / 2) / 16 ^ (e % 2) % 16
  else if hFmt h = 7 then byteAt bs (2 * e) + 256 * byteAt bs (2 * e + 1)
  else planeBits bs (if hGeom h then 128 else 32) e (hPlanes h)

/-- The format of a floating-point panel. -/
def panelFmt (fmt : Nat) : Fmt :=
  if fmt = 0 then e4m3 else if fmt = 1 then e5m2 else if fmt = 2 then e3m2 else if fmt = 3 then e2m3
  else if fmt = 4 then e2m1 else bf16

/-- R130: the value of an element of a floating-point panel. -/
def eltVal (h : Word) (pat : Nat) : FVal :=
  if hScale h = 0xFF then .nan false
  else
    match decodeF (panelFmt (hFmt h)) pat with
    | .fin n m e => .fin n m (e + hScale h - 127)
    | v => v

/-- R130, R132: the value of an element of an INT4 or bp8 panel. -/
def eltInt (h : Word) (pat : Nat) : Int :=
  if hFmt h = 5 then sgn 4 pat
  else
    let plain : Int := if hSgn h then sgn 8 pat else pat
    if hCtr h && decide (hPlanes h ≤ 7) then plain + (2 ^ (8 - hPlanes h) / 2 : Nat) else plain

/-! ### Whole registers (R257) -/

/-- Fields stepped from a register field, n of them. -/
def regsFrom (f : Reg) (n : Nat) : List Reg := (List.range n).map fun i => BitVec.ofNat 6 (f.toNat + i)

/-- Cause 0x0A: a stepped field at or above the register count. -/
def State.ckSpan (s : State) (f : Reg) (n : Nat) : Option Stop := illIf (decide (s.cur.regCount < f.toNat + n)) .range

/-- The physical registers a field resolves to over all lanes (R51). -/
def Skein.whole (k : Skein) (f : Reg) : List Nat := (allLanes.map fun l => k.resolve l f).dedup

/-- The 256 bytes of a register. -/
def Skein.regBytes (k : Skein) (f : Reg) : List Byte := allLanes.flatMap fun l => toBytes 8 (k.read f l).toNat

/-- The 256 bytes of a physical register. -/
def Skein.physBytes (k : Skein) (r : Nat) : List Byte := allLanes.flatMap fun l => toBytes 8 (k.lane r l).toNat

/-- Whole registers written from 256 bytes each, tagged general. -/
def Skein.putRegs (k : Skein) (fs : List Reg) (bs : List (List Byte)) : Skein :=
  (fs.zip bs).foldl (fun k x =>
    k.write x.1 (fun _ => true) (fun l => u64 (ofBytes ((x.2.drop (8 * l)).take 8))) .general) k

/-! ### Accumulators (R258, R259) -/

/-- An accumulator; at reset all zero, and no team's. -/
def State.acc (s : State) (core quad n : Nat) : Acc :=
  (s.accs.find? fun a => a.core == core && a.quad == quad && a.n == n).getD { core := core, quad := quad, n := n }

/-- An accumulator changed. -/
def State.updAcc (s : State) (core quad n : Nat) (f : Acc → Acc) : State :=
  { s with accs := f (s.acc core quad n) :: s.accs.filter fun a => !(a.core == core && a.quad == quad && a.n == n) }

/-- Element (i, j). -/
def Acc.at' (a : Acc) (i j : Nat) : Word := (a.rows.getD i []).getD j 0

/-- R258: another live team owns it. -/
def State.accTaken (s : State) (a : Acc) : Bool :=
  match a.owner with
  | some t => t != s.cur.team && (s.team? t).isSome
  | none => false

/-- R258, R355: claimed by a team; zeroed unless a team of the same context held it last, and that context has not ended since. -/
def Acc.claim (a : Acc) (team ctx : Nat) : Acc :=
  { a with
    rows := if a.ownerCtx = some ctx then a.rows else []
    owner := some team
    ownerCtx := some ctx }

/-- R259: the unsettled-operand trap of a pending accumulator. -/
def Acc.pendStop (a : Acc) : Option Stop :=
  if a.pending.isEmpty then none else some (.trap { kind := 7, aux := u64 (128 + a.n) })

/-- The bytes of an accumulator's row (R269). -/
def Acc.rowBytes (a : Acc) (i : Nat) : List Byte := (List.range 64).flatMap fun j => toBytes 4 (a.at' i j).toNat

/-- The accumulator of the issuing skein's quadrant. -/
def State.myAcc (s : State) (n : Nat) : Acc := s.acc s.cur.core s.cur.quad n

/-- macc.from (R269). -/
def execMaccFrom (g : Guard) (d : Reg) (n : BitVec 2) (s : State) : Host.Outcome State Fault Refusal :=
  let a := s.myAcc n.toNat
  let fs := regsFrom d 16
  s.finish (firstStop [s.ckSpan d 16, illIf (s.accTaken a) .state, s.ckMarks [] (fs.flatMap s.cur.whole), a.pendStop])
    (if s.anyPass g then (s.updCur fun k => k.putRegs fs ((List.range 16).map a.rowBytes)).advance else s.advance)

/-- A row of words from 256 bytes. -/
def rowOf (bs : List Byte) : List Word := (List.range 64).map fun j => BitVec.ofNat 32 (ofBytes ((bs.drop (4 * j)).take 4))

/-- macc.to (R269). -/
def execMaccTo (g : Guard) (a : Reg) (n : BitVec 2) (s : State) : Host.Outcome State Fault Refusal :=
  let k := s.cur
  let x := s.myAcc n.toNat
  let fs := regsFrom a 16
  let regs := fs.flatMap k.whole
  s.finish (firstStop [s.ckSpan a 16, illIf (s.accTaken x) .state, s.ckMarks regs [], x.pendStop, s.ckPoisonAll regs])
    (if s.anyPass g then
      (s.updAcc k.core k.quad n.toNat fun x => { x.claim k.team k.ctx with rows := fs.map fun f => rowOf (k.regBytes f) }).advance
     else s.advance)

/-- mzero (R270). -/
def execMzero (g : Guard) (n : Reg) (s : State) : Host.Outcome State Fault Refusal :=
  let k := s.cur
  let x := s.myAcc n.toNat
  s.finish (firstStop [illIf (decide (4 ≤ n.toNat)) .range, illIf (s.accTaken x) .state, x.pendStop])
    (if s.anyPass g then (s.updAcc k.core k.quad n.toNat fun x => { x.claim k.team k.ctx with rows := [] }).advance else s.advance)

/-! ### Declaring (R260, R261) -/

/-- The skeins of the signer set's four indexes. -/
def State.signers (s : State) (team sb : Nat) : List Skein :=
  (s.skeinsOf team).filter fun k => decide (4 * sb ≤ k.index) && decide (k.index < 4 * sb + 4)

/-- R261: the signer set of a declaration. -/
def State.signerSet (s : State) (team sb : Nat) (m : Mask) : List (Nat × Nat) :=
  (s.signers team sb).flatMap fun k => (k.live.filter m.getLsbD).map fun l => (k.uid, l)

/-- The mask a declaration names, in the lowest passing lane. -/
def State.declMask (s : State) (g : Guard) (m : MaskSrc) : Mask :=
  match m with
  | .full => 0xFFFFFFFF
  | .reg a => ((s.lowRead g a).getD 0).setWidth 32

/-- mcfg (R261). -/
def execMcfg (g : Guard) (n : Reg) (mask : MaskSrc) (e : McfgExt) (s : State) : Host.Outcome State Fault Refusal :=
  let k := s.cur
  let tm := s.team k.team
  let sb := e.sb.toNat
  let any := s.anyPass g
  let m := s.declMask g mask
  let isFull := match mask with | .full => true | _ => false
  let taken := (List.range 4).any fun q => s.accTaken (s.acc k.core q e.acc.toNat)
  let eff :=
    let (u, s) := s.fresh
    let s := (List.range 4).foldl (fun s q => s.updAcc k.core q e.acc.toNat fun a =>
      { a.claim k.team k.ctx with pending := a.pending ++ [u] }) s
    ((s.updCv k.team n.toNat fun _ =>
      { state := 1, decl := (e.bits isFull), unsigned := s.signerSet k.team sb m, uid := u }).endSigning k.team n.toNat).advance
  s.finish (firstStop [
      s.ckOperands (maskRegs mask) [] (firstStop [
        illIf (decide (8 ≤ n.toNat) || e.cls == 3 || decide ((tm.size + 31) / 32 < 4 * sb + 4)) .range]),
      illIf (any && m == 0) .range,
      illIf ((tm.cvAt n.toNat).state != 0) .state,
      illIf taken .state])
    (if any then eff else s.advance)

/-! ### Signing (R262 to R264) -/

/-- The class of an operation (R261): 0 bf16, 1 eight-bit, 2 four-bit. -/
def declCls (d : BitVec 20) : Nat := (d.extractLsb' 6 2).toNat
/-- An integer operation. -/
def declInt (d : BitVec 20) : Bool := d.getLsbD 5
/-- Its first pass starts from zero. -/
def declZ (d : BitVec 20) : Bool := d.getLsbD 4

/-- R263: the header words of a pass: from eight lanes, which of them and which halves are read. -/
def headerWords (cls : Nat) (lanes : List Lane) : List Word :=
  let lo (i : Nat) : Word := (lanes.getD i 0).setWidth 32
  let hi (i : Nat) : Word := (lanes.getD i 0).extractLsb' 32 32
  if cls = 0 then [lo 0, lo 2, lo 4, lo 6]
  else if cls = 1 then (List.range 8).map lo
  else (List.range 8).flatMap fun i => [lo i, hi i]

/-- R262: a header of the declared class and kind. -/
def headerFits (cls : Nat) (int : Bool) (h : Word) : Bool :=
  headerOk h && !hGeom h &&
    (if cls = 0 then !int && hFmt h == 7
     else if cls = 1 then (if int then hFmt h == 6 else decide (hFmt h < 4))
     else hFmt h == (if int then 5 else 4))

/-- The header lanes an operation of P passes reads, eight for each pass. -/
def Skein.headerLanes (k : Skein) (c : Reg) (P : Nat) : List Lane :=
  (List.range P).flatMap fun p => (List.range 8).map fun r =>
    k.read (BitVec.ofNat 6 (c.toNat + p / 4)) (8 * (p % 4) + r)

/-- msign (R262). -/
def execMsign (n a b c : Reg) (s : State) : Host.Outcome State Fault Refusal :=
  let k := s.cur
  let cv := (s.team k.team).cvAt n.toNat
  let P := declPasses cv.decl
  let l0 := (lowest s.executing).getD 0
  let phys (f : Reg) (m : Nat) : List Nat := (regsFrom f m).map fun f => k.resolve l0 f
  let ra := phys a (4 * P)
  let rb := phys b (4 * P)
  let rc := phys c ((P + 3) / 4)
  let mine := allLanes.filter s.executing
  let first := !(cv.signs.any fun x => x.sk == k.uid)
  let same := cv.signs.all fun x => x.sk != k.uid || (x.a == ra && x.b == rb && x.c == rc)
  let lanes := k.headerLanes c P
  let good := (List.range P).all fun p =>
    (headerWords (declCls cv.decl) ((lanes.drop (8 * p)).take 8)).all (headerFits (declCls cv.decl) (declInt cv.decl))
  let srcs := ra ++ rb ++ rc
  let (sa, sb) := s.track true true
  let eff :=
    let (id, s1) := s.fresh
    let s1 := if first then s1.updCur fun k =>
        k.begin s.now { id := id, lanes := s.issue.mask, held := (ra ++ rb).dedup, setA := sa, setB := sb, matrix := true } else s1
    ((s1.updCv k.team n.toNat fun c =>
      { c with
        unsigned := c.unsigned.filter fun x => !(x.1 == k.uid && s.executing x.2)
        signed := c.signed ++ mine.map fun l => (k.uid, l)
        signs := if first then c.signs ++ [⟨k.uid, k.quad, ra, rb, rc, lanes, id⟩] else c.signs }).advance).endSigning k.team n.toNat
  s.finish (firstStop [
      illIf (decide (8 ≤ n.toNat)) .range, s.ckSpan a (4 * P), s.ckSpan b (4 * P), s.ckSpan c ((P + 3) / 4),
      s.ckMarks srcs [], s.ckPoisonAll srcs,
      illIf (cv.state != 1) .state,
      illIf (mine.any fun l => !cv.unsigned.contains (k.uid, l)) .state,
      illIf (!same) .state,
      illIf (!good) .range,
      s.ckFlag first first]) eff

/-! ### Passes (R135 to R137, R265, R266) -/

/-- Elements of a panel read as one side of a pass: floats and integers. -/
inductive Elt
  | f (v : FVal)
  | i (v : Int)
deriving DecidableEq, Repr

/-- The 256 elements of a 16 × 16 panel. -/
def panelElts (h : Word) (bs : List Byte) : List Elt :=
  (List.range 256).map fun e =>
    if hFmt h = 5 ∨ hFmt h = 6 then .i (eltInt h (eltPat h bs e)) else .f (eltVal h (eltPat h bs e))

/-- R263: the panels of one side of a pass, from its four registers and its four header lanes, in ascending K. -/
def sidePanels (cls : Nat) (regs : List (List Byte)) (hs : List Lane) : List (List Elt) :=
  let reg (r : Nat) : List Byte := regs.getD r []
  let lo (i : Nat) : Word := (hs.getD i 0).setWidth 32
  let hi (i : Nat) : Word := (hs.getD i 0).extractLsb' 32 32
  if cls = 0 then (List.range 2).map fun t => panelElts (lo (2 * t)) (reg (2 * t) ++ reg (2 * t + 1))
  else if cls = 1 then (List.range 4).map fun r => panelElts (lo r) (reg r)
  else (List.range 4).flatMap fun r => [panelElts (lo r) ((reg r).take 128), panelElts (hi r) ((reg r).drop 128)]

/-- A floating-point element. -/
def Elt.fval : Elt → FVal
  | .f v => v
  | .i _ => .fin false 0 0
/-- An integer element. -/
def Elt.ival : Elt → Int
  | .i v => v
  | .f _ => 0

/-- R135, R136: one K group added to an accumulator element. -/
def groupAdd (acc : Word) (xs : List (Elt × Elt)) : Word :=
  let ps := xs.map fun x => (prodV x.1.fval x.2.fval).1
  let v := decodeF f32 acc.toNat
  let nan : Word := 0x7FC00000
  if v.isNan then nan
  else
    match sumV ps with
    | .nan _ => nan
    | .inf n => if v.isInf && v.neg != n then nan else BitVec.ofNat 32 (infPat f32 n)
    | .fin d _ =>
      match v with
      | .inf _ => acc
      | _ => if d.m = 0 ∧ !v.isZero then acc else BitVec.ofNat 32 (roundDy f32 0 false false (v.dy.add d)).1

/-- R137: one K group of an integer operation. -/
def groupAddInt (acc : Word) (xs : List (Elt × Elt)) : Word :=
  acc + BitVec.ofInt 32 ((xs.map fun x => x.1.ival * x.2.ival).foldl (· + ·) 0)

/-- K groups of n from the pairs of a pass. -/
def kGroups {α : Type} (n : Nat) (xs : List α) : List (List α) := (List.range 4).map fun g => (xs.drop (g * n)).take n

/-- R266: one element after a pass. -/
def passElt (cls : Nat) (int : Bool) (acc : Word) (xs : List (Elt × Elt)) : Word :=
  let n := if cls = 0 then 8 else if cls = 1 then 16 else 32
  (kGroups n xs).foldl (fun a g => if int then groupAddInt a g else groupAdd a g) acc

/-- Row i of an A side: its elements in ascending K. -/
def aRow (ps : List (List Elt)) (i : Nat) : List Elt := ps.flatMap fun p => (p.drop (16 * i)).take 16

/-- Column j of a B side. -/
def bCol (ps : List (List Elt)) (j : Nat) : List Elt :=
  ps.flatMap fun p => (List.range 16).map fun r => p.getD (16 * r + j) (.i 0)

/-- The four registers of a side at a pass. -/
def Skein.chunk (k : Skein) (regs : List Nat) (p : Nat) : List (List Byte) := ((regs.drop (4 * p)).take 4).map k.physBytes

/-- R263, R266: the accumulators of the four quadrants after pass p. -/
def State.runPass (s : State) (team : Team) (n p : Nat) : State :=
  let cv := team.cvAt n
  let cls := declCls cv.decl
  let side (q : Nat) (isB : Bool) : List (List Elt) :=
    match cv.signs.find? fun x => x.quad == q with
    | none => []
    | some g =>
      let hs := (g.headers.drop (8 * p)).take 8
      sidePanels cls ((s.sk g.sk).chunk (if isB then g.b else g.a) p) (if isB then hs.drop 4 else hs.take 4)
  let cols : List (List Elt) := (List.range 4).flatMap fun q => let b := side q true; (List.range 16).map (bCol b)
  (List.range 4).foldl (fun s q =>
    let a := side q false
    s.updAcc team.core q (declAcc cv.decl) fun x =>
      { x with rows := (List.range 16).map fun i =>
          let ra := aRow a i
          (List.range 64).map fun j =>
            passElt cls (declInt cv.decl) (if p = 0 ∧ declZ cv.decl then 0 else x.at' i j) (ra.zip (cols.getD j [])) }) s

/-- R353: a signer of an operation is swapped out. -/
def State.signerOut (s : State) (m : MatEntry) : Bool :=
  ((s.team m.team).cvAt m.cv).signs.any fun g => match s.sk? g.sk with | some k => k.slot.isNone | none => false

/-- R265, R268: an entry may be granted: its context runs, no signer is swapped out, and no earlier-declared operation that names its
accumulator is still under way. -/
def State.grantable (s : State) (m : MatEntry) : Bool :=
  m.inTable && (s.ctx m.ctx).live && !s.signerOut m &&
    (s.acc m.core 0 m.acc).pending.all fun u => decide (m.declared ≤ u)

/-- R265: the entry the arbiter grants. -/
def State.arbiter (s : State) (core : Nat) : Option MatEntry :=
  if s.mats.any fun m => m.core == core && m.running then none
  else minBy (fun m => (3 - m.prio) * 2 ^ 64 + m.order) (s.mats.filter fun m => m.core == core && s.grantable m)

/-- MATRIX_PASS_GRANT (R265). -/
def execMatrixPassGrant (core : Nat) (s : State) : Host.Outcome State Fault Refusal :=
  match s.arbiter core with
  | none => .next s
  | some m =>
    let m' := { m with running := true, ends := s.now + s.cycleTicks (clusterOf core) 16 }
    .next ({ s with mats := s.mats.map fun x => if x == m then m' else x }.updCv m.team m.cv fun c => { c with state := 3 })

/-- R266: the running pass of a core ends; after the last the operation completes. -/
def State.endPass (s : State) (m : MatEntry) : State :=
  let tm := s.team m.team
  let p := (tm.cvAt m.cv).done.toNat
  let s := { s.runPass tm m.cv p with mats := s.mats.map fun x => if x == m then { x with running := false } else x }
  let s := s.updCv m.team m.cv fun c => { c with done := BitVec.ofNat 4 (p + 1) }
  if p + 1 < declPasses (tm.cvAt m.cv).decl then s
  else
    let us := (tm.cvAt m.cv).signs.map (·.sk)
    let s := (s.endOp m.team m.cv false).fillCore m.core
    us.foldl (fun s u => s.settle u) s

/-- MATRIX_PASS_END (R266). -/
def execMatrixPassEnd (core : Nat) (s : State) : Host.Outcome State Fault Refusal :=
  match s.mats.find? fun m => m.core == core && m.running && decide (m.ends ≤ s.now) with
  | some m => .next (s.endPass m)
  | none => .next s

end Sys2Proof.Machine
end

