-- ==== Sys2Proof/Machine/Panel.lean ====
section
/-!
DEFINITION. Panel loads and stores (R106, R271 to R273), quantising and dequantising (R133, R134, R274, R275).
-/

namespace Sys2Proof.Machine

/-! ### Payloads in registers (R271) -/

/-- The registers a payload of n bytes takes from a field. -/
def payloadSpan (d : Reg) (n : Nat) : List Reg := regsFrom d ((n + 255) / 256)

/-- R271: PH goes with payloads of 128 bytes. -/
def phOk (ph : Bool) (n : Nat) : Bool := !ph || n == 128

/-- The payload bytes in registers from a field on. -/
def Skein.payload (k : Skein) (d : Reg) (n : Nat) (ph : Bool) : List Byte :=
  (((payloadSpan d n).flatMap k.regBytes).drop (if ph then 128 else 0)).take n

/-- The lane writes of a payload: whole registers, or half a register for 128 bytes. -/
def Skein.payloadWrites (k : Skein) (d : Reg) (n : Nat) (ph : Bool) (bs : List Byte) : List LaneWrite :=
  let put (f : Reg) (l : Nat) (b : List Byte) : LaneWrite := ⟨k.resolve l f, l, u64 (ofBytes (b.take 8)), false⟩
  if n = 128 then
    (List.range 16).map fun i => put d (if ph then 16 + i else i) (bs.drop (8 * i))
  else
    (List.range ((n + 255) / 256)).flatMap fun r =>
      allLanes.map fun l => put (BitVec.ofNat 6 (d.toNat + r)) l (bs.drop (256 * r + 8 * l))

/-- The header in lane j of a register (R271). -/
def Skein.headerIn (k : Skein) (p : PanelPos) : Word :=
  if p.hi then (k.read p.h p.j.toNat).extractLsb' 32 32 else (k.read p.h p.j.toNat).setWidth 32

/-- The lane write of a header over earlier writes: the other half of the lane stays as they leave it. -/
def Skein.headerWrite (k : Skein) (p : PanelPos) (h : Word) (ws : List LaneWrite := []) : LaneWrite :=
  let r := k.resolve p.j.toNat p.h
  let v := ((ws.find? fun w => w.reg == r && w.lane == p.j.toNat).map (·.val)).getD (k.read p.h p.j.toNat)
  ⟨r, p.j.toNat, if p.hi then h ++ v.setWidth 32 else v.extractLsb' 32 32 ++ h, false⟩

/-- The lanes whose bits hold a payload of n bytes in one of its registers. -/
def payloadLanes (n : Nat) (ph : Bool) : List Nat := if n = 128 then (if ph then allLanes.drop 16 else allLanes.take 16) else allLanes

/-- The lanes in which a payload of n bytes from a field on lies. -/
def Skein.payloadAt (k : Skein) (d : Reg) (n : Nat) (ph : Bool) : List (Nat × Nat) :=
  (payloadSpan d n).flatMap fun f => (payloadLanes n ph).map fun l => (k.resolve l f, l)

/-- The place of a panel's header. -/
def extPos (e : PanelExt) : PanelPos := ⟨e.h, e.j, e.hi, e.ph⟩

/-! ### Addresses of a panel access (R271) -/

/-- A panel access as its checks see it. -/
structure PanelReq where
  instr : Instr
  g     : Guard
  d     : Reg
  m     : MemOp
  size  : BitVec 3
  order : BitVec 2
  e     : PanelExt
  load  : Bool

/-- Payload and header address, in the lowest passing lane. -/
def State.panelAddrs (s : State) (q : PanelReq) : Option (Nat × Lane × Lane) :=
  (lowest (s.passing q.g)).map fun l =>
    (l, s.cur.addr q.m.stream.toNat q.m.off l, s.cur.addr q.e.hs.toNat q.e.c l)

/-- The addresses of a panel's payload lines. -/
def payloadLines (a : Lane) (n : Nat) : List Lane := (List.range ((n + 127) / 128)).map fun i => a + u64 (128 * i)

/-- The space tags of a panel's two streams. -/
def State.panelTags (s : State) (q : PanelReq) : Nat × Nat :=
  ((s.cur.streamTag q.m.stream.toNat).toNat, (s.cur.streamTag q.e.hs.toNat).toNat)

/-- R271, R164: the fields of a panel access; `bad` is a header that a store cannot write (R273). -/
def State.panelFields (s : State) (q : PanelReq) (bad : Bool) : Option Stop :=
  let t := s.panelTags q
  firstStop [
    illIf (q.size != 0) .range,
    illIf (q.order == 3 || q.order == (if q.load then 2 else 1) || decide (4 < q.e.scope.toNat)) .range,
    illIf bad .range,
    illIf (t.1 != t.2 || decide (1 < t.1)) .state]

/-- The operands of a panel access. -/
def State.panelOps (s : State) (q : PanelReq) (bad : Bool) : Option Stop :=
  s.ckOperands (offRegs q.m.off ++ offRegs q.e.c) (if q.load then [q.e.h, q.d] else []) (firstStop [
    s.ckRegs (if q.load then [] else [q.e.h, q.d]), s.panelFields q bad])

/-- R61, R245, R271: the ranges and alignments of a panel's addresses, of which the payload takes n bytes: every line of a global
payload has a canonical address. -/
def State.panelRange (s : State) (tp n : Nat) (a h : Lane) : Option Stop :=
  let mis (a : Lane) (b : Nat) : Option Stop := if a.toNat % b = 0 then none else some (.trap { kind := 5, addr := a, aux := 3 })
  firstStop (((if tp = 0 then payloadLines a n else [a]).map fun x => s.ckRange tp n 3 x) ++ [s.ckRange tp 4 3 h, mis a 128, mis h 4])

/-- R271: what checks an access of n payload bytes passes; a load checks its payload's first byte until its header is there. -/
def State.panelCheck (s : State) (q : PanelReq) (n : Nat) (bad : Bool) : Option Stop :=
  firstStop [s.panelOps q bad, (s.panelAddrs q).bind fun x => s.panelRange (s.panelTags q).1 n x.2.1 x.2.2]

/-- R271: one address translated for a panel access. -/
def State.formPanel (s : State) (q : PanelReq) (tag l : Nat) (a : Lane) : State × Formed :=
  let r : MemReq := { instr := q.instr, g := q.g, m := q.m, n := 1, acc := 3, r := q.load, w := !q.load, tags := [0, 1], kind := .panelRead }
  match s.formLane r tag l a 0 0 with
  | (s, .ok ((.peer _, _) :: _)) => (s, .trap { kind := 4, addr := a, aux := 3 })
  | x => x

/-- Addresses translated in turn. -/
def State.formPanels (s : State) (q : PanelReq) (tag l : Nat) : List Lane → State × Formed
  | [] => (s, .ok [])
  | a :: as =>
    match s.formPanel q tag l a with
    | (s, .ok xs) =>
      match s.formPanels q tag l as with
      | (s, .ok ys) => (s, .ok (xs ++ ys))
      | r => r
    | r => r

/-- The places of a payload's lines, then the header's. -/
def State.panelPlaces (s : State) (q : PanelReq) (n : Nat) : State × Formed :=
  match s.panelAddrs q with
  | none => (s, .ok [])
  | some (l, a, h) => s.formPanels q (s.panelTags q).1 l (payloadLines a n ++ [h])

/-- An access of a panel instruction: the header's place first. -/
def State.panelAccess (s : State) (q : PanelReq) (id : Nat) (op : Option Nat) (kind : AccKind) (xs : List (Place × LaneAcc)) (bs : List Byte)
    (sample : Option Nat) : Access :=
  let k := s.cur
  { id := id, seq := id, sk := k.uid, op := op, grid := (s.team k.team).grid, ctx := k.ctx, owner := (s.ctx k.ctx).part, core := k.core, kind := kind
    place := ((xs.head?).map (·.1)).getD .global, width := 4, lanes := (xs.reverse).map (·.2)
    pc := s.issue.pc, instr := q.instr, bytes := bs, order := q.order, scope := q.e.scope.toNat, sent := s.now, sample := sample }

/-- A panel instruction as a request. -/
def panelReq (i : Instr) : Option PanelReq :=
  match i with
  | .pld g d m size order e => some ⟨i, g, d, m, size, order, e, true⟩
  | .pst g d m size order e => some ⟨i, g, d, m, size, order, e, false⟩
  | _ => none

/-- R403: the lines and sectors of a panel access of n payload bytes in a sample: those of the payload, and the header's sector. -/
def State.sampleLines (s : State) (i : Option Nat) (n : Nat) (xs : List (Place × LaneAcc)) : State :=
  { s with samples := s.samples.map fun (x : Sample) =>
      if some x.id == i then { x with lines := ((xs.map unitOf).dedup).length, sectors := (n + 31) / 32 + 1 } else x }

/-- A sample for one panel access: one completion to wait for. -/
def State.panelSample (s : State) (hit : Bool) (n : Nat) (xs : List (Place × LaneAcc)) : State × Option Nat :=
  if hit then
    let s := s.newSample xs 1
    let i := (s.samples.getLast?).map (·.id)
    (s.sampleLines i n xs, i)
  else (s, none)

/-! ### pld (R271, R272) -/

/-- The bytes of a panel access at its place. -/
def State.panelBytes (s : State) (k : Skein) (x : Place × LaneAcc) (n : Nat) : List Byte :=
  match x.1 with
  | .scratch _ => s.mem.readN (scratchKey k.core x.2.addr) n
  | _ => s.load (s.ctx k.ctx).part x.2.addr n

/-- The header at the place of a panel access, which stands last among its places. -/
def State.headerAt (s : State) (k : Skein) (xs : List (Place × LaneAcc)) : Word :=
  match xs.getLast? with
  | some x => BitVec.ofNat 32 (ofBytes (s.panelBytes k x 4))
  | none => 0

/-- R143, R308: what a `pld` begins at issue: its registers h and d pending, with every payload register that the header names, and
its count. Until the header arrives the model takes the one that stands at its place at issue (log 84). -/
def State.pldOp (s : State) (q : PanelReq) (id w : Nat) (h : Word) : LongOp :=
  let (sa, _) := s.track true false
  let more := if headerOk h && decide (q.d.toNat + payloadRegs h ≤ s.cur.regCount) then payloadSpan q.d (payloadBytes h) else []
  { id := id, lanes := laneMask (s.passing q.g), pend := ((q.e.h :: q.d :: more).flatMap s.cur.whole).dedup, setA := sa, load := true
    await := 1, forWait := some w }

/-- pld: its threads wait until the header has arrived. -/
def execPld (g : Guard) (d : Reg) (m : MemOp) (size : BitVec 3) (order : BitVec 2) (e : PanelExt) (s : State) :
    Host.Outcome State Fault Refusal :=
  let i : Instr := .pld g d m size order e
  let q : PanelReq := ⟨i, g, d, m, size, order, e, true⟩
  let s0 := s
  let (s, hit) := s.sampleIssue
  match s.panelCheck q 1 false with
  | some x => s.finish (some x) s
  | none =>
    match s.panelPlaces q 128 with
    | (s, .trap t) => .next (s.takeTrap t)
    | (s, .miss a b) => .next ((s.unsample s0).holdIssue i 3 a b)
    | (s, .ok xs) =>
      s.finish (if xs.isEmpty then none else firstStop [holdIf (decide (16 ≤ s.cur.loads)), s.ckFlag true false])
        (if xs.isEmpty then (s.sampleNone hit).advance
         else
           let (s, sample) := s.issued.panelSample hit 128 xs
           let x := (s.panelAddrs q).getD (0, 0, 0)
           let w := s.idCtr
           let s := (s.beginWait .pld i).keepAddrs (s.panelTags q).1 [(x.1, x.2.1), (x.1, x.2.2)]
           let (op, s) := s.fresh
           let s := s.updCur fun k => k.begin s.now (s.pldOp q op w (s.headerAt s.cur xs))
           let (id, s) := s.fresh
           { s with accesses := s.accesses ++ [s.panelAccess q id (some w) .panelRead xs [] sample] })

/-- Waiting panel reads go, their samples with them. -/
def State.dropReads (s : State) (mine : Access → Bool) : State :=
  let gone := ((s.accesses.filter fun a => mine a && a.kind == .panelRead).filterMap (·.sample))
  { s with
    accesses := s.accesses.filter fun a => !(mine a && a.kind == .panelRead)
    samples := s.samples.filter fun x => !(gone.contains x.id) }

/-- The panel read of a wait goes: its instruction has trapped, or issues again. -/
def State.dropPanel (s : State) (u w : Nat) : State := s.dropReads fun a => a.sk == u && a.op == some w

/-- R272, R354: panel reads whose header has not arrived stop at a halt; their instructions issue anew, and have been counted
(R401). -/
def State.stopReads (s : State) (mine : Access → Bool) : State :=
  ((s.accesses.filter fun a => mine a && a.kind == .panelRead).foldl (fun s a => s.recount a.sk a.pc a.sample.isSome) s).dropReads mine

/-- Payload and header address of a waiting `pld`, as its streams formed them at issue (R217, R239). -/
def Wait.panelAddrs (w : Wait) : Lane × Lane := ((w.addrs.getD 0 (0, 0)).2, (w.addrs.getD 1 (0, 0)).2)

/-- R272, R308: what stops a `pld` once its header is there; its own marks do not. -/
def State.headerStop (s : State) (q : PanelReq) (w : Wait) (h : Word) : Option Stop :=
  let n := payloadBytes h
  let others := s.updCur fun k => { k with ops := k.ops.filter fun o => o.forWait != some w.id }
  firstStop [
    illIf (!headerOk h || !phOk q.e.ph n || decide (s.cur.regCount < q.d.toNat + payloadRegs h)) .range,
    others.ckMarks [] ((q.e.h :: payloadSpan q.d n).flatMap s.cur.whole),
    s.panelRange w.space.toNat n w.panelAddrs.1 w.panelAddrs.2]

/-- An earlier access of the skein that a panel access must stay behind (R97, R101, R106). -/
def State.panelBehind (s : State) (u id : Nat) (xs : List (Place × LaneAcc)) : Bool :=
  s.accesses.any fun b =>
    b.sk == u && decide (b.seq < id) && !b.done &&
      (b.order.getLsbD 0 || b.lanes.any fun y => xs.any fun x => unitOf x == unitOf (b.place, y))

/-- R106: a panel access that a pump makes partly at a peer is under way on one of some lines. -/
def State.panelLocked (s : State) (lines : List (Place × Nat)) : Bool :=
  s.ops.any fun o => (o.asked ++ o.outs).any fun m => m.lines.any lines.contains

/-- R66, R77, R96: what reading the lines of a global panel leaves: the request counts and the line stands at its home; an acquire
fills copies as a plain load that misses does, and other reads pass the core's copy by (R97). -/
def State.panelFills (s : State) (a : Access) (xs : List (Place × LaneAcc)) : State :=
  let lines := (xs.filter fun x => x.1 == .global).map fun x => x.2.addr / 128
  (lines.foldl (fun s l =>
    let s := s.countDie (128 * l) a.core 1
    if a.order.getLsbD 0 then (s.fillAtHome a.core a.ctx l a.hint).1 else s.fillHome l a.owner a.hint) s).noteFloor a.sk
      (if a.order.getLsbD 0 then [] else lines)

/-- R272, R106: the panel is read as one: every register it writes pending, the values on their way. -/
def State.takePanel (s : State) (q : PanelReq) (w : Wait) (a : Access) (h : Word) (xs : List (Place × LaneAcc)) : State :=
  let k := s.cur
  let n := payloadBytes h
  let pay := xs.dropLast
  let key (x : Place × LaneAcc) : Nat := match x.1 with | .scratch _ => scratchKey k.core x.2.addr | _ => x.2.addr
  let bs := cleanPayload h ((pay.flatMap fun x => s.panelBytes k x 128).take n)
  let bad := (pay.any fun x => s.poisonAt (key x) (min n 128)) || ((xs.getLast?).map fun x => s.poisonAt (key x) 4).getD false
  let ws := (k.headerWrite (extPos q.e) h :: k.payloadWrites q.d n q.e.ph bs).map fun (x : LaneWrite) => { x with poison := bad }
  let land (o : LongOp) : LongOp :=
    if o.forWait == some w.id then
      { o with pend := ((q.e.h :: payloadSpan q.d n).flatMap k.whole).dedup, await := 0, writes := ws, forWait := none }
    else o
  let well := (xs.map fun x => if x.1 == .global then s.serveBits a.owner (x.2.addr / 128) else 0).foldl max 0
  let s := (s.acquireBy a).panelFills a xs
  (((s.sampleLines a.sample n xs).updCur fun k => { k with ops := k.ops.map land }.endWait w).finishAccess a none).sampleDone a well

/-- R272: the header read, checked, and the whole panel taken. A line of the payload without a translation holds the instruction
for the driver (R245, R363). -/
def State.pldArrive (s : State) (u : Nat) (w : Wait) (q : PanelReq) (a : Access) : State :=
  let s0 := { s with issue := { w.issue with sk := u, mask := laneMask ((s.sk u).inWait w.id) } }
  let left (s : State) : State := (s.dropPanel u w.id).updSk u fun k => k.dropWait w.id
  let stop (s : State) (t : Trap) : State := (left s).takeTrap t
  let hold (s : State) (x : Lane) (bad : Bool) : State :=
    { (left (s.recount u w.issue.pc a.sample.isSome)).holdIssue w.instr 3 x bad with issue := s.issue }
  let l := (w.addrs.getD 0 (0, 0)).1
  match s0.formPanel q w.space.toNat l w.panelAddrs.2 with
  | (s1, .ok (x :: _)) =>
    let h : Word := BitVec.ofNat 32 (ofBytes (s1.panelBytes s1.cur x 4))
    match s1.headerStop q w h with
    | some (.trap t) => stop s1 t
    | some .hold => s
    | none =>
      match s1.formPanels q w.space.toNat l (payloadLines w.panelAddrs.1 (payloadBytes h) ++ [w.panelAddrs.2]) with
      | (s2, .ok xs) =>
        if s2.panelBehind u a.seq xs || s2.panelLocked (xs.map fun x => (x.1, x.2.addr / 128)) then s
        else { s2.takePanel q w a h xs with issue := s.issue }
      | (s2, .trap t) => stop s2 t
      | (s2, .miss x b) => { hold s2 x b with issue := s.issue }
  | (s1, .trap t) => stop s1 t
  | (s1, .miss x b) => { hold s1 x b with issue := s.issue }
  | (_, .ok []) => s

/-- PLD_HEADER_ARRIVAL (R272). -/
def execPldHeaderArrival (sk wait : Nat) (s : State) : Host.Outcome State Fault Refusal :=
  let k := s.sk sk
  match k.wait? wait, s.accesses.find? fun a => a.sk == sk && a.op == some wait && a.kind == .panelRead with
  | some w, some a =>
    .next (match panelReq w.instr with
      | some q => if k.mayAct w then s.pldArrive sk w q a else s
      | none => s)
  | _, _ => .next s

/-! ### pst (R271, R273) -/

/-- pst: header and payload captured at issue, one panel write. -/
def execPst (g : Guard) (d : Reg) (m : MemOp) (size : BitVec 3) (order : BitVec 2) (e : PanelExt) (s : State) :
    Host.Outcome State Fault Refusal :=
  let i : Instr := .pst g d m size order e
  let q : PanelReq := ⟨i, g, d, m, size, order, e, false⟩
  let s0 := s
  let (s, hit) := s.sampleIssue
  let k := s.cur
  let h := k.headerIn (extPos e)
  let n := payloadBytes h
  let any := s.anyPass g
  let badHeader := !headerOk h || !phOk e.ph n || decide (k.regCount < d.toNat + payloadRegs h)
  let known := (s.ckMarks (k.whole e.h) []).isNone
  match firstStop [
      s.panelOps q (any && known && badHeader),
      s.ckMarks (k.whole e.h ++ if badHeader then k.whole d else (payloadSpan d n).flatMap k.whole) [],
      s.ckPoisonLanes [(k.resolve e.j.toNat e.h, e.j.toNat)],
      if any then s.ckPoisonLanes (k.payloadAt d n e.ph) else none,
      (s.panelAddrs q).bind fun x => s.panelRange (s.panelTags q).1 n x.2.1 x.2.2] with
  | some x => s.finish (some x) s
  | none =>
    match s.panelPlaces q n with
    | (s, .trap t) => .next (s.takeTrap t)
    | (s, .miss a b) => .next ((s.unsample s0).holdIssue i 3 a b)
    | (s, .ok xs) =>
      s.finish (if xs.isEmpty then none
          else firstStop [if order.getLsbD 1 then s.ckRelease e.scope.toNat else none, s.ckFlag false true])
        (if xs.isEmpty then (s.sampleNone hit).advance
         else
           let (s, sample) := s.issued.panelSample hit n xs
           let (op, s) := s.fresh
           let (id, s) := s.fresh
           let (_, sb) := s.track false true
           let s := match sb with
             | some _ => s.updCur fun k => k.begin s.now { id := op, lanes := laneMask (s.passing g), setB := sb }
             | none => s
           let bs := toBytes 4 h.toNat ++ cleanPayload h (k.payload d n e.ph)
           { s with accesses := s.accesses ++ [s.panelAccess q id none .panelWrite xs bs sample] }.advance)

/-- R106: header and payload written as one, with the largest completion time of their lines. -/
def State.performPanel (s : State) (a : Access) : State :=
  let put (s : State) (x : LaneAcc) (bs : List Byte) : State := s.placeWrite a x bs
  match a.lanes with
  | [] => s
  | h :: lines =>
    let s := put s h (a.bytes.take 4)
    let s := (List.range lines.length).foldl (fun s i =>
      put s ((lines.reverse).getD i ⟨0, 0, 0, 0, 0, 0⟩) (((a.bytes.drop 4).drop (128 * i)).take 128)) s
    let well := s.wellBits a
    let s := a.lanes.foldl (fun s x => s.visitHome { a with lanes := [x] }) s
    let s := if (s.sk a.sk).core = a.core then s else s.noteFloor a.sk a.lines
    (s.finishAccess a (some (s.placeWct a))).sampleDone a well

/-! ### When an access may be performed (R96) -/

/-- An access that may be performed now, or leave for its peer. -/
def State.performable (s : State) (a : Access) : Bool :=
  !a.done && a.held.isNone && !a.out && !s.mustWait a && (s.tileBusy a).isNone && !s.pumpAhead a && a.kind != .panelRead &&
    !(a.kind == .panelWrite && s.panelLocked (a.lanes.map fun x => (a.place, x.addr / 128)))

/-- An access performed at its place (R86, R96), or sent to the peer whose it is. -/
def State.perform (s : State) (a : Access) : State :=
  match a.place with
  | .seep i => s.performSeep a i (s.nowAt (s.seepCluster i))
  | .peer dev => s.trySend a dev
  | _ =>
    match a.kind with
    | .load sx => s.performLoad a sx
    | .store => s.performStore a
    | .atomic op => s.performAtomic a op
    | .panelWrite => s.performPanel a
    | _ => s

/-- ACCESS_PERFORM (R96). -/
def execAccessPerform (id : Nat) (s : State) : Host.Outcome State Fault Refusal :=
  match s.accesses.find? fun a => a.id == id && s.performable a with
  | some a =>
    match a.beyond with
    | some key => .fault (.noSuchAddress key)
    | none => .next (s.perform a)
  | none => .next s

/-! ### qnt (R133, R134, R274) -/

/-- The 256 f32 patterns of a panel in four registers. -/
def Skein.f32Panel (k : Skein) (a : Reg) : List Nat := (regsFrom a 4).flatMap fun f => (rowOf (k.regBytes f)).map (·.toNat)

/-- The largest magnitude among values: none when every one is a NaN. -/
def maxMag (vs : List FVal) : FVal :=
  vs.foldl (fun a v =>
    match a, v with
    | .inf _, _ => a
    | _, .inf _ => .inf false
    | .fin _ m e, .fin _ m' e' => if Dy.lt ⟨m, e⟩ ⟨m', e'⟩ then .fin false m' e' else a
    | _, _ => a) (.fin false 0 0)

/-- R133: the scale exponent of a panel. -/
def scaleExp (F : Fmt) (vs : List FVal) : Int :=
  match maxMag vs, decodeF F F.maxPat with
  | .fin _ m e, .fin _ M Q =>
    if m = 0 then 0
    else
      let s0 : Int := (e + blen m) - (Q + blen M)
      let s := if Dy.lt ⟨M, Q⟩ ⟨m, e - s0⟩ then s0 + 1 else s0
      max (-127) (min 127 s)
  | _, _ => 127

/-- A value scaled by 2^-s. -/
def scaleBy (s : Int) : FVal → FVal
  | .fin n m e => .fin n m (e - s)
  | v => v

/-- R134: an element as an integer of w bits. -/
def quantInt (w : Nat) (sg : Bool) (v : FVal) : Nat × Sticky :=
  let lo : Int := if sg then -(2 ^ (w - 1) : Nat) else 0
  let hi : Int := if sg then (2 ^ (w - 1) : Nat) - 1 else (2 ^ w : Nat) - 1
  match v with
  | .nan _ => (0, fNV)
  | .inf n => (wrap w (if n then lo else hi), fSAT ||| fNX)
  | .fin n m e =>
    let (r, ix) := roundInt 0 n m e
    if r < lo then (wrap w lo, fSAT ||| fNX)
    else if hi < r then (wrap w hi, fSAT ||| fNX)
    else (wrap w r, flagIf ix fNX)

/-- R133, R134: the patterns of a quantised panel with their flags, and its scale. -/
def quantise (fmt : Nat) (sat sg : Bool) (vs : List FVal) : List (Nat × Sticky) × Nat :=
  if fmt = 5 then (vs.map (quantInt 4 true), 0x7F)
  else if fmt = 6 then (vs.map (quantInt 8 sg), 0x7F)
  else if fmt = 7 then (vs.map (toFmtV bf16 ⟨0, false, false, false, false⟩), 0x7F)
  else
    let F := panelFmt fmt
    let s := scaleExp F vs
    (vs.map fun v => encodeNarrow F sat (scaleBy s v), (s + 127).toNat)

/-- R127, R131: the payload of patterns. -/
def packPayload (h : Word) (ps : List Nat) : List Byte :=
  let at' (i : Nat) : Nat := ps.getD i 0
  let bits (e0 p : Nat) : Nat := (List.range 8).foldl (fun a i => a + at' (e0 + i) / 2 ^ (7 - p) % 2 * 2 ^ i) 0
  if hFmt h < 4 then ps.map (BitVec.ofNat 8)
  else if hFmt h < 6 then (List.range 128).map fun i => BitVec.ofNat 8 (at' (2 * i) + 16 * at' (2 * i + 1))
  else if hFmt h = 7 then ps.flatMap (toBytes 2)
  else (List.range (hPlanes h)).flatMap fun p => (List.range 32).map fun b => BitVec.ofNat 8 (bits (8 * b) p)

/-- qnt (R274). -/
def execQnt (g : Guard) (d a : Reg) (pos : PanelPos) (fmt : BitVec 4) (sat : Bool) (planes : BitVec 4) (sg ctr : Bool) (s : State) :
    Host.Outcome State Fault Refusal :=
  let k := s.cur
  let vs := (k.f32Panel a).map (decodeF f32)
  let (ps, scale) := quantise fmt.toNat sat sg vs
  let h := mkHeader fmt scale planes sg ctr
  let n := payloadBytes h
  let lanes := allLanes.filter (s.passing g)
  let srcs := (regsFrom a 4).flatMap k.whole
  let dsts := (pos.h :: payloadSpan d n).flatMap k.whole
  let (sa, sb) := s.track true true
  let fl := orFlags (ps.map (·.2))
  let pay := k.payloadWrites d n pos.ph (packPayload h (ps.map (·.1)))
  s.finish (firstStop [
      s.ckEs (· == .e32),
      illIf (decide (8 ≤ fmt.toNat) || !planesOk fmt.toNat planes.toNat sg ctr || !phOk pos.ph n) .range,
      s.ckRegs [pos.h], s.ckSpan a 4, s.ckSpan d (payloadRegs h),
      s.ckMarks srcs dsts, s.ckPoisonAll srcs,
      s.ckFlag (s.anyPass g) (s.anyPass g)])
    (s.beginIf g
      { id := 0, lanes := laneMask (s.passing g), pend := dsts.dedup, held := srcs.dedup, setA := sa, setB := sb
        writes := pay ++ [k.headerWrite pos h pay]
        flags := lanes.map fun l => (l, fl) })

/-! ### dqnt (R275) -/

/-- R275: an element as f32. -/
def dequant (h : Word) (pat : Nat) : Nat × Sticky :=
  if hFmt h = 5 ∨ hFmt h = 6 then roundDy f32 0 false false ⟨eltInt h pat, 0⟩
  else
    match eltVal h pat with
    | .nan _ => (0x7FC00000, 0)
    | v => toFmtV f32 ⟨0, false, false, false, false⟩ v

/-- dqnt (R275). -/
def execDqnt (g : Guard) (d a : Reg) (pos : PanelPos) (s : State) : Host.Outcome State Fault Refusal :=
  let k := s.cur
  let h := k.headerIn pos
  let n := payloadBytes h
  let any := s.anyPass g
  let lanes := allLanes.filter (s.passing g)
  let dst := regsFrom d 4
  let bad := !headerOk h || hGeom h || !phOk pos.ph n || decide (k.regCount < a.toNat + payloadRegs h)
  let src := (payloadSpan a n).flatMap k.whole
  let bs := k.payload a n pos.ph
  let rs := (List.range 256).map fun e => dequant h (eltPat h bs e)
  let fl := orFlags (rs.map (·.2))
  let (sa, sb) := s.track true true
  let val (r l : Nat) : Lane := packLane 32 [(rs.getD (64 * r + 2 * l) (0, 0)).1, (rs.getD (64 * r + 2 * l + 1) (0, 0)).1]
  s.finish (firstStop [
      s.ckEs (· == .e32), s.ckRegs [a, pos.h], s.ckSpan d 4,
      illIf (any && (s.ckMarks (k.whole pos.h) []).isNone && bad) .range,
      s.ckMarks (k.whole pos.h ++ if bad then k.whole a else src) (dst.flatMap k.whole),
      s.ckPoisonLanes [(k.resolve pos.j.toNat pos.h, pos.j.toNat)],
      if any then s.ckPoisonLanes (k.payloadAt a n pos.ph) else none,
      s.ckFlag any any])
    (s.beginIf g
      { id := 0, lanes := laneMask (s.passing g), pend := (dst.flatMap k.whole).dedup, held := src.dedup, setA := sa, setB := sb
        writes := (List.range 4).flatMap fun r => allLanes.map fun l =>
          (⟨k.resolve l (BitVec.ofNat 6 (d.toNat + r)), l, val r l, false⟩ : LaneWrite)
        flags := lanes.map fun l => (l, fl) })

end Sys2Proof.Machine
end

