-- ==== Sys2Proof/Machine/Alter.lean ====
section
/-!
DEFINITION. The alteration engine of a core (R315 to R330, R335): blocks, heat and swatches, canonical forms and candidates,
basting and sewing, altered execution, seam checks and unpicking.
-/

namespace Sys2Proof.Machine

/-! ### sys.altctl (R316) -/

/-- EN. -/
def altEn (a : Lane) : Bool := a.getLsbD 0
/-- HOT. -/
def altHot (a : Lane) : Nat := (a.extractLsb' 16 16).toNat
/-- SWN. -/
def altSwn (a : Lane) : Nat := (a.extractLsb' 4 4).toNat
/-- NBASTE. -/
def altNbaste (a : Lane) : Nat := (a.extractLsb' 32 8).toNat
/-- 2^SEAM. -/
def altSeam (a : Lane) : Nat := 2 ^ (a.extractLsb' 8 5).toNat

/-! ### Fragments (R317) -/

/-- Operations of the two fragments. -/
inductive FragOp | const | mov | add | sub | neg | shl | mul | mad | and | or | xor | andn | not
deriving DecidableEq, Repr

/-- An instruction of a fragment: its operation, registers, and the immediate as a sub-element. -/
structure Frag where
  op  : FragOp
  d   : Reg
  a   : Option Reg := none
  b   : Option Reg := none
  c   : Option Reg := none
  imm : Nat := 0
deriving DecidableEq, Repr

/-- The immediate of R151 as one sub-element. -/
def immElt (es : Es) (v : Word) : Nat := if es = .e64 then (v.signExtend 64).toNat else v.toNat % 2 ^ es.w

/-- R317: an instruction of a fragment. -/
def fragOf (es : Es) (i : Instr) : Option Frag :=
  match i with
  | .movi .always d v => some { op := .const, d := d, imm := wrap es.w v.toInt }
  | .movImm .always d v => some { op := .const, d := d, imm := immElt es v }
  | .mov .always d b .ident => some { op := .mov, d := d, b := some b }
  | .add .always d a b .ident => some { op := .add, d := d, a := some a, b := some b }
  | .addImm .always d a v => some { op := .add, d := d, a := some a, imm := immElt es v }
  | .sub .always d a b .ident => some { op := .sub, d := d, a := some a, b := some b }
  | .subImm .always d a v => some { op := .sub, d := d, a := some a, imm := immElt es v }
  | .neg .always d a => some { op := .neg, d := d, a := some a }
  | .shl .always d a b .ident => some { op := .shl, d := d, a := some a, b := some b }
  | .shlImm .always d a v => some { op := .shl, d := d, a := some a, imm := immElt es v }
  | .mul .always d a b .ident => some { op := .mul, d := d, a := some a, b := some b }
  | .mulImm .always d a v => some { op := .mul, d := d, a := some a, imm := immElt es v }
  | .mad .always d a b .ident c => some { op := .mad, d := d, a := some a, b := some b, c := some c }
  | .and .always d a b .ident => some { op := .and, d := d, a := some a, b := some b }
  | .or .always d a b .ident => some { op := .or, d := d, a := some a, b := some b }
  | .xor .always d a b .ident => some { op := .xor, d := d, a := some a, b := some b }
  | .andn .always d a b .ident => some { op := .andn, d := d, a := some a, b := some b }
  | .not .always d a => some { op := .not, d := d, a := some a }
  | _ => none

/-- The registers it reads. -/
def Frag.reads (f : Frag) : List Reg := f.a.toList ++ f.b.toList ++ f.c.toList

/-- Registers read before they are written, ascending. -/
def inputsOf (fs : List Frag) : List Reg :=
  let r := fs.foldl (fun (x : List Reg × List Reg) f =>
    (x.1 ++ f.reads.filter fun a => !x.2.contains a, f.d :: x.2)) ([], [])
  (List.range 64).filterMap fun n => if r.1.contains (BitVec.ofNat 6 n) then some (BitVec.ofNat 6 n) else none

/-- Registers written, ascending. -/
def writtenOf (fs : List Frag) : List Reg :=
  (List.range 64).filterMap fun n => if fs.any (fun f => f.d == BitVec.ofNat 6 n) then some (BitVec.ofNat 6 n) else none

/-- Registers that hold a constant after a sequence. -/
def constsOf (fs : List Frag) : List Reg :=
  fs.foldl (fun cs f => if f.op = .const then f.d :: cs else cs.filter (· != f.d)) []

/-- The fragments an instruction may belong to: linear, bitwise. -/
structure Kinds where
  lin : Bool
  bit : Bool
deriving DecidableEq, Repr

/-- Neither. -/
def Kinds.none : Kinds := ⟨false, false⟩
/-- Both at once. -/
def Kinds.meet (x y : Kinds) : Kinds := ⟨x.lin && y.lin, x.bit && y.bit⟩

/-- R317, R318: the fragments an instruction belongs to after the instructions of its block and of its run; at most four inputs in
each. -/
def Frag.kinds (f : Frag) (block run : List Frag) : Kinds :=
  let cs := constsOf block
  let const (r : Option Reg) : Bool := match r with | some r => cs.contains r | none => true
  let four := decide ((inputsOf (run ++ [f])).length ≤ 4) && decide ((inputsOf (block ++ [f])).length ≤ 4)
  match f.op with
  | .const | .add | .sub | .neg => ⟨true, false⟩
  | .mov => ⟨true, four⟩
  | .shl => ⟨const f.b, false⟩
  | .mul | .mad => ⟨const f.a || const f.b, false⟩
  | _ => ⟨false, four⟩

/-! ### Blocks (R318) -/

/-- One instruction of a clause. -/
structure Item where
  pc   : Lane
  ws   : List Word
  frag : Option Frag
  rep  : Bool
deriving DecidableEq, Repr

/-- The instructions of n words from a PC. -/
def itemsFrom (es : Es) (pc : Lane) : Nat → List Word → List Item
  | 0, _ => []
  | n + 1, body =>
    match wordsAt body 0 with
    | [] => []
    | w :: x =>
      let frag := match decodeWord es w (x.headD 0) with | .ok i => fragOf es i | .error _ => none
      ⟨pc, w :: x, frag, Word.opcode w == 0x48⟩ :: itemsFrom es (pc + 4 * u64 (1 + x.length)) n (body.drop (1 + x.length))

/-- A run of one fragment: its instructions and the fragments they all belong to. -/
structure Run where
  items : List Item := []
  kinds : Kinds := .none
deriving DecidableEq, Repr

/-- The fragment instructions of items. -/
def fragsOf (is : List Item) : List Frag := is.filterMap (·.frag)

/-- R318: the run that an instruction continues or begins; the finished runs before it. -/
def Run.take (r : Run) (i : Item) (repeated : Bool) : List Run × Run :=
  match i.frag with
  | none => ([r], {})
  | some f =>
    if repeated then ([r], {})
    else
      let k := (f.kinds (fragsOf (r.items.drop (r.items.length / 12 * 12))) (fragsOf r.items))
      let j := if r.items.isEmpty then k else k.meet r.kinds
      if j != .none then ([], ⟨r.items ++ [i], j⟩)
      else
        let k := f.kinds [] []
        ([r], if k = .none then {} else ⟨[i], k⟩)

/-- R318: the runs of a clause. -/
def runsOf (r : Run) (repeated : Bool) : List Item → List Run
  | [] => [r]
  | i :: is =>
    let (done, r') := r.take i repeated
    done ++ runsOf r' i.rep is

/-- A block: its instructions, all of one fragment; `lin` says which. -/
structure Block where
  items : List Item
  lin   : Bool
deriving DecidableEq, Repr

/-- R318: a run cut into pieces of twelve; a last piece of one is no block. -/
def Run.blocks (r : Run) : List Block :=
  (List.range ((r.items.length + 11) / 12)).filterMap fun i =>
    let p := (r.items.drop (12 * i)).take 12
    if 2 ≤ p.length then some ⟨p, r.kinds.lin⟩ else none

/-- The blocks of a clause. -/
def clauseBlocks (es : Es) (hdr : Lane) (n : Nat) (body : List Word) : List Block :=
  (runsOf {} false (itemsFrom es (hdr + 4) n body)).flatMap Run.blocks

/-- A block's words. -/
def Block.words (b : Block) : List Word := b.items.flatMap (·.ws)
/-- A block's start PC. -/
def Block.pc (b : Block) : Lane := ((b.items.head?).map (·.pc)).getD 0

/-- The fragment instructions of words. -/
def fragWords (es : Es) (ws : List Word) : List Frag := fragsOf (itemsFrom es 0 ws.length ws)

/-! ### Running fragments -/

/-- One sub-element. -/
def FragOp.eval (o : FragOp) (w x y z : Nat) : Nat :=
  match o with
  | .const | .mov => y
  | .add => (fnAdd w x y).1
  | .sub => (fnSub w x y).1
  | .neg => fnNeg w x
  | .shl => (fnShl w x y).1
  | .mul => (fnMul w x y).1
  | .mad => (x * y + z) % 2 ^ w
  | .and => (fnAnd w x y).1
  | .or => (fnOr w x y).1
  | .xor => (fnXor w x y).1
  | .andn => (fnAndn w x y).1
  | .not => fnNot w x

/-- R167: the tag of its result. -/
def Frag.tag (f : Frag) (es : Es) (k : Skein) (m : Mask) : Tag :=
  let t (r : Option Reg) : Tag := match r with | some r => k.tagOf m r | none => .uniform
  let v (r : Option Reg) : Lane := match r with | some r => k.read r 0 | none => splat es.w f.imm
  match f.op with
  | .const => .uniform
  | .mov => (t f.b).at es
  | .add => tagAdd es (t f.a) (t f.b) (v f.a) (v f.b)
  | .sub => tagSub es (t f.a) (t f.b) (v f.a) (v f.b)
  | .mul => tagMul es (t f.a) (t f.b) (v f.a) (v f.b)
  | .neg | .not => tagAll [t f.a]
  | .mad => tagAll [t f.a, t f.b, t f.c]
  | _ => tagAll [t f.a, t f.b]

/-- One instruction of a fragment over lanes. -/
def Frag.run (es : Es) (m : Mask) (k : Skein) (f : Frag) : Skein :=
  let src (r : Option Reg) (l : Nat) : List Nat :=
    match r with | some r => subs es.w (k.read r l) | none => List.replicate (64 / es.w) f.imm
  let val (l : Nat) : Lane :=
    packLane es.w (((src f.a l).zip (src f.b l)).zipWith (fun x z => f.op.eval es.w x.1 x.2 z) (src f.c l))
  k.write f.d m.getLsbD val (f.tag es k m)

/-- A sequence of them. -/
def runFrags (es : Es) (m : Mask) (k : Skein) (fs : List Frag) : Skein := fs.foldl (Frag.run es m) k

/-- Values of registers over all lanes. -/
def Skein.values (k : Skein) (rs : List Reg) : List (Nat × List Lane) := rs.map fun r => (r.toNat, allLanes.map fun l => k.lane r.toNat l)

/-- R315, R323: a ghost run on captured inputs. -/
def ghostRun (es : Es) (m : Mask) (inputs : List (Nat × List Lane)) (fs : List Frag) : Skein :=
  let k : Skein := { threads := List.replicate 32 { exited := false } }
  runFrags es m (inputs.foldl (fun (k : Skein) x => { k with regs := bankUpd 64 {} k.regs x.1 fun r => { r with lanes := x.2 } }) k) fs

/-- R323, R327: a ghost run gives the results captured, in every lane captured. -/
def Ghost.agrees (g : Ghost) (es : Es) (fs : List Frag) : Bool :=
  let k := ghostRun es g.lanes g.inputs fs
  g.results.all fun r => (maskLanes g.lanes).all fun l => k.lane r.1 l == r.2.getD l 0

/-! ### Canonical forms (R321) -/

/-- A vector of coefficients, the constant first. -/
abbrev Form := List Nat

/-- The form of a register. -/
def formOf (env : List (Reg × Form)) (r : Reg) : Option Form := (env.find? fun x => x.1 == r).map (·.2)

/-- Two forms combined. -/
def zipForm (w : Nat) (f : Int → Int → Int) (x y : Form) : Form := x.zipWith (fun a b => wrap w (f a b)) y

/-- A form multiplied. -/
def scaleForm (w c : Nat) (x : Form) : Form := x.map fun a => a * c % 2 ^ w

/-- R321: one linear instruction on forms; none when it reads what is neither an input nor written. -/
def linStep (w n : Nat) (env : List (Reg × Form)) (f : Frag) : Option (List (Reg × Form)) :=
  let const (v : Nat) : Form := v :: List.replicate n 0
  let get (r : Option Reg) : Option Form := match r with | some r => formOf env r | none => some (const f.imm)
  let put (v : Option Form) : Option (List (Reg × Form)) := v.map fun v => (f.d, v) :: env.filter fun x => x.1 != f.d
  let isConst (x : Form) : Bool := x.tail.all (· == 0)
  let prod (x y : Form) : Form := if isConst x then scaleForm w (x.headD 0) y else scaleForm w (y.headD 0) x
  match f.op with
  | .const => put (some (const f.imm))
  | .mov => put (get f.b)
  | .add => put ((get f.a).bind fun x => (get f.b).map fun y => zipForm w (· + ·) x y)
  | .sub => put ((get f.a).bind fun x => (get f.b).map fun y => zipForm w (· - ·) x y)
  | .neg => put ((get f.a).map fun x => zipForm w (fun a _ => -a) x x)
  | .shl => put ((get f.a).bind fun x => (get f.b).map fun y => if y.headD 0 < w then scaleForm w (2 ^ y.headD 0) x else scaleForm w 0 x)
  | .mul => put ((get f.a).bind fun x => (get f.b).map fun y => prod x y)
  | .mad => put ((get f.a).bind fun x => (get f.b).bind fun y => (get f.c).map fun z => zipForm w (· + ·) (prod x y) z)
  | _ => none

/-- R321: one bitwise instruction on truth tables. -/
def bitStep (env : List (Reg × Form)) (f : Frag) : Option (List (Reg × Form)) :=
  let get (r : Option Reg) : Option Nat := match r with | some r => (formOf env r).map (·.headD 0) | none => none
  let put (v : Option Nat) : Option (List (Reg × Form)) := v.map fun v => (f.d, [v % 65536]) :: env.filter fun x => x.1 != f.d
  match f.op with
  | .mov => put (get f.b)
  | .not => put ((get f.a).map fun x => 65535 - x)
  | .and | .or | .xor | .andn => put ((get f.a).bind fun x => (get f.b).map fun y => f.op.eval 16 x y 0)
  | _ => none

/-- A sequence of steps that may fail. -/
def foldForms (step : List (Reg × Form) → Frag → Option (List (Reg × Form))) :
    List (Reg × Form) → List Frag → Option (List (Reg × Form))
  | env, [] => some env
  | env, f :: fs => (step env f).bind fun e => foldForms step e fs

/-- R321: truth table of input k. -/
def inputTable (k : Nat) : Nat := (List.range 16).foldl (fun a i => a + i / 2 ^ k % 2 * 2 ^ i) 0

/-- R321: the canonical form: the written registers with their forms, ascending. -/
def canonOf (lin : Bool) (w : Nat) (inputs : List Reg) (fs : List Frag) : Option (List (Reg × Form)) :=
  let n := inputs.length
  let env := (List.range n).map fun i =>
    (inputs.getD i 0, if lin then 0 :: (List.range n).map (fun j => if i = j then 1 else 0) else [inputTable i])
  (foldForms (if lin then linStep w n else bitStep) env fs).map fun e =>
    (writtenOf fs).map fun r => (r, (formOf e r).getD [])

/-- R317, R322: a sequence belongs to one fragment throughout. -/
def allOf (lin : Bool) (done : List Frag) : List Frag → Bool
  | [] => true
  | f :: fs =>
    let k := f.kinds done done
    (if lin then k.lin else k.bit) && allOf lin (done ++ [f]) fs

/-- R321, R322: a candidate qualifies and computes the same. -/
def candidateOk (lin : Bool) (es : Es) (orig cand : List Frag) : Bool :=
  let ins := inputsOf orig
  decide (cand.length < orig.length) && !cand.isEmpty && allOf lin [] cand && writtenOf cand == writtenOf orig &&
    (inputsOf cand).all ins.contains &&
    (match canonOf lin es.w ins orig, canonOf lin es.w ins cand with
     | some x, some y => x == y
     | _, _ => false)

/-! ### Notices and unpicking (R328, R329) -/

/-- The skein that a record of an entry names. -/
def State.runner (s : State) (u core ctx : Nat) : Skein := { s.sk u with core := core, ctx := ctx }

/-- A counter one higher, saturating (R391, R404). -/
def satInc {w : Nat} (x : BitVec w) : BitVec w := if x = BitVec.allOnes w then x else x + 1

/-- R404: the package's sums changed; they show at the end of a window. -/
def State.tally (s : State) (f : Telemetry → Telemetry) : State := { s with sums := f s.sums }

/-- R329: a notice, counted for the package (R404); `regions`: the executing skein's top region identifiers. -/
def State.notice (s : State) (core ctx kind : Nat) (id : BitVec 16) (pc : Lane) (regions : List Byte) (exposure : Nat) : State :=
  (s.event ctx (s.record32 kind (toBytes 2 id.toNat ++ coreTag core ++ toBytes 8 pc.toNat ++ regions ++
    toBytes 4 exposure))).tally fun t =>
      if kind = 1 then { t with seam := satInc t.seam }
      else if kind = 2 then { t with baste := satInc t.baste }
      else { t with parity := satInc t.parity }

/-- R403: an alteration record: 1 sewn, 2 unpicked, 3 seam clean. -/
def State.alterTrace (s : State) (a : Altered) (what : Nat) : State :=
  s.trace (s.runner a.runner a.core a.ctx) 0x34 a.pc (toBytes 2 a.id.toNat ++ toBytes 1 what ++ toBytes 1 0 ++ toBytes 4 a.since)

/-- R328: entries unpicked, without a notice. -/
def State.unpick (s : State) (p : Altered → Bool) : State :=
  (s.altered.filter p).foldl (fun s a => s.alterTrace a 2) { s with altered := s.altered.filter fun a => !p a }

/-- R316, R328: every alteration of a context goes; its heat entries too when asked. -/
def State.unpickCtx (s : State) (c : Nat) (heat : Bool) : State :=
  let s := s.unpick fun a => a.ctx == c
  if heat then { s with heats := s.heats.filter fun h => h.ctx != c } else s

/-- R328: what a `codefetch` over lines of a context discards. -/
def State.unpickLines (s : State) (c first n : Nat) : State :=
  let hit (pc : Lane) : Bool := decide (first ≤ lineOf pc) && decide (lineOf pc < first + n)
  let s := s.unpick fun a => a.ctx == c && hit a.pc
  { s with heats := s.heats.filter fun h => !(h.ctx == c && hit h.pc) }

/-! ### Heat (R319, R320, R323, R324) -/

/-- The heat entry of a block. -/
def State.heat? (s : State) (core ctx : Nat) (pc : Lane) : Option Heat :=
  s.heats.find? fun h => h.core == core && h.ctx == ctx && h.pc == pc

/-- A heat entry put in place of the one with its key; a full table gives up its earliest window (R319). -/
def State.putHeat (s : State) (h : Heat) : State :=
  let rest := s.heats.filter fun x => !(x.core == h.core && x.ctx == h.ctx && x.pc == h.pc)
  let mine := rest.filter fun x => x.core == h.core
  let rest := if mine.length < 64 then rest else match minBy (·.start) mine with | some v => rest.erase v | none => rest
  { s with heats := rest ++ [h] }

/-- The sewn entry of a block. -/
def State.sewn? (s : State) (core ctx : Nat) (pc : Lane) : Option Altered :=
  s.altered.find? fun a => a.core == core && a.ctx == ctx && a.pc == pc

/-- R320: the lane a swatch is taken from: the n-th of the active ones, n a free value. -/
def State.swatchLane (s : State) (m : Mask) : Nat × State :=
  let (v, s) := s.free
  let ls := maskLanes m
  (ls.getD (v.toNat % max ls.length 1) 0, s)

/-- R319, R320, R323: one whole execution of a block has ended: its inputs, its results. An entry of other code at the same PC gives way
to a new one. -/
def State.blockDone (s : State) (k : Skein) (blk : Block) (es : Es) (b : BlockTrack) (results : List (Nat × List Lane)) : State :=
  let a := (s.ctx k.ctx).altctl
  let h := ((s.heat? k.core k.ctx b.start).filter fun h => h.words == blk.words && h.es == es).getD
    { core := k.core, ctx := k.ctx, pc := b.start, words := blk.words, es := es, lin := blk.lin, count := 0, start := s.now }
  let inWindow := decide (s.now < h.start + 2 ^ 20)
  let count := if inWindow then h.count + 1 else 1
  let h := { h with count := count, start := if inWindow then h.start else s.now, runner := k.uid }
  match h.state with
  | .counting => s.putHeat { h with state := if altHot a ≤ count then .recording else .counting }
  | .recording =>
    let (l, s) := s.swatchLane b.lanes
    let sw := h.swatches ++ [b.inputs.map fun x => x.2.getD l 0]
    s.putHeat { h with swatches := sw, state := if 8 ≤ sw.length then .searching else .recording }
  | .searching => s.putHeat h
  | .basting => s.putHeat (if b.late || h.guard.isSome then h else { h with guard := some ⟨b.reads, results, b.lanes, k.regionTag⟩ })

/-- R323: a ghost run of the block's entry has not ended. -/
def State.ghostOn (s : State) (k : Skein) (pc : Lane) : Bool := (s.heat? k.core k.ctx pc).any fun h => h.guard.isSome

/-- R315, R399: the engine acts for a context: enabled, and no debugger attached. -/
def State.alters (s : State) (c : Nat) : Bool := altEn (s.ctx c).altctl && !(s.ctx c).dbg.att

/-- R315: code of a skein that the engine considers. -/
def State.considered (s : State) (k : Skein) (m : Mask) : Bool :=
  s.alters k.ctx && !k.conductor && !(k.regions.any (·.na)) && (maskLanes m).all fun l => (k.thread l).region.isNone

/-- R323: the inputs of a block that an instruction of it reads first, as they stand at its issue. -/
def BlockTrack.note (b : BlockTrack) (k : Skein) (blk : Block) (f : Frag) : BlockTrack :=
  { b with reads := b.reads ++ k.values ((inputsOf (fragsOf blk.items)).filter fun r => f.reads.contains r && !(b.reads.any fun x => x.1 == r.toNat)) }

/-- R318: what an issue that took its effect means to the block being followed: `s` before the issue, `t` after. -/
def State.observe (s t : State) (i : Issue) (ins : Instr) : State :=
  let k := s.sk i.sk
  let drop : State := if k.block.isNone then t else t.updSk i.sk fun k => { k with block := none }
  let h := (decodeHeader i.word).getD ⟨none, none, 0, .vector, .e8, 1⟩
  let k' := t.sk i.sk
  match (fragOf h.es ins).filter fun _ => i.rep.isNone && s.considered k i.mask && k'.handler == k.handler && k'.escalated.isNone with
  | none => drop
  | some f =>
    let blocks := clauseBlocks h.es i.hdr h.count.toNat i.body
    let fresh : Option BlockTrack := (blocks.find? fun b => b.pc == i.pc).map fun b =>
      BlockTrack.note ⟨i.pc, i.next, i.mask, 1, b.items.length, k.values (inputsOf (fragsOf b.items)), [], s.ghostOn k i.pc⟩ k b f
    match k.block with
    | some b =>
      if b.next = i.pc ∧ b.lanes = i.mask then
        match blocks.find? fun x => x.pc == b.start with
        | none => drop
        | some blk =>
          let b := b.note k blk f
          if b.count + 1 = b.total then
            (t.updSk i.sk fun k => { k with block := none }).blockDone k blk h.es b (k'.values (writtenOf (fragsOf blk.items)))
          else t.updSk i.sk fun k => { k with block := some { b with next := i.next, count := b.count + 1 } }
      else t.updSk i.sk fun k => { k with block := fresh }
    | none => if fresh.isNone then t else t.updSk i.sk fun k => { k with block := fresh }

/-- R322, R324: words qualify as a candidate of an entry: whole instructions of its fragment, the proof, and the original's
results on the swatches. -/
def Heat.accepts (h : Heat) (swn : Nat) (cand : List Word) : Bool :=
  let orig := fragWords h.es h.words
  let c := fragWords h.es cand
  let ins := inputsOf orig
  let fits (sw : List Lane) : Bool :=
    let inputs := (List.range ins.length).map fun i => ((ins.getD i 0).toNat, List.replicate 32 (sw.getD i 0))
    let x := ghostRun h.es 1 inputs orig
    let y := ghostRun h.es 1 inputs c
    (writtenOf orig).all fun r => x.lane r.toNat 0 == y.lane r.toNat 0
  c.length == (itemsFrom h.es 0 cand.length cand).length && candidateOk h.lin h.es orig c && (h.swatches.take swn).all fits

/-- CANDIDATE_SEARCH (R321, R322, R324, R335): the engine tries a candidate on the entries of a start PC that are searching and
have ghost slots left. One that none of them takes costs the first of them a ghost slot for each of its instructions on each
swatch (log 45). -/
def execCandidateSearch (core : Nat) (pc : Lane) (cand : List Word) (s : State) : Host.Outcome State Fault Refusal :=
  let swn (h : Heat) : Nat := altSwn (s.ctx h.ctx).altctl
  let open' := s.heats.filter fun h => h.core == core && h.pc == pc && h.state == .searching && s.alters h.ctx && decide (h.ghosts < 2 ^ 16)
  .next (match open'.find? fun h => h.accepts (swn h) cand, open' with
    | some h, _ => s.putHeat { h with state := .basting, cand := cand, clean := 0, guard := none }
    | none, h :: _ => s.putHeat { h with ghosts := h.ghosts + cand.length * max 1 (swn h) }
    | none, [] => s)

/-- R325: the candidate is sewn, in place of an entry of the same key; a full store gives up the entry executed least
recently. -/
def State.sew (s : State) (h : Heat) : State :=
  let id : BitVec 16 := ((s.altIds.find? fun x => x.1 == h.core).map (·.2)).getD 0 + 1
  let s := s.unpick fun a => a.core == h.core && a.ctx == h.ctx && a.pc == h.pc
  let mine := s.altered.filter fun a => a.core == h.core
  let s := if mine.length < 32 then s else
    match minBy (·.used) mine with | some v => s.unpick (· == v) | none => s
  let a : Altered :=
    { core := h.core, ctx := h.ctx, pc := h.pc, id := id, orig := h.words, words := h.cand, es := h.es, used := s.now, runner := h.runner }
  { s with
    heats := s.heats.erase h
    altered := s.altered ++ [a]
    altIds := (h.core, id) :: s.altIds.filter fun x => x.1 != h.core
    sums := { s.sums with sewn := satInc s.sums.sewn } }.alterTrace a 1

/-- BASTING_COMPARE (R323): the ghost run of the guard's execution has ended. -/
def execBastingCompare (core : Nat) (pc : Lane) (s : State) : Host.Outcome State Fault Refusal :=
  match s.heats.find? fun h => h.core == core && h.pc == pc && h.state == .basting && h.guard.isSome && s.alters h.ctx with
  | none => .next s
  | some h =>
    .next (match h.guard with
      | none => s
      | some g =>
        if g.agrees h.es (fragWords h.es h.cand) then
          let h' := { h with clean := h.clean + 1, guard := none }
          let s := s.putHeat h'
          if altNbaste (s.ctx h.ctx).altctl ≤ h'.clean then s.sew h' else s
        else
          (s.putHeat { h with state := .counting, count := 0, cand := [], clean := 0, guard := none, swatches := [] }).notice
            h.core h.ctx 2 0 h.pc g.regions 0)

/-! ### Altered execution (R326, R327) -/

/-- R328, R330: the code at an issue is the block that an entry replaces: the same words under the same element size. -/
def Altered.matches (a : Altered) (i : Issue) : Bool :=
  match decodeHeader i.word with
  | none => false
  | some h => h.es == a.es && (clauseBlocks h.es i.hdr h.count.toNat i.body).any fun b => b.pc == i.pc && b.words == a.orig

/-- The sewn entry that the next issue of a skein would run, with its group and issue (R326). -/
def State.redirect (s : State) (u : Nat) : Option (Altered × Pick × Issue) :=
  match s.sk? u with
  | none => none
  | some k =>
    match s.plan k with
    | .go p i =>
      match if i.rep.isSome then none else (s.sewn? k.core k.ctx i.pc).filter (·.matches i) with
      | none => none
      | some a =>
        let orig := fragWords a.es a.orig
        let ins := (inputsOf orig).map (·.toNat)
        let outs := (writtenOf orig).map (·.toNat)
        let len := (fragWords a.es a.words).length
        let free := (ins.all fun r => (k.pendingBy r).isNone && (k.heldBy r).isNone && (k.reg r).poison &&& p.mask == 0 &&
            decide (r < k.regCount)) &&
          outs.all fun r => (k.heldBy r).isNone && (k.pendingBy r).isNone && decide (r < k.regCount)
        let fair := allLanes.all fun l => p.mask.getLsbD l || !s.runnable k l || decide ((k.thread l).starve + len ≤ 32)
        if s.considered k p.mask && free && fair && a.seam.isNone then some (a, p, i) else none
    | _ => none

/-- R328: an entry whose parity fails when a skein's issue reads it goes, with a notice. -/
def State.badParity (s : State) (a : Altered) (u : Nat) : State :=
  (s.unpick (· == a)).notice a.core a.ctx 3 a.id a.pc (s.sk u).regionTag 0

/-- R326: the altered code issued as one unit: the candidate's values, the original's tags, the group past the block. Its effect shows at
once, and the skein issues nothing else for as many ticks as it has instructions. -/
def State.runAltered (s : State) (a : Altered) (p : Pick) (i : Issue) : State :=
  let orig := fragWords a.es a.orig
  let cand := fragWords a.es a.words
  let n := cand.length
  let s := s.atIssue p i
  let k := s.cur
  let kv := runFrags a.es i.mask k cand
  let kt := runFrags a.es i.mask k orig
  let regs := (writtenOf orig).foldl (fun rs r => bankUpd 64 {} rs r.toNat fun _ => { kv.reg r.toNat with tag := (kt.reg r.toNat).tag }) k.regs
  let h := (decodeHeader i.word).getD ⟨none, none, 0, .vector, .e8, 1⟩
  let slot := i.slot + orig.length
  let done : Issue :=
    { i with slot := slot - 1, last := decide (h.count.toNat ≤ slot), next := i.pc + 4 * u64 a.orig.length }
  let s := s.updCur fun k =>
    let k := (List.range (n - 1)).foldl (fun k _ => s.countIssue k i.mask) { k with regs := regs, block := none }
    k.pass done s.executing
  let limit := altSeam (s.ctx k.ctx).altctl
  let seam : Option Ghost :=
    if limit ≤ a.since + 1 then some ⟨k.values (inputsOf orig), s.cur.values (writtenOf orig), i.mask, k.regionTag⟩ else none
  let a' := { a with since := a.since + 1, used := s.now, seam := seam, runner := k.uid }
  let s := { s with altered := s.altered.map fun x => if x == a then a' else x }.afterIssue
  s.updSk k.uid fun k => { k with idleAt := k.idleAt + (n - 1) }

/-- ALTERED_EXECUTION (R326): the group's next instruction is at a sewn start PC. -/
def execAlteredExecution (sk : Nat) (s : State) : Host.Outcome State Fault Refusal :=
  match s.redirect sk with
  | some (a, p, i) => .next (if a.parity then s.runAltered a p i else s.badParity a sk)
  | none => .next s

/-- SEAM_CHECK (R327, R328): the ghost run of the original has ended. -/
def execSeamCheck (core : Nat) (pc : Lane) (s : State) : Host.Outcome State Fault Refusal :=
  match s.altered.find? fun a => a.core == core && a.pc == pc && a.seam.isSome with
  | none => .next s
  | some a =>
    .next (match a.seam with
      | none => s
      | some g =>
        if g.agrees a.es (fragWords a.es a.orig) then
          let a' := { a with since := 0, seam := none }
          { s with altered := s.altered.map fun x => if x == a then a' else x }.alterTrace { a' with since := a.since } 3
        else
          ((s.unpick (· == a)).updCtx a.ctx fun c => { c with altctl := c.altctl ||| (1 <<< 40) }).notice
            a.core a.ctx 1 a.id a.pc g.regions a.since)

end Sys2Proof.Machine
end

