-- ==== Sys2Proof/Machine/Fetch.lean ====
section
/-!
DEFINITION. `codefetch` (R252) and the filling of instruction lines (R331, R332).
-/

namespace Sys2Proof.Machine

/-- The canonical address of a line. -/
def lineAddr (line : Nat) : Lane := (BitVec.ofNat 57 (line * 128)).signExtend 64

/-- A line goes from the L1 instruction cache of a core and from its quadrants. -/
def State.dropLines (s : State) (core ctx first n : Nat) : State :=
  { s with ilines := s.ilines.filter fun i => !(i.core == core && i.ctx == ctx && decide (first ≤ i.line) && decide (i.line < first + n)) }

/-- R252: the operation of a `codefetch` from an address: caches and alterations let go of the range, and its lines are
requested; an address that cannot be fetched fails it. -/
def State.startFetch (s : State) (hd : Nat) (start : Lane) (n : Nat) : State :=
  let k := s.cur
  let addrs := (List.range n).map fun i => start + 128 * u64 i
  let first := lineOf start
  let (u, s) := s.startOp hd 5 { kind := .fetch, first := first, count := n, lines := addrs.map lineOf }
  let s := (s.dropLines k.core k.ctx first n).unpickLines k.ctx first n
  match s.unfetchable k.ctx addrs with
  | (s, some a) => s.updOp u fun o => { o with ready := true, status := 1, failAddr := a, lines := [] }
  | (s, none) => addrs.foldl (fun s a => s.wantLine k.core k.ctx (lineOf a) none (some u)) s

/-- codefetch (R252). -/
def execCodefetch (g : Guard) (n : Reg) (m : MemOp) (size : BitVec 3) (order : BitVec 2) (lines1 : BitVec 10) (s : State) :
    Host.Outcome State Fault Refusal :=
  let k := s.cur
  s.finish (firstStop [
      s.ckOperands (offRegs m.off) [] (firstStop [
        illIf (decide (8 ≤ n.toNat) || size != 0 || order != 0) .range,
        illIf (k.streamTag m.stream.toNat != 0) .state]),
      if s.anyPass g then s.ckTimeline 5 else none])
    (match lowest (s.passing g) with
     | none => s.advance
     | some l =>
       let a := k.addr m.stream.toNat m.off l
       (s.startFetch n.toNat (a - u64 (a.toNat % 128)) (lines1.toNat + 1)).advance)

/-- A fetch operation of which a line has landed, or cannot. -/
def EngineOp.landLine (o : EngineOp) (line : Nat) (bad : Bool) : EngineOp :=
  if bad then { o with ready := true, status := 1, failAddr := lineAddr line, lines := [] }
  else
    let rest := o.lines.filter (· != line)
    { o with lines := rest, ready := rest.isEmpty }

/-- The fetch operations of a request take note of its line. -/
def State.noteLine (s : State) (r : IReq) (bad : Bool) : State :=
  let f (o : EngineOp) : EngineOp := if r.ops.contains o.uid && !o.ready then o.landLine r.line bad else o
  { s with ops := s.ops.map f }

/-- R328: the bytes of a line that the core has fetched before, from the same place, and has not let go of since. -/
def State.lineSeen (s : State) (r : IReq) (key : Nat) : Option (List Byte) :=
  (s.ilines.find? fun i => i.core == r.core && i.ctx == r.ctx && i.line == r.line && i.owner == (s.ctx r.ctx).part && i.key == key).map (·.bytes)

/-- R331: a request filled from the line's home: into the L1 instruction cache, and into the quadrants that demanded it. -/
def State.fillLine (s : State) (r : IReq) : State :=
  let s := { s with ireqs := s.ireqs.erase r }
  match s.fetchable r.ctx (lineAddr r.line) with
  | (s, none) => s.noteLine r true
  | (s, some x) =>
    let bytes := (s.lineSeen r x.key).getD (s.load (s.ctx r.ctx).part x.key 128)
    let line (q : Option Nat) : ILine := ⟨r.core, q, r.ctx, r.line, bytes, s.now, (s.ctx r.ctx).part, x.key, false⟩
    ((none :: r.quads.map some).foldl (fun s q => s.putLine (line q)) (s.countDie x.key r.core 1)).noteLine r false

/-- LINE_FILL (R331). -/
def execLineFill (core line : Nat) (s : State) : Host.Outcome State Fault Refusal :=
  match s.ireqs.find? fun r => r.core == core && r.line == line with
  | some r => .next (s.fillLine r)
  | none => .next s

end Sys2Proof.Machine
end

