-- ==== Sys2Proof/Machine/Pump.lean ====
section
/-!
DEFINITION. The pump (R107, R280 to R282).
-/

namespace Sys2Proof.Machine

/-! ### At issue (R280, R281) -/

/-- The space of a stream for an engine. -/
def State.placeOf (s : State) (st : Nat) : Place :=
  match (s.cur.streamTag st).toNat with
  | 1 => .scratch (s.team s.cur.team).scratchBase
  | 2 => .seep s.seepOf
  | _ => .global

/-- R281: a byte range of a space: access kind 0 source, 1 destination. -/
def State.ckSpanRange (s : State) (tag n acc : Nat) (a : Lane) : Option Stop :=
  firstStop [s.ckRange tag n acc a,
    if tag = 0 && !canonical (a + u64 (n - 1)) then some (.trap { kind := 4, addr := u64 (2 ^ 56), aux := u64 acc }) else none]

/-- R281: the scope of one page: a missing or bad translation counts as host memory. -/
def State.pageScope (s : State) (c : Nat) (a : Lane) : Nat :=
  match (s.translate c a).2 with
  | .error _ => 4
  | .ok x => if x.kind = 1 then 4 else if x.kind = 2 then 3 else 2

/-- R281: the scope of a range. -/
def State.rangeScope (s : State) (c tag : Nat) (a : Lane) (n : Nat) : Nat :=
  match tag with
  | 1 => 1
  | 2 => 2
  | _ =>
    let first := a.toNat / 65536
    ((List.range ((a.toNat + n - 1) / 65536 - first + 1)).map fun i => s.pageScope c (u64 ((first + i) * 65536))).foldl max 0

/-- A `pump` as its checks and its effect see it. -/
structure PumpReq where
  g : Guard
  n : Reg
  a : Reg
  b : Reg
  c : Reg
  e : PumpExt

/-- The kinds of R280 that a pump knows. -/
def PumpReq.panel (q : PumpReq) : Bool := q.e.kind == 3

/-- The control register's value, in the lowest passing lane. -/
def State.pumpCtl (s : State) (q : PumpReq) : Lane := (s.lowRead q.g q.c).getD 0

/-- L of the control register. -/
def ctlLen (v : Lane) : Nat := (v.extractLsb' 0 32).toNat
/-- The flag's scratch offset. -/
def ctlFlag (v : Lane) : Nat := (v.extractLsb' 32 19).toNat

/-- Bytes of a panel slot. -/
def PumpReq.slot (q : PumpReq) : Nat := 128 * 2 ^ q.e.sl.toNat

/-- Lane addresses of a side: the stream with its offset register. -/
def State.pumpAddr (s : State) (st : BitVec 4) (off : Reg) (l : Nat) : Lane := s.cur.addr st.toNat off l

/-- A part put in its place by ascending destination. -/
def insertPart (p : Lane × Lane × Nat) : List (Lane × Lane × Nat) → List (Lane × Lane × Nat)
  | [] => [p]
  | x :: r => if p.2.1.toNat ≤ x.2.1.toNat then p :: x :: r else x :: insertPart p r

/-- R280: (source, destination, bytes) of each part, the destinations ascending. -/
def State.pumpParts (s : State) (q : PumpReq) (L : Nat) : List (Lane × Lane × Nat) :=
  let lanes := allLanes.filter (s.passing q.g)
  let l0 := lanes.headD 0
  let src := s.pumpAddr q.e.s q.a
  let dst := s.pumpAddr q.e.d q.b
  let ranked (f : Nat → Nat → Lane × Lane × Nat) := (List.range lanes.length).map fun r => f r (lanes.getD r 0)
  match q.e.kind.toNat with
  | 0 => [(src l0, dst l0, L)]
  | 1 => ranked fun r l => (src l, dst l0 + u64 (r * L), L)
  | 2 => (ranked fun r l => (src l0 + u64 (r * L), dst l, L)).foldr insertPart []
  | _ => [(src l0, dst l0, L * q.slot)]

/-- The ranges an operation touches: (tag, bytes, access kind, address). -/
def State.pumpRanges (s : State) (q : PumpReq) (L : Nat) : List (Nat × Nat × Nat × Lane) :=
  let tag (st : Nat) : Nat := (s.cur.streamTag st).toNat
  let l0 := (lowest (s.passing q.g)).getD 0
  (s.pumpParts q L).flatMap (fun p => [(tag q.e.s.toNat, p.2.2, 0, p.1), (tag q.e.d.toNat, p.2.2, 1, p.2.1)]) ++
    if q.panel then
      [(tag (q.e.s.toNat + 1), 4 * L, 0, s.cur.addr (q.e.s.toNat + 1) 63 l0), (tag (q.e.d.toNat + 1), 4 * L, 1, s.cur.addr (q.e.d.toNat + 1) 63 l0)]
    else []

/-- R281: the scope of the implicit fence. -/
def State.pumpScope (s : State) (q : PumpReq) (L : Nat) : Nat :=
  ((s.pumpRanges q L).map fun r => s.rangeScope s.cur.ctx r.1 r.2.2.2 r.2.1).foldl max (if q.e.fl then 1 else 0)

/-- Registers a `pump` reads. -/
def PumpReq.srcs (q : PumpReq) : List SrcReg := offRegs q.a ++ offRegs q.b ++ (regsFrom q.c (if q.e.fl then 2 else 1)).map plain

/-- R164: an engine's control register can be read: below the register count, settled and not poisoned, in some passing lane. -/
def State.ctlKnown (s : State) (g : Guard) (c : Reg) : Bool := s.anyPass g && (s.ckOperands [plain c] []).isNone

/-- R281: the operands that cause 0x0A refuses whatever the control register holds. -/
def State.pumpRegs (s : State) (q : PumpReq) : Option Stop :=
  firstStop [
    s.ckRegs (q.srcs.map (·.1)), s.ckSpan q.c (if q.e.fl then 2 else 1),
    illIf (decide (8 ≤ q.n.toNat) || decide (4 < q.e.sl.toNat) || (q.panel && (q.e.s == 15 || q.e.d == 15))) .range]

/-- R281: the space tags. -/
def State.pumpTags (s : State) (q : PumpReq) : Option Stop :=
  let tag (st : Nat) : Nat := (s.cur.streamTag st).toNat
  let tags := [tag q.e.s.toNat, tag q.e.d.toNat] ++ (if q.panel then [tag (q.e.s.toNat + 1), tag (q.e.d.toNat + 1)] else [])
  illIf (tags.any fun t => decide (2 < t) || (q.panel && t == 2)) .state

/-- R281: the length and the flag's offset that the control register's value gives. -/
def State.pumpSizes (s : State) (q : PumpReq) (v : Lane) : Option Stop :=
  let L := ctlLen v
  let most := if q.e.kind = 0 then 2 ^ 31 else 4096
  illIf (decide (L < 1) || decide (most < L) || (q.e.fl && (ctlFlag v % 8 != 0 || decide (s.scratchLim < ctlFlag v + 8)))) .range

/-- The checks of an engine's instruction in the order of R164's causes, those of the control register's value where it can be read;
then operands that are unsettled or poisoned. -/
def State.ckEngine (s : State) (known : Bool) (srcs : List SrcReg) (reserved regs sizes tags : Option Stop) : Option Stop :=
  firstStop [if known then reserved else none, regs, if known then sizes else none, tags, s.ckMarks (s.namedSrcs srcs) [], s.ckPoison srcs]

/-- R281: the ranges that the operation touches. -/
def State.pumpSpans (s : State) (q : PumpReq) : Option Stop :=
  firstStop ((s.pumpRanges q (ctlLen (s.pumpCtl q))).map fun r => s.ckSpanRange r.1 r.2.1 r.2.2.1 r.2.2.2)

/-- The priority of a skein's engine operations: its grid's; 3 for a conductor (R282, R343). -/
def State.prioOf (s : State) (k : Skein) : Nat :=
  if k.conductor then 3 else ((s.gridOf (s.team k.team)).map (·.prio)).getD 0

/-- R280: the operation that is accepted. -/
def State.pumpOp (s : State) (q : PumpReq) : EngineOp :=
  let v := s.pumpCtl q
  let L := ctlLen v
  let parts := s.pumpParts q L
  let l0 := (lowest (s.passing q.g)).getD 0
  { kind := .pump q.e.kind q.e.fl, prio := s.prioOf s.cur, parts := parts
    hdrs := (s.cur.addr (q.e.s.toNat + 1) 63 l0, s.cur.addr (q.e.d.toNat + 1) 63 l0)
    hdrPls := (s.placeOf (q.e.s.toNat + 1), s.placeOf (q.e.d.toNat + 1))
    slot := q.slot, srcPl := s.placeOf q.e.s.toNat, dstPl := s.placeOf q.e.d.toNat
    total := if q.panel then L else (parts.map (·.2.2)).sum
    flagAt := ctlFlag v
    flagV := if q.e.fl then s.cur.read (BitVec.ofNat 6 (q.c.toNat + 1)) l0 else 0 }

/-- pump (R280, R281). -/
def execPump (g : Guard) (n a b c : Reg) (e : PumpExt) (s : State) : Host.Outcome State Fault Refusal :=
  let q : PumpReq := ⟨g, n, a, b, c, e⟩
  let v := s.pumpCtl q
  s.finish (firstStop [
      s.ckEngine (s.ctlKnown g c) q.srcs (illIf (v.extractLsb' 51 13 != 0) .reserved) (s.pumpRegs q) (s.pumpSizes q v) (s.pumpTags q),
      if s.anyPass g then firstStop [s.pumpSpans q, holdIf (!s.fenceMet s.cur (s.pumpScope q (ctlLen v))), s.ckTimeline e.t.toNat]
      else none])
    (if s.anyPass g then (s.startOp n.toNat e.t.toNat (s.pumpOp q)).2.advance else s.advance)

/-! ### Segments (R282) -/

/-- A stretch of a list of parts: `take` bytes after the first `skip`. -/
def slices : List (Lane × Lane × Nat) → Nat → Nat → List (Lane × Lane × Nat)
  | [], _, _ => []
  | p :: r, skip, take =>
    if take = 0 then []
    else if p.2.2 ≤ skip then slices r (skip - p.2.2) take
    else
      let m := min (p.2.2 - skip) take
      (p.1 + u64 skip, p.2.1 + u64 skip, m) :: slices r 0 (take - m)

/-- The units in which a space is read and written: tiles of seep, else lines. -/
def Place.cut (p : Place) (a : Lane) (n : Nat) : List (Lane × Nat) :=
  let size := match p with | .seep _ => 4096 | _ => 128
  cutAt size (n / size + 2) a n

/-- Where a unit lies. -/
inductive Located
  | at (pl : Place) (key : Nat)
  | miss (a : Lane) (bad : Bool)
  | fail (status : Byte) (a : Lane)
deriving DecidableEq, Repr

/-- R278, R282: an address of an operation's space located; `w` for writing. -/
def State.locate (s : State) (o : EngineOp) (pl : Place) (w : Bool) (a : Lane) : State × Located :=
  match pl with
  | .scratch b => (s, .at pl (b + a.toNat))
  | .seep _ => (s, .at pl a.toNat)
  | _ =>
    if !canonical a then (s, .fail 1 a)
    else
      match s.translate o.ctx a with
      | (s, .error bad) => (s, .miss a bad)
      | (s, .ok x) =>
        if (if w then !x.w else !x.r) then (s, .fail 1 a)
        else if x.kind = 2 then
          (s, if s.peerRefused (s.ctx o.ctx).part x.dev then .fail 1 a else if s.peerLost then .fail 7 a else .at (.peer x.dev) x.addr)
        else (s, .at .global x.key)

/-- A located unit: its place, key, bytes and address. -/
structure PumpUnit where
  pl  : Place
  key : Nat
  n   : Nat
  va  : Lane
deriving DecidableEq, Repr

/-- Every unit located, or the first that cannot be. -/
def State.locateAll (s : State) (o : EngineOp) (pl : Place) (w : Bool) : List (Lane × Nat) → State × Except Located (List PumpUnit)
  | [] => (s, .ok [])
  | (a, n) :: r =>
    match s.locate o pl w a with
    | (s, .at p k) =>
      match s.locateAll o pl w r with
      | (s, .ok us) => (s, .ok (⟨p, k, n, a⟩ :: us))
      | x => x
    | (s, x) => (s, .error x)

/-- An operation ends with a status; the segment in progress is given up. -/
def State.endEngine (s : State) (u : Nat) (status : Byte) (a : Lane) : State :=
  s.updOp u fun o =>
    { o with ready := true, status := status, failAddr := a, asked := [], heard := [], atTiles := [], seg := none, wrote := [], wants := [] }

/-- R282, R363: a unit that cannot be located: the driver is asked, or the operation ends. -/
def State.pumpStop (s : State) (o : EngineOp) (w : Bool) : Located → State
  | .miss a bad =>
    let (seq, s) := s.holdFault o.ctx { seq := 0, kind := if w then 1 else 0, addr := a, bad := bad, op := some o.uid }
    s.updOp o.uid fun o => { o with held := some seq }
  | .fail st a => s.endEngine o.uid st a
  | .at .. => s

/-- A unit outside the capacity of R1 (log 6). -/
def PumpUnit.beyond (u : PumpUnit) : Bool := u.pl == .global && !isWell u.key && !isHost u.key

/-- The tile of a unit. -/
def PumpUnit.tile? (u : PumpUnit) : Option (Nat × Nat) :=
  match u.pl with
  | .seep i => some (i, u.key / 4096)
  | _ => none

/-- The tile of a unit is held by a renew (R89). -/
def State.unitBusy (s : State) (u : PumpUnit) : Bool := u.tile?.any fun t => ((s.seepInst t.1).tile t.2).busy.isSome

/-- A seep unit whose tile is not live at a tick (R88). -/
def State.unitDead (s : State) (u : PumpUnit) (T : Nat) : Bool := u.tile?.any fun t => !((s.seepInst t.1).tile t.2).liveAt T

/-- The bytes of a unit on the device, at a tick. -/
def State.unitBytes (s : State) (o : EngineOp) (u : PumpUnit) (T : Nat) : List Byte :=
  match u.pl with
  | .scratch _ => s.mem.readN (scratchKey o.core u.key) u.n
  | .seep j => s.tileBytes j ((s.seepInst j).tile (u.key / 4096)) T u.key u.n
  | .peer _ => []
  | .global => s.load (s.ctx o.ctx).part u.key u.n

/-- A unit that is read as poison (R395). -/
def State.unitPoison (s : State) (o : EngineOp) (u : PumpUnit) (T : Nat) : Bool :=
  match u.pl with
  | .scratch _ => s.poisonAt (scratchKey o.core u.key) u.n
  | .seep j => s.tilePoison j ((s.seepInst j).tile (u.key / 4096)) T u.key u.n
  | .peer _ => false
  | .global => s.poisonAt u.key u.n

/-- The tick at which a unit is reached: that of the place's copy of domain time (R86, R95). -/
def State.unitNow (s : State) (o : EngineOp) (u : PumpUnit) : Nat :=
  match u.pl with
  | .seep i => s.nowAt (s.seepCluster i)
  | _ => s.nowAt (clusterOf o.core)

/-- Units with their indices from a number on. -/
def numbered (b : Nat) (us : List PumpUnit) : List (Nat × PumpUnit) := (List.range us.length).map fun i => (b + i, us.getD i ⟨.global, 0, 0, 0⟩)

/-- R77: a pump's bytes in a region counted, one for each 4 KiB begun. -/
def State.countMoved (s : State) (o : EngineOp) (w : Bool) (u : PumpUnit) : State :=
  if u.pl != .global then s
  else
    let key := u.key / 2 ^ 21 * 2 + if w then 1 else 0
    let old := (((s.op? o.uid).bind fun x => x.moved.find? fun m => m.1 == key).map (·.2)).getD 0
    let blocks (n : Nat) : Nat := (n + 4095) / 4096
    (s.countDie u.key o.core (blocks (old + u.n) - blocks old)).updOp o.uid fun x =>
      { x with moved := (key, old + u.n) :: x.moved.filter fun m => m.1 != key }

/-- R282, R88: a unit of the segment read at a tick, or the end of the operation at poison (R395). -/
def State.readUnit (s : State) (o : EngineOp) (T : Nat) (x : Nat × PumpUnit) : State :=
  if s.unitPoison o x.2 T then s.endEngine o.uid 8 x.2.va
  else
    let s := if x.2.pl == .global then s.fillHome (x.2.key / 128) (s.ctx o.ctx).part 0 else s
    (s.countMoved o false x.2).updOp o.uid fun p =>
      { p with heard := p.heard ++ [(x.1, s.unitBytes o x.2 T)], status := if s.unitDead x.2 T then 6 else p.status }

/-- A unit whose tile is held keeps the segment's place at it (R89, R90). -/
def State.queueAtTile (s : State) (o : EngineOp) (u : PumpUnit) : State :=
  match u.tile? with
  | none => s
  | some t =>
    let (n, s) := s.fresh
    s.updOp o.uid fun p => if p.atTiles.any fun x => x.1 == t.1 && x.2.1 == t.2 then p else { p with atTiles := p.atTiles ++ [(t.1, t.2, n)] }

/-- The line of a unit. -/
def PumpUnit.line (u : PumpUnit) : Place × Nat := (u.pl, u.key / 128)

/-- R106, R282: lines that cannot be reached now: an access of a pump to a peer is under way there. The operation waits for them. -/
def State.waitLines (s : State) (o : EngineOp) (ls : List (Place × Nat)) : State := s.updOp o.uid fun p => { p with wants := ls }

/-- R380: a unit of a peer asked for, as a load asks for the bytes of its line; of a panel of n lines every line says so, and the peer
reads them as one (R106). -/
def State.askPeer (s : State) (o : EngineOp) (dev panel : Nat) (lines : List (Place × Nat)) (x : Nat × PumpUnit) : State :=
  let u := x.2
  let (n, s) := s.fresh
  let bytes := byteMask fun i => decide (u.key % 128 ≤ i) && decide (i < u.key % 128 + u.n)
  (s.sendFlit dev u.key 3 2 (toBytes 8 (u.key / 128 * 128) ++ toBytes 4 (o.uid % 2 ^ 32) ++ bytes ++ toBytes 2 x.1 ++
      toBytes 2 panel)).updOp o.uid fun o => { o with asked := o.asked ++ [⟨x.1, u.va, s.now, n, lines⟩] }

/-- A write of the operation to a line of a peer is still to be acknowledged: what it reads there comes after (R282). -/
def EngineOp.writing (o : EngineOp) (l : Place × Nat) : Bool := o.outs.any fun m => m.lines.contains l

/-- R282: units of the segment that are not there yet are read, asked of their peers, or queued at their tiles. -/
def State.readUnits (s : State) (o : EngineOp) (xs : List (Nat × PumpUnit)) : State :=
  xs.foldl (fun s x =>
    match s.op? o.uid with
    | none => s
    | some p =>
      if p.ready || (p.heard.any fun h => h.1 == x.1) || (p.asked.any fun a => a.num == x.1) then s
      else
        match x.2.pl with
        | .peer dev => if p.writing x.2.line then s.waitLines o [x.2.line] else s.askPeer o dev 0 [] x
        | _ => if s.unitBusy x.2 then s.queueAtTile o x.2 else s.readUnit o (s.unitNow o x.2) x) s

/-- The bytes of units that have been read, once all of them are. -/
def EngineOp.got (o : EngineOp) (xs : List (Nat × PumpUnit)) : Option (List Byte) :=
  let find (i : Nat) : Option (List Byte) := (o.heard.find? fun h => h.1 == i).map (·.2)
  if xs.all fun x => (find x.1).isSome then some (xs.flatMap fun x => (find x.1).getD []) else none

/-- Bytes paired with the units they fill. -/
def dealBytes : List PumpUnit → List Byte → List (PumpUnit × List Byte)
  | [], _ => []
  | u :: us, bs => (u, bs.take u.n) :: dealBytes us (bs.drop u.n)

/-- A list cut into pieces of n, at least one, with fuel. -/
def chunks (n : Nat) : Nat → List Byte → List (List Byte)
  | 0, xs => [xs]
  | f + 1, xs => if xs.length ≤ n then [xs] else xs.take n :: chunks n f (xs.drop n)

/-- R380: units written at one peer in one message of bulk flits, which the peer takes as one write and acknowledges once. -/
def State.putPeer (s : State) (o : EngineOp) (dev : Nat) (lines : List (Place × Nat)) (ws : List (PumpUnit × List Byte)) : State :=
  match ws with
  | [] => s
  | (u, _) :: _ =>
    let (n, s) := s.fresh
    let body := chunks 192 64 (ws.flatMap fun w => toBytes 8 w.1.key ++ toBytes 2 w.1.n ++ w.2)
    let s := (List.range body.length).foldl (fun s i =>
      s.sendFlit dev u.key 9 0 (1 :: toBytes 8 u.key ++ toBytes 4 (o.uid % 2 ^ 32) ++ toBytes 4 (n % 2 ^ 32) ++
        toBytes 1 i ++ toBytes 1 body.length ++ body.getD i [])) s
    s.updOp o.uid fun o => { o with outs := o.outs ++ [⟨n, u.va, s.now, n, lines⟩] }

/-- R282, R98: a unit of the segment written at a tick; the operation's largest completion time grows. -/
def State.writeUnit (s : State) (o : EngineOp) (T : Nat) (w : PumpUnit × List Byte) : State :=
  let noteWct (s : State) (w : Nat) : State := s.updOp o.uid fun o => { o with wct := max o.wct w }
  let part := (s.ctx o.ctx).part
  let u := w.1
  match u.pl with
  | .scratch _ => noteWct (s.store 0 (scratchKey o.core u.key) w.2) T
  | .seep _ => s
  | .peer dev => s.putPeer o dev [u.line] [w]
  | .global =>
    let s := ((s.store part u.key w.2).fillHome (u.key / 128) part 0).countMoved o true u
    noteWct s (s.wctOf part (u.key / 128))

/-- R282, R91: the bytes of a segment that fall in one tile are one operation on it, at a tick. -/
def State.writeTile (s : State) (o : EngineOp) (t : Nat × Nat) (T : Nat) (ws : List (PumpUnit × List Byte)) : State :=
  (s.tileStore t.1 t.2 T (ws.map fun w => (w.1.key, w.2))).updOp o.uid fun o => { o with wct := max o.wct T }

/-- A result's units written, in ascending order. -/
def State.writeAll (s : State) (o : EngineOp) (ws : List (PumpUnit × List Byte)) : State :=
  ws.foldl (fun s w => s.writeUnit o (s.unitNow o w.1) w) s

/-- The tiles of units, each once. -/
def tilesOf (us : List PumpUnit) : List (Nat × Nat) := (us.filterMap PumpUnit.tile?).dedup

/-- R282: the units of a read segment that are not written yet are written, or queued at their tiles. -/
def State.writeSegment (s : State) (o : EngineOp) (us : List PumpUnit) (bs : List Byte) : State :=
  let ws := dealBytes us bs
  let s := if (o.wrote.isEmpty : Bool) then s.writeAll o (ws.filter fun w => w.1.tile?.isNone) else s
  let s := s.updOp o.uid fun p => { p with wrote := if p.wrote.isEmpty then [0] else p.wrote }
  (List.range (tilesOf us).length).foldl (fun s i =>
    let t := (tilesOf us).getD i (0, 0)
    let mine := ws.filter fun w => w.1.tile? == some t
    if o.wrote.contains (i + 1) then s
    else if ((s.seepInst t.1).tile t.2).busy.isSome then (mine.take 1).foldl (fun s w => s.queueAtTile o w.1) s
    else (s.writeTile o t (s.nowAt (s.seepCluster t.1)) mine).updOp o.uid fun p => { p with wrote := (i + 1) :: p.wrote }) s

/-- R282, R109: a segment whose units are all written is over: the operation stands at the next, and after the last one without a
flag nothing is left but to complete. -/
def State.pumpNext (s : State) (o : EngineOp) (n tiles : Nat) : State :=
  let fl := match o.kind with | .pump _ fl => fl | _ => false
  s.updOp o.uid fun x =>
    if x.ready || decide (x.wrote.length < tiles + 1) then x
    else
      { x with
        pos := x.pos + n, asked := [], heard := [], seg := none, wrote := [], wants := []
        ready := decide (x.total ≤ x.pos + n) && !fl }

/-- What an act of the pump gives. -/
abbrev PumpStep := Except Nat State

/-- Several lists of units located in turn. -/
def State.locateEach (s : State) (o : EngineOp) (w : Bool) : List (Place × List (Lane × Nat)) → State × Except Located (List PumpUnit)
  | [] => (s, .ok [])
  | (pl, us) :: r =>
    match s.locateAll o pl w us with
    | (s, .ok xs) =>
      match s.locateEach o w r with
      | (s, .ok ys) => (s, .ok (xs ++ ys))
      | x => x
    | x => x

/-- Units located; one outside the capacity of R1 stops the machine (log 6), one that cannot be located stops the operation. -/
def State.withUnits (s : State) (o : EngineOp) (w : Bool) (ls : List (Place × List (Lane × Nat))) (f : State → List PumpUnit → PumpStep) : PumpStep :=
  match s.locateEach o w ls with
  | (s, .error x) => .ok (s.pumpStop o w x)
  | (s, .ok us) =>
    match us.find? (·.beyond) with
    | some u => .error u.key
    | none => f s us

/-- The segment of 4 KiB at hand: its source and its destination. -/
def EngineOp.srcUnits (o : EngineOp) : List (Place × List (Lane × Nat)) :=
  [(o.srcPl, (slices o.parts o.pos 4096).flatMap fun p => o.srcPl.cut p.1 p.2.2)]
/-- Its destination. -/
def EngineOp.dstUnits (o : EngineOp) : List (Place × List (Lane × Nat)) :=
  [(o.dstPl, (slices o.parts o.pos 4096).flatMap fun p => o.dstPl.cut p.2.1 p.2.2)]
/-- Its bytes. -/
def EngineOp.segBytes (o : EngineOp) : Nat := ((slices o.parts o.pos 4096).map (·.2.2)).sum

/-- R282: a segment that has been read is written. -/
def State.pumpWrite (s : State) (o : EngineOp) (n : Nat) (dst : List (Place × List (Lane × Nat))) (bs : List Byte) : PumpStep :=
  s.withUnits o true dst fun s us => .ok ((s.writeSegment o us bs).pumpNext o n (tilesOf us).length)

/-- R282: one segment of 4 KiB of destination bytes: read, then written. -/
def State.bytesSegment (s : State) (o : EngineOp) : PumpStep :=
  match o.seg with
  | some bs => s.pumpWrite o o.segBytes o.dstUnits bs
  | none =>
    s.withUnits o false o.srcUnits fun s us =>
      let xs := numbered 0 us
      let s := s.readUnits o xs
      match (s.op? o.uid).bind fun p => if p.ready then none else p.got xs with
      | none => .ok s
      | some bs =>
        let o := { o with seg := some bs }
        (s.updOp o.uid fun p => { p with seg := some bs }).pumpWrite o o.segBytes o.dstUnits bs

/-- Header and payload address of the panel at hand: source, destination. -/
def EngineOp.panelAt (o : EngineOp) : (Lane × Lane) × (Lane × Lane) :=
  let p := o.parts.headD (0, 0, 0)
  ((o.hdrs.1 + u64 (4 * o.pos), p.1 + u64 (o.pos * o.slot)), (o.hdrs.2 + u64 (4 * o.pos), p.2.1 + u64 (o.pos * o.slot)))

/-- The index under which the first line of a panel is asked for. -/
def panelAsk : Nat := 32768

/-- The device of a unit that lies at a peer. -/
def PumpUnit.peer? (u : PumpUnit) : Option Nat := match u.pl with | .peer dev => some dev | _ => none

/-- R106: a panel read as one. Its lines at peers are asked for together, and no other panel access touches a line of it until they have
come; what lies on the device is read then. -/
def State.panelRead (s : State) (o : EngineOp) (us : List PumpUnit) : State × Option (List Byte) :=
  let xs := numbered panelAsk us
  let lines := us.map PumpUnit.line
  let far := xs.filter fun x => x.2.peer?.isSome
  match s.op? o.uid with
  | none => (s, none)
  | some p =>
    if !far.isEmpty && !(p.asked.any fun m => decide (panelAsk ≤ m.num)) then
      (if s.panelLocked lines then s.waitLines o lines
       else far.foldl (fun s x => s.askPeer o (x.2.peer?.getD 0) us.length lines x) s, none)
    else if far.isEmpty && s.panelLocked lines then (s.waitLines o lines, none)
    else if !(far.all fun x => p.heard.any fun h => h.1 == x.1) then (s, none)
    else
      let s := s.readUnits o (xs.filter fun x => x.2.peer?.isNone)
      (s, (s.op? o.uid).bind fun p => if p.ready then none else p.got xs)

/-- R106, R119: a panel written as one: each peer's part in one message; no other panel access touches a line of it until every peer has
acknowledged its part. -/
def State.panelWrite (s : State) (o : EngineOp) (us : List PumpUnit) (bs : List Byte) : State :=
  let ws := dealBytes us bs
  let lines := us.map PumpUnit.line
  if s.panelLocked lines then s.waitLines o lines
  else
    let s := s.writeAll o (ws.filter fun w => w.1.peer?.isNone)
    let s := ((us.filterMap PumpUnit.peer?).dedup).foldl (fun s dev => s.putPeer o dev lines (ws.filter fun w => w.1.peer? == some dev)) s
    (s.updOp o.uid fun p => { p with wrote := [0] }).pumpNext o 1 0

/-- R106: the panel at hand, once it has been read, is written. -/
def State.panelOut (s : State) (o : EngineOp) (bs : List Byte) : PumpStep :=
  let at' := o.panelAt.2
  s.withUnits o true [(o.hdrPls.2, o.hdrPls.2.cut at'.1 4), (o.dstPl, o.dstPl.cut at'.2 (bs.length - 4))] fun s ds => .ok (s.panelWrite o ds bs)

/-- R282, R106: one panel. Its header says how much payload there is; at a peer it is read once for that, and then the whole
panel, which must still have it. A header that does not lie at a multiple of 4 is read and written where it lies (DESIGN CHOICE,
log 87). -/
def State.panelSegment (s : State) (o : EngineOp) : PumpStep :=
  let (hs, src) := o.panelAt.1
  match o.seg with
  | some bs => s.panelOut o bs
  | none =>
  s.withUnits o false [(o.hdrPls.1, o.hdrPls.1.cut hs 4)] fun s hus =>
    let xs := numbered 0 hus
    let peer := hus.any fun u => u.pl.isPeer
    let s := if peer then s.readUnits o xs else s
    let hb := if peer then (s.op? o.uid).bind fun p => p.got xs else some (hus.flatMap fun u => s.unitBytes o u s.now)
    match hb with
    | none => .ok s
    | some hb =>
      let h : Word := BitVec.ofNat 32 (ofBytes hb)
      match hus.find? fun u => s.unitPoison o u s.now with
      | some u => .ok (s.endEngine o.uid 8 u.va)
      | none =>
        if !headerOk h || decide (o.slot < payloadBytes h) then .ok (s.endEngine o.uid 9 hs)
        else
          s.withUnits o false [(o.srcPl, o.srcPl.cut src (payloadBytes h))] fun s us =>
            match s.panelRead o (hus ++ us) with
            | (s, none) => .ok s
            | (s, some bs) =>
              if bs.take 4 != hb then
                .ok (s.updOp o.uid fun p => { p with asked := [], heard := (List.range hus.length).map fun i =>
                  (i, ((dealBytes hus bs).getD i (⟨.global, 0, 0, 0⟩, [])).2) })
              else
                let out := bs.take 4 ++ cleanPayload h (bs.drop 4)
                (s.updOp o.uid fun p => { p with seg := some out, asked := [] }).panelOut o out

/-! ### Tiles (R89, R90) -/

/-- R89, R90: the part of a segment that waited at a tile is performed there at a tick. -/
def State.pumpTile (s : State) (o : EngineOp) (t : Nat × Nat) (T : Nat) : State :=
  let s := s.updOp o.uid fun p => { p with atTiles := p.atTiles.filter fun x => !(x.1 == t.1 && x.2.1 == t.2) }
  let at' (us : List PumpUnit) (u : PumpUnit) : Bool := us.contains u && u.tile? == some t
  match o.seg with
  | none =>
    match s.locateEach o false o.srcUnits with
    | (s, .ok us) => ((numbered 0 us).filter fun x => at' us x.2).foldl (fun s x => s.readUnit o T x) s
    | (s, .error _) => s
  | some bs =>
    match s.locateEach o true o.dstUnits with
    | (s, .ok us) =>
      let i := ((tilesOf us).idxOf t) + 1
      ((s.writeTile o t T ((dealBytes us bs).filter fun w => w.1.tile? == some t)).updOp o.uid fun p =>
        { p with wrote := i :: p.wrote }).pumpNext o o.segBytes (tilesOf us).length
    | (s, .error _) => s

/-- RENEW_END (R89): the tile is free at the tick the renew ends; the operations that waited are performed at that tick, until
one of them renews it again: accesses in the order of issue (DESIGN CHOICE, log 74: R90 orders them by arrival), a pump segment at
the place it took (R90). A queue entry is a name with an access or an operation of that tile. -/
def State.renewQueue (s : State) (i n T : Nat) : List (Nat × Sum Nat Nat) → State
  | [] => s
  | (_, x) :: r =>
    if (((s.seepInst i).tile n).busy).isSome then s
    else
      match x with
      | .inl id =>
        match s.accesses.find? fun a => a.id == id with
        | some a => (if s.mustWait a then s else s.performSeep a i T).renewQueue i n T r
        | none => s.renewQueue i n T r
      | .inr u =>
        match s.op? u with
        | some o => (s.pumpTile o (i, n) T).renewQueue i n T r
        | none => s.renewQueue i n T r

/-- A queue entry at its place by name. -/
def insertEntry (x : Nat × Sum Nat Nat) : List (Nat × Sum Nat Nat) → List (Nat × Sum Nat Nat)
  | [] => [x]
  | y :: r => if x.1 ≤ y.1 then x :: y :: r else y :: insertEntry x r

/-- What waits at a tile until a tick, in the order of the names. -/
def State.tileQueue (s : State) (i n T : Nat) : List (Nat × Sum Nat Nat) :=
  let lead := s.nowAt (s.seepCluster i) - s.now
  let mine := s.accesses.filter fun (a : Access) =>
    a.place == .seep i && a.unit.2 == n && !a.done && a.held.isNone && decide (lead + a.sent < T)
  let pumps := s.ops.flatMap fun o => (o.atTiles.filter fun x => x.1 == i && x.2.1 == n).map fun x => (x.2.2, Sum.inr o.uid)
  (mine.map (fun (a : Access) => (a.id, Sum.inl a.id)) ++ pumps).foldr insertEntry []

/-- RENEW_END. -/
def execRenewEnd (seep tile : Nat) (s : State) : Host.Outcome State Fault Refusal :=
  match ((s.seepInst seep).tile tile).busy with
  | some e =>
    if s.nowAt (s.seepCluster seep) < e then .next s
    else
      let s := s.updTile seep tile fun t => { t with busy := none }
      .next (s.renewQueue seep tile e (s.tileQueue seep tile e))
  | none => .next s

/-! ### The flag (R107) -/

/-- R107: the flag word, a release store, once everything before it is visible. -/
def State.pumpFlag (s : State) (o : EngineOp) : State :=
  if !s.opVisible o then s
  else
    (s.store 0 (scratchKey o.core ((s.team o.team).scratchBase + o.flagAt)) (toBytes 8 o.flagV.toNat)).updOp o.uid fun o =>
      { o with ready := true, flagged := true, wct := max o.wct (s.nowAt (clusterOf o.core)) }

/-! ### Turns (R282) -/

/-- A pump operation. -/
def EngineOp.isPump (o : EngineOp) : Bool := match o.kind with | .pump .. => true | _ => false

/-- An operation whose side in scratch or seep, or whose flag, pauses while its context halts or is out (R354). -/
def EngineOp.pauses (o : EngineOp) : Bool :=
  match o.kind with
  | .pump k fl => fl || o.srcPl != .global || o.dstPl != .global || (k == 3 && (o.hdrPls.1 != .global || o.hdrPls.2 != .global))
  | _ => false

/-- R354: an operation that may go on: a segment in progress ends whatever its context does. -/
def State.opRuns (s : State) (o : EngineOp) : Bool :=
  !o.pauses || (s.ctx o.ctx).live || (o.midway && !(s.ctx o.ctx).halted && (s.ctx o.ctx).image.isNone)

/-- An operation that has a segment to perform or to go on with, and does not wait. -/
def State.pumpOpen (s : State) (o : EngineOp) : Bool :=
  o.isPump && !o.done && !o.ready && (!o.cancel || o.midway) && o.held.isNone && decide (o.pos < o.total) && s.opRuns o &&
    o.atTiles.isEmpty && (o.asked.all fun a => o.heard.any fun h => h.1 == a.num) && !s.panelLocked o.wants

/-- R282: the operation whose turn it is at a core's pump: highest priority, round-robin in acceptance order. -/
def State.pumpTurnOf (s : State) (core : Nat) : Option EngineOp :=
  let open' := s.ops.filter fun o => o.core == core && s.pumpOpen o
  let top := (open'.map (·.prio)).foldl max 0
  let open' := open'.filter fun o => o.prio == top
  let last := ((s.pumpTurn.find? fun t => t.1 == core).map (·.2)).getD 0
  match minBy (·.order) (open'.filter fun o => decide (last < o.order)) with
  | some o => some o
  | none => minBy (·.order) open'

/-- PUMP_SEGMENT (R282, R107). -/
def execPumpSegment (op : Nat) (s : State) : Host.Outcome State Fault Refusal :=
  match s.op? op with
  | none => .next s
  | some o =>
    if o.isPump && !o.done && !o.ready && !o.cancel && o.held.isNone && o.pos == o.total && s.opRuns o then .next (s.pumpFlag o)
    else if (s.pumpTurnOf o.core).map (·.uid) != some op then .next s
    else
      let s := { s with pumpTurn := (o.core, o.order) :: s.pumpTurn.filter fun t => t.1 != o.core }
      match if o.kind == .pump 3 true || o.kind == .pump 3 false then s.panelSegment o else s.bytesSegment o with
      | .ok s => .next s
      | .error k => .fault (.noSuchAddress k)

end Sys2Proof.Machine
end

