-- ==== Sys2Proof/Machine/Sluice.lean ====
section
/-!
DEFINITION. The sluice: `coll` (R283, R284, R286, R389, R390) and the payload that peers send, for it and for the pump (R380).
-/

namespace Sys2Proof.Machine

/-! ### Groups (R389) -/

/-- A group's entry, as its two words. -/
def State.groupEntry (s : State) (g : Nat) : Lane × Lane := ((s.groups.find? fun x => x.1 == g).map (·.2)).getD (0, 0)
/-- Members of a group. -/
def grpSize (e : Lane × Lane) : Nat := (e.1.extractLsb' 16 10).toNat
/-- This device's rank. -/
def grpRank (e : Lane × Lane) : Nat := (e.1.extractLsb' 32 10).toNat
/-- The partition that may use it. -/
def grpPart (e : Lane × Lane) : Nat := (e.1.extractLsb' 8 6).toNat
/-- The entry is valid, with a size in its range. -/
def grpValid (e : Lane × Lane) : Bool := e.1.getLsbD 0 && decide (2 ≤ grpSize e) && decide (grpSize e ≤ 512)

/-- R389: the members' domain numbers in rank order. -/
def State.grpMembers (s : State) (e : Lane × Lane) : List Nat :=
  (List.range (grpSize e)).map fun r => ofBytes (s.load (grpPart e) (e.2.toNat + 2 * r) 2)

/-- R390: the conditions under which a collective cannot join. -/
def State.grpRefused (s : State) (g part : Nat) : Bool :=
  let e := s.groupEntry g
  let ms := s.grpMembers e
  decide (1024 ≤ g) || !grpValid e || grpPart e != part || ms.getD (grpRank e) 512 != s.ownDev ||
    ms.any (fun d => d != s.ownDev && !(s.part part).reaches d) || s.peerLost

/-! ### Data (R284) -/

/-- Bytes of an element of a format. -/
def collWidth (fmt : BitVec 2) : Nat := if fmt = 0 then 4 else if fmt = 1 then 2 else 1

/-- Elements the source and the destination hold, of C in a group of g. -/
def collSizes (op : BitVec 2) (g c : Nat) : Nat × Nat :=
  if op = 1 then (c, g * c) else if op = 2 then (g * c, c) else (c, c)

/-- Whether a rank contributes: in `bcast` only the root. -/
def collGives (op : BitVec 2) (root rank : Nat) : Bool := op != 3 || root == rank

/-- Element i of a format, as an f32 pattern. -/
def collElt (fmt : BitVec 2) (bs : List Byte) (i : Nat) : Nat :=
  let w := collWidth fmt
  let p := ofBytes ((bs.drop (w * i)).take w)
  if fmt = 1 then p * 2 ^ 16 else p

/-- RoundNE(s + x, f32). -/
def collAdd (s x : Nat) : Nat := amoNew .fadd 32 s x 0

/-- The sum of the ranks' elements, ascending. -/
def collSum : List Nat → Nat
  | [] => 0
  | x :: xs => xs.foldl collAdd x

/-- An f32 pattern in the format of the result. -/
def collOut (fmt : BitVec 2) (p : Nat) : List Byte :=
  if fmt = 1 then
    match decodeF f32 p with
    | .nan _ => toBytes 2 bf16.canon
    | .inf n => toBytes 2 (infPat bf16 n)
    | v => toBytes 2 (roundDy bf16 0 false v.neg v.dy).1
  else toBytes 4 p

/-- Element-wise sums of n elements from the ranks' contributions. -/
def collSums (fmt : BitVec 2) (n : Nat) (xs : List (List Byte)) : List Byte :=
  (List.range n).flatMap fun i => collOut fmt (collSum (xs.map fun x => collElt fmt x i))

/-- What a member's destination receives. -/
def EngineOp.collResult (o : EngineOp) (op fmt : BitVec 2) : List Byte :=
  let of (r : Nat) : List Byte := ((o.heard.find? fun h => h.1 == r).map (·.2)).getD []
  let all := (List.range o.members).map of
  let w := collWidth fmt
  if op = 0 then collSums fmt o.count all
  else if op = 1 then all.flatten
  else if op = 2 then ((collSums fmt (o.members * o.count) all).drop (w * o.rank * o.count)).take (w * o.count)
  else of o.root

/-! ### Joining (R283, R390) -/

/-- A `coll` as its checks see it. -/
structure CollReq where
  g : Guard
  n : Reg
  a : Reg
  b : Reg
  c : Reg
  e : CollExt

/-- Count, group and root of the control register. -/
def collCount (v : Lane) : Nat := (v.extractLsb' 0 32).toNat
/-- The group number. -/
def collGroup (v : Lane) : Nat := (v.extractLsb' 32 16).toNat
/-- The root rank. -/
def collRoot (v : Lane) : Nat := (v.extractLsb' 48 9).toNat

/-- R283: a range that touches a peer page: the first such address. -/
def State.peerIn (s : State) (c : Nat) (a : Lane) (n : Nat) : Option Lane :=
  let first := a.toNat / 65536
  ((List.range ((a.toNat + n - 1) / 65536 - first + 1)).find? fun i =>
    match (s.translate c (u64 ((first + i) * 65536))).2 with
    | .ok x => x.kind == 2
    | .error _ => false).map fun i => if i = 0 then a else u64 ((first + i) * 65536)

/-- Source and destination with their bytes; no source where this rank gives nothing. -/
def State.collRanges (s : State) (q : CollReq) (v : Lane) : List (Nat × Lane × Nat) :=
  let e := s.groupEntry (collGroup v)
  let (x, y) := collSizes q.e.op (max 1 (grpSize e)) (collCount v)
  let w := collWidth q.e.fmt
  let l := (lowest (s.passing q.g)).getD 0
  (if collGives q.e.op (collRoot v) (grpRank e) then [(0, s.pumpAddr q.e.s q.a l, w * x)] else []) ++
    [(1, s.pumpAddr q.e.d q.b l, w * y)]

/-- R283: bits of the control register that must be 0. -/
def CollReq.reserved (q : CollReq) (v : Lane) : Option Stop := illIf (v.extractLsb' 57 7 != 0 || (q.e.op != 3 && collRoot v != 0)) .reserved

/-- R283: the count of the control register. -/
def collSized (v : Lane) : Option Stop := illIf (collCount v == 0 || decide (2 ^ 28 < collCount v)) .range

/-- R283: a range at a peer. -/
def State.collPeers (s : State) (q : CollReq) (v : Lane) : Option Stop :=
  firstStop ((s.collRanges q v).map fun r =>
    (s.peerIn s.cur.ctx r.2.1 r.2.2).map fun a => .trap { kind := 4, addr := a, aux := u64 r.1 })

/-- Bytes of a global range at their home, or the status and address that end the operation (R278). -/
def State.engineRead (s : State) (o : EngineOp) (a : Lane) (n : Nat) : State × Except (Byte × Lane) (List Byte) :=
  match s.locateAll o .global false (Place.cut .global a n) with
  | (s, .ok us) =>
    match us.find? fun u => u.pl != .global with
    | some u => (s, .error (1, u.va))
    | none =>
      match us.find? fun u => s.unitPoison o u s.now with
      | some u => (s, .error (8, u.va))
      | none =>
        (us.foldl (fun s u => (s.countMoved o false u).fillHome (u.key / 128) (s.ctx o.ctx).part 0) s, .ok (us.flatMap fun u => s.unitBytes o u s.now))
  | (s, .error (.miss a _)) => (s, .error (1, a))
  | (s, .error (.fail st a)) => (s, .error (st, a))
  | (s, .error (.at ..)) => (s, .error (1, a))

/-- A result written over a global range, and the operation ready. -/
def State.engineWrite (s : State) (o : EngineOp) (a : Lane) (bs : List Byte) : State :=
  match s.locateAll o .global true (Place.cut .global a bs.length) with
  | (s, .ok us) =>
    match us.find? fun u => u.pl != .global with
    | some u => s.endEngine o.uid 1 u.va
    | none => (s.writeAll o (dealBytes us bs)).updOp o.uid fun o => { o with ready := true }
  | (s, .error (.miss a _)) => s.endEngine o.uid 1 a
  | (s, .error (.fail st a)) => s.endEngine o.uid st a
  | (s, .error (.at ..)) => s.endEngine o.uid 1 a

/-- R284: what members must agree on: the operation, the format and the count. -/
def EngineOp.form (o : EngineOp) : Nat :=
  match o.kind with
  | .coll op fmt => op.toNat + 4 * fmt.toNat + 16 * o.count
  | _ => 0

/-- R390: this member's part sent to the other members, in bulk flits, with what they must agree on. -/
def State.sendBulk (s : State) (o : EngineOp) (bs : List Byte) : State :=
  (o.devs.filter (· != s.ownDev)).foldl (fun s d =>
    (chunks 192 bs.length bs).foldl (fun s b =>
      s.sendFlit d 0 9 0 (2 :: toBytes 2 o.group ++ toBytes 8 o.seq ++ toBytes 2 o.rank ++ toBytes 5 o.form ++ b)) s) s

/-- R284: bytes of a destination that lie in the source of a gather or a scattered sum are open (log 11). -/
def State.blur (s : State) (op : BitVec 2) (src : Lane) (n : Nat) (dst : Lane) (bs : List Byte) : State × List Byte :=
  let lo := max src.toNat dst.toNat
  let hi := min (src.toNat + n) (dst.toNat + bs.length)
  if (op != 1 && op != 2) || decide (hi ≤ lo) then (s, bs)
  else
    let (fs, s) := s.freeBytes (hi - lo)
    (s, bs.take (lo - dst.toNat) ++ fs ++ bs.drop (hi - dst.toNat))

/-- R284: when every member has been heard, the result is written. -/
def State.tryColl (s : State) (u : Nat) : State :=
  match s.op? u with
  | some o =>
    match o.kind with
    | .coll op fmt =>
      if o.ready || o.done || decide (o.heard.length < o.members) then s
      else
        let p := o.parts.headD (0, 0, 0)
        let (s, bs) := s.blur op p.1 p.2.2 p.2.1 (o.collResult op fmt)
        s.engineWrite o p.2.1 bs
    | _ => s
  | none => s

/-- R284, R390: the collective is joined. -/
def State.joinColl (s : State) (q : CollReq) (v : Lane) : State :=
  let k := s.cur
  let part := (s.ctx k.ctx).part
  let g := collGroup v
  let e := s.groupEntry g
  let l := (lowest (s.passing q.g)).getD 0
  let src := s.pumpAddr q.e.s q.a l
  let n := ((s.collSeqs.find? fun x => x.1 == g).map (·.2)).getD 0 + 1
  let (u, s1) := s.startOp q.n.toNat 4
    { kind := .coll q.e.op q.e.fmt, group := g, root := collRoot v, count := collCount v, members := grpSize e, rank := grpRank e
      seq := n, since := s.now
      parts := [(src, s.pumpAddr q.e.d q.b l, collWidth q.e.fmt * (collSizes q.e.op (grpSize e) (collCount v)).1)] }
  if s.grpRefused g part then s1.endEngine u 7 0
  else
    let s1 := { s1 with collSeqs := (g, n) :: s1.collSeqs.filter fun x => x.1 != g }
    match s1.op? u with
    | none => s1
    | some o =>
      let size := collWidth q.e.fmt * (collSizes q.e.op o.members o.count).1
      match if collGives q.e.op o.root o.rank then s1.engineRead o src size else (s1, .ok []) with
      | (s2, .error x) => (s2.endEngine u x.1 x.2).updOp u fun p => { p with devs := s.grpMembers e }
      | (s2, .ok bs) =>
        let o := { o with heard := [(o.rank, bs)], devs := s.grpMembers e }
        ((s2.updOp u fun p => { p with heard := o.heard, devs := o.devs }).sendBulk o bs).tryColl u

/-- coll (R283, R284). -/
def execColl (g : Guard) (n a b c : Reg) (e : CollExt) (s : State) : Host.Outcome State Fault Refusal :=
  let q : CollReq := ⟨g, n, a, b, c, e⟩
  let tag (st : BitVec 4) : BitVec 2 := s.cur.streamTag st.toNat
  let v := (s.lowRead g c).getD 0
  let srcs := offRegs a ++ offRegs b ++ [plain c]
  s.finish (firstStop [
      s.ckEngine (s.ctlKnown g c) srcs (q.reserved v)
        (firstStop [s.ckRegs (srcs.map (·.1)), illIf (decide (8 ≤ n.toNat) || e.fmt == 3 || (e.fmt == 2 && (e.op == 0 || e.op == 2))) .range])
        (collSized v) (illIf (tag e.s != 0 || tag e.d != 0) .state),
      if s.anyPass g then firstStop [s.collPeers q v, holdIf (!s.fenceMet s.cur 3), s.ckTimeline 4] else none])
    (if s.anyPass g then (s.joinColl q v).advance else s.advance)

/-! ### What peers send (R284, R380) -/

/-- The head of a bulk payload (log 82). -/
def bulkHead (data : List Byte) : Nat := ofBytes (data.take 5)

/-- A pump's peer has answered: bytes that were asked for, or the acknowledgement of a write with its completion time. A fault ends
the operation with status 7 at the address of what was asked or written, unless it has failed before (R278, R282). -/
def State.pumpHears (s : State) (o : EngineOp) (i : Nat) (ack ok : Bool) (data : List Byte) : State :=
  let fail (s : State) (a : Lane) : State := if o.ready && o.status != 0 && o.status != 6 then s else s.endEngine o.uid 7 a
  if ack then
    match o.outs.find? fun x => x.num == i with
    | none => s
    | some x =>
      let s := s.updOp o.uid fun o => { o with outs := o.outs.erase x, wct := if ok then max o.wct (ofBytes data) else o.wct }
      if ok then s else fail s x.va
  else
    match o.asked.find? fun x => x.num == i with
    | none => s
    | some x =>
      if !ok then fail s x.va
      else if o.heard.any fun h => h.1 == i then s
      else s.updOp o.uid fun o => { o with heard := o.heard ++ [(i, data)] }

/-- A member's part of a collective has come, or the member is absent, has failed, has withdrawn or does not match (R284, R286). -/
def State.collHears (s : State) (o : EngineOp) (op fmt : BitVec 2) (rank form : Nat) (ok : Bool) (data : List Byte) : State :=
  let want := if collGives op o.root rank then collWidth fmt * (collSizes op o.members o.count).1 else 0
  if !ok || form != o.form || data.length != want || decide (o.members ≤ rank) then s.endEngine o.uid 7 0
  else
    (s.updOp o.uid fun o =>
      if o.heard.any fun h => h.1 == rank then o else { o with heard := o.heard ++ [(rank, data)], since := s.now }).tryColl o.uid

/-- R113, R278: the message of a pump that no peer has answered for 2^20 ticks: one that asks, or one that writes (true). -/
def State.lateMsg (s : State) (o : EngineOp) : Option (Bool × PeerMsg) :=
  let late (m : PeerMsg) : Bool := decide (m.tick + 2 ^ 20 ≤ s.now)
  match (o.asked.filter fun m => !(o.heard.any fun h => h.1 == m.num)).find? late with
  | some m => some (false, m)
  | none => (o.outs.find? late).map fun m => (true, m)

/-- REMOTE_ACK_TIMEOUT (R113): no acknowledgement within 2^20 ticks, for an access, or for a message of a pump operation, which ends
with status 7 as by any fault of a peer (R278, R282). -/
def execRemoteAckTimeout (id : Nat) (s : State) : Host.Outcome State Fault Refusal :=
  match s.accesses.find? fun a => a.id == id && a.place.isPeer && a.out && decide (a.sent + 2 ^ 20 ≤ s.now) with
  | some a => .next (s.recordArrives a 4)
  | none =>
    match (s.ops.find? fun o => o.uid == id && o.isPump && !o.done).bind fun o => (s.lateMsg o).map fun m => (o, m) with
    | some (o, w, m) => .next (s.pumpHears o m.num w false [])
    | none => .next s

/-- COLL_TIMEOUT (R284): a collective that has made no progress for 2^24 ticks. -/
def execCollTimeout (op : Nat) (s : State) : Host.Outcome State Fault Refusal :=
  match s.op? op with
  | none => .next s
  | some o =>
    .next (match o.kind with
      | .coll .. => if !o.done && !o.ready && !o.cancel && decide (o.since + 2 ^ 24 ≤ s.now) then s.endEngine op 7 0 else s
      | _ => s)

end Sys2Proof.Machine
end

