-- ==== Sys2Proof/Machine/Halt.lean ====
section
/-!
DEFINITION. Halting a context (R353, R354, R371), discarding it (R355), and the rooms of a core that a team or a conductor
takes (R20, R21, R36, R62, R81, R306, R343).
-/

namespace Sys2Proof.Machine

/-! ### The watchdog's count (R341) -/

/-- Some thread of a skein sleeps. -/
def Skein.sleeping (k : Skein) : Bool := k.waits.any fun w => match w.kind with | .sleep _ => true | _ => false

/-- R341: the ticks of a skein count now. -/
def State.counting (s : State) (k : Skein) : Bool :=
  let c := s.ctx k.ctx
  c.state == .running && !c.dbg.att && k.slot.isSome && !k.sleeping

/-- R341: the ticks since the last that counted are added to a skein's count; none counts from here on. -/
def State.stopCount (s : State) (k : Skein) : Skein :=
  { k with idle := if s.counting k then k.idle + (s.now - k.idleAt) else k.idle, idleAt := s.now }

/-- R341: the counts of a context's skeins stop. -/
def State.stopCounts (s : State) (c : Nat) : State :=
  { s with skeins := s.skeins.map fun k => if k.ctx == c then s.stopCount k else k }

/-! ### The request (R353, R354, R371) -/

/-- A halt is requested, with the event it ends in: 0x22 and 0x29 save, 0x25 kill. In a protected partition with a slice a
save waits for the next boundary. -/
def State.requestHalt (s : State) (c : Nat) (ev : Byte) : State :=
  let p := s.part (s.ctx c).part
  let later := ev != 0x25 && p.prot && p.slice != 0
  (((s.unpickCtx c true).stopCounts c).setState c (if ev = 0x25 then .killing else .saving)).updCtx c fun x =>
    { x with haltEvent := ev, halted := false, halting := if later then none else some s.now }

/-- An access that is performed before its skein's state is written: one of seep (R93), and a write to scratch, which the
image holds (R97, R115, R354). -/
def Access.settles (a : Access) : Bool :=
  match a.place with
  | .seep _ => true
  | .scratch _ => !(match a.kind with | .load _ | .panelRead => true | _ => false)
  | _ => false

/-- R354: nothing of a halting context is still to settle: no matrix pass, no operation of seep, no write to scratch, no segment
of a pump operation that pauses. A segment that waits for the driver or for a peer stands still with its context, as far as it has
come (log 85). -/
def State.settled (s : State) (c : Nat) : Bool :=
  !(s.mats.any fun m => m.ctx == c && m.running) && !(s.accesses.any fun a => a.ctx == c && !a.done && a.settles) &&
    !(s.ops.any fun o => o.ctx == c && o.pauses && !o.done && o.midway && o.held.isNone && o.asked.isEmpty &&
      !s.panelLocked o.wants)

/-- R114: the records beyond the queue go to the context table. -/
def State.moveHeld (s : State) (k : Skein) : State :=
  (s.updCtx k.ctx fun c => { c with outRecs := c.outRecs ++ k.faultHeld.map fun f => (k.uid, f, true) }).updSk k.uid fun k => { k with faultHeld := [] }

/-- R34: what an opened barrier still releases in a context is released. -/
def State.flushReleases (s : State) (c : Nat) : State :=
  s.releases.foldl (fun s r =>
    let mine := (r.skeins.filter fun x => (s.sk x.2).ctx == c).map (·.2)
    let s := mine.foldl (fun s u => s.releaseSkein r.kind u) s
    let rest := r.skeins.filter fun x => !mine.contains x.2
    { s with releases := s.releases.flatMap fun x =>
        if x.uid == r.uid then (if rest.isEmpty then [] else [{ x with skeins := rest }]) else [x] }) s

/-- R354: a skein at its boundary: a repetition suspends (one that waits on does not, R220), waits stop before their
instruction, what has arrived lands. -/
def Skein.halt (k : Skein) : Skein :=
  let staying := (k.waits.filter (·.kind.stays)).map (·.id)
  let k := k.suspend fun l => (k.thread l).rep.isSome && !((k.thread l).waiting.any staying.contains)
  let k := (k.waits.filter fun w => !w.kind.stays).foldl (fun k w => k.dropWait w.id) k
  let k := (k.ops.filter fun o => !o.matrix && !(o.held.isEmpty && o.setB.isNone)).foldl Skein.releaseSrc k
  let k := (k.ops.filter fun o => !o.matrix && o.await == 0 && o.fail.isNone && !o.pend.isEmpty).foldl Skein.land k
  { k with block := none, demand := [] }

/-- R354: groups that wait at the grid's barrier stop before their instruction: their arrivals are counted no longer. -/
def State.leaveGbar (s : State) (k : Skein) : State :=
  s.uncount k.uid fun x => k.waits.any fun w =>
    w.kind == x.2 && k.inWait w.id x.1 && (match w.kind with | .gbar _ => true | _ => false)

/-- R354: every skein of a context at its boundary. -/
def State.haltSkeins (s : State) (c : Nat) : State :=
  let s := s.flushReleases c
  let s := ((s.skeins.filter fun k => k.ctx == c).foldl State.leaveGbar s).stopReads fun a => a.ctx == c
  let s : State := { s with
    skeins := s.skeins.map fun (k : Skein) => if k.ctx == c then k.halt else k
    ireqs := (s.ireqs.filter fun r => !(r.ctx == c && r.ops.isEmpty)).map fun r => if r.ctx == c then { r with quads := [] } else r
    accesses := s.accesses.map fun a => if a.ctx == c then { a with held := none } else a }
  let s := (s.skeins.filter fun k => k.ctx == c).foldl State.moveHeld s
  (s.unpickCtx c true).updCtx c fun x => { x with halted := true, faults := x.faults.filter fun f => f.op.isSome || f.grid.isSome }

/-! ### Discarding (R355, R375) -/

/-- An instance's storage reads zero again, and the instance is gone (R83). -/
def State.dropSeep (s : State) (i : SeepInst) : State :=
  { s with seeps := s.seeps.filter fun x => x.uid != i.uid }.zero (seepKey i.uid 0) (2 ^ 24)

/-- The grids of a context are gone, with all they hold. -/
def State.discard (s : State) (c : Nat) : State :=
  let mine := s.skeins.filter fun k => k.ctx == c
  let grids := (s.grids.filter fun g => g.ctx == c).map (·.uid)
  let mats := s.mats.filter fun m => m.ctx == c
  let s := (s.seeps.filter fun i => grids.contains i.grid).foldl State.dropSeep s
  let gone (u : Nat) : Bool := mine.any fun k => k.uid == u
  let s : State := { s with
    skeins := s.skeins.filter fun k => k.ctx != c
    teams := s.teams.filter fun t => t.ctx != c
    grids := s.grids.filter fun g => g.ctx != c
    accs := s.accs.map fun a => if a.ownerCtx == some c then { a with owner := none, ownerCtx := none, pending := [] } else a
    mats := s.mats.filter fun m => m.ctx != c
    ops := s.ops.filter fun o => o.ctx != c
    resids := s.resids.filter fun r => r.ctx != c
    accesses := (s.accesses.filter fun a => !(a.ctx == c && a.kind.reads)).map fun a => if a.ctx == c then { a with grid := none, op := none } else a
    samples := s.samples.filter fun x => x.ctx != c
    ireqs := s.ireqs.filter fun r => r.ctx != c
    releases := s.releases.filter fun r => !(r.skeins.any fun x => gone x.2) }
  let s := ((mats.map (·.core)).dedup).foldl State.fillCore s
  s.updCtx c fun x =>
    { x with
      conductor := none, image := none, dev := false, halting := none, halted := false
      outWct := [], outAcks := [], outRecs := [], outVals := [], faults := []
      dbg := { x.dbg with step := none, busy := false } }

/-- The end of a kill, or of an abandoned save (R355, R364). -/
def State.endKill (s : State) (c : Nat) : State := ((((s.discard c).dropAlter c).setState c .stopped).ctxEvent c 0x25).signalCtx c

/-! ### Rooms (R20, R21, R36, R306, R343) -/

/-- The cores of a partition (R365). -/
def State.coresOf (s : State) (p : Nat) : List Nat := (List.range Config.cores).filter fun c => s.partOfCluster (clusterOf c) == p

/-- R21: resident threads of a core. -/
def State.threadsOn (s : State) (core : Nat) : Nat :=
  ((s.skeins.filter fun k => k.slot.isSome && k.core == core).map fun k => k.live.length).sum

/-- Skeins of a team of n threads. -/
def skeinsFor (size : Nat) : Nat := (size + 31) / 32

/-- Of n skeins, those in a quadrant. -/
def inQuad (n q : Nat) : Nat := (n + 3 - q) / 4

/-- Scratch in use on a core, as (base, bytes). -/
def State.scratchUsed (s : State) (core : Nat) : List (Nat × Nat) :=
  (s.teams.filter fun t => t.core == core && t.scratchBytes != 0).map fun t => (t.scratchBase, t.scratchBytes)

/-- The lowest base at which a number of scratch bytes is free (log 8). -/
def State.scratchFit (s : State) (core n : Nat) : Option Nat :=
  let used := s.scratchUsed core
  let free (b : Nat) : Bool := decide (b + n ≤ Config.scratchBytes) && used.all fun u => decide (b + n ≤ u.1) || decide (u.1 + u.2 ≤ b)
  minBy id ((0 :: used.map fun u => u.1 + u.2).filter free)

/-- Seep tiles in use in a cluster. -/
def State.seepUsed (s : State) (cluster : Nat) : Nat := ((s.seeps.filter fun i => i.cluster == cluster).map (·.tiles)).sum

/-- What a team takes: the quadrant and the register count of each skein, scratch, barriers, seep tiles and grid. -/
structure Need where
  regs     : List (Nat × Nat)
  scratch  : Nat
  barriers : Nat
  tiles    : Nat
  grid     : Nat
deriving DecidableEq, Repr

/-- What a new team of a grid takes. -/
def Grid.need (g : Grid) : Need :=
  ⟨(List.range (skeinsFor g.size)).map fun i => (i % 4, g.regs), g.scratch, g.barriers, g.seep, g.uid⟩

/-- The register counts of the skeins of a need that lie in a quadrant. -/
def Need.quad (n : Need) (q : Nat) : List Nat := (n.regs.filter fun x => x.1 == q).map (·.2)

/-- R20: a core can take a team. -/
def State.fits (s : State) (n : Need) (core : Nat) : Bool :=
  (List.range 4).all (fun q =>
    decide ((n.quad q).length ≤ (s.freeSlots core q).length) && decide (256 * (n.quad q).sum ≤ s.quadFree core q)) &&
    (s.scratchFit core n.scratch).isSome &&
    decide (((s.teams.filter fun t => t.core == core).map fun t => t.barriers.length).sum + n.barriers ≤ Config.barrierPool) &&
    (n.tiles == 0 || (s.seeps.any fun i => i.grid == n.grid && i.cluster == clusterOf core) ||
      decide (s.seepUsed (clusterOf core) + n.tiles ≤ Config.seepTiles))

/-- R81: the pages of a handle's range whose region a die homes. -/
def State.bytesOn (s : State) (r : Resid) (die : Nat) : Nat :=
  ((List.range (r.len.toNat / 65536)).filter fun i =>
    match (s.translate r.ctx (r.base + u64 (65536 * i))).2 with
    | .ok x => x.kind == 0 && (s.frameOf (x.addr / 2 ^ 21)).1 == die
    | .error _ => false).length

/-- R81: what the affinity handles of a grid hold on a die. -/
def State.affinityOn (s : State) (g : Grid) (die : Nat) : Nat :=
  ((g.affinity.filterMap fun n => s.resids.find? fun r => r.ctx == g.ctx && r.num == n).map fun r => s.bytesOn r die).sum

/-- R21: among cores that can take a need: the die of highest rank, then fewest threads of the partition, then lowest; in it
the core with the fewest threads, then the lowest. -/
def State.chooseCore (s : State) (part : Nat) (rank : Nat → Nat) (ok : Nat → Bool) : Option Nat :=
  let cores := (s.coresOf part).filter ok
  let dies := (cores.map dieOf).dedup
  let load (d : Nat) : Nat := (((s.coresOf part).filter fun c => dieOf c == d).map s.threadsOn).sum
  let most := (dies.map rank).foldl max 0
  match minBy (fun d => load d * 4 + d) (dies.filter fun d => rank d == most) with
  | none => none
  | some d => minBy (fun c => s.threadsOn c * 1024 + c) (cores.filter fun c => dieOf c == d)

/-- R62: scratch that passes to another context is zeroed; a number released and allocated anew is the same context to it (DESIGN
CHOICE, log 8). -/
def State.claimScratch (s : State) (core base n ctx : Nat) : State :=
  (List.range (n / 256)).foldl (fun s i =>
    let g := base / 256 + i
    if s.scratchOf.any fun x => x.1 == core && x.2.1 == g && x.2.2 == ctx then s
    else
      { s.zero (scratchKey core (256 * g)) 256 with
        scratchOf := (core, g, ctx) :: s.scratchOf.filter fun x => !(x.1 == core && x.2.1 == g) }) s

/-- A new skein's threads: those from the team size on begin exited (R10). -/
def startThreads (pc : Lane) (live : Nat) : List Thread := allLanes.map fun l => { pc := pc, exited := decide (live ≤ l) }

/-- The instance of a grid on a cluster, created when it is not there (R63, R83); the grid's slot of the save area has room for its
record, which follows the grid's own (R356, log 9). -/
def State.openSeep (s : State) (g cluster tiles : Nat) : State :=
  if tiles = 0 || s.seeps.any fun i => i.grid == g && i.cluster == cluster then s
  else
    let (u, s) := s.fresh
    let logical := ((s.grid? g).map (·.seepSeq)).getD 0
    let c := ((s.grid? g).map (·.ctx)).getD 0
    let area := slotFit (s.ctx c).saveSize.toNat (s.slotsBut c (some g)) (s.gridNeed g + seepSlot tiles)
    { s with seeps := s.seeps ++ [(⟨u, g, cluster, logical, tiles, []⟩ : SeepInst)] }.updGrid g fun x =>
      { x with seepSeq := x.seepSeq + 1, area := area }

/-- The lowest free slot of a quadrant. -/
def State.slotIn (s : State) (core quad : Nat) : Option Nat := (s.freeSlots core quad).head?

end Sys2Proof.Machine
end

