-- ==== Sys2Proof/Machine/Launch.lean ====
section
/-!
DEFINITION. Launching grids (R13 to R17, R290), growing them (R19, R291), the dispatcher (R20 to R23, R356), the placement of
conductors (R343), and retirement (R12, R18, R364).
-/

namespace Sys2Proof.Machine

/-! ### The record (R14 to R16) -/

/-- A field of a record. -/
def recField (r : List Byte) (off n : Nat) : Nat := ofBytes ((r.drop off).take n)

/-- R14, R15: the grid a record describes. -/
def gridOfRecord (r : List Byte) : Grid :=
  { record := r, count := recField r 0 4, size := recField r 4 2, regs := recField r 6 1, barriers := recField r 7 1
    scratch := recField r 8 4, seep := recField r 12 2, coop := decide (recField r 14 1 / 4 % 2 = 1), prio := recField r 14 1 % 4
    entry := u64 (recField r 16 8), param := u64 (recField r 24 8)
    affinity := (List.range 4).map fun i => recField r (32 + 4 * i) 4
    cAddr := u64 (recField r 48 8), cVal := u64 (recField r 56 8) }

/-- R14, R15: every field inside its limits, every reserved bit zero. -/
def recordOk (r : List Byte) : Bool :=
  let g := gridOfRecord r
  decide (1 ≤ g.count) && decide (g.count ≤ 0xFFFFFF) && decide (1 ≤ g.size) && decide (g.size ≤ 1024) &&
    decide (16 ≤ g.regs) && decide (g.regs ≤ 64) && decide (g.regs % 8 = 0) && decide (g.barriers ≤ 32) &&
    decide (g.scratch % 256 = 0) && decide (g.scratch ≤ 524288) && decide (g.seep ≤ 4096) &&
    decide (recField r 14 1 < 8) && decide (recField r 15 1 = 0) && g.entry.extractLsb' 0 2 == 0 && g.cAddr.extractLsb' 0 3 == 0

/-- R16, R20: teams of a grid that one empty core holds. -/
def Grid.perCore (g : Grid) : Nat :=
  let q := inQuad (skeinsFor g.size) 0
  let most (cap n : Nat) : Nat := if n = 0 then 2 ^ 24 else cap / n
  min (min (most 16 q) (most Config.quadRegBytes (256 * g.regs * q)))
    (min (most Config.scratchBytes g.scratch) (most Config.barrierPool g.barriers))

/-- R16: the code a record is refused with, for a launcher of a depth in a partition. -/
def State.refuse (s : State) (part depth : Nat) (r : List Byte) : Option Byte :=
  let g := gridOfRecord r
  if !recordOk r then some 3
  else if 10 < depth then some 4
  else if g.coop && decide (g.perCore * (s.coresOf part).length < g.count) then some 5
  else none

/-! ### launch (R13, R290) -/

/-- R403: a trace record of a grid. -/
def State.traceGrid (s : State) (k : Skein) (pc : Lane) (g : Grid) (retire : Bool) : State :=
  s.trace k 0x33 pc ([if retire then 1 else 0, BitVec.ofNat 8 g.depth, 0, 0] ++ toBytes 8 g.recAddr.toNat)

/-- R13, R290: who may launch: a group that includes its team's leader, in a grid or the conductor. -/
def State.ckLauncher (s : State) : Option Stop :=
  let k := s.cur
  let lead := match s.leader k.team with
    | some (u, l) => u == k.uid && s.executing l
    | none => false
  illIf (!lead || (!k.conductor && (s.gridOf (s.team k.team)).isNone)) .state

/-- The leader's lane, when it passes its guard (R13). -/
def State.launchLane (s : State) (g : Guard) : Option Nat :=
  match s.leader s.cur.team with
  | some (_, l) => if guardPasses g (s.cur.thread l) then some l else none
  | none => none

/-- R16, R17, R290: the record is read, the operation numbered, and the grid exists or is refused. -/
def State.launchRecord (s : State) (hd : Nat) (a : Lane) (key : Nat) : State :=
  let k := s.cur
  let part := (s.ctx k.ctx).part
  let parent := s.gridOf (s.team k.team)
  let depth := (parent.map (·.depth)).getD 0 + 1
  let r := s.load part key 64
  let (u, s) := (s.countDie key k.core 1).startOp hd 7 { kind := .launch }
  if s.poisonAt key 64 then (s.updOp u fun o => { o with failAddr := a }).finishOp u 8
  else
    match s.refuse part depth r with
    | some code => s.finishOp u code
    | none =>
      let g : Grid := { gridOfRecord r with
        uid := u, ctx := k.ctx, recAddr := a, depth := depth, parent := parent.map (·.uid), order := u, op := u
        area := s.takeSlot k.ctx gridSlot }
      ({ s with grids := s.grids ++ [g] }).traceGrid k s.issue.pc g false

/-- launch (R13, R290). -/
def execLaunch (g : Guard) (n a : Reg) (s : State) : Host.Outcome State Fault Refusal :=
  let k := s.cur
  let pre := s.ckOperands [plain a] [] (firstStop [illIf (decide (8 ≤ n.toNat)) .range, s.ckLauncher])
  match pre, s.launchLane g with
  | some x, _ => s.finish (some x) s
  | none, none => .next s.advance
  | none, some l =>
    let at' := k.read a l
    match firstStop [
        if at'.toNat % 64 = 0 then none else some (.trap { kind := 5, addr := at' }),
        if canonical at' then none else some (.trap { kind := 4, addr := at' }),
        holdIf (!s.fenceMet k 2), s.ckTimeline 7] with
    | some x => s.finish (some x) s
    | none =>
      match s.translate k.ctx at' with
      | (s, .error bad) => .next (s.holdIssue (.launch g n a) 0 at' bad)
      | (s, .ok x) =>
        if !x.r || x.kind = 2 then .next (s.takeTrap { kind := 4, addr := at' })
        else if !x.there then .fault (.noSuchAddress x.key)
        else .next (s.launchRecord n.toNat at' x.key).advance

/-! ### gridgrow (R19, R291) -/

/-- The amount of a `gridgrow`: an immediate count minus one, or a register in the lowest passing lane. -/
def State.growAmount (s : State) (g : Guard) (n : Src16) : Nat :=
  match n with
  | .imm v => v.toNat + 1
  | .reg a => ((s.lowRead g a).getD 0).toNat % 2 ^ 32

/-- gridgrow (R291): the request goes to the dispatcher and the group waits. An amount of 0 is read once its register is settled,
and comes before the conductor's cause (R164). -/
def execGridgrow (g : Guard) (d : Reg) (n : Src16) (s : State) : Host.Outcome State Fault Refusal :=
  let amount := s.growAmount g n
  let none' := (s.ckMarks (s.namedSrcs (src16Regs n)) []).isNone && s.anyPass g && amount == 0
  s.finish (s.ckOperands (src16Regs n) [d] (firstStop [illIf none' .range, illIf s.cur.conductor .state]))
    (if s.anyPass g then s.beginWait (.gridgrow amount s.now) (.gridgrow g d n) else s.advance)

/-- R19: whether a grid takes a raise. -/
def Grid.canGrow (g : Grid) (n : Nat) : Bool := !g.coop && !g.cancelled && decide (g.count + n ≤ 0xFFFFFF)

/-- A request for growth that stands before another at a partition's dispatcher (R291). -/
def State.growAhead (s : State) (part wait : Nat) : Bool :=
  s.skeins.any fun k => (s.ctx k.ctx).part == part && k.waits.any fun w =>
    (match w.kind with | .gridgrow .. => true | _ => false) && decide (w.id < wait)

/-- The answer as its group receives it: the count it found, and whether it was raised. -/
def Skein.growAnswer (k : Skein) (w : Wait) (old : Nat) (ok : Bool) : Skein :=
  match w.instr with
  | .gridgrow g d _ =>
    let p := fun l => k.inWait w.id l && guardPasses g (k.thread l)
    ((k.writeBy (k.inWait w.id) d p (fun _ => u64 old) .uniform).updThreads p fun _ t => t.push ok).endWait w
  | _ => k.endWait w

/-- GRIDGROW_ANSWER (R19, R291). -/
def execGridgrowAnswer (sk wait : Nat) (s : State) : Host.Outcome State Fault Refusal :=
  let k := s.sk sk
  match k.wait? wait, s.gridOf (s.team k.team) with
  | some w, some g =>
    match w.kind with
    | .gridgrow n _ =>
      .next (if s.growAhead (s.ctx k.ctx).part wait then s
        else
          let ok := g.canGrow n
          (s.updGrid g.uid fun x => if ok then { x with count := x.count + n } else x).updSk sk fun k => k.growAnswer w g.count ok)
    | _ => .next s
  | _, _ => .next s

/-! ### Placement (R20, R21, R306, R290) -/

/-- R356: bytes of the worst-case image of a context (log 9). -/
def State.imageNeed (s : State) (c : Nat) : Nat :=
  let tiles (g : Nat) : Nat := ((s.grid? g).map (·.seep)).getD 0
  256 + 98304 + 64 +
    ((s.grids.filter fun g => g.ctx == c).map fun _ => 256).sum +
    ((s.seeps.filter fun i => s.grids.any fun g => g.uid == i.grid && g.ctx == c).map fun i => 64 + 4120 * tiles i.grid).sum +
    ((s.teams.filter fun t => t.ctx == c && (s.skeinsOf t.uid).any fun k => !k.conductor).map fun t => 1024 + t.scratchBytes + 65536 + 16384).sum +
    ((s.skeins.filter fun k => k.ctx == c).map fun _ => 23616).sum

/-- R356: what a new team adds to it on a core. -/
def State.imageMore (s : State) (g : Grid) (core : Nat) : Nat :=
  1024 + g.scratch + 65536 + 16384 + 23616 * skeinsFor g.size +
    (if g.seep = 0 || s.seeps.any (fun i => i.grid == g.uid && i.cluster == clusterOf core) then 0 else seepSlot g.seep)

/-- R10, R36, R217, R294: a skein of a new team. -/
def newSkein (u : Nat) (g : Grid) (team core i slot now : Nat) (index : Nat) : Skein :=
  { uid := u, ctx := g.ctx, team := team, index := i, core := core, slot := some slot, quad := i % 4
    age := ageOf now g.order index i, regCount := g.regs, threads := startThreads g.entry (g.size - 32 * i)
    acquire := now, idleAt := now }

/-- The skeins of a new team take their slots, lowest first (R306). -/
def State.seatSkeins (s : State) (g : Grid) (team core index : Nat) : State :=
  (List.range (skeinsFor g.size)).foldl (fun s i =>
    let (u, s) := s.fresh
    { s with skeins := s.skeins ++
        [{ newSkein u g team core i ((s.slotIn core (i % 4)).getD 0) s.now index with area := s.takeSlot g.ctx skeinSlot }] }) s

/-- R101, R290: the core's L1 holds nothing a new thread could read stale. -/
def State.dropL1 (s : State) (core : Nat) : State := { s with copies := s.copies.filter fun c => c.l2 || c.place != core }

/-- R20: the next team of a grid placed on a core. -/
def State.placeTeam (s : State) (g : Grid) (core : Nat) : State :=
  let (u, s) := s.fresh
  let base := (s.scratchFit core g.scratch).getD 0
  let t : Team :=
    { uid := u, ctx := g.ctx, grid := some g.uid, index := g.next, size := g.size, core := core, regs0 := g.regs
      barriers := List.replicate g.barriers {}, scratchBase := base, scratchBytes := g.scratch }
  let s := if g.area.isSome then s else s.updGrid g.uid fun x => { x with area := s.takeSlot g.ctx gridSlot }
  let s := ((s.claimScratch core base g.scratch g.ctx).openSeep g.uid (clusterOf core) g.seep).dropL1 core
  let s := { s with teams := s.teams ++ [{ t with area := s.takeSlot g.ctx (teamSlot g.scratch) }] }
  (s.seatSkeins g u core g.next).updGrid g.uid fun x => { x with next := x.next + 1 }

/-- A grid has no instance on a core's cluster yet. -/
def State.newSeep (s : State) (g : Grid) (core : Nat) : Bool :=
  g.seep != 0 && !(s.seeps.any fun i => i.grid == g.uid && i.cluster == clusterOf core)

/-- R356: the slots that a new team of a grid takes in the save area, on a core: the grid's own is taken anew where it has none, and
where an instance more makes it longer. -/
def State.slotsMore (s : State) (g : Grid) (core : Nat) : List Nat :=
  (if s.newSeep g core then [s.gridNeed g.uid + seepSlot g.seep] else if g.area.isSome then [] else [gridSlot]) ++
    teamSlot g.scratch :: List.replicate (skeinsFor g.size) skeinSlot

/-- R20, R21, R81, R356: the core for the next team of a grid. -/
def State.coreFor (s : State) (g : Grid) : Option Nat :=
  let need := s.imageNeed g.ctx
  let top := (s.ctx g.ctx).saveSize.toNat
  let used (c : Nat) := s.slotsBut g.ctx (if s.newSeep g c then some g.uid else none)
  s.chooseCore (s.ctx g.ctx).part (s.affinityOn g) fun c =>
    s.fits g.need c && decide (need + s.imageMore g c ≤ top) && (slotFits top (used c) (s.slotsMore g c)).isSome

/-- R20, R22: n teams of a grid placed one after another, or none. -/
def State.placeTeams (s : State) (g : Nat) : Nat → Option State
  | 0 => some s
  | n + 1 =>
    match s.grid? g with
    | none => none
    | some gr =>
      match s.coreFor gr with
      | none => none
      | some c => (s.placeTeam gr c).placeTeams g n

/-- Teams that are placed together: all of a cooperative grid, else one (R22). -/
def Grid.batch (g : Grid) : Nat := if g.coop then g.count - g.next else 1

/-! ### The dispatcher (R21 to R23) -/

/-- A grid has a pending team. -/
def State.pending (s : State) (part : Nat) (g : Grid) : Bool :=
  (s.ctx g.ctx).part == part && (s.ctx g.ctx).live && !g.cancelled && decide (g.next < g.count)

/-- R21: the grid whose team comes next: priority, then launch order. -/
def State.nextGrid (s : State) (part : Nat) : Option Grid :=
  minBy (fun g => (3 - g.prio) * 2 ^ 64 + g.order) (s.grids.filter (s.pending part))

/-- R342: a conductor that waits to be placed goes ahead of every team. -/
def State.conductorWaits (s : State) (part : Nat) : Bool := s.contexts.any fun c => c.part == part && c.state == .starting

/-- The lowest priority that resident teams of a context hold, with the latest launch among those grids (R23). -/
def State.lowestPrio (s : State) (c : Nat) : Option (Nat × Nat) :=
  let gs := s.grids.filter fun g => g.ctx == c && s.teams.any fun t => t.grid == some g.uid
  match minBy (·.prio) gs with
  | none => none
  | some m => some (m.prio, ((gs.filter fun g => g.prio == m.prio).map (·.order)).foldl max 0)

/-- R23: the contexts that a blocked priority-3 team may pre-empt, the first to go first. -/
def State.victim (s : State) (part : Nat) (g : Grid) : Option Nat :=
  let cs := (s.contexts.filter fun c => c.part == part && c.num != g.ctx && c.state == .running && c.halting.isNone).map (·.num)
  let with' := cs.filterMap fun c => (s.lowestPrio c).map fun p => (c, p)
  ((minBy (fun x => x.2.1 * 2 ^ 64 + (2 ^ 64 - 1 - x.2.2)) (with'.filter fun x => decide (x.2.1 < 3))).map (·.1))

/-- What a context holds in cores, given up (R23): used to ask whether its going would let a team in. -/
def State.without (s : State) (c : Nat) : State :=
  { s with skeins := s.skeins.filter (fun k => k.ctx != c), teams := s.teams.filter (fun t => t.ctx != c)
           seeps := s.seeps.filter fun i => !(s.grids.any fun g => g.uid == i.grid && g.ctx == c) }

/-- R23: every context that holds teams of priority 0 to 2, given up. -/
def State.withoutLower (s : State) (part : Nat) (g : Grid) : State :=
  (s.contexts.filter fun c => c.part == part && c.num != g.ctx &&
    (match s.lowestPrio c.num with | some p => decide (p.1 < 3) | none => false)).foldl (fun s c => s.without c.num) s

/-- A pre-emption of the partition is already under way. -/
def State.preempting (s : State) (part : Nat) : Bool :=
  s.contexts.any fun c => c.part == part && c.haltEvent == 0x29 && (c.state == .saving)

/-- R23, R353: a priority-3 team that cannot be placed pre-empts another context, when that could let it in. -/
def State.preempt (s : State) (part : Nat) (g : Grid) : State :=
  if g.prio != 3 || s.preempting part || ((s.withoutLower part g).placeTeams g.uid g.batch).isNone then s
  else
    match s.victim part g with
    | none => s
    | some c => (s.requestHalt c 0x29).updCtx c fun x => { x with preemptedBy := g.ctx }

/-- DISPATCH_TEAM (R21, R22, R23). -/
def execDispatchTeam (part : Nat) (s : State) : Host.Outcome State Fault Refusal :=
  .next (if s.conductorWaits part then s
    else
      match s.nextGrid part with
      | none => s
      | some g =>
        match s.placeTeams g.uid g.batch with
        | some s' => s'
        | none => s.preempt part g)

/-! ### Conductors (R342, R343) -/

/-- The lowest quadrant of a core that can take a conductor. -/
def State.conductorQuad (s : State) (core : Nat) : Option Nat :=
  (List.range 4).find? fun q => (s.slotIn core q).isSome && decide (8192 ≤ s.quadFree core q)

/-- R343: a conductor placed. -/
def State.placeConductor (s : State) (c core q : Nat) : State :=
  let cx := s.ctx c
  let (t, s) := s.fresh
  let (u, s) := s.fresh
  let k : Skein :=
    { uid := u, ctx := c, team := t, conductor := true, core := core, slot := s.slotIn core q, quad := q
      age := ageOf s.now 0 0 0, regCount := 32, threads := startThreads cx.condPc 1, acquire := s.now, idleAt := s.now
      area := s.takeSlot c skeinSlot }
  let tm : Team := { uid := t, ctx := c, core := core, regs0 := 32 }
  { s with skeins := s.skeins ++ [k], teams := s.teams ++ [tm] }.updCtx c fun x => { x with conductor := some u }

/-- CONDUCTOR_PLACE (R342, R343): the start ends. -/
def execConductorPlace (ctx : Nat) (s : State) : Host.Outcome State Fault Refusal :=
  if (s.ctx ctx).state != .starting then .next s
  else
    match s.chooseCore (s.ctx ctx).part (fun _ => 0) fun c => (s.conductorQuad c).isSome with
    | none => .next s
    | some core =>
      .next ((((s.placeConductor ctx core ((s.conductorQuad core).getD 0)).setState ctx .running).ctxEvent ctx 0x21).signalCtx ctx)

/-! ### Retirement (R12, R18, R364) -/

/-- R12, R18: nothing of a grid is left but its retirement. -/
def State.spent (s : State) (g : Grid) : Bool :=
  (g.cancelled || decide (g.count ≤ g.next)) && !(s.teams.any fun t => t.grid == some g.uid) &&
    !(s.grids.any fun x => x.parent == some g.uid) && !(s.accesses.any fun a => a.grid == some g.uid) &&
    decide (g.wct < s.now) && (s.ctx g.ctx).state == .running

/-- The status a launch handle completes with; once the completion word is written a cancellation has no effect (R286). -/
def Grid.status (g : Grid) : Byte := if g.failed then 1 else if g.cancelled && g.word.isNone then 2 else 0

/-- R18: the grid's seep and residency are released, and its handle completes. -/
def State.endGrid (s : State) (g : Grid) : State :=
  let s := (s.seeps.filter fun i => i.grid == g.uid).foldl State.dropSeep s
  let s := { s with grids := s.grids.filter (fun x => x.uid != g.uid), resids := s.resids.filter fun r => r.owner != some g.uid }
  let s := match g.parent with
    | some p => s.updGrid p fun x => { x with wct := max x.wct g.wct }
    | none => s
  let s := if g.failed then s.updOp g.op fun o => { o with failAddr := g.cAddr } else s
  ((s.finishOp g.op g.status).traceGrid { ctx := g.ctx } 0 g true).tryIdle g.ctx

/-- R18: the completion word, a release store at .sy; without a translation it is held for the driver (R364). An address on a peer
page, or one that is not canonical, is held the same way (DESIGN CHOICE, log 73: R18, R67 and R364 name no such case). -/
def State.completionWord (s : State) (g : Grid) : State :=
  match s.translate g.ctx g.cAddr with
  | (s, .ok x) =>
    if x.w && x.kind != 2 && canonical g.cAddr && x.there then
      ((s.store (s.ctx g.ctx).part x.key (toBytes 8 g.cVal.toNat)).fillHome (x.key / 128) (s.ctx g.ctx).part 0).updGrid g.uid fun y =>
        { y with word := some (s.wctOf (s.ctx g.ctx).part (x.key / 128)) }
    else
      let (seq, s) := s.holdFault g.ctx { seq := 0, kind := 4, addr := g.cAddr, bad := false, grid := some g.uid }
      s.updGrid g.uid fun y => { y with held := some seq }
  | (s, .error bad) =>
    let (seq, s) := s.holdFault g.ctx { seq := 0, kind := 4, addr := g.cAddr, bad := bad, grid := some g.uid }
    s.updGrid g.uid fun y => { y with held := some seq }

/-- GRID_RETIRE (R12, R18). -/
def execGridRetire (grid : Nat) (s : State) : Host.Outcome State Fault Refusal :=
  match s.grid? grid with
  | none => .next s
  | some g =>
    if !s.spent g || g.held.isSome then .next s
    else if g.failed || (g.cancelled && g.word.isNone) || g.cAddr = 0 then .next (s.endGrid g)
    else
      match g.word with
      | some w => .next (if w < s.now then s.endGrid g else s)
      | none => .next (s.completionWord g)

end Sys2Proof.Machine
end

