-- ==== Sys2Proof/Machine/System.lean ====
section
/-!
DEFINITION. System registers (R293, R294), the return from a trap handler (R295, R351), the arrival of a write of sys.slew
(R289), and the trap of an unassigned opcode (R165).
-/

namespace Sys2Proof.Machine

/-! ### Reading (R294) -/

/-- R220: sys.rep. -/
def Skein.sysRep (k : Skein) : Lane := (bit1 k.susp ++ k.repNext).setWidth 64

/-- What a skein that belongs to no grid reads where the grid's registers stand, and what a skein of a grid reads. -/
def State.gridReg (s : State) (k : Skein) (none' : Lane) (f : Grid → Lane) : Lane :=
  match s.gridOf (s.team k.team) with
  | some g => f g
  | none => none'

/-- R294: a system register as a lane of the issuing skein reads it; none where R294 lists no such number. -/
def State.sysReg (s : State) (num l : Nat) : Option Lane :=
  let k := s.cur
  let t := s.team k.team
  if 0x008 ≤ num ∧ num < 0x010 then some (t.qw.getD (num - 0x008) 0)
  else if 0x010 ≤ num ∧ num < 0x018 then some (t.cvAt (num - 0x010)).word
  else if 0x018 ≤ num ∧ num < 0x020 then some (k.handle (num - 0x018))
  else if 0x020 ≤ num ∧ num < 0x028 then some (t.tl.getD (num - 0x020) 0)
  else
    match num with
    | 0x000 => some (u64 (s.nowAt (clusterOf k.core)))
    | 0x001 => some (u64 Config.seepLife)
    | 0x002 => some (u64 (s.ctx k.ctx).lease)
    | 0x003 => some (s.slew (clusterOf k.core))
    | 0x004 => some (s.ctx k.ctx).altctl
    | 0x005 => some k.sysRep
    | 0x006 => some (k.thread l).link
    | 0x030 => some (u64 (32 * k.index + l))
    | 0x031 => some (u64 k.index)
    | 0x032 => some (if k.conductor then 0 else u64 t.index)
    | 0x033 => some (s.gridReg k 0 fun g => u64 g.count)
    | 0x034 => some (s.gridReg k (Config.freeValue s.freeCtr) fun g => u64 g.size)
    | 0x035 => some (s.gridReg k (s.ctx k.ctx).condParam (·.param))
    | 0x036 => some (s.gridReg k (Config.freeValue s.freeCtr) fun g => u64 g.depth)
    | 0x037 => some (u64 k.regCount)
    | 0x038 => some (u64 k.ctx)
    | 0x040 => some k.flt
    | 0x041 => some k.fltpc
    | 0x042 => some k.fltaddr
    | 0x043 => some k.fltlanes
    | 0x044 => some k.fltaux
    | _ => none

/-- The handle register that a number names. -/
def sysHandle (num : Nat) : Option Nat := if 0x018 ≤ num ∧ num < 0x020 then some (num - 0x018) else none

/-- The next free value is another one (log 11). -/
def State.spend (s : State) : State := { s with freeCtr := s.freeCtr + 1 }

/-- sysr (R293): a pending handle is waited for; a complete one is an acquire at .sy. -/
def execSysr (g : Guard) (d : Reg) (num : BitVec 12) (s : State) : Host.Outcome State Fault Refusal :=
  let n := num.toNat
  let p := s.passing g
  let put := ((s.updCur fun k => k.writeBy s.executing d p (fun l => (s.sysReg n l).getD 0) .uniform).spend).advance
  s.finish (s.ckOperands [] [d] (illIf (s.sysReg n 0).isNone .state))
    (if !s.anyPass g then s.advance
     else
      match sysHandle n with
      | some i => if hdPending (s.cur.handle i) then s.beginWait (.sysr i) (.sysr g d num) else put.acquire s.cur.uid 4 s.now
      | none => put)

/-! ### Writing (R293, R294) -/

/-- R293, R294: the registers a skein may write: some by any, sys.slew and sys.altctl by the conductor, the trap state in a
handler. -/
def Skein.mayWrite (k : Skein) (n : Nat) : Bool :=
  n == 0x002 || n == 0x006 || (decide (0x008 ≤ n) && decide (n < 0x010)) || ((n == 0x003 || n == 0x004) && k.conductor) ||
    ((n == 0x040 || n == 0x041) && k.handler.isSome)

/-- R254: some thread of the team waits on a queue. -/
def State.queueWaited (s : State) (team n : Nat) : Bool :=
  (s.skeinsOf team).any fun k => (k.queueWait n true).isSome || (k.queueWait n false).isSome

/-- R316: a value sys.altctl may be given. -/
def altctlOk (v : Lane) : Bool :=
  v.extractLsb' 41 23 == 0 && v.extractLsb' 13 3 == 0 && v.extractLsb' 1 3 == 0 && decide (4 ≤ altNbaste v) && decide (1 ≤ altHot v) &&
    decide (6 ≤ (v.extractLsb' 8 5).toNat) && decide ((v.extractLsb' 8 5).toNat ≤ 16) && decide (4 ≤ altSwn v) && decide (altSwn v ≤ 8)

/-- R68, R254, R289, R316, R349: what forbids a value. -/
def State.ckSysw (s : State) (n : Nat) (v : Lane) : Option Stop :=
  let k := s.cur
  let t := s.team k.team
  if 0x008 ≤ n ∧ n < 0x010 then
    firstStop [
      illIf (decide (0 < qDepth v) && decide (t.scratchBytes < qBase v + qDepth v * qBytes v)) .range,
      illIf (s.queueWaited t.uid (n - 0x008) || v.extractLsb' 34 30 != 0 || qBase v % 8 != 0 || decide (4096 < qDepth v)) .state]
  else
    match n with
    | 0x002 => illIf (v == 0 || decide (256 < v.toNat)) .state
    | 0x003 => illIf (v.extractLsb' 16 48 != 0 || v.extractLsb' 6 2 != 0) .state
    | 0x004 => illIf (!altctlOk v) .state
    | 0x040 => illIf (v.extractLsb' 36 28 != k.flt.extractLsb' 36 28 || v.extractLsb' 0 34 != k.flt.extractLsb' 0 34) .state
    | _ => none

/-- R289: a write of sys.slew sets out for every cluster of the partition. -/
def State.sendSlew (s : State) (part : Nat) (v : Lane) : State :=
  let cs := (List.range Config.clusters).filter fun c => s.partOfCluster c == part
  s.updPart part fun p => { p with slewWrites := p.slewWrites ++ cs.map fun c => (c, s.now, v) }

/-- R316: sys.altctl written: ALTF is only cleared; EN = 0 unpicks the context. -/
def State.writeAltctl (s : State) (c : Nat) (v : Lane) : State :=
  let old := (s.ctx c).altctl
  let w : Lane := 0#23 ++ (bit1 (old.getLsbD 40 && v.getLsbD 40)) ++ v.extractLsb' 0 40
  let s := s.updCtx c fun x => { x with altctl := w }
  if altEn v then s else s.unpickCtx c true

/-- The effect of a `sysw` of a value. -/
def State.sysWrite (s : State) (n : Nat) (v : Lane) : State :=
  let k := s.cur
  if 0x008 ≤ n ∧ n < 0x010 then
    s.updTeam k.team fun t =>
      { t with qw := bankUpd 8 0 t.qw (n - 0x008) fun _ => v, qhead := bankUpd 8 0 t.qhead (n - 0x008) fun _ => 0 }
  else
    match n with
    | 0x002 => s.updCtx k.ctx fun c => { c with lease := v.toNat }
    | 0x003 => s.sendSlew (s.ctx k.ctx).part v
    | 0x004 => s.writeAltctl k.ctx v
    | 0x040 => s.updCur fun k => { k with flt := v }
    | 0x041 => s.updCur fun k => { k with fltpc := v, handler := k.handler.map fun h => { h with pcSet := true } }
    | _ => s

/-- sysw (R293): sys.link in every passing lane, any other register from the lowest. -/
def execSysw (g : Guard) (num : BitVec 12) (a : Reg) (s : State) : Host.Outcome State Fault Refusal :=
  let n := num.toNat
  s.finish (firstStop [s.ckOperands [plain a] [] (illIf (!s.cur.mayWrite n) .state),
      match s.lowRead g a with
      | some v => if n = 0x006 then none else s.ckSysw n v
      | none => none])
    (match s.lowRead g a with
     | none => s.advance
     | some v =>
       if n = 0x006 then (s.updCur fun k => k.updThreads (s.passing g) fun l t => { t with link := k.read a l }).advance
       else (s.sysWrite n v).advance)

/-- SLEW_ARRIVAL (R289): the oldest write on its way to a cluster arrives. -/
def execSlewArrival (cluster : Nat) (s : State) : Host.Outcome State Fault Refusal :=
  let p := s.partOfCluster cluster
  match (s.part p).slewWrites.find? fun w => w.1 == cluster with
  | none => .next s
  | some w =>
    .next ({ s with slews := (cluster, w.2.2) :: s.slews.filter fun x => x.1 != cluster }.updPart p fun x =>
      { x with slewWrites := x.slewWrites.erase w })

/-! ### tret (R295, R351) -/

/-- R341: after RES 00 a group whose barrier arrivals stayed counted waits again, or goes on with its generation. -/
def Skein.waitAgain (k : Skein) (h : Hidden) : Skein :=
  match h.counted with
  | none => k
  | some w =>
    let p := fun l => h.lanes.getLsbD l && !(k.thread l).exited
    if h.opened then k.pass w.issue p
    else Skein.sweepWaits { k.updThreads p fun _ t => { t with waiting := some w.id } with waits := k.waits ++ [w] }

/-- R351: the handler ends at a `tret`. -/
def State.endHandler (s : State) (h : Hidden) : State :=
  let u := s.issue.sk
  let again := (s.cur.flt.extractLsb' 34 2 == 0) && !h.pcSet
  let s' := ((if s.cur.flt.extractLsb' 34 2 == 3 then s.uncount u fun x => h.lanes.getLsbD x.1 else s).updSk u fun k =>
    let k' := k.resume h; if again then k'.waitAgain h else k').afterExit u
  match h.counted with
  | some w => if again && h.opened then s'.acquire u w.kind.acquires s'.now else s'
  | none => s'

/-- The trapped threads would retire as the last live ones of the skein (R351, R40). -/
def Skein.retiresLast (k : Skein) (h : Hidden) : Bool :=
  k.flt.extractLsb' 34 2 == 3 && k.live.all h.lanes.getLsbD

/-- tret (R295, R351). -/
def execTret (s : State) : Host.Outcome State Fault Refusal :=
  let k := s.cur
  match k.handler with
  | none => s.finish (firstStop [s.ckLast, ill .state]) s
  | some h =>
    s.finish (firstStop [s.ckLast,
        if h.pcSet && k.fltpc.extractLsb' 0 2 != 0 then some (.trap { kind := 5, addr := k.fltpc }) else none,
        if k.retiresLast h then firstStop [k.remoteTrap, holdIf (k.unacked != 0)] else none])
      (s.endHandler h)

/-! ### Unassigned opcodes (R165) -/

/-- UNASSIGNED_OPCODE (R165): the illegal-instruction trap with cause 0x01. -/
def execUnassignedOpcode (_w : Word) (s : State) : Host.Outcome State Fault Refusal :=
  .next (s.takeTrap { kind := 1, cause := Cause.unassigned.code })

end Sys2Proof.Machine
end

