-- ==== Sys2Proof/Machine/Context.lean ====
section
/-!
DEFINITION. The commands of a context's control block (R342), the halt and the save image (R354, R356, R358, R364), the
checks a restore makes (R359), and the assignment of contexts to function slots (R339).
-/

namespace Sys2Proof.Machine

/-! ### Commands (R342, R346, R372) -/

/-- Partitions of the configured mode. -/
def State.mode (s : State) : Nat := match s.record with | some r => r.mode | none => 0

/-- The partitions of a virtual function: those of the contexts its slots hold (R339, R372). A free context counts once PART names a
partition other than 0, its reset value, or there is no other partition (log 88). -/
def State.partsOfVf (s : State) (vf : Nat) : List Nat :=
  ((s.contexts.filter fun c =>
    (match c.vf with | some (v, _) => v == vf | none => false) && (c.state != .free || c.part != 0 || decide (s.mode ≤ 1))).map
      (·.part)).dedup

/-- R372: TDISP interface states: 0 unlocked, 1 CONFIG_LOCKED, 2 RUN, 3 ERROR. -/
def State.tdispOf (s : State) (vf : Nat) : Byte := ((s.tdisp.find? fun x => x.1 == vf).map (·.2.1)).getD 0

/-- A function in CONFIG_LOCKED or RUN. -/
def isLocked (st : Byte) : Bool := st == 1 || st == 2

/-- R372: the partitions of a function that was locked: those it had then, and those of the contexts it has. -/
def State.lockParts (s : State) (x : Nat × Byte × List Nat) : List Nat := x.2.2 ++ s.partsOfVf x.1

/-- R372: a function of a protected partition is locked. -/
def State.locked (s : State) (part : Nat) : Bool :=
  s.protected part && s.tdisp.any fun x => isLocked x.2.1 && (s.lockParts x).contains part

/-- R372: a function is locked, and a partition of it is protected. -/
def State.vfLocked (s : State) (vf : Nat) : Bool :=
  s.tdisp.any fun x => x.1 == vf && isLocked x.2.1 && (s.lockParts x).any s.protected

/-- R372: the locked functions of a partition go to ERROR. -/
def State.tdispError (s : State) (part : Nat) : State :=
  { s with tdisp := s.tdisp.map fun x => if isLocked x.2.1 && (s.lockParts x).contains part then (x.1, 3, x.2.2) else x }

/-- R365: the functions a partition has at most in the configured mode. -/
def State.vfMost (s : State) : Nat := 192 / ((s.record.map (·.mode)).getD 1)

/-- R365: a function more would be too many for a partition: it has the most already, this one not among them. -/
def State.vfFull (s : State) (vf part : Nat) : Bool :=
  let vfs := ((s.contexts.filter fun c => c.part == part).filterMap fun c => c.vf.map (·.1)).dedup
  !vfs.contains vf && decide (s.vfMost ≤ vfs.length)

/-- States in which a command finds a transition under way (R342). -/
def CtxState.transitional : CtxState → Bool
  | .saving | .restoring | .killing | .starting => true
  | _ => false

/-- The error field of a context. -/
def State.ctxErr (s : State) (c : Nat) (e : Byte) : State := s.updCtx c fun x => { x with err := e }

/-- R342, R345: the record at the end of a transition, and the vector, which an absent event area keeps silent. -/
def State.announce (s : State) (c kind : Nat) : State :=
  let s' := s.ctxEvent c kind
  if (s.ctx c).evCap = 0 then s' else s'.signalCtx c

/-- A command: who may give it, and what every command is refused for (R339, R342, R346, R372). -/
def State.command (s : State) (pf : Bool) (c : Nat) (kill : Bool) (run : State → State) : State :=
  let cx := s.ctx c
  if 2048 ≤ c || (!pf && cx.vf.isNone) then s
  else if pf && !kill && s.locked cx.part then s.ctxErr c 7
  else if s.record.isNone then s.ctxErr c 6
  else if cx.state.transitional && !(kill && cx.state == .starting) then s.ctxErr c 2
  else run s

/-- R342: free to stopped. -/
def State.cmdAllocate (s : State) (pf : Bool) (ctx : Nat) : State :=
  s.command pf ctx false fun s =>
    if (s.ctx ctx).state != .free then s.ctxErr ctx 1
    else (((s.ctxErr ctx 0).setState ctx .stopped).announce ctx 0x20)

/-- CONTEXT_ALLOCATE. -/
def execContextAllocate (pf : Bool) (ctx : Nat) (s : State) : Host.Outcome State Fault Refusal := .next (s.cmdAllocate pf ctx)

/-- A power of two among the capacities of an area (R340, R398). -/
def capOk (n : Nat) : Bool := (List.range 13).any fun i => n == 2 ^ (i + 4)

/-- R342, R356: what a start asks of the control block. -/
def Context.startOk (c : Context) : Bool :=
  decide (c.root.toNat % 4096 = 0) &&
    canonical c.trapPc && decide (c.trapPc.toNat % 4 = 0) && canonical c.saveBase && decide (c.saveBase.toNat % 4096 = 0) &&
    decide (1048576 ≤ c.saveSize.toNat) && canonical c.evBase && decide (c.evBase.toNat % 64 = 0) && capOk c.evCap.toNat &&
    canonical c.wake && decide (c.wake.toNat % 8 = 0) && canonical c.condPc && decide (c.condPc.toNat % 4 = 0)

/-- R342, R345: stopped to starting; the count of event records begins anew. -/
def State.cmdStart (s : State) (pf : Bool) (ctx : Nat) : State :=
  s.command pf ctx false fun s =>
    if (s.ctx ctx).state != .stopped then s.ctxErr ctx 1
    else if !(s.ctx ctx).startOk then s.ctxErr ctx 5
    else ((s.ctxErr ctx 0).updCtx ctx fun x => { x with produced := 0 }).setState ctx .starting

/-- CONTEXT_START. -/
def execContextStart (pf : Bool) (ctx : Nat) (s : State) : Host.Outcome State Fault Refusal := .next (s.cmdStart pf ctx)

/-- R342, R353: running to saving. -/
def State.cmdSave (s : State) (pf : Bool) (ctx : Nat) : State :=
  s.command pf ctx false fun s =>
    if (s.ctx ctx).state != .running then s.ctxErr ctx 1
    else (s.ctxErr ctx 0).requestHalt ctx 0x22

/-- CONTEXT_SAVE. -/
def execContextSave (pf : Bool) (ctx : Nat) (s : State) : Host.Outcome State Fault Refusal := .next (s.cmdSave pf ctx)

/-- R342, R355, R372: a kill; it ends a start at once, and clears DEV. -/
def State.cmdKill (s : State) (pf : Bool) (ctx : Nat) : State :=
  s.command pf ctx true fun s =>
    let st := (s.ctx ctx).state
    let s' := if pf && s.locked (s.ctx ctx).part then s.tdispError (s.ctx ctx).part else s
    if st = .starting then (s'.ctxErr ctx 0).endKill ctx
    else if st = .running || st = .saved then
      ((s'.ctxErr ctx 0).updCtx ctx fun x => { x with dev := false }).requestHalt ctx 0x25
    else s.ctxErr ctx 1

/-- CONTEXT_KILL. -/
def execContextKill (pf : Bool) (ctx : Nat) (s : State) : Host.Outcome State Fault Refusal := .next (s.cmdKill pf ctx)

/-- R342, R72: stopped or lost to free, every field at reset. -/
def State.cmdRelease (s : State) (pf : Bool) (ctx : Nat) : State :=
  s.command pf ctx false fun s =>
    let st := (s.ctx ctx).state
    if st != .stopped && st != .lost then s.ctxErr ctx 1
    else
      let s := ({ s with resids := s.resids.filter fun r => r.ctx != ctx }).dropAlter ctx
      s.updCtx ctx fun x => { num := x.num, vf := x.vf, dbg := x.dbg }

/-- CONTEXT_RELEASE. -/
def execContextRelease (pf : Bool) (ctx : Nat) (s : State) : Host.Outcome State Fault Refusal := .next (s.cmdRelease pf ctx)

/-! ### The halt (R354, R355) -/

/-- CONTEXT_HALTED (R354): every skein is at a boundary and everything has settled; a kill then discards the context. -/
def execContextHalted (ctx : Nat) (s : State) : Host.Outcome State Fault Refusal :=
  let c := s.ctx ctx
  if c.halting.isNone || c.halted || !s.settled ctx then .next s
  else
    let s := s.haltSkeins ctx
    .next (if c.state = .killing then s.endKill ctx else s)

/-! ### The image (R356 to R358) -/

/-- R93: a tile as it stands at the snapshot: its remaining life, 0 unless it is live. -/
def Tile.saved (t : Tile) (T : Nat) : Tile × Nat :=
  if t.liveAt T then ({ t with busy := none }, Config.seepLife - t.age T)
  else if t.state = .empty then ({ t with busy := none }, 0)
  else ({ t with state := .expired, valid := 0, birth := 0, busy := none }, 0)

/-- R93, R94: an instance as it stands at the snapshot. -/
def State.saveSeep (s : State) (i : SeepInst) : SavedSeep :=
  let lo := seepKey i.uid 0
  let now := s.nowAt i.cluster
  let kept (o : Nat) : Bool := let t := i.tile (o / 4096); t.liveAt now && t.valid.getLsbD (o % 4096 / 256)
  { uid := i.uid, grid := i.grid, logical := i.logical, tiles := i.tiles
    teams := (s.teams.filter fun t => t.grid == some i.grid && clusterOf t.core == i.cluster).map (·.uid)
    states := i.states.map fun t => t.saved now
    bytes := (s.mem.filter fun c => decide (lo ≤ c.1) && decide (c.1 < lo + 2 ^ 24) && kept (c.1 - lo)).map fun c => (c.1 - lo, c.2)
    poison := (s.poisoned.filter fun g => decide (lo ≤ 8 * g) && decide (8 * g < lo + 2 ^ 24) && kept (8 * g - lo)).map fun g => g - lo / 8 }

/-- A team's scratch, and the offsets of its poisoned granules. -/
def State.saveScratch (s : State) (t : Team) : Nat × List Byte × List Nat :=
  let lo := scratchKey t.core t.scratchBase
  (t.uid, s.mem.readN lo t.scratchBytes,
    (s.poisoned.filter fun g => decide (lo ≤ 8 * g) && decide (8 * g < lo + t.scratchBytes)).map fun g => g - lo / 8)

/-- R356: what the image of a context records. -/
def State.packImage (s : State) (c : Nat) : Image :=
  let p := s.part (s.ctx c).part
  let grids := s.grids.filter fun g => g.ctx == c
  let teams := s.teams.filter fun t => t.ctx == c
  { ctx := c, key := p.imgKey, part := p.num, prot := p.prot, grids := grids, teams := teams
    skeins := (s.skeins.filter fun k => k.ctx == c).map fun k => ⟨k, if k.slot.isSome then s.replayOf k.uid else k.replays⟩
    seeps := (s.seeps.filter fun i => grids.any fun g => g.uid == i.grid).map s.saveSeep
    accs := s.accs.filter fun a => a.owner.isSome && a.ownerCtx == some c
    mats := s.mats.filter fun m => m.ctx == c
    scratch := teams.map s.saveScratch
    handles := s.resids.filter fun r => r.ctx == c
    paused := s.ops.filter fun o => o.ctx == c && o.pauses && !o.done
    records := [] }

/-- R356: what the image records leaves the cores. -/
def State.vacate (s : State) (c : Nat) : State :=
  let grids := (s.grids.filter fun g => g.ctx == c).map (·.uid)
  let s := (s.seeps.filter fun i => grids.contains i.grid).foldl State.dropSeep s
  let gone := s.mats.filter fun m => m.ctx == c
  let s : State := { s with
    skeins := s.skeins.filter fun k => k.ctx != c
    teams := s.teams.filter fun t => t.ctx != c
    grids := s.grids.filter fun g => g.ctx != c
    accs := s.accs.filter fun a => !(a.owner.isSome && a.ownerCtx == some c)
    mats := s.mats.filter fun m => m.ctx != c
    accesses := s.accesses.filter fun a => !(a.ctx == c && !a.done && a.kind.reads) }
  ((gone.map (·.core)).dedup).foldl State.fillCore s

/-- R353: the record at the end of a save. -/
def State.saveEvent (s : State) (c : Nat) : State :=
  let x := s.ctx c
  if x.haltEvent = 0x29 then (s.event c (s.record32 0x29 (toBytes 2 c ++ toBytes 2 x.preemptedBy))).signalCtx c
  else s.announce c 0x22

/-- R399: the record at the end of a single step. -/
def State.stepEvent (s : State) (c : Nat) : State :=
  let d := (s.ctx c).dbg
  let idle : Byte := match d.step with | some st => if st.issued then 0 else 1 | none => 0
  (s.event c (s.record32 0x2A (toBytes 2 c ++ [0, 0, idle, BitVec.ofNat 8 d.skn.toNat, 0, 0] ++ toBytes 4 d.team.toNat))).signalCtx c

/-- R399: a command of the debugger that waited for a save has ended: an attach is complete, a step is announced. -/
def State.endDebug (s : State) (c : Nat) : State :=
  let d := (s.ctx c).dbg
  let s := match d.step with | some _ => s.stepEvent c | none => s
  s.updCtx c fun x => { x with dbg := { x.dbg with busy := false, step := none, att := x.dbg.att || d.busy } }

/-! ### The bytes of an image (R356 to R359) -/

/-- The records of skeins that a swap-out has written before: offset, bytes as they were sealed, and how many bytes a record there
announces (R39, R356). -/
def Image.standing (im : Image) : List (Nat × List Byte) :=
  (im.skeins.filter fun x => x.sk.slot.isNone).flatMap fun x => atSlot x.sk.area x.sk.saved

/-- The length of a skein's record in its slot. -/
def State.recordAt (s : State) (c : Nat) (im : Image) (x : SavedSkein) (o : Nat) : Option (List Byte) :=
  (s.areaBytes c o skeinSlot).map fun bs => bs.take (recordLen bs x.sk (im.teamOf x.sk) x.replay)

/-- R358: the records that stand in the save area as skeins swapped out left them. A plain one is taken as it stands. -/
def State.standing (s : State) (c : Nat) (im : Image) : List (Nat × List Byte) :=
  if im.prot then im.standing
  else
    (im.skeins.filter fun x => x.sk.slot.isNone).flatMap fun x =>
      match x.sk.area with
      | some o => [(o, (s.recordAt c im x o).getD x.sk.saved)]
      | none => []

/-- R358: the trailer of an image: the counter, the check over all bytes before it, zeros. -/
def Image.trailer (im : Image) (cnt : Nat) (rs : List (Nat × List Byte)) : List Byte :=
  toBytes 8 cnt ++ checkField im.prot im.key im.ctx cnt ((rs.flatMap (·.2)) ++ toBytes 8 cnt) ++ List.replicate 40 0

/-- R356, R358: the records a context save writes, the trailer with them, and the image with its records. -/
def State.sealImage (s : State) (c cnt : Nat) : List (Nat × List Byte) × Image :=
  let im := s.packImage c
  let rs := im.toWrite.map (sealRecord im.prot im.key c cnt)
  let all := rs ++ s.standing c im
  (rs ++ [((s.ctx c).saveSize.toNat - 64, im.trailer cnt all)], { im with records := all })

/-- R356, R358: the image is written and the context is out. -/
def State.saveContext (s : State) (c : Nat) : State :=
  let x := s.ctx c
  let cnt := x.saveCnt + 1
  let (rs, im) := s.sealImage c cnt.toNat
  let s := (s.vacate c).writeRecords c rs
  (((s.setState c .saved).updCtx c fun y =>
      { y with image := some im, saveCnt := cnt, halting := none, halted := false, dev := x.haltEvent == 0x29 }).saveEvent c).endDebug c

/-- IMAGE_WRITE_COMPLETE (R356, R364, R402): what has completed is recorded first; while a write is held the save waits. -/
def execImageWriteComplete (ctx : Nat) (s : State) : Host.Outcome State Fault Refusal :=
  if (s.ctx ctx).state != .saving || !(s.ctx ctx).halted then .next s
  else
    let s := State.flushSamples ctx s.samples.length s
    let c := s.ctx ctx
    if c.held.isSome || !c.queued.isEmpty then .next s
    else match s.recordsMiss ctx (s.sealImage ctx (c.saveCnt + 1).toNat).1 with
    | some a => .next (s.holdDev ctx ⟨1, a, []⟩)
    | none => .next (s.saveContext ctx)

/-! ### The checks of a restore (R359) -/

/-- Bytes at a slot; none of them where the area cannot be read. -/
def State.slotBytes (s : State) (c : Nat) (area : Option Nat) (n : Nat) : List Byte :=
  match area with
  | some o => (s.areaBytes c o n).getD []
  | none => []

/-- The bytes of an image's header as they stand. -/
def State.headerBytes (s : State) (c : Nat) (im : Image) : List Byte := (s.areaBytes c 0 (256 + 24 * im.handles.length)).getD []
/-- The bytes of a team's record as they stand. -/
def State.teamBytes (s : State) (c : Nat) (t : Team) : List Byte :=
  let bs := s.slotBytes c t.area (teamSlot t.scratchBytes)
  bs.take (teamLen t bs)

/-- The parts of a grid's record behind its fixed part, one for each instance. -/
def cutSeeps : List SavedSeep → List Byte → List (SavedSeep × List Byte)
  | [], _ => []
  | i :: is, bs =>
    let n := sectorAt bs i.tiles i.tiles
    (i, bs.take n) :: cutSeeps is (bs.drop n)

/-- The bytes of a grid's slot as they stand. -/
def State.gridSlotBytes (s : State) (c : Nat) (im : Image) (g : Grid) : List Byte :=
  s.slotBytes c g.area (gridSlot + ((im.seepsOf g).map fun i => seepSlot i.tiles).sum)
/-- The records of a grid's instances as they stand. -/
def State.seepsAt (s : State) (c : Nat) (im : Image) (g : Grid) : List (SavedSeep × List Byte) :=
  cutSeeps (im.seepsOf g) ((s.gridSlotBytes c im g).drop gridSlot)
/-- The bytes of a grid's record as they stand. -/
def State.gridBytes (s : State) (c : Nat) (im : Image) (g : Grid) : List Byte :=
  (s.gridSlotBytes c im g).take gridSlot ++ (s.seepsAt c im g).flatMap (·.2)
/-- The bytes of a skein's record as they stand. -/
def State.skeinBytes (s : State) (c : Nat) (im : Image) (x : SavedSkein) : List Byte :=
  match x.sk.area with
  | some o => (s.recordAt c im x o).getD []
  | none => []

/-- R358: the records of a plain image as they stand, in the order of the image. -/
def State.plainBytes (s : State) (c : Nat) (im : Image) : List Byte :=
  s.headerBytes c im ++ (im.grids.flatMap (s.gridBytes c im)) ++
    (im.teams.flatMap (s.teamBytes c)) ++ ((im.skeins.filter fun x => x.sk.slot.isSome).flatMap (s.skeinBytes c im)) ++
    (im.skeins.filter fun x => x.sk.slot.isNone).flatMap (s.skeinBytes c im)

/-- R359, code 0x02: the GCM tag or the CRC matches. A protected image matches only as it was sealed (log 12); the zeros behind the check
field are under no check (R358, R376). -/
def State.checkOk (s : State) (c : Nat) (im : Image) (tail : List Byte) : Bool :=
  let cnt := (s.ctx c).saveCnt.toNat
  if im.prot then
    tail.take 24 == (im.trailer cnt im.records).take 24 && (s.part (s.ctx c).part).imgKey == im.key &&
      im.records.all fun r => s.areaBytes c r.1 r.2.length == some r.2
  else
    (tail.drop 8).take 16 == checkField false im.key im.ctx cnt (s.plainBytes c im ++ tail.take 8)

/-- R399: the check of the image that stands in the save area, written over the old one; held where it cannot be (R364). -/
def State.reseal (s : State) (c : Nat) : State :=
  let x := s.ctx c
  let at' := x.saveSize.toNat - 64
  match x.image, s.areaBytes c at' 8 with
  | some im, some cnt =>
    match s.devStore c (x.saveBase + u64 (at' + 8)) (checkField im.prot im.key im.ctx (ofBytes cnt) (s.plainBytes c im ++ cnt)) with
    | some t => t
    | none => s.holdDev c ⟨1, x.saveBase + u64 (at' + 8), []⟩
  | _, _ => s.holdDev c ⟨1, x.saveBase + u64 at', []⟩

/-- The bytes that were written of a record of an image, given its slot. -/
def Image.written (im : Image) (area : Option Nat) : List Byte :=
  ((area.bind fun o => im.records.find? fun r => r.1 == o).map (·.2)).getD []

/-- The bytes that were written of a saved skein's record: by its swap-out, or with the image. -/
def Image.skeinWritten (im : Image) (k : Skein) : List Byte := if k.slot.isNone then k.saved else im.written k.area

/-- R359, code 0x03: a team's record agrees with the image: its paused operations are those that stand on their timelines. -/
def State.teamShapeOk (s : State) (c : Nat) (im : Image) (t : Team) : Bool :=
  let bs := s.teamBytes c t
  let ops := im.pausedOf t
  t.area.isNone || (fieldAt bs 737 1 == ops.length && (List.range ops.length).all fun i =>
    let o := ops.getD i {}
    fieldAt bs (pausedAt t bs + 64 * i) 1 == o.tl && fieldAt bs (pausedAt t bs + 64 * i + 4) 8 == o.num)

/-- R359, code 0x03: the convergence records of a skein agree with its team's record; those of a skein swapped out before stand as they
were written. -/
def State.convsOk (s : State) (c : Nat) (im : Image) (x : SavedSkein) : Bool :=
  let t := im.teamOf x.sk
  let bs := s.skeinBytes c im x
  let tb := s.teamBytes c t
  let gs := signsOf t x.sk.uid
  x.sk.slot.isNone || (List.range gs.length).all fun i =>
    let g := gs.getD i (0, ⟨0, 0, [], [], [], [], 0⟩)
    convOk g.1 g.2 (laneAt tb (672 + 8 * g.1)) (bs.drop (tailAt bs + 64 * i))

/-- R359, code 0x03: the header's version, number, counts and offsets are those of the image, and the parts of records that say what
belongs to what agree: parents, instances, convergence states, paused operations (log 9). -/
def State.shapeOk (s : State) (c : Nat) (im : Image) : Bool :=
  let hd := s.headerBytes c im
  (hd.take 4 == im.header.take 4) && ((hd.take 256).drop 8 == (im.header.take 256).drop 8) &&
    (im.grids.all fun g => g.area.isNone || (decide (fieldAt (s.gridBytes c im g) 84 4 ≤ im.grids.length) &&
      (let ns := (s.seepsAt c im g).map fun x => fieldAt x.2 0 4
       decide (ns.dedup.length = ns.length)) && (s.seepsAt c im g).all fun x => fieldAt x.2 4 4 == x.1.tiles)) &&
    im.teams.all (s.teamShapeOk c im) && im.skeins.all (s.convsOk c im) && im.skeins.all fun x => (entryHeads x.replay).length ≤ 16

/-- The owner grid of a handle as its entry says: none for the context's own. -/
def ownerFrom (grids : List Grid) (v : Nat) : Option Nat := (grids.find? fun g => g.uid % 2 ^ 32 == v).map (·.uid)

/-- R359, code 0x06: handles inside the limits of R71, each of a grid of the image or of the context. -/
def handlesOk (grids : List Grid) (n : Nat) (bs : List Byte) : Bool :=
  (List.range n).all fun i =>
    let o := 256 + 24 * i
    let len := fieldAt bs (o + 8) 8
    (fieldAt bs (o + 20) 4 == 0xFFFFFFFF || (ownerFrom grids (fieldAt bs (o + 20) 4)).isSome) &&
    fieldAt bs o 8 % 65536 == 0 && len % 65536 == 0 && decide (65536 ≤ len) && decide (len ≤ 2 ^ 46) && decide (fieldAt bs (o + 16) 4 ≤ 7)

/-- R359, code 0x06: every field lies within its limits. -/
def State.limitsHold (s : State) (c : Nat) (im : Image) : Bool :=
  (im.skeins.all fun x =>
    let bs := s.skeinBytes c im x
    x.sk.limitsOk bs && entriesOk (entryHeads x.replay) (bs.drop (entriesAt bs (convRecords (im.teamOf x.sk) x.sk.uid).length))) &&
  (im.teams.all fun t => t.area.isNone || t.limitsOk (s.teamBytes c t)) &&
  (im.grids.all fun g => g.area.isNone || Grid.limitsOk (s.gridBytes c im g)) && handlesOk im.grids im.handles.length (s.headerBytes c im)

/-- R359: the code with which an image is refused; none where it passes. -/
def State.refuseImage (s : State) (c : Nat) : Option Byte :=
  let x := s.ctx c
  match x.image, s.areaBytes c (x.saveSize.toNat - 64) 64 with
  | some im, some tail =>
    let sks := im.skeins.map fun x => (x.sk, s.skeinBytes c im x)
    let hd := s.headerBytes c im
    let part := if im.prot then im.part else fieldAt hd 4 2
    let prot := if im.prot then true else decide (fieldAt hd 6 2 % 2 = 1)
    if tail.take 8 != toBytes 8 x.saveCnt.toNat then some 1
    else if !s.checkOk c im tail then some 2
    else if !im.prot && !s.shapeOk c im then some 3
    else if !im.prot && !(sks.all fun x => x.1.dirOk x.2) then some 4
    else if !im.prot && !(im.grids.all fun g => g.area.isNone || (s.seepsAt c im g).all fun x => x.1.recordOk x.2) then some 5
    else if !im.prot && !s.limitsHold c im then some 6
    else if part != x.part || (s.part x.part).prot != prot then some 7
    else none
  | _, _ => some 2

/-- One accumulator of a team as its record says (R258). -/
def accFrom (t : Team) (ctx : Nat) (bs : List Byte) (a : Acc) : Acc :=
  let i := ((ownedIn bs).findIdx? fun n => n == a.n).getD 0
  let o := 1024 + t.scratchBytes + 16384 * i + 4096 * a.quad
  { a with owner := some t.uid, ownerCtx := some ctx
           rows := (List.range 16).map fun r => (List.range 64).map fun c => BitVec.ofNat 32 (fieldAt bs (o + 256 * r + 4 * c) 4) }

/-- R258, R356: the accumulators of an image as a team's record says, four quadrants for each number that it owns. -/
def accsFrom (accs : List Acc) (t : Team) (ctx : Nat) (old bs : List Byte) : List Acc :=
  if old = bs then accs
  else
    let mine := accs.filter fun a => a.owner == some t.uid
    (accs.filter fun a => a.owner != some t.uid) ++ (ownedIn bs).flatMap fun n => (List.range 4).map fun q =>
      accFrom t ctx bs ((mine.find? fun a => a.n == n && a.quad == q).getD { core := t.core, quad := q, n := n })

/-- A residency handle as the header says. -/
def handleFrom (grids : List Grid) (bs : List Byte) (i : Nat) (r : Resid) : Resid :=
  let o := 256 + 24 * i
  { r with base := laneAt bs o, len := laneAt bs (o + 8), prio := fieldAt bs (o + 16) 4, owner := ownerFrom grids (fieldAt bs (o + 20) 4) }

/-- R268: the signatures of a team as the convergence records of its skeins say. -/
def State.loadSigns (s : State) (c : Nat) (im : Image) (t : Team) : Team :=
  (im.skeins.filter fun x => x.sk.team == t.uid).foldl (fun t x =>
    let bs := s.skeinBytes c im x
    let old := im.skeinWritten x.sk
    let gs := signsOf (im.teamOf x.sk) x.sk.uid
    (List.range gs.length).foldl (fun t i =>
      let g := gs.getD i (0, ⟨0, 0, [], [], [], [], 0⟩)
      let at' (b : List Byte) : List Byte := (b.drop (tailAt b + 64 * i)).take 64
      { t with cv := bankUpd 8 {} t.cv g.1 fun v => { v with signs := v.signs.map fun y => if y == g.2 then y.loaded (at' old) (at' bs) else y } }) t) t

/-- R356: the paused operations of an image as its teams' records say. -/
def State.loadPaused (s : State) (c : Nat) (im : Image) : List EngineOp :=
  im.paused.map fun o =>
    match im.teams.find? fun t => t.uid == o.team && t.area.isSome with
    | none => o
    | some t =>
      let bs := s.teamBytes c t
      let old := im.written t.area
      let i := ((im.pausedOf t).findIdx? fun x => x.uid == o.uid).getD 0
      o.loaded ((old.drop (pausedAt t old + 64 * i)).take 64) ((bs.drop (pausedAt t bs + 64 * i)).take 64)

/-- R94, R356: the instances of an image as the records of their grids say. -/
def State.loadSeeps (s : State) (c : Nat) (im : Image) : List SavedSeep :=
  im.seeps.map fun i =>
    match im.grids.find? fun g => g.uid == i.grid && g.area.isSome with
    | none => i
    | some g =>
      let was := cutSeeps (im.seepsOf g) ((im.written g.area).drop gridSlot)
      let of' (l : List (SavedSeep × List Byte)) : List Byte := ((l.find? fun x => x.1.uid == i.uid).map (·.2)).getD []
      i.loaded (of' was) (of' (s.seepsAt c im g))

/-- R358, R359: an image as a restore loads it: a plain one as its bytes say. -/
def State.loadImage (s : State) (c : Nat) (im : Image) : Image :=
  if im.prot then im
  else
    { im with
      grids := im.grids.map fun g => if g.area.isSome then g.loaded (im.written g.area) (s.gridBytes c im g) im.grids else g
      teams := im.teams.map fun t => s.loadSigns c im (if t.area.isSome then t.loaded (im.written t.area) (s.teamBytes c t) else t)
      skeins := im.skeins.map fun x => x.loaded (im.teamOf x.sk) (im.skeinWritten x.sk) (s.skeinBytes c im x)
      seeps := s.loadSeeps c im
      accs := im.teams.foldl (fun as t => if t.area.isSome then accsFrom as t c (im.written t.area) (s.teamBytes c t) else as) im.accs
      scratch := im.scratch.map fun x =>
        match im.teams.find? fun t => t.uid == x.1 && t.area.isSome with
        | some t => (x.1, ((s.teamBytes c t).drop 1024).take t.scratchBytes, x.2.2)
        | none => x
      handles := (List.range im.handles.length).zipWith (handleFrom im.grids (s.headerBytes c im)) im.handles
      paused := s.loadPaused c im }

/-- R359: event 0x24 with its code. -/
def State.refusedEvent (s : State) (c : Nat) (code : Byte) : State :=
  (s.event c (s.record32 0x24 (toBytes 2 c ++ [0, 0, code]))).signalCtx c

/-- R353, R359: a restore begins, or the image is refused and the context stays saved. -/
def State.beginRestore (s : State) (c : Nat) : State :=
  let s := s.updCtx c fun x => { x with dev := false }
  match s.refuseImage c with
  | some code => (s.updCtx c fun x => { x with dbg := { x.dbg with step := none, busy := false } }).refusedEvent c code
  | none => (s.updCtx c fun x => { x with image := x.image.map (s.loadImage c) }).setState c .restoring

/-- R342, R353: saved to restoring. -/
def State.cmdRestore (s : State) (pf : Bool) (ctx : Nat) : State :=
  s.command pf ctx false fun s =>
    if (s.ctx ctx).state != .saved || (s.ctx ctx).dev then s.ctxErr ctx 1
    else (s.ctxErr ctx 0).beginRestore ctx

/-- CONTEXT_RESTORE. -/
def execContextRestore (pf : Bool) (ctx : Nat) (s : State) : Host.Outcome State Fault Refusal := .next (s.cmdRestore pf ctx)

/-! ### Function slots (R339) -/

/-- The error field of BAR0 offset 0x10. -/
def State.barError (s : State) (e : Byte) : State := { s with barErr := e }

/-- The context a slot holds. -/
def State.slotCtx (s : State) (vf slot : Nat) : Option Nat :=
  (s.contexts.find? fun c => c.vf == some (vf, slot)).map (·.num)

/-- VF_SLOT_ASSIGN (R339, R365, R372): a context is in one slot of one function only, and a partition has at most the functions of its
mode (DESIGN CHOICE, log 80: R365 names no error; the model's is that of R339). -/
def State.assignSlot (s : State) (vf slot : Nat) (value : BitVec 16) : State :=
  let c := (value.extractLsb' 0 11).toNat
  let taken := value.getLsbD 15 && (((s.ctx c).vf.isSome && (s.ctx c).vf != some (vf, slot)) || s.vfFull vf (s.ctx c).part)
  let lock := s.vfLocked vf
  if 192 ≤ vf || 64 ≤ slot then s
    else if lock then s.barError 7
    else if taken then s.barError 4
    else
      let s := match s.slotCtx vf slot with
        | some o => s.updCtx o fun x => { x with vf := none }
        | none => s
      let s := if value.getLsbD 15 then s.updCtx c fun x => { x with vf := some (vf, slot) } else s
      { s with vfMap := (vf, slot, value &&& 0x87FF) :: s.vfMap.filter fun x => !(x.1 == vf && x.2.1 == slot) }

/-- VF_SLOT_ASSIGN. -/
def execVfSlotAssign (vf slot : Nat) (value : BitVec 16) (s : State) : Host.Outcome State Fault Refusal := .next (s.assignSlot vf slot value)

end Sys2Proof.Machine
end

