-- ==== Sys2Proof/Machine/Restore.lean ====
section
/-!
DEFINITION. Restoring a context (R43, R94, R114, R115, R268, R352, R353, R359) and the watchdog (R341).
-/

namespace Sys2Proof.Machine

/-! ### Seats (R20, R43, R94, R258) -/

/-- What a saved team takes: the skeins that hold a slot, and its own share (R43). -/
def Image.need (im : Image) (t : Team) : Need :=
  ⟨(im.skeins.filter fun x => x.sk.team == t.uid && x.sk.slot.isSome).map fun x => (x.sk.quad, x.sk.regCount),
    t.scratchBytes, t.barriers.length, 0, 0⟩

/-- The accumulators a team owned. -/
def Image.accsOf (im : Image) (t : Team) : List Acc := im.accs.filter fun a => a.owner == some t.uid

/-- R20, R258: a core that can take a saved team with its accumulators. -/
def State.fitsSaved (s : State) (im : Image) (t : Team) (core : Nat) : Bool :=
  s.fits (im.need t) core &&
    (im.accsOf t).all fun a => !(s.accs.any fun b => b.core == core && b.quad == a.quad && b.n == a.n && b.owner.isSome)

/-- A place in scratch that has moved. -/
def Place.rebase (p : Place) (base : Nat) : Place := match p with | .scratch _ => .scratch base | p => p

/-- A scratch access that has moved with its team. -/
def Access.rebase (a : Access) (base : Nat) : Access :=
  match a.place with
  | .scratch b => { a with place := .scratch base, lanes := a.lanes.map fun (x : LaneAcc) => { x with addr := x.addr - b + base } }
  | _ => a

/-- An engine's operation that has moved with its team. -/
def EngineOp.rebase (o : EngineOp) (core base : Nat) : EngineOp :=
  { o with core := core, srcPl := o.srcPl.rebase base, dstPl := o.dstPl.rebase base
           hdrPls := (o.hdrPls.1.rebase base, o.hdrPls.2.rebase base) }

/-- R25, R43, R97, R101: a saved skein on its new core: no copy that was filled before it came serves it. -/
def SavedSkein.seat (x : SavedSkein) (core now : Nat) (slot : Option Nat) : Skein :=
  { x.sk with core := core, slot := slot, age := ageAt now x.sk.age, acquire := now + 1, floors := [], idleAt := now, demand := [], block := none }

/-- A team's skeins take slots, the lowest free of their quadrants (R306); those swapped out stay out. -/
def State.seatSaved (s : State) (core : Nat) (xs : List SavedSkein) : State :=
  xs.foldl (fun s x =>
    let slot := if x.sk.slot.isSome then s.slotIn core x.sk.quad else none
    { s with skeins := s.skeins ++ [x.seat core s.now slot] }) s

/-- A team's scratch comes back. -/
def State.loadScratch (s : State) (core base : Nat) (x : Nat × List Byte × List Nat) : State :=
  { s with
    mem := s.mem.writeN (scratchKey core base) x.2.1
    poisoned := s.poisoned ++ x.2.2.map fun g => g + scratchKey core base / 8 }

/-- R356: a paused operation goes on as its record says. -/
def Image.resumeOp (im : Image) (o : EngineOp) : EngineOp :=
  match im.paused.find? fun p => p.uid == o.uid with
  | some p => { o with prio := p.prio, status := p.status, pos := p.pos, total := p.total, flagAt := p.flagAt, flagV := p.flagV, failAddr := p.failAddr }
  | none => o

/-- R43, R268: a saved team seated on a core, with all that is its own. -/
def State.seatTeam (s : State) (im : Image) (t : Team) (core : Nat) : State :=
  let base := (s.scratchFit core t.scratchBytes).getD 0
  let s := ((s.claimScratch core base t.scratchBytes t.ctx).dropL1 core).seatSaved core (im.skeins.filter fun x => x.sk.team == t.uid)
  let s := match im.scratch.find? fun x => x.1 == t.uid with
    | some x => s.loadScratch core base x
    | none => s
  let mine := (im.accsOf t).map fun a => { a with core := core }
  { s with
    teams := s.teams ++ [{ t with core := core, scratchBase := base }]
    accs := mine ++ s.accs.filter fun a => !(mine.any fun b => b.core == a.core && b.quad == a.quad && b.n == a.n)
    mats := s.mats ++ (im.mats.filter fun m => m.team == t.uid).map fun m => { m with core := core, inTable := false, running := false }
    ops := s.ops.map fun o => if o.team == t.uid && !o.done then (im.resumeOp o).rebase core base else o
    accesses := s.accesses ++ (im.skeins.filter fun x => x.sk.team == t.uid && x.sk.slot.isSome).flatMap fun x =>
      x.replay.map fun a => { a.rebase base with core := core, replay := true } }

/-- R94: an instance set up anew on a cluster: births that leave each live tile its remaining life. -/
def State.loadSeep (s : State) (i : SavedSeep) (cluster : Nat) : State :=
  let tile (x : Tile × Nat) : Tile :=
    if x.1.state = .live then { x.1 with birth := BitVec.ofNat 32 (s.nowAt cluster + 2 ^ 32 - (Config.seepLife - x.2)) } else x.1
  { s with
    seeps := s.seeps ++ [(⟨i.uid, i.grid, cluster, i.logical, i.tiles, i.states.map tile⟩ : SeepInst)]
    mem := i.bytes.foldl (fun m b => m.write (seepKey i.uid b.1) b.2) s.mem
    poisoned := s.poisoned ++ i.poison.map fun g => g + seepKey i.uid 0 / 8 }

/-- What a restore places, one after another: an instance of seep, or a team (R94). -/
inductive Seat
  | seep (i : SavedSeep)
  | team (t : Team)
deriving DecidableEq, Repr

/-- R94: every instance, its teams behind it, then the teams that share none. -/
def Image.seats (im : Image) : List Seat :=
  (im.seeps.flatMap fun i => .seep i :: (im.teams.filter fun t => i.teams.contains t.uid).map .team) ++
    (im.teams.filter fun t => !(im.seeps.any fun i => i.teams.contains t.uid)).map .team

/-- R94: a cluster can take an instance. -/
def State.takesSeep (s : State) (im : Image) (i : SavedSeep) (cluster : Nat) : Bool :=
  s.partOfCluster cluster == im.part && decide (s.seepUsed cluster + i.tiles ≤ Config.seepTiles) &&
    !(s.seeps.any fun x => x.grid == i.grid && x.cluster == cluster)

/-- R20, R94: the cores that can take a saved team: beside its instance where it has one; the one that R21 would choose first. -/
def State.coresFor (s : State) (im : Image) (t : Team) : List Nat :=
  let rank := match im.grids.find? fun g => t.grid == some g.uid with
    | some g => s.affinityOn g
    | none => fun _ => 0
  let home := (im.seeps.find? fun i => i.teams.contains t.uid).bind fun i => (s.seeps.find? fun x => x.uid == i.uid).map (·.cluster)
  let ok (c : Nat) : Bool := (match home with | some h => clusterOf c == h | none => true) && s.fitsSaved im t c
  (s.chooseCore im.part rank ok).toList ++ (s.coresOf im.part).filter ok

/-- R20, R43, R94, R268: seats taken one after another, each in the first place from which all that follow find theirs; none while
no choice of places has room for all. -/
def State.seatAll (im : Image) : List Seat → State → Option State
  | [], s => some s
  | .seep i :: r, s => (List.range Config.clusters).findSome? fun c => if s.takesSeep im i c then State.seatAll im r (s.loadSeep i c) else none
  | .team t :: r, s => (s.coresFor im t).findSome? fun c => State.seatAll im r (s.seatTeam im t c)

/-- R20, R43, R94, R268: all of an image seated at once; none while resources lack. -/
def State.seatImage (s : State) (im : Image) : Option State := State.seatAll im im.seats s

/-! ### What arrived while the context was out (R114, R115) -/

/-- R113, R114: a record that comes back from the context table. -/
def Skein.takeRec (k : Skein) (f : FaultRec) (posted : Bool) : Skein :=
  let k : Skein := match f.op with
    | some id => { k with ops := k.ops.map fun (o : LongOp) => if o.id == id then { o with fail := some .remote } else o }
    | none => k
  if k.faultQ.length < 8 then { k with faultQ := k.faultQ ++ [f], unacked := if posted then k.unacked - 1 else k.unacked }
  else { k with faultHeld := k.faultHeld ++ [f], unacked := if posted then k.unacked else k.unacked + 1 }

/-- R114, R115: completion times, acknowledgements, old values and records merged into a skein. -/
def Skein.merge (k : Skein) (c : Context) : Skein :=
  let k := (c.outWct.filter fun x => x.1 == k.uid).foldl (fun k x => k.noteWct x.2.1 x.2.2) k
  let k := { k with unacked := k.unacked - ((c.outAcks.filter fun x => x.1 == k.uid).map (·.2)).sum }
  let k := (c.outVals.filter fun x => x.1 == k.uid).foldl (fun (k : Skein) x =>
    { k with ops := k.ops.map fun (o : LongOp) => if o.id == x.2.1 then { o with await := o.await - 1, writes := o.writes ++ x.2.2 } else o }) k
  (c.outRecs.filter fun x => x.1 == k.uid).foldl (fun k x => k.takeRec x.2.1 x.2.2) k

/-- R352: an escalated skein goes on in its handler at the instruction after the escalating one. -/
def Skein.passEscalation (k : Skein) : Skein :=
  match k.escalated with
  | none => k
  | some i => { (if i.words.isEmpty then k else k.pass i i.mask.getLsbD) with escalated := none }

/-- R109, R277: timelines and handle registers show what completed while the context was out. -/
def State.showOps (s : State) (c : Nat) : State :=
  let done := s.ops.filter fun o => o.ctx == c && o.done
  let s : State := { s with skeins := s.skeins.map fun (k : Skein) => if k.ctx == c then done.foldl Skein.showOp k else k }
  (s.teams.filter fun t => t.ctx == c).foldl (fun s t => (List.range 8).foldl (fun s n => s.moveTl t.uid n) s) s

/-- Bytes of global memory, here or at a peer. -/
def Place.inMemory : Place → Bool
  | .global | .peer _ => true
  | _ => false

/-- R363: the access kind of a replay entry. -/
def Access.entryKind (a : Access) : Byte :=
  match a.kind with
  | .panelRead => 3
  | _ => 0

/-- R115: the accesses of one replay entry: those a load instruction still waits for. -/
def State.entryOf (s : State) (a : Access) : List Access :=
  if a.op.isNone then [a]
  else s.accesses.filter fun (x : Access) => x.sk == a.sk && x.op == a.op && x.place.inMemory

/-- R363: the accesses of an entry translated in order; the first that fails ends it, held for the driver (with what was met)
or refused for want of permission (none). -/
def State.walkEntry (s : State) : List Access → State × Except (Lane × Option Bool) (List (Access × Xlat))
  | [] => (s, .ok [])
  | a :: rest =>
    let va := ((a.lanes.head?).map (·.va)).getD 0
    match s.translate a.ctx va with
    | (s, .error bad) => (s, .error (va, some bad))
    | (s, .ok t) =>
      if !t.r || (t.kind == 2 && s.peerRefused (s.ctx a.ctx).part t.dev) then (s, .error (va, none))
      else
        match s.walkEntry rest with
        | (s, .error e) => (s, .error e)
        | (s, .ok ts) => (s, .ok ((a, t) :: ts))

/-- R115: an access of a replay entry sent anew to where its line lies now. -/
def State.resend (s : State) (a : Access) (t : Xlat) : State :=
  let va := ((a.lanes.head?).map (·.va)).getD 0
  let key := if t.kind = 2 then t.addr else t.key
  let (id, s) := s.fresh
  let a' : Access := { a with
    id := id, held := none, sent := s.now, out := false, place := if t.kind = 2 then .peer t.dev else .global
    lanes := a.lanes.map fun (x : LaneAcc) => { x with addr := key + x.va.toNat - va.toNat } }
  let s : State := { s with accesses := (s.accesses.filter fun x => x.id != a.id) ++ [a'] }
  if t.kind = 2 then s.trySend a' t.dev else s

/-- R115, R363: a replay entry that fails: its registers' next consumer takes the trap. -/
def State.failEntry (s : State) (a : Access) (why : OpFail) : State :=
  let ids := (s.entryOf a).map (·.id)
  let s := (s.entryOf a).foldl State.sampleFail s
  { s with accesses := s.accesses.filter fun x => !ids.contains x.id }.updSk a.sk fun k =>
    { k with ops := k.ops.map fun (o : LongOp) => if some o.id == a.op then { o with fail := some why } else o }

/-- R403: a sampled load counts one replay more. -/
def State.countReplay (s : State) (a : Access) : State :=
  { s with samples := s.samples.map fun (x : Sample) => if some x.id == a.sample then { x with replays := x.replays + 1 } else x }

/-- R115, R363: a replay entry translated anew: performed where it lies now, held for the driver, or failed. -/
def State.replayAccess (s : State) (a : Access) : State :=
  let es := s.entryOf a
  match s.walkEntry es with
  | (s, .error (va, some bad)) =>
    let (seq, s) := s.holdFault a.ctx { seq := 0, kind := a.entryKind, addr := va, bad := bad, acc := some a.id }
    let ids := es.map (·.id)
    { s with accesses := s.accesses.map fun (x : Access) => if ids.contains x.id then { x with held := some seq } else x }
  | (s, .error (va, none)) => s.failEntry a (.denied va a.entryKind)
  | (s, .ok ts) => ts.foldl (fun s x => s.resend x.1 x.2) (s.countReplay a)

/-- R403: a load of scratch begins its one performance anew; each entry counts once. -/
def State.countScratch (s : State) (as : List Access) (a : Access) : State :=
  if (as.find? fun x => x.sk == a.sk && x.op == a.op).any (·.id == a.id) then s.countReplay a else s

/-- R115: the loads that replay entries stand for, sent anew. -/
def State.replayAll (s : State) (as : List Access) : State :=
  as.foldl (fun s a =>
    match s.accesses.find? fun x => x.id == a.id && x.held.isNone with
    | some x => if x.place.inMemory then s.replayAccess x else s.countScratch as x
    | none => s) s

/-- R94, R114, R115, R343, R359: the context runs again. -/
def State.endRestore (s : State) (c : Nat) (im : Image) : State :=
  let cx := s.ctx c
  let s : State := { s with
    grids := s.grids ++ im.grids
    resids := im.handles ++ s.resids.filter fun r => r.ctx != c
    skeins := s.skeins.map fun (k : Skein) => if k.ctx == c then (k.merge cx).passEscalation else k }
  let s := s.showOps c
  let s := s.updCtx c fun x => { x with image := none, outWct := [], outAcks := [], outRecs := [], outVals := [] }
  let s := s.replayAll ((im.skeins.filter fun x => x.sk.slot.isSome).flatMap (·.replay))
  let s := ((im.mats.map fun m => (s.team m.team).core).dedup).foldl State.fillCore s
  (((s.setState c .running).ctxEvent c 0x23).signalCtx c).tryIdle c

/-- R399: the skein a single step is for: of the first grid launched that has the team. -/
def State.stepTarget (s : State) (c : Nat) : Option Nat :=
  let d := (s.ctx c).dbg
  let teams := s.teams.filter fun t => t.ctx == c && t.grid.isSome && t.index == d.team.toNat
  match minBy (fun (t : Team) => ((s.gridOf t).map (·.order)).getD 0) teams with
  | none => none
  | some t => (s.skeins.find? fun k => k.team == t.uid && k.index == d.skn.toNat && !k.live.isEmpty).map (·.uid)

/-- RESTORE_PLACE (R43, R94, R268, R353). -/
def execRestorePlace (ctx : Nat) (s : State) : Host.Outcome State Fault Refusal :=
  let c := s.ctx ctx
  match c.image with
  | none => .next s
  | some im =>
    if c.state != .restoring then .next s
    else
      match s.seatImage im with
      | none => .next s
      | some s' =>
        let s := s'.endRestore ctx im
        .next (s.updCtx ctx fun x => { x with dbg := { x.dbg with
          step := x.dbg.step.map fun st => { st with sk := s.stepTarget ctx, since := some s.now } } })

/-- AUTO_RESTORE (R353): a context that a priority-3 placement saved comes back once all its teams can be placed and no
priority-3 team of another context is pending. -/
def execAutoRestore (ctx : Nat) (s : State) : Host.Outcome State Fault Refusal :=
  let c := s.ctx ctx
  let other := s.grids.any fun g => g.prio == 3 && g.ctx != ctx && s.pending c.part g
  match c.image with
  | none => .next s
  | some im =>
    .next (if c.state != .saved || !c.dev || c.dbg.att || other || (s.seatImage im).isNone then s else s.beginRestore ctx)

/-! ### The watchdog (R341) -/

/-- R341: the ticks that count for a skein. -/
def State.idleTicks (s : State) (k : Skein) : Nat := k.idle + (s.now - k.idleAt)

/-- R341: the watchdog counts for a skein. -/
def State.watched (s : State) (k : Skein) : Bool :=
  let c := s.ctx k.ctx
  c.wdog != 0 && c.state == .running && c.halting.isNone && !c.dbg.att && !k.conductor && k.slot.isSome && !k.sleeping &&
    k.escalated.isNone && !k.live.isEmpty

/-- R341: the ticks without an issue that a skein's context allows. -/
def State.patience (s : State) (k : Skein) : Nat := (s.ctx k.ctx).wdog.toNat * 1024

/-- R341: the watchdog's time at a skein is up. -/
def State.watchdogDue (s : State) (k : Skein) : Bool := s.watched k && decide (s.patience k ≤ s.idleTicks k)

/-- A wait whose arrivals stay counted (R341). -/
def WaitKind.counted : WaitKind → Bool
  | .bar .. | .gbar .. => true
  | _ => false

/-- R341: the trap, with the wait that the trapped group has left. -/
def State.watchdogTrap (s : State) (i : Issue) (w : Option Wait) : State :=
  let was := (s.sk i.sk).handler.isSome
  let kept := w.filter (·.kind.counted)
  let s := { s with issue := i }.takeTrap { kind := 0x0F, aux := if kept.isSome then 1 else 0 }
  s.updSk i.sk fun k =>
    { k with
      idle := 0, idleAt := s.now
      handler := if was then k.handler else k.handler.map fun h => { h with counted := kept } }

/-- The held fault of a wait is no longer asked for (R363). -/
def State.dropFault (s : State) (c : Nat) (w : Wait) : State :=
  match w.kind with
  | .replay seq => s.updCtx c fun x => { x with faults := x.faults.filter fun f => f.seq != seq }
  | _ => s

/-- The waits of a skein whose groups may act, the lowest PC first. -/
def Skein.lowestWait (k : Skein) : Option Wait :=
  minBy (fun w => w.issue.pc.toNat) (k.waits.filter fun w => k.standsIn w && k.mayAct w)

/-- The next instruction of a selected group, whether or not it can issue; at a header whose words have not come, the header. -/
def State.nextIssue (s : State) (k : Skein) (p : Pick) : Option Issue :=
  let t := (s.picked k p).thread p.lane
  match t.clause with
  | some c => (decodeHeader c.word).map fun h => mkIssue k p.mask c.hdr c.word h c.body t.pc c.slot c.serial t.rep
  | none =>
    match readClause (s.l0Word k) t.pc with
    | .ok w h body => some (mkIssue k p.mask t.pc w h body (t.pc + 4) 0 (k.issues + 1) none)
    | _ => some (headerIssue k.uid p.mask t.pc)

/-- A group of a skein can issue: what it would do next is an instruction that no limit holds (R25), as the step has found. -/
def State.canIssue (s : State) (k : Skein) : Bool :=
  match s.plan k with
  | .go .. => !s.blocked
  | _ => false

/-- WATCHDOG_FIRE (R341): at a group that can issue, else at the waiting group of lowest PC; where no group waits, at the group that
stands next (DESIGN CHOICE, log 92). -/
def execWatchdogFire (sk : Nat) (s : State) : Host.Outcome State Fault Refusal :=
  let s0 := { s with blocked := false }
  match s.sk? sk with
  | none => .next s0
  | some k =>
    if !s.watchdogDue k then .next s0
    else
      match if s.canIssue k then none else k.lowestWait with
      | some w =>
        let i := { w.issue with sk := sk, mask := laneMask (k.inWait w.id) }
        .next ((((s0.dropFault k.ctx w).dropPanel sk w.id).updSk sk fun k => k.dropWait w.id).watchdogTrap i (some w))
      | none =>
        .next (match (s.pick k).bind (s.nextIssue k) with
          | some i => s0.watchdogTrap i none
          | none => s0)

end Sys2Proof.Machine
end

