-- ==== Sys2Proof/Machine/Device.lean ====
section
/-!
DEFINITION. Bring-up and reset (R346, R347), host memory accesses (R338, R369), invalidation of translations (R362), and the
driver's answers to held faults and held writes of the device (R363, R364).
-/

namespace Sys2Proof.Machine

/-! ### The configuration record (R346, R347) -/

/-- Bytes of the staging area. -/
def State.staging (s : State) : List Byte := s.mem.readN (stagingKey 0) 65536

/-- Every byte of a range is zero. -/
def zeros (r : List Byte) (lo n : Nat) : Bool := ((r.drop lo).take n).all (· == 0)

/-- R347: (lowest, highest) frequency code of partition p. -/
def recClock (r : List Byte) (p : Nat) : Nat × Nat := (recField r (0x20 + 2 * p) 1, recField r (0x21 + 2 * p) 1)

/-- R347: the clock ranges and the protected set. -/
def recPartsOk (r : List Byte) (mode : Nat) : Bool :=
  (List.range 48).all fun p =>
    let (lo, hi) := recClock r p
    let prot := (BitVec.ofNat 64 (recField r 0x80 8)).getLsbD p
    if p < mode then decide (lo ≤ hi) && decide (hi ≤ 26) && (!prot || (decide (lo ≤ 18) && decide (18 ≤ hi)))
    else lo == 0 && hi == 0 && !prot

/-- R347: every field inside its limits, every reserved byte zero. -/
def recFieldsOk (r : List Byte) : Bool :=
  let L := recField r 0xC 4
  let mode := recField r 0x10 1
  let off := recField r 0x88 4
  let len := recField r 0x8C 4
  recField r 0 4 == 0x47435231 && recField r 4 2 == 1 && zeros r 6 2 &&
    decide (1024 ≤ L) && decide (L ≤ 65536) && decide (L % 16 = 0) &&
    [1, 4, 12, 24, 48].contains mode && decide (recField r 0x11 1 ≤ 192) && zeros r 0x12 2 &&
    decide (recField r 0x14 4 < 2 ^ 18) && (BitVec.ofNat 16 (recField r 0x18 2)).extractLsb' 9 6 == 0 && zeros r 0x1A 6 &&
    recPartsOk r mode && decide (recField r 0x80 8 < 2 ^ 48) &&
    decide (off % 16 = 0) && decide (0x100 ≤ off) && decide (off + len ≤ L - 384) && zeros r 0x90 112 &&
    (decide (len < 4) || zeros r (off + 2) 2) &&
    zeros r (off + len) (L - 384 - (off + len))

/-- The record as the device keeps it. -/
def recordOf (r : List Byte) : Record :=
  let mode := recField r 0x10 1
  { version := BitVec.ofNat 32 (recField r 8 4), mode := mode, vfs := recField r 0x11 1
    ports := BitVec.ofNat 18 (recField r 0x14 4), domain := BitVec.ofNat 9 (recField r 0x18 2)
    master := (BitVec.ofNat 16 (recField r 0x18 2)).getLsbD 15
    clocks := (List.range mode).map (recClock r)
    prot := (List.range mode).map fun p => (BitVec.ofNat 64 (recField r 0x80 8)).getLsbD p
    chain := (r.drop (recField r 0x88 4)).take (recField r 0x8C 4)
    raw := r.take (recField r 0xC 4) }

/-- R346, R347: the outcome of a record; the signature stands in its last 384 bytes, over all before them. -/
def bootVerdict (r : List Byte) : Byte :=
  let L := recField r 0xC 4
  if !Config.recordSigned (r.take (L - 384)) ((r.drop (L - 384)).take 384) then 1
  else if (BitVec.ofNat 32 (recField r 8 4)) < Config.versionFloor then 2
  else if !recFieldsOk r then 3
  else 0

/-- R366: where CLOCK resets to: 18, or the nearer end of the partition's range. -/
def resetClock (range : Nat × Nat) : Nat := max range.1 (min 18 range.2)

/-- R366: the block of a partition at reset. -/
def Record.block (r : Record) (p : Nat) : Partition :=
  { num := p, prot := r.prot.getD p false, clock := resetClock (r.clocks.getD p (18, 18)) }

/-- R379: the ports that a record enables train, a change that each of them signals; a HOLD written before stays. -/
def State.trainPorts (s : State) (mask : BitVec 18) : State :=
  (List.range 18).foldl (fun s n =>
    let hold := ((s.ports.find? fun p => p.num == n).map (·.hold)).getD false
    let on := mask.getLsbD n
    let s : State := { s with ports := (s.ports.filter fun p => p.num != n) ++ [{ num := n, state := if on then 1 else 0, hold := hold }] }
    if on then s.signal 0 (s.ubMsix.toNat % 2048) else s) s

/-- R346, R365, R379: the device configured: the partitions' blocks, the ports that train. -/
def State.configure (s : State) (r : Record) : State :=
  { s.trainPorts r.ports with
    record := some r
    partitions := (List.range r.mode).map r.block
    power := (List.range Config.clusters).map fun c =>
      let b := r.block (c / (96 / max r.mode 1))
      { s.powerOf c with freq := BitVec.ofNat 5 b.clock, u := if b.prot then 0 else (s.powerOf c).u } }

/-- BOOT_CONFIGURE (R346): a write of 1 to BOOTCTL while unconfigured. -/
def State.boot (s : State) (value : Lane) : State :=
  if value != 1 || s.record.isSome then s
    else
      let r := s.staging
      let code := bootVerdict r
      if code = 0 then { s.configure (recordOf r) with bootCode := 0 } else { s with bootCode := code }

/-- BOOT_CONFIGURE. -/
def execBootConfigure (value : Lane) (s : State) : Host.Outcome State Fault Refusal := .next (s.boot value)

/-- DEVICE_RESET (R346): everything at reset; well and host memory keep their bytes, and domain time does not fall back (R95): the
windows that count its ticks begin anew (log 4). -/
def execDeviceReset (s : State) : Host.Outcome State Fault Refusal :=
  .next { State.reset with
    now := s.now
    mem := s.mem.filter fun c => isWell c.1 || isHost c.1
    poisoned := s.poisoned.filter fun g => isWell (8 * g) || isHost (8 * g)
    lineKeys := s.lineKeys
    dowserAt := s.now
    power := (List.range Config.clusters).map fun c => { cluster := c, since := s.now }
    powerAt := s.now
    telemetryAt := s.now
    msixLog := s.msixLog
    attest := s.attest
    agenda := s.agenda
    freeCtr := s.freeCtr
    idCtr := s.idCtr }

/-! ### The host's memory accesses (R338, R366, R369) -/

/-- The lines of a range are held by their homes now, in slices of a partition (R66, R365). -/
def State.touchRange (s : State) (part key n : Nat) : State :=
  (List.range ((key + n + 127) / 128 - key / 128)).foldl (fun s i => s.fillHome (key / 128 + i) part 0) s

/-- Bytes written by the host within one 2 MiB frame: under the owner's key; dropped in a protected partition's (R369). -/
def State.frameWrite (s : State) (addr : Nat) (bs : List Byte) : State :=
  match s.ownerOf (addr / 2 ^ 21) with
  | none =>
    { s with
      mem := s.mem.writeN addr bs
      poisoned := s.poisoned.filter fun g => !(decide (addr ≤ 8 * g) && decide (8 * g + 8 ≤ addr + bs.length)) }
  | some p => if s.protected p then s else (s.store p addr bs).touchRange p addr bs.length

/-- The parts of a range, each within one frame of 2 MiB: its address, and where it begins and how long it is. -/
def framePieces (addr n : Nat) : List (Nat × Nat × Nat) :=
  (List.range ((addr + n + 2097151) / 2097152 - addr / 2097152)).map fun i =>
    let lo := max addr ((addr / 2097152 + i) * 2097152)
    let hi := min (addr + n) ((addr / 2097152 + i + 1) * 2097152)
    (lo, lo - addr, hi - lo)

/-- Bytes written by the host to well memory, each frame judged on its own (R369). -/
def State.hostWrite (s : State) (addr : Nat) (bs : List Byte) : State :=
  (framePieces addr bs.length).foldl (fun s x => s.frameWrite x.1 ((bs.drop x.2.1).take x.2.2)) s

/-- Well memory read by the host: lines of frames that no protected partition owns are held by their homes (R66, R369). -/
def State.hostRead (s : State) (addr n : Nat) : State :=
  (framePieces addr n).foldl (fun s x =>
    match s.ownerOf (x.1 / 2 ^ 21) with
    | some p => if s.protected p then s else s.touchRange p x.1 x.2.2
    | none => s) s

/-- HOST_MEM_ACCESS (R66, R338, R369): to host memory, or through CXL.mem to well memory. -/
def execHostMemAccess (host : Bool) (addr : Nat) (write : Option (List Byte)) (len : Nat) (s : State) :
    Host.Outcome State Fault Refusal :=
  let n := match write with | some bs => bs.length | none => len
  .next (if host then
      (if 2 ^ 52 < addr + n then s
       else match write with
         | some bs => s.store 0 (hostKey addr) bs
         | none => s)
    else if s.record.isNone || wellTop < addr + n then s
    else match write with
      | some bs => s.hostWrite addr bs
      | none => s.hostRead addr n)

/-! ### Invalidation (R362) -/

/-- Fields of INVCTL. -/
def invCtx (v : Lane) : Nat := (v.extractLsb' 0 11).toNat
/-- The scope. -/
def invScope (v : Lane) : BitVec 2 := v.extractLsb' 12 2
/-- The function. -/
def invVf (v : Lane) : Nat := (v.extractLsb' 16 8).toNat

/-- R362: what an invalidation covers: a context, a virtual address of it, a function. -/
def invHits (v addr : Lane) (ctx : Nat) (vf : Option Nat) (page size : Nat) : Bool :=
  if invScope v = 0 then ctx == invCtx v && decide (page ≤ va57 addr) && decide (va57 addr < page + size)
  else if invScope v = 1 then ctx == invCtx v
  else vf == some (invVf v)

/-- The function a context belongs to. -/
def State.vfOf (s : State) (c : Nat) : Option Nat := (s.ctx c).vf.map (·.1)

/-- R362: a write of INVCTL. What the entries it removes covered adds to that of an invalidation not yet complete. -/
def State.invalidate (s : State) (v : Lane) : State :=
  if !v.getLsbD 31 then s
  else if invScope v = 3 || (invScope v = 2 && decide (191 < invVf v)) then { s with barErr := 0x0A }
  else
    let hit (e : TlbEntry) : Bool := invHits v s.invAddr e.ctx e.vf e.page e.size
    { s with
      tlb := s.tlb.filter fun e => !hit e
      invGone := (if s.invCtl.getLsbD 63 then [] else s.invGone) ++ (s.tlb.filter hit).map fun e => (e.ctx, e.page, e.size)
      invCtl := v.extractLsb' 0 32 |>.setWidth 64
      invFrom := s.idCtr }

/-- TLB_INVALIDATE (R362). -/
def execTlbInvalidate (value : Lane) (s : State) : Host.Outcome State Fault Refusal := .next (s.invalidate value)

/-- An access that may have used an entry that was invalidated (R362). -/
def State.invOpen (s : State) (a : Access) : Bool :=
  decide (a.id < s.invFrom) && !a.done && (match a.place with | .global | .peer _ => true | _ => false) &&
    a.lanes.any fun x => s.invGone.any fun g => g.1 == a.ctx && decide (g.2.1 ≤ va57 x.va) && decide (va57 x.va < g.2.1 + g.2.2)

/-- A message of an engine, not yet answered, whose unit may have used an entry that was invalidated (R362). -/
def State.invSent (s : State) (o : EngineOp) : Bool :=
  ((o.asked.filter fun m => !(o.heard.any fun h => h.1 == m.num)) ++ o.outs).any fun m =>
    decide (m.id < s.invFrom) && s.invGone.any fun g => g.1 == o.ctx && decide (g.2.1 ≤ va57 m.va + 127) && decide (va57 m.va < g.2.1 + g.2.2)

/-- INVALIDATION_COMPLETE (R362). -/
def execInvalidationComplete (s : State) : Host.Outcome State Fault Refusal :=
  .next (if s.invCtl.getLsbD 31 && !s.invCtl.getLsbD 63 && !(s.accesses.any s.invOpen) && !(s.ops.any s.invSent) then
    { s with invCtl := s.invCtl ||| (1 <<< 63) } else s)

/-! ### The driver's answers (R363, R364) -/

/-- The held fault of a sequence number. -/
def State.fault? (s : State) (c seq : Nat) : Option HeldFault := (s.ctx c).faults.find? fun f => f.seq == seq

/-- A held fault answered. -/
def State.clearFault (s : State) (c seq : Nat) : State :=
  s.updCtx c fun x => { x with faults := x.faults.filter fun f => f.seq != seq }

/-- The wait of a skein for the driver's answer. -/
def Skein.replayWait (k : Skein) (seq : Nat) : Option Wait := k.waits.find? fun w => w.kind == .replay seq

/-- A skein's instruction issues again as a whole; the retries at its PC are counted (R363, R403). -/
def Skein.retry (k : Skein) (w : Wait) : Skein :=
  { k.dropWait w.id with retries := (w.issue.pc, if k.retries.1 = w.issue.pc then k.retries.2 + 1 else 1) }

/-- A grid of a context, resident or in its saved image (R356, R364). -/
def State.answerGrid (s : State) (c g : Nat) (f : Grid → Grid) : State :=
  (s.updGrid g f).updCtx c fun x =>
    { x with image := x.image.map fun (im : Image) => { im with grids := im.grids.map fun (y : Grid) => if y.uid == g then f y else y } }

/-- R363: a held fault retried. -/
def State.retryFault (s : State) (c : Nat) (f : HeldFault) : State :=
  match f.sk, f.op, f.acc, f.grid with
  | some u, _, _, _ =>
    match (s.sk u).replayWait f.seq with
    | some w => s.updSk u fun k => k.retry w
    | none => s
  | _, some o, _, _ => s.updOp o fun x => { x with held := none }
  | _, _, some a, _ =>
    match s.accesses.find? fun x => x.id == a with
    | some x => (s.countReplay x).replayAccess x
    | none => s
  | _, _, _, some g => s.answerGrid c g fun x => { x with held := none }
  | _, _, _, _ => s

/-- R115, R363, R364: a held fault failed. -/
def State.failFault (s : State) (c : Nat) (f : HeldFault) : State :=
  match f.sk, f.op, f.acc, f.grid with
  | some u, _, _, _ =>
    match (s.sk u).replayWait f.seq with
    | some w =>
      let i := { w.issue with sk := u, mask := laneMask ((s.sk u).inWait w.id) }
      { s.updSk u fun k => k.dropWait w.id with issue := i }.takeTrap { kind := 3, addr := f.addr, aux := f.kind.setWidth 64 }
    | none => s
  | _, some o, _, _ => (s.endEngine o 1 f.addr).updOp o fun x => { x with held := none }
  | _, _, some a, _ =>
    match s.accesses.find? fun x => x.id == a with
    | some x => s.failEntry x (.replay f.addr x.entryKind)
    | none => s
  | _, _, _, some g => s.answerGrid c g fun x => { x with held := none, failed := true }
  | _, _, _, _ => s

/-- Records that waited behind a held write, attempted in order. -/
def State.drainRecords (s : State) (c : Nat) (ds : List DevWrite) : State :=
  ds.foldl (fun s d => if d.kind = 1 then s else s.putRecord c d.kind d.bytes) s

/-- R364: a held write of the device retried. -/
def State.retryWrite (s : State) (c : Nat) : State :=
  match (s.ctx c).held with
  | none => s
  | some d =>
    let q := (s.ctx c).queued
    let s := s.updCtx c fun x => { x with held := none, queued := [], dfKind := 0 }
    let s := s.drainRecords c (d :: q)
    let x := s.ctx c
    if d.kind = 1 && x.state == .saved then s.reseal c
    else if d.kind = 1 && x.state == .saving && x.halted && x.held.isNone then
      match s.recordsMiss c (s.sealImage c (x.saveCnt + 1).toNat).1 with
      | some a => s.holdDev c ⟨1, a, []⟩
      | none => s.saveContext c
    else s

/-- R364: a held write of the device failed: the save is abandoned, that of a swap-out with its context too (R353), or the record is
lost. -/
def State.failWrite (s : State) (c : Nat) : State :=
  match (s.ctx c).held with
  | none => s
  | some d =>
    let q := (s.ctx c).queued
    let s := s.updCtx c fun x => { x with held := none, queued := [], dfKind := d.kind.setWidth 8 }
    let s := if d.kind != 1 then s.updCtx c Context.drop
      else if (s.ctx c).state = .saving || (s.ctx c).state = .running then (s.endKill c).ctxErr c 8 else s
    s.drainRecords c q

/-- FAULT_RETRY (R363, R364). -/
def State.answerRetry (s : State) (ctx : Nat) (seq : BitVec 32) : State :=
  if seq = 0xFFFFFFFF then s.retryWrite ctx
    else
      match s.fault? ctx seq.toNat with
      | some f => (s.clearFault ctx seq.toNat).retryFault ctx f
      | none => s

/-- FAULT_RETRY. -/
def execFaultRetry (ctx : Nat) (seq : BitVec 32) (s : State) : Host.Outcome State Fault Refusal := .next (s.answerRetry ctx seq)

/-- FAULT_FAIL (R363, R364). -/
def State.answerFail (s : State) (ctx : Nat) (seq : BitVec 32) : State :=
  if seq = 0xFFFFFFFF then s.failWrite ctx
    else
      match s.fault? ctx seq.toNat with
      | some f => (s.clearFault ctx seq.toNat).failFault ctx f
      | none => s

/-- FAULT_FAIL. -/
def execFaultFail (ctx : Nat) (seq : BitVec 32) (s : State) : Host.Outcome State Fault Refusal := .next (s.answerFail ctx seq)

end Sys2Proof.Machine
end

