-- ==== Sys2Proof/Machine/Partition.lean ====
section
/-!
DEFINITION. Partitions (R365 to R370), protected partitions (R371, R372), attestation (R373), the heartbeat and the lost state
(R374, R375).
-/

namespace Sys2Proof.Machine

/-! ### The partition block (R366) -/

/-- The error field of a partition block. -/
def State.partErr (s : State) (p : Nat) (e : Byte) : State := s.updPart p fun x => { x with err := e }

/-- A command of PCTL: refused without effect, or run (R366, R372). -/
def State.partCmd (s : State) (p : Nat) (release : Bool) (ok : Bool) (run : State → State) : State :=
  if s.mode ≤ p then s
  else if s.locked p then s.partErr p 7
  else if (s.part p).rek && !release then s.partErr p 5
  else if !ok then s.partErr p 4
  else run (s.partErr p 0)

/-- The clusters of a partition (R365). -/
def State.clustersOf (s : State) (p : Nat) : List Nat := (List.range Config.clusters).filter fun c => s.partOfCluster c == p

/-- R373: what the measurement of a block covers: mode, FRAMEd, REACH, PROT, DOWSER. -/
def Partition.measures (p : Partition) (mode : Nat) : List Byte :=
  toBytes 1 mode ++ (p.frames.flatMap fun f => toBytes 4 f.1 ++ toBytes 4 f.2) ++
    (List.range 64).map (fun i => BitVec.ofNat 8 ((List.range 8).foldl (fun a j => a + if p.reach.getD (8 * i + j) false then 2 ^ j else 0) 0)) ++
    [if p.prot then 1 else 0, if p.dowser then 1 else 0]

/-- PARTITION_ACTIVATE (R289, R366, R368, R373): keys are drawn, and every cluster's copy of sys.slew takes its reset value. -/
def State.activate (s : State) (part : Nat) : State :=
  let p := s.part part
  s.partCmd part false (p.state == .idle && p.frames.any fun f => f.2 != 0) fun s =>
    let (key, s) := s.fresh
    let (root, s) := s.fresh
    { s with slews := s.slews.filter fun x => s.partOfCluster x.1 != part }.updPart part fun x =>
      { x with state := .active, memKey := key, imgKey := root, slewWrites := [], measured := x.measures s.mode }

/-- PARTITION_ACTIVATE. -/
def execPartitionActivate (part : Nat) (s : State) : Host.Outcome State Fault Refusal := .next (s.activate part)

/-- R370: the first position of a sweep from a die on: dies without frames are passed. -/
def Partition.sweepFrom (p : Partition) (die line : Nat) : Nat × Nat :=
  match (List.range 4).find? fun d => decide (die ≤ d) && decide ((if d = die then line else 0) < (p.frames.getD d (0, 0)).2 * 16384) with
  | some d => (d, if d = die then line else 0)
  | none => (4, 0)

/-- PARTITION_REKEY (R370). -/
def State.rekey (s : State) (part : Nat) : State :=
  s.partCmd part false ((s.part part).state == .active) fun s =>
    let (key, s) := s.fresh
    s.updPart part fun x =>
      { x with oldKey := x.memKey, memKey := key, rek := true, sweepDie := (x.sweepFrom 0 0).1, sweepLine := (x.sweepFrom 0 0).2 }

/-- PARTITION_REKEY. -/
def execPartitionRekey (part : Nat) (s : State) : Host.Outcome State Fault Refusal := .next (s.rekey part)

/-- Every cached line and translation tagged with a partition is gone (R366, R368, R374). -/
def State.purge (s : State) (part : Nat) : State :=
  { s with
    copies := s.copies.filter fun x => x.owner != part
    homes := s.homes.map fun (h : HomeLine) => if h.owner == part then { h with cached := false, keep := false, early := false } else h
    ilines := s.ilines.filter fun x => x.owner != part
    tlb := s.tlb.filter fun x => x.owner != part }

/-- PARTITION_RELEASE (R366). -/
def State.releasePart (s : State) (part : Nat) : State :=
  let p := s.part part
  let free := s.contexts.all fun c => c.part != part || c.state == .free
  s.partCmd part true ((p.state == .active || p.state == .lost) && free) fun s =>
    (s.purge part).updPart part fun _ => match s.record with | some r => r.block part | none => { num := part }

/-- PARTITION_RELEASE. -/
def execPartitionRelease (part : Nat) (s : State) : Host.Outcome State Fault Refusal := .next (s.releasePart part)

/-! ### CLOCK (R366, R393) -/

/-- R392, R393: a cluster steps towards a frequency code, one step per 20 ticks. -/
def State.aimFreq (s : State) (cluster : Nat) (code : BitVec 5) : State :=
  s.updPower cluster fun p =>
    if p.freq = code then { p with target := none }
    else { p with target := some code, stepAt := if p.target.isSome then p.stepAt else s.now + 20 }

/-- PARTITION_CLOCK_WRITE (R366, R393): a lower target steps the clusters down at once. -/
def State.clockWrite (s : State) (part : Nat) (code : Lane) : State :=
  let p := s.part part
  let range := match s.record with | some r => r.clocks.getD part (0, 26) | none => (0, 26)
  if s.mode ≤ part then s
  else if s.locked part then s.partErr part 7
  else if p.prot || p.state != .idle then s.partErr part 1
  else if 26 < code.toNat || code.toNat < range.1 || range.2 < code.toNat then s.partErr part 3
  else
    let s := s.updPart part fun x => { x with clock := code.toNat }
    (s.clustersOf part).foldl (fun s c =>
      if code.toNat < ((s.powerOf c).target.getD (s.powerOf c).freq).toNat then s.aimFreq c (BitVec.ofNat 5 code.toNat) else s) s

/-- PARTITION_CLOCK_WRITE. -/
def execPartitionClockWrite (part : Nat) (code : Lane) (s : State) : Host.Outcome State Fault Refusal := .next (s.clockWrite part code)

/-! ### The sweep (R370) -/

/-- The line at a place of the sweep, moves under way (R370, R79). -/
def State.lineAt (s : State) (die frame off : Nat) : Nat :=
  let page := match s.moves.find? fun m => m.die == die && m.frame == frame && m.copied off with
    | some m => m.page
    | none =>
      match s.moves.find? fun m => s.frameOf m.page == (die, frame) && m.copied off with
      | some m => s.pageAt m.die m.frame
      | none => s.pageAt die frame
  page * 16384 + off

/-- R370: a line read under the old key and written under the new one. -/
def State.rekeyLine (s : State) (part line : Nat) : State :=
  let p := s.part part
  { s with
    mem := s.mem.writeN (line * 128) (s.load part (line * 128) 128)
    lineKeys := (line, p.memKey) :: s.lineKeys.filter fun x => x.1 != line }

/-- KEY_SWEEP_LINE (R370): one line, and after the last the end of the sweep. -/
def execKeySweepLine (part : Nat) (s : State) : Host.Outcome State Fault Refusal :=
  let p := s.part part
  if !p.rek then .next s
  else
    let s := if p.sweepDie < 4 then
        s.rekeyLine part (s.lineAt p.sweepDie ((p.frames.getD p.sweepDie (0, 0)).1 + p.sweepLine / 16384) (p.sweepLine % 16384))
      else s
    let (d, l) := p.sweepFrom p.sweepDie (p.sweepLine + 1)
    .next (if d < 4 then s.updPart part fun x => { x with sweepDie := d, sweepLine := l }
      else (s.updPart part fun x => { x with rek := false, oldKey := 0, sweepDie := 0, sweepLine := 0 }).signal 0 (p.pmsix.toNat % 2048))

/-! ### Protected partitions (R371, R372) -/

/-- SLICE_BOUNDARY (R371): the saves that waited for it begin to halt, at the boundary's tick. -/
def execSliceBoundary (part : Nat) (s : State) : Host.Outcome State Fault Refusal :=
  let p := s.part part
  let at' := s.now / max p.slice 1 * p.slice
  .next (if !p.prot || p.slice = 0 || at' ≤ p.sliceAt then s
    else
      let s := s.updPart part fun x => { x with sliceAt := at' }
      { s with contexts := s.contexts.map fun (c : Context) =>
          if c.part == part && c.state == .saving && c.halting.isNone then { c with halting := some at' } else c })

/-- TDISP_LOCK (R372): the interface of an unlocked function goes to CONFIG_LOCKED with the partitions it has; the next request, of
a locked one, starts it: RUN. -/
def execTdispLock (vf : Nat) (s : State) : Host.Outcome State Fault Refusal :=
  let put (st : Byte) (ps : List Nat) : State := { s with tdisp := (vf, st, ps) :: s.tdisp.filter fun x => x.1 != vf }
  .next (if 192 ≤ vf then s
    else if s.tdispOf vf == 0 then put 1 (s.partsOfVf vf)
    else if s.tdispOf vf == 1 then put 2 (((s.tdisp.find? fun x => x.1 == vf).map (·.2.2)).getD [])
    else s)

/-! ### Attestation (R373) -/

/-- An answer sent to the requester. -/
def State.answer (s : State) (bs : List Byte) : State := { s with attest := s.attest ++ [bs] }

/-- R373: the partition a request through a function is about: that of its contexts in use first, else one it had when it was locked,
else one a free context of it is assigned to (log 88). -/
def State.vfTenant (s : State) (vf : Nat) : Option Nat :=
  let used := (s.contexts.filter fun c => (match c.vf with | some (v, _) => v == vf | none => false) && c.state != .free).map (·.part)
  (used ++ (s.tdisp.filter (·.1 == vf)).flatMap (·.2.2) ++ s.partsOfVf vf).head?

/-- R373: a measurement: of the firmware, of the accepted record, of the block at activate of the requester's partition, and the
interface report of a function (its number, state and partitions). -/
def State.measurement (s : State) (index part vf : Nat) : List Byte :=
  match index with
  | 1 => Config.sha256 Config.firmware
  | 2 => Config.sha256 ((s.record.map (·.raw)).getD [])
  | 3 => Config.sha256 (s.part part).measured
  | _ => toBytes 1 vf ++ [s.tdispOf vf] ++ (s.partsOfVf vf).map (BitVec.ofNat 8)

/-- GET_MEASUREMENTS (R373): indices 1 to 4, signed; the requester's partition is that of the function it asks through, and index 3 of a
function that has none gets no answer (log 88). -/
def execGetMeasurements (index vf : Nat) (s : State) : Host.Outcome State Fault Refusal :=
  let reply (part : Nat) : State := s.answer (Config.attestation 1 (index :: (s.measurement index part vf).map (·.toNat)))
  .next (if index = 0 || 4 < index then s
    else if index != 3 then reply 0
    else ((s.vfTenant vf).map reply).getD s)

/-- CHALLENGE (R373): a signed answer that covers the nonce. -/
def execChallenge (nonce : List Byte) (s : State) : Host.Outcome State Fault Refusal :=
  .next (s.answer (Config.attestation 2 (nonce.map (·.toNat))))

/-- GET_CERTIFICATE (R373): the record's chain, when its leaf holds the device's own key. -/
def execGetCertificate (s : State) : Host.Outcome State Fault Refusal :=
  .next (match s.record with
    | some r => if Config.ownLeaf r.chain then s.answer r.chain else s
    | none => s)

/-! ### The heartbeat (R374, R375) -/

/-- A power of two from 2^lo to 2^hi. -/
def pow2In (n lo hi : Nat) : Bool := (List.range (hi + 1)).any fun i => decide (lo ≤ i) && n == 2 ^ i

/-- SESSION_OPEN (R371, R374): the tenant sets the heartbeat period and the slice. -/
def execSessionOpen (part : Nat) (h slice : Nat) (s : State) : Host.Outcome State Fault Refusal :=
  let p := s.part part
  let busy := s.contexts.any fun c => c.part == part && c.state.counts
  .next (if !p.prot || p.state != .active || p.session || h < 2 ^ 16 || 2 ^ 30 < h || !pow2In slice 16 24 then s
    else s.updPart part fun x =>
      { x with session := true, hb := h, slice := slice, deadline := s.now + h, sliceAt := s.now / slice * slice
               idleSince := if busy then none else some s.now })

/-- R374: the deadline with the time in which no context counted. -/
def State.deadlineOf (s : State) (p : Partition) : Nat :=
  match p.idleSince with
  | some t => p.deadline + (s.now - t)
  | none => p.deadline

/-- HEARTBEAT (R374): accepted below the deadline only. -/
def execHeartbeat (part : Nat) (s : State) : Host.Outcome State Fault Refusal :=
  let p := s.part part
  .next (if !p.session || p.state != .active || s.deadlineOf p ≤ s.now then s
    else s.updPart part fun x => { x with deadline := s.now + x.hb, idleSince := x.idleSince.map fun _ => s.now })

/-- R374: nothing of a partition is left in its clusters. -/
def State.scrub (s : State) (part : Nat) : State :=
  let mine (core : Nat) : Bool := s.partOfCluster (clusterOf core) == part
  let cores := (List.range Config.cores).filter mine
  let inScratch (k : Nat) : Bool := cores.any fun c => decide (scratchKey c 0 ≤ k) && decide (k < scratchKey c 0 + 2 ^ 20)
  let s := (s.seeps.filter fun i => s.partOfCluster i.cluster == part).foldl State.dropSeep s
  { s with
    mem := s.mem.filter fun c => !inScratch c.1
    poisoned := s.poisoned.filter fun g => !inScratch (8 * g)
    scratchOf := s.scratchOf.filter fun x => !mine x.1
    accs := s.accs.filter fun a => !mine a.core }

/-- R374: stores that contexts have sent are performed, and what would come back for them is dropped. -/
def State.flushStores (s : State) (cs : List Nat) : State :=
  let mine := s.accesses.filter fun a => cs.contains a.ctx
  let s := (mine.filter fun a => !a.done && !a.kind.reads && a.held.isNone && !a.place.isPeer && a.beyond.isNone).foldl State.perform s
  { s with accesses := s.accesses.filter fun a => !cs.contains a.ctx }

/-- R374: the partition's session is lost: the contexts' skeins are gone, stores sent are performed, then everything is wiped. -/
def State.lose (s : State) (part : Nat) : State :=
  let cs := (s.contexts.filter fun c => c.part == part && c.state != .free).map (·.num)
  let s := cs.foldl (fun s c => (s.discard c).dropAlter c) (s.flushStores cs)
  let s := (s.scrub part).purge part
  let s : State := { s with contexts := s.contexts.map fun (c : Context) => if cs.contains c.num then { c with state := .lost, faults := [], held := none, queued := [] } else c }
  (s.updPart part fun x =>
    { x with state := .lost, memKey := 0, oldKey := 0, imgKey := 0, rek := false, session := false, idleSince := none
             sweepDie := 0, sweepLine := 0 }).signal 0 ((s.part part).pmsix.toNat % 2048)

/-- HEARTBEAT_DEADLINE (R374). -/
def execHeartbeatDeadline (part : Nat) (s : State) : Host.Outcome State Fault Refusal :=
  let p := s.part part
  .next (if p.session && p.idleSince.isNone && decide (p.deadline ≤ s.now) then s.lose part else s)

end Sys2Proof.Machine
end

