-- ==== Sys2Proof/Machine/Dowser.lean ====
section
/-!
DEFINITION. The Dowser: the evaluation of its counters and the moves of regions between dies (R77 to R80).
-/

namespace Sys2Proof.Machine

/-! ### The evaluation (R77, R78) -/

/-- Counts of the four dies for a region. -/
def State.counts (s : State) (region : Nat) : List Nat :=
  ((s.dowser.find? fun x => x.region == region).map (·.counts)).getD [0, 0, 0, 0]

/-- R78: the die with the largest count, the lowest on a tie. -/
def bestDie (cs : List Nat) : Nat := [1, 2, 3].foldl (fun b d => if cs.getD b 0 < cs.getD d 0 then d else b) 0

/-- R78: whether regions homed on die h, with these counts, belong on die d. -/
def wantsDie (cs : List Nat) (h d : Nat) : Bool := decide (4096 ≤ cs.getD d 0) && decide (2 * cs.getD h 0 ≤ cs.getD d 0)

/-- A page holds nothing: no byte of it is listed, no line of it was written under a key, and it is not moving. -/
def State.vacant (s : State) (page : Nat) : Bool :=
  !(s.mem.any fun c => c.1 / 2 ^ 21 == page) && !(s.lineKeys.any fun x => x.1 / 16384 == page) &&
    !(s.moves.any fun m => m.page == page || s.pageAt m.die m.frame == page)

/-- R78: the free 2 MiB frames of a partition on a die, ascending. -/
def State.freeFrames (s : State) (part die : Nat) : List Nat :=
  let (lo, n) := (s.part part).frames.getD die (0, 0)
  ((List.range n).map (lo + ·)).filter fun f => s.vacant (s.pageAt die f)

/-- R79, R80: a move begins. -/
def State.beginMove (s : State) (part page die : Nat) : State :=
  match s.freeFrames part die with
  | [] => s
  | f :: _ => { s with moves := s.moves ++ [{ page := page, die := die, frame := f, chunk := 0, part := part }] }

/-- R78: regions that are judged together: each moves to the die their counts call for, when it has room for all of them. Where
they are homed on several dies, the condition on the home's count is asked for every home but that die (DESIGN CHOICE, log 81). -/
def State.judge (s : State) (part : Nat) (regions : List Nat) : State :=
  let cs := [0, 1, 2, 3].map fun d => regions.foldl (fun n r => n + (s.counts r).getD d 0) 0
  let d := bestDie cs
  let far := regions.filter fun r => (s.frameOf r).1 != d && !(s.moves.any fun m => m.page == r)
  if !(s.part part).dowser && far.all (fun r => wantsDie cs (s.frameOf r).1 d) && decide (far.length ≤ (s.freeFrames part d).length)
  then far.foldl (fun s r => s.beginMove part r d) s
  else s

/-- R78: the regions of well memory of a handle, in ascending virtual order. -/
def State.handleRegions (s : State) (r : Resid) : List Nat :=
  ((List.range ((r.len.toNat + 65535) / 65536)).filterMap fun i =>
    match (s.translate r.ctx (r.base + u64 (65536 * i))).2 with
    | .ok x => if x.kind = 0 then some (x.addr / 2 ^ 21) else none
    | .error _ => none).dedup

/-- DOWSER_EVALUATION (R77, R78): every 2^20 ticks, handles first, then the regions no handle covers, in the order of the counter
table (DESIGN CHOICE, log 81); then every counter is halved. -/
def execDowserEvaluation (s : State) : Host.Outcome State Fault Refusal :=
  .next (if s.now / 2 ^ 20 = s.dowserAt / 2 ^ 20 then s
    else
      let hs := s.resids.map fun r => ((s.ctx r.ctx).part, s.handleRegions r)
      let under := hs.flatMap (·.2)
      let alone := (s.dowser.map (·.region)).filter fun r => !under.contains r
      let s := hs.foldl (fun s h => s.judge h.1 h.2) s
      let s := alone.foldl (fun s r => match s.ownerOf r with | some p => s.judge p [r] | none => s) s
      { s with
        dowserAt := s.now
        dowser := s.dowser.map fun (x : DowserCount) => { x with counts := x.counts.map (· / 2) } })

/-! ### The copy (R79, R80) -/

/-- R370, R79: the lines of a chunk read under the keys of their old places and written under those of their new ones. -/
def State.carry (s t : State) (part : Nat) : List Nat → State
  | [] => t
  | l :: ls =>
    if s.keyOf part l = t.keyOf part l then s.carry t part ls
    else
      s.carry { t with
        mem := t.mem.writeN (l * 128) (s.load part (l * 128) 128)
        lineKeys := (l, t.keyOf part l) :: t.lineKeys.filter fun x => x.1 != l } part ls

/-- A move at its end: the page lies in its new frame, and the vacant page of that frame in the old one (R80). -/
def State.endMove (s : State) (m : Move) : State :=
  let q := s.pageAt m.die m.frame
  let (die, frame) := s.frameOf m.page
  { s with
    moves := s.moves.filter fun x => x.page != m.page
    wellMap := ⟨m.page, m.die, m.frame⟩ :: ⟨q, die, frame⟩ :: s.wellMap.filter fun x => x.page != m.page && x.page != q }

/-- R79: the new home of lines starts with the lease ends that bear on them at the old one, and holds none of the lines. -/
def State.newHome (s : State) (part : Nat) (lines : List Nat) : List HomeLine :=
  let rest := s.homes.filter fun (h : HomeLine) => !lines.contains h.line
  (lines.filter fun l => s.leaseOf part l != 0).map (fun l =>
    ({ line := l, lease := s.leaseOf part l, owner := part } : HomeLine)) ++ rest

/-- DOWSER_CHUNK_COPY (R79, R80): the next 4 KiB of the oldest move of a partition whose Dowser is not disabled. -/
def execDowserChunkCopy (s : State) : Host.Outcome State Fault Refusal :=
  .next (match s.moves.find? fun m => !(s.part m.part).dowser with
    | none => s
    | some m =>
      let lines := (List.range 32).map fun i => m.page * 16384 + m.chunk * 32 + i
      let m' := { m with chunk := m.chunk + 1 }
      let t : State := { s with
        moves := s.moves.map fun x => if x == m then m' else x
        homes := s.newHome m.part lines }
      let t := s.carry t m.part lines
      if m'.chunk < 512 then t else t.endMove m')

end Sys2Proof.Machine
end

