-- ==== Sys2Proof/Machine/Ubend.lean ====
section
/-!
DEFINITION. The Ubend domain: ports and their states (R379), flits, windows and retries on one hop (R380 to R384), requests of
peers (R385, R387), domain time (R388) and sluice groups (R389).
-/

namespace Sys2Proof.Machine

/-! ### Paths (R384) -/

/-- The domain address by which a flit chose its path; the layout of payloads is the model's own. -/
def flitDa (f : Flit) : Nat :=
  if f.kind = 9 then (if f.payload.headD 0 = 2 then 0 else ofBytes ((f.payload.drop 1).take 8)) else ofBytes (f.payload.take 8)

/-- A port sends what it can. -/
def State.drainPort (s : State) (n : Nat) : State := s.updPort n fun p => if p.state = 2 then p.drain s.pathHold 512 else p

/-- R384: a change of path is over when what was lost has been sent again and every other request then unacknowledged has been
acknowledged; the ports send what waited. -/
def State.settlePaths (s : State) : State :=
  let s := if s.ports.all fun p => p.lost.isEmpty && p.old.isEmpty then { s with pathHold := false } else s
  (List.range 18).foldl State.drainPort s

/-- A flit laid at the port its path now takes; where no port is up it stays where it was. -/
def State.layFlit (s : State) (lost : Bool) (x : Nat × Flit) : State :=
  s.updPort ((s.pathOf x.2.dst.toNat (flitDa x.2)).getD x.1) fun p =>
    if lost then { p with lost := p.lost ++ [x.2] } else { p with out := p.out ++ [x.2] }

/-- R384: the ports that are up have changed: flits that wait take their new paths, those unacknowledged at a port that is no
longer up before new requests. -/
def State.reroute (s : State) : State :=
  let ps := (List.range 18).map s.port
  let lost := ps.flatMap fun p => ((if p.state = 2 then [] else p.replay) ++ p.lost).map fun f => (p.num, f)
  let out := ps.flatMap fun p => p.out.map fun f => (p.num, f)
  let s : State := { s with
    pathHold := true
    ports := s.ports.map fun (p : Port) =>
      if p.state = 2 then { p with lost := [], out := [], old := (p.replay.filter fun f => f.vc == 1 || f.vc == 2).map (·.seq) }
      else { p with lost := [], out := [], old := [], replay := [] } }
  let s := lost.foldl (State.layFlit · true ·) s
  (out.foldl (State.layFlit · false ·) s).settlePaths

/-! ### Port states (R379) -/

/-- R379: a port takes a state: the change is signalled, and a port that came up or went down changes the paths. A port that
trained starts with fresh counts (R382). -/
def State.setPort (s : State) (n : Nat) (st : BitVec 4) (far : BitVec 9) : State :=
  let p := s.port n
  if p.state = st then s
  else
    let s := s.updPort n fun p =>
      if st = 2 then
        { p with state := 2, far := far, expect := 0, freed := [0, 0, 0, 0], owed := none, asking := false, nextSeq := 0
                 sent := [0, 0, 0, 0], got := [0, 0, 0, 0], asked := 0, rounds := 0, timeAt := s.now }
      else { p with state := st }
    let s := if st = 2 || p.state = 2 then s.reroute else s
    s.signal 0 (s.ubMsix.toNat % 2048)

/-- A port the record enables. -/
def State.enabledPort (s : State) (n : Nat) : Bool := (s.port n).state != 0

/-- PORT_HOLD (R379): 1 takes an up port down for service, 0 lets it train again. -/
def State.holdPort (s : State) (n : Nat) (hold : Bool) : State :=
  if 18 ≤ n then s
  else
    let s := s.updPort n fun p => { p with hold := hold }
    if hold && (s.port n).state == 2 then s.setPort n 3 0
    else if !hold && (s.port n).state == 3 then s.setPort n 1 0
    else s

/-- PORT_HOLD (R379). -/
def execPortHold (port : Nat) (hold : Bool) (s : State) : Host.Outcome State Fault Refusal := .next (s.holdPort port hold)

/-- PORT_STATE_CHANGE (R379, R382, R384): training ends in up or in down, an up port goes down, and a port that is down and not
held trains again. -/
def execPortStateChange (port : Nat) (st : BitVec 4) (far : BitVec 9) (s : State) : Host.Outcome State Fault Refusal :=
  let p := s.port port
  let ok := decide (port < 18) && s.enabledPort port &&
    ((st == 2 && p.state == 1 && !p.hold) || (st == 3 && (p.state == 1 || p.state == 2)) || (st == 1 && p.state == 3 && !p.hold))
  .next (if ok then s.setPort port st far else s)

/-! ### One hop (R380 to R383) -/

/-- A link flit: it has no window, no seq of its own and no replay (R382, R383). -/
def Port.linkFlit (p : Port) (own : Nat) (kind : BitVec 4) (seq : BitVec 16) (payload : List Byte) : Port :=
  { p with
    wire := p.wire ++ [sealFlit ⟨kind, 0, seq, p.expect - 1, p.freed, p.far, BitVec.ofNat 9 own, payload, 0⟩]
    owed := none }

/-- R382, R383: the counters of a flit received in good order. -/
def Port.heard (p : Port) (f : Flit) : Port :=
  let acked (q : BitVec 16) : Bool := decide ((f.ack - q).toNat < 32768)
  { p with
    got := if f.freed.length = 4 then f.freed else p.got
    replay := p.replay.filter fun g => !acked g.seq
    old := p.old.filter fun q => !acked q }

/-- R383: a retry request that names the expected seq. -/
def State.askRetry (s : State) (n : Nat) : State := s.updPort n fun p => { p.linkFlit s.ownDev 2 p.expect [] with asking := true }

/-- A channel flit (R380). -/
def isChannel (kind : BitVec 4) : Bool := decide (3 ≤ kind.toNat) && decide (kind.toNat ≤ 9)

/-- R380, R383: a flit arrives at a port: accepted in sequence, dropped as accepted before, or discarded. A damaged channel flit, of
whose fields nothing is known, asks for a retry every time; flits out of sequence ask once, until the flit asked for comes (DESIGN
CHOICE, log 82). A buffer that empties is counted (R382). -/
def State.takeFlit (s : State) (n : Nat) (f : Flit) : State :=
  let p := s.port n
  if p.state != 2 || decide (9 < f.kind.toNat) then s
  else if !isChannel f.kind then (if flitOk f then (s.updPort n (·.heard f)).settlePaths else s)
  else if !flitOk f then s.askRetry n
  else if f.seq = p.expect then
    (s.updPort n fun p =>
      { p.heard f with
        expect := p.expect + 1
        asking := false
        freed := listUpd p.freed f.vc.toNat (· + 1)
        owed := some (p.owed.getD s.now) }).settlePaths
  else if (p.expect - f.seq).toNat < 32768 || p.asking then s
  else s.askRetry n

/-- FLIT_RECEIVE (R380, R382, R383). -/
def execFlitReceive (port : Nat) (f : Flit) (s : State) : Host.Outcome State Fault Refusal := .next (s.takeFlit port f)

/-- RETRY_REQUEST (R383, R384): the flits from the named seq are sent again; the sixteenth request for one seq takes the port
down. -/
def execRetryRequest (port : Nat) (seq : BitVec 16) (s : State) : Host.Outcome State Fault Refusal :=
  let p := s.port port
  let rounds := if p.asked = seq && p.rounds != 0 then p.rounds + 1 else 1
  .next (if p.state != 2 then s
    else if 16 ≤ rounds then (s.updPort port fun p => { p with asked := seq, rounds := rounds }).setPort port 3 0
    else s.updPort port fun p =>
      { p with
        asked := seq
        rounds := rounds
        retries := if p.retries = 0xFFFF then p.retries else p.retries + 1
        wire := p.wire ++ (p.replay.dropWhile fun f => f.seq != seq).map fun (f : Flit) =>
          sealFlit { f with ack := p.expect - 1, freed := p.freed } })

/-- IDLE_FLIT_SEND (R382): freed counts return, when no flit is there to carry them. -/
def execIdleFlitSend (port : Nat) (s : State) : Host.Outcome State Fault Refusal :=
  let p := s.port port
  .next (if p.state == 2 && p.owed.isSome then s.updPort port fun p => p.linkFlit s.ownDev 0 0 [] else s)

/-- IDLE_FLIT_RECEIVE (R382): its counters are read. -/
def execIdleFlitReceive (port : Nat) (f : Flit) (s : State) : Host.Outcome State Fault Refusal :=
  .next (if (s.port port).state == 2 && f.kind == 0 && flitOk f then (s.updPort port (·.heard f)).settlePaths else s)

/-! ### Requests of peers (R385, R387) -/

/-- An export window as its three words. -/
structure Window where
  w0   : Lane
  base : Lane
  len  : Lane
deriving DecidableEq, Repr

/-- The window of an index. -/
def State.window (s : State) (w : Nat) : Window :=
  match s.windows.find? fun x => x.1 == w with
  | some (_, w0, base, len) => ⟨w0, base, len⟩
  | none => ⟨0, 0, 0⟩

/-- Fields of a window (R385). -/
def Window.src (w : Window) : Nat := (w.w0.extractLsb' 32 9).toNat
/-- The context whose tables translate it. -/
def Window.ctx (w : Window) : Nat := (w.w0.extractLsb' 16 11).toNat
/-- Its partition. -/
def Window.part (w : Window) : Nat := (w.w0.extractLsb' 8 6).toNat

/-- What a peer asks for: loads, stores or atomics. -/
inductive PeerUse | load | store | atomic
deriving DecidableEq, Repr

/-- The permission bit of a window: R, W, A. -/
def PeerUse.bit : PeerUse → Nat
  | .load => 1
  | .store => 2
  | .atomic => 3

/-- R387: the first check. -/
def State.windowAllows (s : State) (w : Window) (src off size : Nat) (u : PeerUse) : Bool :=
  w.w0.getLsbD 0 && (w.w0.getLsbD 4 || w.src == src) && decide (off + size ≤ w.len.toNat) && w.w0.getLsbD u.bit &&
    (s.ctx w.ctx).state != .free && w.part == (s.ctx w.ctx).part && (!s.protected w.part || (s.part w.part).reaches src)

/-- R387: the leaf's permissions. An address of a third device has none here. -/
def PeerUse.permits (u : PeerUse) (x : Xlat) : Bool :=
  x.kind != 2 && (match u with | .load => x.r | .store => x.w | .atomic => x.r && x.w)

/-- R387: the checks in order: the place and the partition it is reached in, or the code of the first that fails. -/
def State.peerCheck (s : State) (src : Nat) (addr : BitVec 52) (size : Nat) (u : PeerUse) : State × Except Byte (Xlat × Nat) :=
  let w := s.window (addr.toNat / 2 ^ 44)
  let off := addr.toNat % 2 ^ 44
  if !s.windowAllows w src off size u then (s, .error 2)
  else
    match s.translate w.ctx (w.base + u64 off) with
    | (s, .error _) => (s, .error 1)
    | (s, .ok x) =>
      if !u.permits x then (s, .error 2)
      else if u != .store && s.poisonAt x.key size then (s, .error 3)
      else (s, .ok (x, w.ctx))

/-- A reply on VC3: the address asked for, the request's tag, and the rest (R380). -/
def State.reply (s : State) (src : Nat) (addr : BitVec 52) (tag : Nat) (kind : BitVec 4) (rest : List Byte) : State :=
  s.sendFlit src addr.toNat kind 3 (toBytes 8 addr.toNat ++ toBytes 4 tag ++ rest)

/-- A request for an address, checked from a byte of it on, and performed; a place outside the capacity of R1 faults (log 6). -/
def State.serveFrom (s : State) (src : Nat) (addr at' : BitVec 52) (size tag : Nat) (u : PeerUse) (run : State → Xlat → Nat → State) :
    Host.Outcome State Fault Refusal :=
  match s.peerCheck src at' size u with
  | (s, .error code) => .next (s.reply src addr tag 8 [code])
  | (s, .ok (x, c)) => if x.there then .next (run s x c) else .fault (.noSuchAddress x.key)

/-- A request checked from its address on. -/
def State.serve (s : State) (src : Nat) (addr : BitVec 52) (size tag : Nat) (u : PeerUse) (run : State → Xlat → Nat → State) :
    Host.Outcome State Fault Refusal := s.serveFrom src addr addr size tag u run

/-- LOAD_REQUEST (R387), of a lane or of a peer's pump: the bytes as the line's home holds them. -/
def execLoadRequest (src : Nat) (addr : BitVec 52) (size tag : Nat) (s : State) : Host.Outcome State Fault Refusal :=
  s.serve src addr size tag .load fun s x c => (s.fillHome (x.key / 128) (s.ctx c).part 0).reply src addr tag 6 (s.load (s.ctx c).part x.key size)

/-- A write of a peer at the line's home. -/
def State.peerWrite (s : State) (x : Xlat) (c : Nat) (bs : List Byte) : State :=
  (s.store (s.ctx c).part x.key bs).fillHome (x.key / 128) (s.ctx c).part 0

/-- Bytes of a line that a mask of 16 bytes selects, as runs of one byte: place and byte. -/
def maskedBytes (data : List Byte) : List (Nat × Byte) :=
  ((List.range 128).filter fun i => (data.getD (i / 8) 0).getLsbD (i % 8)).map fun i => (i, data.getD (16 + i) 0)

/-- R111, R387: a masked line of a peer's store, as its flit carries it (log 82): the bytes from the first written to the last are
checked, and those selected are written. -/
def State.storeMasked (s : State) (src : Nat) (addr : BitVec 52) (data : List Byte) (tag : Nat) : Host.Outcome State Fault Refusal :=
  let bs := maskedBytes data
  let lo := (bs.head?.map (·.1)).getD 0
  let hi := (bs.getLast?.map (·.1)).getD 0
  s.serveFrom src addr (addr + BitVec.ofNat 52 lo) (hi + 1 - lo) tag .store fun s x c =>
    let s := bs.foldl (fun s b => s.peerWrite { x with addr := x.addr + (b.1 - lo) } c [b.2]) s
    s.reply src addr tag 7 (toBytes 8 (s.wctOf (s.ctx c).part (x.key / 128)))

/-- POSTED_STORE (R111, R387): performed and acknowledged with its completion time: a run of bytes, or the 144 bytes of a masked
line. -/
def execPostedStore (src : Nat) (addr : BitVec 52) (data : List Byte) (tag : Nat) (s : State) : Host.Outcome State Fault Refusal :=
  if data.length = 144 then s.storeMasked src addr data tag
  else s.serve src addr data.length tag .store fun s x c =>
    let s := s.peerWrite x c data
    s.reply src addr tag 7 (toBytes 8 (s.wctOf (s.ctx c).part (x.key / 128)))

/-! ### The pumps of peers (R106, R282, R387) -/

/-- Runs of a peer's message, with fuel: domain address, bytes, and for a write what they hold. -/
def peerRuns (write : Bool) : Nat → List Byte → List (BitVec 52 × Nat × List Byte)
  | 0, _ => []
  | f + 1, data =>
    if data.length < 10 then []
    else
      let n := ofBytes ((data.drop 8).take 2)
      let rest := data.drop 10
      (BitVec.ofNat 52 (ofBytes (data.take 8)), n, if write then rest.take n else []) :: peerRuns write f (if write then rest.drop n else rest)

/-- R387: every run of a message checked in order: the places and their contexts, or the code of the first that fails. -/
def State.checkRuns (s : State) (src : Nat) (u : PeerUse) : List (BitVec 52 × Nat × List Byte) → State × Except Byte (List (Xlat × Nat × Nat × List Byte))
  | [] => (s, .ok [])
  | (a, n, bs) :: r =>
    match s.peerCheck src a n u with
    | (s, .error code) => (s, .error code)
    | (s, .ok (x, c)) =>
      match s.checkRuns src u r with
      | (s, .ok xs) => (s, .ok ((x, c, n, bs) :: xs))
      | (s, .error code) => (s, .error code)

/-- R106, R387: a peer's pump reads or writes its runs as one: they are checked, then all performed; a read is answered run by run, a
write acknowledged once with its largest completion time. -/
def State.servePump (s : State) (src tag : Nat) (write : Bool) (data : List Byte) : Host.Outcome State Fault Refusal :=
  let runs := peerRuns write data.length data
  let first := ((runs.head?).map (·.1)).getD 0
  match s.checkRuns src (if write then .store else .load) runs with
  | (s, .error code) => .next (s.reply src first tag 8 [code])
  | (s, .ok xs) =>
    match xs.find? fun x => !x.1.there with
    | some x => .fault (.noSuchAddress x.1.key)
    | none =>
      .next (if write then
          let s := xs.foldl (fun s x => s.peerWrite x.1 x.2.1 x.2.2.2) s
          s.reply src first tag 7 (toBytes 8 ((xs.map fun x => s.wctOf (s.ctx x.2.1).part (x.1.key / 128)).foldl max 0))
        else
          (runs.zip xs).foldl (fun s y =>
            let x := y.2
            (s.fillHome (x.1.key / 128) (s.ctx x.2.1).part 0).reply src y.1.1 tag 6 (s.load (s.ctx x.2.1).part x.1.key x.2.2.1)) s)

/-- BULK (R284, R380, R387, R390): pump or sluice payload arrives, behind a head of five bytes (log 82). For an operation of this device
that is for a collective what the members must agree on, for a pump 1 with an acknowledgement; a collective that has been cancelled
hears nothing more. Heads 2 and 3 are messages of a peer's pump, a write and a panel read as one: `rank` is the device that sent
them, `op` its tag. -/
def execBulk (op rank : Nat) (ok : Bool) (data : List Byte) (s : State) : Host.Outcome State Fault Refusal :=
  if bulkHead data = 2 || bulkHead data = 3 then s.servePump rank op (bulkHead data == 2) (data.drop 5)
  else
    match s.op? op with
    | none => .next s
    | some o =>
      .next (if o.done then s else
        match o.kind with
        | .pump .. => s.pumpHears o rank (bulkHead data == 1) ok (data.drop 5)
        | .coll cop fmt => if o.ready || o.cancel then s else s.collHears o cop fmt rank (bulkHead data) ok (data.drop 5)
        | _ => s)

/-- ATOMIC_REQUEST (R105, R387): performed and answered with the old value and the completion time of its write. -/
def execAtomicRequest (src : Nat) (addr : BitVec 52) (op : AmoOp) (size : Nat) (y cmpv : Lane) (tag : Nat) (s : State) :
    Host.Outcome State Fault Refusal :=
  s.serve src addr size tag .atomic fun s x c =>
    let w := 8 * size
    let old := ofBytes (s.load (s.ctx c).part x.key size)
    let s := s.peerWrite x c (toBytes size (amoNew op w old (y.toNat % 2 ^ w) (cmpv.toNat % 2 ^ w)))
    s.reply src addr tag 6 (toBytes size old ++ toBytes 8 (s.wctOf (s.ctx c).part (x.key / 128)))

/-! ### Domain time (R388) -/

/-- TIME_FLIT_SEND (R388): every 256 ticks, with sys.now in payload bytes 24 to 31 of the flit. -/
def execTimeFlitSend (port : Nat) (s : State) : Host.Outcome State Fault Refusal :=
  let p := s.port port
  .next (if p.state == 2 && decide (p.timeAt + 256 ≤ s.now) then
      s.updPort port fun p => { p.linkFlit s.ownDev 1 0 (toBytes 8 s.now) with timeAt := s.now }
    else s)

/-- TIME_FLIT_RECEIVE (R95, R388): the reference is what was sent with the link's delay; four flits in a row that agree within 1
tick set LOCK. -/
def execTimeFlitReceive (port : Nat) (sent : Lane) (delay : Nat) (s : State) : Host.Outcome State Fault Refusal :=
  let gap : Int := (sent.toNat + delay : Nat) - (s.now : Int)
  let good := if gap.natAbs ≤ 1 then s.timeGood + 1 else 0
  .next (if (s.port port).state != 2 || s.isMaster then s
    else
      { s with
        timeSeen := s.now
        timeGood := min good 4
        timeLock := s.timeLock || decide (4 ≤ good)
        timeLag := gap })

/-- TIME_LOCK_LOSS (R388, R390): no time flit for 2^16 ticks: collectives complete with status 7. -/
def execTimeLockLoss (s : State) : Host.Outcome State Fault Refusal :=
  .next (if s.isMaster || !s.locksTime || decide (s.now < s.timeSeen + 2 ^ 16) then s
    else
      let open' := (s.ops.filter fun o => (match o.kind with | .coll .. => true | _ => false) && !o.done && !o.ready).map (·.uid)
      open'.foldl (fun s u => s.endEngine u 7 0) { s with timeLock := false, timeGood := 0 })

/-! ### Sluice groups (R389) -/

/-- A group entry written, ignored while a collective of the group is outstanding (R389). -/
def State.writeGroup (s : State) (g : Nat) (w0 w1 : Lane) : State :=
  if 1024 ≤ g then s
  else if s.ops.any fun o => (match o.kind with | .coll .. => true | _ => false) && o.group == g && !o.done then
    { s with barErr := 8 }
  else { s with groups := (g, w0 &&& 0x000003FF03FF3F01, w1) :: s.groups.filter fun x => x.1 != g }

/-- SLUICE_GROUP_WRITE (R389). -/
def execSluiceGroupWrite (group : Nat) (w0 w1 : Lane) (s : State) : Host.Outcome State Fault Refusal := .next (s.writeGroup group w0 w1)

end Sys2Proof.Machine
end

