-- ==== Sys2Proof/Machine/Power.lean ====
section
/-!
DEFINITION. Power: the clusters' power blocks (R391), frequency steps (R392), package power (R393), undervolting and errors (R394,
R395), and the package telemetry (R404).
-/

namespace Sys2Proof.Machine

/-! ### The power block (R391) -/

/-- RAISES: floor raises in force. -/
def Power.raised (p : Power) : Nat := p.raises.length
/-- UMAX (R394). -/
def Power.umax (p : Power) : Nat := 120 - 20 * p.raised
/-- U follows UMAX when that falls below it (R394). -/
def Power.capped (p : Power) : Power := { p with u := BitVec.ofNat 8 (min p.u.toNat p.umax) }

/-- A cluster of a protected partition (R371). -/
def State.shielded (s : State) (cluster : Nat) : Bool := s.protected (s.partOfCluster cluster)

/-- NOM (R391): the nominal voltage at the present frequency. -/
def Power.nom (p : Power) : BitVec 16 := Config.nominalMv p.cluster p.freq
/-- Offset 0x00 of a block as it reads (R391): UMAX, U, NOM, FREQ; zero in a cluster of a protected partition. -/
def State.powerWord (s : State) (cluster : Nat) : Lane :=
  let p := s.powerOf cluster
  if s.shielded cluster then 0 else 0#16 ++ BitVec.ofNat 8 p.umax ++ p.u ++ p.nom ++ 0#11 ++ p.freq

/-- R391, R394: offset 0x18 written. A THR of 0 keeps the old one. -/
def State.writePower (s : State) (cluster : Nat) (v : Lane) : State :=
  if Config.clusters ≤ cluster || s.shielded cluster then s
  else
    let thr := v.extractLsb' 1 15
    let uven := v.getLsbD 0
    let s := if thr = 0 then { s with barErr := 9 } else s
    s.updPower cluster fun p =>
      { p with
        gapMin := v.extractLsb' 24 8
        waveMax := v.extractLsb' 16 6
        thr := if thr = 0 then p.thr else thr
        uven := uven
        u := if uven then p.u else 0 }

/-- POWER_BLOCK_WRITE (R391, R394). -/
def execPowerBlockWrite (cluster : Nat) (value : Lane) (s : State) : Host.Outcome State Fault Refusal := .next (s.writePower cluster value)

/-! ### Frequency and package power (R392, R393) -/

/-- FREQUENCY_STEP (R392): one step towards the code aimed at. -/
def execFrequencyStep (cluster : Nat) (s : State) : Host.Outcome State Fault Refusal :=
  let p := s.powerOf cluster
  .next (match p.target with
    | none => s
    | some t =>
      if s.now < p.stepAt || s.shielded cluster then s
      else
        let f := if p.freq < t then p.freq + 1 else if t < p.freq then p.freq - 1 else t
        s.updPower cluster fun p => { p with freq := f, target := if f = t then none else some t, stepAt := s.now + 20 })

/-- R393: PWRCTL written: a limit outside 1,000 to 2,400 W is ignored. -/
def State.writeLimit (s : State) (v : Lane) : State :=
  let w := v.extractLsb' 0 12
  if 1000 ≤ w.toNat && w.toNat ≤ 2400 then { s with limit := w } else s

/-- POWER_LIMIT_WRITE (R393). -/
def execPowerLimitWrite (value : Lane) (s : State) : Host.Outcome State Fault Refusal := .next (s.writeLimit value)

/-- The clusters that package power may throttle. -/
def State.throttled (s : State) : List Nat := (List.range Config.clusters).filter fun c => !s.shielded c

/-- R393: one step down, unless the cluster is on its way down. -/
def State.stepDown (s : State) (c : Nat) : State :=
  let p := s.powerOf c
  if p.freq = 0 || (p.target.any fun t => t < p.freq) then s else s.aimFreq c (p.freq - 1)

/-- R393: one step up towards the partition's CLOCK. -/
def State.stepUp (s : State) (c : Nat) : State :=
  let p := s.powerOf c
  if (s.part (s.partOfCluster c)).clock ≤ p.freq.toNat || p.target.isSome then s else s.aimFreq c (p.freq + 1)

/-- POWER_WINDOW (R393): a window of 100,000 ticks ends with a mean power in watts. -/
def execPowerWindow (watts : Nat) (s : State) : Host.Outcome State Fault Refusal :=
  .next (if s.now < s.powerAt + 100000 then s
    else
      let cs := s.throttled
      let s := { s with powerAt := s.powerAt + 100000 }
      if s.limit.toNat < watts then
        (if cs.all fun c => (s.powerOf c).freq == 0 then { s with alert := true }.signal 0 (s.ubMsix.toNat % 2048)
         else cs.foldl State.stepDown { s with alert := false })
      else
        let s := { s with alert := false }
        if 100 * watts < 95 * s.limit.toNat then cs.foldl State.stepUp s else s)

/-! ### Errors and undervolting (R394, R395) -/

/-- UVEN as it acts (R391). -/
def State.undervolts (s : State) (c : Nat) : Bool := (s.powerOf c).uven && !s.shielded c

/-- ECC_WINDOW (R394): a cluster's window of 1,000,000 ticks ends. -/
def execEccWindow (cluster : Nat) (s : State) : Host.Outcome State Fault Refusal :=
  let p := s.powerOf cluster
  .next (if s.now < p.since + 1000000 || Config.clusters ≤ cluster then s
    else
      let u := if !s.undervolts cluster then p.u.toNat
        else if p.thr.toNat ≤ p.window then p.u.toNat - 5
        else if p.struck then p.u.toNat
        else min (p.u.toNat + 5) p.umax
      s.updPower cluster fun p => { p with u := BitVec.ofNat 8 u, since := p.since + 1000000, window := 0, struck := false })

/-- CORRECTABLE_ERROR (R391, R394, R404). -/
def execCorrectableError (cluster : Nat) (s : State) : Host.Outcome State Fault Refusal :=
  .next (if Config.clusters ≤ cluster then s
    else (s.updPower cluster fun p =>
      { p with corr := satInc p.corr, window := if s.undervolts cluster then p.window + 1 else p.window }).tally fun t =>
        { t with softCor := satInc t.softCor })

/-- The number of set bits is odd. -/
def oddBits (w : Word) : Bool := (List.range 32).foldl (fun a i => a != w.getLsbD i) false

/-- R325, R328: bits of a word of a store entry change. Its parity is one bit (log 45), so an even number of them passes it
by. -/
def Altered.strike (a : Altered) (w : Nat) (bits : Word) : Altered :=
  { a with words := a.words.set w (a.words.getD w 0 ^^^ bits), parity := a.parity != oddBits bits }

/-- R394: a window of a cluster ended in this tick: what strikes in the tick has struck before. -/
def State.windowOver (s : State) (cluster : Nat) : Bool := s.now != 0 && (s.powerOf cluster).since == s.now

/-- What an error can strike in a cluster: its registers, scratch and seep (R395), and its alteration stores (R328). -/
def State.strikes (s : State) (cluster : Nat) : ErrTarget → Bool
  | .register sk reg l =>
    (s.sk? sk).any fun k => clusterOf k.core == cluster && k.slot.isSome && decide (reg.toNat < k.regCount) && decide (l < 32)
  | .store core pc w bits => clusterOf core == cluster && bits != 0 &&
    s.altered.any fun a => a.core == core && a.pc == pc && decide (w < a.words.length)
  | .memory key =>
    (List.range 8).any (fun i =>
      decide (scratchKey (8 * cluster + i) 0 ≤ key) && decide (key < scratchKey (8 * cluster + i) Config.scratchBytes)) ||
    s.seeps.any fun i => i.cluster == cluster && decide (seepKey i.uid 0 ≤ key) && decide (key < seepKey i.uid (4096 * i.tiles))

/-- R395: the data is poisoned. -/
def State.poisonData (s : State) : ErrTarget → State
  | .register sk reg l =>
    s.updSk sk fun k => { k with regs := bankUpd 64 {} k.regs reg.toNat fun x => { x with poison := x.poison ||| (1 <<< l) } }
  | .store core pc w bits =>
    { s with altered := s.altered.map fun a => if a.core == core && a.pc == pc then a.strike w bits else a }
  | .memory key => { s with poisoned := key / 8 :: s.poisoned.filter fun g => g != key / 8 }

/-- R395: one floor raise more, of at most 6, each with its own end. -/
def Power.raise (p : Power) (now : Nat) : Power := if p.raised < 6 then { p with raises := p.raises ++ [now + 2 ^ 43] } else p

/-- Data that SECDED protects: an alteration store has parity alone (R325), so an error there is none of R395's. -/
def codedTarget : ErrTarget → Bool
  | .store .. => false
  | _ => true

/-- UNCORRECTABLE_ERROR (R395): counted; U falls to 0; with U above 0 it is a margin event. In an alteration store the bits
change and nothing else (R328). -/
def execUncorrectableError (cluster : Nat) (target : ErrTarget) (s : State) : Host.Outcome State Fault Refusal :=
  let margin := decide (0 < (s.powerOf cluster).u.toNat)
  .next (if !s.strikes cluster target || s.windowOver cluster || decide (Config.clusters ≤ cluster) then s
    else if !codedTarget target then s.poisonData target
    else
      ((s.poisonData target).updPower cluster fun p =>
        let p := { p with uncor := satInc p.uncor, struck := true, u := 0 }
        if margin then { p.raise s.now with mev := satInc p.mev } else p).tally fun t =>
          { t with softUnc := satInc t.softUnc, margin := if margin then satInc t.margin else t.margin })

/-- RAISE_EXPIRY (R395): the raises whose time is over. -/
def execRaiseExpiry (cluster : Nat) (s : State) : Host.Outcome State Fault Refusal :=
  .next (s.updPower cluster fun p => Power.capped { p with raises := p.raises.filter fun t => decide (s.now < t) })

/-! ### Fleet counters (R404) -/

/-- TELEMETRY_WINDOW (R404): the block takes the sums, with the window's temperature and mean power. -/
def execTelemetryWindow (watts temp : Nat) (s : State) : Host.Outcome State Fault Refusal :=
  .next (if s.now < s.telemetryAt + 10000000 then s
    else
      { s with
        telemetryAt := s.telemetryAt + 10000000
        telemetry := { s.sums with
          watts := BitVec.ofNat 16 watts
          temp := BitVec.ofNat 16 temp
          window := satInc s.telemetry.window } })

end Sys2Proof.Machine
end

