-- ==== Sys2Proof/Machine/Debug.lean ====
section
/-!
DEFINITION. The debug block and its commands (R398 to R400).
-/

namespace Sys2Proof.Machine

/-- The debug block of a context changed. -/
def State.updDebug (s : State) (c : Nat) (f : Debug → Debug) : State := s.updCtx c fun x => { x with dbg := f x.dbg }

/-- The error field of a debug block. -/
def State.debugErr (s : State) (c : Nat) (e : Byte) : State := s.updDebug c fun d => { d with err := e }

/-- R398, R399: a command: refused for a protected partition, while another is in progress, or in a state it does not list. -/
def State.debugCmd (s : State) (c : Nat) (ok : Bool) (run : State → State) : State :=
  if 2048 ≤ c then s
  else if s.protected (s.ctx c).part then s.debugErr c 7
  else if (s.ctx c).dbg.busy then s.debugErr c 2
  else if !ok then s.debugErr c 1
  else run (s.debugErr c 0)

/-- R399: attach. -/
def State.attach (s : State) (c : Nat) : State :=
  let st := (s.ctx c).state
  s.debugCmd c (st == .running || st == .saved) fun s =>
    if st = .running then (s.requestHalt c 0x22).updDebug c fun d => { d with busy := true }
    else (s.unpickCtx c false).updDebug c fun d => { d with att := true }

/-- R399: detach; from here on the watchdog counts (R341). -/
def State.detach (s : State) (c : Nat) : State :=
  s.debugCmd c (s.ctx c).dbg.att fun s =>
    { s with skeins := s.skeins.map fun (k : Skein) => if k.ctx == c then { k with idleAt := s.now } else k }.updDebug c fun d =>
      { d with att := false }

/-- R399: reseal, as a command. -/
def State.cmdReseal (s : State) (c : Nat) : State :=
  s.debugCmd c ((s.ctx c).state == .saved && (s.ctx c).dbg.att) fun s => s.reseal c

/-- R399: step, as a command. -/
def State.beginStep (s : State) (c : Nat) : State :=
  s.debugCmd c ((s.ctx c).state == .saved && (s.ctx c).dbg.att) fun s =>
    (s.updDebug c fun d => { d with step := some {}, busy := true }).beginRestore c

/-- R399: a step's one issue has been made, or cannot be. -/
def State.stepOver (s : State) (st : StepRun) : Bool :=
  st.issued || (match st.sk with | some u => ((s.sk? u).map (·.live.isEmpty)).getD true | none => true) ||
    (match st.since with | some t => decide (t + 600 ≤ s.now) | none => false)

/-- R399: the end of a step: the context is saved again. -/
def State.endStep (s : State) (c : Nat) (st : StepRun) : State :=
  if (s.ctx c).state = .running ∧ st.saving = false ∧ s.stepOver st then
    (s.requestHalt c 0x22).updDebug c fun d => { d with step := some { st with saving := true } }
  else s

/-- DEBUG_ATTACH (R399). -/
def execDebugAttach (ctx : Nat) (s : State) : Host.Outcome State Fault Refusal := .next (s.attach ctx)
/-- DEBUG_DETACH (R399). -/
def execDebugDetach (ctx : Nat) (s : State) : Host.Outcome State Fault Refusal := .next (s.detach ctx)
/-- DEBUG_RESEAL (R399). -/
def execDebugReseal (ctx : Nat) (s : State) : Host.Outcome State Fault Refusal := .next (s.cmdReseal ctx)
/-- DEBUG_STEP (R399): the command, and while a step is under way its progress. -/
def execDebugStep (ctx : Nat) (s : State) : Host.Outcome State Fault Refusal :=
  .next (match (s.ctx ctx).dbg.step with
    | some st => s.endStep ctx st
    | none => s.beginStep ctx)

/-- A step's skein has issued. -/
def State.noteStep (s : State) (u : Nat) : State :=
  let c := (s.sk u).ctx
  match (s.ctx c).dbg.step with
  | some st => if s.issue.isRep then s else s.updDebug c fun d => { d with step := some { st with issued := true } }
  | none => s

/-! ### The block's settings (R398) -/

/-- R400: STOPEN and STOPID written; the old ones act to the end of the tick. -/
def Debug.setStops (d : Debug) (now : Nat) (en : BitVec 4) (ids : Lane) : Debug :=
  { d with stopEn := en, stopId := ids, stopsAt := now, stopsWere := if d.stopsAt = now then d.stopsWere else (d.stopEn, d.stopId) }

/-- R398: the sampling and trace control word. -/
def State.writeDebugCtl (s : State) (c : Nat) (v : Lane) : State :=
  let k := v.extractLsb' 8 5
  let tren := v.extractLsb' 16 4
  if (1 ≤ k.toNat ∧ k.toNat ≤ 3) ∨ 24 < k.toNat ∨ ((k ≠ 0 ∨ tren ≠ 0) ∧ (s.ctx c).dbg.scap = 0) then s.debugErr c 3
  else s.updDebug c fun d =>
    { d.setStops s.now (v.extractLsb' 0 4) d.stopId with tren := tren, k := k, counts := if k = 0 then [] else d.counts }

/-- R398: SBASE or SCAP, in their state and limits. -/
def State.writeDebugArea (s : State) (c : Nat) (ok : Bool) (f : Debug → Debug) : State :=
  let d := (s.ctx c).dbg
  if d.k ≠ 0 ∨ d.tren ≠ 0 ∨ !ok then s.debugErr c 3 else s.updDebug c f

/-- R398: a write at an offset of the block. -/
def State.writeDebug (s : State) (c off : Nat) (v : Lane) : State :=
  if 2048 ≤ c then s
  else if s.protected (s.ctx c).part then s.debugErr c 7
  else
    match off with
    | 0x00 =>
      match (v.extractLsb' 0 4).toNat with
      | 0 => s
      | 1 => s.attach c
      | 2 => s.detach c
      | 3 => s.cmdReseal c
      | 4 => s.beginStep c
      | _ => if (s.ctx c).dbg.busy then s.debugErr c 2 else s.debugErr c 1
    | 0x08 => s.updDebug c fun d => d.setStops s.now d.stopEn v
    | 0x10 => s.writeDebugCtl c v
    | 0x18 => s.writeDebugArea c (v.toNat % 64 == 0) fun d => { d with sbase := v }
    | 0x20 => s.writeDebugArea c (capOk (v.toNat % 2 ^ 32)) fun d => { d with scap := v.setWidth 32 }
    | 0x28 => s.updDebug c fun d => { d with skn := v.extractLsb' 32 5, team := v.extractLsb' 0 24 }
    | _ => s

/-- DEBUG_BLOCK_WRITE (R398, R400). -/
def execDebugBlockWrite (ctx off : Nat) (value : Lane) (s : State) : Host.Outcome State Fault Refusal := .next (s.writeDebug ctx off value)

end Sys2Proof.Machine
end

