-- ==== Sys2Proof/Machine/Host.lean ====
section
/-!
DEFINITION. Writes to the device's registers through BAR0 and BAR2 (R339, R340, R345, R346, R360, R362, R363, R366, R379, R385,
R389, R391, R393, R398). One write carries the value of the one field that begins at its offset (log 21).
-/

namespace Sys2Proof.Machine

/-! ### Context control blocks (R340, R342) -/

/-- R342: a command written to CTL. -/
def State.writeCtl (s : State) (pf : Bool) (c cmd : Nat) : State :=
  match cmd with
  | 0 => s
  | 1 => s.cmdStart pf c
  | 2 => s.cmdSave pf c
  | 3 => s.cmdRestore pf c
  | 4 => s.cmdKill pf c
  | 5 => s.cmdRelease pf c
  | 6 => s.cmdAllocate pf c
  | _ => s.ctxErr c 3

/-- R340: a field that may be written in state stopped. -/
def Context.setField (x : Context) (off : Nat) (v : Lane) : Option Context :=
  match off with
  | 0x08 => some { x with root := v }
  | 0x10 => some { x with trapPc := v }
  | 0x18 => some { x with saveBase := v }
  | 0x20 => some { x with saveSize := v }
  | 0x28 => some { x with evBase := v }
  | 0x30 => some { x with evCap := v.setWidth 32 }
  | 0x34 => some { x with msix := v.setWidth 16 }
  | 0x38 => some { x with wake := v }
  | 0x40 => some { x with condPc := v }
  | 0x48 => some { x with condParam := v }
  | _ => none

/-- R340: PART, by the physical function, in state free. -/
def State.writePart (s : State) (pf : Bool) (c : Nat) (v : Lane) : State :=
  let p := (v.extractLsb' 0 8).toNat
  if !pf then s
  else if (s.ctx c).state != .free then s.ctxErr c 1
  else if s.mode ≤ p || ((s.ctx c).vf.any fun x => s.vfFull x.1 p) then s.ctxErr c 9
  else s.updCtx c fun x => { x with part := p }

/-- R340, R372: a write at an offset of a control block: of a locked context's, the physical function writes the kill command alone. -/
def State.writeCtx (s : State) (pf : Bool) (c off : Nat) (v : Lane) : State :=
  if 2048 ≤ c then s
  else if pf && s.locked (s.ctx c).part && (off != 0 || v.extractLsb' 0 4 != 4) then s.ctxErr c 7
  else if off = 0 then s.writeCtl pf c (v.extractLsb' 0 4).toNat
  else if off = 0x36 then s.writePart pf c v
  else if off = 0x58 then s.updCtx c fun x => { x with wdog := v.setWidth 32 }
  else
    match (s.ctx c).setField off v with
    | none => s
    | some x => if (s.ctx c).state = .stopped then s.updCtx c fun _ => x else s.ctxErr c 1

/-! ### Partition blocks (R366) -/

/-- R366: a range of frames overlaps another partition's. -/
def State.framesClash (s : State) (p die lo n : Nat) : Bool :=
  s.partitions.any fun q =>
    let (a, m) := q.frames.getD die (0, 0)
    q.num != p && m != 0 && n != 0 && decide (lo < a + m) && decide (a < lo + n)

/-- R366: a field that may be written in state idle. -/
def State.writeIdle (s : State) (p : Nat) (f : Partition → Partition) : State :=
  if (s.part p).state = .idle then s.updPart p f else s.partErr p 1

/-- R366: FRAMEd. -/
def State.writeFrames (s : State) (p die : Nat) (v : Lane) : State :=
  let lo := (v.extractLsb' 0 32).toNat
  let n := (v.extractLsb' 32 32).toNat
  if (s.part p).state != .idle then s.partErr p 1
  else if Config.wellFrames < lo + n || s.framesClash p die lo n then s.partErr p 2
  else s.updPart p fun x => { x with frames := listUpd x.frames die fun _ => (lo, n) }

/-- R366: 64 bits of REACH. -/
def Partition.setReach (x : Partition) (i : Nat) (v : Lane) : Partition :=
  { x with reach := (List.range 512).map fun n => if n / 64 = i then v.getLsbD (n % 64) else x.reach.getD n false }

/-- R366, R372: a write at an offset of a partition block. -/
def State.writePartBlock (s : State) (p off : Nat) (v : Lane) : State :=
  if s.mode ≤ p then s
  else if s.locked p then s.partErr p 7
  else if off = 0 then
    match (v.extractLsb' 0 4).toNat with
    | 0 => s
    | 1 => s.activate p
    | 2 => s.rekey p
    | 3 => s.releasePart p
    | _ => s.partCmd p false false id
  else if off = 0x80 then s.clockWrite p v
  else if off = 0x08 then s.writeIdle p fun x => { x with pmsix := v &&& 0x7FF }
  else if off = 0x30 then s.updPart p fun x => { x with dowser := v.getLsbD 0 }
  else if 0x10 ≤ off && off < 0x30 && off % 8 == 0 then s.writeFrames p (off / 8 - 2) v
  else if 0x40 ≤ off && off < 0x80 && off % 8 == 0 then s.writeIdle p fun x => x.setReach (off / 8 - 8) v
  else s

/-! ### The other blocks of BAR0 -/

/-- R385: a word of an export window; a BASE or LEN outside its limits is ignored. -/
def State.writeWindow (s : State) (w off : Nat) (v : Lane) : State :=
  let o := s.window w
  let put (n : Window) : State := { s with windows := (w, n.w0, n.base, n.len) :: s.windows.filter fun x => x.1 != w }
  if 256 ≤ w then s
  else
    match off with
    | 0x00 => put { o with w0 := v &&& 0x000001FF07FF3F1F }
    | 0x08 => if v.toNat % 65536 = 0 then put { o with base := v } else s
    | 0x10 => if v.toNat % 65536 = 0 ∧ v.toNat ≤ 2 ^ 44 then put { o with len := v } else s
    | _ => s

/-- R389: a word of a group entry. -/
def State.writeGroupWord (s : State) (g off : Nat) (v : Lane) : State :=
  let (w0, w1) := s.groupEntry g
  match off with
  | 0 => s.writeGroup g v w1
  | 8 => s.writeGroup g w0 v
  | _ => s

/-- R360: the root of a function's partition stage. -/
def State.writeRoot (s : State) (vf : Nat) (v : Lane) : State :=
  if 192 ≤ vf then s else { s with vfRoots := (vf, v) :: s.vfRoots.filter fun x => x.1 != vf }

/-- R363: FLTRESP. -/
def State.writeFltResp (s : State) (v : Lane) : State :=
  let c := (v.extractLsb' 0 11).toNat
  let seq := v.extractLsb' 16 32
  if v.getLsbD 63 then s.answerFail c seq else s.answerRetry c seq

/-- The registers below 0x1_0000. -/
def State.writeBase (s : State) (off : Nat) (v : Lane) : State :=
  if off = 0x8 then s.boot v
  else if off = 0x100 then s.invalidate v
  else if off = 0x108 then { s with invAddr := v }
  else if off = 0x120 then s.writeFltResp v
  else if off = 0x490 then { s with ubMsix := v &&& 0x7FF }
  else if off = 0x500 then s.writeLimit v
  else if 0x400 ≤ off && off < 0x490 && off % 8 == 0 then s.holdPort ((off - 0x400) / 8) (v.getLsbD 0)
  else s

/-- BAR0 of the physical function. -/
def State.writeBar0 (s : State) (off : Nat) (v : Lane) : State :=
  if off < 0x10000 then s.writeBase off v
  else if off < 0x28000 then
    (if off % 8 = 0 then s.assignSlot ((off - 0x10000) / 512) (off % 512 / 8) (v.setWidth 16) else s)
  else if off < 0x30000 then s
  else if off < 0x40000 then s.writePartBlock ((off - 0x30000) / 256) (off % 256) v
  else if off < 0x50000 then s.writeWindow ((off - 0x40000) / 32) (off % 32) v
  else if off < 0x60000 then s.writeGroupWord ((off - 0x50000) / 16) (off % 16) v
  else if off < 0x70000 then (if off % 32 = 0x18 then s.writePower ((off - 0x60000) / 32) v else s)
  else if off < 0x80000 then (if off % 8 = 0 then s.writeRoot ((off - 0x70000) / 8) v else s)
  else if off < 0x90000 then { s with mem := s.mem.writeN (stagingKey (off - 0x80000)) (toBytes (min 8 (0x90000 - off)) v.toNat) }
  else if off < 0xA0000 then s
  else s.writeDebug ((off - 0xA0000) / 64) (off % 64) v

/-- BAR2 of a virtual function: a slot without a context ignores writes, and so does a function the record does not enable. -/
def State.writeSlot (s : State) (vf slot off : Nat) (v : Lane) : State :=
  if (match s.record with | some r => r.vfs | none => 0) ≤ vf then s
  else
    match s.slotCtx vf slot with
    | some c => s.writeCtx false c off v
    | none => s

/-- A register write of the host: offsets below 1 MiB lie in BAR0, the rest in BAR2 from there on (log 21). -/
def State.writeReg (s : State) (pf : Bool) (off : Nat) (v : Lane) : State :=
  if off < 2 ^ 20 then (if pf then s.writeBar0 off v else s)
  else
    let o := off - 2 ^ 20
    if pf then s.writeCtx true (o / 256) (o % 256) v else s.writeSlot (o / 16384) (o % 16384 / 256) (o % 256) v

/-- REGISTER_WRITE (R339, R340). -/
def execRegisterWrite (pf : Bool) (off : Nat) (value : Lane) (s : State) : Host.Outcome State Fault Refusal := .next (s.writeReg pf off value)

end Sys2Proof.Machine
end

