-- ==== Sys2Proof/Machine/Swap.lean ====
section
/-!
DEFINITION. Growing register counts under pressure (R37 to R39, R292, R353): the grants, and the swap-out of skeins to their slots
of the save area and back.
-/

namespace Sys2Proof.Machine

/-- R93, R268, R354: nothing of a skein is still to settle before its record is written: no operation of seep, no pass of a matrix
operation it signed. -/
def State.swapReady (s : State) (k : Skein) : Bool :=
  !(s.accesses.any fun a => a.sk == k.uid && !a.done && a.settles) &&
    !(s.mats.any fun m => m.running && ((s.team m.team).cvAt m.cv).signs.any fun g => g.sk == k.uid)

/-- R33, R272, R354: what stops before a skein is swapped out: its arrivals at the grid's barrier count no longer, and its panel
reads go. -/
def State.leaveY (s : State) (y : Skein) : State := (s.leaveGbar y).stopReads fun a => a.sk == y.uid

/-- R39: when every resident skein of the quadrant waits in `grow`, the youngest give up slot and storage until the oldest
can be granted. A conductor halts with its context alone (R343). The record of a skein that leaves goes to its slot of the save
area (R356); while that write is held, the skein stays (R364). -/
def State.swapOut (s : State) (core quad : Nat) : Nat → State
  | 0 => s
  | n + 1 =>
    let res := s.skeins.filter fun k => k.slot.isSome && k.core == core && k.quad == quad
    if 2048 ≤ s.quadFree core quad ∨ res.any (fun k => k.growing.isNone) then s
    else
      match maxBy s.rank (res.filter fun k => !k.conductor) with
      | none => s
      | some y =>
        if !s.swapReady y then s
        else
          match ((s.leaveY y).updSk y.uid fun k => { (s.stopCount k).halt with slot := none }).writeRecord y.uid with
          | .ok s' => s'.swapOut core quad n
          | .error a => s.holdSave y.ctx a

/-- GROW_GRANT (R38, R39): the oldest waiting grow is granted, or the quadrant swaps skeins out. -/
def execGrowGrant (core quad : Nat) (s : State) : Host.Outcome State Fault Refusal :=
  .next ((s.swapOut core quad 16).grantGrow core quad)

/-- grow (R37, R38, R292). -/
def execGrow (s : State) : Host.Outcome State Fault Refusal :=
  let k := s.cur
  s.finish (illIf (k.regCount == 64) .state)
    (if 2048 ≤ s.quadFree k.core k.quad ∧ !s.olderGrows k then (s.updCur Skein.grown).advance
     else (s.beginWait .grow .grow).swapOut k.core k.quad 16)

/-- R39, R43, R115: a swapped-out skein comes back to its quadrant as its record says, its grow complete, its loads sent anew,
unless an older skein that waits could use the storage (R38); it stays out while its record cannot be read. -/
def State.swapBack (s : State) (u : Nat) : State :=
  match s.sk? u, s.readRecord u with
  | some k, some r =>
    match k.slot, r.growing, s.freeSlots k.core k.quad with
    | none, some w, n :: _ =>
      if 256 * (k.regCount + 8) ≤ s.quadFree k.core k.quad ∧ !s.olderGrows k then
        let s := s.updSk u fun _ =>
          { (r.endWait w).grown with slot := some n, age := ageAt s.now k.age, idleAt := s.now, replays := [], saved := [] }
        State.replayAll (as := r.replays) { s with accesses := s.accesses ++ r.replays }
      else s
    | _, _, _ => s
  | _, _ => s

/-- SWAP_IN. -/
def execSwapIn (sk : Nat) (s : State) : Host.Outcome State Fault Refusal :=
  .next ((s.swapBack sk).swapOut (s.sk sk).core (s.sk sk).quad 16)

end Sys2Proof.Machine
end

