-- ==== Sys2Proof/Machine/Dispatch.lean ====
section
/-!
DEFINITION. The meaning of every instruction: one arm per constructor, one meaning per arm.
-/

namespace Sys2Proof.Machine

/-- One instruction's effect. -/
def exec (i : Instr) (s : State) : Host.Outcome State Fault Refusal :=
  match i with
  | .nop g => Sys2Proof.Machine.execNop g s
  | .mov g d b p => Sys2Proof.Machine.execMov g d b p s
  | .movImm g d imm => Sys2Proof.Machine.execMovImm g d imm s
  | .movi g d imm => Sys2Proof.Machine.execMovi g d imm s
  | .add g d a b p => Sys2Proof.Machine.execAdd g d a b p s
  | .addImm g d a imm => Sys2Proof.Machine.execAddImm g d a imm s
  | .sub g d a b p => Sys2Proof.Machine.execSub g d a b p s
  | .subImm g d a imm => Sys2Proof.Machine.execSubImm g d a imm s
  | .addsatI g d a b p => Sys2Proof.Machine.execAddsatI g d a b p s
  | .addsatIImm g d a imm => Sys2Proof.Machine.execAddsatIImm g d a imm s
  | .addsatN g d a b p => Sys2Proof.Machine.execAddsatN g d a b p s
  | .addsatNImm g d a imm => Sys2Proof.Machine.execAddsatNImm g d a imm s
  | .subsatI g d a b p => Sys2Proof.Machine.execSubsatI g d a b p s
  | .subsatIImm g d a imm => Sys2Proof.Machine.execSubsatIImm g d a imm s
  | .subsatN g d a b p => Sys2Proof.Machine.execSubsatN g d a b p s
  | .subsatNImm g d a imm => Sys2Proof.Machine.execSubsatNImm g d a imm s
  | .mul g d a b p => Sys2Proof.Machine.execMul g d a b p s
  | .mulImm g d a imm => Sys2Proof.Machine.execMulImm g d a imm s
  | .mulhiI g d a b p => Sys2Proof.Machine.execMulhiI g d a b p s
  | .mulhiIImm g d a imm => Sys2Proof.Machine.execMulhiIImm g d a imm s
  | .mulhiN g d a b p => Sys2Proof.Machine.execMulhiN g d a b p s
  | .mulhiNImm g d a imm => Sys2Proof.Machine.execMulhiNImm g d a imm s
  | .minI g d a b p => Sys2Proof.Machine.execMinI g d a b p s
  | .minIImm g d a imm => Sys2Proof.Machine.execMinIImm g d a imm s
  | .minN g d a b p => Sys2Proof.Machine.execMinN g d a b p s
  | .minNImm g d a imm => Sys2Proof.Machine.execMinNImm g d a imm s
  | .maxI g d a b p => Sys2Proof.Machine.execMaxI g d a b p s
  | .maxIImm g d a imm => Sys2Proof.Machine.execMaxIImm g d a imm s
  | .maxN g d a b p => Sys2Proof.Machine.execMaxN g d a b p s
  | .maxNImm g d a imm => Sys2Proof.Machine.execMaxNImm g d a imm s
  | .and g d a b p => Sys2Proof.Machine.execAnd g d a b p s
  | .andImm g d a imm => Sys2Proof.Machine.execAndImm g d a imm s
  | .or g d a b p => Sys2Proof.Machine.execOr g d a b p s
  | .orImm g d a imm => Sys2Proof.Machine.execOrImm g d a imm s
  | .xor g d a b p => Sys2Proof.Machine.execXor g d a b p s
  | .xorImm g d a imm => Sys2Proof.Machine.execXorImm g d a imm s
  | .andn g d a b p => Sys2Proof.Machine.execAndn g d a b p s
  | .andnImm g d a imm => Sys2Proof.Machine.execAndnImm g d a imm s
  | .shl g d a b p => Sys2Proof.Machine.execShl g d a b p s
  | .shlImm g d a imm => Sys2Proof.Machine.execShlImm g d a imm s
  | .shrN g d a b p => Sys2Proof.Machine.execShrN g d a b p s
  | .shrNImm g d a imm => Sys2Proof.Machine.execShrNImm g d a imm s
  | .shrI g d a b p => Sys2Proof.Machine.execShrI g d a b p s
  | .shrIImm g d a imm => Sys2Proof.Machine.execShrIImm g d a imm s
  | .abs g d a => Sys2Proof.Machine.execAbs g d a s
  | .neg g d a => Sys2Proof.Machine.execNeg g d a s
  | .not g d a => Sys2Proof.Machine.execNot g d a s
  | .mad g d a b p c => Sys2Proof.Machine.execMad g d a b p c s
  | .mac2 g d a b p c => Sys2Proof.Machine.execMac2 g d a b p c s
  | .rshr g d a sh u he nw => Sys2Proof.Machine.execRshr g d a sh u he nw s
  | .popc g d a => Sys2Proof.Machine.execPopc g d a s
  | .clz g d a => Sys2Proof.Machine.execClz g d a s
  | .brev g d a => Sys2Proof.Machine.execBrev g d a s
  | .bfxI g d a pos len1 => Sys2Proof.Machine.execBfxI g d a pos len1 s
  | .bfxN g d a pos len1 => Sys2Proof.Machine.execBfxN g d a pos len1 s
  | .bfi g d a c pos len1 => Sys2Proof.Machine.execBfi g d a c pos len1 s
  | .cmp g cond wd a b p np sub => Sys2Proof.Machine.execCmp g cond wd a b p np sub s
  | .fadd g d a src => Sys2Proof.Machine.execFadd g d a src s
  | .fsub g d a src => Sys2Proof.Machine.execFsub g d a src s
  | .fmul g d a src => Sys2Proof.Machine.execFmul g d a src s
  | .ffma g d a b p c ctl => Sys2Proof.Machine.execFfma g d a b p c ctl s
  | .fscale g d a b p ctl => Sys2Proof.Machine.execFscale g d a b p ctl s
  | .fmin g d a src => Sys2Proof.Machine.execFmin g d a src s
  | .fmax g d a src => Sys2Proof.Machine.execFmax g d a src s
  | .fneg g d a => Sys2Proof.Machine.execFneg g d a s
  | .fabs g d a => Sys2Proof.Machine.execFabs g d a s
  | .fdot2 g d a b p c ctl => Sys2Proof.Machine.execFdot2 g d a b p c ctl s
  | .frnd g d a ctl => Sys2Proof.Machine.execFrnd g d a ctl s
  | .fclass g d a ctl => Sys2Proof.Machine.execFclass g d a ctl s
  | .fcmp g cond d a b p ctl => Sys2Proof.Machine.execFcmp g cond d a b p ctl s
  | .frcp g d a ctl => Sys2Proof.Machine.execFrcp g d a ctl s
  | .frsqrt g d a ctl => Sys2Proof.Machine.execFrsqrt g d a ctl s
  | .fsqrt g d a ctl => Sys2Proof.Machine.execFsqrt g d a ctl s
  | .fexp2 g d a ctl => Sys2Proof.Machine.execFexp2 g d a ctl s
  | .flog2 g d a ctl => Sys2Proof.Machine.execFlog2 g d a ctl s
  | .fsin g d a ctl => Sys2Proof.Machine.execFsin g d a ctl s
  | .fcos g d a ctl => Sys2Proof.Machine.execFcos g d a ctl s
  | .cvt g dst src d a ctl => Sys2Proof.Machine.execCvt g dst src d a ctl s
  | .pack g dst src d a c part ctl => Sys2Proof.Machine.execPack g dst src d a c part ctl s
  | .unpack g dst src d a part ctl => Sys2Proof.Machine.execUnpack g dst src d a part ctl s
  | .shfl g mode d a b mask fill amt => Sys2Proof.Machine.execShfl g mode d a b mask fill amt s
  | .slide g down d a nb mask fill amt => Sys2Proof.Machine.execSlide g down d a nb mask fill amt s
  | .vote g op d mask dep => Sys2Proof.Machine.execVote g op d mask dep s
  | .redux g op d a mask seg h fzo fzi => Sys2Proof.Machine.execRedux g op d a mask seg h fzo fzi s
  | .tbl g d a b wide cnt1 fill => Sys2Proof.Machine.execTbl g d a b wide cnt1 fill s
  | .lid g d sel => Sys2Proof.Machine.execLid g d sel s
  | .sel g d a b p by' => Sys2Proof.Machine.execSel g d a b p by' s
  | .ppush g a sub => Sys2Proof.Machine.execPpush g a sub s
  | .ppop g k => Sys2Proof.Machine.execPpop g k s
  | .pmovFromPred g d => Sys2Proof.Machine.execPmovFromPred g d s
  | .pmovToPred g a => Sys2Proof.Machine.execPmovToPred g a s
  | .plog g repl tt dx dy => Sys2Proof.Machine.execPlog g repl tt dx dy s
  | .ppick g roll k => Sys2Proof.Machine.execPpick g roll k s
  | .tag g d a => Sys2Proof.Machine.execTag g d a s
  | .iota g d base stride => Sys2Proof.Machine.execIota g d base stride s
  | .stk g d => Sys2Proof.Machine.execStk g d s
  | .rep cnt1 step => Sys2Proof.Machine.execRep cnt1 step s
  | .lset g n bound => Sys2Proof.Machine.execLset g n bound s
  | .loop off => Sys2Proof.Machine.execLoop off s
  | .asset g n field src => Sys2Proof.Machine.execAsset g n field src s
  | .asget g d n field => Sys2Proof.Machine.execAsget g d n field s
  | .kget g d n bnd => Sys2Proof.Machine.execKget g d n bnd s
  | .br g off => Sys2Proof.Machine.execBr g off s
  | .jmp g a => Sys2Proof.Machine.execJmp g a s
  | .jmpL g a => Sys2Proof.Machine.execJmpL g a s
  | .call g off => Sys2Proof.Machine.execCall g off s
  | .ret g => Sys2Proof.Machine.execRet g s
  | .jmpf g a l n => Sys2Proof.Machine.execJmpf g a l n s
  | .exit g => Sys2Proof.Machine.execExit g s
  | .yield => Sys2Proof.Machine.execYield s
  | .meld g p4 db da => Sys2Proof.Machine.execMeld g p4 db da s
  | .mend g => Sys2Proof.Machine.execMend g s
  | .ldpm g n a => Sys2Proof.Machine.execLdpm g n a s
  | .enter na id => Sys2Proof.Machine.execEnter na id s
  | .leave => Sys2Proof.Machine.execLeave s
  | .trap g code => Sys2Proof.Machine.execTrap g code s
  | .brk g => Sys2Proof.Machine.execBrk g s
  | .sleep src => Sys2Proof.Machine.execSleep src s
  | .ipref off => Sys2Proof.Machine.execIpref off s
  | .ld g d m w => Sys2Proof.Machine.execLd g d m w s
  | .ldExt g d m w e => Sys2Proof.Machine.execLdExt g d m w e s
  | .st g d m w => Sys2Proof.Machine.execSt g d m w s
  | .stExt g d m w e => Sys2Proof.Machine.execStExt g d m w e s
  | .ldsc g d m w => Sys2Proof.Machine.execLdsc g d m w s
  | .ldscExt g d m w e => Sys2Proof.Machine.execLdscExt g d m w e s
  | .stsc g d m w => Sys2Proof.Machine.execStsc g d m w s
  | .stscExt g d m w e => Sys2Proof.Machine.execStscExt g d m w e s
  | .sld g d m w => Sys2Proof.Machine.execSld g d m w s
  | .sldExt g d m w e => Sys2Proof.Machine.execSldExt g d m w e s
  | .sst g d m w => Sys2Proof.Machine.execSst g d m w s
  | .sstExt g d m w e => Sys2Proof.Machine.execSstExt g d m w e s
  | .srenew g d m => Sys2Proof.Machine.execSrenew g d m s
  | .slife g d m => Sys2Proof.Machine.execSlife g d m s
  | .amo g op d m size order c scope hint => Sys2Proof.Machine.execAmo g op d m size order c scope hint s
  | .fence scope => Sys2Proof.Machine.execFence scope s
  | .waitw g d m size order c scope cond t => Sys2Proof.Machine.execWaitw g d m size order c scope cond t s
  | .prefdL1 g m => Sys2Proof.Machine.execPrefdL1 g m s
  | .prefdL2 g m => Sys2Proof.Machine.execPrefdL2 g m s
  | .codefetch g n m size order lines1 => Sys2Proof.Machine.execCodefetch g n m size order lines1 s
  | .residReg g d a b prio => Sys2Proof.Machine.execResidReg g d a b prio s
  | .residPrio g a prio => Sys2Proof.Machine.execResidPrio g a prio s
  | .residDemote g a prio => Sys2Proof.Machine.execResidDemote g a prio s
  | .residEvict g n a => Sys2Proof.Machine.execResidEvict g n a s
  | .residDrop g a => Sys2Proof.Machine.execResidDrop g a s
  | .qpush g a n => Sys2Proof.Machine.execQpush g a n s
  | .qpop g d n => Sys2Proof.Machine.execQpop g d n s
  | .mcfg g n mask e => Sys2Proof.Machine.execMcfg g n mask e s
  | .msign n a b c => Sys2Proof.Machine.execMsign n a b c s
  | .maccFrom g d n => Sys2Proof.Machine.execMaccFrom g d n s
  | .maccTo g a n => Sys2Proof.Machine.execMaccTo g a n s
  | .mzero g n => Sys2Proof.Machine.execMzero g n s
  | .pld g d m size order e => Sys2Proof.Machine.execPld g d m size order e s
  | .pst g d m size order e => Sys2Proof.Machine.execPst g d m size order e s
  | .qnt g d a pos fmt sat planes sgn ctr => Sys2Proof.Machine.execQnt g d a pos fmt sat planes sgn ctr s
  | .dqnt g d a pos => Sys2Proof.Machine.execDqnt g d a pos s
  | .pump g n a b c e => Sys2Proof.Machine.execPump g n a b c e s
  | .coll g n a b c e => Sys2Proof.Machine.execColl g n a b c e s
  | .hwait g n => Sys2Proof.Machine.execHwait g n s
  | .htest g d n => Sys2Proof.Machine.execHtest g d n s
  | .hcancel g n => Sys2Proof.Machine.execHcancel g n s
  | .tlwait g n a => Sys2Proof.Machine.execTlwait g n a s
  | .bar g n cnt => Sys2Proof.Machine.execBar g n cnt s
  | .gbar g => Sys2Proof.Machine.execGbar g s
  | .launch g n a => Sys2Proof.Machine.execLaunch g n a s
  | .gridgrow g d n => Sys2Proof.Machine.execGridgrow g d n s
  | .grow => Sys2Proof.Machine.execGrow s
  | .shrink => Sys2Proof.Machine.execShrink s
  | .sysr g d num => Sys2Proof.Machine.execSysr g d num s
  | .sysw g num a => Sys2Proof.Machine.execSysw g num a s
  | .tret => Sys2Proof.Machine.execTret s
  | .slewArrival cluster => Sys2Proof.Machine.execSlewArrival cluster s
  | .dispatchTeam part => Sys2Proof.Machine.execDispatchTeam part s
  | .gridRetire grid => Sys2Proof.Machine.execGridRetire grid s
  | .barrierWave release => Sys2Proof.Machine.execBarrierWave release s
  | .growGrant core quad => Sys2Proof.Machine.execGrowGrant core quad s
  | .swapIn sk => Sys2Proof.Machine.execSwapIn sk s
  | .skeinSlotRelease sk => Sys2Proof.Machine.execSkeinSlotRelease sk s
  | .syncComplete sk wait => Sys2Proof.Machine.execSyncComplete sk wait s
  | .memberDeadlock sk => Sys2Proof.Machine.execMemberDeadlock sk s
  | .accessPerform id => Sys2Proof.Machine.execAccessPerform id s
  | .wctReturn id => Sys2Proof.Machine.execWctReturn id s
  | .registerWriteLand sk op => Sys2Proof.Machine.execRegisterWriteLand sk op s
  | .sourceRelease sk op => Sys2Proof.Machine.execSourceRelease sk op s
  | .remoteAcknowledgement id wct => Sys2Proof.Machine.execRemoteAcknowledgement id wct s
  | .faultRecordArrival id code => Sys2Proof.Machine.execFaultRecordArrival id code s
  | .remoteAckTimeout id => Sys2Proof.Machine.execRemoteAckTimeout id s
  | .fenceComplete sk wait => Sys2Proof.Machine.execFenceComplete sk wait s
  | .waitwReread sk wait => Sys2Proof.Machine.execWaitwReread sk wait s
  | .waitwTimeout sk wait => Sys2Proof.Machine.execWaitwTimeout sk wait s
  | .sleepWake sk wait => Sys2Proof.Machine.execSleepWake sk wait s
  | .queueStep sk wait => Sys2Proof.Machine.execQueueStep sk wait s
  | .pldHeaderArrival sk wait => Sys2Proof.Machine.execPldHeaderArrival sk wait s
  | .gridgrowAnswer sk wait => Sys2Proof.Machine.execGridgrowAnswer sk wait s
  | .dowserEvaluation => Sys2Proof.Machine.execDowserEvaluation s
  | .dowserChunkCopy => Sys2Proof.Machine.execDowserChunkCopy s
  | .seepSweepVisit seep tile => Sys2Proof.Machine.execSeepSweepVisit seep tile s
  | .renewEnd seep tile => Sys2Proof.Machine.execRenewEnd seep tile s
  | .pumpSegment op => Sys2Proof.Machine.execPumpSegment op s
  | .operationComplete op => Sys2Proof.Machine.execOperationComplete op s
  | .collTimeout op => Sys2Proof.Machine.execCollTimeout op s
  | .matrixPassGrant core => Sys2Proof.Machine.execMatrixPassGrant core s
  | .matrixPassEnd core => Sys2Proof.Machine.execMatrixPassEnd core s
  | .lineFill core line => Sys2Proof.Machine.execLineFill core line s
  | .watchdogFire sk => Sys2Proof.Machine.execWatchdogFire sk s
  | .alteredExecution sk => Sys2Proof.Machine.execAlteredExecution sk s
  | .candidateSearch core pc cand => Sys2Proof.Machine.execCandidateSearch core pc cand s
  | .bastingCompare core pc => Sys2Proof.Machine.execBastingCompare core pc s
  | .seamCheck core pc => Sys2Proof.Machine.execSeamCheck core pc s
  | .contextAllocate pf ctx => Sys2Proof.Machine.execContextAllocate pf ctx s
  | .contextStart pf ctx => Sys2Proof.Machine.execContextStart pf ctx s
  | .conductorPlace ctx => Sys2Proof.Machine.execConductorPlace ctx s
  | .contextSave pf ctx => Sys2Proof.Machine.execContextSave pf ctx s
  | .contextHalted ctx => Sys2Proof.Machine.execContextHalted ctx s
  | .imageWriteComplete ctx => Sys2Proof.Machine.execImageWriteComplete ctx s
  | .contextRestore pf ctx => Sys2Proof.Machine.execContextRestore pf ctx s
  | .restorePlace ctx => Sys2Proof.Machine.execRestorePlace ctx s
  | .autoRestore ctx => Sys2Proof.Machine.execAutoRestore ctx s
  | .contextKill pf ctx => Sys2Proof.Machine.execContextKill pf ctx s
  | .contextRelease pf ctx => Sys2Proof.Machine.execContextRelease pf ctx s
  | .vfSlotAssign vf slot value => Sys2Proof.Machine.execVfSlotAssign vf slot value s
  | .bootConfigure value => Sys2Proof.Machine.execBootConfigure value s
  | .deviceReset => Sys2Proof.Machine.execDeviceReset s
  | .hostMemAccess host addr write len => Sys2Proof.Machine.execHostMemAccess host addr write len s
  | .tlbInvalidate value => Sys2Proof.Machine.execTlbInvalidate value s
  | .invalidationComplete => Sys2Proof.Machine.execInvalidationComplete s
  | .faultRetry ctx seq => Sys2Proof.Machine.execFaultRetry ctx seq s
  | .faultFail ctx seq => Sys2Proof.Machine.execFaultFail ctx seq s
  | .partitionActivate part => Sys2Proof.Machine.execPartitionActivate part s
  | .partitionRekey part => Sys2Proof.Machine.execPartitionRekey part s
  | .partitionRelease part => Sys2Proof.Machine.execPartitionRelease part s
  | .partitionClockWrite part code => Sys2Proof.Machine.execPartitionClockWrite part code s
  | .keySweepLine part => Sys2Proof.Machine.execKeySweepLine part s
  | .sliceBoundary part => Sys2Proof.Machine.execSliceBoundary part s
  | .sessionOpen part h slice => Sys2Proof.Machine.execSessionOpen part h slice s
  | .heartbeat part => Sys2Proof.Machine.execHeartbeat part s
  | .heartbeatDeadline part => Sys2Proof.Machine.execHeartbeatDeadline part s
  | .frequencyStep cluster => Sys2Proof.Machine.execFrequencyStep cluster s
  | .eccWindow cluster => Sys2Proof.Machine.execEccWindow cluster s
  | .raiseExpiry cluster => Sys2Proof.Machine.execRaiseExpiry cluster s
  | .debugStep ctx => Sys2Proof.Machine.execDebugStep ctx s
  | .sampleRecord id => Sys2Proof.Machine.execSampleRecord id s
  | .registerWrite pf off value => Sys2Proof.Machine.execRegisterWrite pf off value s
  | .unassignedOpcode w => Sys2Proof.Machine.execUnassignedOpcode w s
  | .getMeasurements index vf => Sys2Proof.Machine.execGetMeasurements index vf s
  | .challenge nonce => Sys2Proof.Machine.execChallenge nonce s
  | .getCertificate => Sys2Proof.Machine.execGetCertificate s
  | .tdispLock vf => Sys2Proof.Machine.execTdispLock vf s
  | .portHold port hold => Sys2Proof.Machine.execPortHold port hold s
  | .portStateChange port st far => Sys2Proof.Machine.execPortStateChange port st far s
  | .flitReceive port f => Sys2Proof.Machine.execFlitReceive port f s
  | .retryRequest port seq => Sys2Proof.Machine.execRetryRequest port seq s
  | .idleFlitSend port => Sys2Proof.Machine.execIdleFlitSend port s
  | .loadRequest src addr size tag => Sys2Proof.Machine.execLoadRequest src addr size tag s
  | .postedStore src addr data tag => Sys2Proof.Machine.execPostedStore src addr data tag s
  | .atomicRequest src addr op size y cmpv tag => Sys2Proof.Machine.execAtomicRequest src addr op size y cmpv tag s
  | .response id data => Sys2Proof.Machine.execResponse id data s
  | .bulk op rank ok data => Sys2Proof.Machine.execBulk op rank ok data s
  | .timeFlitSend port => Sys2Proof.Machine.execTimeFlitSend port s
  | .timeFlitReceive port sent delay => Sys2Proof.Machine.execTimeFlitReceive port sent delay s
  | .timeLockLoss => Sys2Proof.Machine.execTimeLockLoss s
  | .sluiceGroupWrite group w0 w1 => Sys2Proof.Machine.execSluiceGroupWrite group w0 w1 s
  | .powerBlockWrite cluster value => Sys2Proof.Machine.execPowerBlockWrite cluster value s
  | .powerLimitWrite value => Sys2Proof.Machine.execPowerLimitWrite value s
  | .powerWindow watts => Sys2Proof.Machine.execPowerWindow watts s
  | .correctableError cluster => Sys2Proof.Machine.execCorrectableError cluster s
  | .uncorrectableError cluster target => Sys2Proof.Machine.execUncorrectableError cluster target s
  | .telemetryWindow watts temp => Sys2Proof.Machine.execTelemetryWindow watts temp s
  | .debugAttach ctx => Sys2Proof.Machine.execDebugAttach ctx s
  | .debugDetach ctx => Sys2Proof.Machine.execDebugDetach ctx s
  | .debugReseal ctx => Sys2Proof.Machine.execDebugReseal ctx s
  | .debugBlockWrite ctx off value => Sys2Proof.Machine.execDebugBlockWrite ctx off value s
  | .idleFlitReceive port f => Sys2Proof.Machine.execIdleFlitReceive port f s

end Sys2Proof.Machine
end

