-- ==== Sys2Proof/Machine/Sched.lean ====
section
/-!
DEFINITION. How a program is laid before the fetch (log 14), and the default scheduler (log 1): what the machine does next while
the agenda is empty.
-/

namespace Sys2Proof.Machine

/-! ### Laying an instruction before the fetch (log 14) -/

/-- Where `withFetchWord` puts its clause. -/
def probePc : Lane := 0x10000

/-- The clause of one instruction word: a header of the opcode's class, and after a `rep` a `nop` to repeat. -/
def probeBytes (nbits w : Nat) : List Byte :=
  let w0 : Word := BitVec.ofNat 32 (w % 2 ^ nbits)
  let x0 : Word := BitVec.ofNat 32 (w % 2 ^ nbits / 2 ^ 32)
  let op := Word.opcode w0
  let cls := match opInfo op with
    | some (_, some c, _) => c
    | _ => .vector
  let es : Es := if op = 0x3C then .e8 else .e32
  let h : Header := ⟨none, none, 0, cls, es, if op = 0x48 then 2 else 1⟩
  Word.bytes (encodeHeader h) ++ Word.bytes w0 ++
    (if Word.hasExt w0 then Word.bytes x0 else if op = 0x48 then Word.bytes 0x02000000 else [])

/-- A running context 0 with one grid, team and skein whose 32 threads stand at a clause held in level 0. -/
def State.layProbe (s : State) (bytes : List Byte) : State :=
  let n := s.idCtr
  let thread : Thread := { pc := probePc, exited := false }
  let k : Skein :=
    { uid := n + 2, ctx := 0, team := n + 1, slot := some 0, regCount := 64, threads := List.replicate 32 thread }
  let s := { s with
    grids := { uid := n, count := 1, next := 1, size := 32, regs := 64, entry := probePc } :: s.grids
    teams := { uid := n + 1, grid := some n, regs0 := 64 } :: s.teams
    skeins := k :: s.skeins
    ilines := { core := 0, quad := some 0, ctx := 0, line := lineOf probePc, bytes := bytes, used := s.now } :: s.ilines
    idCtr := n + 3
    agenda := [.issue (n + 2)] }
  (s.updCtx 0 fun c => { c with state := .running, halting := none }).updPart 0 fun p => { p with state := .active }

/-! ### The default scheduler -/

/-- A step of the device's own, of the host or of a peer: no word of a program encodes it. -/
def isEvent (i : Instr) : Bool := (encode i).isEmpty

/-- The steps a skein may have due. -/
def Skein.due (k : Skein) : List Instr :=
  [ k.ops.flatMap fun o => [.sourceRelease k.uid o.id, .registerWriteLand k.uid o.id],
    k.waits.flatMap fun w =>
      [.fenceComplete k.uid w.id, .sleepWake k.uid w.id, .queueStep k.uid w.id, .pldHeaderArrival k.uid w.id,
       .gridgrowAnswer k.uid w.id, .syncComplete k.uid w.id, .waitwTimeout k.uid w.id],
    [.growGrant k.core k.quad, .swapIn k.uid, .skeinSlotRelease k.uid, .memberDeadlock k.uid, .watchdogFire k.uid] ].flatten

/-- The steps a context may have due. -/
def Context.due (c : Context) : List Instr :=
  [.conductorPlace c.num, .contextHalted c.num, .imageWriteComplete c.num, .restorePlace c.num, .autoRestore c.num] ++
    (if c.dbg.step.isSome then [.debugStep c.num] else [])

/-- The steps that a cluster's power block may have due. -/
def State.powerDue (s : State) (c : Nat) : List Instr :=
  let p := s.powerOf c
  (if p.target.isSome then [.frequencyStep c] else []) ++ (if p.since + 1000000 ≤ s.now then [.eccWindow c] else []) ++
    (if p.raises.isEmpty then [] else [.raiseExpiry c])

/-- The device's own steps that may be due, in the order they are tried. -/
def State.due (s : State) : List Instr :=
  [ s.accesses.map fun a => .accessPerform a.id,
    s.accesses.map fun a => .wctReturn a.id,
    s.accesses.map fun a => .remoteAckTimeout a.id,
    s.ops.map fun o => .remoteAckTimeout o.uid,
    s.seeps.flatMap fun i => i.states.map fun t => .renewEnd i.uid t.idx,
    s.mats.flatMap fun m => [.matrixPassEnd m.core, .matrixPassGrant m.core],
    s.ireqs.map fun r => .lineFill r.core r.line,
    s.ops.flatMap fun o => [.pumpSegment o.uid, .operationComplete o.uid, .collTimeout o.uid],
    s.releases.map fun r => .barrierWave r.uid,
    s.skeins.flatMap Skein.due,
    s.samples.map fun x => .sampleRecord x.id,
    s.partitions.flatMap fun p => (p.slewWrites.map fun w => .slewArrival w.1) ++ [.sliceBoundary p.num, .heartbeatDeadline p.num],
    s.contexts.flatMap Context.due,
    s.grids.map fun g => .gridRetire g.uid,
    s.partitions.map fun p => .dispatchTeam p.num,
    s.heats.map fun h => .bastingCompare h.core h.pc,
    s.altered.map fun a => .seamCheck a.core a.pc,
    [.invalidationComplete, .dowserEvaluation],
    (List.range Config.clusters).flatMap s.powerDue ].flatten

/-- Background steps, taken in turn: re-reads of waits, the sweeps, the Dowser's copies. -/
def State.background (s : State) : List Instr :=
  s.skeins.flatMap (fun k => k.waits.map fun w => .waitwReread k.uid w.id) ++
  s.partitions.map (fun p => .keySweepLine p.num) ++
  s.seeps.flatMap (fun i => i.states.map fun t => .seepSweepVisit i.uid t.idx) ++
  [.dowserChunkCopy]

/-- A step that changes something, or stops the machine. -/
def State.changes (s : State) (i : Instr) : Bool :=
  match exec i s with
  | .next t => t != s
  | _ => true

/-! ### Bounds in time -/

/-- What a halt waits for, before it is complete (R354). -/
def State.haltSteps (s : State) (c : Nat) : List Instr :=
  [ (s.accesses.filter fun a => a.ctx == c).map fun a => .accessPerform a.id,
    (s.mats.filter fun m => m.ctx == c).map fun m => .matrixPassEnd m.core,
    (s.ops.filter fun o => o.ctx == c).map fun o => .pumpSegment o.uid,
    [.contextHalted c] ].flatten

/-- R59: a member deadlock has stood since no later than this: the last arrival at a synchronising instruction, or the last issue. -/
def Skein.stuckSince (k : Skein) : Nat := (k.waits.map (·.tick)).foldl max k.idleAt

/-- R143, R304: a store's long read whose skein has issued since: the store has read its registers by then (log 83). -/
def Skein.readOnly (k : Skein) (o : LongOp) : Bool :=
  o.pend.isEmpty && !o.matrix && !(o.held.isEmpty && o.setB.isNone) && decide (o.serial < k.issues)

/-- The bounds of a skein's waits, of its sources and of its watchdog (R59, R143, R237, R250, R291, R341). -/
def State.skeinBounds (s : State) (k : Skein) : List (Nat × Instr) :=
  (if s.watched k then [(k.idleAt + (s.patience k - k.idle), .watchdogFire k.uid)] else []) ++
  (if s.deadlocked k then [(k.stuckSince + s.cycleTicks (clusterOf k.core) 8, .memberDeadlock k.uid)] else []) ++
  ((k.ops.filter (k.readOnly ·)).map fun o => (o.sent, .sourceRelease k.uid o.id)) ++
  k.waits.flatMap fun w =>
    match w.kind with
    | .waitw _ lim => (w.readAt + 64, .waitwReread k.uid w.id) :: (lim.toList.map fun t => (t, .waitwTimeout k.uid w.id))
    | .sleep wake => [(s.localTick (clusterOf k.core) wake, .sleepWake k.uid w.id)]
    | .gridgrow _ t => [(t + 256, .gridgrowAnswer k.uid w.id)]
    | _ => []

/-- The bounds of a seep tile: a renew's end (R89), and the sweep that comes to a live tile every 2^20 ticks (R87). -/
def State.tileBounds (s : State) (i : SeepInst) (t : Tile) : List (Nat × Instr) :=
  (t.busy.toList.map fun e => (s.localTick i.cluster e, .renewEnd i.uid t.idx)) ++
  (if t.state = .live then [(s.now + 2 ^ 16 + 2 ^ 20 - t.age (s.nowAt i.cluster), .seepSweepVisit i.uid t.idx)] else [])

/-- The bounds of the engines' operations and of requests to peers (R113, R265, R284, R396). -/
def State.engineBounds (s : State) : List (Nat × Instr) :=
  [ (s.mats.filter (·.running)).map fun m => (m.ends, .matrixPassEnd m.core),
    (s.ops.filter fun o => match o.kind with | .coll .. => !o.done | _ => false).map fun o => (o.since + 2 ^ 24, .collTimeout o.uid),
    (s.accesses.filter fun a => a.place.isPeer && a.out).map fun a => (a.sent + 2 ^ 20, .remoteAckTimeout a.id),
    (s.ops.filter fun o => o.isPump && !o.done).flatMap fun o => (o.asked ++ o.outs).map fun m => (m.tick + 2 ^ 20, .remoteAckTimeout o.uid),
    s.releases.flatMap fun r => (r.begun.filter fun b => r.skeins.any fun x => x.1 == b.1).map fun b =>
      (b.2.1 + s.cycleTicks b.1 (r.gap b.1 * b.2.2), .barrierWave r.uid) ].flatten

/-- The bounds of contexts and partitions (R289, R354, R371, R374, R399). -/
def State.ctxBounds (s : State) : List (Nat × Instr) :=
  [ s.contexts.flatMap fun c =>
      match c.halting with
      | some t => if c.halted then [] else (s.haltSteps c.num).map fun i => (t + 600, i)
      | none => [],
    s.contexts.flatMap fun c => ((c.dbg.step.bind (·.since)).toList.map fun t => (t + 600, .debugStep c.num)),
    (s.partitions.filter fun p => p.prot && p.slice != 0).map fun p => ((p.sliceAt / p.slice + 1) * p.slice, .sliceBoundary p.num),
    (s.partitions.filter fun p => p.session && p.idleSince.isNone).map fun p => (p.deadline, .heartbeatDeadline p.num),
    s.partitions.flatMap fun p => p.slewWrites.map fun w => (w.2.1 + 20, .slewArrival w.1) ].flatten

/-- The bounds of the device's own clocks: Dowser, ports, power (R77, R382, R388, R392, R394, R395). -/
def State.deviceBounds (s : State) : List (Nat × Instr) :=
  [ [((s.dowserAt / 2 ^ 20 + 1) * 2 ^ 20, .dowserEvaluation)],
    if s.timeLock && !s.isMaster then [(s.timeSeen + 2 ^ 16, .timeLockLoss)] else [],
    (s.ports.filter fun p => p.state == 2).flatMap fun p =>
      (p.timeAt + 256, .timeFlitSend p.num) :: (p.owed.toList.map fun t => (t + 64, .idleFlitSend p.num)),
    (List.range Config.clusters).flatMap fun c =>
      let p := s.powerOf c
      [ [(p.since + 1000000, .eccWindow c)],
        p.raises.map fun t => (t, .raiseExpiry c),
        if p.target.isSome then [(p.stepAt, .frequencyStep c)] else [] ].flatten ].flatten

/-- The steps that the spec bounds in time, each with the tick beyond which time does not pass without it. -/
def State.deadlines (s : State) : List (Nat × Instr) :=
  [ s.skeins.flatMap s.skeinBounds,
    s.seeps.flatMap fun i => i.states.flatMap (s.tileBounds i),
    s.engineBounds,
    s.ctxBounds,
    s.deviceBounds ].flatten

/-- A step whose time has come. -/
def State.overdue (s : State) : Option Instr :=
  (s.deadlines.find? fun d => decide (d.1 ≤ s.now) && s.changes d.2).map (·.2)

/-- The ends of the running windows of package power and of telemetry (R393, R404). -/
def State.windowEnds (s : State) : List Nat := [s.powerAt + 100000, s.telemetryAt + 10000000]

/-- A window that has ended, with what the device measured in it (R393, R404). -/
def State.windowStep (s : State) : Option (Host.Outcome State Fault Refusal) :=
  let p := s.powerAt + 100000
  let t := s.telemetryAt + 10000000
  if p ≤ s.now then some (execPowerWindow (Config.meanPower p) s)
  else if t ≤ s.now then some (execTelemetryWindow (Config.meanPower t) (Config.highestTemp t) s)
  else none

/-- Time passes, no further than the next bound; while the clock catches up a passing tick may count twice (R388). -/
def State.passUpTo (s : State) (n : Nat) : State :=
  let gaps := ((s.deadlines.map (·.1) ++ s.windowEnds).filter fun d => decide (s.now < d)).map fun d =>
    if s.timeLag ≤ 0 then d - s.now else max 1 ((16 * (d - s.now) - 15) / 17)
  s.pass (gaps.foldl min n)

/-! ### Choosing -/

/-- An issue of a skein that is not held. -/
def State.issues (s : State) (k : Skein) : Bool :=
  match s.plan k with
  | .none => false
  | .fetch .. | .badHeader .. => true
  | .go p i =>
    match i.decode with
    | .error _ => true
    | .ok ins =>
      match exec ins (s.atIssue p i) with
      | .next t => !t.blocked
      | _ => true

/-- A demand for lines that are under way already changes nothing. -/
def State.awaitsLine (s : State) (k : Skein) : Bool :=
  match s.plan k with
  | .fetch m hdr as => s.demand k m hdr as == s
  | _ => false

/-- Two skeins share the issue slot of a barrel phase, and the first is the older (R25, R306). -/
def State.precedes (s : State) (j k : Skein) : Bool :=
  match j.slot, k.slot with
  | some a, some b => j.uid != k.uid && j.core == k.core && j.quad == k.quad && a % 8 == b % 8 && decide (s.rank j < s.rank k)
  | _, _ => false

/-- R25: an older skein of the same phase is ready, or its altered code still issues (R326). -/
def State.outranked (s : State) (k : Skein) : Bool :=
  s.skeins.any fun j => s.precedes j k && (decide (s.now < j.idleAt) || (!s.awaitsLine j && s.issues j))

/-- R143: a long operation reads its sources and writes its registers later than the skein's next issue slot: not while the skein
can issue and has not since the operation's own issue. -/
def State.premature (s : State) (i : Instr) : Bool :=
  let ahead (u id : Nat) : Bool :=
    match s.sk? u with
    | some k => (k.ops.any fun o => o.id == id && o.serial == k.issues) && !s.awaitsLine k && s.issues k && !s.outranked k
    | none => false
  match i with
  | .sourceRelease u id => ahead u id
  | .registerWriteLand u id => ahead u id
  | _ => false

/-- The skein that issues next: of those that may (R25), the one whose last issue lies furthest back, then the oldest. -/
def State.nextSkein (s : State) : Option Skein :=
  minBy (fun (k : Skein) => k.idleAt * 2 ^ 192 + s.rank k) (s.skeins.filter fun k => !s.awaitsLine k && s.issues k && !s.outranked k)

/-- A step of an instruction under way that comes at its leisure: it waits some ticks while a skein can issue. -/
def State.early (s : State) : Instr → Bool
  | .accessPerform id =>
    match s.accesses.find? fun a => a.id == id with
    | some a => decide (s.now < a.sent + if a.place.inMemory then 64 else 3)
    | none => false
  | .registerWriteLand u id =>
    match (s.sk u).ops.find? fun o => o.id == id with
    | some o => decide (s.now < o.sent + 3)
    | none => false
  | .sourceRelease u id =>
    match (s.sk u).ops.find? fun o => o.id == id with
    | some o => decide (s.now < o.sent + 2)
    | none => false
  | _ => false

/-- What the machine does next of itself, with the count of acts since the last background step: a step that is due, else an
issue, else a step that may yet wait, else a tick; every 64th act is a background step. -/
def State.choose (s : State) : Act × Nat :=
  let back := if 63 ≤ s.streak then s.background.filter s.changes else []
  if back ≠ [] then (.event (back.getD (s.now / 63 % back.length) .dowserChunkCopy), 0)
  else
    match s.due.find? fun i => !s.early i && s.changes i && !s.premature i with
    | some i => (.event i, s.streak)
    | none =>
      match s.nextSkein with
      | some k => (.issue k.uid, s.streak + 1)
      | none =>
        match s.due.find? fun i => s.early i && s.changes i && !s.premature i with
        | some i => (.event i, s.streak)
        | none => (.tick 1, s.streak + 1)

end Sys2Proof.Machine
end

