-- ==== Sys2Proof/Machine/Step.lean ====
section
/-!
DEFINITION. One step: the act the agenda names, or the default scheduler's when it names none (log 1).
-/

namespace Sys2Proof.Machine

/-- One issue of a skein: its instruction's effect with its counts; nothing when the instruction is held at issue, or an older
skein of its phase is ready (R25). -/
def State.issueStep (s : State) (u : Nat) : Host.Outcome State Fault Refusal :=
  match s.sk? u with
  | none => .next s
  | some k =>
    if s.outranked k then .next s
    else
      match s.plan k with
      | .none => .next s
      | .fetch m hdr as => .next (s.demand k m hdr as)
      | .badHeader m hdr w => .next (s.headerTrap k m hdr w)
      | .go p i =>
        if (s.redirect u).isSome then
          match exec (.alteredExecution u) s with
          | .next t => .next (t.noteStep u)
          | x => x
        else
          match i.decode with
          | .error c => .next (((s.atIssue p i).takeTrap { kind := 1, cause := c.code }).afterIssue.noteStep u)
          | .ok ins =>
            match exec ins (s.atIssue p i) with
            | .next t => .next (if t.blocked then s else (s.observe t.afterIssue i ins).noteStep u)
            | .fault r => .fault r
            | .refused r => .refused r

/-- R341: the watchdog asks whether the group that would issue next is held by a limit (R25). -/
def State.primed (s : State) (i : Instr) : State :=
  match i with
  | .watchdogFire u => match s.sk? u with | some k => { s with blocked := !s.issues k } | none => s
  | _ => s

/-- One act. -/
def State.act (s : State) (a : Act) : Host.Outcome State Fault Refusal :=
  match a with
  | .tick n => .next (s.passUpTo n)
  | .event i => if isEvent i && !s.premature i then exec i (s.primed i) else .next s
  | .issue u => s.issueStep u

/-- An act lets time pass. -/
def Act.passes : Act → Bool
  | .event _ => false
  | _ => true

/-- The next act, and the state without it. -/
def State.nextAct (s : State) : Act × State :=
  match s.agenda with
  | a :: r => (a, { s with agenda := r })
  | [] => let (a, n) := s.choose; (a, { s with streak := n })

/-- One step: the next act, or, before time passes, a step whose time has come, or the end of a window. -/
def step (s : State) : Host.Outcome State Fault Refusal :=
  match s.nextAct with
  | (a, t) =>
    match if a.passes then s.overdue else none with
    | some i => exec i (s.primed i)
    | none =>
      match if a.passes then s.windowStep else none with
      | some o => o
      | none => t.act a

/-- The state with an instruction laid where the next step fetches it (log 14). -/
def State.withFetchWord (s : State) (nbits w : Nat) : State := s.layProbe (probeBytes nbits w)

end Sys2Proof.Machine
end

