-- ==== Sys2Proof/Safety.lean ====
section
/-!
DEFINITION. The terms statements are made in: memory in its canonical form, steps and runs that neither fault nor are refused,
settled operands, and what an instruction may change.
-/

namespace Sys2Proof.Machine

/-! ### Sub-elements as the statements name them (R116) -/

/-- Sub-element n of a lane at a width. -/
def elt (w : Nat) (v : Lane) (n : Nat) : Nat := v.toNat / 2 ^ (w * n) % 2 ^ w

/-- The lane that holds given sub-elements. -/
def lanesOf (w : Nat) (f : Nat → Nat) : Lane := packLane w ((List.range (64 / w)).map f)

/-- The flags that the sub-elements of a lane cause together. -/
def flagsOf (w : Nat) (f : Nat → Sticky) : Sticky := orFlags ((List.range (64 / w)).map f)

/-! ### States and effects -/

/-- The memory is in its canonical form. -/
def State.MemOk (s : State) : Prop := s.mem.wf = true

/-- The next step answers a next state. -/
def State.Steps (s : State) : Prop := ∃ t, step s = .next t

/-- A run of n steps that neither faults nor is refused. -/
def State.SafeFor : Nat → State → Prop
  | 0, _ => True
  | n + 1, s => ∃ t, step s = .next t ∧ State.SafeFor n t

/-- The skein of the instruction at hand is there. -/
def State.Issuing (s : State) : Prop := ∃ k, s.sk? s.issue.sk = some k

/-- R36, R168, R308: operands an instruction may use now: every field below the register count, no register read or written pending,
no register written held, no lane that is read poisoned. -/
structure State.Clear (s : State) (srcs : List SrcReg) (dsts : List Reg) : Prop where
  range  : ∀ f ∈ srcs.map (·.1) ++ dsts, f.toNat < s.cur.regCount
  landed : ∀ r ∈ s.namedSrcs srcs ++ s.namedDsts dsts, s.cur.pendingBy r = none
  free   : ∀ r ∈ s.namedDsts dsts, s.cur.heldBy r = none
  sound  : ∀ x ∈ srcs, ∀ l, l < 32 → s.executing l = true → (s.cur.thread (permSrc x.2 l)).exited = false →
    (s.cur.reg (s.cur.resolve (permSrc x.2 l) x.1)).poison.getLsbD (permSrc x.2 l) = false

/-- Two states differ in the skeins alone, and of these in the issuing one alone: memory, the device's and every other skein's
registers are the same. -/
def State.OnlyCur (s t : State) : Prop :=
  t = { s with skeins := t.skeins } ∧ ∀ u, u ≠ s.issue.sk → t.sk? u = s.sk? u

/-- The group's threads have moved past the instruction at hand, their predicates and sticky flags apart; the others stand. -/
def State.MovedOn (s t : State) : Prop :=
  ∀ l, l < 32 → { t.cur.thread l with pred := (s.cur.thread l).pred, sticky := (s.cur.thread l).sticky } =
    if s.executing l then s.issue.past (s.cur.thread l) else s.cur.thread l

/-- What a lane-wise instruction leaves (R148, R166, R167, R180): in the lanes of `e.pass` the destination holds the value, the
flags are set, the predicate is pushed; every other lane of every register, every other flag and predicate, every register that no
executing lane names as the destination, every other piece of the machine stands; one that no lane wrote is general (R167). -/
structure State.Wrote (s t : State) (e : LaneEff) : Prop where
  only  : s.OnlyCur t
  rest  : t.cur = { s.cur with regs := t.cur.regs, threads := t.cur.threads }
  moved : s.MovedOn t
  value : ∀ d, e.dst = some d → ∀ l, l < 32 → e.pass l = true → t.cur.lane (s.cur.resolve l d) l = e.val l
  other : ∀ r l, r < 64 → l < 32 → (∀ d, e.dst = some d → e.pass l = true → r ≠ s.cur.resolve l d) →
    t.cur.lane r l = s.cur.lane r l
  kept  : ∀ r, r < 64 → (∀ d, e.dst = some d → ∀ l, l < 32 → e.pass l = true ∨ s.executing l = true → r ≠ s.cur.resolve l d) →
    t.cur.reg r = s.cur.reg r
  dulled : ∀ d r l, e.dst = some d → r < 64 → l < 32 → s.executing l = true → s.cur.resolve l d = r →
    (∀ m, m < 32 → e.pass m = true → r ≠ s.cur.resolve m d) → t.cur.reg r = { s.cur.reg r with tag := .general }
  tagAll : ∀ d r, e.dst = some d → r < 64 → (∀ l, l < 32 → e.pass l = true ∧ s.cur.resolve l d = r) →
    (t.cur.reg r).tag = e.tag.norm e.val
  tagSome : ∀ d r l, e.dst = some d → r < 64 → l < 32 → e.pass l = true → s.cur.resolve l d = r →
    ¬ (∀ l, l < 32 → e.pass l = true ∧ s.cur.resolve l d = r) → (t.cur.reg r).tag = .general
  flags : ∀ l, l < 32 → (t.cur.thread l).sticky =
    if e.pass l then (s.cur.thread l).sticky ||| e.flags l else (s.cur.thread l).sticky
  preds : ∀ l, l < 32 → (t.cur.thread l).pred =
    match e.pass l, e.push l with
    | true, some b => ((s.cur.thread l).push b).pred
    | _, _ => (s.cur.thread l).pred

/-- The issuing skein with its group moved past the instruction at hand, and nothing else done. -/
def State.moved (s : State) : Skein := s.cur.pass s.issue s.executing

/-- The issuing skein has become another, and nothing else has changed. -/
structure State.Became (s t : State) (k : Skein) : Prop where
  only : s.OnlyCur t
  cur  : t.cur = k

/-- What an instruction that only rewrites predicates leaves (R209, R210): in the lanes of p the predicates become a function of
what they were, and the group has moved past it. -/
structure State.Predicated (s t : State) (p : Nat → Bool) (f : Nat → BitVec 8 → BitVec 8) : Prop where
  only   : s.OnlyCur t
  rest   : t.cur = { s.cur with threads := t.cur.threads }
  thread : ∀ l, l < 32 → t.cur.thread l =
    let x := if s.executing l then s.issue.past (s.cur.thread l) else s.cur.thread l
    if p l then { x with pred := f l (s.cur.thread l).pred } else x

/-- The issuing skein's threads have become others, and nothing else has changed. -/
structure State.Steered (s t : State) (f : Nat → Thread) : Prop where
  only   : s.OnlyCur t
  rest   : t.cur = { s.cur with threads := t.cur.threads }
  thread : ∀ l, l < 32 → t.cur.thread l = f l

/-- The names the model gives out are new to the skein's waits (log 1). -/
structure State.Fresh (s : State) : Prop where
  waits   : ∀ w ∈ s.cur.waits, w.id < s.idCtr
  threads : ∀ l, l < 32 → ∀ n, (s.cur.thread l).waiting = some n → n < s.idCtr

/-- R25: the group waits at the instruction at hand, with the addresses it formed where it keeps some (R217), and nothing else has
changed but the model's count of names. -/
structure State.Waits (s t : State) (kind : WaitKind) (i : Instr) (space : BitVec 2 := 0) (addrs : List (Nat × Lane) := [])
    (readAt : Nat := 0) : Prop where
  only   : { s with idCtr := s.idCtr + 1 }.OnlyCur t
  rest   : t.cur = { s.cur with threads := t.cur.threads, waits := t.cur.waits }
  wait   : t.cur.waits = s.cur.waits ++
    [{ id := s.idCtr, kind := kind, lanes := s.issue.mask, instr := i, issue := s.issue, es := s.es, since := s.idCtr, tick := s.now
       space := space, addrs := addrs, readAt := readAt }]
  thread : ∀ l, l < 32 → t.cur.thread l = if s.executing l then { s.cur.thread l with waiting := some s.idCtr } else s.cur.thread l

/-- A skein by its name has become another, and nothing else has changed. -/
structure State.SkBecame (s t : State) (u : Nat) (k : Skein) : Prop where
  rest   : t = { s with skeins := t.skeins }
  there  : t.sk? u = some k
  others : ∀ v, v ≠ u → t.sk? v = s.sk? v

/-- R101: the state of a skein after an acquire at .dv or wider: its core's L1 data copies are gone, and older ones will be
refused. -/
structure State.SkAcquired (s t : State) (u : Nat) (k : Skein) : Prop where
  rest   : t = { s with skeins := t.skeins, copies := s.copies.filter fun c => c.l2 || c.place != k.core }
  there  : t.sk? u = some { k with acquire := s.now }
  others : ∀ v, v ≠ u → t.sk? v = s.sk? v

/-- R109, R276, R277: an engine's operation of the issuing skein stands started: the next number of its timeline, named by a handle
register whose word shows it pending; every other handle, every other skein and all memory stand. -/
structure State.OpStarted (s t : State) (hd tl : Nat) (o : EngineOp) : Prop where
  ops    : t.ops = s.ops ++ [o]
  named  : o.uid = s.idCtr ∧ o.ctx = s.cur.ctx ∧ o.team = s.cur.team ∧ o.core = s.cur.core ∧ o.sk = s.cur.uid ∧ o.tl = tl ∧ o.done = false
  number : o.num = (s.team s.cur.team).tlIssued.getD tl 0 + 1
  handle : ∀ i, i < 8 → t.cur.hd.getD i 0 = if i = hd then handleWord true tl 0 o.num else s.cur.hd.getD i 0
  names  : ∀ i, i < 8 → t.cur.hdOp.getD i none = if i = hd then some o.uid else s.cur.hdOp.getD i none
  regs   : t.cur.regs = s.cur.regs
  moved  : s.MovedOn t
  others : ∀ u, u ≠ s.issue.sk → t.sk? u = s.sk? u
  mem    : t.mem = s.mem

/-- Room for the operations an instruction starts on the flags its clause names (R143). -/
def State.Room (s : State) (a b : Bool) : Prop :=
  ∀ f : BitVec 4, s.header.setA = some f ∨ s.header.setB = some f →
    s.cur.flags.getD f.toNat 0 + (if a && s.header.setA = some f then 1 else 0) +
      (if b && s.header.setB = some f then 1 else 0) ≤ 63

/-- R141, R143, R308: a long operation stands begun: it is the last of the skein, its counts have risen, its group has moved
past it, and nothing else has changed but the model's count of names. -/
structure State.Began (s t : State) (o : LongOp) : Prop where
  only  : t = { s with skeins := t.skeins, idCtr := s.idCtr + 1 } ∧ ∀ u, u ≠ s.issue.sk → t.sk? u = s.sk? u
  rest  : t.cur = { s.cur with ops := t.cur.ops, flags := t.cur.flags, threads := t.cur.threads }
  moved : ∀ l, l < 32 → t.cur.thread l = if s.executing l then s.issue.past (s.cur.thread l) else s.cur.thread l
  ops   : t.cur.ops = s.cur.ops ++ [o]
  named : o.id = s.idCtr ∧ o.sent = s.now ∧ o.serial = s.cur.issues ∧ o.setA = s.header.setA ∧ o.setB = s.header.setB
  count : ∀ f, f < 12 → t.cur.flags.getD f 0 = s.cur.flags.getD f 0 +
    (if o.setA.map (·.toNat) = some f then 1 else 0) + (if o.setB.map (·.toNat) = some f then 1 else 0)

end Sys2Proof.Machine
end

