-- ==== Sys2Proof/WellFormed.lean ====
section
/-!
DEFINITION. Which instructions have words under a clause's element size: the constraints of R147, R160, R182, R194 and of
each extension layout that the constructors' field types do not already carry. A device's own step has no word.
-/

namespace Sys2Proof

/-- R160, R182: a Float pair source against its row. -/
def FSrc.wf (r : FSpec) (es : Es) : FSrc → Bool
  | .reg _ _ c => r.ok es c
  | .imm v => fimmOk es v

/-- R241, R242: an extension word stands, and its fields are those its opcode takes. -/
def MemExt.wf (e : MemExt) (hint sx : Bool) : Bool :=
  (e.x || e.order != 0) && (e.order != 0 || e.scope == 0) && (hint || e.hint == 0) && (sx || !e.sx)

/-- R161, R205: the control bits of `redux`. -/
def reduxWf (es : Es) (op : ReduxOp) (h fzo fzi : Bool) : Bool :=
  (op.isFloat || (!h && !fzo && !fzi)) && (!h || es == .e16)

/-- R218: which source a field of a stream takes. -/
def assetWf (field : BitVec 3) : Src12 → Bool
  | .imm _ => field != 0 && field != 7
  | .reg a => field != 6 && (field != 7 || a == 0)

/-- An instruction that the encoding tables can write under element size `es`. -/
def Instr.wf (es : Es) : Instr → Bool
  | .fadd _ _ _ s | .fsub _ _ _ s | .fmul _ _ _ s => s.wf fsArith es
  | .fmin _ _ _ s | .fmax _ _ _ s => s.wf fsPick es
  | .ffma _ _ _ _ _ _ c | .fscale _ _ _ _ _ c | .frcp _ _ _ c | .frsqrt _ _ _ c | .fsqrt _ _ _ c => fsArith.ok es c
  | .fdot2 _ _ _ _ _ _ c => fsDot.ok es c
  | .frnd _ _ _ c => fsRnd.ok es c
  | .fclass _ _ _ c | .fcmp _ _ _ _ _ _ c => fsPick.ok es c
  | .fexp2 _ _ _ c | .flog2 _ _ _ c | .fsin _ _ _ c | .fcos _ _ _ c => fsSpec.ok es c
  | .cvt _ dst src _ _ c => convCtlOk (cvtSpec dst src) es c
  | .pack _ dst src _ _ _ _ c => convCtlOk (packSpec dst src) es c
  | .unpack _ dst src _ _ _ c => convCtlOk (unpackSpec dst src) es c
  | .shfl _ md _ _ b _ _ amt => if md = .at then amt == 0 else b == 0
  | .vote _ op d _ _ => op.writes || d == 0
  | .redux _ op _ _ _ _ h fzo fzi => reduxWf es op h fzo fzi
  | .tbl _ _ _ _ wide cnt1 fill => !wide || (cnt1 == 0 && fill == 0)
  | .asset _ _ field src => assetWf field src
  | .meld _ p4 db _ => p4 || db == 0
  | .ldExt _ _ _ _ e => e.wf true true
  | .stExt _ _ _ _ e => e.wf true false
  | .ldscExt _ _ _ _ e | .sldExt _ _ _ _ e => e.wf false true
  | .stscExt _ _ _ _ e | .sstExt _ _ _ _ e => e.wf false false
  | .amo _ op _ _ _ order c scope _ => (op == .cas || c == 0) && (order != 0 || scope == 0)
  | .pld _ _ _ _ order e | .pst _ _ _ _ order e => order != 0 || e.scope == 0
  | .pump _ _ _ _ _ e => e.kind == 3 || e.sl == 0
  | .unassignedOpcode w => (opInfo (Word.opcode w)).isNone
  | .nop _ | .cmp .. | .mov .. | .movImm .. | .movi .. | .add .. | .addImm .. | .sub .. | .subImm .. | .addsatI ..
  | .addsatIImm .. | .addsatN .. | .addsatNImm .. | .subsatI .. | .subsatIImm .. | .subsatN .. | .subsatNImm ..
  | .mul .. | .mulImm .. | .mulhiI .. | .mulhiIImm .. | .mulhiN .. | .mulhiNImm .. | .minI .. | .minIImm ..
  | .minN .. | .minNImm .. | .maxI .. | .maxIImm .. | .maxN .. | .maxNImm .. | .and .. | .andImm .. | .or ..
  | .orImm .. | .xor .. | .xorImm .. | .andn .. | .andnImm .. | .shl .. | .shlImm .. | .shrN .. | .shrNImm ..
  | .shrI .. | .shrIImm .. | .abs .. | .neg .. | .not .. | .mad .. | .mac2 .. | .rshr .. | .popc .. | .clz ..
  | .brev .. | .bfxI .. | .bfxN .. | .bfi .. | .fneg .. | .fabs .. | .slide .. | .lid .. | .sel .. | .ppush ..
  | .ppop .. | .pmovFromPred .. | .pmovToPred .. | .plog .. | .ppick .. | .tag .. | .iota .. | .stk .. | .rep ..
  | .lset .. | .loop _ | .asget .. | .kget .. | .br .. | .jmp .. | .jmpL .. | .call .. | .ret _ | .jmpf ..
  | .exit _ | .yield | .mend _ | .ldpm .. | .enter .. | .leave | .trap .. | .brk _ | .sleep _ | .ipref _
  | .ld .. | .st .. | .ldsc .. | .stsc .. | .sld .. | .sst .. | .srenew .. | .slife .. | .fence _ | .waitw ..
  | .prefdL1 .. | .prefdL2 .. | .codefetch .. | .residReg .. | .residPrio .. | .residDemote .. | .residEvict ..
  | .residDrop .. | .qpush .. | .qpop .. | .mcfg .. | .msign .. | .maccFrom .. | .maccTo .. | .mzero .. | .qnt ..
  | .dqnt .. | .coll .. | .hwait .. | .htest .. | .hcancel .. | .tlwait .. | .bar .. | .gbar _ | .launch ..
  | .gridgrow .. | .grow | .shrink | .sysr .. | .sysw .. | .tret => true
  | _ => false

end Sys2Proof
end

