-- ==== Sys2Proof/Certificates/Slice0/Obligations.lean ====
section
/-!
DEFINITION. The statements about the machine: what each rule of the spec makes true of every state.
-/

open Sys2Proof Sys2Proof.Machine

namespace Sys2Proof.Machine

/-! ### Words, steps, memory -/

end Sys2Proof.Machine

/-- R146 to R165: an instruction that can be written reads back as itself, every operand at every value its encoding admits, and its
word says by itself whether an extension word follows (R163). -/
def Obligations.EncodedWordsReadBack : Prop :=
  ∀ (es : Es) (i : Instr) (w : Word) (r : List Word), i.wf es = true → encode i = w :: r →
    decodeWord es w (r.headD 0) = .ok i ∧ (Word.hasExt w = true ↔ r ≠ []) ∧ r.length ≤ 1

namespace Sys2Proof.Machine

/-- R147, R164: every word pair the decoder takes is the encoding of the instruction it gives, bit for bit: no field of it goes
unread, and that instruction is well-formed. -/
def Claim.LegalWordsHaveOneReading : Prop :=
  ∀ (es : Es) (w x : Word) (i : Instr), decodeWord es w x = .ok i →
    i.wf es = true ∧ encode i = w :: (if Word.hasExt w then [x] else [])

/-- R140: a header's fields read back as they were written, whatever they are; a word that is no header is refused. -/
def Claim.HeadersReadBack : Prop :=
  (∀ h : Header, h.count ≠ 0 → (∀ f, h.setA = some f ∨ h.setB = some f → f.toNat < 12) → decodeHeader (encodeHeader h) = some h) ∧
  (∀ (w : Word) (h : Header), decodeHeader w = some h → encodeHeader h = w)

end Sys2Proof.Machine

/-- Every legal word is the encoding of the instruction it decodes to; headers read back as written. -/
def Obligations.LegalWordsHaveOneReading : Prop :=
  Machine.Claim.LegalWordsHaveOneReading ∧ Machine.Claim.HeadersReadBack

/-- Words of the spec's encoding tables and the instructions they stand for. -/
def Obligations.SpecWordsDecode : Prop :=
  decodeWord .e16 0x0C308280 0 = .ok (.addsatI .always 6 4 5 .ident) ∧
  decodeWord .e64 0x34082007 3 = .ok (.shlImm .always 1 1 3) ∧
  decodeWord .e32 0x46282100 0x0C000000 = .ok (.ffma .always 5 1 2 .ident 3 ⟨0, false, false, false, false⟩) ∧
  decodeWord .e32 0x7E008080 0 = .ok (.ppush .always 4 1) ∧
  decodeWord .e8 0xC0208103 0 = .ok (.ld .always 4 ⟨1, 2⟩ 3) ∧
  decodeWord .e8 0xE6100000 0 = .ok (.mzero .always 2) ∧
  decodeWord .e8 0xF4000000 1 = .ok (.hwait .always 1) ∧
  decodeWord .e8 0xFC000000 0x200000 = .ok .tret

namespace Sys2Proof.Machine

/-- R25, R164: while no step is overdue and no window has ended, an act that issues a skein, not outranked and with nothing sewn at its
place, runs the instruction its words stand for, and adds to it what every issue counts; a blocked attempt leaves no trace; a word that
stands for none takes the trap of its cause; where code is sewn at its place, that runs (log 1). -/
def Claim.StepRunsTheDecodedInstruction : Prop :=
  ∀ (s : State) (u : Nat) (k : Skein) (p : Pick) (i : Issue) (r : List Act),
    let s' := { s with agenda := r }
    s.agenda = .issue u :: r → s.overdue = none → s.windowStep = none → s'.sk? u = some k → s'.outranked k = false →
    s'.plan k = .go p i →
    (s'.redirect u = none →
      (∀ ins t, i.decode = .ok ins → exec ins (s'.atIssue p i) = .next t →
        step s = .next (if t.blocked then s' else (s'.observe t.afterIssue i ins).noteStep u)) ∧
      (∀ ins e, i.decode = .ok ins → exec ins (s'.atIssue p i) = .fault e → step s = .fault e) ∧
      (∀ ins e, i.decode = .ok ins → exec ins (s'.atIssue p i) = .refused e → step s = .refused e) ∧
      (∀ c, i.decode = .error c →
        step s = .next (((s'.atIssue p i).takeTrap { kind := 1, cause := c.code }).afterIssue.noteStep u))) ∧
    (∀ t, s'.redirect u ≠ none → exec (.alteredExecution u) s' = .next t → step s = .next (t.noteStep u))

end Sys2Proof.Machine

/-- R141, R163, R164: the instruction that issues at a place of a clause is the one whose encoding stands there, where its class is
the clause's (R142) and it is not being repeated; where a thread stands at a header whose clause level 0 holds and whose waits
are met, its first instruction is what the skein issues.
Readings and choices of the model it rests on: log 1, 31. -/
def Obligations.ClauseWordsIssue : Prop :=
  (∀ (k : Skein) (m : Mask) (hdr pc : Lane) (hw w : Word) (h : Header) (body r : List Word) (slot serial : Nat) (ins : Instr),
    decodeHeader hw = some h → wordsAt body (bodyIdx hdr pc) = w :: r → encode ins = w :: r → ins.wf h.es = true →
    classOk h w = true → (mkIssue k m hdr hw h body pc slot serial none).decode = .ok ins) ∧
  (∀ (s : State) (k : Skein) (p : Pick) (hw : Word) (h : Header) (body : List Word),
    s.mayIssue k = true → s.pick k = some p → (k.thread p.lane).clause = none →
    readClause (s.l0Word k) (k.thread p.lane).pc = .ok hw h body → waitMet h k.flags = true →
    s.plan k = .go p (mkIssue k p.mask (k.thread p.lane).pc hw h body ((k.thread p.lane).pc + 4) 0 (k.issues + 1) none)) ∧
  (∀ (get : Lane → Option Word) (hdr : Lane) (h : Header) (w : Word) (r : List Word) (ins : Instr),
    h.count = 1 → (∀ f, h.setA = some f ∨ h.setB = some f → f.toNat < 12) → ins.wf h.es = true → encode ins = w :: r →
    get hdr = some (encodeHeader h) → get (hdr + 4) = some w → (∀ x, r = [x] → get (hdr + 8) = some x) →
    readClause get hdr = .ok (encodeHeader h) h (w :: r))

namespace Sys2Proof.Machine

/-- An act that is an event runs its step, unless the step would come before the skein's next issue slot (R143); time passes on a
tick, no further than the next bound; before any act that lets time pass, a step whose time has come runs, then the end of a window
(R393, R404); an empty agenda takes the default scheduler's act (log 1). The step WATCHDOG_FIRE first asks what holds the skein (R341). -/
def Claim.StepRunsTheAgenda : Prop :=
  (∀ (s : State) (i : Instr) (r : List Act), s.agenda = .event i :: r → isEvent i = true →
    { s with agenda := r }.premature i = false → step s = exec i ({ s with agenda := r }.primed i)) ∧
  (∀ (s : State) (i : Instr), (∀ u, i ≠ .watchdogFire u) → s.primed i = s) ∧
  (∀ (s : State) (i : Instr) (r : List Act), s.agenda = .event i :: r → { s with agenda := r }.premature i = true →
    step s = .next { s with agenda := r }) ∧
  (∀ (s : State) (n : Nat) (r : List Act), s.agenda = .tick n :: r → s.overdue = none → s.windowStep = none →
    step s = .next ({ s with agenda := r }.passUpTo n)) ∧
  (∀ (s : State) (a : Act) (r : List Act) (i : Instr), s.agenda = a :: r → a.passes = true → s.overdue = some i →
    step s = exec i (s.primed i)) ∧
  (∀ (s : State) (a : Act) (r : List Act), s.agenda = a :: r → a.passes = true → s.overdue = none →
    (s.powerAt + 100000 ≤ s.now → step s = execPowerWindow (Config.meanPower (s.powerAt + 100000)) s) ∧
    (s.now < s.powerAt + 100000 → s.telemetryAt + 10000000 ≤ s.now → step s =
      execTelemetryWindow (Config.meanPower (s.telemetryAt + 10000000)) (Config.highestTemp (s.telemetryAt + 10000000)) s)) ∧
  (∀ (s : State), s.agenda = [] → s.choose.1.passes = true → ∀ i, s.overdue = some i → step s = exec i (s.primed i)) ∧
  (∀ (s : State), s.agenda = [] → (s.choose.1.passes = false ∨ (s.overdue = none ∧ s.windowStep = none)) →
    step s = ({ s with streak := s.choose.2 }).act s.choose.1)

end Sys2Proof.Machine

/-- A step runs the instruction its skein's words stand for, or the event its agenda names. Readings and choices of the model it rests on: log 1, 2, 83. -/
def Obligations.StepRunsTheDecodedInstruction : Prop :=
  Machine.Claim.StepRunsTheDecodedInstruction ∧ Machine.Claim.StepRunsTheAgenda

/-- Memory as the bytes of an address space (03_memory_and_placement.md): a write is read back where it fell, and reads elsewhere stand; a cleared range reads zero; memories in
canonical form that read alike are equal.
Readings and choices of the model it rests on: log 3, 7. -/
def Obligations.MemoryReadsAfterWrites : Prop :=
  (∀ (m : Memory) (a : Nat) (bs : List Byte) (b : Nat), m.wf = true →
    (m.writeN a bs).read b = if a ≤ b ∧ b < a + bs.length then bs.getD (b - a) 0 else m.read b) ∧
  (∀ (m : Memory) (a : Nat) (bs : List Byte), m.wf = true → (m.writeN a bs).readN a bs.length = bs) ∧
  (∀ (m : Memory) (a n b : Nat), (m.clear a n).read b = if a ≤ b ∧ b < a + n then unlisted else m.read b) ∧
  (∀ (m n : Memory), m.wf = true → n.wf = true → (∀ a, m.read a = n.read a) → m = n)

/-- R367, R368: what a partition stores it loads again, and every byte outside the stored range that it could read reads as before.
Readings and choices of the model it rests on: log 12. -/
def Obligations.StoredBytesLoad : Prop :=
  ∀ (s : State) (part key : Nat) (bs : List Byte), s.MemOk →
    (s.store part key bs).MemOk ∧
    (s.store part key bs).load part key bs.length = bs ∧
    (∀ a n, (a + n ≤ key ∨ key + bs.length ≤ a) → (s.store part key bs).load part a n = s.load part a n)

/-- The memory keeps its canonical form at every step, from every state that has it.
Readings and choices of the model it rests on: log 3, 7. -/
def Obligations.StepsKeepTheMemoryForm : Prop :=
  ∀ s t : State, s.MemOk → step s = .next t → t.MemOk

/-- R346: what reset leaves (the values the spec gives): nothing configured, resident or listed in memory; every context free under its
reset block (R68, R316, R340, R398), every partition idle at clock 18 (R366), every copy of sys.slew (R289), power block (R391), port
(R379) and counter at its reset value, the package limit at 2,400 W (R393).
Readings and choices of the model it rests on: log 3, 17. -/
def Obligations.ResetState : Prop :=
  let r := State.reset
  r.MemOk ∧ (∀ a, r.mem.read a = unlisted) ∧ r.skeins = [] ∧ r.grids = [] ∧ r.record = none ∧ r.agenda = [] ∧
  (∀ c, (r.ctx c).state = .free ∧ (r.ctx c).err = 0 ∧ (r.ctx c).root = 0 ∧ (r.ctx c).saveCnt = 0 ∧ (r.ctx c).wdog = 0 ∧ (r.ctx c).lease = 32 ∧
    (r.ctx c).altctl = 0x0000000810000A61 ∧ (r.ctx c).dbg.att = false ∧ (r.ctx c).vf = none) ∧
  (∀ p, (r.part p).state = .idle ∧ (r.part p).clock = 18 ∧ r.protected p = false) ∧
  (∀ c, r.slew c = 0x1007 ∧ (r.powerOf c).u = 0 ∧ (r.powerOf c).freq = 18 ∧ (r.powerOf c).uncor = 0 ∧ (r.powerOf c).corr = 0 ∧
    (r.powerOf c).mev = 0 ∧ (r.powerOf c).gapMin = 0 ∧ (r.powerOf c).waveMax = 63 ∧ (r.powerOf c).thr = 16 ∧ (r.powerOf c).uven = true) ∧
  (∀ n, (r.port n).state = 0 ∧ (r.port n).retries = 0 ∧ (r.port n).hold = false) ∧
  r.limit = 2400 ∧ r.alert = false ∧ r.telemetry.softCor = 0 ∧ r.telemetry.softUnc = 0 ∧ r.telemetry.margin = 0

/-! ### Integer and bit instructions -/

namespace Sys2Proof.Machine

/-- R149, R167: the tag of an operand behind the crossbar; an affine one of another element size counts as general. -/
def State.seenTag (s : State) (x : SrcReg) : Tag :=
  match x.2, s.tagOf x.1 with
  | .bc0, _ => .uniform
  | .ident, .affine b st e => if e = s.es then .affine b st e else .general
  | .ident, t => t
  | _, t => if t = .uniform then .uniform else .general

/-- R149: the tag of source B. -/
def State.seenB (s : State) : SrcB → Tag
  | .reg f p => s.seenTag (f, p)
  | .imm _ => .uniform

/-- R167: uniform where every source is, general otherwise. -/
def State.plainTag (s : State) (srcs : List SrcReg) : Tag := if ∀ x ∈ srcs, s.seenTag x = .uniform then .uniform else .general

/-- R167: the tag of a row of R172: `add`, `mul` and the minuend of `sub` keep an affine operand beside a uniform one, base, stride
and uniform value taken sub-element by sub-element. -/
def State.pairTag (s : State) (i : Instr) (a : Reg) (b : SrcB) : Tag :=
  let w := s.es.w
  let by' := fun (f : Int → Int → Int) (x y : Lane) => lanesOf w fun n => wrap w (f (elt w x n) (elt w y n))
  let u := s.cur.read a 0
  let v := s.srcB b 0
  let row : Nat := match i with
    | .add .. | .addImm .. => 0
    | .sub .. | .subImm .. => 1
    | .mul .. | .mulImm .. => 2
    | _ => 3
  match row, s.seenTag (plain a), s.seenB b with
  | _, .uniform, .uniform => .uniform
  | 0, .affine x st e, .uniform => .affine (by' (· + ·) x v) st e
  | 0, .uniform, .affine x st e => .affine (by' (· + ·) x u) st e
  | 1, .affine x st e, .uniform => .affine (by' (· - ·) x v) st e
  | 2, .affine x st e, .uniform => .affine (by' (· * ·) x v) (by' (· * ·) st v) e
  | 2, .uniform, .affine x st e => .affine (by' (· * ·) x u) (by' (· * ·) st u) e
  | _, _, _ => .general

/-- The rows of R172: guard, destination, source a, source b, and the value and flags of one sub-element from the width and the
unsigned sub-elements of a and b. -/
def intPair : Instr → Option (Guard × Reg × Reg × SrcB × (Nat → Nat → Nat → Nat × Sticky))
  | .add g d a b p => some (g, d, a, .reg b p, fun w x y => (wrap w ((x : Int) + y), 0))
  | .addImm g d a v => some (g, d, a, .imm v, fun w x y => (wrap w ((x : Int) + y), 0))
  | .sub g d a b p => some (g, d, a, .reg b p, fun w x y => (wrap w ((x : Int) - y), 0))
  | .subImm g d a v => some (g, d, a, .imm v, fun w x y => (wrap w ((x : Int) - y), 0))
  | .addsatI g d a b p => some (g, d, a, .reg b p, fun w x y => satI w (sgn w x + sgn w y))
  | .addsatIImm g d a v => some (g, d, a, .imm v, fun w x y => satI w (sgn w x + sgn w y))
  | .addsatN g d a b p => some (g, d, a, .reg b p, fun w x y => satN w ((x : Int) + y))
  | .addsatNImm g d a v => some (g, d, a, .imm v, fun w x y => satN w ((x : Int) + y))
  | .subsatI g d a b p => some (g, d, a, .reg b p, fun w x y => satI w (sgn w x - sgn w y))
  | .subsatIImm g d a v => some (g, d, a, .imm v, fun w x y => satI w (sgn w x - sgn w y))
  | .subsatN g d a b p => some (g, d, a, .reg b p, fun w x y => satN w ((x : Int) - y))
  | .subsatNImm g d a v => some (g, d, a, .imm v, fun w x y => satN w ((x : Int) - y))
  | .mul g d a b p => some (g, d, a, .reg b p, fun w x y => (wrap w ((x : Int) * y), 0))
  | .mulImm g d a v => some (g, d, a, .imm v, fun w x y => (wrap w ((x : Int) * y), 0))
  | .mulhiI g d a b p => some (g, d, a, .reg b p, fun w x y => (wrap w (sgn w x * sgn w y / 2 ^ w), 0))
  | .mulhiIImm g d a v => some (g, d, a, .imm v, fun w x y => (wrap w (sgn w x * sgn w y / 2 ^ w), 0))
  | .mulhiN g d a b p => some (g, d, a, .reg b p, fun w x y => (wrap w ((x : Int) * y / 2 ^ w), 0))
  | .mulhiNImm g d a v => some (g, d, a, .imm v, fun w x y => (wrap w ((x : Int) * y / 2 ^ w), 0))
  | .minI g d a b p => some (g, d, a, .reg b p, fun w x y => (if sgn w x ≤ sgn w y then x else y, 0))
  | .minIImm g d a v => some (g, d, a, .imm v, fun w x y => (if sgn w x ≤ sgn w y then x else y, 0))
  | .minN g d a b p => some (g, d, a, .reg b p, fun _ x y => (min x y, 0))
  | .minNImm g d a v => some (g, d, a, .imm v, fun _ x y => (min x y, 0))
  | .maxI g d a b p => some (g, d, a, .reg b p, fun w x y => (if sgn w x ≤ sgn w y then y else x, 0))
  | .maxIImm g d a v => some (g, d, a, .imm v, fun w x y => (if sgn w x ≤ sgn w y then y else x, 0))
  | .maxN g d a b p => some (g, d, a, .reg b p, fun _ x y => (max x y, 0))
  | .maxNImm g d a v => some (g, d, a, .imm v, fun _ x y => (max x y, 0))
  | .and g d a b p => some (g, d, a, .reg b p, fun _ x y => (x &&& y, 0))
  | .andImm g d a v => some (g, d, a, .imm v, fun _ x y => (x &&& y, 0))
  | .or g d a b p => some (g, d, a, .reg b p, fun _ x y => (x ||| y, 0))
  | .orImm g d a v => some (g, d, a, .imm v, fun _ x y => (x ||| y, 0))
  | .xor g d a b p => some (g, d, a, .reg b p, fun _ x y => (x ^^^ y, 0))
  | .xorImm g d a v => some (g, d, a, .imm v, fun _ x y => (x ^^^ y, 0))
  | .andn g d a b p => some (g, d, a, .reg b p, fun w x y => (x &&& (2 ^ w - 1 - y), 0))
  | .andnImm g d a v => some (g, d, a, .imm v, fun w x y => (x &&& (2 ^ w - 1 - y), 0))
  | .shl g d a b p => some (g, d, a, .reg b p, fun w x k => (if k < w then wrap w ((x : Int) * 2 ^ k) else 0, 0))
  | .shlImm g d a v => some (g, d, a, .imm v, fun w x k => (if k < w then wrap w ((x : Int) * 2 ^ k) else 0, 0))
  | .shrN g d a b p => some (g, d, a, .reg b p, fun w x k => (if k < w then x / 2 ^ k else 0, 0))
  | .shrNImm g d a v => some (g, d, a, .imm v, fun w x k => (if k < w then x / 2 ^ k else 0, 0))
  | .shrI g d a b p => some (g, d, a, .reg b p, fun w x k => (wrap w (if k < w then sgn w x / 2 ^ k else if sgn w x < 0 then -1 else 0), 0))
  | .shrIImm g d a v => some (g, d, a, .imm v, fun w x k => (wrap w (if k < w then sgn w x / 2 ^ k else if sgn w x < 0 then -1 else 0), 0))
  | _ => none

/-- R166, R172: every two-source lane-wise integer instruction, in both operand forms, completes on clear operands; each
sub-element of each lane whose guard passes receives the value of the table, the lane's flags are set, and nothing else
changes. -/
def Claim.IntegerPairResults : Prop :=
  ∀ (i : Instr) (g : Guard) (d a : Reg) (b : SrcB) (f : Nat → Nat → Nat → Nat × Sticky) (s : State),
    intPair i = some (g, d, a, b, f) → s.Issuing → s.Clear (plain a :: b.regs) [d] →
    ∃ t, Machine.exec i s = .next t ∧ s.Wrote t
      { pass := s.passing g, dst := some d, tag := s.pairTag i a b
        val := fun l => lanesOf s.es.w fun n => (f s.es.w (elt s.es.w (s.cur.read a l) n) (elt s.es.w (s.srcB b l) n)).1
        flags := fun l => flagsOf s.es.w fun n => (f s.es.w (elt s.es.w (s.cur.read a l) n) (elt s.es.w (s.srcB b l) n)).2 }

/-- R169, R170, R171: `nop` changes nothing but the group's place; `mov` copies each lane of the permuted register, or puts the
immediate into each sub-element; `movi` puts its wrapped immediate there. -/
def Claim.MovesAndNop : Prop :=
  (∀ (g : Guard) (s : State), s.Issuing →
    ∃ t, Machine.exec (.nop g) s = .next t ∧ s.Wrote t { pass := fun _ => false }) ∧
  (∀ (g : Guard) (d b : Reg) (p : Perm) (s : State), s.Issuing → s.Clear [(b, p)] [d] →
    ∃ t, Machine.exec (.mov g d b p) s = .next t ∧ s.Wrote t
      { pass := s.passing g, dst := some d, tag := s.seenTag (b, p), val := fun l => s.cur.readB b p l }) ∧
  (∀ (g : Guard) (d : Reg) (v : Word) (s : State), s.Issuing → s.Clear [] [d] →
    ∃ t, Machine.exec (.movImm g d v) s = .next t ∧ s.Wrote t
      { pass := s.passing g, dst := some d, tag := .uniform
        val := fun _ => if s.es = .e64 then v.signExtend 64 else lanesOf s.es.w fun _ => v.toNat % 2 ^ s.es.w }) ∧
  (∀ (g : Guard) (d : Reg) (v : BitVec 9) (s : State), s.Issuing → s.Clear [] [d] →
    ∃ t, Machine.exec (.movi g d v) s = .next t ∧ s.Wrote t
      { pass := s.passing g, dst := some d, tag := .uniform, val := fun _ => lanesOf s.es.w fun _ => wrap s.es.w v.toInt })

/-- The unary rows of R173 and R178: guard, destination, source, and the value of one sub-element. -/
def intOne : Instr → Option (Guard × Reg × Reg × (Nat → Nat → Nat))
  | .abs g d a => some (g, d, a, fun w x => wrap w (sgn w x).natAbs)
  | .neg g d a => some (g, d, a, fun w x => wrap w (-(x : Int)))
  | .not g d a => some (g, d, a, fun w x => 2 ^ w - 1 - x)
  | .popc g d a => some (g, d, a, fun w x => ((List.range w).filter x.testBit).length)
  | .clz g d a => some (g, d, a, fun w x => if x = 0 then w else w - 1 - Nat.log2 x)
  | .brev g d a => some (g, d, a, fun w x => ((List.range w).map fun i => (x.testBit i).toNat * 2 ^ (w - 1 - i)).sum)
  | _ => none

/-- R173, R178: the unary integer instructions complete on clear operands, each sub-element holding the table's value. -/
def Claim.IntegerUnaryResults : Prop :=
  ∀ (i : Instr) (g : Guard) (d a : Reg) (f : Nat → Nat → Nat) (s : State),
    intOne i = some (g, d, a, f) → s.Issuing → s.Clear [plain a] [d] →
    ∃ t, Machine.exec i s = .next t ∧ s.Wrote t
      { pass := s.passing g, dst := some d, tag := s.plainTag [plain a]
        val := fun l => lanesOf s.es.w fun n => f s.es.w (elt s.es.w (s.cur.read a l) n) }

/-- R178: a bit field of len bits at pos is extracted, signed or unsigned, or replaced; a field that runs past the element
raises cause 0x0A, with no other effect than the trap. -/
def Claim.BitFieldResults : Prop :=
  ∀ (g : Guard) (d a c : Reg) (pos len1 : BitVec 6) (s : State), s.Issuing →
    let w := s.es.w
    let len := len1.toNat + 1
    (pos.toNat + len ≤ w → s.Clear [plain a] [d] →
      ∃ t, Machine.exec (.bfxI g d a pos len1) s = .next t ∧ s.Wrote t
        { pass := s.passing g, dst := some d, tag := s.plainTag [plain a]
          val := fun l => lanesOf w fun n => wrap w (sgn len (elt w (s.cur.read a l) n / 2 ^ pos.toNat)) }) ∧
    (pos.toNat + len ≤ w → s.Clear [plain a] [d] →
      ∃ t, Machine.exec (.bfxN g d a pos len1) s = .next t ∧ s.Wrote t
        { pass := s.passing g, dst := some d, tag := s.plainTag [plain a]
          val := fun l => lanesOf w fun n => elt w (s.cur.read a l) n / 2 ^ pos.toNat % 2 ^ len }) ∧
    (pos.toNat + len ≤ w → s.Clear [plain a, plain c] [d] →
      ∃ t, Machine.exec (.bfi g d a c pos len1) s = .next t ∧ s.Wrote t
        { pass := s.passing g, dst := some d, tag := s.plainTag [plain a, plain c]
          val := fun l => lanesOf w fun n =>
            let x := elt w (s.cur.read c l) n
            x % 2 ^ pos.toNat + 2 ^ pos.toNat * (elt w (s.cur.read a l) n % 2 ^ len) +
              2 ^ (pos.toNat + len) * (x / 2 ^ (pos.toNat + len)) }) ∧
    (w < pos.toNat + len →
      ∀ i ∈ [Instr.bfxI g d a pos len1, .bfxN g d a pos len1, .bfi g d a c pos len1],
        Machine.exec i s = .next (s.takeTrap { kind := 1, cause := 0x0A }))

end Sys2Proof.Machine

/-- nop, mov, movi, the one-source integer instructions and the bit fields. Readings and choices of the model it rests on: log 43. -/
def Obligations.IntegerMovesAndUnaries : Prop :=
  Machine.Claim.MovesAndNop ∧ Machine.Claim.IntegerUnaryResults ∧ Machine.Claim.BitFieldResults

namespace Sys2Proof.Machine

/-- R174, R175: `mad` wraps the product and sum; `mac2` adds the exact sum of two half-width signed products to the signed
accumulator and clamps once, SAT set when it clamps. Under ES = 8 `mac2` raises cause 0x07. -/
def Claim.MultiplyAccumulateResults : Prop :=
  ∀ (g : Guard) (d a b : Reg) (p : Perm) (c : Reg) (s : State), s.Issuing →
    let w := s.es.w
    let x := fun (l n : Nat) => elt w (s.cur.read a l) n
    let y := fun (l n : Nat) => elt w (s.cur.readB b p l) n
    let z := fun (l n : Nat) => elt w (s.cur.read c l) n
    let h := w / 2
    let q := fun (l n : Nat) => sgn h (elt h (s.cur.read a l) n) * sgn h (elt h (s.cur.readB b p l) n)
    (s.Clear [plain a, (b, p), plain c] [d] →
      ∃ t, Machine.exec (.mad g d a b p c) s = .next t ∧ s.Wrote t
        { pass := s.passing g, dst := some d, tag := s.plainTag [plain a, (b, p), plain c]
          val := fun l => lanesOf w fun n => wrap w ((x l n : Int) * y l n + z l n) }) ∧
    (s.es ≠ .e8 → s.Clear [plain a, (b, p), plain c] [d] →
      ∃ t, Machine.exec (.mac2 g d a b p c) s = .next t ∧ s.Wrote t
        { pass := s.passing g, dst := some d, tag := s.plainTag [plain a, (b, p), plain c]
          val := fun l => lanesOf w fun n => (satI w (sgn w (z l n) + (q l (2 * n) + q l (2 * n + 1)))).1
          flags := fun l => flagsOf w fun n => (satI w (sgn w (z l n) + (q l (2 * n) + q l (2 * n + 1)))).2 }) ∧
    (s.es = .e8 → Machine.exec (.mac2 g d a b p c) s = .next (s.takeTrap { kind := 1, cause := 0x07 }))

/-- R138, R177: one rounded shift: half up or half to even, of the signed or unsigned value. -/
def roundedShift (w : Nat) (u he : Bool) (k x : Nat) : Int :=
  let v : Int := if u then x else sgn w x
  let q := v / 2 ^ k
  let r := v % 2 ^ k
  if k = 0 then v
  else if 2 * r < 2 ^ k then q
  else if 2 * r = 2 ^ k then (if he && q % 2 = 0 then q else q + 1)
  else q + 1

/-- R176, R177: `rshr` by an immediate or by the lane's own amounts, held at 63, in full width or narrowed with a clamp, a
supplying the even half-width sub-elements and c the odd; an immediate amount past the element raises cause 0x0A, and narrowing
under ES = 8 cause 0x07. -/
def Claim.RoundingShiftResults : Prop :=
  ∀ (g : Guard) (d a : Reg) (sh : ShiftSrc) (u he : Bool) (c : Reg) (s : State), s.Issuing →
    let w := s.es.w
    let k := fun (l n : Nat) => match sh with | .imm m => m.toNat | .reg b p => min (elt w (s.cur.readB b p l) n) 63
    let rs : List SrcReg := match sh with | .imm _ => [] | .reg b p => [(b, p)]
    let y := fun (f : Reg) (l n : Nat) => roundedShift w u he (k l n) (elt w (s.cur.read f l) n)
    let r := fun (l n : Nat) => (if u then satN else satI) (w / 2) (y (if n % 2 = 0 then a else c) l (n / 2))
    ((∀ m, sh = .imm m → m.toNat < w) → s.Clear (plain a :: rs) [d] →
      ∃ t, Machine.exec (.rshr g d a sh u he none) s = .next t ∧ s.Wrote t
        { pass := s.passing g, dst := some d, tag := s.plainTag (plain a :: rs)
          val := fun l => lanesOf w fun n => wrap w (y a l n) }) ∧
    ((∀ m, sh = .imm m → m.toNat < w) → s.es ≠ .e8 → s.Clear (plain a :: plain c :: rs) [d] →
      ∃ t, Machine.exec (.rshr g d a sh u he (some c)) s = .next t ∧ s.Wrote t
        { pass := s.passing g, dst := some d, tag := s.plainTag (plain a :: plain c :: rs)
          val := fun l => lanesOf (w / 2) fun n => (r l n).1
          flags := fun l => flagsOf (w / 2) fun n => (r l n).2 }) ∧
    (∀ m, sh = .imm m → w ≤ m.toNat →
      Machine.exec (.rshr g d a sh u he none) s = .next (s.takeTrap { kind := 1, cause := 0x0A }) ∧
      (s.es ≠ .e8 → Machine.exec (.rshr g d a sh u he (some c)) s = .next (s.takeTrap { kind := 1, cause := 0x0A }))) ∧
    (s.es = .e8 → Machine.exec (.rshr g d a sh u he (some c)) s = .next (s.takeTrap { kind := 1, cause := 0x07 }))

end Sys2Proof.Machine

/-- mad, mac2 and rshr compute exactly and narrow once. -/
def Obligations.MultiplyAccumulateAndRoundingShift : Prop :=
  Machine.Claim.MultiplyAccumulateResults ∧ Machine.Claim.RoundingShiftResults

namespace Sys2Proof.Machine

/-- R161: a condition of `cmp` on two sub-elements. -/
def intCond (c : CmpCond) (w x y : Nat) : Prop :=
  match c with
  | .eq => x = y
  | .ne => x ≠ y
  | .ltI => sgn w x < sgn w y
  | .leI => sgn w x ≤ sgn w y
  | .gtI => sgn w y < sgn w x
  | .geI => sgn w y ≤ sgn w x
  | .ltN => x < y
  | .leN => x ≤ y
  | .gtN => y < x
  | .geN => y ≤ x

/-- R179, R180: `cmp` writes each sub-element's mask where it has a destination and pushes the chosen sub-element's truth unless
it is `.np`; a sub-element past the last, or neither effect, raises cause 0x0A. -/
def Claim.IntegerCompareResults : Prop :=
  ∀ (g : Guard) (cond : CmpCond) (wd : Option Reg) (a b : Reg) (p : Perm) (np : Bool) (sub : BitVec 3) (s : State),
    s.Issuing →
    let w := s.es.w
    let truth := fun (l n : Nat) => intCond cond w (elt w (s.cur.read a l) n) (elt w (s.cur.readB b p l) n)
    (sub.toNat < 64 / w → (np = true → wd ≠ none) → s.Clear [plain a, (b, p)] wd.toList →
      ∃ t v u, Machine.exec (.cmp g cond wd a b p np sub) s = .next t ∧
        s.Wrote t { pass := s.passing g, dst := wd, tag := s.plainTag [plain a, (b, p)], val := v, push := u } ∧
        (∀ l, ∃ m : Nat → Nat, v l = lanesOf w m ∧ ∀ n, (truth l n → m n = 2 ^ w - 1) ∧ (¬ truth l n → m n = 0)) ∧
        ∀ l, (np = true → u l = none) ∧
          (np = false → (truth l sub.toNat → u l = some true) ∧ (¬ truth l sub.toNat → u l = some false))) ∧
    ((64 / w ≤ sub.toNat ∨ (np = true ∧ wd = none)) →
      Machine.exec (.cmp g cond wd a b p np sub) s = .next (s.takeTrap { kind := 1, cause := 0x0A }))

/-- R36, R164, R168, R308: the operand checks, in their order, over the two-source integer instructions: a register at or past the
count raises cause 0x0A; a pending register raises an unsettled-operand trap that names it, then a held destination one with bit 6
set; a source lane that an executing lane reads, its bits past correction, raises a poison trap. -/
def Claim.OperandTraps : Prop :=
  ∀ (i : Instr) (g : Guard) (d a : Reg) (b : SrcB) (f : Nat → Nat → Nat → Nat × Sticky) (s : State),
    intPair i = some (g, d, a, b, f) → s.Issuing →
    let srcs := s.namedSrcs (plain a :: b.regs)
    let dsts := s.namedDsts [d]
    let bad := fun (x : SrcReg) (l : Nat) => s.executing l = true ∧ (s.cur.thread (permSrc x.2 l)).exited = false ∧
      (s.cur.reg (s.cur.resolve (permSrc x.2 l) x.1)).poison.getLsbD (permSrc x.2 l) = true
    ((∃ x ∈ (plain a :: b.regs).map (·.1) ++ [d], s.cur.regCount ≤ x.toNat) →
      Machine.exec i s = .next (s.takeTrap { kind := 1, cause := 0x0A })) ∧
    ((∀ x ∈ (plain a :: b.regs).map (·.1) ++ [d], x.toNat < s.cur.regCount) →
      ((∀ r o, s.cur.pendingBy r = some o → o.fail = none) → (∃ r ∈ srcs ++ dsts, s.cur.pendingBy r ≠ none) →
        ∃ r ∈ srcs ++ dsts, s.cur.pendingBy r ≠ none ∧
          Machine.exec i s = .next (s.takeTrap { kind := 7, aux := BitVec.ofNat 64 r })) ∧
      ((∀ r ∈ srcs ++ dsts, s.cur.pendingBy r = none) → (∀ r o, s.cur.heldBy r = some o → o.matrix = false) →
        (∃ r ∈ dsts, s.cur.heldBy r ≠ none) →
        ∃ r ∈ dsts, s.cur.heldBy r ≠ none ∧
          Machine.exec i s = .next (s.takeTrap { kind := 7, aux := BitVec.ofNat 64 (64 + r) })) ∧
      ((∀ r ∈ srcs ++ dsts, s.cur.pendingBy r = none) → (∀ r ∈ dsts, s.cur.heldBy r = none) →
        (∃ x ∈ plain a :: b.regs, ∃ l, l < 32 ∧ bad x l) →
        ∃ x ∈ plain a :: b.regs, ∃ l, l < 32 ∧ bad x l ∧ Machine.exec i s =
          .next (s.takeTrap { kind := 0x0B, aux := BitVec.ofNat 64 (s.cur.resolve (permSrc x.2 l) x.1) })))

end Sys2Proof.Machine

/-- Two-source integer instructions and compares write their table's values; their operand traps. -/
def Obligations.IntegerPairsAndCompares : Prop :=
  Machine.Claim.IntegerPairResults ∧ Machine.Claim.IntegerCompareResults ∧ Machine.Claim.OperandTraps

/-! ### Floating point, special functions and conversion -/

namespace Sys2Proof.Machine

/-- The rows of R184 and R185 with a Float pair source: guard, destination, source a, source b, and the pattern and flags of one
sub-element from the format, the control word and the two patterns. -/
def floatPair : Instr → Option (Guard × Reg × Reg × FSrc × (Fmt → FCtl → Nat → Nat → Nat × Sticky))
  | .fadd g d a b => some (g, d, a, b, fun F c x y => fAddV F c (decodeFz F c.fzi x) (decodeFz F c.fzi y))
  | .fsub g d a b => some (g, d, a, b, fun F c x y => fAddV F c (decodeFz F c.fzi x) (decodeFz F c.fzi y).negate)
  | .fmul g d a b => some (g, d, a, b, fun F c x y => fMulV F c (decodeFz F c.fzi x) (decodeFz F c.fzi y))
  | .fmin g d a b => some (g, d, a, b, fun F c x y => fPickV F false (flushIn F c.fzi x) (flushIn F c.fzi y))
  | .fmax g d a b => some (g, d, a, b, fun F c x y => fPickV F true (flushIn F c.fzi x) (flushIn F c.fzi y))
  | .fscale g d a b p c => some (g, d, a, .reg b p c, fun F c x y => fScaleV F c (decodeFz F c.fzi x) (sgn F.w y))
  | _ => none

/-- R181, R182, R184, R185: the two-source float instructions complete on clear operands under an element size of 16, 32 or 64,
each sub-element of a and b read in the format the element size and H choose; under ES = 8 they raise cause 0x07. -/
def Claim.FloatPairResults : Prop :=
  ∀ (i : Instr) (g : Guard) (d a : Reg) (b : FSrc) (f : Machine.Fmt → FCtl → Nat → Nat → Nat × Sticky) (s : State),
    floatPair i = some (g, d, a, b, f) → s.Issuing →
    let w := s.es.w
    let r := fun (l n : Nat) => f (esFmt s.es (fsrcCtl b).h) (fsrcCtl b) (elt w (s.cur.read a l) n) (elt w (s.fsrc b l) n)
    (s.es ≠ .e8 → s.Clear (plain a :: fsrcRegs b) [d] →
      ∃ t, Machine.exec i s = .next t ∧ s.Wrote t
        { pass := s.passing g, dst := some d, tag := s.plainTag (plain a :: fsrcRegs b)
          val := fun l => lanesOf w fun n => (r l n).1
          flags := fun l => flagsOf w fun n => (r l n).2 }) ∧
    (s.es = .e8 → Machine.exec i s = .next (s.takeTrap { kind := 1, cause := 0x07 }))

/-- The one-source float rows: R186 works on the bits alone, R188 rounds to an integral value, R189 names the class. -/
def floatOne : Instr → Option (Guard × Reg × Reg × (Es → Nat → Nat × Sticky))
  | .fneg g d a => some (g, d, a, fun es x => (if x / 2 ^ (es.w - 1) % 2 = 1 then x - 2 ^ (es.w - 1) else x + 2 ^ (es.w - 1), 0))
  | .fabs g d a => some (g, d, a, fun es x => (if x / 2 ^ (es.w - 1) % 2 = 1 then x - 2 ^ (es.w - 1) else x, 0))
  | .frnd g d a c => some (g, d, a, fun es x => fRndV (esFmt es c.h) c (flushIn (esFmt es c.h) c.fzi x))
  | .fclass g d a c => some (g, d, a, fun es x => (fClassV (esFmt es c.h) (flushIn (esFmt es c.h) c.fzi x), 0))
  | _ => none

/-- R182, R186, R188, R189: the one-source float instructions complete on clear operands under an element size of 16, 32 or 64;
under ES = 8 they raise cause 0x07. `fneg` is opcode 0x26 and `fabs` 0x27. -/
def Claim.FloatUnaryResults : Prop :=
  (∀ g d a, (encode (.fneg g d a)).map Word.opcode = [0x26] ∧ (encode (.fabs g d a)).map Word.opcode = [0x27]) ∧
  ∀ (i : Instr) (g : Guard) (d a : Reg) (f : Es → Nat → Nat × Sticky) (s : State),
    floatOne i = some (g, d, a, f) → s.Issuing →
    let r := fun (l n : Nat) => f s.es (elt s.es.w (s.cur.read a l) n)
    (s.es ≠ .e8 → s.Clear [plain a] [d] →
      ∃ t, Machine.exec i s = .next t ∧ s.Wrote t
        { pass := s.passing g, dst := some d, tag := s.plainTag [plain a]
          val := fun l => lanesOf s.es.w fun n => (r l n).1
          flags := fun l => flagsOf s.es.w fun n => (r l n).2 }) ∧
    (s.es = .e8 → Machine.exec i s = .next (s.takeTrap { kind := 1, cause := 0x07 }))

/-- R184, R187: `ffma` rounds the exact product and sum once; `fdot2` rounds once the exact sum of c's element and two products of
half-width elements, bf16 under ES = 32 and f32 under ES = 64, and raises cause 0x07 under the other sizes. -/
def Claim.FusedResults : Prop :=
  ∀ (g : Guard) (d a b : Reg) (p : Perm) (cr : Reg) (c : FCtl) (s : State), s.Issuing →
    let w := s.es.w
    let F := esFmt s.es c.h
    let v := fun (x n : Nat) (y : Lane) => decodeFz F c.fzi (elt x y n)
    let r := fun (l n : Nat) => fFmaV F c (v w n (s.cur.read a l)) (v w n (s.cur.readB b p l)) (v w n (s.cur.read cr l))
    let G := if s.es = .e64 then f32 else bf16
    let h := fun (n : Nat) (y : Lane) => decodeFz G c.fzi (elt (w / 2) y n)
    let q := fun (l n : Nat) =>
      fDotV (esFmt s.es false) c (decodeFz (esFmt s.es false) c.fzi (elt w (s.cur.read cr l) n))
        (h (2 * n) (s.cur.read a l)) (h (2 * n) (s.cur.readB b p l))
        (h (2 * n + 1) (s.cur.read a l)) (h (2 * n + 1) (s.cur.readB b p l))
    (s.es ≠ .e8 → s.Clear [plain a, (b, p), plain cr] [d] →
      ∃ t, Machine.exec (.ffma g d a b p cr c) s = .next t ∧ s.Wrote t
        { pass := s.passing g, dst := some d, tag := s.plainTag [plain a, (b, p), plain cr]
          val := fun l => lanesOf w fun n => (r l n).1
          flags := fun l => flagsOf w fun n => (r l n).2 }) ∧
    (s.es = .e32 ∨ s.es = .e64 → s.Clear [plain a, (b, p), plain cr] [d] →
      ∃ t, Machine.exec (.fdot2 g d a b p cr c) s = .next t ∧ s.Wrote t
        { pass := s.passing g, dst := some d, tag := s.plainTag [plain a, (b, p), plain cr]
          val := fun l => lanesOf w fun n => (q l n).1
          flags := fun l => flagsOf w fun n => (q l n).2 }) ∧
    (s.es = .e8 ∨ s.es = .e16 →
      Machine.exec (.fdot2 g d a b p cr c) s = .next (s.takeTrap { kind := 1, cause := 0x07 }))

end Sys2Proof.Machine

/-- Two-source float instructions, ffma and fdot2. Readings and choices of the model it rests on: log 24. -/
def Obligations.FloatPairsAndFused : Prop :=
  Machine.Claim.FloatPairResults ∧ Machine.Claim.FusedResults

namespace Sys2Proof.Machine

/-- R190: a float condition of two values neither of which is a NaN. -/
def floatCond (c : FCond) (x y : FVal) : Prop :=
  match c with
  | .eq => fLt x y = false ∧ fLt y x = false
  | .ne => fLt x y = true ∨ fLt y x = true
  | .lt => fLt x y = true
  | .le => fLt y x = false
  | .gt => fLt y x = true
  | .ge => fLt x y = false
  | .unord => False
  | .ord => True

/-- R190: `fcmp` writes each sub-element's mask and pushes the truth at sub-element 0; beside a NaN only `.ne` and `.unord` hold,
and NV is set by the four order conditions, or by a signalling NaN. -/
def Claim.FloatCompareResults : Prop :=
  ∀ (g : Guard) (cond : FCond) (d a b : Reg) (p : Perm) (c : FCtl) (s : State), s.Issuing → s.es ≠ .e8 →
    s.Clear [plain a, (b, p)] [d] →
    let w := s.es.w
    let x := fun (l n : Nat) => decodeFz (esFmt s.es c.h) c.fzi (elt w (s.cur.read a l) n)
    let y := fun (l n : Nat) => decodeFz (esFmt s.es c.h) c.fzi (elt w (s.cur.readB b p l) n)
    let un := fun (l n : Nat) => (x l n).isNan = true ∨ (y l n).isNan = true
    let holds := fun (l n : Nat) => (un l n ∧ (cond = .ne ∨ cond = .unord)) ∨ (¬ un l n ∧ floatCond cond (x l n) (y l n))
    let nv := fun (l n : Nat) => (un l n ∧ cond ∈ [FCond.lt, .le, .gt, .ge]) ∨ (x l n).isSig = true ∨ (y l n).isSig = true
    ∃ t v u fl, Machine.exec (.fcmp g cond d a b p c) s = .next t ∧
      s.Wrote t { pass := s.passing g, dst := some d, tag := s.plainTag [plain a, (b, p)], val := v, flags := fl, push := u } ∧
      ∀ l, (∃ m : Nat → Nat, v l = lanesOf w m ∧ ∀ n, (holds l n → m n = 2 ^ w - 1) ∧ (¬ holds l n → m n = 0)) ∧
        (∃ e : Nat → Sticky, fl l = flagsOf w e ∧ ∀ n, (nv l n → e n = fNV) ∧ (¬ nv l n → e n = 0)) ∧
        (holds l 0 → u l = some true) ∧ (¬ holds l 0 → u l = some false)

end Sys2Proof.Machine

/-- One-source float instructions on bits and values, and float compares. -/
def Obligations.FloatUnariesAndCompares : Prop :=
  Machine.Claim.FloatUnaryResults ∧ Machine.Claim.FloatCompareResults

namespace Sys2Proof.Machine

/-- R123, R138: a finite pattern of a standard format, decoded and rounded to its own format in any mode without flushing, is
itself, with no flag. -/
def Claim.RoundingKeepsFormatValues : Prop :=
  ∀ F ∈ [f16, bf16, f32, f64], ∀ (rm : BitVec 2) (x : Nat) (n : Bool) (m : Nat) (e : Int),
    x < 2 ^ F.w → decodeF F x = .fin n m e → roundF F rm false n m e = (x, 0)

/-- R184: sums and products of zeros and infinities: a sum of zeros of unlike signs is +0 but −0 toward −∞; infinities of unlike
signs, and zero times infinity, give the canonical NaN with NV; and no operation on a quiet NaN sets a flag. -/
def Claim.FloatSpecialCases : Prop :=
  ∀ F ∈ [f16, bf16, f32, f64], ∀ (c : FCtl) (n : Bool) (e e' : Int) (y : FVal),
    (fAddV F c (.fin n 0 e) (.fin (!n) 0 e') = (if c.rm.toNat = 3 then 2 ^ (F.w - 1) else 0, 0)) ∧
    (fAddV F c (.fin n 0 e) (.fin n 0 e') = (if n then 2 ^ (F.w - 1) else 0, 0)) ∧
    (fAddV F c (.inf n) (.inf (!n)) = (F.canon, fNV)) ∧
    (fMulV F c (.fin n 0 e) (.inf n) = (F.canon, fNV)) ∧
    (y.isSig = false → fAddV F c (.nan false) y = (F.canon, 0) ∧ fAddV F c y (.nan false) = (F.canon, 0) ∧
      fMulV F c (.nan false) y = (F.canon, 0) ∧ fMulV F c y (.nan false) = (F.canon, 0)) ∧
    (fAddV F c (.nan true) y = (F.canon, fNV) ∧ fMulV F c y (.nan true) = (F.canon, fNV))

end Sys2Proof.Machine

/-- Rounding keeps the values of its format; sums and products of zeros and infinities. -/
def Obligations.FloatRounding : Prop :=
  Machine.Claim.RoundingKeepsFormatValues ∧ Machine.Claim.FloatSpecialCases

namespace Sys2Proof.Machine

/-- The special functions of R191: guard, destination, source, control word, whether every standard size is allowed, and the
pattern and flags of one sub-element. -/
def specialFn : Instr → Option (Guard × Reg × Reg × FCtl × Bool × (Fmt → FCtl → Nat → Nat × Sticky))
  | .frcp g d a c => some (g, d, a, c, true, fun F c x => fRcpV F c (decodeF F x))
  | .frsqrt g d a c => some (g, d, a, c, true, fun F c x => fRsqrtV F c (decodeF F x))
  | .fsqrt g d a c => some (g, d, a, c, true, fun F c x => fSqrtV F c (decodeF F x))
  | .fexp2 g d a c => some (g, d, a, c, false, fExp2V)
  | .flog2 g d a c => some (g, d, a, c, false, fLog2V)
  | .fsin g d a c => some (g, d, a, c, false, fSinV)
  | .fcos g d a c => some (g, d, a, c, false, fCosV)
  | _ => none

/-- R182, R191, R143, R308: a special function begins one long operation where some lane takes it: the destination is pending and
the source held, the counts of setA and setB rise, and the write that will land is the function's value of each sub-element; with
no lane it only moves on. A wrong element size raises cause 0x07. -/
def Claim.SpecialFunctionsBegin : Prop :=
  ∀ (i : Instr) (g : Guard) (d a : Reg) (c : FCtl) (wide : Bool) (f : Machine.Fmt → FCtl → Nat → Nat × Sticky) (s : State),
    specialFn i = some (g, d, a, c, wide, f) → s.Issuing →
    let F := esFmt s.es c.h
    let r := fun (l n : Nat) => f F c (flushIn F c.fzi (elt s.es.w (s.cur.read a l) n))
    let ok := s.es = .e16 ∨ s.es = .e32 ∨ (wide = true ∧ s.es = .e64)
    (ok → s.Clear [plain a] [d] → (∃ l, l < 32 ∧ s.passing g l = true) → s.Room true true →
      ∃ t o, Machine.exec i s = .next t ∧ s.Began t o ∧
        (∀ r, r ∈ o.pend ↔ ∃ l, l < 32 ∧ s.passing g l = true ∧ s.cur.resolve l d = r) ∧
        (∀ r, r ∈ o.held ↔ ∃ l, l < 32 ∧ s.passing g l = true ∧ s.cur.resolve l a = r) ∧
        (∀ x, x ∈ o.writes ↔ ∃ l, l < 32 ∧ s.passing g l = true ∧
          x = ⟨s.cur.resolve l d, l, lanesOf s.es.w fun n => (r l n).1, false⟩) ∧
        (∀ x, x ∈ o.flags ↔ ∃ l, l < 32 ∧ s.passing g l = true ∧ x = (l, flagsOf s.es.w fun n => (r l n).2)) ∧
        (o.uni = true ↔ s.seenTag (plain a) = .uniform)) ∧
    (ok → s.Clear [plain a] [d] → (∀ l, l < 32 → s.passing g l = false) → s.Room false false →
      ∃ t, Machine.exec i s = .next t ∧ s.Wrote t { pass := fun _ => false, dst := some d }) ∧
    (¬ ok → Machine.exec i s = .next (s.takeTrap { kind := 1, cause := 0x07 }))

/-- R191: the special cases of the special functions. -/
def Claim.SpecialFunctionCases : Prop :=
  ∀ F ∈ [f16, bf16, f32, f64], ∀ (c : FCtl) (n : Bool) (m : Nat) (e : Int) (x : Nat),
    let zero := fun (b : Bool) => if b then 2 ^ (F.w - 1) else 0
    let inf := fun (b : Bool) => zero b + (F.maxPat + 1)
    (decodeF F x = .fin n 0 e →
      fRcpV F c (decodeF F x) = (inf n, fDZ) ∧ fRsqrtV F c (decodeF F x) = (inf n, fDZ) ∧
      fSqrtV F c (decodeF F x) = (zero n, 0) ∧ fLog2V F c x = (inf true, fDZ)) ∧
    (decodeF F x = .inf n → fRcpV F c (decodeF F x) = (zero n, 0) ∧ fExp2V F c x = (if n then zero false else inf false, 0) ∧
      fSinV F c x = (F.canon, fNV) ∧ fCosV F c x = (F.canon, fNV)) ∧
    (decodeF F x = .inf false → fRsqrtV F c (decodeF F x) = (zero false, 0) ∧ fSqrtV F c (decodeF F x) = (inf false, 0) ∧
      fLog2V F c x = (inf false, 0)) ∧
    ((decodeF F x = .fin true m e ∧ m ≠ 0) ∨ decodeF F x = .inf true →
      fRsqrtV F c (decodeF F x) = (F.canon, fNV) ∧ fSqrtV F c (decodeF F x) = (F.canon, fNV) ∧
      fLog2V F c x = (F.canon, fNV)) ∧
    (∀ sig, decodeF F x = .nan sig → let r := (F.canon, if sig then fNV else 0)
      fRcpV F c (decodeF F x) = r ∧ fRsqrtV F c (decodeF F x) = r ∧ fSqrtV F c (decodeF F x) = r ∧ fExp2V F c x = r ∧
      fLog2V F c x = r ∧ fSinV F c x = r ∧ fCosV F c x = r)

end Sys2Proof.Machine

/-- The special functions begin a long write; their exact cases. Readings and choices of the model it rests on: log 10, 19. -/
def Obligations.SpecialFunctions : Prop :=
  Machine.Claim.SpecialFunctionsBegin ∧ Machine.Claim.SpecialFunctionCases

namespace Sys2Proof.Machine

/-- R193 to R196: `cvt` of a legal pair under the larger of its two widths converts each sub-element, an i result sign-extended
and every other zero-filled; an illegal pair raises cause 0x0A, another element size cause 0x07. -/
def Claim.ConvertResults : Prop :=
  ∀ (g : Guard) (dst src : Ty) (d a : Reg) (c : FCtl) (s : State), s.Issuing →
    let w := s.es.w
    let r := fun (l n : Nat) => convert dst src c (elt w (s.cur.read a l) n % 2 ^ tyBits src)
    (cvtSpec dst src ≠ none → w = max dst.cvtW src.cvtW → s.Clear [plain a] [d] →
      ∃ t, Machine.exec (.cvt g dst src d a c) s = .next t ∧ s.Wrote t
        { pass := s.passing g, dst := some d, tag := s.plainTag [plain a]
          val := fun l => lanesOf w fun n => if tySigned dst then wrap w (sgn dst.cvtW (r l n).1) else (r l n).1
          flags := fun l => flagsOf w fun n => (r l n).2 }) ∧
    (cvtSpec dst src = none →
      Machine.exec (.cvt g dst src d a c) s = .next (s.takeTrap { kind := 1, cause := 0x0A })) ∧
    (cvtSpec dst src ≠ none → w ≠ max dst.cvtW src.cvtW →
      Machine.exec (.cvt g dst src d a c) s = .next (s.takeTrap { kind := 1, cause := 0x07 }))

/-- R195: a conversion of a finite value to an integer type: a rounded value in range is delivered, NX set where it differs; one
out of range sets NV and gives the bound it passed, or the indefinite pattern without SATC; a NaN gives 0, or that pattern. -/
def Claim.ConvertToInteger : Prop :=
  ∀ t ∈ [Ty.i8, .i16, .i32, .i64, .n8, .n16, .n32, .n64], ∀ (c : FCtl) (n : Bool) (m : Nat) (e : Int),
    let w := t.cvtW
    let lo : Int := if tySigned t then -2 ^ (w - 1) else 0
    let hi : Int := if tySigned t then 2 ^ (w - 1) - 1 else 2 ^ w - 1
    let indef : Nat := if tySigned t then 2 ^ (w - 1) else 2 ^ w - 1
    let v : Int := (roundInt c.rm n m e).1
    (lo ≤ v → v ≤ hi → toIntV t c (.fin n m e) = (wrap w v, if (roundInt c.rm n m e).2 then fNX else 0)) ∧
    (v < lo → toIntV t c (.fin n m e) = (if c.satc then wrap w lo else indef, fNV)) ∧
    (hi < v → toIntV t c (.fin n m e) = (if c.satc then wrap w hi else indef, fNV)) ∧
    (∀ sig, toIntV t c (.nan sig) = (if c.satc then 0 else indef, fNV)) ∧
    toIntV t c (.inf n) = (if c.satc then (if n then wrap w lo else wrap w hi) else indef, fNV)

/-- R197, R198: `pack` converts the sub-elements of a, then of c, into the run of slots its part names, the rest of the
destination standing, which it then reads as well; `unpack` converts such a run of slots of a. An illegal pair, and a part past the last, raise cause 0x0A; a
wrong element size raises cause 0x07. -/
def Claim.PackResults : Prop :=
  ∀ (g : Guard) (dst src : Ty) (d a cr : Reg) (part : BitVec 6) (c : FCtl) (s : State), s.Issuing →
    let w := s.es.w
    let n := 64 / w
    let p := part.toNat
    let wd := tySlotW dst
    let ws := tySlotW src
    let put := fun (l j : Nat) =>
      let k := j - 2 * n * p
      convert dst src c ((if k < n then elt w (s.cur.read a l) k else elt w (s.cur.read cr l) (k - n)) % 2 ^ tyBits src)
    let take := fun (l j : Nat) => convert dst src c (elt ws (s.cur.read a l) (n * p + j) % 2 ^ tyBits src)
    (packSpec dst src ≠ none → w = src.cvtW → p < w / (2 * wd) →
      s.Clear (if w / (2 * wd) = 1 then [plain a, plain cr] else [plain d, plain a, plain cr]) [d] →
      ∃ t, Machine.exec (.pack g dst src d a cr part c) s = .next t ∧ s.Wrote t
        { pass := s.passing g, dst := some d, tag := s.plainTag [plain d, plain a, plain cr]
          val := fun l => lanesOf wd fun j =>
            if 2 * n * p ≤ j ∧ j < 2 * n * (p + 1) then (put l j).1 else elt wd (s.cur.read d l) j
          flags := fun l => orFlags ((List.range (2 * n)).map fun j => (put l (2 * n * p + j)).2) }) ∧
    (unpackSpec dst src ≠ none → w = dst.cvtW → p < w / ws → s.Clear [plain a] [d] →
      ∃ t, Machine.exec (.unpack g dst src d a part c) s = .next t ∧ s.Wrote t
        { pass := s.passing g, dst := some d, tag := s.plainTag [plain a]
          val := fun l => lanesOf w fun j => (take l j).1
          flags := fun l => flagsOf w fun j => (take l j).2 }) ∧
    (packSpec dst src = none ∨ (w = src.cvtW ∧ w / (2 * wd) ≤ p) →
      Machine.exec (.pack g dst src d a cr part c) s = .next (s.takeTrap { kind := 1, cause := 0x0A })) ∧
    (unpackSpec dst src = none ∨ (w = dst.cvtW ∧ w / ws ≤ p) →
      Machine.exec (.unpack g dst src d a part c) s = .next (s.takeTrap { kind := 1, cause := 0x0A })) ∧
    (packSpec dst src ≠ none → w ≠ src.cvtW →
      Machine.exec (.pack g dst src d a cr part c) s = .next (s.takeTrap { kind := 1, cause := 0x07 })) ∧
    (unpackSpec dst src ≠ none → w ≠ dst.cvtW →
      Machine.exec (.unpack g dst src d a part c) s = .next (s.takeTrap { kind := 1, cause := 0x07 }))

end Sys2Proof.Machine

/-- Conversions, pack and unpack. Readings and choices of the model it rests on: log 76. -/
def Obligations.Conversions : Prop :=
  Machine.Claim.ConvertResults ∧ Machine.Claim.ConvertToInteger ∧ Machine.Claim.PackResults

/-! ### Cross-lane, predicate and tag instructions -/

namespace Sys2Proof.Machine

/-- R55, R56, R200: one member mask over the executing threads, which it includes, and every other member has exited; no other
group of the skein waits at the instruction. -/
structure State.AllIn (s : State) (m : MaskSrc) : Prop where
  live  : ∀ l, l < 32 → s.executing l = true → (s.cur.thread l).exited = false
  same  : ∀ l, l < 32 → s.executing l = true → s.maskAt m l = s.groupMask m ∧ (s.groupMask m).getLsbD l = true
  all   : ∀ l, l < 32 → (s.groupMask m).getLsbD l = true → s.executing l = true ∨ (s.cur.thread l).exited = true
  alone : ∀ w ∈ s.cur.waits, w.issue.pc ≠ s.issue.pc

/-- R57, R200: element j of a register over the lanes that supply a value, the fill value from the others. -/
def State.supplied (s : State) (g : Guard) (f : Reg) (fill : Nat) (j : Nat) : Nat :=
  let n := 64 / s.es.w
  if j / n < 32 ∧ s.passing g (j / n) = true then elt s.es.w (s.cur.read f (j / n)) (j % n) else fill

/-- R202, R203: `shfl` and `slide`: guard, destination, sources, mask, amount, and the value of element e, from the value that
lane's own sub-element of b has. -/
def moveRow (s : State) : Instr → Option (Guard × Reg × List Reg × MaskSrc × BitVec 8 × (Nat → Nat))
  | .shfl g md d a b m fill amt =>
    let n := 64 / s.es.w
    let j : Nat → Int := fun e => match md with
      | .at => (elt s.es.w (s.cur.read b (e / n)) (e % n) : Int)
      | .back => (e : Int) - amt.toNat
      | .fwd => e + amt.toNat
      | .swap => (e ^^^ amt.toNat : Nat)
      | .rot => ((e : Int) - amt.toNat) % (32 * n : Nat)
    some (g, d, if md = .at then [a, b] else [a], m, amt, fun e =>
      if 0 ≤ j e ∧ j e < (32 * n : Nat) then s.supplied g a (wrap s.es.w fill.toInt) (j e).toNat else wrap s.es.w fill.toInt)
  | .slide g down d a nb m fill amt =>
    let N := 32 * (64 / s.es.w)
    let fv := wrap s.es.w fill.toInt
    let far := fun (j : Nat) => match nb with | some b => s.supplied g b fv j | none => fv
    some (g, d, a :: nb.toList, m, amt, fun e =>
      if down then (if e + amt.toNat < N then s.supplied g a fv (e + amt.toNat) else far (e + amt.toNat - N))
      else if amt.toNat ≤ e then s.supplied g a fv (e - amt.toNat) else far (N - amt.toNat + e))
  | _ => none

/-- R55 to R57, R201 to R203: with every member there, `shfl` and `slide` complete at once: each contributing lane's sub-elements
receive the elements the rule names. An amount at or above the number of elements raises cause 0x0A. -/
def Claim.MoveAcrossLanes : Prop :=
  ∀ (i : Instr) (g : Guard) (d : Reg) (srcs : List Reg) (m : MaskSrc) (amt : BitVec 8) (v : Nat → Nat) (s : State),
    moveRow s i = some (g, d, srcs, m, amt, v) → s.Issuing → s.Fresh →
    let n := 64 / s.es.w
    (amt.toNat < 32 * n → s.AllIn m → s.Clear (maskRegs m ++ srcs.map plain) [d] →
      ∃ t, Machine.exec i s = .next t ∧ { s with idCtr := s.idCtr + 1 }.Wrote t
        { pass := s.passing g, dst := some d, tag := s.plainTag (maskRegs m ++ srcs.map plain), val := fun l => lanesOf s.es.w fun k => v (l * n + k) }) ∧
    (32 * n ≤ amt.toNat → Machine.exec i s = .next (s.takeTrap { kind := 1, cause := 0x0A }))

/-- R204: `vote` over the members whose guard passes: the disjunction, conjunction or agreement of their predicates pushed; the
mask of those that hold it written; or their number written and its truth pushed. -/
def Claim.VoteResults : Prop :=
  ∀ (g : Guard) (op : VoteOp) (d : Reg) (m : MaskSrc) (dep : BitVec 2) (s : State),
    s.Issuing → s.Fresh → s.AllIn m → s.Clear (maskRegs m) (if op.writes then [d] else []) →
    let holds := fun l => s.passing g l && (s.cur.thread l).predAt dep.toNat
    let some' := (List.range 32).any holds
    let all := (List.range 32).all fun l => !s.passing g l || holds l
    let cnt := ((List.range 32).filter holds).length
    ∃ t, Machine.exec (.vote g op d m dep) s = .next t ∧ { s with idCtr := s.idCtr + 1 }.Wrote t
      (match op with
       | .or => { pass := s.passing g, push := fun _ => some some' }
       | .and => { pass := s.passing g, push := fun _ => some all }
       | .eqv => { pass := s.passing g, push := fun _ => some (all || !some') }
       | .bits => { pass := s.passing g, dst := some d, tag := .uniform
                    val := fun _ => BitVec.ofNat 64 (((List.range 32).filter holds).map (2 ^ ·)).sum }
       | .cnt => { pass := s.passing g, dst := some d, tag := .uniform, val := fun _ => BitVec.ofNat 64 cnt
                   push := fun _ => some (decide (0 < cnt)) })

/-- R205: a reduction of patterns, the integer ones in closed form. -/
def reduction (op : ReduxOp) (w : Nat) (F : Fmt) (c : FCtl) (xs : List Nat) : Nat × Sticky :=
  match op with
  | .add => (xs.sum % 2 ^ w, 0)
  | .minI => (wrap w ((xs.map (sgn w)).foldl min (2 ^ (w - 1) - 1)), 0)
  | .minN => (xs.foldl min (2 ^ w - 1), 0)
  | .maxI => (wrap w ((xs.map (sgn w)).foldl max (-2 ^ (w - 1))), 0)
  | .maxN => (xs.foldl max 0, 0)
  | .and => (xs.foldl (· &&& ·) (2 ^ w - 1), 0)
  | .or => (xs.foldl (· ||| ·) 0, 0)
  | .xor => (xs.foldl (· ^^^ ·) 0, 0)
  | _ => reduxOf op w F c xs

/-- R205: `redux` gives every contributing lane the reduction, for each sub-element, over its segment of 32, 2, 4, 8 or 16 lanes, a
lane that supplies nothing counting as the identity. A float form under ES = 8 raises cause 0x07, a segment code past 4 cause
0x0A. -/
def Claim.ReductionResults : Prop :=
  ∀ (g : Guard) (op : ReduxOp) (d a : Reg) (m : MaskSrc) (seg : BitVec 3) (h fzo fzi : Bool) (s : State),
    s.Issuing → s.Fresh →
    let i := Instr.redux g op d a m seg h fzo fzi
    let w := s.es.w
    let G := if seg = 0 then 32 else 2 ^ seg.toNat
    let x := fun (l n : Nat) => if s.passing g l then elt w (s.cur.read a l) n else reduxIdent op w (esFmt s.es h)
    let r := fun (l n : Nat) => reduction op w (esFmt s.es h) ⟨0, h, fzo, fzi, false⟩
      ((List.range G).map fun j => x (l / G * G + j) n)
    ((op.isFloat = true → s.es ≠ .e8) → seg.toNat ≤ 4 → s.AllIn m → s.Clear (maskRegs m ++ [plain a]) [d] →
      ∃ t, Machine.exec i s = .next t ∧ { s with idCtr := s.idCtr + 1 }.Wrote t
        { pass := s.passing g, dst := some d, tag := if G = 32 then .uniform else .general
          val := fun l => lanesOf w fun n => (r l n).1
          flags := fun l => flagsOf w fun n => (r l n).2 }) ∧
    (op.isFloat = true → s.es = .e8 → Machine.exec i s = .next (s.takeTrap { kind := 1, cause := 0x07 })) ∧
    ((op.isFloat = true → s.es ≠ .e8) → 4 < seg.toNat →
      Machine.exec i s = .next (s.takeTrap { kind := 1, cause := 0x0A }))

end Sys2Proof.Machine

/-- Moves across lanes, votes and reductions. Readings and choices of the model it rests on: log 31. -/
def Obligations.CrossLaneResults : Prop :=
  Machine.Claim.MoveAcrossLanes ∧ Machine.Claim.VoteResults ∧ Machine.Claim.ReductionResults

namespace Sys2Proof.Machine

/-- The members and destinations of the four synchronising instructions. -/
def syncParts : Instr → Option (MaskSrc × List Reg)
  | .shfl _ _ d _ _ m _ _ => some (m, [d])
  | .slide _ _ d _ _ m _ _ => some (m, [d])
  | .vote _ op d m _ => some (m, if op.writes then [d] else [])
  | .redux _ _ d _ m _ _ _ _ => some (m, [d])
  | _ => none

end Sys2Proof.Machine

/-- R55, R56: a group whose mask differs among its threads, or leaves one of them out, raises cause 0x0B; one that lacks a member
waits, its threads standing in the new wait and nothing else changed. -/
def Obligations.SyncWaits : Prop :=
  ∀ (i : Instr) (m : MaskSrc) (ds : List Reg) (s : State), syncParts i = some (m, ds) → s.Issuing → s.Fresh →
    (∀ g md d a b fill amt, i = .shfl g md d a b m fill amt → amt.toNat < 32 * (64 / s.es.w)) →
    (∀ g dn d a nb fill amt, i = .slide g dn d a nb m fill amt → amt.toNat < 32 * (64 / s.es.w)) →
    (∀ g op d a seg h fzo fzi, i = .redux g op d a m seg h fzo fzi → seg.toNat ≤ 4 ∧ (op.isFloat = true → s.es ≠ .e8)) →
    s.Clear (maskRegs m ++ (syncSrcs i).map plain) ds →
    let member := fun l => s.executing l = true → s.maskAt m l = s.groupMask m ∧ (s.groupMask m).getLsbD l = true
    ((∃ l, l < 32 ∧ ¬ member l) → Machine.exec i s = .next (s.takeTrap { kind := 1, cause := 0x0B })) ∧
    ((∀ l, l < 32 → member l) → (∀ w ∈ s.cur.waits, w.issue.pc ≠ s.issue.pc) →
      (∃ l, l < 32 ∧ (s.groupMask m).getLsbD l = true ∧ s.executing l = false ∧ (s.cur.thread l).exited = false) →
      ∃ t, Machine.exec i s = .next t ∧ s.Waits t (.sync (s.groupMask m)) i)

namespace Sys2Proof.Machine

/-- R206: `tbl` under ES = 8 looks each byte of b up in the bytes of up to eight registers from a, the fill value past the last;
a wide table is the bytes of a over the lanes, of which it reads those looked up alone, a byte of a thread that has exited
reading 0. Another size raises cause 0x07, a
table past v63 cause 0x0A. -/
def Claim.TableLookup : Prop :=
  ∀ (g : Guard) (d a b : Reg) (wide : Bool) (cnt1 : BitVec 3) (fill : BitVec 8) (s : State), s.Issuing →
    let n := cnt1.toNat + 1
    let tabs := (List.range n).map fun r => a + BitVec.ofNat 6 r
    let entry := fun (l x : Nat) =>
      if wide then (if (s.cur.thread (x / 8)).exited then 0 else elt 8 (s.cur.read a (x / 8)) (x % 8))
      else if x < 8 * n then elt 8 (s.cur.read (a + BitVec.ofNat 6 (x / 8)) l) (x % 8) else fill.toNat
    (s.es = .e8 → a.toNat + n ≤ 64 →
      (if wide then s.Clear [plain b] [d] ∧ a.toNat < s.cur.regCount ∧
          (∀ r ∈ s.namedSrcs [plain a], s.cur.pendingBy r = none) ∧
          ∀ x ∈ s.lookedUp a b, s.cur.pendingBy x.1 = none ∧ (s.cur.reg x.1).poison.getLsbD x.2 = false
        else s.Clear (tabs.map plain ++ [plain b]) [d]) →
      ∃ t, Machine.exec (.tbl g d a b wide cnt1 fill) s = .next t ∧ s.Wrote t
        { pass := s.passing g, dst := some d, tag := if wide then .general else s.plainTag (tabs.map plain ++ [plain b]), val := fun l => lanesOf 8 fun k => entry l (elt 8 (s.cur.read b l) k) }) ∧
    (s.es ≠ .e8 → Machine.exec (.tbl g d a b wide cnt1 fill) s = .next (s.takeTrap { kind := 1, cause := 0x07 })) ∧
    (s.es = .e8 → 64 < a.toNat + n →
      Machine.exec (.tbl g d a b wide cnt1 fill) s = .next (s.takeTrap { kind := 1, cause := 0x0A }))

/-- R207, R208: `lid` puts the identifier its selector names, truncated, into each sub-element, and raises cause 0x0A for a
selector past the last; `sel` chooses bit by bit by a mask register, or lane by lane by a predicate. -/
def Claim.IdentifiersAndSelect : Prop :=
  ∀ (g : Guard) (d a b : Reg) (p : Perm) (c : Reg) (k : BitVec 4) (dep : BitVec 2) (s : State), s.Issuing →
    let slot := s.cur.slot.getD 0
    let port := match s.record with | some r => if r.ports = 0 then 0 else r.domain.toNat | none => 0
    let ids := fun (l : Nat) =>
      [l, slot, slot % 8, s.cur.quad, s.cur.core % 192, clusterOf s.cur.core, dieOf s.cur.core, port, (s.ctx s.cur.ctx).part]
    (k.toNat < 9 → s.Clear [] [d] →
      ∃ t, Machine.exec (.lid g d k) s = .next t ∧ s.Wrote t
        { pass := s.passing g, dst := some d, tag := if k = 0 then .affine 0 (lanesOf s.es.w fun _ => 1) s.es else .uniform
          val := fun l => lanesOf s.es.w fun _ => (ids l).getD k.toNat 0 % 2 ^ s.es.w }) ∧
    (9 ≤ k.toNat → Machine.exec (.lid g d k) s = .next (s.takeTrap { kind := 1, cause := 0x0A })) ∧
    (s.Clear [plain a, (b, p), plain c] [d] →
      ∃ t v, Machine.exec (.sel g d a b p (.mask c)) s = .next t ∧ s.Wrote t
        { pass := s.passing g, dst := some d, tag := s.plainTag [plain a, (b, p), plain c], val := v } ∧
        ∀ l i, i < 64 → (v l).getLsbD i =
          if (s.cur.read c l).getLsbD i then (s.cur.read a l).getLsbD i else (s.cur.readB b p l).getLsbD i) ∧
    (s.Clear [plain a, (b, p)] [d] →
      ∃ t, Machine.exec (.sel g d a b p (.pred dep)) s = .next t ∧ s.Wrote t
        { pass := s.passing g, dst := some d, tag := .general
          val := fun l => if (s.cur.thread l).pred.getLsbD dep.toNat then s.cur.read a l else s.cur.readB b p l })

end Sys2Proof.Machine

/-- Table look-up, selects and identifiers. -/
def Obligations.TablesAndSelects : Prop :=
  Machine.Claim.TableLookup ∧ Machine.Claim.IdentifiersAndSelect

namespace Sys2Proof.Machine

/-- R209, R210: the predicate instructions: `ppush` pushes a sub-element's truth, `ppop` drops k depths and leaves false below,
`pmov` copies the eight predicates out to a register or in from one, `plog` pushes or replaces by a truth table of two depths,
`ppick` pushes or rolls one to depth 0. A sub-element past the last, and a count of 0 or above 8, raise cause 0x0A. -/
def Claim.PredicateResults : Prop :=
  ∀ (g : Guard) (d a : Reg) (n : BitVec 6) (tt : BitVec 4) (dx dy k : BitVec 3) (s : State), s.Issuing →
    let q := fun (p : BitVec 8) => tt.getLsbD (2 * (p.getLsbD dx.toNat).toNat + (p.getLsbD dy.toNat).toNat)
    let bit := fun (b : Bool) => if b then (1 : BitVec 8) else 0
    (n.toNat < 64 / s.es.w → s.Clear [plain a] [] → ∃ t, Machine.exec (.ppush g a n) s = .next t ∧
      s.Predicated t (s.passing g) fun l p => p <<< 1 ||| bit (elt s.es.w (s.cur.read a l) n.toNat ≠ 0)) ∧
    (64 / s.es.w ≤ n.toNat → Machine.exec (.ppush g a n) s = .next (s.takeTrap { kind := 1, cause := 0x0A })) ∧
    (1 ≤ n.toNat → n.toNat ≤ 8 → ∃ t, Machine.exec (.ppop g n) s = .next t ∧
      s.Predicated t (s.passing g) fun _ p => p >>> n.toNat) ∧
    (n.toNat = 0 ∨ 8 < n.toNat → Machine.exec (.ppop g n) s = .next (s.takeTrap { kind := 1, cause := 0x0A })) ∧
    (s.Clear [] [d] → ∃ t, Machine.exec (.pmovFromPred g d) s = .next t ∧ s.Wrote t
      { pass := s.passing g, dst := some d, tag := .uniform, val := fun l => BitVec.ofNat 64 (s.cur.thread l).pred.toNat }) ∧
    (s.Clear [plain a] [] → ∃ t, Machine.exec (.pmovToPred g a) s = .next t ∧
      s.Predicated t (s.passing g) fun l _ => (s.cur.read a l).setWidth 8) ∧
    (∃ t, Machine.exec (.plog g false tt dx dy) s = .next t ∧
      s.Predicated t (s.passing g) fun _ p => p <<< 1 ||| bit (q p)) ∧
    (∃ t, Machine.exec (.plog g true tt dx dy) s = .next t ∧
      s.Predicated t (s.passing g) fun _ p => p &&& 0xFE ||| bit (q p)) ∧
    (∃ t, Machine.exec (.ppick g false k) s = .next t ∧
      s.Predicated t (s.passing g) fun _ p => p <<< 1 ||| bit (p.getLsbD k.toNat)) ∧
    (∃ t f, Machine.exec (.ppick g true k) s = .next t ∧ s.Predicated t (s.passing g) f ∧
      ∀ l p j, j < 8 → (f l p).getLsbD j =
        if j = 0 then p.getLsbD k.toNat else if j ≤ k.toNat then p.getLsbD (j - 1) else p.getLsbD j)

/-- R167, R211 to R213: `tag` writes the code of the register's tag; `iota` writes base + lane × stride, affine where its base is
uniform and its stride is not 0; `stk` writes each lane's sticky flags, with a general tag, and clears them. -/
def Claim.TagIotaSticky : Prop :=
  ∀ (g : Guard) (d a : Reg) (b : BitVec 11) (stride : BitVec 8) (s : State), s.Issuing →
    let w := s.es.w
    let pats := fun (x : Nat → Nat) (l : Nat) => lanesOf w fun n => wrap w (x n + l * stride.toInt)
    let flat := fun (x : Lane) => if stride = 0 then Tag.uniform else .affine x (lanesOf w fun _ => wrap w stride.toInt) s.es
    (s.Clear [plain a] [d] →
      ∃ t v, Machine.exec (.tag g d a) s = .next t ∧ s.Wrote t
        { pass := s.passing g, dst := some d, tag := .uniform, val := fun _ => v } ∧
        (s.tagOf a = .general → v = 0) ∧ (s.tagOf a = .uniform → v = 1) ∧
        (∀ x y e, s.tagOf a = .affine x y e → v = BitVec.ofNat 64 (2 + 4 * (Es.bits e).toNat))) ∧
    (s.Clear [] [d] →
      ∃ t, Machine.exec (.iota g d (.imm b) stride) s = .next t ∧ s.Wrote t
        { pass := s.passing g, dst := some d, tag := flat (lanesOf w fun _ => wrap w b.toInt), val := pats fun _ => wrap w b.toInt }) ∧
    (s.Clear [plain a] [d] →
      ∃ t, Machine.exec (.iota g d (.reg a) stride) s = .next t ∧ s.Wrote t
        { pass := s.passing g, dst := some d, tag := if s.tagOf a = .uniform then flat (s.cur.read a 0) else .general
          val := fun l => lanesOf w fun n => wrap w (elt w (s.cur.read a l) n + l * stride.toInt) }) ∧
    (s.Clear [] [d] →
      ∃ t, Machine.exec (.stk g d) s = .next t ∧ s.OnlyCur t ∧
        t.cur = { s.cur with regs := t.cur.regs, threads := t.cur.threads } ∧
        (∀ l, l < 32 → t.cur.thread l =
          let x := if s.executing l then s.issue.past (s.cur.thread l) else s.cur.thread l
          if s.passing g l then { x with sticky := 0 } else x) ∧
        (∀ r l, r < 64 → l < 32 → t.cur.lane r l =
          if s.passing g l ∧ s.cur.resolve l d = r then BitVec.ofNat 64 (s.cur.thread l).sticky.toNat else s.cur.lane r l) ∧
        (∀ r, r < 64 → (∃ l, l < 32 ∧ s.executing l = true ∧ s.cur.resolve l d = r) → (t.cur.reg r).tag = .general) ∧
        ∀ r, r < 64 → (∀ l, l < 32 → s.executing l = true ∨ s.passing g l = true → s.cur.resolve l d ≠ r) → t.cur.reg r = s.cur.reg r)

end Sys2Proof.Machine

/-- Predicate instructions, tag, iota and stk. Readings and choices of the model it rests on: log 19, 90. -/
def Obligations.PredicatesAndTags : Prop :=
  Machine.Claim.PredicateResults ∧ Machine.Claim.TagIotaSticky

/-! ### Loops, streams and the repeat prefix -/

namespace Sys2Proof.Machine

/-- R214 to R216: `lset` begins a level with its bound, counter 0, and ends every level above it; `loop` on the highest active
level counts, and below its bound sends the group to its target; at the bound it ends the level and moves on. With no active level
`loop` raises cause 0x0B. `kget` reads a counter or a bound. -/
def Claim.LoopUnit : Prop :=
  ∀ (g : Guard) (d a : Reg) (n : BitVec 2) (v : BitVec 16) (bnd : Bool) (off : BitVec 21) (s : State), s.Issuing →
    let set := fun (b : BitVec 32) (i : Nat) =>
      if i = n.toNat then (⟨0, b, true⟩ : LoopLevel)
      else if n.toNat < i then { s.cur.level i with counter := 0, active := false } else s.cur.level i
    let anyone := ∃ l, l < 32 ∧ s.passing g l = true
    (anyone → ∃ t, Machine.exec (.lset g n (.imm v)) s = .next t ∧
      s.Became t { s.moved with levels := [set (v.setWidth 32 + 1) 0, set (v.setWidth 32 + 1) 1, set (v.setWidth 32 + 1) 2,
        set (v.setWidth 32 + 1) 3] }) ∧
    (s.Clear [plain a] [] → ∀ l, l < 32 → s.passing g l = true → (∀ j, j < l → s.passing g j = false) →
      let b := (s.cur.read a l).setWidth 32
      ∃ t, Machine.exec (.lset g n (.reg a)) s = .next t ∧
        s.Became t { s.moved with levels := [set b 0, set b 1, set b 2, set b 3] }) ∧
    (¬ anyone → ∃ t, Machine.exec (.lset g n (.imm v)) s = .next t ∧ s.Became t s.moved) ∧
    (s.inRegion = false → (∀ i, i < 4 → (s.cur.level i).active = false) →
      Machine.exec (.loop off) s = .next (s.takeTrap { kind := 1, cause := 0x0B })) ∧
    (s.inRegion = false → ∀ i, i < 4 → (s.cur.level i).active = true → (∀ j, j < 4 → i < j → (s.cur.level j).active = false) →
      let c := (s.cur.level i).counter + 1
      let again := c < (s.cur.level i).bound
      (again → canonical (s.issue.hdr + 4 * off.signExtend 64) = true →
        ∃ t, Machine.exec (.loop off) s = .next t ∧ s.OnlyCur t ∧
          t.cur = { s.cur with threads := t.cur.threads, levels := t.cur.levels } ∧
          (∀ l, l < 32 → t.cur.thread l =
            if s.executing l then (s.cur.thread l).jump (s.issue.hdr + 4 * off.signExtend 64) else s.cur.thread l) ∧
          ∀ j, j < 4 → t.cur.level j = if j = i then { s.cur.level i with counter := c } else s.cur.level j) ∧
      (again → canonical (s.issue.hdr + 4 * off.signExtend 64) = false →
        Machine.exec (.loop off) s = .next (s.takeTrap { kind := 4, addr := s.issue.hdr + 4 * off.signExtend 64 })) ∧
      (¬ again → ∃ t, Machine.exec (.loop off) s = .next t ∧ s.OnlyCur t ∧
          t.cur = { s.moved with levels := t.cur.levels } ∧
          ∀ j, j < 4 → t.cur.level j =
            if j = i then { s.cur.level i with counter := 0, active := false } else s.cur.level j)) ∧
    (s.Clear [] [d] → ∃ t, Machine.exec (.kget g d n bnd) s = .next t ∧ s.Wrote t
      { pass := s.passing g, dst := some d, tag := .uniform
        val := fun _ => lanesOf s.es.w fun _ =>
          (if bnd then (s.cur.level n.toNat).bound else (s.cur.level n.toNat).counter).toNat % 2 ^ s.es.w })

/-- R217, R218: `asset` writes one field of a stream from an immediate or the lowest passing lane, or resets the stream, and no
field where no lane passes; `asget` reads a field back, sign-extended from 32 bits but for the base and the tag. An immediate tag
above 2, and a field past the last, raise cause 0x0A. -/
def Claim.StreamFields : Prop :=
  ∀ (g : Guard) (d a : Reg) (n : BitVec 4) (fld : BitVec 3) (v : BitVec 12) (s : State), s.Issuing →
    let old := s.cur.streams.getD n.toNat {}
    let new := fun (x : Lane) => match fld.toNat with
      | 0 => { old with base := x }
      | 1 => { old with c0 := x.setWidth 32 }
      | 2 => { old with c1 := x.setWidth 32 }
      | 3 => { old with c2 := x.setWidth 32 }
      | 4 => { old with c3 := x.setWidth 32 }
      | 5 => { old with lane := x.setWidth 32 }
      | 6 => { old with tag := x.setWidth 2 }
      | _ => {}
    let out := match fld.toNat with
      | 0 => old.base.toNat
      | 1 => (old.c0.signExtend 64).toNat
      | 2 => (old.c1.signExtend 64).toNat
      | 3 => (old.c2.signExtend 64).toNat
      | 4 => (old.c3.signExtend 64).toNat
      | 5 => (old.lane.signExtend 64).toNat
      | _ => old.tag.toNat
    let wrote := fun (t : State) (x : Lane) => s.OnlyCur t ∧ t.cur = { s.moved with streams := t.cur.streams } ∧
      ∀ j, j < 16 → t.cur.streams.getD j {} = if j = n.toNat then new x else s.cur.streams.getD j {}
    ((fld = 6 → v.toNat ≤ 2) → (∃ l, l < 32 ∧ s.passing g l = true) →
      ∃ t, Machine.exec (.asset g n fld (.imm v)) s = .next t ∧ wrote t (v.signExtend 64)) ∧
    (fld = 6 → 2 < v.toNat → Machine.exec (.asset g n fld (.imm v)) s = .next (s.takeTrap { kind := 1, cause := 0x0A })) ∧
    (s.Clear (if fld = 7 then [] else [plain a]) [] →
      ∀ l, l < 32 → s.passing g l = true → (∀ j, j < l → s.passing g j = false) →
      ∃ t, Machine.exec (.asset g n fld (.reg a)) s = .next t ∧ wrote t (s.cur.read a l)) ∧
    (s.Clear (if fld = 7 then [] else [plain a]) [] → (∀ l, l < 32 → s.passing g l = false) →
      ∃ t, Machine.exec (.asset g n fld (.reg a)) s = .next t ∧ s.Became t s.moved) ∧
    (fld ≠ 7 → s.Clear [] [d] → ∃ t, Machine.exec (.asget g d n fld) s = .next t ∧ s.Wrote t
      { pass := s.passing g, dst := some d, tag := .uniform, val := fun _ => lanesOf s.es.w fun _ => out % 2 ^ s.es.w }) ∧
    (fld = 7 → Machine.exec (.asget g d n fld) s = .next (s.takeTrap { kind := 1, cause := 0x0A }))

/-- R155, R219, R220: `rep` whose checks pass leaves its group at the next instruction of the clause with a run of as many
repetitions, at 0 or where a suspended repeat goes on; as the last of its clause it raises cause 0x08. -/
def Claim.RepeatBegins : Prop :=
  ∀ (cnt1 : BitVec 6) (step : BitVec 4) (s : State), s.Issuing →
    let i := s.issue
    let ws := wordsAt i.body (bodyIdx i.hdr i.next)
    let resumes := s.cur.susp = true ∧ ∀ l, l < 32 → s.executing l = true → (s.cur.thread l).repMark = true
    let run := fun (idx : Nat) (l : Nat) =>
      if s.executing l then { s.cur.thread l with
        pc := i.next, clause := some ⟨i.hdr, i.word, i.slot + 1, i.serial, i.body⟩, repMark := false
        rep := some ⟨cnt1.toNat + 1, step, idx, i.pc, i.slot⟩ }
      else s.cur.thread l
    (s.ckRep (cnt1.toNat + 1) step ws = none → ¬ resumes →
      ∃ t, Machine.exec (.rep cnt1 step) s = .next t ∧ s.Steered t (run 0)) ∧
    (s.ckRep (cnt1.toNat + 1) step ws = none → resumes →
      ∃ t, Machine.exec (.rep cnt1 step) s = .next t ∧ s.OnlyCur t ∧
        t.cur = { s.cur with threads := t.cur.threads, susp := false, repNext := 0 } ∧
        ∀ l, l < 32 → t.cur.thread l = run s.cur.repNext.toNat l) ∧
    (i.last = true → Machine.exec (.rep cnt1 step) s = .next (s.takeTrap { kind := 1, cause := 0x08 }))

/-- R219: what a group in a run of repetitions issues: the instruction at its place, each register field its step names advanced by
the number of the repetition and no other bit changed (fields that stay in their six bits, as `rep` has checked); past it the group
stands at the same instruction for the next repetition, out of the last one at the instruction after it, or at the header after the
clause. -/
def Claim.Repetitions : Prop :=
  (∀ (s : State) (k : Skein) (p : Pick) (c : Clause) (run : RepRun) (h : Header) (w : Word) (xs : List Word),
    let t := (s.picked k p).thread p.lane
    s.mayIssue k = true → s.pick k = some p → t.clause = some c → t.rep = some run → decodeHeader c.word = some h →
    wordsAt c.body (bodyIdx c.hdr t.pc) = w :: xs →
    let stays := fun (b : Bool) (v : Word) (low : Nat) => b = true → v.toNat / 2 ^ low % 64 + run.idx < 64
    let by' := fun (b : Bool) (low : Nat) => if b then run.idx * 2 ^ low else 0
    stays (run.step.getLsbD 3) w 19 → stays (run.step.getLsbD 2) w 13 → stays (run.step.getLsbD 1) w 7 →
    stays (run.step.getLsbD 0) (xs.headD 0) 26 →
    ∃ i, s.plan k = .go p i ∧ i.pc = t.pc ∧ i.hdr = c.hdr ∧ i.rep = some run ∧ i.words.length = xs.length + 1 ∧
      (i.words.headD 0).toNat = w.toNat + by' (run.step.getLsbD 3) 19 + by' (run.step.getLsbD 2) 13 + by' (run.step.getLsbD 1) 7 ∧
      (∀ x r, xs = x :: r → ∃ y, i.words.drop 1 = y :: r ∧ y.toNat = x.toNat + by' (run.step.getLsbD 0) 26)) ∧
  (∀ (i : Issue) (run : RepRun) (t : Thread), i.rep = some run →
    (run.idx + 1 < run.count → i.past t = { t with
      waiting := none, pc := i.pc, clause := some ⟨i.hdr, i.word, i.slot, i.serial, i.body⟩, rep := some { run with idx := run.idx + 1 } }) ∧
    (run.count ≤ run.idx + 1 → i.past t = { i with rep := none }.past t) ∧
    (run.count ≤ run.idx + 1 → (i.past t).rep = none ∧ (i.past t).pc = if i.last then i.follow else i.next))

end Sys2Proof.Machine

/-- Loop levels, address streams and rep. Readings and choices of the model it rests on: log 20, 22. -/
def Obligations.LoopsAndStreams : Prop :=
  Machine.Claim.LoopUnit ∧ Machine.Claim.StreamFields ∧ Machine.Claim.RepeatBegins ∧ Machine.Claim.Repetitions

/-! ### Control -/

namespace Sys2Proof.Machine

/-- The transfers of R224 to R227: guard, source, whether the link register is set, and the target in a lane. -/
def transferRow (s : State) : Instr → Option (Guard × List SrcReg × Bool × (Nat → Lane))
  | .br g off => some (g, [], false, fun _ => s.issue.hdr + 4 * off.signExtend 64)
  | .call g off => some (g, [], true, fun _ => s.issue.hdr + 4 * off.signExtend 64)
  | .ret g => some (g, [], false, fun l => (s.cur.thread l).link)
  | .jmp g a => some (g, [plain a], false, s.cur.read a)
  | .jmpL g a => some (g, [plain a], true, s.cur.read a)
  | _ => none

/-- R222: the threads of a transfer: those that pass stand at their target, at a clause header, the link register holding the
header after the clause where it is set; the others have fallen through. -/
def State.transferred (s : State) (g : Guard) (link : Bool) (tgt : Nat → Lane) (l : Nat) : Thread :=
  let t := s.cur.thread l
  if s.executing l then
    if s.passing g l then
      { t with pc := tgt l, link := if link then s.issue.follow else t.link
               clause := none, rep := none, repMark := false, waiting := none }
    else s.issue.past t
  else t

/-- R221 to R227: a transfer that is last in its clause and outside melded regions moves the passing threads to their targets; the
first target of a passing thread that is not a multiple of 4 raises kind 5, the first not canonical kind 4, with that address. Not
last raises cause 0x08, inside a region cause 0x09. A branch of offset 0 targets its own header, and `?0 br` 16 words on is
0xA1000010 (R224). -/
def Claim.Transfers : Prop :=
  encode (.br (.pos 0) 16) = [0xA1000010] ∧ Word.opcode 0xA1000010 = 0x50 ∧
  (∀ (s : State) (g : Guard), transferRow s (.br g 0) = some (g, [], false, fun _ => s.issue.hdr)) ∧
  ∀ (i : Instr) (g : Guard) (srcs : List SrcReg) (link : Bool) (tgt : Nat → Lane) (s : State),
    transferRow s i = some (g, srcs, link, tgt) → s.Issuing →
    let aligned := fun l => s.passing g l = true → (tgt l).toNat % 4 = 0
    let canon := fun l => s.passing g l = true → canonical (tgt l) = true
    (s.issue.last = false → Machine.exec i s = .next (s.takeTrap { kind := 1, cause := 0x08 })) ∧
    (s.issue.last = true → s.inRegion = true → Machine.exec i s = .next (s.takeTrap { kind := 1, cause := 0x09 })) ∧
    (s.issue.last = true → s.inRegion = false → s.Clear srcs [] →
      ((∀ l, l < 32 → aligned l ∧ canon l) →
        ∃ t, Machine.exec i s = .next t ∧ s.Steered t (s.transferred g link tgt)) ∧
      (∀ l, l < 32 → ¬ aligned l → (∀ j, j < l → aligned j) →
        Machine.exec i s = .next (s.takeTrap { kind := 5, addr := tgt l })) ∧
      (∀ l, l < 32 → (∀ j, j < 32 → aligned j) → ¬ canon l → (∀ j, j < l → canon j) →
        Machine.exec i s = .next (s.takeTrap { kind := 4, addr := tgt l })))

/-- R228: `jmpf` on a handle of timeline 5 whose operation completed drops the core's copies of the fetched lines and transfers; one
that is pending or failed raises kind 9 with its status, and an empty handle or one of another timeline cause 0x0B. -/
def Claim.FencedJump : Prop :=
  ∀ (g : Guard) (a : Reg) (link : Bool) (n : BitVec 3) (s : State), s.Issuing → s.issue.last = true → s.inRegion = false →
    s.Clear [plain a] [] → (∃ l, l < 32 ∧ s.passing g l = true) →
    let h := s.cur.hd.getD n.toNat 0
    let status := (h.toNat / 2 ^ 48 % 256)
    let tl := h.toNat / 2 ^ 56 % 8
    let pending := 2 ^ 63 ≤ h.toNat
    (tl = 5 → ¬ pending → status = 0 →
      (∀ l, l < 32 → s.passing g l = true → (s.cur.read a l).toNat % 4 = 0 ∧ canonical (s.cur.read a l) = true) →
      ∃ t, Machine.exec (.jmpf g a link n) s = .next t ∧
        { s with ilines := t.ilines }.Steered t (s.transferred g link (s.cur.read a)) ∧
        ∀ x, x ∈ t.ilines ↔ x ∈ s.ilines ∧ ∀ o, s.hdOpOf s.cur n.toNat = some o →
          ¬ (x.core = s.cur.core ∧ x.ctx = s.cur.ctx ∧ o.first ≤ x.line ∧ x.line < o.first + o.count)) ∧
    (tl = 5 → (pending ∨ (status ≠ 0 ∧ status ≠ 0xFF)) →
      Machine.exec (.jmpf g a link n) s = .next
        (s.takeTrap { kind := 9, aux := BitVec.ofNat 64 status, code := BitVec.ofNat 8 status })) ∧
    ((¬ pending ∧ status = 0xFF) ∨ tl ≠ 5 →
      Machine.exec (.jmpf g a link n) s = .next (s.takeTrap { kind := 1, cause := 0x0B }))

end Sys2Proof.Machine

/-- Transfers move the passing threads to their targets or trap; the fenced jump. Readings and choices of the model it rests on: log 37. -/
def Obligations.TransfersOfControl : Prop :=
  Machine.Claim.Transfers ∧ Machine.Claim.FencedJump

namespace Sys2Proof.Machine

/-- R229, R40: `exit` retires the passing threads and no others, and no byte of memory changes; registers stand where no `shrink` and
no synchronising instruction of the skein waits on the threads that leave (R37, R56). A handler whose trapped threads have all
exited ends (R351). The exit of the last live threads waits for the skein's unacknowledged stores, and raises the remote fault of a
queued record (R113); the last acknowledgement retires the threads that wait. Not last in its clause it raises cause 0x08, inside a
region cause 0x09. -/
def Claim.ExitRetires : Prop :=
  (∀ (g : Guard) (s : State), s.Issuing →
    let all := (∃ l, l < 32 ∧ s.passing g l = true) ∧ ∀ l, l < 32 → (s.cur.thread l).exited = false → s.passing g l = true
    (s.issue.last = false → Machine.exec (.exit g) s = .next (s.takeTrap { kind := 1, cause := 0x08 })) ∧
    (s.issue.last = true → s.inRegion = true → Machine.exec (.exit g) s = .next (s.takeTrap { kind := 1, cause := 0x09 })) ∧
    (s.issue.last = true → s.inRegion = false → ¬ (all ∧ (s.cur.unacked ≠ 0 ∨ s.cur.faultQ ≠ [])) →
      ∃ t, Machine.exec (.exit g) s = .next t ∧
        (∀ l, l < 32 → (t.cur.thread l).exited = if s.passing g l then true else (s.cur.thread l).exited) ∧
        (∀ h, s.cur.handler = some h →
          (∀ l, l < 32 → h.lanes.getLsbD l = true → (s.cur.thread l).exited = true ∨ s.passing g l = true) → t.cur.handler = none) ∧
        ((∀ w ∈ s.cur.waits, w.kind ≠ .shrink ∧ ∀ m, w.kind ≠ .sync m) →
          t.cur.regCount = s.cur.regCount ∧ ∀ r l, r < 64 → l < 32 → t.cur.lane r l = s.cur.lane r l) ∧
        t.mem = s.mem ∧ t.now = s.now) ∧
    (s.issue.last = true → s.inRegion = false → all → s.cur.faultQ = [] → s.cur.unacked ≠ 0 →
      ∃ t, Machine.exec (.exit g) s = .next { t with issue := s.issue } ∧
        { s with issue := { s.issue with mask := laneMask (s.passing g) } }.Waits t .exit (.exit g)) ∧
    (∀ f q, s.issue.last = true → s.inRegion = false → all → s.cur.faultQ = f :: q →
      Machine.exec (.exit g) s = .next (s.takeTrap
        { kind := 0x10, addr := f.addr, aux := f.pc, code := f.code, left := q.length + s.cur.faultHeld.length
          lanes := some (laneMask fun l => l == f.lane), pop := true, clear := f.op }))) ∧
  (∀ (n : Nat) (wct : Lane) (a : Access) (k : Skein) (w : Wait) (s : State), s.accesses.find? (fun x => x.id == n && x.posted && x.out) = some a →
    a.sample = none → s.sk? a.sk = some k → k.unacked ≤ 1 → k.faultQ = [] → k.waits = [w] → w.kind = .exit →
    ∃ t, Machine.exec (.remoteAcknowledgement n wct) s = .next t ∧ (t.sk a.sk).unacked = 0 ∧ (t.sk a.sk).waits = [] ∧
      (∀ l, l < 32 → ((t.sk a.sk).thread l).exited = ((k.thread l).exited || (k.thread l).waiting == some w.id)) ∧ t.mem = s.mem)

/-- R230: `yield` marks the threads of its group as yielded and moves on; R28 then prefers other groups. -/
def Claim.YieldMarks : Prop :=
  ∀ (s : State), s.Issuing →
    ∃ t, Machine.exec .yield s = .next t ∧ s.Steered t fun l =>
      if s.executing l then s.issue.past { s.cur.thread l with yielded := true } else s.cur.thread l

/-- R48 to R53, R231 to R233: `meld` puts each thread of its group on the path its predicates choose, and needs 64 registers, no
guard and no region; `mend` takes them off it, and raises cause 0x09 outside a region, cause 0x0B with a guard; `ldpm` replaces one path map by the
lowest passing lane's value, and raises cause 0x0A where its top 16 bits are not zero. -/
def Claim.MeldedRegions : Prop :=
  ∀ (g : Guard) (p4 : Bool) (da db : BitVec 3) (n : BitVec 2) (a : Reg) (s : State), s.Issuing →
    let path := fun (t : Thread) =>
      (if t.pred.getLsbD da.toNat then (0 : BitVec 2) else 1) + if p4 && !t.pred.getLsbD db.toNat then 2 else 0
    (s.inRegion = false → s.cur.regCount = 64 →
      ∃ t, Machine.exec (.meld .always p4 db da) s = .next t ∧ s.Steered t fun l =>
        if s.executing l then s.issue.past { s.cur.thread l with region := some (path (s.cur.thread l)) } else s.cur.thread l) ∧
    (s.inRegion = true → Machine.exec (.meld g p4 db da) s = .next (s.takeTrap { kind := 1, cause := 0x09 })) ∧
    (s.inRegion = false → (g ≠ .always ∨ s.cur.regCount < 64) →
      Machine.exec (.meld g p4 db da) s = .next (s.takeTrap { kind := 1, cause := 0x0B })) ∧
    ((∀ l, l < 32 → s.executing l = true → (s.cur.thread l).region ≠ none) →
      ∃ t, Machine.exec (.mend .always) s = .next t ∧ s.Steered t fun l =>
        if s.executing l then s.issue.past { s.cur.thread l with region := none } else s.cur.thread l) ∧
    ((∃ l, l < 32 ∧ s.executing l = true ∧ (s.cur.thread l).region = none) →
      Machine.exec (.mend g) s = .next (s.takeTrap { kind := 1, cause := 0x09 })) ∧
    ((∀ l, l < 32 → s.executing l = true → (s.cur.thread l).region ≠ none) → g ≠ .always →
      Machine.exec (.mend g) s = .next (s.takeTrap { kind := 1, cause := 0x0B })) ∧
    (s.inRegion = false → s.Clear [plain a] [] → ∀ l, l < 32 → s.passing g l = true → (∀ j, j < l → s.passing g j = false) →
      ((s.cur.read a l).toNat < 2 ^ 48 → ∃ t, Machine.exec (.ldpm g n a) s = .next t ∧ s.OnlyCur t ∧
        t.cur = { s.moved with pm := t.cur.pm } ∧
        ∀ j, j < 4 → t.cur.pm.getD j 0 = if j = n.toNat then s.cur.read a l else s.cur.pm.getD j 0) ∧
      (2 ^ 48 ≤ (s.cur.read a l).toNat →
        Machine.exec (.ldpm g n a) s = .next (s.takeTrap { kind := 1, cause := 0x0A })))

/-- R234, R235, R400: with trace kind 0x31 off and no stop armed for the identifier, `enter` pushes it on the skein's profiling regions
and `leave` pops the last; the seventeenth `enter`, and `leave` without a region, raise cause 0x0B. An armed identifier, what was
written before the present tick counting, raises the debug stop of kind 0x0E once the edge has taken effect. -/
def Claim.ProfilingRegions : Prop :=
  ∀ (na : Bool) (id : BitVec 16) (s : State), s.Issuing →
    let d := (s.ctx s.cur.ctx).dbg
    let en := if d.stopsAt < s.now then d.stopEn else d.stopsWere.1
    let ids := if d.stopsAt < s.now then d.stopId else d.stopsWere.2
    let armed := ∃ i, i < 4 ∧ en.getLsbD i = true ∧ ids.toNat / 2 ^ (16 * i) % 2 ^ 16 = id.toNat
    (s.cur.regions.length < 16 → d.tren.getLsbD 0 = false → ¬ armed →
      ∃ t, Machine.exec (.enter na id) s = .next t ∧ s.Became t { s.moved with regions := s.cur.regions ++ [⟨id, na⟩] }) ∧
    (s.cur.regions.length < 16 → d.tren.getLsbD 0 = false → armed →
      ∃ t, Machine.exec (.enter na id) s = .next t ∧
        t = (s.updCur fun k => { k with regions := k.regions ++ [⟨id, na⟩] }).takeTrap { kind := 0x0E, aux := id.setWidth 64, res := 1 }) ∧
    (16 ≤ s.cur.regions.length → Machine.exec (.enter na id) s = .next (s.takeTrap { kind := 1, cause := 0x0B })) ∧
    (∀ r e, s.cur.regions = r ++ [e] → d.tren.getLsbD 0 = false →
      (∀ i, i < 4 → en.getLsbD i = true → ids.toNat / 2 ^ (16 * i) % 2 ^ 16 ≠ e.id.toNat) →
      ∃ t, Machine.exec .leave s = .next t ∧ s.Became t { s.moved with regions := r }) ∧
    (s.cur.regions = [] → Machine.exec .leave s = .next (s.takeTrap { kind := 1, cause := 0x0B }))

end Sys2Proof.Machine

/-- Melded regions open and close; profiling regions push and pop. -/
def Obligations.Regions : Prop :=
  Machine.Claim.MeldedRegions ∧ Machine.Claim.ProfilingRegions

namespace Sys2Proof.Machine

/-- R236: `trap` and `brk` raise kinds 0x0C and 0x0D for their group when a thread passes the guard, to resume after the clause;
with none they move on; not last in their clause they raise cause 0x08. -/
def Claim.DeliberateTraps : Prop :=
  ∀ (g : Guard) (code : BitVec 16) (s : State), s.Issuing →
    let lanes := laneMask (s.passing g)
    let anyone := ∃ l, l < 32 ∧ s.passing g l = true
    (s.issue.last = true → anyone →
      Machine.exec (.trap g code) s = .next (s.takeTrap { kind := 0x0C, aux := code.setWidth 64, res := 2, lanes := some lanes }) ∧
      Machine.exec (.brk g) s = .next (s.takeTrap { kind := 0x0D, aux := 0, res := 2, lanes := some lanes })) ∧
    (s.issue.last = true → ¬ anyone → ∃ t, Machine.exec (.trap g code) s = .next t ∧ Machine.exec (.brk g) s = .next t ∧
      s.Became t s.moved) ∧
    (s.issue.last = false →
      Machine.exec (.trap g code) s = .next (s.takeTrap { kind := 1, cause := 0x08 }) ∧
      Machine.exec (.brk g) s = .next (s.takeTrap { kind := 1, cause := 0x08 }))

/-- R237: `sleep` for a count of ticks above 0, immediate or the lowest executing lane's, leaves its group waiting until domain time at the core's cluster has reached the
tick at which it issued plus that count; SLEEP_WAKE then moves it on, and not before. A count of 0 only moves on. -/
def Claim.SleepAndWake : Prop :=
  (∀ (v : BitVec 16) (s : State), s.Issuing →
    ∃ t, Machine.exec (.sleep (.imm v)) s = .next t ∧
      s.Waits t (.sleep (s.nowAt (clusterOf s.cur.core) + (v.toNat + 1))) (.sleep (.imm v))) ∧
  (∀ (a : Reg) (s : State), s.Issuing → s.Clear [plain a] [] →
    ∀ l, l < 32 → s.executing l = true → (∀ j, j < l → s.executing j = false) → (s.cur.read a l).toNat % 2 ^ 32 = 0 →
    ∃ t, Machine.exec (.sleep (.reg a)) s = .next t ∧ s.Became t s.moved) ∧
  (∀ (a : Reg) (s : State), s.Issuing → s.Clear [plain a] [] →
    ∀ l, l < 32 → s.executing l = true → (∀ j, j < l → s.executing j = false) → (s.cur.read a l).toNat % 2 ^ 32 ≠ 0 →
    ∃ t, Machine.exec (.sleep (.reg a)) s = .next t ∧
      s.Waits t (.sleep (s.nowAt (clusterOf s.cur.core) + (s.cur.read a l).toNat % 2 ^ 32)) (.sleep (.reg a))) ∧
  (∀ (u n wake : Nat) (k : Skein) (w : Wait) (s : State), s.sk? u = some k → k.wait? n = some w → w.kind = .sleep wake → w.id = n →
    (wake ≤ s.nowAt (clusterOf k.core) →
      ∃ t, Machine.exec (.sleepWake u n) s = .next t ∧ s.SkBecame t u { k.endWait w with idle := 0, idleAt := s.now }) ∧
    (s.nowAt (clusterOf k.core) < wake → Machine.exec (.sleepWake u n) s = .next s))

end Sys2Proof.Machine

/-- exit retires, yield marks, sleep waits and wakes. -/
def Obligations.ExitYieldSleep : Prop :=
  Machine.Claim.ExitRetires ∧ Machine.Claim.YieldMarks ∧ Machine.Claim.SleepAndWake

namespace Sys2Proof.Machine

/-- R238: `ipref` moves its group on whatever its address translates to; no register, no memory and no thread outside the group
changes, and it never traps. -/
def Claim.PrefetchNeverTraps : Prop :=
  ∀ (off : BitVec 21) (s : State), s.Issuing →
    ∃ t, Machine.exec (.ipref off) s = .next t ∧ t.mem = s.mem ∧ t.cur = s.moved ∧
      ∀ u, u ≠ s.issue.sk → t.sk? u = s.sk? u

end Sys2Proof.Machine

/-- trap and brk enter the handler; ipref never traps. -/
def Obligations.TrapsAndPrefetch : Prop :=
  Machine.Claim.DeliberateTraps ∧ Machine.Claim.PrefetchNeverTraps

/-! ### Memory instructions -/

namespace Sys2Proof.Machine

/-- A lane-wise access as R239 to R248 describe it, from the width code, the space and the extension word of the instruction. -/
def loadReq (i : Instr) (g : Guard) (d : Reg) (m : MemOp) (w : BitVec 2) (sp : Nat) (e : MemExt) : MemReq :=
  { instr := i, g := g, m := m, n := 2 ^ w.toNat, acc := 0, r := true, w := false, tags := [sp], dsts := [d], range := ckExt true e
    kind := if sp = 2 then .seepLoad e.sx else .load e.sx, order := e.order, scope := e.scope.toNat, hint := e.hint }

/-- The same for a store. -/
def storeReq (i : Instr) (g : Guard) (d : Reg) (m : MemOp) (w : BitVec 2) (sp : Nat) (e : MemExt) : MemReq :=
  { instr := i, g := g, m := m, n := 2 ^ w.toNat, acc := 1, r := false, w := true, tags := [sp], srcs := [d], range := ckExt false e
    kind := if sp = 2 then .seepStore else .store, order := e.order, scope := e.scope.toNat, hint := e.hint, data := some d }

/-- R239 to R248: the access each lane-wise memory instruction makes: space 0 memory, 1 scratch, 2 seep; access kind 0 read, 1
write, 2 both; its width in bytes, the registers it reads and writes, and its order, scope and hint. -/
def memRow : Instr → Option MemReq
  | .ld g d m w => some (loadReq (.ld g d m w) g d m w 0 ⟨true, 0, 0, 0, false⟩)
  | .ldExt g d m w e => some (loadReq (.ldExt g d m w e) g d m w 0 e)
  | .ldsc g d m w => some (loadReq (.ldsc g d m w) g d m w 1 ⟨true, 0, 0, 0, false⟩)
  | .ldscExt g d m w e => some (loadReq (.ldscExt g d m w e) g d m w 1 e)
  | .sld g d m w => some (loadReq (.sld g d m w) g d m w 2 ⟨true, 0, 0, 0, false⟩)
  | .sldExt g d m w e => some (loadReq (.sldExt g d m w e) g d m w 2 e)
  | .st g d m w => some (storeReq (.st g d m w) g d m w 0 ⟨true, 0, 0, 0, false⟩)
  | .stExt g d m w e => some (storeReq (.stExt g d m w e) g d m w 0 e)
  | .stsc g d m w => some (storeReq (.stsc g d m w) g d m w 1 ⟨true, 0, 0, 0, false⟩)
  | .stscExt g d m w e => some (storeReq (.stscExt g d m w e) g d m w 1 e)
  | .sst g d m w => some (storeReq (.sst g d m w) g d m w 2 ⟨true, 0, 0, 0, false⟩)
  | .sstExt g d m w e => some (storeReq (.sstExt g d m w e) g d m w 2 e)
  | .srenew g d m => some { instr := .srenew g d m, g := g, m := m, n := 1, align := false, acc := 0, r := true, w := false, tags := [2]
                            dsts := [d], kind := .renew }
  | .slife g d m => some { instr := .slife g d m, g := g, m := m, n := 1, align := false, acc := 0, r := true, w := false, tags := [2]
                           dsts := [d], kind := .life }
  | .amo g op d m size order c scope hint => some
      { instr := .amo g op d m size order c scope hint, g := g, m := m, n := if size = 3 then 8 else 4, acc := 2, r := true, w := true
        tags := [0, 1], srcs := if op = .cas then [d, c] else [d], dsts := [d]
        range := illIf ((size != 2 && size != 3) || decide (4 < scope.toNat) || hint == 3) .range
        kind := .atomic op, order := order, scope := scope.toNat, hint := hint, data := some d
        cmp := if op = .cas then some c else none }
  | _ => none

/-- The address of a lane: the stream's base and lane stride with the offset of R239. -/
def State.laneAddr (s : State) (q : MemReq) (l : Nat) : Lane := s.cur.addr q.m.stream.toNat q.m.off l

/-- R61: bytes a to a + n lie in the space a stream's tag names. -/
def State.inSpace (s : State) (tag n : Nat) (a : Lane) : Prop :=
  match tag with
  | 0 => canonical a = true
  | 1 => a.toNat + n ≤ (s.team s.cur.team).scratchBytes
  | _ => a.toNat + n ≤ s.seepLim

/-- R240, R241, R245: what a memory instruction needs of its operands, before any page is looked up. -/
structure State.MemClear (s : State) (q : MemReq) : Prop where
  fields  : q.range = none
  space   : s.memTag q ∈ q.tags
  clear   : s.Clear ((offRegs q.m.off) ++ q.srcs.map plain) q.dsts
  inside  : ∀ l, l < 32 → s.passing q.g l = true → s.inSpace (s.memTag q) q.n (s.laneAddr q l)
  aligned : q.align = true → ∀ l, l < 32 → s.passing q.g l = true → (s.laneAddr q l).toNat % q.n = 0

/-- R102, R111, R113, R143, R357: nothing holds it at issue: no release still to meet, fewer than 16 loads outstanding, room on
the flags, and room for its posted stores. -/
structure State.MemRoom (s : State) (q : MemReq) (xs : List (Place × LaneAcc)) : Prop where
  release : xs ≠ [] → q.order.getLsbD 1 = true → s.fenceMet s.cur q.scope = true ∧ (3 ≤ q.scope → s.cur.faultQ = [])
  loads   : q.kind.reads = true → s.cur.loads < 16
  flags   : s.Room (decide (xs ≠ []) && !q.dsts.isEmpty) (decide (xs ≠ []) && q.data.isSome)

/-- The access that one request of a memory instruction is. -/
def State.accessOf (s : State) (q : MemReq) (op : Option Nat) (u : Place × List LaneAcc) (id : Nat) : Access :=
  { id := id, seq := id, sk := s.cur.uid, op := op, grid := (s.team s.cur.team).grid, ctx := s.cur.ctx
    owner := (s.ctx s.cur.ctx).part, core := s.cur.core, kind := q.kind
    place := u.1, width := q.n, lanes := u.2, pc := s.issue.pc, instr := q.instr, order := q.order, scope := q.scope, hint := q.hint
    sent := s.now }

/-- Looking up the places of lanes leaves the machine as it is, but for the translations it caches (R362). -/
def Claim.PlacesFrame : Prop :=
  ∀ (q : MemReq) (tag : Nat) (ls : List (Nat × Lane)) (s u : State) (r : Formed), s.formAll q tag ls = (u, r) → u = { s with tlb := u.tlb }

/-- R239 to R248, R143, R308, with sampling off: a memory instruction whose operands are clear and whose lanes have places on this
device (`formAll`, which caches translations and changes nothing else) begins one long operation, one request for each line or tile in
lane order, and moves on, its retries counted no longer (R403); with no passing lane it only moves on. No register and no byte of
memory changes yet. -/
def Claim.MemoryRequests : Prop :=
  ∀ (i : Instr) (q : MemReq) (s u : State) (xs : List (Place × LaneAcc)), memRow i = some q → s.Issuing →
    (s.ctx s.cur.ctx).dbg.k = 0 → s.MemClear q → s.formAll q (s.memTag q) (s.memLanes q) = (u, .ok xs) → u.MemRoom q xs →
    u.mem = s.mem ∧ u.skeins = s.skeins ∧
    (xs = [] → ∃ t, Machine.exec i s = .next t ∧ u.issued.Wrote t { pass := fun _ => false, dst := q.dsts.head? }) ∧
    (xs ≠ [] → (∀ x ∈ xs, x.1.isPeer = false) →
      let units := groupUnits xs
      let reads := !q.dsts.isEmpty
      ∃ t o, Machine.exec i s = .next t ∧
        t = { u with skeins := t.skeins, idCtr := u.idCtr + 1 + units.length, accesses := t.accesses, copies := t.copies } ∧
        (∀ v, v ≠ s.issue.sk → t.sk? v = s.sk? v) ∧
        t.cur = { u.issued.moved with ops := s.cur.ops ++ [o], flags := t.cur.flags } ∧
        (∀ f, f < 12 → t.cur.flags.getD f 0 = s.cur.flags.getD f 0 +
          (if reads = true ∧ s.header.setA.map (·.toNat) = some f then 1 else 0) +
          (if q.data.isSome = true ∧ s.header.setB.map (·.toNat) = some f then 1 else 0)) ∧
        o.id = u.idCtr ∧ (∀ r, r ∈ o.pend ↔ ∃ d ∈ q.dsts, ∃ l, l < 32 ∧ s.passing q.g l = true ∧ s.cur.resolve l d = r) ∧
        (∀ r, r ∈ o.held ↔ ∃ d ∈ q.data.toList ++ q.cmp.toList, ∃ l, l < 32 ∧ s.passing q.g l = true ∧ s.cur.resolve l d = r) ∧
        o.await = (if reads then units.length else 0) ∧ o.writes = [] ∧
        t.accesses = u.accesses ++ units.zipIdx.map fun x =>
          s.accessOf q (if reads then some u.idCtr else none) x.1 (u.idCtr + 1 + x.2))

/-- R239, R245: the places of a memory instruction. In scratch a lane's place is its address from the base of the team's scratch;
in seep its address in the grid's instance; in memory, with the page cached and allowing the access, the page's physical address
plus the offset, on this device or at the peer the entry names. -/
def Claim.MemoryPlaces : Prop :=
  ∀ (i : Instr) (q : MemReq) (s : State), memRow i = some q → s.MemClear q →
    let lanes := (List.range 32).filter (s.passing q.g)
    let data := fun l => (q.data.map fun f => s.cur.read f l).getD 0
    let cmp := fun l => (q.cmp.map fun f => s.cur.read f l).getD 0
    let reg := fun l => (q.dsts.head?.map fun f => s.cur.resolve l f).getD 0
    let acc := fun l addr => (⟨l, s.laneAddr q l, addr, data l, cmp l, reg l⟩ : LaneAcc)
    (s.memTag q = 1 → s.formAll q 1 (s.memLanes q) = (s, .ok (lanes.map fun l =>
      let b := (s.team s.cur.team).scratchBase
      (.scratch b, acc l (b + (s.laneAddr q l).toNat))))) ∧
    (s.memTag q = 2 → s.formAll q 2 (s.memLanes q) = (s, .ok (lanes.map fun l =>
      (.seep s.seepOf, acc l (s.laneAddr q l).toNat)))) ∧
    (s.memTag q = 0 → ∀ page : Nat → TlbEntry,
      (∀ l ∈ lanes, s.tlbHit s.cur.ctx (va57 (s.laneAddr q l)) = some (page l) ∧
        (q.r = true → (page l).perm.getLsbD 0 = true) ∧ (q.w = true → (page l).perm.getLsbD 1 = true) ∧
        ((page l).kind = 2 → s.peerRefused (s.ctx s.cur.ctx).part (page l).dev = false)) →
      s.formAll q 0 (s.memLanes q) = (s, .ok (lanes.map fun l =>
        let pa := (page l).base + (va57 (s.laneAddr q l) - (page l).page)
        if (page l).kind = 2 then (.peer (page l).dev, acc l pa)
        else (.global, acc l (if (page l).kind = 1 then hostKey pa else pa)))))

end Sys2Proof.Machine

/-- A memory instruction with its lanes in place counts and sends its accesses; the places of its lanes. Readings and choices of the model it rests on: log 16, 19. -/
def Obligations.MemoryRequests : Prop :=
  Machine.Claim.PlacesFrame ∧ Machine.Claim.MemoryRequests ∧ Machine.Claim.MemoryPlaces

namespace Sys2Proof.Machine

/-- R61, R240, R245, with sampling off: what stops a memory instruction: a stream whose tag names another space, cause 0x0B; then the
first passing lane outside its space, kind 4 with its address in memory, with the address of the first byte past the limit in
scratch, kind 6 in seep; then the first passing lane not a multiple of the width, kind 5. -/
def Claim.MemoryTraps : Prop :=
  ∀ (i : Instr) (q : MemReq) (s : State), memRow i = some q → s.Issuing → (s.ctx s.cur.ctx).dbg.k = 0 → q.range = none →
    (s.memTag q ∉ q.tags → (∀ f ∈ ((offRegs q.m.off).map (·.1)) ++ q.srcs ++ q.dsts, f.toNat < s.cur.regCount) →
      Machine.exec i s = .next (s.takeTrap { kind := 1, cause := 0x0B })) ∧
    (s.memTag q ∈ q.tags → s.Clear ((offRegs q.m.off) ++ q.srcs.map plain) q.dsts →
      ∀ l, l < 32 → s.passing q.g l = true →
      let a := s.laneAddr q l
      ((∀ j, j < l → s.passing q.g j = true → s.inSpace (s.memTag q) q.n (s.laneAddr q j)) →
        (s.memTag q = 0 → canonical a = false →
          Machine.exec i s = .next (s.takeTrap { kind := 4, addr := a, aux := u64 q.acc })) ∧
        (s.memTag q = 1 → (s.team s.cur.team).scratchBytes < a.toNat + q.n →
          Machine.exec i s = .next (s.takeTrap
            { kind := 4, addr := u64 (max a.toNat (s.team s.cur.team).scratchBytes), aux := u64 q.acc })) ∧
        (s.memTag q = 2 → s.seepLim < a.toNat + q.n →
          Machine.exec i s = .next (s.takeTrap { kind := 6, addr := u64 (max a.toNat s.seepLim) }))) ∧
      ((∀ j, j < 32 → s.passing q.g j = true → s.inSpace (s.memTag q) q.n (s.laneAddr q j)) → q.align = true →
        a.toNat % q.n ≠ 0 → (∀ j, j < l → s.passing q.g j = true → (s.laneAddr q j).toNat % q.n = 0) →
        Machine.exec i s = .next (s.takeTrap { kind := 5, addr := a, aux := u64 q.acc })))

/-- R345, R361 to R363, with sampling off: a lane whose page forbids the access raises kind 4, as `formAll` finds it; one whose page
has no valid entry holds the instruction: the context's fault list takes the next sequence number with the lane's address, the driver is
told by a record of kind 0x28 that names the context, the access, the address and that number, and by the context's vector, and the
group waits for its answer. -/
def Claim.TranslationStops : Prop :=
  ∀ (i : Instr) (q : MemReq) (s u : State), memRow i = some q → s.Issuing → (s.ctx s.cur.ctx).dbg.k = 0 → s.MemClear q →
    (∀ t, s.formAll q (s.memTag q) (s.memLanes q) = (u, .trap t) →
      t.kind = 4 ∧ t.aux = u64 q.acc ∧ Machine.exec i s = .next (u.takeTrap t)) ∧
    (∀ a bad, s.formAll q (s.memTag q) (s.memLanes q) = (u, .miss a bad) →
      let c := s.cur.ctx
      let seq := (s.ctx c).faultSeq + 1
      let fault : HeldFault := { seq := seq, kind := BitVec.ofNat 8 q.acc, addr := a, bad := bad, sk := some s.cur.uid }
      let message := u.record32 0x28 (toBytes 2 c ++ [BitVec.ofNat 8 q.acc, if bad then 1 else 0] ++ toBytes 8 a.toNat ++ toBytes 4 seq)
      let told := ((u.updCtx c fun x => { x with faultSeq := seq, faults := x.faults ++ [fault] }).event c message).signalCtx c
      ∃ t, Machine.exec i s = .next t ∧
        (∃ w, t.cur.waits = s.cur.waits ++ [w] ∧ w.instr = i ∧ w.lanes = s.issue.mask ∧ w.kind = .replay seq) ∧
        (∀ l, l < 32 → s.executing l = true → (t.cur.thread l).waiting ≠ none) ∧
        (t.ctx c).faultSeq = seq ∧ (t.ctx c).faults = (s.ctx c).faults ++ [fault] ∧
        t.mem = told.mem ∧ t.ctx c = told.ctx c ∧ t.msixLog = told.msixLog)

end Sys2Proof.Machine

/-- Where loads, stores and atomics trap, and where a translation stops them. Readings and choices of the model it rests on: log 68, 90. -/
def Obligations.MemoryAccessTraps : Prop :=
  Machine.Claim.MemoryTraps ∧ Machine.Claim.TranslationStops

/-! ### Performing and landing -/

namespace Sys2Proof.Machine

/-- The oldest access of a name that may be performed now. -/
def State.Due (s : State) (a : Access) : Prop :=
  s.accesses.find? (fun x => x.id == a.id && s.performable x) = some a ∧ a.sample = none

/-- R308: what a returned access leaves in its skein: the operation it belongs to awaits one request less and holds the values and
the predicates it brought. -/
def Skein.handed (k : Skein) (a : Access) (ws : List LaneWrite) (ps : List (Nat × Bool)) : Skein :=
  { k with ops := k.ops.map fun o =>
      if a.op = some o.id then
        { o with await := o.await - 1, writes := o.writes ++ ws, pushes := o.pushes ++ ps }
      else o }

/-- A returned access: off the list, its values with its skein, every other skein as it was. -/
def State.Returned (s t : State) (a : Access) (k : Skein) (ws : List LaneWrite) (ps : List (Nat × Bool)) : Prop :=
  t.accesses = s.accesses.filter (fun x => x.id != a.id) ∧ t.sk? a.sk = some (k.handed a ws ps) ∧
    ∀ u, u ≠ a.sk → t.sk? u = s.sk? u

/-- R243: the value of a load from its bytes, zero- or sign-extended. -/
def extended (sx : Bool) (bs : List Byte) : Lane :=
  if sx then BitVec.ofInt 64 (sgn (8 * bs.length) (ofBytes bs)) else BitVec.ofNat 64 (ofBytes bs)

/-- R61, R95, R243, R395: ACCESS_PERFORM of a load in scratch: each lane receives the bytes at its address, poisoned where they are;
nothing else changes. -/
def Claim.ScratchLoadPerforms : Prop :=
  ∀ (a : Access) (b : Nat) (sx : Bool) (k : Skein) (s : State), s.Due a → a.place = .scratch b → a.kind = .load sx → a.order = 0 →
    s.sk? a.sk = some k → k.waits = [] →
    ∃ t, Machine.exec (.accessPerform a.id) s = .next t ∧ t = { s with skeins := t.skeins, accesses := t.accesses } ∧
      s.Returned t a k
        (a.lanes.map fun x => ⟨x.reg, x.lane, extended sx (s.mem.readN (scratchKey a.core x.addr) a.width),
          s.poisonAt (scratchKey a.core x.addr) a.width⟩) []

/-- R68, R96, R97, R243: ACCESS_PERFORM of an ordinary load of one memory line: served by a usable copy of the core, filled since the
skein's last acquire and its last access past the copy, else, with no copy of
the die usable either, at its home. No byte of memory changes. -/
def Claim.MemoryLoadPerforms : Prop :=
  ∀ (a : Access) (x0 : LaneAcc) (xs : List LaneAcc) (sx : Bool) (k : Skein) (s : State), s.Due a → a.place = .global →
    a.kind = .load sx → a.order = 0 → a.lanes = x0 :: xs → a.beyond = none → s.sk? a.sk = some k → k.waits = [] →
    (∀ x ∈ a.lanes, x.addr / 128 = x0.addr / 128 ∧ x.addr % 128 + a.width ≤ 128) →
    let line := x0.addr / 128
    let bad := fun (x : LaneAcc) => s.poisonAt x.addr a.width
    let frame := fun (t : State) => t =
      { s with skeins := t.skeins, accesses := t.accesses, copies := t.copies, homes := t.homes, dowser := t.dowser, lostLeases := t.lostLeases }
    (∀ c, s.copyOf false a.core line a.ctx (k.freshFrom line) = some c →
      ∃ t, Machine.exec (.accessPerform a.id) s = .next t ∧ frame t ∧ s.Returned t a k
        (a.lanes.map fun x => ⟨x.reg, x.lane, extended sx ((c.bytes.drop (x.addr % 128)).take a.width), bad x⟩) []) ∧
    (s.copyOf false a.core line a.ctx (k.freshFrom line) = none → s.copyOf true (dieOf a.core) line a.ctx (k.freshFrom line) = none →
      ∃ t, Machine.exec (.accessPerform a.id) s = .next t ∧ frame t ∧ s.Returned t a k
        (a.lanes.map fun x => ⟨x.reg, x.lane, extended sx (s.load (s.ctx a.ctx).part x.addr a.width), bad x⟩) [])

end Sys2Proof.Machine

/-- Loads perform: scratch and memory bytes come back to their registers' write. Readings and choices of the model it rests on: log 13, 15. -/
def Obligations.LoadsPerform : Prop :=
  Machine.Claim.ScratchLoadPerforms ∧ Machine.Claim.MemoryLoadPerforms

namespace Sys2Proof.Machine

/-- R98, R243, R244: ACCESS_PERFORM of a store of one line of memory under the partition's own key, or in scratch: its lanes' bytes
are written in ascending lane order and every other byte stands; the access waits for its completion time, in memory the latest lease
recorded for its line, or kept for the lines of its set whose records are lost (R69), plus the clock skew, and of the skeins nothing
changes but the lines whose older copies a skein that has moved refuses (R97). -/
def Claim.StorePerforms : Prop :=
  ∀ (a : Access) (x0 : LaneAcc) (xs : List LaneAcc) (s : State), s.Due a → a.kind = .store → a.lanes = x0 :: xs →
    let done := fun (w : Nat) => s.accesses.map fun y => if y.id = a.id then { a with done := true, wct := w } else y
    (∀ b, a.place = .scratch b → (∀ y ∈ s.accesses, y.id = a.id → y = a) →
      ∃ t, Machine.exec (.accessPerform a.id) s = .next t ∧
        t = { s with mem := t.mem, poisoned := t.poisoned, accesses := done (s.nowAt (clusterOf a.core)) } ∧
        t.mem = a.lanes.foldl (fun m x => m.writeN (scratchKey a.core x.addr) (toBytes a.width x.data.toNat)) s.mem) ∧
    (a.place = .global → a.beyond = none → (∀ y ∈ s.accesses, y.id = a.id → y = a) →
      (∀ x ∈ a.lanes, x.addr / 128 = x0.addr / 128 ∧ x.addr % 128 + a.width ≤ 128) →
      (isWell x0.addr = true → s.writtenKey (x0.addr / 128) = s.keyOf a.owner (x0.addr / 128)) → 1 ≤ a.width →
      ∃ t, Machine.exec (.accessPerform a.id) s = .next t ∧
        t = { s with mem := t.mem, poisoned := t.poisoned, copies := t.copies, homes := t.homes, dowser := t.dowser
                     lostLeases := t.lostLeases, skeins := t.skeins
                     accesses := done (max s.now (t.leaseOf a.owner (x0.addr / 128)) + Config.skew) } ∧
        (∀ h ∈ s.homes, h.line = x0.addr / 128 → h.lease ≤ t.leaseOf a.owner (x0.addr / 128)) ∧
        s.lostLease (s.homeDie (x0.addr / 128 * 128)) a.owner ≤ t.leaseOf a.owner (x0.addr / 128) ∧
        (∀ v, (t.sk? v).map (fun k => { k with floors := [] }) = (s.sk? v).map fun k => { k with floors := [] }) ∧
        t.mem = a.lanes.foldl (fun m x => m.writeN x.addr (toBytes a.width x.data.toNat)) s.mem)

/-- R105, R247: the new value of an atomic on w bits. -/
def atomicNew (op : AmoOp) (w old y c : Nat) : Nat :=
  match op with
  | .swap => y
  | .cas => if old = c then y else old
  | .add => (old + y) % 2 ^ w
  | .and => old &&& y
  | .or => old ||| y
  | .xor => old ^^^ y
  | .minI => if sgn w y < sgn w old then y else old
  | .maxI => if sgn w old < sgn w y then y else old
  | .minN => if y < old then y else old
  | .maxN => if old < y then y else old
  | .fadd => (fAddV (if w = 32 then f32 else f64) ⟨0, false, false, false, false⟩
      (decodeF (if w = 32 then f32 else f64) old) (decodeF (if w = 32 then f32 else f64) y)).1

/-- R105, R247, R248: ACCESS_PERFORM of a relaxed atomic of one lane in scratch: the lane receives the old word and the new one is
stored. -/
def Claim.AtomicPerforms : Prop :=
  ∀ (a : Access) (x : LaneAcc) (op : AmoOp) (b : Nat) (k : Skein) (s : State), s.Due a → a.kind = .atomic op → a.lanes = [x] →
    a.place = .scratch b → a.order = 0 → (∀ y ∈ s.accesses, y.id = a.id → y = a) → s.sk? a.sk = some k → k.waits = [] →
    let w := 8 * a.width
    let at' := scratchKey a.core x.addr
    let old := ofBytes (s.mem.readN at' a.width)
    ∃ t, Machine.exec (.accessPerform a.id) s = .next t ∧
      t = { s with mem := t.mem, poisoned := t.poisoned, skeins := t.skeins
                   accesses := s.accesses.map fun y => if y.id = a.id then { a with done := true, wct := s.nowAt (clusterOf a.core) } else y } ∧
      t.mem = s.mem.writeN at' (toBytes a.width (atomicNew op w old (x.data.toNat % 2 ^ w) (x.cmp.toNat % 2 ^ w))) ∧
      t.sk? a.sk = some (k.handed a [⟨x.reg, x.lane, BitVec.ofNat 64 old, s.poisonAt at' a.width⟩] []) ∧
      ∀ u, u ≠ a.sk → t.sk? u = s.sk? u

end Sys2Proof.Machine

/-- Stores and atomics perform: the bytes written, and every other byte unchanged. Readings and choices of the model it rests on: log 12, 15, 38. -/
def Obligations.StoresPerform : Prop :=
  Machine.Claim.StorePerforms ∧ Machine.Claim.AtomicPerforms

namespace Sys2Proof.Machine

/-- R86, R88, R89, R246: ACCESS_PERFORM of a seep operation, at the tick that the hosting cluster's clock reads. A load reads zero from a tile that is not live, or from a sector not yet
written, and pushes whether the tile was dead; `slife` returns the life that is left, 0 for a dead tile; `srenew` gives a live tile
a new birth, holds it for 64 cycles and pushes that it was live, and leaves a dead one as it is. -/
def Claim.SeepPerforms : Prop :=
  ∀ (a : Access) (i : Nat) (x0 : LaneAcc) (xs : List LaneAcc) (k : Skein) (s : State), s.Due a → a.place = .seep i → a.order = 0 →
    a.lanes = x0 :: xs → s.sk? a.sk = some k → k.waits = [] →
    let n := x0.addr / 4096
    let tile := (s.seepInst i).tile n
    let T := s.nowAt (s.seepInst i).cluster
    let age := (BitVec.ofNat 32 T - tile.birth).toNat
    let live := tile.state = .live ∧ age < Config.seepLife
    let vals := fun (v : LaneAcc → Lane) => a.lanes.map fun x => (⟨x.reg, x.lane, v x, false⟩ : LaneWrite)
    let byte := fun (o : Nat) => if live ∧ tile.valid.getLsbD (o % 4096 / 256) = true then s.mem.read (seepKey i o) else 0
    let bad := fun (x : LaneAcc) => (List.range a.width).any fun j =>
      decide (live ∧ tile.valid.getLsbD ((x.addr + j) % 4096 / 256) = true) && s.poisonAt (seepKey i (x.addr + j)) 1
    let dead := (decide (tile.state = .live) && decide (age < Config.seepLife)) = false
    (∀ sx, a.kind = .seepLoad sx → ∃ t p, Machine.exec (.accessPerform a.id) s = .next t ∧
      t = { s with skeins := t.skeins, accesses := t.accesses } ∧ (p = true ↔ dead) ∧
      s.Returned t a k (a.lanes.map fun x => ⟨x.reg, x.lane, extended sx ((List.range a.width).map fun j => byte (x.addr + j)), bad x⟩)
        (a.lanes.map fun x => (x.lane, p))) ∧
    (a.kind = .life → ∃ t, Machine.exec (.accessPerform a.id) s = .next t ∧
      t = { s with skeins := t.skeins, accesses := t.accesses } ∧
      (live → s.Returned t a k (vals fun _ => BitVec.ofNat 64 (Config.seepLife - age)) []) ∧
      (¬ live → s.Returned t a k (vals fun _ => 0) [])) ∧
    (a.kind = .renew → ¬ live → ∃ t, Machine.exec (.accessPerform a.id) s = .next t ∧
      t = { s with skeins := t.skeins, accesses := t.accesses } ∧
      s.Returned t a k (vals fun _ => 0) (a.lanes.map fun x => (x.lane, false))) ∧
    (a.kind = .renew → live → (∃ j ∈ s.seeps, j.uid = i) → ∃ t, Machine.exec (.accessPerform a.id) s = .next t ∧
      t = { s with skeins := t.skeins, accesses := t.accesses, seeps := t.seeps } ∧
      (t.seepInst i).tile n = { tile with
        birth := BitVec.ofNat 32 T, busy := some (T + s.cycleTicks (s.seepInst i).cluster 64) } ∧
      (∀ m, m ≠ n → (t.seepInst i).tile m = (s.seepInst i).tile m) ∧
      s.Returned t a k (vals fun _ => BitVec.ofNat 64 Config.seepLife) (a.lanes.map fun x => (x.lane, true)))

/-- R86, R88, R246: ACCESS_PERFORM of a seep store, its lanes inside one tile: the tile is live from then on, born now unless it was
live; the sectors written are valid beside those that were valid in a live tile; the bytes of valid sectors are the lanes' bytes, a later
lane's over an earlier's, elsewhere what a live tile's valid sector held and else zero; no other tile and no byte outside this one
changes, and the access waits for its completion time. -/
def Claim.SeepStorePerforms : Prop :=
  ∀ (a : Access) (i : Nat) (x0 : LaneAcc) (xs : List LaneAcc) (s : State), s.Due a → a.place = .seep i → a.kind = .seepStore →
    a.lanes = x0 :: xs → s.MemOk → (∀ y ∈ s.accesses, y.id = a.id → y = a) → (∃ j ∈ s.seeps, j.uid = i) → 1 ≤ a.width →
    (∀ x ∈ a.lanes, x.addr / 4096 = x0.addr / 4096 ∧ x.addr % 4096 + a.width ≤ 4096) →
    let n := x0.addr / 4096
    let tile := (s.seepInst i).tile n
    let T := s.nowAt (s.seepInst i).cluster
    let live := tile.state = .live ∧ (BitVec.ofNat 32 T - tile.birth).toNat < Config.seepLife
    let was := fun (o : Nat) => live ∧ tile.valid.getLsbD (o % 4096 / 256) = true
    let covers := fun (o : Nat) (x : LaneAcc) => x.addr ≤ o ∧ o < x.addr + a.width
    ∃ t, Machine.exec (.accessPerform a.id) s = .next t ∧
      t = { s with mem := t.mem, poisoned := t.poisoned, seeps := t.seeps
                   accesses := s.accesses.map fun y => if y.id = a.id then { a with done := true, wct := T } else y } ∧
      (let new := (t.seepInst i).tile n
       new.state = .live ∧ new.birth = (if live then tile.birth else BitVec.ofNat 32 T) ∧ new.busy = tile.busy ∧
       (∀ c, c < 16 → (new.valid.getLsbD c = true ↔ (live ∧ tile.valid.getLsbD c = true) ∨
         ∃ x ∈ a.lanes, x.addr % 4096 / 256 ≤ c ∧ c ≤ (x.addr % 4096 + a.width - 1) / 256)) ∧
       ∀ o, o / 4096 = n → new.valid.getLsbD (o % 4096 / 256) = true → t.mem.read (seepKey i o) =
         match a.lanes.reverse.find? fun x => decide (covers o x) with
         | some x => BitVec.ofNat 8 (x.data.toNat / 256 ^ (o - x.addr))
         | none => if was o then s.mem.read (seepKey i o) else 0) ∧
      (∀ m, m ≠ n → (t.seepInst i).tile m = (s.seepInst i).tile m) ∧
      ∀ b, (∀ o, o / 4096 = n → b ≠ seepKey i o) → t.mem.read b = s.mem.read b

/-- R87, R89: by the hosting cluster's clock, a sweep visit marks an expired tile expired, with nothing valid, and leaves any other as
it is; a renew that has ended frees its tile, and one that has not holds it. -/
def Claim.SeepSteps : Prop :=
  ∀ (i n : Nat) (s : State), (∃ j ∈ s.seeps, j.uid = i) →
    let tile := (s.seepInst i).tile n
    let now := s.nowAt (s.seepInst i).cluster
    let age := (BitVec.ofNat 32 now - tile.birth).toNat
    (tile.state = .live → Config.seepLife ≤ age → ∃ t, Machine.exec (.seepSweepVisit i n) s = .next t ∧
      t = { s with seeps := t.seeps } ∧ (t.seepInst i).tile n = { tile with state := .expired, valid := 0 } ∧
      ∀ m, m ≠ n → (t.seepInst i).tile m = (s.seepInst i).tile m) ∧
    (tile.state ≠ .live ∨ age < Config.seepLife → Machine.exec (.seepSweepVisit i n) s = .next s) ∧
    (∀ e, tile.busy = some e → now < e → Machine.exec (.renewEnd i n) s = .next s) ∧
    (∀ e, tile.busy = some e → e ≤ now → s.accesses = [] → (∀ o ∈ s.ops, o.atTiles = []) → ∃ t, Machine.exec (.renewEnd i n) s = .next t ∧
      t = { s with seeps := t.seeps } ∧ (t.seepInst i).tile n = { tile with busy := none } ∧
      ∀ m, m ≠ n → (t.seepInst i).tile m = (s.seepInst i).tile m)

end Sys2Proof.Machine

/-- Seep loads, stores, renewals and lives by a tile's state and age; tiles sweep and end. Readings and choices of the model it rests on: log 15, 33, 74. -/
def Obligations.SeepAccesses : Prop :=
  Machine.Claim.SeepPerforms ∧ Machine.Claim.SeepStorePerforms ∧ Machine.Claim.SeepSteps

namespace Sys2Proof.Machine

/-- R88, R143, R308, R395: REGISTER_WRITE_LAND of an operation all of whose values have come, with no earlier one left that pushes
predicates in its lanes, writes them into the lanes they are for, a later value of a lane over an earlier, poisoned where the value is, makes its
registers pending no longer and lowers its setA count; SOURCE_RELEASE frees the registers it read and lowers its setB count. Every
other lane, every other operation and all memory stand. -/
def Claim.LongOperationsLand : Prop :=
  ∀ (u : Nat) (k : Skein) (o : LongOp) (s : State), s.sk? u = some k → k.waits = [] → k.ops.find? (fun x => x.id == o.id) = some o →
    o.matrix = false →
    let lower := fun (k' : Skein) (f : Option (BitVec 4)) => ∀ n, n < 12 →
      k'.flags.getD n 0 = k.flags.getD n 0 - if f.map (·.toNat) = some n then 1 else 0
    (o.pend ≠ [] → o.await = 0 → o.fail = none → k.pushesAhead o = false →
      ∃ t k', Machine.exec (.registerWriteLand u o.id) s = .next t ∧ t = { s with skeins := t.skeins } ∧ t.sk? u = some k' ∧
        (∀ v, v ≠ u → t.sk? v = s.sk? v) ∧
        k' = { k with regs := k'.regs, threads := k'.threads, flags := k'.flags, ops := k'.ops } ∧
        (∀ r l, r < 64 → l < 32 → k'.lane r l =
          match o.writes.reverse.find? fun w => w.reg == r && w.lane == l with
          | some w => w.val
          | none => k.lane r l) ∧
        (∀ r l, r < 64 → l < 32 → (k'.reg r).poison.getLsbD l =
          match o.writes.reverse.find? fun w => w.reg == r && w.lane == l with
          | some w => w.poison
          | none => (k.reg r).poison.getLsbD l) ∧
        lower k' o.setA ∧ (∀ x, x ∈ k'.ops → x.id = o.id → x.pend = []) ∧
        ∀ x, x.id ≠ o.id → (x ∈ k'.ops ↔ x ∈ k.ops)) ∧
    (o.held ≠ [] ∨ o.setB ≠ none →
      ∃ t k', Machine.exec (.sourceRelease u o.id) s = .next t ∧ t = { s with skeins := t.skeins } ∧ t.sk? u = some k' ∧
        (∀ v, v ≠ u → t.sk? v = s.sk? v) ∧ k' = { k with flags := k'.flags, ops := k'.ops } ∧
        lower k' o.setB ∧ (∀ x, x ∈ k'.ops → x.id = o.id → x.held = []) ∧
        ∀ x, x.id ≠ o.id → (x ∈ k'.ops ↔ x ∈ k.ops))

/-- R98, R111 to R113: what comes back for an access of a skein that is there: a completion time, which raises the skein's from its
scope on; a peer's acknowledgement, which also frees one posted store; a peer's values, which go to their operation, an atomic's followed
by its completion time; a fault record,
queued in the skein, with its operation failed; and silence for 2^20 ticks, which is the record of code 4. -/
def Claim.AccessesReturn : Prop :=
  ∀ (a : Access) (k : Skein) (s : State), a ∈ s.accesses → (∀ y ∈ s.accesses, y.id = a.id → y = a) → s.sk? a.sk = some k →
    k.waits = [] → a.sample = none →
    let gone := fun (t : State) => t.accesses = s.accesses.filter (fun x => x.id != a.id) ∧
      t = { s with skeins := t.skeins, accesses := t.accesses } ∧ ∀ u, u ≠ a.sk → t.sk? u = s.sk? u
    let wct := fun (from' w : Nat) => (List.range 4).map fun i => if from' ≤ i then max (k.wct.getD i 0) w else k.wct.getD i 0
    let x0 := (a.lanes.head?).getD ⟨0, 0, 0, 0, 0, 0⟩
    let record := fun (code : Byte) (t : State) => gone t ∧ ∃ k', t.sk? a.sk = some k' ∧
      (k.faultQ.length < 8 → k'.faultQ = k.faultQ ++ [⟨x0.lane, a.pc, x0.va, code, if a.posted then none else a.op⟩]) ∧
      (8 ≤ k.faultQ.length → k'.faultQ = k.faultQ) ∧ k'.regs = k.regs ∧
      (a.posted = false → ∀ o ∈ k'.ops, a.op = some o.id → o.fail = some .remote)
    (a.done = true → ∃ t, Machine.exec (.wctReturn a.id) s = .next t ∧ gone t ∧
      t.sk? a.sk = some { k with wct := wct 0 a.wct }) ∧
    (a.posted = true → a.out = true → ∀ w : Lane, ∃ t, Machine.exec (.remoteAcknowledgement a.id w) s = .next t ∧ gone t ∧
      t.sk? a.sk = some { k with wct := wct 2 w.toNat, unacked := k.unacked - 1 }) ∧
    (a.place.isPeer = true → a.out = true → a.order = 0 → ∀ (data : List Lane),
      let handed := k.handed a
        (a.lanes.zipIdx.map fun x => ⟨x.1.reg, x.1.lane, BitVec.ofNat 64 ((data.getD x.2 0).toNat % 2 ^ (8 * a.width)), false⟩) []
      (a.kind = .load false → ∃ t, Machine.exec (.response a.id data) s = .next t ∧ gone t ∧ t.sk? a.sk = some handed) ∧
      (∀ op, a.kind = .atomic op → ∃ t, Machine.exec (.response a.id data) s = .next t ∧ gone t ∧
        t.sk? a.sk = some { handed with wct := wct 2 (data.getD a.lanes.length 0).toNat })) ∧
    (a.place.isPeer = true → a.out = true → (s.ctx a.ctx).halted = false → ∀ code, ∃ t, Machine.exec (.faultRecordArrival a.id code) s = .next t ∧ record code t) ∧
    (a.place.isPeer = true → a.out = true → (s.ctx a.ctx).halted = false → a.sent + 2 ^ 20 ≤ s.now →
      ∃ t, Machine.exec (.remoteAckTimeout a.id) s = .next t ∧ record 4 t) ∧
    (s.now < a.sent + 2 ^ 20 → (∀ o ∈ s.ops, o.uid ≠ a.id) → Machine.exec (.remoteAckTimeout a.id) s = .next s)

end Sys2Proof.Machine

/-- Long operations land in their registers; stores acknowledge. Readings and choices of the model it rests on: log 15, 75, 82. -/
def Obligations.AccessesEnd : Prop :=
  Machine.Claim.LongOperationsLand ∧ Machine.Claim.AccessesReturn

/-! ### Ordering, waiting, prefetch, residency, queues -/

namespace Sys2Proof.Machine

/-- R103: the conditions of a fence, row by row: no load of the skein still out and none unlanded; from .tm on every store and
atomic performed; from .dv on every completion time back and passed; from .dm on every posted store acknowledged. -/
def Claim.FenceConditions : Prop :=
  ∀ (k : Skein) (scope : Nat) (s : State),
    let mine := fun (a : Access) => a ∈ s.accesses ∧ a.sk = k.uid
    let now := s.nowAt (clusterOf k.core)
    (s.fenceMet k scope = true ↔
      (∀ a, mine a → a.kind.reads = false) ∧
      (∀ o ∈ k.ops, o.load = true → o.pend = [] ∨ o.await ≠ 0 ∨ o.fail ≠ none) ∧
      (1 ≤ scope → ∀ a, mine a → a.kind.writes = true → a.posted = true ∨ a.done = true) ∧
      (2 ≤ scope → (∀ a, mine a → a.done = false) ∧ k.wct.getD 1 0 < now) ∧
      (3 ≤ scope → k.unacked = 0 ∧ k.wct.getD 2 0 < now)) ∧
    (∀ n, n ≤ scope → s.fenceMet k scope = true → s.fenceMet k n = true)

/-- R103, R249: `fence` whose condition holds moves on, with an acquire from .dv on; else its group waits, and FENCE_COMPLETE ends the
wait when the condition holds and not before. A scope past .sy raises cause 0x0A. -/
def Claim.FenceResults : Prop :=
  (∀ (scope : BitVec 3) (s : State), s.Issuing →
    let n := scope.toNat
    (n ≤ 4 → (3 ≤ n → s.cur.faultQ = []) → s.fenceMet s.cur n = true →
      ∃ t, Machine.exec (.fence scope) s = .next t ∧ (n < 2 → s.Became t s.moved) ∧
        (2 ≤ n → s.SkAcquired t s.issue.sk s.moved)) ∧
    (n ≤ 4 → (3 ≤ n → s.cur.faultQ = []) → s.fenceMet s.cur n = false →
      ∃ t, Machine.exec (.fence scope) s = .next t ∧ s.Waits t (.fence n) (.fence scope)) ∧
    (4 < n → Machine.exec (.fence scope) s = .next (s.takeTrap { kind := 1, cause := 0x0A }))) ∧
  (∀ (u id n : Nat) (k : Skein) (w : Wait) (s : State), s.sk? u = some k → k.wait? id = some w → w.kind = .fence n →
    (3 ≤ n → k.faultQ = []) →
    (s.fenceMet k n = true → n < 2 → ∃ t, Machine.exec (.fenceComplete u id) s = .next t ∧ s.SkBecame t u (k.endWait w)) ∧
    (s.fenceMet k n = true → 2 ≤ n → ∃ t, Machine.exec (.fenceComplete u id) s = .next t ∧ s.SkAcquired t u (k.endWait w)) ∧
    (s.fenceMet k n = false → Machine.exec (.fenceComplete u id) s = .next s))

end Sys2Proof.Machine

/-- A fence completes when its scope's condition is met, and waits otherwise. Readings and choices of the model it rests on: log 29. -/
def Obligations.Fences : Prop :=
  Machine.Claim.FenceConditions ∧ Machine.Claim.FenceResults

/-- R217, R250: `waitw` waits from its issue, with the addresses that its stream forms then, its timeout 64 ticks for each count; with no
passing lane it moves on. On scratch words:
A re-read on which every lane's condition holds writes the words read, pushes true and ends the wait; after the timeout the same with
false; and one on which some lane's fails before it changes nothing. From the asking for a halt of its context on (R354) neither ends
the wait.
Readings and choices of the model it rests on: log 11, 39. -/
def Obligations.WaitOnWord : Prop :=
  (∀ (g : Guard) (d : Reg) (m : MemOp) (size : BitVec 3) (c : Reg) (scope cond : BitVec 3) (tm : BitVec 14) (r : WaitReq)
      (s u : State) (xs : List (Place × LaneAcc)),
    let i := Instr.waitw g d m size 0 c scope cond tm
    waitReq i = some r → s.Issuing → s.Fresh → s.MemClear r.q → s.formAll r.q (s.memTag r.q) (s.memLanes r.q) = (u, .ok xs) →
    (xs = [] → ∃ t, Machine.exec i s = .next t ∧ u.Became t u.moved) ∧
    (xs ≠ [] → ∃ t, Machine.exec i s = .next t ∧
      u.Waits t (.waitw s.now (if tm = 0 then none else some (s.now + 64 * tm.toNat))) i
        (BitVec.ofNat 2 (s.memTag r.q)) (s.memLanes r.q) s.now)) ∧
  (∀ (u id from' : Nat) (lim : Option Nat) (k : Skein) (w : Wait) (r : WaitReq) (xs : List (Place × LaneAcc)) (s : State),
    s.sk? u = some k → k.wait? id = some w → w.id = id → w.kind = .waitw from' lim → waitReq w.instr = some r → k.uid = u →
    (s.ctx k.ctx).halting = none →
    let s0 := { s with issue := { w.issue with sk := u } }
    s0.formAll r.q w.space.toNat (w.addrs.filter fun x => k.inWait id x.1) = (s0, .ok xs) → s0.readBehind u w xs = false → xs ≠ [] →
    (∀ x ∈ xs, ∃ b, x.1 = .scratch b) → r.q.scope < 2 → (xs.map fun x => x.2.lane).Nodup →
    let word := fun (x : Place × LaneAcc) => ofBytes (s.mem.readN (scratchKey k.core x.2.addr) r.q.n)
    let holds := fun (x : Place × LaneAcc) =>
      let v := word x % 2 ^ (8 * r.q.n)
      let y := x.2.cmp.toNat % 2 ^ (8 * r.q.n)
      match r.cond.toNat with
      | 0 => v = y
      | 1 => v ≠ y
      | 2 => y ≤ v
      | 3 => v < y
      | _ => v &&& y ≠ 0
    let ended := fun (b : Bool) (t : State) => ∃ k', s.SkBecame { t with freeCtr := s.freeCtr } u k' ∧
      k' = { k.endWait w with regs := k'.regs, threads := k'.threads } ∧
      (∀ x ∈ xs, x.2.reg < 64 → x.2.lane < 32 → (∀ y ∈ xs, y.2.reg = x.2.reg → y.2.lane = x.2.lane → y = x) →
        k'.lane x.2.reg x.2.lane = BitVec.ofNat 64 (word x)) ∧
      (∀ r l, l < 32 → r < 64 → (∀ x ∈ xs, x.2.reg ≠ r ∨ x.2.lane ≠ l) → k'.lane r l = k.lane r l) ∧
      ∀ l, l < 32 → (k'.thread l).pred =
        if l ∈ xs.map fun x => x.2.lane then (k.thread l).pred <<< 1 ||| (if b then 1 else 0) else (k.thread l).pred
    ((∀ x ∈ xs, holds x) → ∃ t, Machine.exec (.waitwReread u id) s = .next t ∧ ended true t) ∧
    ((∃ x ∈ xs, ¬ holds x) → ∃ t, Machine.exec (.waitwReread u id) s = .next t ∧ s.SkBecame t u
      { k with waits := k.waits.map fun x => if x.id = id then { x with readAt := s.now } else x }) ∧
    (∀ n, lim = some n → n ≤ s.now → (∃ x ∈ xs, ¬ holds x) →
      ∃ t, Machine.exec (.waitwTimeout u id) s = .next t ∧ ended false t) ∧
    (∀ n, lim = some n → s.now < n → Machine.exec (.waitwTimeout u id) s = .next s)) ∧
  (∀ (u id : Nat) (k : Skein) (s : State), s.sk? u = some k → (s.ctx k.ctx).halting ≠ none →
    Machine.exec (.waitwReread u id) s = .next s ∧ Machine.exec (.waitwTimeout u id) s = .next s)

namespace Sys2Proof.Machine

/-- R251: the data prefetches move their group on, and change no register and no byte of memory; a stream that does not name
memory raises cause 0x0B. -/
def Claim.DataPrefetch : Prop :=
  ∀ (g : Guard) (m : MemOp) (s : State), s.Issuing → s.Clear (offRegs m.off) [] →
    ∀ i ∈ [Instr.prefdL1 g m, .prefdL2 g m],
      ((s.cur.streamTag m.stream.toNat = 0) → ∃ t, Machine.exec i s = .next t ∧ t.mem = s.mem ∧ t.cur = s.moved ∧
        t = { s with skeins := t.skeins, tlb := t.tlb, copies := t.copies, homes := t.homes, dowser := t.dowser
                     lostLeases := t.lostLeases } ∧
        ∀ u, u ≠ s.issue.sk → t.sk? u = s.sk? u) ∧
      (s.cur.streamTag m.stream.toNat ≠ 0 → Machine.exec i s = .next (s.takeTrap { kind := 1, cause := 0x0B }))

/-- R252, R331: `codefetch` starts an operation of timeline 5 for its lines, from the lowest passing lane's line on; with no passing
lane it moves on. LINE_FILL brings a line that can be fetched into the core's instruction cache, as its home holds it or, where the core has
fetched it before and let no codefetch go over it since, as it was then (R328), and takes the request off the list. -/
def Claim.CodeFetch : Prop :=
  (∀ (g : Guard) (n : Reg) (m : MemOp) (lines1 : BitVec 10) (s : State), s.Issuing → n.toNat < 8 → s.Clear (offRegs m.off) [] →
    s.cur.streamTag m.stream.toNat = 0 → (∀ x ∈ s.ops, x.uid ≠ s.idCtr) → (∀ x ∈ s.altered, x.ctx ≠ s.cur.ctx) →
    ((∃ l, l < 32 ∧ s.passing g l = true) → (s.openOps s.cur.team 5).length < 64 →
      ∃ t o, Machine.exec (.codefetch g n m 0 0 lines1) s = .next t ∧ s.OpStarted t n.toNat 5 o ∧ o.kind = .fetch ∧
        o.count = lines1.toNat + 1 ∧
        ∀ l, l < 32 → s.passing g l = true → (∀ j, j < l → s.passing g j = false) →
          let a := s.cur.addr m.stream.toNat m.off l
          o.first = lineOf (a - BitVec.ofNat 64 (a.toNat % 128))) ∧
    ((∀ l, l < 32 → s.passing g l = false) → ∃ t, Machine.exec (.codefetch g n m 0 0 lines1) s = .next t ∧ s.Became t s.moved)) ∧
  (∀ (r : IReq) (x : Xlat) (s u : State), s.ireqs.find? (fun y => y.core == r.core && y.line == r.line) = some r →
    { s with ireqs := s.ireqs.erase r }.fetchable r.ctx (lineAddr r.line) = (u, some x) →
    ∃ t, Machine.exec (.lineFill r.core r.line) s = .next t ∧ t.mem = s.mem ∧ t.skeins = s.skeins ∧ t.ireqs = s.ireqs.erase r ∧
      ∃ y ∈ t.ilines, y.core = r.core ∧ y.ctx = r.ctx ∧ y.line = r.line ∧ y.quad = none ∧
        y.key = x.key ∧ y.gone = false ∧
        ((∀ i ∈ s.ilines, ¬ (i.core = r.core ∧ i.ctx = r.ctx ∧ i.line = r.line ∧ i.owner = (s.ctx r.ctx).part ∧ i.key = x.key)) →
          y.bytes = s.load (s.ctx r.ctx).part x.key 128) ∧
        ∀ i ∈ s.ilines, i.core = r.core → i.ctx = r.ctx → i.line = r.line → i.owner = (s.ctx r.ctx).part → i.key = x.key →
          (∀ j ∈ s.ilines, j.core = r.core → j.ctx = r.ctx → j.line = r.line → j.key = x.key → j.bytes = i.bytes) → y.bytes = i.bytes)

/-- R71, R73, R74, R253: the forms of `resid`. `.reg` begins a long write of the lowest free number where the range is aligned, within
its limits and meets no live range, and of 0xFFFF_FFFF where not, pushing which at landing; `.prio`, `.demote` and `.drop` act on a live
handle and push true, or push false and do nothing. -/
def Claim.ResidencyHandles : Prop :=
  ∀ (g : Guard) (d a b : Reg) (prio : BitVec 3) (s : State), s.Issuing → s.Clear [plain a, plain b] [d] → s.Room true true →
    ∀ l, l < 32 → s.passing g l = true → (∀ j, j < l → s.passing g j = false) →
    let base := s.cur.read a l
    let len := s.cur.read b l
    let live := fun (r : Resid) => r ∈ s.resids ∧ r.ctx = s.cur.ctx
    let fits := base.toNat % 65536 = 0 ∧ len.toNat % 65536 = 0 ∧ 65536 ≤ len.toNat ∧ len.toNat ≤ 2 ^ 46 ∧
      ∀ r, live r → ¬ (r.base.toNat < base.toNat + len.toNat ∧ base.toNat < r.base.toNat + r.len.toNat)
    let pushed := fun (t : State) (ok : Bool) (rs : List Resid) => t.resids = rs ∧
      { s with resids := rs, copies := t.copies, homes := t.homes }.Predicated t (s.passing g)
        fun _ p => p <<< 1 ||| if ok then 1 else 0
    (∀ n, n < 4096 → fits → (∀ r, live r → r.num ≠ n) → (∀ j, j < n → ∃ r, live r ∧ r.num = j) →
      ∃ t, Machine.exec (.residReg g d a b prio) s = .next t ∧
        (∃ r, t.resids = s.resids ++ [r] ∧ r.ctx = s.cur.ctx ∧ r.num = n ∧ r.base = base ∧ r.len = len ∧ r.prio = prio.toNat) ∧
        ∃ o, o.setA = s.header.setA ∧ t.cur.ops = s.cur.ops ++ [o] ∧
          (∀ x, x ∈ o.writes ↔ ∃ l, l < 32 ∧ s.passing g l = true ∧ x = ⟨s.cur.resolve l d, l, BitVec.ofNat 64 n, false⟩) ∧
          (∀ x, x ∈ o.pushes ↔ ∃ l, l < 32 ∧ s.passing g l = true ∧ x = (l, true)) ∧ t.mem = s.mem ∧ t.cur.regs = s.cur.regs) ∧
    (¬ fits → ∃ t, Machine.exec (.residReg g d a b prio) s = .next t ∧ t.resids = s.resids ∧
      ∃ o, o.setA = s.header.setA ∧ t.cur.ops = s.cur.ops ++ [o] ∧
          (∀ x, x ∈ o.writes ↔ ∃ l, l < 32 ∧ s.passing g l = true ∧ x = ⟨s.cur.resolve l d, l, 0xFFFFFFFF, false⟩) ∧
          (∀ x, x ∈ o.pushes ↔ ∃ l, l < 32 ∧ s.passing g l = true ∧ x = (l, false)) ∧ t.mem = s.mem ∧ t.cur.regs = s.cur.regs) ∧
    (∀ r, live r → base.toNat % 2 ^ 32 = r.num → (∀ x, live x → x.num = r.num → x = r) →
      (∃ t, Machine.exec (.residPrio g a prio) s = .next t ∧
        pushed t true (s.resids.map fun x => if x = r then { r with prio := prio.toNat } else x)) ∧
      (prio.toNat < r.prio → ∃ t, Machine.exec (.residDemote g a prio) s = .next t ∧
        pushed t true (s.resids.map fun x => if x = r then { r with prio := prio.toNat } else x)) ∧
      (r.prio ≤ prio.toNat → ∃ t, Machine.exec (.residDemote g a prio) s = .next t ∧ pushed t false s.resids) ∧
      (∃ t, Machine.exec (.residDrop g a) s = .next t ∧ pushed t true (s.resids.filter fun x => x != r))) ∧
    ((∀ r, live r → base.toNat % 2 ^ 32 ≠ r.num) →
      ∀ i ∈ [Instr.residPrio g a prio, .residDemote g a prio, .residDrop g a],
        ∃ t, Machine.exec i s = .next t ∧ pushed t false s.resids)

/-- R253: where no lane passes, a `resid` form has no effect but the group's place. -/
def Claim.ResidencyIdle : Prop :=
  ∀ (g : Guard) (n d a b : Reg) (prio : BitVec 3) (s : State), s.Issuing → s.Clear [plain a, plain b] [d] → s.Room false false →
    n.toNat < 8 → (∀ l, l < 32 → s.passing g l = false) →
    ∀ i ∈ [Instr.residReg g d a b prio, .residPrio g a prio, .residDemote g a prio, .residEvict g n a, .residDrop g a],
      ∃ t, Machine.exec i s = .next t ∧ s.Became t s.moved

/-- R73, R74: `resid.evict` of a live handle drops every copy of its range, whatever context or alias of the partition brought it,
and lets the lines go at their homes, starts an operation of timeline 6 that has nothing left to
do, and pushes true; of none it pushes false. -/
def Claim.ResidencyEvict : Prop :=
  ∀ (g : Guard) (n a : Reg) (s : State), s.Issuing → n.toNat < 8 → s.Clear [plain a] [] →
    ∀ l, l < 32 → s.passing g l = true → (∀ j, j < l → s.passing g j = false) →
    let inRange := fun (r : Resid) (owner line : Nat) => (s.ctx r.ctx).part = owner ∧
      ∃ i x, i < r.len.toNat / 65536 ∧ (s.translate r.ctx (r.base + BitVec.ofNat 64 (65536 * i))).2 = .ok x ∧ x.kind ≠ 2 ∧
        x.key / 128 ≤ line ∧ line < x.key / 128 + 512
    (∀ r, s.residNamed (s.cur.read a l) = some r → (s.openOps s.cur.team 6).length < 64 → (∀ x ∈ s.ops, x.uid ≠ s.idCtr) →
      ∃ t o, Machine.exec (.residEvict g n a) s = .next t ∧ s.OpStarted t n.toNat 6 o ∧ o.kind = .evict ∧ o.ready = true ∧
        (∀ c, c ∈ t.copies ↔ c ∈ s.copies ∧ ¬ inRange r c.owner c.line) ∧
        (∀ h ∈ t.homes, inRange r h.owner h.line → h.cached = false) ∧
        ∀ l, l < 32 → s.passing g l = true → (t.cur.thread l).pred = (s.cur.thread l).pred <<< 1 ||| 1) ∧
    (s.residNamed (s.cur.read a l) = none → ∃ t, Machine.exec (.residEvict g n a) s = .next t ∧
      s.Predicated t (s.passing g) fun _ p => p <<< 1)

end Sys2Proof.Machine

/-- prefd, codefetch and resid with its handles and evicts. Readings and choices of the model it rests on: log 19, 40, 67, 78. -/
def Obligations.PrefetchAndResidency : Prop :=
  Machine.Claim.DataPrefetch ∧ Machine.Claim.CodeFetch ∧ Machine.Claim.ResidencyHandles ∧ Machine.Claim.ResidencyIdle ∧
    Machine.Claim.ResidencyEvict

namespace Sys2Proof.Machine

/-- R254, R255: `qpush` with room for all its lanes, no one waiting before it and its release met appends one element for each passing
lane, in lane order; `qpop` with as many held removes the oldest, in the same order; else they wait. With no passing lane nothing happens
but that the group moves on. -/
def Claim.QueueResults : Prop :=
  ∀ (g : Guard) (a : Reg) (n : BitVec 6) (s : State), s.Issuing → n.toNat < 8 → s.cur.uid = s.issue.sk →
    let tm := s.team s.cur.team
    let q := tm.qw.getD n.toNat 0
    let depth := q.toNat / 2 ^ 19 % 2 ^ 13
    let bytes := 2 ^ (q.toNat / 2 ^ 32 % 4)
    let base := q.toNat % 2 ^ 19
    let held := q.toNat / 2 ^ 48 % 2 ^ 13
    let lanes := (List.range 32).filter (s.passing g)
    let p := lanes.length
    let slot := fun (i : Nat) =>
      scratchKey tm.core (tm.scratchBase + base + (tm.qhead.getD n.toNat 0 + i) % depth * bytes)
    let waiting := (s.skeinsOf s.cur.team).any fun x => (x.queueWait n.toNat true).isSome
    let waiting' := (s.skeinsOf s.cur.team).any fun x => (x.queueWait n.toNat false).isSome
    (p = 0 → (s.Clear [plain a] [] → ∃ t, Machine.exec (.qpush g a n) s = .next t ∧ s.Became t s.moved) ∧
      (s.Clear [] [a] → ∃ t, Machine.exec (.qpop g a n) s = .next t ∧ s.Became t s.moved)) ∧
    ((∃ x ∈ s.teams, x.uid = s.cur.team) → 0 < p → p ≤ depth → depth ≤ 4096 →
    (s.Clear [plain a] [] → held + p ≤ depth → waiting = false → s.fenceMet s.cur 1 = true →
      ∃ t, Machine.exec (.qpush g a n) s = .next t ∧ t.cur = s.moved ∧
        t.mem = (List.range p).foldl (fun m i => m.writeN (slot (held + i)) (toBytes bytes (s.cur.read a (lanes.getD i 0)).toNat)) s.mem ∧
        ((t.team s.cur.team).qw.getD n.toNat 0).toNat / 2 ^ 48 % 2 ^ 13 = held + p ∧
        ((t.team s.cur.team).qw.getD n.toNat 0).toNat % 2 ^ 48 = q.toNat % 2 ^ 48 ∧
        t = { s with skeins := t.skeins, mem := t.mem, teams := t.teams, poisoned := t.poisoned }) ∧
    (s.Clear [plain a] [] → depth < held + p ∨ waiting = true ∨ s.fenceMet s.cur 1 = false →
      ∃ t, Machine.exec (.qpush g a n) s = .next t ∧ s.Waits t (.qpush n.toNat) (.qpush g a n)) ∧
    (s.Clear [] [a] → p ≤ held → waiting' = false →
      ∃ t, Machine.exec (.qpop g a n) s = .next t ∧ t.mem = s.mem ∧
        (∀ i, i < p → t.cur.lane (s.cur.resolve (lanes.getD i 0) a) (lanes.getD i 0) =
          BitVec.ofNat 64 (ofBytes (s.mem.readN (slot i) bytes))) ∧
        (∀ r l, r < 64 → l < 32 → (s.passing g l = false ∨ s.cur.resolve l a ≠ r) → t.cur.lane r l = s.cur.lane r l) ∧
        ((t.team s.cur.team).qw.getD n.toNat 0).toNat / 2 ^ 48 % 2 ^ 13 = held - p ∧
        (t.team s.cur.team).qhead.getD n.toNat 0 = (tm.qhead.getD n.toNat 0 + p) % depth ∧
        t.cur = { s.moved with regs := t.cur.regs } ∧ t = { s with skeins := t.skeins, teams := t.teams }) ∧
    (s.Clear [] [a] → held < p ∨ waiting' = true →
      ∃ t, Machine.exec (.qpop g a n) s = .next t ∧ s.Waits t (.qpop n.toNat) (.qpop g a n)))

/-- R255, R256: QUEUE_STEP of a waiting `qpush` or `qpop` whose turn and space have come performs it and ends its wait: a push appends
one element for each of its lanes in lane order, a pop removes the oldest and gives them to its lanes in that order; before that, and
once a halt of its context has been asked for (R354), it changes nothing. -/
def Claim.QueueStep : Prop :=
  ∀ (u id n : Nat) (g : Guard) (push : Bool) (k : Skein) (w : Wait) (s : State), s.sk? u = some k → k.wait? id = some w → k.uid = u →
    queueOf w.instr = some (g, n, push) →
    let lanes := (List.range 32).filter fun l => w.issue.mask.getLsbD l && guardPasses g (k.thread l)
    let p := lanes.length
    let tm := s.team k.team
    let q := tm.qw.getD n 0
    let depth := q.toNat / 2 ^ 19 % 2 ^ 13
    let bytes := 2 ^ (q.toNat / 2 ^ 32 % 4)
    let held := q.toNat / 2 ^ 48 % 2 ^ 13
    let slot := fun (i : Nat) => scratchKey tm.core (tm.scratchBase + q.toNat % 2 ^ 19 + (tm.qhead.getD n 0 + i) % depth * bytes)
    let count := fun (t : State) => ((t.team k.team).qw.getD n 0).toNat / 2 ^ 48 % 2 ^ 13
    (s.queueReady k n push p = true → (s.ctx k.ctx).halting = none →
      ∃ t k', Machine.exec (.queueStep u id) s = .next t ∧ t.issue = s.issue ∧ t.sk? u = some k' ∧
      k' = { k.endWait w with regs := k'.regs } ∧ (push = true → k'.regs = k.regs) ∧ (push = false → t.mem = s.mem) ∧
      (∀ v, v ≠ u → t.sk? v = s.sk? v) ∧
      (n < 8 → (∃ x ∈ s.teams, x.uid = k.team) → 0 < p → p ≤ depth → depth ≤ 4096 →
        (∀ a m, w.instr = .qpush g a m → count t = held + p ∧ t.mem =
          (List.range p).foldl (fun m i => m.writeN (slot (held + i)) (toBytes bytes (k.read a (lanes.getD i 0)).toNat)) s.mem) ∧
        (∀ d m, w.instr = .qpop g d m → count t = held - p ∧ (t.team k.team).qhead.getD n 0 = (tm.qhead.getD n 0 + p) % depth ∧
          (∀ i, i < p → k'.lane (k.resolve (lanes.getD i 0) d) (lanes.getD i 0) = BitVec.ofNat 64 (ofBytes (s.mem.readN (slot i) bytes))) ∧
          ∀ r l, r < 64 → l < 32 → (l ∉ lanes ∨ k.resolve l d ≠ r) → k'.lane r l = k.lane r l))) ∧
    (s.queueReady k n push p = false ∨ (s.ctx k.ctx).halting ≠ none → Machine.exec (.queueStep u id) s = .next s)

end Sys2Proof.Machine

/-- qpush and qpop on a queue with room or entries; a waiting one is served. Readings and choices of the model it rests on: log 19, 51. -/
def Obligations.Queues : Prop :=
  Machine.Claim.QueueResults ∧ Machine.Claim.QueueStep

/-! ### Barriers, growing and shrinking -/

namespace Sys2Proof.Machine

/-- R30, R31, R287: `bar` whose release is met and whose guard passes in p lanes: below the expected count, which the first arrival
sets, the arrivals are counted and those lanes wait for the barrier's generation; reaching it opens the generation: the counts start
over and a release of the skeins that wait for it is set out. The lanes that fail the guard have moved on; inside a region the group
waits as a whole (R52). An unmet release makes them wait uncounted; a barrier the team does not have raises cause 0x0A. -/
def Claim.BarrierArrival : Prop :=
  ∀ (g : Guard) (n : BitVec 5) (v : BitVec 10) (s : State), s.Issuing → (∃ x ∈ s.teams, x.uid = s.cur.team) →
    s.cur.uid = s.issue.sk →
    let tm := s.team s.cur.team
    let b := tm.barriers.getD n.toNat {}
    let p := ((List.range 32).filter (s.passing g)).length
    let need := if b.arrived = 0 then v.toNat + 1 else b.expected
    let split := fun (t : State) => t.cur.regs = s.cur.regs ∧ t.mem = s.mem ∧ ∀ l, l < 32 →
      (s.passing g l = true → (t.cur.thread l).waiting = some s.idCtr ∧ (t.cur.thread l).pc = (s.cur.thread l).pc) ∧
      (s.passing g l = false → t.cur.thread l = if s.executing l then s.issue.past (s.cur.thread l) else s.cur.thread l)
    let whole := fun (t : State) (w : Wait) => t.cur.regs = s.cur.regs ∧ t.mem = s.mem ∧ t.cur.waits = s.cur.waits ++ [w] ∧
      ∀ l, l < 32 → t.cur.thread l = if s.executing l then { s.cur.thread l with waiting := some s.idCtr } else s.cur.thread l
    (tm.barriers.length ≤ n.toNat → Machine.exec (.bar g n (.imm v)) s = .next (s.takeTrap { kind := 1, cause := 0x0A })) ∧
    (n.toNat < tm.barriers.length → p = 0 → ∃ t, Machine.exec (.bar g n (.imm v)) s = .next t ∧ s.Became t s.moved) ∧
    (s.inRegion = true → n.toNat < tm.barriers.length → 0 < p → s.fenceMet s.cur 1 = true → b.arrived + p ≤ need →
      ∃ t w, Machine.exec (.bar g n (.imm v)) s = .next t ∧ whole t w ∧ w.kind = .bar n.toNat b.gen ∧
        (t.team s.cur.team).barriers.getD n.toNat {} = if b.arrived + p < need then ⟨b.gen, b.arrived + p, need⟩ else ⟨b.gen + 1, 0, 0⟩) ∧
    (s.inRegion = true → n.toNat < tm.barriers.length → 0 < p → s.fenceMet s.cur 1 = false →
      ∃ t w, Machine.exec (.bar g n (.imm v)) s = .next t ∧ whole t w ∧ w.kind = .barPre ∧ t.teams = s.teams) ∧
    (s.inRegion = false → n.toNat < tm.barriers.length → 0 < p → s.fenceMet s.cur 1 = true → b.arrived + p < need →
      ∃ t w, Machine.exec (.bar g n (.imm v)) s = .next t ∧ split t ∧ t.cur.waits = s.cur.waits ++ [w] ∧ w.kind = .bar n.toNat b.gen ∧
        (t.team s.cur.team).barriers.getD n.toNat {} = ⟨b.gen, b.arrived + p, need⟩ ∧ t.releases = s.releases) ∧
    (s.inRegion = false → n.toNat < tm.barriers.length → 0 < p → s.fenceMet s.cur 1 = true → b.arrived + p = need →
      ∃ t w r, Machine.exec (.bar g n (.imm v)) s = .next t ∧ split t ∧ t.cur.waits = s.cur.waits ++ [w] ∧
        w.kind = .bar n.toNat b.gen ∧ (t.team s.cur.team).barriers.getD n.toNat {} = ⟨b.gen + 1, 0, 0⟩ ∧
        t.releases = s.releases ++ [r] ∧ r.kind = .bar n.toNat b.gen ∧ (clusterOf s.cur.core, s.cur.uid) ∈ r.skeins) ∧
    (s.inRegion = false → n.toNat < tm.barriers.length → 0 < p → s.fenceMet s.cur 1 = false →
      ∃ t w, Machine.exec (.bar g n (.imm v)) s = .next t ∧ split t ∧ t.cur.waits = s.cur.waits ++ [w] ∧ w.kind = .barPre ∧
        t.teams = s.teams)

/-- R33, R288: `gbar` of a cooperative grid whose release at .dv is met adds its group's threads to the grid's arrivals, and the group
waits for the generation; the last live thread of the grid opens the next one and sets out its release. An unmet release waits first;
a guard, or a grid that is not cooperative, raises cause 0x0B. -/
def Claim.GridBarrier : Prop :=
  ∀ (g : Guard) (s : State) (gr : Grid), s.Issuing → s.gridOf (s.team s.cur.team) = some gr →
    let n := ((List.range 32).filter s.executing).length
    ((g ≠ .always ∨ gr.coop = false) → Machine.exec (.gbar g) s = .next (s.takeTrap { kind := 1, cause := 0x0B })) ∧
    (gr.coop = true → s.fenceMet s.cur 2 = false →
      ∃ t, Machine.exec (.gbar .always) s = .next t ∧ s.Waits t .gbarPre (.gbar .always)) ∧
    (gr.coop = true → s.fenceMet s.cur 2 = true → 0 < n → gr.barArrived + n < s.gridLive gr.uid →
      ∃ t v, Machine.exec (.gbar .always) s = .next t ∧ s.Waits v (.gbar gr.barGen) (.gbar .always) ∧
        t = { v.updCur fun k => { k with counted := k.counted ++
              ((List.range 32).filter s.executing).map fun l => (l, .gbar gr.barGen) } with grids := t.grids } ∧
        t.grid? gr.uid = some { gr with barArrived := gr.barArrived + n }) ∧
    (gr.coop = true → s.fenceMet s.cur 2 = true → 0 < n → s.gridLive gr.uid ≤ gr.barArrived + n →
      ∃ t r, Machine.exec (.gbar .always) s = .next t ∧ t.grid? gr.uid = some { gr with barGen := gr.barGen + 1, barArrived := 0 } ∧
        t.releases = s.releases ++ [r] ∧ r.kind = .gbar gr.barGen ∧ t.cur.regs = s.cur.regs ∧ t.mem = s.mem ∧
        ∀ l, l < 32 → s.executing l = true → (t.cur.thread l).waiting = some s.idCtr)

/-- R34, R35, R396: BARRIER_WAVE of a release whose one skein is still to go, its cluster's cycle come: every thread of it that waits for that generation has moved
past its barrier, and the release is over. -/
def Claim.BarrierRelease : Prop :=
  ∀ (s : State) (r : Release) (k : Skein) (w : Wait) (c n gen : Nat), s.releases.find? (fun x => x.uid == r.uid) = some r →
    r.kind = .bar n gen → r.skeins = [(c, k.uid)] → r.clusters = [c] → r.begun = [] → 1 ≤ r.size c →
    r.after ≤ s.now * 2 ^ 16 → s.sk? k.uid = some k → k.waits.filter (fun x => x.kind == r.kind) = [w] →
    ∃ t, Machine.exec (.barrierWave r.uid) s = .next t ∧ (∀ x, x ∈ t.releases → x.uid ≠ r.uid) ∧ t.mem = s.mem ∧
      t.sk? k.uid = some (k.endWait w) ∧ ∀ u, u ≠ k.uid → t.sk? u = s.sk? u

end Sys2Proof.Machine

/-- bar and gbar count arrivals and open; released threads pass. Readings and choices of the model it rests on: log 34, 72. -/
def Obligations.Barriers : Prop :=
  Machine.Claim.BarrierArrival ∧ Machine.Claim.GridBarrier ∧ Machine.Claim.BarrierRelease

namespace Sys2Proof.Machine

/-- R36 to R39, R292: `grow` with eight registers free in its quadrant, and no older skein of it waiting in `grow` that could use what is
free, be it resident or swapped out, adds eight that read zero; else its group waits; at 64 it
raises cause 0x0B. `shrink` takes the eight highest away, waiting while one of them is pending or held; at 16 it raises cause 0x0B,
inside a region cause 0x09. -/
def Claim.GrowAndShrink : Prop :=
  ∀ (s : State), s.Issuing →
    let k := s.cur
    let free := s.quadFree k.core k.quad
    let here := fun (x : Skein) => x ∈ s.skeins ∧ x.slot.isSome = true ∧ x.core = k.core ∧ x.quad = k.quad
    let fits := fun (x : Skein) => if x.slot.isSome then 2048 ≤ free else 256 * (x.regCount + 8) ≤ free ∧ s.freeSlots k.core k.quad ≠ []
    let behind := ∃ x ∈ s.skeins, x.core = k.core ∧ x.quad = k.quad ∧ x.growing.isSome = true ∧ fits x ∧ s.rank x < s.rank k
    (k.regCount = 64 → Machine.exec .grow s = .next (s.takeTrap { kind := 1, cause := 0x0B })) ∧
    (k.regCount < 64 → 2048 ≤ free → ¬ behind → ∃ t, Machine.exec .grow s = .next t ∧ s.OnlyCur t ∧
      t.cur = { s.moved with regCount := k.regCount + 8, regs := t.cur.regs } ∧
      ∀ r, r < 64 → t.cur.reg r = if k.regCount ≤ r ∧ r < k.regCount + 8 then ({} : VReg) else k.reg r) ∧
    (k.regCount < 64 → (free < 2048 ∧ ∃ x, here x ∧ x.uid ≠ s.issue.sk ∧ x.growing = none) ∨ (2048 ≤ free ∧ behind) →
      ∃ t, Machine.exec .grow s = .next t ∧ s.Waits t .grow .grow) ∧
    (s.inRegion = true → Machine.exec .shrink s = .next (s.takeTrap { kind := 1, cause := 0x09 })) ∧
    (s.inRegion = false → k.regCount = 16 → Machine.exec .shrink s = .next (s.takeTrap { kind := 1, cause := 0x0B })) ∧
    (s.inRegion = false → 16 < k.regCount → k.regCount ≤ 64 →
      let settled := ∀ i, i < 8 → k.pendingBy (k.regCount - 8 + i) = none ∧ k.heldBy (k.regCount - 8 + i) = none
      (settled → ∃ t, Machine.exec .shrink s = .next t ∧ s.OnlyCur t ∧
        t.cur = { s.moved with regCount := k.regCount - 8, regs := t.cur.regs } ∧
        ∀ r, r < k.regCount - 8 → t.cur.reg r = k.reg r) ∧
      (¬ settled → ∃ t, Machine.exec .shrink s = .next t ∧ s.Waits t .shrink .shrink))

/-- R38, R39: GROW_GRANT gives the room of a quadrant to the skein that waits there in `grow`, and nothing without room while a skein
runs there; SWAP_IN brings a swapped-out skein, as its record says, back to the lowest free slot of its quadrant when its registers and
eight more fit, its `grow` done; both only while no older skein waits that could use the room. -/
def Claim.GrowGrants : Prop :=
  ∀ (s : State) (k : Skein) (w : Wait), s.sk? k.uid = some k → k ∈ s.skeins → k.growing = some w →
    (k.slot ≠ none → 2048 ≤ s.quadFree k.core k.quad → s.olderGrows k = false →
      (∀ x ∈ s.skeins, x.slot.isSome = true → x.core = k.core → x.quad = k.quad → x.growing.isSome = true → x = k) →
      ∃ t, Machine.exec (.growGrant k.core k.quad) s = .next t ∧ s.SkBecame t k.uid (k.endWait w).grown) ∧
    (∀ n ns r v, k.slot = none → s.readRecord k.uid = some r → r.uid = k.uid → r.core = k.core → r.quad = k.quad →
      r.replays = [] → r.growing = some v → (r.endWait v).growing = none → s.freeSlots k.core k.quad = n :: ns →
      256 * (k.regCount + 8) ≤ s.quadFree k.core k.quad → s.olderGrows k = false →
      ∃ t k', Machine.exec (.swapIn k.uid) s = .next t ∧ s.SkBecame t k.uid k' ∧ k'.slot = some n ∧
        k' = { (r.endWait v).grown with slot := k'.slot, age := k'.age, idleAt := k'.idleAt, saved := k'.saved }) ∧
    (s.quadFree k.core k.quad < 2048 →
      (∃ x ∈ s.skeins, x.slot.isSome = true ∧ x.core = k.core ∧ x.quad = k.quad ∧ x.growing = none) → Machine.exec (.growGrant k.core k.quad) s = .next s)

end Sys2Proof.Machine

/-- grow and shrink change the register count; grants in order. Readings and choices of the model it rests on: log 69. -/
def Obligations.RegisterCounts : Prop :=
  Machine.Claim.GrowAndShrink ∧ Machine.Claim.GrowGrants

/-! ### Handles and timelines -/

namespace Sys2Proof.Machine

/-- R277, R278, R285: with a passing lane `hwait` on a pending handle waits; on one that completed without a failure it acquires and
moves on; on a failure it raises kind 0x11 with the status and the failing address. An empty handle raises cause 0x0B, whatever the
guard (R164). `tlwait` moves on,
with the same acquire, once its timeline has reached the lowest passing lane's number, and waits till then. -/
def Claim.HandleWaits : Prop :=
  ∀ (g : Guard) (n : BitVec 3) (a : Reg) (s : State), s.Issuing →
    let h := (s.cur.hd.getD n.toNat 0).toNat
    let status := h / 2 ^ 48 % 256
    let some' := ∃ l, l < 32 ∧ s.passing g l = true
    (¬ some' → (2 ^ 63 ≤ h ∨ status ≠ 0xFF) → ∃ t, Machine.exec (.hwait g n) s = .next t ∧ s.Became t s.moved) ∧
    (some' → 2 ^ 63 ≤ h → ∃ t, Machine.exec (.hwait g n) s = .next t ∧ s.Waits t (.hwait n.toNat) (.hwait g n)) ∧
    (some' → h < 2 ^ 63 → status ∈ [0, 2, 6] → ∃ t, Machine.exec (.hwait g n) s = .next t ∧ s.SkAcquired t s.issue.sk s.moved) ∧
    (h < 2 ^ 63 → status = 0xFF → Machine.exec (.hwait g n) s = .next (s.takeTrap { kind := 1, cause := 0x0B })) ∧
    (some' → h < 2 ^ 63 → status ∈ [1, 3, 4, 5, 7, 8, 9] →
      Machine.exec (.hwait g n) s = .next (s.takeTrap
        { kind := 0x11, addr := ((s.hdOpOf s.cur n.toNat).map (·.failAddr)).getD 0, aux := n.setWidth 64
          code := BitVec.ofNat 8 status })) ∧
    (s.Clear [plain a] [] → ¬ some' → ∃ t, Machine.exec (.tlwait g n a) s = .next t ∧ s.Became t s.moved) ∧
    (s.Clear [plain a] [] → ∀ l, l < 32 → s.passing g l = true → (∀ j, j < l → s.passing g j = false) →
      let reached := (s.cur.read a l).toNat ≤ ((s.team s.cur.team).tl.getD n.toNat 0).toNat
      (reached → ∃ t, Machine.exec (.tlwait g n a) s = .next t ∧ s.SkAcquired t s.issue.sk s.moved) ∧
      (¬ reached → ∃ t, Machine.exec (.tlwait g n a) s = .next t ∧ s.Waits t (.tlwait n.toNat (s.cur.read a l)) (.tlwait g n a)))

/-- R285, R286: `htest` writes a handle's status and pending bit and pushes whether it is complete; `hcancel` never waits: it marks an
operation that has not completed as cancelled, a launch's grid likewise while its completion word is not written, and leaves anything
else as it is, a collective that every member has joined too. -/
def Claim.HandleTestAndCancel : Prop :=
  ∀ (g : Guard) (d : Reg) (n : BitVec 3) (s : State), s.Issuing →
    let h := (s.cur.hd.getD n.toNat 0).toNat
    let some' := ∃ l, l < 32 ∧ s.passing g l = true
    let ended := fun (o : EngineOp) => o.done = true ∨ o.kind = .evict
    (s.Clear [] [d] → ¬ some' → ∃ t, Machine.exec (.htest g d n) s = .next t ∧ s.Became t s.moved) ∧
    (s.Clear [] [d] → some' → ∃ t, Machine.exec (.htest g d n) s = .next t ∧ s.Wrote t
      { pass := s.passing g, dst := some d, tag := .uniform
        val := fun _ => BitVec.ofNat 64 (h / 2 ^ 48 % 256 + 256 * (h / 2 ^ 63)), push := fun _ => some (decide (h < 2 ^ 63)) }) ∧
    (¬ some' ∨ s.hdOpOf s.cur n.toNat = none → ∃ t, Machine.exec (.hcancel g n) s = .next t ∧ s.Became t s.moved) ∧
    (some' → ∀ o, s.hdOpOf s.cur n.toNat = some o →
      (ended o → ∃ t, Machine.exec (.hcancel g n) s = .next t ∧ s.Became t s.moved) ∧
      (o.done = false → o.kind = .launch → ∃ t, Machine.exec (.hcancel g n) s = .next t ∧
        { s with grids := s.grids.map fun (x : Grid) => if x.op = o.uid ∧ x.word = none then { x with cancelled := true } else x }.Became t s.moved) ∧
      (o.done = false → (∃ q f, o.kind = .coll q f) → (o.ready = true ∨ o.members ≤ o.heard.length) →
        (∀ x ∈ s.ops, x.uid = o.uid → x = o) → ∃ t, Machine.exec (.hcancel g n) s = .next t ∧ s.Became t s.moved) ∧
      (o.done = false → o.kind ≠ .launch → o.kind ≠ .evict →
        ((∃ q f, o.kind = .coll q f) → o.ready = false ∧ o.heard.length < o.members) → (∀ x ∈ s.ops, x.uid = o.uid → x = o) → ∃ t, Machine.exec (.hcancel g n) s = .next t ∧
        { s with ops := s.ops.map fun (x : EngineOp) => if x.uid = o.uid then { x with cancel := true } else x }.Became t s.moved))

/-- R109, R277: OPERATION_COMPLETE of an operation that has a status, with all it wrote visible and no group of its team waiting: it
is done, the handles that name it show its status and number, no longer pending, and its timeline stands below the first operation
of it that has not completed; of a collective that fails of its own or is withdrawn the members are told. Before that it changes
nothing. -/
def Claim.OperationCompletes : Prop :=
  ∀ (s : State) (o : EngineOp) (st : Byte), s.op? o.uid = some o → o.verdict = some st →
    (s.opVisible o = false → Machine.exec (.operationComplete o.uid) s = .next s) ∧
    (s.opVisible o = true → (∀ q f, o.kind = .coll q f → st ∉ [1, 2, 8]) → (∀ k ∈ s.skeins, k.team = o.team → k.waits = []) →
      ∃ t, Machine.exec (.operationComplete o.uid) s = .next t ∧
        t = { s with ops := t.ops, teams := t.teams, skeins := t.skeins } ∧
        t.op? o.uid = some { o with status := st, done := true, ready := true, held := none } ∧
        (∀ v, v ≠ o.uid → t.op? v = s.op? v) ∧
        (∀ u k, s.sk? u = some k → ∃ k', t.sk? u = some k' ∧ k' = { k with hd := k'.hd } ∧ ∀ i, i < 8 →
          k'.hd.getD i 0 = if k.hdOp.getD i none = some o.uid then handleWord false o.tl st o.num else k.hd.getD i 0) ∧
        ∀ tm, s.team? o.team = some tm → o.tl < 8 → ∃ tm', t.team? o.team = some tm' ∧ tm' = { tm with tl := tm'.tl } ∧
          ((∀ x ∈ s.ops, x.team = o.team → x.tl = o.tl → x.uid ≠ o.uid → x.done = true) →
            tm'.tl.getD o.tl 0 = BitVec.ofNat 64 (tm.tlIssued.getD o.tl 0))) ∧
    (s.opVisible o = true → (∃ q f, o.kind = .coll q f) → st ∈ [1, 2, 8] →
      ∃ t, Machine.exec (.operationComplete o.uid) s = .next t ∧ t.mem = s.mem ∧
        t.op? o.uid = some { o with status := st, done := true, ready := true, held := none } ∧ ∀ v, v ≠ o.uid → t.op? v = s.op? v)

end Sys2Proof.Machine

/-- hwait, htest and hcancel by a handle's state; operations complete. Readings and choices of the model it rests on: log 19, 25. -/
def Obligations.Handles : Prop :=
  Machine.Claim.HandleWaits ∧ Machine.Claim.HandleTestAndCancel ∧ Machine.Claim.OperationCompletes

/-! ### System registers, traps and returns -/

namespace Sys2Proof.Machine

/-- R293, R294: `sysr` writes the register its number names in each passing lane; of a pending handle it waits, of a complete one it
acquires; with no passing lane it moves on, and a number R294 does not list raises cause 0x0B. -/
def Claim.SystemReads : Prop :=
  ∀ (g : Guard) (d : Reg) (num : BitVec 12) (s : State), s.Issuing → s.Clear [] [d] →
    let n := num.toNat
    let some' := ∃ l, l < 32 ∧ s.passing g l = true
    let later := { s with freeCtr := s.freeCtr + 1 }
    let eff : LaneEff := { pass := s.passing g, dst := some d, tag := .uniform, val := fun l => (s.sysReg n l).getD 0 }
    (s.sysReg n 0 = none → Machine.exec (.sysr g d num) s = .next (s.takeTrap { kind := 1, cause := 0x0B })) ∧
    (s.sysReg n 0 ≠ none → ¬ some' → ∃ t, Machine.exec (.sysr g d num) s = .next t ∧ s.Became t s.moved) ∧
    (s.sysReg n 0 ≠ none → some' → (n < 0x18 ∨ 0x20 ≤ n) →
      ∃ t, Machine.exec (.sysr g d num) s = .next t ∧ later.Wrote t eff) ∧
    (0x18 ≤ n → n < 0x20 → some' → 2 ^ 63 ≤ (s.cur.hd.getD (n - 0x18) 0).toNat →
      ∃ t, Machine.exec (.sysr g d num) s = .next t ∧ s.Waits t (.sysr (n - 0x18)) (.sysr g d num)) ∧
    (0x18 ≤ n → n < 0x20 → some' → (s.cur.hd.getD (n - 0x18) 0).toNat < 2 ^ 63 →
      ∃ t u, Machine.exec (.sysr g d num) s = .next t ∧ later.Wrote u eff ∧ u.SkAcquired t s.issue.sk u.cur)

/-- R294: what the system registers read: time, seep life, lease, the alteration control word, link, thread, skein and team numbers,
the grid's counts and parameter, register count, context, trap state, queue, timeline and handle words. -/
def Claim.SystemRegisterValues : Prop :=
  ∀ (s : State) (l i : Nat), i < 8 →
    let k := s.cur
    let t := s.team k.team
    let u := fun (n : Nat) => some (BitVec.ofNat 64 n : Lane)
    s.sysReg 0x000 l = u (s.nowAt (clusterOf k.core)) ∧ s.sysReg 0x001 l = u Config.seepLife ∧
    s.sysReg 0x002 l = u (s.ctx k.ctx).lease ∧ s.sysReg 0x004 l = some (s.ctx k.ctx).altctl ∧
    s.sysReg 0x006 l = some (k.thread l).link ∧ s.sysReg (0x008 + i) l = some (t.qw.getD i 0) ∧
    s.sysReg (0x018 + i) l = some (k.hd.getD i 0) ∧ s.sysReg (0x020 + i) l = some (t.tl.getD i 0) ∧
    s.sysReg 0x030 l = u (32 * k.index + l) ∧ s.sysReg 0x031 l = u k.index ∧
    (k.conductor = false → s.sysReg 0x032 l = u t.index) ∧
    (∀ g, s.gridOf t = some g → s.sysReg 0x033 l = u g.count ∧ s.sysReg 0x034 l = u g.size ∧ s.sysReg 0x035 l = some g.param ∧
      s.sysReg 0x036 l = u g.depth) ∧
    s.sysReg 0x037 l = u k.regCount ∧ s.sysReg 0x038 l = u k.ctx ∧ s.sysReg 0x040 l = some k.flt ∧
    s.sysReg 0x041 l = some k.fltpc ∧ s.sysReg 0x042 l = some k.fltaddr ∧ s.sysReg 0x043 l = some k.fltlanes ∧
    s.sysReg 0x044 l = some k.fltaux ∧ ∀ n, 0x045 ≤ n → s.sysReg n l = none

/-- R293, R294: `sysw` of sys.link sets each passing lane's link; of the others the lowest passing lane's value: the lease between 1 and
256, a queue word, in a handler the RES field of sys.flt and sys.fltpc. A register its skein may not write, a lease out of range and a
change of another field of sys.flt raise cause 0x0B. -/
def Claim.SystemWrites : Prop :=
  ∀ (g : Guard) (a : Reg) (num : BitVec 12) (s : State), s.Issuing → s.Clear [plain a] [] →
    ∀ l, l < 32 → s.passing g l = true → (∀ j, j < l → s.passing g j = false) →
    let v := s.cur.read a l
    let n := num.toNat
    let ill := Machine.exec (.sysw g num a) s = .next (s.takeTrap { kind := 1, cause := 0x0B })
    (n = 0x006 → ∃ t, Machine.exec (.sysw g num a) s = .next t ∧ s.Steered t fun l =>
      let x := if s.passing g l then { s.cur.thread l with link := s.cur.read a l } else s.cur.thread l
      if s.executing l then s.issue.past x else x) ∧
    (n = 0x002 → 1 ≤ v.toNat → v.toNat ≤ 256 → ∃ t, Machine.exec (.sysw g num a) s = .next t ∧
      (s.updCtx s.cur.ctx fun c => { c with lease := v.toNat }).Became t s.moved) ∧
    (n = 0x002 → (v.toNat = 0 ∨ 256 < v.toNat) → ill) ∧
    (n ∈ [0x003, 0x004] → s.cur.conductor = false → ill) ∧
    (n ∈ [0x040, 0x041] → s.cur.handler = none → ill) ∧
    (∀ h, n = 0x041 → s.cur.handler = some h → ∃ t, Machine.exec (.sysw g num a) s = .next t ∧
      s.Became t { s.moved with fltpc := v, handler := some { h with pcSet := true } }) ∧
    (∀ h, n = 0x040 → s.cur.handler = some h → v.toNat % 2 ^ 34 = s.cur.flt.toNat % 2 ^ 34 → v.toNat / 2 ^ 36 = s.cur.flt.toNat / 2 ^ 36 →
      ∃ t, Machine.exec (.sysw g num a) s = .next t ∧ s.Became t { s.moved with flt := v }) ∧
    (∀ h, n = 0x040 → s.cur.handler = some h →
      (v.toNat % 2 ^ 34 ≠ s.cur.flt.toNat % 2 ^ 34 ∨ v.toNat / 2 ^ 36 ≠ s.cur.flt.toNat / 2 ^ 36) → ill) ∧
    (∀ i, i < 8 → n = 0x008 + i → (∃ x ∈ s.teams, x.uid = s.cur.team) → s.queueWaited s.cur.team i = false →
      v.toNat < 2 ^ 34 → v.toNat % 8 = 0 → v.toNat / 2 ^ 19 % 2 ^ 13 ≤ 4096 →
      v.toNat % 2 ^ 19 + v.toNat / 2 ^ 19 % 2 ^ 13 * 2 ^ (v.toNat / 2 ^ 32 % 4) ≤ (s.team s.cur.team).scratchBytes →
      ∃ t, Machine.exec (.sysw g num a) s = .next t ∧ { s with teams := t.teams }.Became t s.moved ∧
        ∀ j, j < 8 → (t.team s.cur.team).qw.getD j 0 = (if j = i then v else (s.team s.cur.team).qw.getD j 0) ∧
          (t.team s.cur.team).qhead.getD j 0 = if j = i then 0 else (s.team s.cur.team).qhead.getD j 0)

/-- R289: SLEW_ARRIVAL puts the oldest write of sys.slew on its way to a cluster there, and takes it off the way. -/
def Claim.SlewArrives : Prop :=
  ∀ (c part : Nat) (v : Lane) (s : State) (at' : Nat), s.partOfCluster c = part →
    (s.part part).slewWrites.find? (fun w => w.1 == c) = some (c, at', v) →
    ∃ t, Machine.exec (.slewArrival c) s = .next t ∧ t.slew c = v ∧ (∀ d, d ≠ c → t.slew d = s.slew d) ∧
      (t.part part).slewWrites = (s.part part).slewWrites.erase (c, at', v) ∧ t.skeins = s.skeins ∧ t.mem = s.mem

end Sys2Proof.Machine

/-- sysr reads and sysw writes the system registers; slew writes arrive. Readings and choices of the model it rests on: log 19, 25, 49, 51. -/
def Obligations.SystemRegisters : Prop :=
  Machine.Claim.SystemReads ∧ Machine.Claim.SystemRegisterValues ∧ Machine.Claim.SystemWrites ∧ Machine.Claim.SlewArrives

namespace Sys2Proof.Machine

/-- R349, R350: a trap taken while no handler runs, with trace kind 0x32 off: the trap registers hold the kind, cause, code and count,
the PC, the address, the lanes and the auxiliary word; the trapped group stands at TRAPPC outside any region; everything the trap
hides is kept; and nothing else changes. -/
def Claim.TrapEntry : Prop :=
  ∀ (x : Trap) (s : State), s.Issuing → s.cur.handler = none → (s.ctx s.cur.ctx).dbg.tren.getLsbD 1 = false → x.pop = false →
    x.clear = none →
    let i := s.issue
    let t := s.takeTrap x
    let h : Hidden := { lanes := i.mask, threads := s.cur.threads, susp := s.cur.susp, nextIdx := s.cur.repNext, issue := i }
    s.OnlyCur t ∧
    t.cur = { s.cur with flt := t.cur.flt, fltpc := (match x.pc with | some p => p | none => i.pc), fltaddr := x.addr
                         fltlanes := BitVec.ofNat 64 (match x.lanes with | some m => m | none => i.mask).toNat, fltaux := x.aux
                         handler := some h, susp := false, repNext := 0, block := none, threads := t.cur.threads } ∧
    t.cur.flt.toNat = x.kind.toNat + 2 ^ 8 * x.cause.toNat + 2 ^ 16 * x.code.toNat + 2 ^ 30 * min x.left 15 + 2 ^ 34 * x.res.toNat ∧
    ∀ l, l < 32 →
      let th := { s.cur.thread l with repMark := false }
      t.cur.thread l = if s.executing l then
        { th with pc := (s.ctx s.cur.ctx).trapPc, clause := none, region := none, rep := none, waiting := none } else th

/-- R352: a trap taken while a handler runs stops the skein where it stands: nothing of the trap state, no register, no thread
changes, and the skein stays escalated at its instruction. -/
def Claim.TrapEscalates : Prop :=
  ∀ (x : Trap) (s : State), s.Issuing → s.cur.handler ≠ none →
    (s.takeTrap x).cur = { s.cur with escalated := some s.issue } ∧ ∀ u, u ≠ s.issue.sk → (s.takeTrap x).sk? u = s.sk? u

/-- R295, R351: `tret` ends the handler: the hidden repeat state comes back; each trapped thread still live resumes: with RES 1 past the
instruction and out of a repetition of it, with RES 2 after its clause, with RES 3 exited, else where it stood, or at sys.fltpc when the handler wrote it (no synchronising instruction that waits being completed by it). Without a
handler it raises cause 0x0B, not last in its clause cause 0x08, with a written PC that is no multiple of 4 kind 5. -/
def Claim.TrapReturn : Prop :=
  ∀ (s : State), s.Issuing →
    (s.issue.last = false → Machine.exec .tret s = .next (s.takeTrap { kind := 1, cause := 0x08 })) ∧
    (s.issue.last = true → s.cur.handler = none → Machine.exec .tret s = .next (s.takeTrap { kind := 1, cause := 0x0B })) ∧
    (∀ h, s.issue.last = true → s.cur.handler = some h →
      let res := s.cur.flt.toNat / 2 ^ 34 % 4
      let kind := s.cur.flt.toNat % 256
      (h.pcSet = true → s.cur.fltpc.toNat % 4 ≠ 0 →
        Machine.exec .tret s = .next (s.takeTrap { kind := 5, addr := s.cur.fltpc })) ∧
      ((h.pcSet = true → s.cur.fltpc.toNat % 4 = 0) → (res = 3 → s.cur.unacked = 0 ∧ s.cur.faultQ = []) → h.counted = none →
        (∀ n, n < 8 → ((s.team s.cur.team).cvAt n).state ≠ 1) →
        (∀ w ∈ s.cur.waits, ∀ m, w.kind = .sync m → ∃ l, l < 32 ∧ m.getLsbD l = true ∧ (s.cur.thread l).exited = false ∧
          if h.lanes.getLsbD l then res ≠ 3 else (s.cur.thread l).waiting = none) →
        ∃ t, Machine.exec .tret s = .next t ∧ t.cur.handler = none ∧ t.cur.susp = h.susp ∧ t.cur.repNext = h.nextIdx ∧
          t.cur.regs = s.cur.regs ∧ t.mem = s.mem ∧
          ∀ l, l < 32 →
            let was := h.threads.getD l {}
            let now := s.cur.thread l
            let back := { now with region := was.region, repMark := was.repMark, rep := was.rep, clause := was.clause, pc := was.pc
                                   waiting := none, yielded := was.yielded }
            t.cur.thread l =
              if now.exited then now
              else if h.lanes.getLsbD l = false then { now with repMark := was.repMark }
              else if res = 3 then { back with exited := true }
              else if h.pcSet then { back with pc := s.cur.fltpc, clause := none, rep := none, repMark := false }
              else if res = 1 then
                { { h.issue with rep := none }.past back with repMark := was.repMark && !h.issue.last }
              else if res = 2 then { back with pc := h.issue.follow, clause := none, rep := none, repMark := false }
              else if kind = 2 ∨ kind = 10 then { back with pc := s.cur.fltpc, clause := none }
              else back))

end Sys2Proof.Machine

/-- Taking a trap saves and moves what the rules say, escalates in a handler, and tret returns. Readings and choices of the model it rests on: log 52, 77. -/
def Obligations.TrapsTakenAndReturned : Prop :=
  Machine.Claim.TrapEntry ∧ Machine.Claim.TrapEscalates ∧ Machine.Claim.TrapReturn

/-- R165: the opcodes the map reserves raise cause 0x01, under any word; every other word either is an instruction or has a cause of
its own. -/
def Obligations.ReservedOpcodes : Prop :=
  ∀ (w : Word) (e : Es) (x : Word) (s : State),
    (Word.opcode w ∈ [0x00, 0x37, 0x47, 0x4E, 0x4F, 0x7F] → ∃ i, decodeWord e w x = .ok i ∧
      Machine.exec i s = .next (s.takeTrap { kind := 1, cause := 0x01 })) ∧
    (Word.opcode w ∉ [0x00, 0x37, 0x47, 0x4E, 0x4F, 0x7F] →
      (∃ i, decodeWord e w x = .ok i ∧ i ≠ .unassignedOpcode w) ∨
      ∃ c ∈ [Cause.badGuard, .badM, .reserved, .badFunction, .range], decodeWord e w x = .error c) ∧
    Machine.exec (.unassignedOpcode w) s = .next (s.takeTrap { kind := 1, cause := 0x01 })

/-! ### Matrix operations and panels -/

namespace Sys2Proof.Machine

/-- R308, R168: registers an instruction may use whole: none read or written pending, none written held, none read poisoned. -/
structure State.Settled (s : State) (srcs dsts : List Nat) : Prop where
  landed : ∀ r ∈ srcs ++ dsts, s.cur.pendingBy r = none
  free   : ∀ r ∈ dsts, s.cur.heldBy r = none
  sound  : ∀ r ∈ srcs, (s.cur.reg r).poison = 0

/-- The registers n fields from one on resolve to, over all lanes (R257). -/
def State.wholeFrom (s : State) (f : Reg) (n : Nat) : List Nat :=
  (List.range n).flatMap fun i => (List.range 32).map fun l => s.cur.resolve l (BitVec.ofNat 6 (f.toNat + i))

/-- Some lane passes the guard. -/
def State.Some (s : State) (g : Guard) : Prop := ∃ l, l < 32 ∧ s.passing g l = true

/-- R258: an accumulator of the issuing skein's core as its team may name it: no other live team's, and no operation pending on it. -/
def State.AccFree (s : State) (q n : Nat) : Prop := s.accTaken (s.acc s.cur.core q n) = false

/-- Word j of row i of an accumulator lies in the registers from a field on: 32 bits of lane j / 2 of register i (R269). -/
def State.wordIn (s : State) (f : Reg) (i j : Nat) : Nat := elt 32 (s.cur.read (BitVec.ofNat 6 (f.toNat + i)) (j / 2)) (j % 2)

/-- R258, R269, R270: `macc.from` copies the accumulator of the skein's quadrant to sixteen registers, `macc.to` writes it from
them, `mzero` clears it; the last two make it the team's. With no passing lane they only move on. -/
def Claim.AccumulatorMoves : Prop :=
  ∀ (g : Guard) (f : Reg) (n : BitVec 2) (s : State), s.Issuing → s.cur.regCount ≤ 64 → s.AccFree s.cur.quad n.toNat →
    let a := s.myAcc n.toNat
    let mine := fun (b : Acc) => b.owner = some s.cur.team ∧ b.ownerCtx = some s.cur.ctx
    let others := fun (t : State) => ∀ c q m, (c, q, m) ≠ (s.cur.core, s.cur.quad, n.toNat) → t.acc c q m = s.acc c q m
    a.pending = [] →
    (f.toNat + 16 ≤ s.cur.regCount → s.Settled [] (s.wholeFrom f 16) →
      (¬ s.Some g → ∃ t, Machine.exec (.maccFrom g f n) s = .next t ∧ s.Became t s.moved) ∧
      (s.Some g → (∀ l, l < 32 → (s.cur.thread l).region = none) →
        ∃ t, Machine.exec (.maccFrom g f n) s = .next t ∧ s.OnlyCur t ∧ s.MovedOn t ∧
        t.cur = { s.cur with regs := t.cur.regs, threads := t.cur.threads } ∧
        (∀ i j, i < 16 → j < 64 → elt 32 (t.cur.lane (f.toNat + i) (j / 2)) (j % 2) = (a.at' i j).toNat) ∧
        ∀ r, r < 64 → r < f.toNat ∨ f.toNat + 16 ≤ r → t.cur.reg r = s.cur.reg r)) ∧
    (f.toNat + 16 ≤ s.cur.regCount → s.Settled (s.wholeFrom f 16) [] →
      (¬ s.Some g → ∃ t, Machine.exec (.maccTo g f n) s = .next t ∧ s.Became t s.moved) ∧
      (s.Some g → ∃ t, Machine.exec (.maccTo g f n) s = .next t ∧ { s with accs := t.accs }.Became t s.moved ∧
        mine (t.acc s.cur.core s.cur.quad n.toNat) ∧ others t ∧
        ∀ i j, i < 16 → j < 64 → ((t.acc s.cur.core s.cur.quad n.toNat).at' i j).toNat = s.wordIn f i j)) ∧
    ((¬ s.Some g → ∃ t, Machine.exec (.mzero g (n.setWidth 6)) s = .next t ∧ s.Became t s.moved) ∧
      (s.Some g → ∃ t, Machine.exec (.mzero g (n.setWidth 6)) s = .next t ∧ { s with accs := t.accs }.Became t s.moved ∧
        mine (t.acc s.cur.core s.cur.quad n.toNat) ∧ others t ∧
        ∀ i j, (t.acc s.cur.core s.cur.quad n.toNat).at' i j = 0))

/-- R259, R269: an accumulator another live team owns raises cause 0x0B; one an operation is pending on raises kind 7 naming it. -/
def Claim.AccumulatorTraps : Prop :=
  ∀ (g : Guard) (f : Reg) (n : BitVec 2) (s : State), s.Issuing → f.toNat + 16 ≤ s.cur.regCount → s.Settled [] (s.wholeFrom f 16) →
    (s.accTaken (s.myAcc n.toNat) = true →
      Machine.exec (.maccFrom g f n) s = .next (s.takeTrap { kind := 1, cause := 0x0B }) ∧
      Machine.exec (.maccTo g f n) s = .next (s.takeTrap { kind := 1, cause := 0x0B }) ∧
      Machine.exec (.mzero g (n.setWidth 6)) s = .next (s.takeTrap { kind := 1, cause := 0x0B })) ∧
    (s.AccFree s.cur.quad n.toNat → (s.myAcc n.toNat).pending ≠ [] →
      ∀ i ∈ [Instr.maccFrom g f n, .maccTo g f n, .mzero g (n.setWidth 6)],
        Machine.exec i s = .next (s.takeTrap { kind := 7, aux := BitVec.ofNat 64 (128 + n.toNat) }))

end Sys2Proof.Machine

/-- macc and mzero move and clear an accumulator; their traps. Readings and choices of the model it rests on: log 42. -/
def Obligations.Accumulators : Prop :=
  Machine.Claim.AccumulatorMoves ∧ Machine.Claim.AccumulatorTraps

namespace Sys2Proof.Machine

/-- R260, R261: `mcfg` opens an idle convergence register: signing, with the declaration of its extension word, to be signed by
every live thread of the mask's lanes in the four skeins of its set; and the four accumulators it names become the team's, pending
on the new operation. With no passing lane it only moves on. An empty mask raises cause 0x0A, a register not idle or an accumulator
of another live team cause 0x0B. -/
def Claim.MatrixDeclaration : Prop :=
  ∀ (g : Guard) (n : Reg) (m : MaskSrc) (e : McfgExt) (tm : Team) (s : State),
    s.Issuing → s.Clear (maskRegs m) [] → s.team? s.cur.team = some tm → n.toNat < 8 → e.cls ≠ 3 →
    4 * e.sb.toNat + 4 ≤ (tm.size + 31) / 32 →
    let i := Instr.mcfg g n m e
    let mask := s.declMask g m
    let open' := (tm.cvAt n.toNat).state = 0 ∧ ∀ q, q < 4 → s.AccFree q e.acc.toNat
    let set := fun (x : Nat × Nat) => ∃ k ∈ s.skeins, k.team = s.cur.team ∧ 4 * e.sb.toNat ≤ k.index ∧ k.index < 4 * e.sb.toNat + 4 ∧
      x.1 = k.uid ∧ x.2 < 32 ∧ (k.thread x.2).exited = false ∧ mask.getLsbD x.2 = true
    (¬ s.Some g → open' → ∃ t, Machine.exec i s = .next t ∧ s.Became t s.moved) ∧
    (s.Some g → mask = 0 → Machine.exec i s = .next (s.takeTrap { kind := 1, cause := 0x0A })) ∧
    ((s.Some g → mask ≠ 0) → ¬ open' → Machine.exec i s = .next (s.takeTrap { kind := 1, cause := 0x0B })) ∧
    (s.Some g → mask ≠ 0 → open' → (∃ x, set x) →
      ∃ t c, Machine.exec i s = .next t ∧ { s with idCtr := s.idCtr + 1, teams := t.teams, accs := t.accs }.Became t s.moved ∧
        t.team? s.cur.team = some { tm with cv := (t.team s.cur.team).cv } ∧ (∀ v, v ≠ s.cur.team → t.team? v = s.team? v) ∧
        (∀ j, j < 8 → (t.team s.cur.team).cvAt j = if j = n.toNat then c else tm.cvAt j) ∧
        c.state = 1 ∧ c.fail = false ∧ c.done = 0 ∧ c.signed = [] ∧ c.signs = [] ∧ c.uid = s.idCtr ∧
        c.decl.toNat = 8 * (if m = .full then 1 else 0) + 16 * e.z.toNat + 32 * e.int.toNat + 2 ^ 6 * e.cls.toNat + 2 ^ 8 * e.sb.toNat +
          2 ^ 11 * e.prio.toNat + 2 ^ 13 * e.passes.toNat + 2 ^ 16 * e.acc.toNat ∧
        (∀ x, x ∈ c.unsigned ↔ set x) ∧
        ∀ k q a, t.acc k q a = if k = s.cur.core ∧ q < 4 ∧ a = e.acc.toNat then
          { (s.acc k q a).claim s.cur.team s.cur.ctx with pending := (s.acc k q a).pending ++ [s.idCtr] } else s.acc k q a)

/-- R262, R263, R264: `msign` of the threads of a skein that have not signed: with headers of the declared class and kind they are
no longer awaited; the first of its skein to sign holds its panels' registers, and records registers and headers. When the last
thread of the set has signed, an operation with four signing skeins stands in line for the engine, and any other has failed. A
register not signing, a thread that may not sign, other registers than the skein's first signature raise cause 0x0B, a header that
does not fit cause 0x0A. -/
def Claim.MatrixSigning : Prop :=
  ∀ (n a b c : Reg) (tm : Team) (s : State) (l0 : Nat), s.Issuing → s.team? s.cur.team = some tm → n.toNat < 8 →
    lowest s.executing = some l0 →
    let i := Instr.msign n a b c
    let cv := tm.cvAt n.toNat
    let P := declPasses cv.decl
    let phys := fun (f : Reg) (m : Nat) => (List.range m).map fun x => s.cur.resolve l0 (BitVec.ofNat 6 (f.toNat + x))
    let ra := phys a (4 * P)
    let rb := phys b (4 * P)
    let rc := phys c ((P + 3) / 4)
    let ill := fun (x : BitVec 8) => Machine.exec i s = .next (s.takeTrap { kind := 1, cause := x })
    let first := ∀ x ∈ cv.signs, x.sk ≠ s.cur.uid
    let same := ∀ x ∈ cv.signs, x.sk = s.cur.uid → x.a = ra ∧ x.b = rb ∧ x.c = rc
    let awaited := ∀ l, l < 32 → s.executing l = true → (s.cur.uid, l) ∈ cv.unsigned
    let lanes := s.cur.headerLanes c P
    let good := ∀ p, p < P → ∀ h ∈ headerWords (declCls cv.decl) ((lanes.drop (8 * p)).take 8),
      headerFits (declCls cv.decl) (declInt cv.decl) h = true
    a.toNat + 4 * P ≤ s.cur.regCount → b.toNat + 4 * P ≤ s.cur.regCount → c.toNat + (P + 3) / 4 ≤ s.cur.regCount →
    s.Settled (ra ++ rb ++ rc) [] →
    (cv.state ≠ 1 ∨ ¬ awaited ∨ ¬ same → ill 0x0B) ∧
    (cv.state = 1 → awaited → same → ¬ good → ill 0x0A) ∧
    (cv.state = 1 → awaited → same → good → s.Room (decide first) (decide first) →
      let left := cv.unsigned.filter fun x => !(x.1 == s.cur.uid && s.executing x.2)
      let signs := cv.signs ++ if first then [⟨s.cur.uid, s.cur.quad, ra, rb, rc, lanes, s.idCtr⟩] else []
      ∃ t, Machine.exec i s = .next t ∧ t.mem = s.mem ∧
        (left ≠ [] ∨ signs.length = 4 → t.cur.regs = s.cur.regs) ∧
        (left ≠ [] →
          (t.team s.cur.team).cvAt n.toNat = { cv with unsigned := left, signs := signs
                                                       signed := ((t.team s.cur.team).cvAt n.toNat).signed } ∧
          t.cur = { s.moved with ops := t.cur.ops, flags := t.cur.flags } ∧
          (¬ first → t.cur.ops = s.cur.ops ∧ t.cur.flags = s.cur.flags) ∧
          (first → ∃ o, t.cur.ops = s.cur.ops ++ [o] ∧ o.id = s.idCtr ∧ o.matrix = true ∧ o.pend = [] ∧
            ∀ r, r ∈ o.held ↔ r ∈ ra ++ rb)) ∧
        (left = [] → signs.length = 4 →
          ((t.team s.cur.team).cvAt n.toNat).state = 2 ∧ ∃ x ∈ t.mats, x.core = tm.core ∧ x.team = s.cur.team ∧ x.cv = n.toNat ∧
            x.running = false ∧ x.prio = declPrio cv.decl ∧ x.acc = declAcc cv.decl ∧ x.declared = cv.uid) ∧
        (left = [] → signs.length ≠ 4 →
          ((t.team s.cur.team).cvAt n.toNat).state = 0 ∧ ((t.team s.cur.team).cvAt n.toNat).fail = true))

end Sys2Proof.Machine

/-- mcfg declares and msign signs a matrix operation. Readings and choices of the model it rests on: log 28, 42. -/
def Obligations.MatrixRequests : Prop :=
  Machine.Claim.MatrixDeclaration ∧ Machine.Claim.MatrixSigning

namespace Sys2Proof.Machine

/-- R265: MATRIX_PASS_GRANT starts, on an idle engine, the next pass of the operation of the highest priority that may run, of equal
ones the one that entered the table first, for 16 cycles of its cluster; with an engine at work or none to run it changes nothing. -/
def Claim.MatrixGrant : Prop :=
  ∀ (core : Nat) (s : State),
    ((∃ m ∈ s.mats, m.core = core ∧ m.running = true) ∨ (∀ m ∈ s.mats, m.core = core → s.grantable m = false) →
      Machine.exec (.matrixPassGrant core) s = .next s) ∧
    ∀ m ∈ s.mats, m.core = core → (∀ x ∈ s.mats, x.core = core → x.running = false) → s.grantable m = true →
      (∀ x ∈ s.mats, x.prio ≤ 3 ∧ x.order < 2 ^ 64) →
      (∀ x ∈ s.mats, x.core = core → s.grantable x = true → x = m ∨ x.prio < m.prio ∨ (x.prio = m.prio ∧ m.order < x.order)) →
      ∃ t, Machine.exec (.matrixPassGrant core) s = .next t ∧ t = { s with mats := t.mats, teams := t.teams } ∧
        t.mats = s.mats.map (fun x => if x = m then
          { m with running := true, ends := s.now + s.cycleTicks (clusterOf core) 16 } else x) ∧
        ∀ tm, s.team? m.team = some tm → ∃ tm', t.team? m.team = some tm' ∧ tm' = { tm with cv := tm'.cv } ∧
          ∀ j, j < 8 → tm'.cvAt j = if j = m.cv then { tm.cvAt j with state := 3 } else tm.cvAt j

/-- The signature of a quadrant's skein. -/
def Cv.signOf (c : Cv) (q : Nat) : Option Sign := c.signs.find? fun x => x.quad == q

/-- R263: the panels of one side of a quadrant at pass p, in ascending K: from its four registers of that pass and its header lanes. -/
def State.panelsOf (s : State) (c : Cv) (p q : Nat) (b : Bool) : List (List Elt) :=
  match c.signOf q with
  | none => []
  | some g =>
    let regs := (List.range 4).map fun i => (s.sk g.sk).physBytes ((((if b then g.b else g.a).drop (4 * p)).take 4).getD i 0)
    let hs := (List.range 4).map fun i => g.headers.getD (8 * p + (if b then 4 else 0) + i) 0
    sidePanels (declCls c.decl) regs hs

/-- R263, R266: MATRIX_PASS_END of a pass that is not the last adds to each of the 16 × 64 elements of each quadrant's accumulator
the products of its row of the quadrant's own A and its column of the B of quadrant j / 16, K group after K group, from zero when the
declaration says so at the first pass; the convergence register counts the pass; nothing else changes but the engine being idle. -/
def Claim.MatrixPass : Prop :=
  ∀ (core : Nat) (m : MatEntry) (tm : Team) (s : State),
    s.mats.find? (fun x => x.core == core && x.running && decide (x.ends ≤ s.now)) = some m → s.team? m.team = some tm → m.cv < 8 →
    let c := tm.cvAt m.cv
    let p := c.done.toNat
    (∀ q, q < 4 → ∃ g, c.signOf q = some g ∧ 4 * p + 4 ≤ g.a.length ∧ 4 * p + 4 ≤ g.b.length) →
    p + 1 < declPasses c.decl →
    let at' := fun q i j => if p = 0 ∧ declZ c.decl = true then 0 else (s.acc tm.core q (declAcc c.decl)).at' i j
    ∃ t, Machine.exec (.matrixPassEnd core) s = .next t ∧ t = { s with mats := t.mats, teams := t.teams, accs := t.accs } ∧
      t.mats = s.mats.map (fun x => if x = m then { x with running := false } else x) ∧
      (∃ tm', t.team? m.team = some tm' ∧ tm' = { tm with cv := tm'.cv } ∧
        ∀ j, j < 8 → tm'.cvAt j = if j = m.cv then { c with done := BitVec.ofNat 4 (p + 1) } else tm.cvAt j) ∧
      (∀ k q n, (k ≠ tm.core ∨ 4 ≤ q ∨ n ≠ declAcc c.decl) → t.acc k q n = s.acc k q n) ∧
      ∀ q i j, q < 4 → i < 16 → j < 64 →
        let row := (s.panelsOf c p q false).flatMap fun P => (List.range 16).map fun x => P.getD (16 * i + x) (.i 0)
        let col := (s.panelsOf c p (j / 16) true).flatMap fun P => (List.range 16).map fun x => P.getD (16 * x + j % 16) (.i 0)
        (t.acc tm.core q (declAcc c.decl)).at' i j = passElt (declCls c.decl) (declInt c.decl) (at' q i j) (row.zip col)

/-- R266, R264: after the last pass the operation has ended: the register is idle without failure and counts every pass, the entry is
gone, no accumulator is pending on it, and no register of its signers is held by it. -/
def Claim.MatrixEnds : Prop :=
  ∀ (core : Nat) (m : MatEntry) (tm : Team) (s : State),
    s.mats.find? (fun x => x.core == core && x.running && decide (x.ends ≤ s.now)) = some m → s.team? m.team = some tm → m.cv < 8 →
    let c := tm.cvAt m.cv
    declPasses c.decl ≤ c.done.toNat + 1 → (∀ k ∈ s.skeins, k.waits = []) →
    ∃ t, Machine.exec (.matrixPassEnd core) s = .next t ∧ (∀ x ∈ t.mats, x.team = m.team → x.cv ≠ m.cv) ∧
      ((t.team m.team).cvAt m.cv).state = 0 ∧ ((t.team m.team).cvAt m.cv).fail = false ∧
      ((t.team m.team).cvAt m.cv).done = BitVec.ofNat 4 (c.done.toNat + 1) ∧
      (∀ k q n, c.uid ∉ (t.acc k q n).pending) ∧ t.mem = s.mem ∧
      ∀ g ∈ c.signs, ∀ k, t.sk? g.sk = some k → ∀ o ∈ k.ops, o.id ≠ g.op

/-- R135, R137: a pass over integers adds the exact sum of all products, modulo 2^32; a K group of floats adds their exact sum, rounded
once to f32. -/
def Claim.MatrixArithmetic : Prop :=
  (∀ (cls : Nat) (acc : Word) (xs : List (Elt × Elt)), cls < 3 → xs.length = 4 * (if cls = 0 then 8 else if cls = 1 then 16 else 32) →
    passElt cls true acc xs = acc + BitVec.ofInt 32 (xs.map fun x => x.1.ival * x.2.ival).sum) ∧
  (∀ (acc : Word) (xs : List (Elt × Elt)) (d : Dy) (z : Bool), (decodeF f32 acc.toNat).isNan = false → (decodeF f32 acc.toNat).isInf = false →
    sumV (xs.map fun x => (prodV x.1.fval x.2.fval).1) = .fin d z → (d.m ≠ 0 ∨ (decodeF f32 acc.toNat).isZero = true) →
    groupAdd acc xs = BitVec.ofNat 32 (roundDy f32 0 false false ((decodeF f32 acc.toNat).dy.add d)).1)

end Sys2Proof.Machine

/-- Matrix passes are granted, run and end; what a pass adds. Readings and choices of the model it rests on: log 15, 44. -/
def Obligations.MatrixPasses : Prop :=
  Machine.Claim.MatrixGrant ∧ Machine.Claim.MatrixPass ∧ Machine.Claim.MatrixEnds ∧ Machine.Claim.MatrixArithmetic

namespace Sys2Proof.Machine

/-- R119, R127, R131, R132: a payload of six-bit elements is written with bits 7:6 of each byte zero; the payload of 256 patterns gives
each pattern back: whole in the float and INT4 formats, its stored planes from
the most significant on in bp8. -/
def Claim.PanelPayload : Prop :=
  ∀ (h : Word) (ps : List Nat) (e : Nat), headerOk h = true → hGeom h = false → ps.length = 256 → e < 256 →
    (∀ bs : List Byte, cleanPayload h bs = if hFmt h = 2 ∨ hFmt h = 3 then bs.map (fun b => BitVec.ofNat 8 (b.toNat % 64)) else bs) ∧
    ((∀ p ∈ ps, p < if hFmt h = 7 then 2 ^ 16 else if hFmt h = 4 ∨ hFmt h = 5 then 16 else if hFmt h = 2 ∨ hFmt h = 3 then 64 else 256) →
    (packPayload h ps).length = payloadBytes h ∧
    eltPat h (packPayload h ps) e =
      if hFmt h = 6 then ps.getD e 0 / 2 ^ (8 - hPlanes h) * 2 ^ (8 - hPlanes h) else ps.getD e 0)

/-- R274, R275: `qnt` and `dqnt` begin one long operation over whole registers: `qnt` writes the payload of the quantised patterns
and over it its header, `dqnt` the f32 values of the panel's elements; each sets the flags its elements cause in every passing lane. With no passing
lane neither has an effect (R257). Under ES other than 32 both raise cause 0x07. -/
def Claim.QuantiseBegins : Prop :=
  ∀ (g : Guard) (d a : Reg) (pos : PanelPos) (fmt planes : BitVec 4) (sat sg ctr : Bool) (s : State), s.Issuing →
    let q := Instr.qnt g d a pos fmt sat planes sg ctr
    let u := Instr.dqnt g d a pos
    let ill := fun (i : Instr) => Machine.exec i s = .next (s.takeTrap { kind := 1, cause := 0x07 })
    let flags := fun (f : Sticky) => ((List.range 32).filter (s.passing g)).map fun l => (l, f)
    (s.es ≠ .e32 → ill q ∧ ill u) ∧
    (s.es = .e32 → pos.h.toNat < s.cur.regCount →
      (let vs := (List.range 256).map fun x => decodeF f32 (elt 32 (s.cur.read (BitVec.ofNat 6 (a.toNat + x / 64)) (x % 64 / 2)) (x % 2))
       let r := quantise fmt.toNat sat sg vs
       let h := mkHeader fmt r.2 planes sg ctr
       fmt.toNat < 8 → planesOk fmt.toNat planes.toNat sg ctr = true → (pos.ph = true → payloadBytes h = 128) →
       a.toNat + 4 ≤ s.cur.regCount → d.toNat + payloadRegs h ≤ s.cur.regCount →
       s.Settled (s.wholeFrom a 4) (s.wholeFrom pos.h 1 ++ s.wholeFrom d (payloadRegs h)) →
       (¬ s.Some g → ∃ t, Machine.exec q s = .next t ∧ s.Became t s.moved) ∧
       (s.Some g → s.Room true true → ∃ t o, Machine.exec q s = .next t ∧ s.Began t o ∧
         (∀ x, x ∈ o.pend ↔ x ∈ s.wholeFrom pos.h 1 ++ s.wholeFrom d (payloadRegs h)) ∧ (∀ x, x ∈ o.held ↔ x ∈ s.wholeFrom a 4) ∧
         (let pay := s.cur.payloadWrites d (payloadBytes h) pos.ph (packPayload h (r.1.map (·.1)))
          o.writes = pay ++ [s.cur.headerWrite pos h pay]) ∧
         o.flags = flags (orFlags (r.1.map (·.2))))) ∧
      (let h := s.cur.headerIn pos
       let bs := s.cur.payload a (payloadBytes h) pos.ph
       let r := fun e => dequant h (eltPat h bs e)
       headerOk h = true → hGeom h = false → (pos.ph = true → payloadBytes h = 128) → d.toNat + 4 ≤ s.cur.regCount →
       a.toNat + payloadRegs h ≤ s.cur.regCount → a.toNat < s.cur.regCount →
       s.Settled (s.wholeFrom pos.h 1 ++ s.wholeFrom a (max 1 (payloadRegs h))) (s.wholeFrom d 4) →
       (¬ s.Some g → ∃ t, Machine.exec u s = .next t ∧ s.Became t s.moved) ∧
       (s.Some g → s.Room true true → ∃ t o, Machine.exec u s = .next t ∧ s.Began t o ∧
         (∀ x, x ∈ o.pend ↔ x ∈ s.wholeFrom d 4) ∧ (∀ x, x ∈ o.held ↔ x ∈ s.wholeFrom a (payloadRegs h)) ∧
         o.writes = (List.range 4).flatMap (fun i => (List.range 32).map fun l =>
           ⟨s.cur.resolve l (BitVec.ofNat 6 (d.toNat + i)), l, lanesOf 32 fun n => (r (64 * i + 2 * l + n)).1, false⟩) ∧
         o.flags = flags (orFlags ((List.range 256).map fun e => (r e).2)))))

/-- R271: what a panel instruction needs before its header is there: plain size, an order and a scope it may have, one space for both
streams, settled operands, both addresses, and every line of a payload of n bytes, inside the space and aligned. -/
structure State.PanelClear (s : State) (q : PanelReq) (n : Nat) : Prop where
  fields  : q.size = 0 ∧ q.order ≠ 3 ∧ q.order ≠ (if q.load then 2 else 1) ∧ q.e.scope.toNat ≤ 4
  space   : (s.cur.streamTag q.m.stream.toNat).toNat = (s.cur.streamTag q.e.hs.toNat).toNat ∧ (s.cur.streamTag q.m.stream.toNat).toNat ≤ 1
  clear   : s.Clear (offRegs q.m.off ++ offRegs q.e.c ++ if q.load then [] else [plain q.e.h, plain q.d])
    (if q.load then [q.e.h, q.d] else [])
  inside  : ∀ x, s.panelAddrs q = some x → s.inSpace (s.cur.streamTag q.m.stream.toNat).toNat n x.2.1 ∧
    s.inSpace (s.cur.streamTag q.m.stream.toNat).toNat 4 x.2.2 ∧
    (s.cur.streamTag q.m.stream.toNat = 0 → ∀ i, 128 * i < n → canonical (x.2.1 + BitVec.ofNat 64 (128 * i)) = true)
  aligned : ∀ x, s.panelAddrs q = some x → x.2.1.toNat % 128 = 0 ∧ x.2.2.toNat % 4 = 0

/-- R143, R217, R271 to R273, R308, with sampling off: `pld` waits with one panel read on its way, its register h and every payload
register of the header at its place (at least d) pending and counted for setA from its issue on (log 84), and keeps the addresses its streams form then; `pst` sends one panel write that holds its header and
payload, counted on flag B where its clause names one; with no passing lane both only move on. -/
def Claim.PanelRequests : Prop :=
  ∀ (i : Instr) (q : PanelReq) (s : State), panelReq i = some q → s.Issuing → (s.ctx s.cur.ctx).dbg.k = 0 →
    let h := s.cur.headerIn (extPos q.e)
    let n := if q.load then 128 else payloadBytes h
    s.PanelClear q 1 → (q.load = false → s.Settled (s.wholeFrom q.e.h 1 ++ s.wholeFrom q.d (max 1 (payloadRegs h))) []) →
    (¬ s.Some q.g → ∃ t, Machine.exec i s = .next t ∧ s.Became t s.moved) ∧
    ∀ u x xs, s.Some q.g → s.panelPlaces q n = (u, .ok (x :: xs)) →
      (q.load = true → s.cur.loads < 16 → s.Fresh → u.Room true false → ∀ l pa ha, s.panelAddrs q = some (l, pa, ha) →
        ∃ t v o, Machine.exec i s = .next t ∧
          u.issued.Waits v .pld i (s.cur.streamTag q.m.stream.toNat) [(l, pa), (l, ha)] s.now ∧
          t = { v with skeins := t.skeins, idCtr := u.idCtr + 3
                       accesses := u.accesses ++ [s.panelAccess q (u.idCtr + 2) (some u.idCtr) .panelRead (x :: xs) [] none] } ∧
          (∀ y, y ≠ s.issue.sk → t.sk? y = s.sk? y) ∧
          t.cur = { v.cur with ops := s.cur.ops ++ [o], flags := t.cur.flags } ∧
          (∀ f, f < 12 → t.cur.flags.getD f 0 = s.cur.flags.getD f 0 + if s.header.setA.map (·.toNat) = some f then 1 else 0) ∧
          o.id = u.idCtr + 1 ∧ o.forWait = some u.idCtr ∧ o.load = true ∧ o.await = 1 ∧ o.setA = s.header.setA ∧ o.writes = [] ∧
          let hh := u.headerAt s.cur (x :: xs)
          ∀ r, r ∈ o.pend ↔ r ∈ s.wholeFrom q.e.h 1 ++ s.wholeFrom q.d 1 ∨
            (headerOk hh = true ∧ q.d.toNat + payloadRegs hh ≤ s.cur.regCount ∧ r ∈ s.wholeFrom q.d (payloadRegs hh))) ∧
      (q.load = false → headerOk h = true → (q.e.ph = true → n = 128) → q.d.toNat + payloadRegs h ≤ s.cur.regCount →
        s.PanelClear q n → u.Room false true →
        (q.order.getLsbD 1 = true → u.fenceMet u.cur q.e.scope.toNat = true ∧ (3 ≤ q.e.scope.toNat → u.cur.faultQ = [])) →
        ∃ t, Machine.exec i s = .next t ∧
          t = { u with skeins := t.skeins, idCtr := u.idCtr + 2, accesses := t.accesses } ∧
          t.cur = { u.issued.moved with ops := t.cur.ops, flags := t.cur.flags } ∧
          (s.header.setB = none → t.cur.ops = s.cur.ops) ∧
          t.accesses = u.accesses ++ [s.panelAccess q (u.idCtr + 1) none .panelWrite (x :: xs)
            (toBytes 4 h.toNat ++ cleanPayload h (s.cur.payload q.d n q.e.ph)) none])

/-- R217, R272: PLD_HEADER_ARRIVAL of a panel load in scratch, its header valid and its registers free, at the addresses it was issued
with: the wait ends past the instruction, the panel's registers are pending, and its values and header are on their way; the access is
gone. A header that is not valid raises cause 0x0A in the waiting threads, and the operation is gone. -/
def Claim.PanelLoadArrives : Prop :=
  ∀ (s : State) (k : Skein) (w : Wait) (a : Access) (q : PanelReq) (l : Nat) (pa ha : Lane) (ops : List LongOp) (op : LongOp),
    s.sk? k.uid = some k → k.wait? w.id = some w → k.waits = [w] → panelReq w.instr = some q → q.load = true → a.order = 0 →
    s.accesses = [a] → (∀ x ∈ s.ops, x.asked = [] ∧ x.outs = []) → a.sk = k.uid ∧ a.op = some w.id ∧ a.kind = .panelRead ∧ a.sample = none → k.handler = none → k.mayAct w = true →
    w.space = 1 → w.addrs = [(l, pa), (l, ha)] → k.ops = ops ++ [op] → op.forWait = some w.id → (∀ x ∈ ops, x.forWait ≠ some w.id) →
    let s0 := { s with issue := { w.issue with sk := k.uid, mask := laneMask (k.inWait w.id) } }
    (s.team k.team).scratchBytes < 2 ^ 63 →
    let base := scratchKey k.core (s.team k.team).scratchBase
    let h : Word := BitVec.ofNat 32 (ofBytes (s.mem.readN (base + ha.toNat) 4))
    (headerOk h = false → ∃ u : State, Machine.exec (.pldHeaderArrival k.uid w.id) s = .next (u.takeTrap { kind := 1, cause := 0x0A }) ∧
      u = { s0 with accesses := [], skeins := u.skeins } ∧ u.sk? k.uid = some (k.dropWait w.id)) ∧
    (headerOk h = true → (q.e.ph = true → payloadBytes h = 128) → q.d.toNat + payloadRegs h ≤ k.regCount →
      (∀ r ∈ s0.wholeFrom q.e.h 1 ++ s0.wholeFrom q.d (payloadRegs h), ∀ x ∈ ops, r ∉ x.pend ∧ r ∉ x.held) →
      pa.toNat + payloadBytes h ≤ (s.team k.team).scratchBytes → ha.toNat + 4 ≤ (s.team k.team).scratchBytes →
      pa.toNat % 128 = 0 → ha.toNat % 4 = 0 →
      ∃ t k' o bad, Machine.exec (.pldHeaderArrival k.uid w.id) s = .next t ∧ t.accesses = [] ∧ t.mem = s.mem ∧ t.sk? k.uid = some k' ∧
        k'.waits = [] ∧ k'.regs = k.regs ∧ k'.ops = ops ++ [o] ∧ o.id = op.id ∧ o.setA = op.setA ∧ o.await = 0 ∧ o.forWait = none ∧
        (∀ r, r ∈ o.pend ↔ r ∈ s0.wholeFrom q.e.h 1 ++ s0.wholeFrom q.d (payloadRegs h)) ∧
        (s.poisoned = [] → bad = false) ∧
        o.writes = (k.headerWrite (extPos q.e) h :: k.payloadWrites q.d (payloadBytes h) q.e.ph
          (cleanPayload h (s.mem.readN (base + pa.toNat) (payloadBytes h)))).map fun x => { x with poison := bad })

end Sys2Proof.Machine

/-- qnt, dqnt, pld and pst: requests, payloads and what arrives. Readings and choices of the model it rests on: log 19, 41, 66, 84. `pld` and `pst` are the two forms of a panel request. -/
def Obligations.Panels : Prop :=
  Machine.Claim.PanelPayload ∧ Machine.Claim.QuantiseBegins ∧ Machine.Claim.PanelRequests ∧ Machine.Claim.PanelLoadArrives

/-! ### The pump, the sluice, launches and the dispatcher -/

namespace Sys2Proof.Machine

/-- Nothing pending has the name the model gives out next (log 1). -/
def State.NewName (s : State) : Prop := (∀ x ∈ s.ops, x.uid ≠ s.idCtr) ∧ ∀ g ∈ s.grids, g.uid ≠ s.idCtr

/-- The lowest passing lane. -/
def State.Low (s : State) (g : Guard) (l : Nat) : Prop := l < 32 ∧ s.passing g l = true ∧ ∀ j, j < l → s.passing g j = false

/-- R280, R281: `pump` with fields, streams, control word and ranges inside their limits starts one operation of its timeline: one part
of L bytes, or one for each passing lane, the r-th from its own source to r × L past the lowest lane's destination (gather), or from
r × L past the lowest lane's source to its own destination (scatter, ascending destinations), or L panel slots. While the implicit
fence is not met it is held; with no passing lane it moves on. -/
def Claim.PumpStarts : Prop :=
  ∀ (g : Guard) (n a b c : Reg) (e : PumpExt) (s : State), s.Issuing →
    let q : PumpReq := ⟨g, n, a, b, c, e⟩
    let i := Instr.pump g n a b c e
    let tag := fun (st : Nat) => (s.cur.streamTag st).toNat
    let panel := e.kind = 3
    n.toNat < 8 → e.sl.toNat ≤ 4 → c.toNat + (if e.fl then 2 else 1) ≤ s.cur.regCount →
    tag e.s.toNat ≤ 2 → tag e.d.toNat ≤ 2 →
    (panel → e.s.toNat ≠ 15 ∧ e.d.toNat ≠ 15 ∧ tag e.s.toNat < 2 ∧ tag e.d.toNat < 2 ∧ tag (e.s.toNat + 1) < 2 ∧ tag (e.d.toNat + 1) < 2) →
    s.Clear q.srcs [] →
    (¬ s.Some g → ∃ t, Machine.exec i s = .next t ∧ s.Became t s.moved) ∧
    ∀ l, s.Low g l →
      let v := s.cur.read c l
      let L := v.toNat % 2 ^ 32
      let flag := v.toNat / 2 ^ 32 % 2 ^ 19
      let src := fun l => s.cur.addr e.s.toNat a l
      let dst := fun l => s.cur.addr e.d.toNat b l
      let lanes := (List.range 32).filter (s.passing g)
      let ranked := fun (f : Nat → Nat → Lane × Lane × Nat) => lanes.zipIdx.map fun x => f x.2 x.1
      (2 ^ 51 ≤ v.toNat → Machine.exec i s = .next (s.takeTrap { kind := 1, cause := 0x05 })) ∧
      (v.toNat < 2 ^ 51 → (L = 0 ∨ (if e.kind = 0 then 2 ^ 31 else 4096) < L) →
        Machine.exec i s = .next (s.takeTrap { kind := 1, cause := 0x0A })) ∧
      (v.toNat < 2 ^ 51 → 1 ≤ L → L ≤ (if e.kind = 0 then 2 ^ 31 else 4096) →
        (e.fl = true → flag % 8 = 0 ∧ flag + 8 ≤ (s.team s.cur.team).scratchBytes) →
        (∀ r ∈ s.pumpRanges q L, s.inSpace r.1 r.2.1 r.2.2.2 ∧ (r.1 = 0 → canonical (r.2.2.2 + BitVec.ofNat 64 (r.2.1 - 1)) = true)) →
        (s.fenceMet s.cur (s.pumpScope q L) = false → Machine.exec i s = .next { s with blocked := true }) ∧
        (s.fenceMet s.cur (s.pumpScope q L) = true → (s.openOps s.cur.team e.t.toNat).length < 64 → e.t.toNat < 8 → s.NewName →
          ∃ t o, Machine.exec i s = .next t ∧ s.OpStarted t n.toNat e.t.toNat o ∧ o.kind = .pump e.kind e.fl ∧ o.pos = 0 ∧
            o.ready = false ∧ o.flagAt = flag ∧ (e.fl = true → o.flagV = s.cur.read (BitVec.ofNat 6 (c.toNat + 1)) l) ∧
            o.srcPl = s.placeOf e.s.toNat ∧ o.dstPl = s.placeOf e.d.toNat ∧
            (e.kind = 0 → o.parts = [(src l, dst l, L)] ∧ o.total = L) ∧
            (e.kind = 1 → o.parts = ranked (fun r x => (src x, dst l + BitVec.ofNat 64 (r * L), L)) ∧ o.total = lanes.length * L) ∧
            (e.kind = 2 → o.parts.Perm (ranked fun r x => (src l + BitVec.ofNat 64 (r * L), dst x, L)) ∧
              o.parts.Pairwise (fun x y => x.2.1.toNat ≤ y.2.1.toNat) ∧ o.total = lanes.length * L) ∧
            (panel → o.slot = 128 * 2 ^ e.sl.toNat ∧ o.parts = [(src l, dst l, L * o.slot)] ∧ o.total = L ∧
              o.hdrs = (s.cur.addr (e.s.toNat + 1) 63 l, s.cur.addr (e.d.toNat + 1) 63 l))))

/-- R107, R282: PUMP_SEGMENT of the operation whose turn it is, scratch to scratch: the next 4,096 bytes, or those that are left, now
lie at the destination, every other byte of memory stands, and the operation is that far on; of an operation all of whose bytes are
written, once they are visible, the flag word is stored. Out of its turn it changes nothing. -/
def Claim.PumpSegments : Prop :=
  ∀ (o : EngineOp) (s : State), s.MemOk → s.op? o.uid = some o →
    ∀ (k : BitVec 2) (fl : Bool), o.kind = .pump k fl → k ≠ 3 → o.done = false → o.ready = false → o.cancel = false → o.held = none →
    (s.ctx o.ctx).live = true →
    (o.pos ≠ o.total → (s.pumpTurnOf o.core).map (·.uid) ≠ some o.uid → Machine.exec (.pumpSegment o.uid) s = .next s) ∧
    (∀ src dst b d, (s.pumpTurnOf o.core).map (·.uid) = some o.uid → o.parts = [(src, dst, o.total)] → o.pos < o.total →
      o.srcPl = .scratch b → o.dstPl = .scratch d → src.toNat + o.total ≤ 2 ^ 20 → dst.toNat + o.total ≤ 2 ^ 20 →
      o.seg = none → o.heard = [] → o.asked = [] → o.wrote = [] →
      (∀ x ∈ s.poisoned, x < scratchKey 0 0 / 8) →
      let n := min 4096 (o.total - o.pos)
      let from' := scratchKey o.core b + src.toNat + o.pos
      let dest := scratchKey o.core d + dst.toNat + o.pos
      ∃ t, Machine.exec (.pumpSegment o.uid) s = .next t ∧
        t = { s with mem := t.mem, ops := t.ops, pumpTurn := t.pumpTurn } ∧
        (∀ i, i < n → t.mem.read (dest + i) = s.mem.read (from' + i)) ∧
        (∀ x, (x < dest ∨ dest + n ≤ x) → t.mem.read x = s.mem.read x) ∧
        ∃ o', t.op? o.uid = some o' ∧ o'.pos = o.pos + n ∧ (o'.ready = true ↔ o.pos + n = o.total ∧ fl = false)) ∧
    (o.pos = o.total → fl = true →
      (s.opVisible o = false → Machine.exec (.pumpSegment o.uid) s = .next s) ∧
      (s.opVisible o = true →
        let key := scratchKey o.core ((s.team o.team).scratchBase + o.flagAt)
        ∃ t, Machine.exec (.pumpSegment o.uid) s = .next t ∧ t.mem.readN key 8 = toBytes 8 o.flagV.toNat ∧
          (∀ x, (x < key ∨ key + 8 ≤ x) → t.mem.read x = s.mem.read x) ∧ t.skeins = s.skeins ∧
          ∃ o', t.op? o.uid = some o' ∧ o' = { o with ready := true, flagged := true, wct := o'.wct }))

end Sys2Proof.Machine

/-- pump starts an operation of its timeline; its segments copy. Readings and choices of the model it rests on: log 46, 82, 85. -/
def Obligations.Pumps : Prop :=
  Machine.Claim.PumpStarts ∧ Machine.Claim.PumpSegments

namespace Sys2Proof.Machine

/-- R283, R284, R390: `coll` of a group that cannot be joined starts an operation that has ended with status 7; a `bcast` member other
than the root joins with nothing to give: it is its group's next collective and has heard from itself alone; a member that gives
data joins with the bytes of its source. With no passing lane it
moves on; a control word with a reserved bit, or with a root where the operation has none, raises cause 0x05, a count of 0 or past
2^28 cause 0x0A. -/
def Claim.CollectiveJoins : Prop :=
  ∀ (g : Guard) (n a b c : Reg) (e : CollExt) (s : State), s.Issuing → n.toNat < 8 → e.fmt ≠ 3 →
    (e.fmt = 2 → e.op ≠ 0 ∧ e.op ≠ 2) → s.cur.streamTag e.s.toNat = 0 → s.cur.streamTag e.d.toNat = 0 →
    s.Clear (offRegs a ++ offRegs b ++ [plain c]) [] →
    let i := Instr.coll g n a b c e
    (¬ s.Some g → ∃ t, Machine.exec i s = .next t ∧ s.Became t s.moved) ∧
    ∀ l, s.Low g l →
      let v := s.cur.read c l
      let count := v.toNat % 2 ^ 32
      let group := v.toNat / 2 ^ 32 % 2 ^ 16
      let root := v.toNat / 2 ^ 48 % 2 ^ 9
      let part := (s.ctx s.cur.ctx).part
      let w := s.groupEntry group
      let q : CollReq := ⟨g, n, a, b, c, e⟩
      let ill := fun (x : BitVec 8) => Machine.exec i s = .next (s.takeTrap { kind := 1, cause := x })
      (2 ^ 57 ≤ v.toNat ∨ (e.op ≠ 3 ∧ root ≠ 0) → ill 0x05) ∧
      (v.toNat < 2 ^ 57 → (e.op ≠ 3 → root = 0) → (count = 0 ∨ 2 ^ 28 < count) → ill 0x0A) ∧
      (v.toNat < 2 ^ 57 → (e.op ≠ 3 → root = 0) → 1 ≤ count → count ≤ 2 ^ 28 →
        (∀ r ∈ s.collRanges q v, s.peerIn s.cur.ctx r.2.1 r.2.2 = none) → s.NewName →
        (s.fenceMet s.cur 3 = false → Machine.exec i s = .next { s with blocked := true }) ∧
        (s.fenceMet s.cur 3 = true → (s.openOps s.cur.team 4).length < 64 →
          (s.grpRefused group part = true → ∃ t o, Machine.exec i s = .next t ∧ s.OpStarted t n.toNat 4 o ∧ o.kind = .coll e.op e.fmt ∧
            o.ready = true ∧ o.status = 7) ∧
          (s.grpRefused group part = false → e.op = 3 → root ≠ grpRank w → ∃ t o, Machine.exec i s = .next t ∧
            s.OpStarted t n.toNat 4 o ∧ o.kind = .coll e.op e.fmt ∧ o.ready = false ∧ o.count = count ∧ o.root = root ∧
            o.members = grpSize w ∧ o.rank = grpRank w ∧ o.heard = [(grpRank w, [])] ∧
            o.seq = ((s.collSeqs.find? fun x => x.1 == group).map (·.2)).getD 0 + 1) ∧
          (s.grpRefused group part = false → (e.op = 3 → root = grpRank w) →
            let src := s.cur.addr e.s.toNat a l
            let size := (if e.fmt = 0 then 4 else if e.fmt = 1 then 2 else 1) * (if e.op = 2 then grpSize w * count else count)
            ∀ us u, s.locateAll { ctx := s.cur.ctx } .global false (Place.cut .global src size) = (u, .ok us) →
              (∀ x ∈ us, x.pl = .global ∧ s.poisonAt x.key x.n = false) →
              ∃ t o, Machine.exec i s = .next t ∧ s.OpStarted t n.toNat 4 o ∧ o.kind = .coll e.op e.fmt ∧ o.ready = false ∧
                o.count = count ∧ o.root = root ∧ o.members = grpSize w ∧ o.rank = grpRank w ∧
                o.heard = [(grpRank w, us.flatMap fun x => s.load part x.key x.n)] ∧
                o.parts = [(src, s.cur.addr e.d.toNat b l, size)] ∧
                o.seq = ((s.collSeqs.find? fun x => x.1 == group).map (·.2)).getD 0 + 1)))

/-- R278, R282, R284, R286, R380: BULK, its payload behind a head of five bytes that is no peer's own request (log 82), gives a collective the part of a
member not heard from; while parts are missing nothing else happens; an absent or failed member, or a part that does not match in its form or its length, ends it with status 7; one that has been
cancelled hears nothing. COLL_TIMEOUT ends one that has made no progress for 2^24 ticks with status 7, and changes no other. A pump
operation takes the bytes of a unit it asked for, and counts an acknowledged write off; a peer's fault ends it with status 7 at the
address of what was asked or written, and so does REMOTE_ACK_TIMEOUT for a message that no peer has answered for 2^20 ticks (R113). -/
def Claim.CollectiveHears : Prop :=
  ∀ (o : EngineOp) (s : State), s.op? o.uid = some o → o.done = false →
    let only := fun (t : State) (o' : EngineOp) => t = { s with ops := t.ops } ∧ t.op? o.uid = some o' ∧ ∀ v, v ≠ o.uid → t.op? v = s.op? v
    let failed := fun (p : EngineOp) (a : Lane) =>
      { p with ready := true, status := 7, failAddr := a, asked := [], heard := [], atTiles := [], seg := none, wrote := [], wants := [] }
    let own := fun (data : List Byte) => ofBytes (data.take 5) ≠ 2 ∧ ofBytes (data.take 5) ≠ 3
    (∀ op fmt, o.kind = .coll op fmt → o.cancel = true → ∀ rank ok data, own data → Machine.exec (.bulk o.uid rank ok data) s = .next s) ∧
    (∀ op fmt, o.kind = .coll op fmt → o.ready = false → o.cancel = false →
      let want := fun (r : Nat) => if op ≠ 3 ∨ o.root = r then
        (if fmt = 0 then 4 else if fmt = 1 then 2 else 1) * (if op = 2 then o.members * o.count else o.count) else 0
      let form := op.toNat + 4 * fmt.toNat + 16 * o.count
      (∀ rank ok data, own data → ok = false ∨ ofBytes (data.take 5) ≠ form ∨ (data.drop 5).length ≠ want rank ∨ o.members ≤ rank →
        ∃ t, Machine.exec (.bulk o.uid rank ok data) s = .next t ∧ only t (failed o 0)) ∧
      (∀ rank data, own data → ofBytes (data.take 5) = form → (data.drop 5).length = want rank → rank < o.members → (∀ h ∈ o.heard, h.1 ≠ rank) → o.heard.length + 1 < o.members →
        ∃ t, Machine.exec (.bulk o.uid rank true data) s = .next t ∧
          only t { o with heard := o.heard ++ [(rank, data.drop 5)], since := s.now }) ∧
      (o.since + 2 ^ 24 ≤ s.now → ∃ t, Machine.exec (.collTimeout o.uid) s = .next t ∧ only t (failed o 0)) ∧
      (s.now < o.since + 2 ^ 24 → Machine.exec (.collTimeout o.uid) s = .next s)) ∧
    (∀ k fl, o.kind = .pump k fl → Machine.exec (.collTimeout o.uid) s = .next s ∧
      (∀ (x : PeerMsg) data, own data → ofBytes (data.take 5) ≠ 1 → o.asked.find? (fun y => y.num == x.num) = some x →
        ((∀ h ∈ o.heard, h.1 ≠ x.num) → ∃ t, Machine.exec (.bulk o.uid x.num true data) s = .next t ∧
          only t { o with heard := o.heard ++ [(x.num, data.drop 5)] }) ∧
        (o.ready = false → ∃ t, Machine.exec (.bulk o.uid x.num false data) s = .next t ∧ only t (failed o x.va))) ∧
      (∀ (x : PeerMsg) data, ofBytes (data.take 5) = 1 → o.outs.find? (fun y => y.num == x.num) = some x →
        (∃ t, Machine.exec (.bulk o.uid x.num true data) s = .next t ∧
          only t { o with outs := o.outs.erase x, wct := max o.wct (ofBytes (data.drop 5)) }) ∧
        (o.ready = false ∨ o.status = 0 ∨ o.status = 6 → ∃ t, Machine.exec (.bulk o.uid x.num false data) s = .next t ∧
          only t (failed { o with outs := o.outs.erase x } x.va))) ∧
      ((∀ a ∈ s.accesses, a.id ≠ o.uid) →
        ((∀ m ∈ o.asked ++ o.outs, s.now < m.tick + 2 ^ 20) → Machine.exec (.remoteAckTimeout o.uid) s = .next s) ∧
        (∀ m, o.asked = [m] → o.outs = [] → o.heard = [] → m.tick + 2 ^ 20 ≤ s.now → o.ready = false →
          ∃ t, Machine.exec (.remoteAckTimeout o.uid) s = .next t ∧ only t (failed o m.va)) ∧
        (∀ m, o.asked = [] → o.outs = [m] → m.tick + 2 ^ 20 ≤ s.now → o.ready = false →
          ∃ t, Machine.exec (.remoteAckTimeout o.uid) s = .next t ∧ only t (failed { o with outs := [] } m.va))))

/-- R284: the last member's part: the result of the collective lies at the destination, each unit of its range (R278) holding its share,
no byte elsewhere has changed, and the operation has only to complete. Where a gather or a scattered sum writes over its source the bytes
of the overlap are open (log 11), and nothing is said of them here. -/
def Claim.CollectiveWrites : Prop :=
  ∀ (o : EngineOp) (s : State) (op fmt : BitVec 2) (rank : Nat) (data : List Byte) (src dst : Lane) (n : Nat) (us : List PumpUnit)
    (u : State), s.MemOk → s.op? o.uid = some o → o.kind = .coll op fmt → o.done = false → o.ready = false → o.cancel = false →
    1 ≤ o.count → o.parts = [(src, dst, n)] → o.heard.length + 1 = o.members → rank < o.members → (∀ h ∈ o.heard, h.1 ≠ rank) →
    ofBytes (data.take 5) = op.toNat + 4 * fmt.toNat + 16 * o.count →
    (data.drop 5).length = (if op ≠ 3 ∨ o.root = rank then
      (if fmt = 0 then 4 else if fmt = 1 then 2 else 1) * (if op = 2 then o.members * o.count else o.count) else 0) →
    let bs := { o with heard := o.heard ++ [(rank, data.drop 5)] }.collResult op fmt
    (op = 0 ∨ op = 3 ∨ src.toNat + n ≤ dst.toNat ∨ dst.toNat + bs.length ≤ src.toNat) →
    s.locateAll o .global true (Place.cut .global dst bs.length) = (u, .ok us) → (∀ x ∈ us, x.pl = .global) →
    us.Pairwise (fun x y => x.key + x.n ≤ y.key ∨ y.key + y.n ≤ x.key) →
    let part := (s.ctx o.ctx).part
    ∃ t, Machine.exec (.bulk o.uid rank true data) s = .next t ∧ t.skeins = s.skeins ∧
      (us.flatMap fun x => t.load part x.key x.n) = bs ∧
      (∀ a m, (∀ x ∈ us, a + m ≤ x.key ∨ x.key + x.n ≤ a) → t.load part a m = s.load part a m) ∧
      ∃ o', t.op? o.uid = some o' ∧ o'.ready = true ∧ o'.status = o.status ∧ o'.done = false

/-- R284: the results of a collective from the parts of its members: element i of a sum is the ranks' elements i added in ascending
order, each sum rounded to f32; a gather is the parts in rank order; a broadcast the root's part. -/
def Claim.CollectiveResults : Prop :=
  ∀ (o : EngineOp) (part : Nat → List Byte), o.heard.Perm ((List.range o.members).map fun r => (r, part r)) → 2 ≤ o.members →
    let word := fun (r i : Nat) => ofBytes (((part r).drop (4 * i)).take 4)
    let sum := fun (i : Nat) => ((List.range (o.members - 1)).map (· + 1)).foldl (fun x r => amoNew .fadd 32 x (word r i) 0) (word 0 i)
    o.collResult 0 0 = (List.range o.count).flatMap (fun i => toBytes 4 (sum i)) ∧
    (∀ fmt, o.collResult 1 fmt = (List.range o.members).flatMap part) ∧
    (o.rank < o.members → o.collResult 2 0 = (List.range o.count).flatMap fun i => toBytes 4 (sum (o.rank * o.count + i))) ∧
    (o.root < o.members → ∀ fmt, o.collResult 3 fmt = part o.root)

end Sys2Proof.Machine

/-- coll joins its group, hears its members and writes its results. Readings and choices of the model it rests on: log 11, 36, 47, 82. -/
def Obligations.Collectives : Prop :=
  Machine.Claim.CollectiveJoins ∧ Machine.Claim.CollectiveHears ∧ Machine.Claim.CollectiveWrites ∧ Machine.Claim.CollectiveResults

namespace Sys2Proof.Machine

/-- A field of n bytes of a record at an offset, its bytes in ascending order from the least significant. -/
def recAt (r : List Byte) (off n : Nat) : Nat := ((List.range n).map fun i => (r.getD (off + i) 0).toNat * 256 ^ i).sum

/-- R13 to R17, R290: `launch` by its team's leader of a record that reads: an accepted record is a grid of the depth below the
launcher's, with its counts, sizes, entry and parameter, and its handle is pending; a poisoned record completes the handle with status
8, a malformed one with status 3, a depth past 10 with status 4, a cooperative grid too large for its partition with 5. No leader in the
group: cause 0x0B. -/
def Claim.LaunchResults : Prop :=
  ∀ (g : Guard) (n a : Reg) (s : State) (l : Nat) (x : Xlat) (u : State), s.Issuing → n.toNat < 8 → s.Clear [plain a] [] →
    (s.cur.conductor = true ∨ (s.gridOf (s.team s.cur.team)).isSome = true) →
    let i := Instr.launch g n a
    let va := s.cur.read a l
    ((∀ j, s.leader s.cur.team = some (s.cur.uid, j) → s.executing j = false) →
      Machine.exec i s = .next (s.takeTrap { kind := 1, cause := 0x0B })) ∧
    (s.leader s.cur.team = some (s.cur.uid, l) → s.executing l = true →
      (guardPasses g (s.cur.thread l) = false → ∃ t, Machine.exec i s = .next t ∧ s.Became t s.moved) ∧
      (guardPasses g (s.cur.thread l) = true → va.toNat % 64 = 0 → canonical va = true → s.fenceMet s.cur 2 = true →
        (s.openOps s.cur.team 7).length < 64 → s.translate s.cur.ctx va = (u, .ok x) → x.r = true → x.kind ≠ 2 → x.there = true →
        s.NewName → (∀ k ∈ s.skeins, k.waits = []) → (s.ctx s.cur.ctx).dbg.tren = 0 →
        let r := u.load (s.ctx s.cur.ctx).part x.key 64
        let up := (s.gridOf (s.team s.cur.team)).map fun (y : Grid) => y.depth
        let depth := up.getD 0 + 1
        let word := fun (st : Byte) => ∃ t, Machine.exec i s = .next t ∧ t.grids = s.grids ∧
          t.cur.hd.getD n.toNat 0 = handleWord false 7 st ((s.team s.cur.team).tlIssued.getD 7 0 + 1)
        (u.poisonAt x.key 64 = true → word 8) ∧
        (u.poisonAt x.key 64 = false → recordOk r = false → word 3) ∧ (u.poisonAt x.key 64 = false → recordOk r = true → 10 < depth → word 4) ∧
        (u.poisonAt x.key 64 = false → recordOk r = true → depth ≤ 10 →
          let gr := gridOfRecord r
          (gr.coop = true → gr.perCore * (s.coresOf (s.ctx s.cur.ctx).part).length < gr.count → word 5) ∧
          ((gr.coop = true → gr.count ≤ gr.perCore * (s.coresOf (s.ctx s.cur.ctx).part).length) →
            ∃ t y, Machine.exec i s = .next t ∧ t.grids = s.grids ++ [y] ∧ y.count = recAt r 0 4 ∧ y.size = recAt r 4 2 ∧
              y.regs = recAt r 6 1 ∧ y.barriers = recAt r 7 1 ∧ y.scratch = recAt r 8 4 ∧ y.seep = recAt r 12 2 ∧
              y.prio = recAt r 14 1 % 4 ∧ (y.coop = true ↔ recAt r 14 1 / 4 % 2 = 1) ∧ y.entry = BitVec.ofNat 64 (recAt r 16 8) ∧ y.param = BitVec.ofNat 64 (recAt r 24 8) ∧
              y.depth = depth ∧ y.ctx = s.cur.ctx ∧ y.next = 0 ∧ y.op = s.idCtr ∧
              t.cur.hd.getD n.toNat 0 = handleWord true 7 0 ((s.team s.cur.team).tlIssued.getD 7 0 + 1)))))

/-- R14, R15: the limits of a record. -/
def Claim.LaunchRecords : Prop :=
  ∀ (r : List Byte), r.length = 64 →
    (recordOk r = true ↔
      (1 ≤ recAt r 0 4 ∧ recAt r 0 4 ≤ 0xFFFFFF) ∧ (1 ≤ recAt r 4 2 ∧ recAt r 4 2 ≤ 1024) ∧
      (16 ≤ recAt r 6 1 ∧ recAt r 6 1 ≤ 64 ∧ recAt r 6 1 % 8 = 0) ∧ recAt r 7 1 ≤ 32 ∧
      (recAt r 8 4 % 256 = 0 ∧ recAt r 8 4 ≤ 524288) ∧ recAt r 12 2 ≤ 4096 ∧ recAt r 14 1 < 8 ∧ recAt r 15 1 = 0 ∧
      recAt r 16 8 % 4 = 0 ∧ recAt r 48 8 % 8 = 0)

/-- R19, R164, R291: `gridgrow` waits for the dispatcher with its amount; with no passing lane it moves on; an amount of 0 raises cause
0x0A, otherwise the conductor cause 0x0B. GRIDGROW_ANSWER raises the count when the grid is neither cooperative nor cancelled and stays within 2^24 −
1 teams; its passing lanes receive the count it found and push whether it was raised. A request behind an older one stays. -/
def Claim.GridGrowth : Prop :=
  (∀ (g : Guard) (d : Reg) (n : Src16) (s : State), s.Issuing → s.Clear (src16Regs n) [d] →
    let i := Instr.gridgrow g d n
    let amount := s.growAmount g n
    let ill := fun (x : BitVec 8) => Machine.exec i s = .next (s.takeTrap { kind := 1, cause := x })
    (s.Some g → amount = 0 → ill 0x0A) ∧
    (s.cur.conductor = true → (s.Some g → amount ≠ 0) → ill 0x0B) ∧
    (s.cur.conductor = false →
      (¬ s.Some g → ∃ t, Machine.exec i s = .next t ∧ s.Became t s.moved) ∧
      (s.Some g → amount ≠ 0 → ∃ t, Machine.exec i s = .next t ∧ s.Waits t (.gridgrow amount s.now) i))) ∧
  (∀ (g : Guard) (d : Reg) (n : Src16) (s : State) (k : Skein) (w : Wait) (gr : Grid) (m c : Nat), s.sk? k.uid = some k →
    k.wait? w.id = some w → k.waits = [w] → w.kind = .gridgrow m c → w.instr = .gridgrow g d n → s.gridOf (s.team k.team) = some gr →
    s.grid? gr.uid = some gr → (∀ l, l < 32 → (k.thread l).region = none) → d.toNat < 64 →
    let ok := gr.coop = false ∧ gr.cancelled = false ∧ gr.count + m ≤ 0xFFFFFF
    let p := fun l => k.inWait w.id l && guardPasses g (k.thread l)
    (s.growAhead (s.ctx k.ctx).part w.id = true → Machine.exec (.gridgrowAnswer k.uid w.id) s = .next s) ∧
    (s.growAhead (s.ctx k.ctx).part w.id = false →
      ∃ t k', Machine.exec (.gridgrowAnswer k.uid w.id) s = .next t ∧ t = { s with grids := t.grids, skeins := t.skeins } ∧
        t.grid? gr.uid = some { gr with count := if ok then gr.count + m else gr.count } ∧ t.sk? k.uid = some k' ∧ k'.waits = [] ∧
        (∀ l, l < 32 → k'.lane d.toNat l = if p l then BitVec.ofNat 64 gr.count else k.lane d.toNat l) ∧
        (∀ r l, r < 64 → l < 32 → r ≠ d.toNat → k'.lane r l = k.lane r l) ∧
        ∀ l, l < 32 → (k'.thread l).pred = if p l then ((k.thread l).push (decide ok)).pred else (k.thread l).pred))

end Sys2Proof.Machine

/-- launch makes a grid from its record, refuses a bad record; gridgrow adds teams. Readings and choices of the model it rests on: log 50. -/
def Obligations.Launches : Prop :=
  Machine.Claim.LaunchResults ∧ Machine.Claim.LaunchRecords ∧ Machine.Claim.GridGrowth

namespace Sys2Proof.Machine

/-- R20, R21: DISPATCH_TEAM with no conductor waiting places the next team of the grid of the highest priority, of equal ones the
earliest launched, on the core R21 chooses: its threads start at the grid's entry, its skeins spread over the quadrants with the grid's
register count, zero registers and empty predicates; with no grid pending it changes nothing. -/
def Claim.DispatchPlaces : Prop :=
  ∀ (part : Nat) (s : State), (∀ c ∈ s.contexts, c.part = part → c.state ≠ .starting) →
    ((∀ g ∈ s.grids, s.pending part g = false) → Machine.exec (.dispatchTeam part) s = .next s) ∧
    ∀ (g : Grid) (c : Nat), s.nextGrid part = some g → s.grid? g.uid = some g → g.coop = false → s.coreFor g = some c → g.seep = 0 →
      g.scratch = 0 →
      ∃ t tm, Machine.exec (.dispatchTeam part) s = .next t ∧ t.teams = s.teams ++ [tm] ∧
        tm.grid = some g.uid ∧ tm.index = g.next ∧ tm.size = g.size ∧ tm.core = c ∧ tm.barriers.length = g.barriers ∧
        (∃ y, t.grid? g.uid = some y ∧ y = { g with next := g.next + 1, area := y.area } ∧ (g.area.isSome = true → y.area = g.area)) ∧
        t.mem = s.mem ∧
        ∃ ks, t.skeins = s.skeins ++ ks ∧ ks.length = (g.size + 31) / 32 ∧ ∀ i, i < ks.length →
          let k := ks.getD i {}
          k.team = tm.uid ∧ k.index = i ∧ k.core = c ∧ k.quad = i % 4 ∧ k.regCount = g.regs ∧ (∀ r, r < 64 → k.reg r = {}) ∧
          ∀ l, l < 32 → k.thread l = { pc := g.entry, exited := decide (g.size ≤ 32 * i + l) }

/-- R21: whose team comes next, and where it goes. The next grid is a pending one than which no pending one has a higher priority, nor
the same and an earlier launch. The core is one that can take the team, on a die than which no die with such a core has a higher rank
(for a team the affinity of its grid), nor the same with fewer resident threads of the partition, nor the same with a lower number; on
that die no core that can take the team has fewer resident threads, nor as many and a lower number. Resident threads are those that have
not exited in skeins that hold a slot. -/
def Claim.DispatchOrder : Prop :=
  ∀ (s : State) (part : Nat),
    (∀ g ∈ s.grids, g.prio ≤ 3 ∧ g.order < 2 ^ 64) →
    (s.nextGrid part = none ↔ ∀ g ∈ s.grids, s.pending part g = false) ∧
    (∀ g, s.nextGrid part = some g → g ∈ s.grids ∧ s.pending part g = true ∧
      ∀ x ∈ s.grids, s.pending part x = true → x.prio < g.prio ∨ (x.prio = g.prio ∧ g.order ≤ x.order)) ∧
    (∀ core, s.threadsOn core = ((s.skeins.filter fun k => k.slot.isSome && k.core == core).map fun k =>
      ((List.range 32).filter fun l => !(k.thread l).exited).length).sum) ∧
    (∀ (rank : Nat → Nat) (ok : Nat → Bool),
      let load := fun (d : Nat) => (((s.coresOf part).filter fun c => dieOf c == d).map s.threadsOn).sum
      (s.chooseCore part rank ok = none ↔ ∀ x ∈ s.coresOf part, ok x = false) ∧
      ∀ c, s.chooseCore part rank ok = some c → c ∈ s.coresOf part ∧ ok c = true ∧ ∀ x ∈ s.coresOf part, ok x = true →
        let D := dieOf c
        let E := dieOf x
        (rank E < rank D ∨ (rank E = rank D ∧ (load D < load E ∨ (load D = load E ∧ D ≤ E)))) ∧
        (E = D → s.threadsOn c < s.threadsOn x ∨ (s.threadsOn c = s.threadsOn x ∧ c ≤ x))) ∧
    ∀ g ∈ s.grids, ∃ ok, (∀ c, ok c = true → s.fits g.need c = true) ∧
      s.coreFor g = s.chooseCore (s.ctx g.ctx).part (s.affinityOn g) ok

/-- R342, R343, R345: CONDUCTOR_PLACE of a starting context gives it a conductor: one live thread at its start address, 32 registers, on a
core of its partition that R21 chooses; the context runs, and the driver is told by a record of kind 0x21 and by the context's vector. Of
a context not starting it changes nothing. -/
def Claim.ConductorPlaced : Prop :=
  ∀ (c : Nat) (s : State), ((s.ctx c).state ≠ .starting → Machine.exec (.conductorPlace c) s = .next s) ∧
    ∀ core, (∃ x ∈ s.contexts, x.num = c) → (s.ctx c).state = .starting →
      s.chooseCore (s.ctx c).part (fun _ => 0) (fun x => (s.conductorQuad x).isSome) = some core →
      ∃ (p : State) (k : Skein) (tm : Team), Machine.exec (.conductorPlace c) s = .next ((p.event c (s.record32 0x21 (toBytes 2 c))).signalCtx c) ∧
        p = { s with idCtr := p.idCtr, skeins := s.skeins ++ [k], teams := s.teams ++ [tm], contexts := p.contexts, partitions := p.partitions } ∧
        k.conductor = true ∧ k.ctx = c ∧ k.core = core ∧ k.regCount = 32 ∧ tm.grid = none ∧ k.team = tm.uid ∧
        (∀ l, l < 32 → k.thread l = { pc := (s.ctx c).condPc, exited := decide (1 ≤ l) }) ∧
        (p.ctx c).state = .running ∧ (p.ctx c).conductor = some k.uid ∧ ∀ d, d ≠ c → p.ctx d = s.ctx d

/-- R12, R18, R41, R42, R286: SKEIN_SLOT_RELEASE takes a drained skein away, with its team when it was the last of it; GRID_RETIRE of a
grid with nothing left, and no completion word still to write or to become visible, ends it: the grid is gone and its operation has the
status of a grid that failed (at its completion address), was cancelled before its word was written, or did neither. Before that neither
changes anything. -/
def Claim.Retirement : Prop :=
  (∀ (k : Skein) (s : State), s.sk? k.uid = some k →
    (s.drained k = false → Machine.exec (.skeinSlotRelease k.uid) s = .next s) ∧
    (s.drained k = true → (∃ x ∈ s.grids, x.ctx = k.ctx) →
      ∃ t, Machine.exec (.skeinSlotRelease k.uid) s = .next t ∧ t.sk? k.uid = none ∧ (∀ u, u ≠ k.uid → t.sk? u = s.sk? u) ∧ t.mem = s.mem ∧
        ((∃ x ∈ s.skeins, x.team = k.team ∧ x.uid ≠ k.uid) → t.teams = s.teams ∧ t.ops = s.ops) ∧
        ((∀ x ∈ s.skeins, x.team = k.team → x.uid = k.uid) → t.team? k.team = none))) ∧
  (∀ (g : Grid) (o : EngineOp) (s : State), s.grid? g.uid = some g →
    (s.spent g = false ∨ g.held ≠ none → Machine.exec (.gridRetire g.uid) s = .next s) ∧
    (s.spent g = true → g.held = none →
      g.failed = true ∨ (g.cancelled = true ∧ g.word = none) ∨ g.cAddr = 0 ∨ (∃ w, g.word = some w ∧ w < s.now) → s.op? g.op = some o → g.op = o.uid →
      (s.ctx g.ctx).dbg.tren = 0 → (∀ x ∈ s.seeps, x.grid ≠ g.uid) → (∀ k ∈ s.skeins, k.waits = []) →
      ∃ t o', Machine.exec (.gridRetire g.uid) s = .next t ∧ t.grid? g.uid = none ∧ t.op? g.op = some o' ∧ o'.done = true ∧
        o'.status = (if g.failed then 1 else if g.cancelled ∧ g.word = none then 2 else 0) ∧ (g.failed = true → o'.failAddr = g.cAddr) ∧
        (∀ r ∈ t.resids, r.owner ≠ some g.uid)))

/-- R18: GRID_RETIRE of a grid with a completion word whose page is there stores the word; the grid ends once the store is visible. -/
def Claim.CompletionWord : Prop :=
  ∀ (g : Grid) (x : Xlat) (s u : State), s.MemOk → s.grid? g.uid = some g → s.spent g = true → g.held = none → g.failed = false →
    g.cancelled = false → g.cAddr ≠ 0 →
    (∀ w, g.word = some w → s.now ≤ w → Machine.exec (.gridRetire g.uid) s = .next s) ∧
    (g.word = none → s.translate g.ctx g.cAddr = (u, .ok x) → x.w = true → x.kind ≠ 2 → canonical g.cAddr = true → x.there = true →
      s.mem = u.mem → (x.key % 128 + 8 ≤ 128) → u.writtenKey (x.key / 128) = u.keyOf (s.ctx g.ctx).part (x.key / 128) →
      ∃ t g', Machine.exec (.gridRetire g.uid) s = .next t ∧ t.mem.readN x.key 8 = toBytes 8 g.cVal.toNat ∧
        (∀ a, (a < x.key ∨ x.key + 8 ≤ a) → t.mem.read a = s.mem.read a) ∧ t.skeins = s.skeins ∧
        t.grid? g.uid = some g' ∧ g'.word.isSome = true ∧ g' = { g with word := g'.word })

end Sys2Proof.Machine

/-- Teams and conductors are placed, skeins drain, grids retire and complete. Readings and choices of the model it rests on: log 8, 15, 27, 50, 73. -/
def Obligations.TeamsPlacedAndRetired : Prop :=
  Machine.Claim.DispatchPlaces ∧ Machine.Claim.DispatchOrder ∧ Machine.Claim.ConductorPlaced ∧ Machine.Claim.Retirement ∧ Machine.Claim.CompletionWord

/-! ### Alteration and the Dowser -/

/-- R317, R321, R322: a candidate that qualifies leaves in every register of the block, in every lane, what the block leaves, whatever
the registers held: nothing that is not proved equal is ever sewn. -/
def Obligations.CandidatesAreSound : Prop :=
  ∀ (lin : Bool) (es : Es) (orig cand : List Frag) (m : Mask) (k : Skein), (∀ f ∈ orig ++ cand, ∃ i, fragOf es i = some f) →
    allOf lin [] orig = true → candidateOk lin es orig cand = true → (∀ l, l < 32 → (k.thread l).region = none) →
    ∀ r ∈ writtenOf orig, ∀ l, l < 32 → m.getLsbD l = true →
      (runFrags es m k cand).lane r.toNat l = (runFrags es m k orig).lane r.toNat l

namespace Sys2Proof.Machine

/-- R319 to R325: CANDIDATE_SEARCH takes up a candidate that is proved in the block's fragment and agrees on every swatch asked for, for
the first searching entry of its start PC with ghost slots left that it suits, and no other: one that suits none costs ghost slots.
BASTING_COMPARE counts a clean ghost run, sews at the number asked for, and on a difference drops the candidate; with nothing to search
or compare neither changes anything, nor while the engine is off for the entry's context or a debugger is attached to it (R315, R399). -/
def Claim.AlterationSteps : Prop :=
  (∀ (h : Heat) (n : Nat) (cand : List Word),
    let orig := fragWords h.es h.words
    let c := fragWords h.es cand
    let ins := inputsOf orig
    let ghost := fun (fs : List Frag) (sw : List Lane) =>
      ghostRun h.es 1 (ins.zipIdx.map fun x => (x.1.toNat, List.replicate 32 (sw.getD x.2 0))) fs
    h.accepts n cand = true ↔ candidateOk h.lin h.es orig c = true ∧ c.length = (itemsFrom h.es 0 cand.length cand).length ∧
      ∀ sw ∈ h.swatches.take n, ∀ r ∈ writtenOf orig, (ghost orig sw).lane r.toNat 0 = (ghost c sw).lane r.toNat 0) ∧
  (∀ (core : Nat) (pc : Lane) (cand : List Word) (s : State),
    let swn := fun (h : Heat) => altSwn (s.ctx h.ctx).altctl
    let searching := fun (h : Heat) => h.core == core && h.pc == pc && h.state == .searching && s.alters h.ctx && decide (h.ghosts < 2 ^ 16)
    let i := Instr.candidateSearch core pc cand
    let only := fun (x : Heat) => ∃ t, Machine.exec i s = .next t ∧ t = { s with heats := t.heats } ∧ t.heat? x.core x.ctx x.pc = some x
    (s.heats.find? searching = none → Machine.exec i s = .next s) ∧
    (∀ h, s.heats.find? (fun h => searching h && h.accepts (swn h) cand) = some h →
      only { h with state := .basting, cand := cand, clean := 0, guard := none }) ∧
    ∀ h, s.heats.find? searching = some h → (∀ x ∈ s.heats, searching x = true → x.accepts (swn x) cand = false) →
      only { h with ghosts := h.ghosts + cand.length * max 1 (swn h) }) ∧
  (∀ (core : Nat) (pc : Lane) (s : State),
    ((∀ h ∈ s.heats, h.core = core → h.pc = pc → s.alters h.ctx = true → h.state ≠ .basting ∨ h.guard = none) →
      Machine.exec (.bastingCompare core pc) s = .next s) ∧
    ∀ h g, s.heats.find? (fun h => h.core == core && h.pc == pc && h.state == .basting && h.guard.isSome && s.alters h.ctx) = some h →
      h.guard = some g →
      let n := altNbaste (s.ctx h.ctx).altctl
      let same := g.agrees h.es (fragWords h.es h.cand) = true
      (same → h.clean + 1 < n → ∃ t, Machine.exec (.bastingCompare core pc) s = .next t ∧ t = { s with heats := t.heats } ∧
        t.heat? h.core h.ctx h.pc = some { h with clean := h.clean + 1, guard := none }) ∧
      (same → n ≤ h.clean + 1 → (∃ t a, Machine.exec (.bastingCompare core pc) s = .next t ∧ a ∈ t.altered ∧ a.core = h.core ∧
        a.ctx = h.ctx ∧ a.pc = h.pc ∧ a.words = h.cand ∧ a.orig = h.words ∧ a.since = 0 ∧ a.seam = none ∧ t.skeins = s.skeins)) ∧
      (¬ same → ∃ t, Machine.exec (.bastingCompare core pc) s = .next t ∧ t.altered = s.altered ∧ t.skeins = s.skeins ∧
        t.heat? h.core h.ctx h.pc = some { h with state := .counting, count := 0, cand := [], clean := 0, guard := none, swatches := [] }))

/-- R326: ALTERED_EXECUTION runs the sewn code of a block as one unit: the registers the block writes hold what the candidate gives
them in the group's lanes, every other register stands, and the group is past the block; an entry of bad parity is discarded instead,
and with no entry at the next PC nothing happens. -/
def Claim.AlteredExecution : Prop :=
  ∀ (u : Nat) (s : State), (s.redirect u = none → Machine.exec (.alteredExecution u) s = .next s) ∧
    ∀ (a : Altered) (p : Pick) (i : Issue) (k : Skein), s.redirect u = some (a, p, i) → s.sk? u = some k → i.sk = u →
      (a.parity = false → ∃ t, Machine.exec (.alteredExecution u) s = .next t ∧ a ∉ t.altered ∧ t.skeins = s.skeins) ∧
      (a.parity = true → p.susp = none → i.isRep = false →
        ∃ t k', Machine.exec (.alteredExecution u) s = .next t ∧ t.mem = s.mem ∧ t.sk? u = some k' ∧
          (∀ v, v ≠ u → t.sk? v = s.sk? v) ∧
          let cand := runFrags a.es i.mask k (fragWords a.es a.words)
          (∀ r l, r < 64 → l < 32 → k'.lane r l =
            if BitVec.ofNat 6 r ∈ writtenOf (fragWords a.es a.orig) then cand.lane r l else k.lane r l) ∧
          ∀ h l, decodeHeader i.word = some h → i.slot + (fragWords a.es a.orig).length < h.count.toNat → l < 32 →
            p.mask.getLsbD l = true → i.mask.getLsbD l = true → (k'.thread l).pc = i.pc + 4 * BitVec.ofNat 64 a.orig.length)

/-- R327, R328: SEAM_CHECK of a ghost run that agrees clears the seam and starts the count anew; of one that does not, the entry is
unpicked and bit 40 of sys.altctl is set; with none due nothing happens. -/
def Claim.SeamChecks : Prop :=
  ∀ (core : Nat) (pc : Lane) (s : State),
    ((∀ a ∈ s.altered, a.core = core → a.pc = pc → a.seam = none) → Machine.exec (.seamCheck core pc) s = .next s) ∧
    ∀ a g, s.altered.find? (fun a => a.core == core && a.pc == pc && a.seam.isSome) = some a → a.seam = some g →
      (g.agrees a.es (fragWords a.es a.orig) = true → ∃ t, Machine.exec (.seamCheck core pc) s = .next t ∧ t.skeins = s.skeins ∧
        t.altered = s.altered.map fun x => if x = a then { a with since := 0, seam := none } else x) ∧
      (g.agrees a.es (fragWords a.es a.orig) = false → ∃ t, Machine.exec (.seamCheck core pc) s = .next t ∧ t.skeins = s.skeins ∧
        t.altered = s.altered.filter (fun x => x != a) ∧ (t.ctx a.ctx).altctl.getLsbD 40 = true)

end Sys2Proof.Machine

/-- Heat, search, sewing, altered execution and seam checks. Readings and choices of the model it rests on: log 2, 15, 45, 91. -/
def Obligations.Alteration : Prop :=
  Machine.Claim.AlterationSteps ∧ Machine.Claim.AlteredExecution ∧ Machine.Claim.SeamChecks

namespace Sys2Proof.Machine

/-- R77 to R80: DOWSER_EVALUATION changes nothing before the next multiple of 2^20 ticks; then every counter is halved, and no register
and no byte changes. DOWSER_CHUNK_COPY takes the oldest move of a partition whose Dowser is not disabled one 4 KiB chunk on, and after
the last the page lies in its new frame; with none it changes nothing. -/
def Claim.DowserSteps : Prop :=
  ∀ (s : State),
    (s.now / 2 ^ 20 = s.dowserAt / 2 ^ 20 → Machine.exec .dowserEvaluation s = .next s) ∧
    (s.now / 2 ^ 20 ≠ s.dowserAt / 2 ^ 20 → ∃ t, Machine.exec .dowserEvaluation s = .next t ∧
      t = { s with moves := t.moves, dowser := t.dowser, dowserAt := s.now } ∧
      (∀ r d, d < 4 → (t.counts r).getD d 0 = (s.counts r).getD d 0 / 2) ∧ ∃ ms, t.moves = s.moves ++ ms) ∧
    ((∀ m ∈ s.moves, (s.part m.part).dowser = true) → Machine.exec .dowserChunkCopy s = .next s) ∧
    (∀ m, s.moves.find? (fun m => !(s.part m.part).dowser) = some m → (s.part m.part).rek = false →
      (m.chunk + 1 < 512 → ∃ t, Machine.exec .dowserChunkCopy s = .next t ∧
        t.moves = s.moves.map (fun x => if x = m then { m with chunk := m.chunk + 1 } else x) ∧ t.mem = s.mem ∧ t.skeins = s.skeins) ∧
      (512 ≤ m.chunk + 1 → ∃ t, Machine.exec .dowserChunkCopy s = .next t ∧ t.frameOf m.page = (m.die, m.frame) ∧
        (∀ x ∈ t.moves, x.page ≠ m.page) ∧ t.mem = s.mem ∧ t.skeins = s.skeins))

/-! ### Contexts -/

/-- R339, R342, R346, R372: a command a context may be given now. -/
structure State.MayCommand (s : State) (pf : Bool) (c : Nat) : Prop where
  number : c < 2048
  by'    : pf = true ∨ (s.ctx c).vf ≠ none
  lock   : pf = true → s.locked (s.ctx c).part = false
  device : s.record ≠ none
  still  : (s.ctx c).state ∉ [CtxState.saving, .restoring, .killing, .starting]

/-- The outcome of a command: the context's new block; every other context's block and every skein stand. -/
def State.Commanded (s : State) (i : Instr) (c : Nat) (p : Context → Prop) : Prop :=
  ∃ t, Machine.exec i s = .next t ∧ p (t.ctx c) ∧ (∀ d, d ≠ c → t.ctx d = s.ctx d) ∧ t.skeins = s.skeins

/-- The outcome of a command that halts a context: as above, but the counts of its skeins stop (R341). -/
def State.HaltBegins (s : State) (i : Instr) (c : Nat) (p : Context → Prop) : Prop :=
  ∃ t, Machine.exec i s = .next t ∧ p (t.ctx c) ∧ (∀ d, d ≠ c → t.ctx d = s.ctx d) ∧
    t.skeins = s.skeins.map fun k => if k.ctx = c then s.stopCount k else k

/-- R341, R342, R345, R353, R359: the commands of a context: allocate (free to stopped), start (stopped to starting, when its block is valid, else
error 5), save and kill (a halt begins), restore (saved to restoring; a refused image leaves it saved), release (stopped or lost to
free, its block at reset); in another state each answers error 1 and changes nothing else. -/
def Claim.ContextCommands : Prop :=
  ∀ (pf : Bool) (c : Nat) (s : State), s.MayCommand pf c →
    let st := (s.ctx c).state
    let refused := fun (i : Instr) => Machine.exec i s = .next (s.updCtx c fun x => { x with err := 1 })
    (if st = .free then s.Commanded (.contextAllocate pf c) c fun x => x.state = .stopped ∧ x.err = 0
      else refused (.contextAllocate pf c)) ∧
    (if st = .stopped then
        s.Commanded (.contextStart pf c) c fun x =>
          if (s.ctx c).startOk then x = { s.ctx c with state := .starting, err := 0, produced := 0 } else x = { s.ctx c with err := 5 }
      else refused (.contextStart pf c)) ∧
    (if st = .running then
        s.HaltBegins (.contextSave pf c) c fun x => x.state = .saving ∧ x.haltEvent = 0x22 ∧ x.halted = false ∧ x.err = 0 ∧
          (x.halting = none ↔ (s.part (s.ctx c).part).prot = true ∧ (s.part (s.ctx c).part).slice ≠ 0)
      else refused (.contextSave pf c)) ∧
    (if st = .saved ∧ (s.ctx c).dev = false then
        s.Commanded (.contextRestore pf c) c fun x => x.err = 0 ∧ x.dev = false ∧
          x.state = if s.refuseImage c = none then .restoring else .saved
      else refused (.contextRestore pf c)) ∧
    (if st = .running ∨ st = .saved then
        s.HaltBegins (.contextKill pf c) c fun x => x.state = .killing ∧ x.haltEvent = 0x25 ∧ x.halting = some s.now ∧ x.dev = false ∧ x.err = 0
      else refused (.contextKill pf c)) ∧
    (if st = .stopped ∨ st = .lost then
        s.Commanded (.contextRelease pf c) c fun x => x = { num := c, vf := (s.ctx c).vf, dbg := (s.ctx c).dbg }
      else refused (.contextRelease pf c))

/-- R342, R346: a command finds error 2 while a transition is under way, error 6 before the device is configured, error 7 at the physical
function's hands in a locked partition; a kill of a starting context ends it at once. -/
def Claim.CommandRefusals : Prop :=
  ∀ (pf : Bool) (c : Nat) (s : State), c < 2048 → (pf = true ∨ (s.ctx c).vf ≠ none) →
    let cmds := [Instr.contextAllocate pf c, .contextStart pf c, .contextSave pf c, .contextRestore pf c, .contextRelease pf c]
    let err := fun (i : Instr) (e : Byte) => Machine.exec i s = .next (s.updCtx c fun x => { x with err := e })
    (pf = true → s.locked (s.ctx c).part = true → ∀ i ∈ cmds, err i 7) ∧
    ((pf = true → s.locked (s.ctx c).part = false) → s.record = none → ∀ i ∈ .contextKill pf c :: cmds, err i 6) ∧
    ((pf = true → s.locked (s.ctx c).part = false) → s.record ≠ none → (s.ctx c).state ∈ [CtxState.saving, .restoring, .killing] →
      ∀ i ∈ .contextKill pf c :: cmds, err i 2) ∧
    ((pf = true → s.locked (s.ctx c).part = false) → s.record ≠ none → (s.ctx c).state = .starting →
      (∀ i ∈ cmds, err i 2) ∧ ∃ t, Machine.exec (.contextKill pf c) s = .next t ∧ (t.ctx c).state = .stopped)

/-- R354 to R358, R364: CONTEXT_HALTED, once nothing of a halting context is unsettled, leaves every skein of it at a boundary, or, of a
kill, nothing of it; IMAGE_WRITE_COMPLETE then appends the sample records that are complete (R402) and saves it: the image stands, its count is one
higher, no skein of it is left; where a record of the image cannot be written the write is held for the driver, and while one is held
nothing more is done. Before that neither changes anything. -/
def Claim.HaltAndSave : Prop :=
  ∀ (c : Nat) (s : State),
    let x := s.ctx c
    (x.halting = none ∨ x.halted = true ∨ s.settled c = false → Machine.exec (.contextHalted c) s = .next s) ∧
    (x.halting ≠ none → x.halted = false → s.settled c = true →
      (x.state ≠ .killing → ∃ t, Machine.exec (.contextHalted c) s = .next t ∧ (t.ctx c).halted = true ∧ (t.ctx c).state = x.state ∧
        ∀ k ∈ t.skeins, k.ctx = c → ∀ w ∈ k.waits, w.kind.stays = true) ∧
      (x.state = .killing → ∃ t, Machine.exec (.contextHalted c) s = .next t ∧ (t.ctx c).state = .stopped ∧
        (∀ k ∈ t.skeins, k.ctx ≠ c) ∧ (∀ g ∈ t.grids, g.ctx ≠ c) ∧ ∀ o ∈ t.ops, o.ctx ≠ c)) ∧
    (x.state ≠ .saving ∨ x.halted = false → Machine.exec (.imageWriteComplete c) s = .next s) ∧
    (let u := State.flushSamples c s.samples.length s
     ((∀ y ∈ s.samples, y.ctx = c → y.left ≠ 0) → u = s) ∧
     (x.state = .saving → x.halted = true → (u.ctx c).held ≠ none ∨ (u.ctx c).queued ≠ [] →
      Machine.exec (.imageWriteComplete c) s = .next u) ∧
     (x.state = .saving → x.halted = true → (u.ctx c).held = none → (u.ctx c).queued = [] →
      let miss := u.recordsMiss c (u.sealImage c (x.saveCnt + 1).toNat).1
      (∀ a, miss = some a → ∃ t, Machine.exec (.imageWriteComplete c) s = .next t ∧
        (t.ctx c).state = .saving ∧ (t.ctx c).held = some ⟨1, a, []⟩ ∧ (t.ctx c).dfAddr = a ∧ (t.ctx c).dfKind = 0x81 ∧ t.mem = u.mem) ∧
      (miss = none → ∃ t, Machine.exec (.imageWriteComplete c) s = .next t ∧
        (t.ctx c).state = .saved ∧ (t.ctx c).image.isSome = true ∧ (t.ctx c).saveCnt = x.saveCnt + 1 ∧
        ((t.ctx c).dev = true ↔ x.haltEvent = 0x29) ∧ ∀ k ∈ t.skeins, k.ctx ≠ c)))

/-- R94, R353, R359: RESTORE_PLACE of a restoring context runs it again once all of its image finds room, and waits till then;
AUTO_RESTORE begins the restore of one the dispatcher saved, once there is room and no priority-3 team of another context is pending. -/
def Claim.RestoreSteps : Prop :=
  ∀ (c : Nat) (im : Image) (s : State), (s.ctx c).image = some im →
    ((s.ctx c).state ≠ .restoring ∨ s.seatImage im = none → Machine.exec (.restorePlace c) s = .next s) ∧
    (∀ u, (s.ctx c).state = .restoring → s.seatImage im = some u → ∃ t, Machine.exec (.restorePlace c) s = .next t ∧
      ((∃ k ∈ u.skeins, k.ctx = c) → (t.ctx c).state = .running) ∧ (t.ctx c).image = none ∧ (∀ k ∈ u.skeins, (t.sk? k.uid).isSome = true) ∧
      ∀ g ∈ im.grids, g ∈ t.grids) ∧
    ((s.ctx c).state ≠ .saved ∨ (s.ctx c).dev = false ∨ (s.ctx c).dbg.att = true ∨ s.seatImage im = none →
      Machine.exec (.autoRestore c) s = .next s) ∧
    ((s.ctx c).state = .saved → (s.ctx c).dev = true → (s.ctx c).dbg.att = false → s.seatImage im ≠ none →
      (∀ g ∈ s.grids, g.prio = 3 → g.ctx ≠ c → s.pending (s.ctx c).part g = false) → s.refuseImage c = none →
      ∃ t, Machine.exec (.autoRestore c) s = .next t ∧ (t.ctx c).state = .restoring ∧ (t.ctx c).dev = false ∧ t.skeins = s.skeins)

end Sys2Proof.Machine

/-- Context commands, their refusals, halts, saves and restores. Readings and choices of the model it rests on: log 9, 15, 48, 54, 59, 85. -/
def Obligations.Contexts : Prop :=
  Machine.Claim.ContextCommands ∧ Machine.Claim.CommandRefusals ∧ Machine.Claim.HaltAndSave ∧ Machine.Claim.RestoreSteps

namespace Sys2Proof.Machine

/-- R339, R365, R372: VF_SLOT_ASSIGN of a free context to a slot puts it there and nowhere else, the slot's old context out; a context that
another slot holds, and a function more than its partition may have (log 80), answers 4, a function locked with a protected partition,
one it had when it was locked or one of a context it has (log 88), 7. -/
def Claim.FunctionSlots : Prop :=
  ∀ (vf slot : Nat) (v : BitVec 16) (s : State), vf < 192 → slot < 64 →
    let c := v.toNat % 2048
    let lock := ∃ x ∈ s.tdisp, x.1 = vf ∧ (x.2.1 = 1 ∨ x.2.1 = 2) ∧ ∃ p, (s.part p).prot = true ∧ (p ∈ x.2.2 ∨
      ∃ d ∈ s.contexts, (∃ sl, d.vf = some (vf, sl)) ∧ d.part = p ∧ (d.state ≠ .free ∨ d.part ≠ 0 ∨ s.mode ≤ 1))
    let full := s.vfFull vf (s.ctx c).part = true
    let i := Instr.vfSlotAssign vf slot v
    (lock → Machine.exec i s = .next { s with barErr := 7 }) ∧
    (¬ lock → 2 ^ 15 ≤ v.toNat → ((s.ctx c).vf ≠ none ∧ (s.ctx c).vf ≠ some (vf, slot)) ∨ full →
      Machine.exec i s = .next { s with barErr := 4 }) ∧
    (¬ lock → 2 ^ 15 ≤ v.toNat → ((s.ctx c).vf = none ∨ (s.ctx c).vf = some (vf, slot)) → ¬ full →
      ∃ t, Machine.exec i s = .next t ∧ (t.ctx c).vf = some (vf, slot) ∧ (∀ d, s.slotCtx vf slot = some d → d ≠ c → (t.ctx d).vf = none) ∧
        t.skeins = s.skeins ∧ t.mem = s.mem) ∧
    (¬ lock → v.toNat < 2 ^ 15 → ∃ t, Machine.exec i s = .next t ∧ (∀ d, s.slotCtx vf slot = some d → (t.ctx d).vf = none) ∧
      t.skeins = s.skeins ∧ t.mem = s.mem)

/-- R339, R340, R342, R362, R363, R366, R389, R391, R393, R398: REGISTER_WRITE by the physical function does what the step of the
register it meets does: the command fields of contexts and partitions, slots, invalidation, fault responses, groups, power and debug
blocks; a write of the staging area stores its bytes. -/
def Claim.RegisterWrites : Prop :=
  ∀ (s : State) (v : Lane) (c p w g q : Nat), c < 2048 → p < 256 → w < 192 → g < 4096 → q < 2048 →
    let wr := fun (off : Nat) => Machine.exec (.registerWrite true off v) s
    let ctl := fun (n : Nat) (i : Instr) => v.toNat % 16 = n → wr (2 ^ 20 + 256 * c) = Machine.exec i s
    ctl 1 (.contextStart true c) ∧ ctl 2 (.contextSave true c) ∧ ctl 3 (.contextRestore true c) ∧ ctl 4 (.contextKill true c) ∧
    ctl 5 (.contextRelease true c) ∧ ctl 6 (.contextAllocate true c) ∧
    (wr 0x8 = Machine.exec (.bootConfigure v) s) ∧ (wr 0x100 = Machine.exec (.tlbInvalidate v) s) ∧
    (wr 0x108 = .next { s with invAddr := v }) ∧ (wr 0x500 = Machine.exec (.powerLimitWrite v) s) ∧
    (wr 0x120 = Machine.exec (if v.getLsbD 63 then .faultFail (v.toNat % 2048) (v.extractLsb' 16 32)
      else .faultRetry (v.toNat % 2048) (v.extractLsb' 16 32)) s) ∧
    (∀ slot, slot < 64 → wr (0x10000 + 512 * w + 8 * slot) = Machine.exec (.vfSlotAssign w slot (v.setWidth 16)) s) ∧
    (p < s.mode → (v.toNat % 16 = 1 → wr (0x30000 + 256 * p) = Machine.exec (.partitionActivate p) s) ∧
      (v.toNat % 16 = 2 → wr (0x30000 + 256 * p) = Machine.exec (.partitionRekey p) s) ∧
      (v.toNat % 16 = 3 → wr (0x30000 + 256 * p) = Machine.exec (.partitionRelease p) s) ∧
      wr (0x30080 + 256 * p) = Machine.exec (.partitionClockWrite p v) s) ∧
    (wr (0x50000 + 16 * g) = Machine.exec (.sluiceGroupWrite g v (s.groupEntry g).2) s) ∧
    (wr (0x60018 + 32 * q) = Machine.exec (.powerBlockWrite q v) s) ∧
    (∀ o, o < 64 → wr (0xA0000 + 64 * c + o) = Machine.exec (.debugBlockWrite c o v) s) ∧
    (∀ n, n < 18 → wr (0x400 + 8 * n) = Machine.exec (.portHold n (v.getLsbD 0)) s) ∧
    (∀ o, o + 8 ≤ 0x10000 → s.MemOk → ∃ t, wr (0x80000 + o) = .next t ∧ t = { s with mem := t.mem } ∧
      t.mem.readN (stagingKey o) 8 = toBytes 8 v.toNat ∧ ∀ a, (a < stagingKey o ∨ stagingKey o + 8 ≤ a) → t.mem.read a = s.mem.read a)

/-! ### The device, the host and its driver -/

/-- R346, R347, R365, R379: BOOT_CONFIGURE with a valid record configures the device: partitions idle, enabled ports in training, each a
change that is signalled; an invalid one leaves its code; configured, or with another value, nothing changes. -/
def Claim.Boot : Prop :=
  ∀ (v : Lane) (s : State),
    let r := s.mem.readN (stagingKey 0) 65536
    (v ≠ 1 ∨ s.record ≠ none → Machine.exec (.bootConfigure v) s = .next s) ∧
    (v = 1 → s.record = none → bootVerdict r ≠ 0 → Machine.exec (.bootConfigure v) s = .next { s with bootCode := bootVerdict r }) ∧
    (v = 1 → s.record = none → bootVerdict r = 0 → ∃ t x, Machine.exec (.bootConfigure v) s = .next t ∧ t.record = some x ∧ t.bootCode = 0 ∧
      x.mode = recAt r 0x10 1 ∧ x.vfs = recAt r 0x11 1 ∧ t.mem = s.mem ∧
      (∀ p, p < x.mode → (t.part p).state = .idle ∧ (t.part p).frames = List.replicate 4 (0, 0)) ∧
      (∀ n, n < 18 → (t.port n).state = if (recAt r 0x14 4 / 2 ^ n) % 2 = 1 then 1 else 0) ∧ t.skeins = s.skeins ∧
      t.msixLog = s.msixLog ++ ((List.range 18).filter fun n => decide ((recAt r 0x14 4 / 2 ^ n) % 2 = 1)).map fun _ => (0, s.ubMsix.toNat % 2048))

/-- R95, R346: DEVICE_RESET leaves every register and every table at reset: all of the state is the reset state's, but for what follows.
Well and host memory keep their bytes, their poison and the keys these are written under, scratch, seep and staging read zero; domain
time stands, and the windows that count its ticks begin anew (log 4); what the device has told the host, and the model's own counters and
agenda, stand (log 1, 11). -/
def Claim.DeviceResets : Prop :=
  ∀ (s : State), ∃ t, Machine.exec .deviceReset s = .next t ∧
    t = { State.reset with
      now := s.now, mem := t.mem, poisoned := t.poisoned, lineKeys := s.lineKeys, dowserAt := s.now, power := t.power, powerAt := s.now
      telemetryAt := s.now, msixLog := s.msixLog, attest := s.attest, agenda := s.agenda, freeCtr := s.freeCtr, idCtr := s.idCtr } ∧
    (∀ c, c < 96 → t.powerOf c = { cluster := c, since := s.now }) ∧
    (∀ g, g ∈ t.poisoned ↔ g ∈ s.poisoned ∧ (isWell (8 * g) = true ∨ isHost (8 * g) = true)) ∧
    ∀ a, t.mem.read a = if isWell a = true ∨ isHost a = true then s.mem.read a else 0

/-- R338, R362 to R364, R369: the steps of the host and of the driver complete. HOST_MEM_ACCESS inside its space, and within one frame that
no protected partition owns, has stored its bytes or, as a read, changes none; TLB_INVALIDATE with a scope that exists leaves no entry of
its scope, be it an address of a context, a context or a function; INVALIDATION_COMPLETE with no access and no engine's message open sets
bit 63; FAULT_RETRY and FAULT_FAIL of a held fault take it out of the context's
list. -/
def Claim.HostStepsComplete : Prop :=
  ∀ (s : State), s.MemOk →
    (∀ addr bs len, addr + bs.length ≤ 2 ^ 52 → ∃ t, Machine.exec (.hostMemAccess true addr (some bs) len) s = .next t ∧
      ∀ i, i < bs.length → t.mem.read (hostKey addr + i) = bs.getD i 0) ∧
    (∀ addr bs len, s.record ≠ none → addr + bs.length ≤ wellTop → (addr + bs.length) ≤ (addr / 2 ^ 21 + 1) * 2 ^ 21 →
      (∀ p, s.ownerOf (addr / 2 ^ 21) = some p → (s.part p).prot = false) →
      ∃ t, Machine.exec (.hostMemAccess false addr (some bs) len) s = .next t ∧ ∀ i, i < bs.length → t.mem.read (addr + i) = bs.getD i 0) ∧
    (∀ host addr len, ∃ t, Machine.exec (.hostMemAccess host addr none len) s = .next t ∧ t.mem = s.mem) ∧
    (∀ v : Lane, v.getLsbD 31 = true → v.toNat / 2 ^ 12 % 4 ≠ 3 → (v.toNat / 2 ^ 12 % 4 = 2 → v.toNat / 2 ^ 16 % 256 ≤ 191) →
      ∃ t, Machine.exec (.tlbInvalidate v) s = .next t ∧ t.invCtl.toNat = v.toNat % 2 ^ 32 ∧
        (v.toNat / 2 ^ 12 % 4 = 0 → ∀ e ∈ t.tlb, ¬ (e.ctx = v.toNat % 2048 ∧ e.page ≤ va57 s.invAddr ∧ va57 s.invAddr < e.page + e.size)) ∧
        (v.toNat / 2 ^ 12 % 4 = 1 → ∀ e ∈ t.tlb, e.ctx ≠ v.toNat % 2048) ∧
        (v.toNat / 2 ^ 12 % 4 = 2 → ∀ e ∈ t.tlb, e.vf ≠ some (v.toNat / 2 ^ 16 % 256))) ∧
    (s.invCtl.getLsbD 31 = true → (∀ a ∈ s.accesses, s.invOpen a = false) → (∀ o ∈ s.ops, s.invSent o = false) →
      ∃ t, Machine.exec .invalidationComplete s = .next t ∧ t.invCtl.getLsbD 63 = true) ∧
    (∀ c f, f.seq < 2 ^ 32 - 1 → s.fault? c f.seq = some f → f.acc = none →
      (∃ t, Machine.exec (.faultRetry c (BitVec.ofNat 32 f.seq)) s = .next t ∧ t.fault? c f.seq = none) ∧
      ∃ t, Machine.exec (.faultFail c (BitVec.ofNat 32 f.seq)) s = .next t ∧ t.fault? c f.seq = none)

end Sys2Proof.Machine

/-- Function slots, device registers, boot and resets; the steps of the host and of the driver complete. Readings and choices of the
model it rests on: log 1, 4, 11, 15, 21, 65, 80, 88. -/
def Obligations.DeviceRegisters : Prop :=
  Machine.Claim.FunctionSlots ∧ Machine.Claim.RegisterWrites ∧ Machine.Claim.Boot ∧ Machine.Claim.DeviceResets ∧ Machine.Claim.HostStepsComplete

namespace Sys2Proof.Machine

/-- R66, R338, R369: HOST_MEM_ACCESS stores into host memory, and through CXL.mem into well memory that no partition owns, or into a
plain partition's; into a protected partition's frame it stores nothing, each frame judged on its own. Outside its space, and of well
memory before the device is configured, it stores nothing. A read changes no byte. -/
def Claim.HostAccesses : Prop :=
  ∀ (addr len : Nat) (bs : List Byte) (s : State), s.MemOk → bs ≠ [] →
    let inside := fun (a : Nat) => addr ≤ a ∧ a < addr + bs.length
    (addr + bs.length ≤ 2 ^ 52 → ∃ t, Machine.exec (.hostMemAccess true addr (some bs) len) s = .next t ∧ t.skeins = s.skeins ∧
      t.mem.readN (hostKey addr) bs.length = bs ∧
      ∀ a, (a < hostKey addr ∨ hostKey addr + bs.length ≤ a) → t.mem.read a = s.mem.read a) ∧
    (2 ^ 52 < addr + bs.length → Machine.exec (.hostMemAccess true addr (some bs) len) s = .next s) ∧
    (Machine.exec (.hostMemAccess true addr none len) s = .next s) ∧
    (s.record = none ∨ wellTop < addr + bs.length → Machine.exec (.hostMemAccess false addr (some bs) len) s = .next s) ∧
    (s.record ≠ none → addr + bs.length ≤ wellTop →
      let shut := fun (a : Nat) => ∃ p, s.ownerOf (a / 2 ^ 21) = some p ∧ (s.part p).prot = true
      ((∀ a, inside a → shut a) → Machine.exec (.hostMemAccess false addr (some bs) len) s = .next s) ∧
      ((∀ a p, inside a → s.ownerOf (a / 2 ^ 21) = some p → (s.part p).prot = false → s.writtenKey (a / 128) = s.keyOf p (a / 128)) →
        ∃ t, Machine.exec (.hostMemAccess false addr (some bs) len) s = .next t ∧ t.skeins = s.skeins ∧
          ∀ a, (inside a → ¬ shut a → t.mem.read a = bs.getD (a - addr) 0) ∧ (¬ inside a ∨ shut a → t.mem.read a = s.mem.read a))) ∧
    ∃ t, Machine.exec (.hostMemAccess false addr none len) s = .next t ∧ t.mem = s.mem ∧ t.skeins = s.skeins

/-- R362: TLB_INVALIDATE drops exactly the entries its scope covers: one address of a context, a context, a function; a scope that does not
exist answers 0x0A; what the entries it drops covered is kept until the invalidation is complete. INVALIDATION_COMPLETE sets bit 63 once
no access that may have used such an entry is open, and no message of an engine to a peer that may have is unanswered. -/
def Claim.Invalidations : Prop :=
  ∀ (v : Lane) (s : State),
    let scope := v.toNat / 2 ^ 12 % 4
    let vf := v.toNat / 2 ^ 16 % 256
    let i := Instr.tlbInvalidate v
    (v.getLsbD 31 = false → Machine.exec i s = .next s) ∧
    (v.getLsbD 31 = true → (scope = 3 ∨ (scope = 2 ∧ 191 < vf)) → Machine.exec i s = .next { s with barErr := 0x0A }) ∧
    (v.getLsbD 31 = true → scope ≠ 3 → (scope = 2 → vf ≤ 191) → ∃ t, Machine.exec i s = .next t ∧
      t = { s with tlb := t.tlb, invCtl := t.invCtl, invFrom := s.idCtr, invGone := t.invGone } ∧ t.invCtl.toNat = v.toNat % 2 ^ 32 ∧
      (∀ g, g ∈ t.invGone ↔ (s.invCtl.getLsbD 63 = false ∧ g ∈ s.invGone) ∨ ∃ e ∈ s.tlb, e ∉ t.tlb ∧ g = (e.ctx, e.page, e.size)) ∧
      ∀ e, e ∈ t.tlb ↔ e ∈ s.tlb ∧ ¬ (match scope with
        | 0 => e.ctx = v.toNat % 2048 ∧ e.page ≤ va57 s.invAddr ∧ va57 s.invAddr < e.page + e.size
        | 1 => e.ctx = v.toNat % 2048
        | _ => e.vf = some vf)) ∧
    (∀ a, s.invOpen a = true ↔ a.id < s.invFrom ∧ a.done = false ∧ (a.place = .global ∨ ∃ d, a.place = .peer d) ∧
      ∃ x ∈ a.lanes, ∃ g ∈ s.invGone, g.1 = a.ctx ∧ g.2.1 ≤ va57 x.va ∧ va57 x.va < g.2.1 + g.2.2) ∧
    (∀ o, s.invSent o = true ↔ ∃ m, (m ∈ o.outs ∨ (m ∈ o.asked ∧ ∀ h ∈ o.heard, h.1 ≠ m.num)) ∧ m.id < s.invFrom ∧
      ∃ g ∈ s.invGone, g.1 = o.ctx ∧ g.2.1 ≤ va57 m.va + 127 ∧ va57 m.va < g.2.1 + g.2.2) ∧
    (s.invCtl.getLsbD 31 = true → (∀ a ∈ s.accesses, s.invOpen a = false) → (∀ o ∈ s.ops, s.invSent o = false) →
      ∃ t, Machine.exec .invalidationComplete s = .next t ∧ t = { s with invCtl := t.invCtl } ∧ t.invCtl.getLsbD 63 = true ∧
        ∀ n, n < 63 → t.invCtl.getLsbD n = s.invCtl.getLsbD n) ∧
    (s.invCtl.getLsbD 31 = false ∨ s.invCtl.getLsbD 63 = true ∨ (∃ a ∈ s.accesses, s.invOpen a = true) ∨ (∃ o ∈ s.ops, s.invSent o = true) →
      Machine.exec .invalidationComplete s = .next s)

/-- R363, R364: FAULT_RETRY lets the instruction that waits for the fault issue again; FAULT_FAIL makes its threads take kind 3 with the
address and the access kind. Of a fault that is not held neither changes anything. Of an engine's fault a retry lets the operation go on
and a failure ends it with status 1; of a grid's completion word a retry lets the grid retire, a failure fails it. With no write of the
device held, the answer to one changes nothing; a record held is appended again, or lost and counted; a save whose write fails is
abandoned with error 8, and so is the context whose swap-out's write fails while it runs (R353). -/
def Claim.FaultAnswers : Prop :=
  ∀ (c : Nat) (seq : BitVec 32) (s : State),
    (seq = 0xFFFFFFFF → (s.ctx c).held = none → Machine.exec (.faultRetry c seq) s = .next s ∧ Machine.exec (.faultFail c seq) s = .next s) ∧
    (seq ≠ 0xFFFFFFFF → (∀ f ∈ (s.ctx c).faults, f.seq ≠ seq.toNat) →
      Machine.exec (.faultRetry c seq) s = .next s ∧ Machine.exec (.faultFail c seq) s = .next s) ∧
    (∀ f, seq ≠ 0xFFFFFFFF → s.fault? c seq.toNat = some f → f.seq = seq.toNat →
      let cleared := s.updCtx c fun x => { x with faults := x.faults.filter fun g => g.seq != seq.toNat }
      (∀ u k w, f.sk = some u → s.sk? u = some k → k.replayWait seq.toNat = some w →
        (∃ t, Machine.exec (.faultRetry c seq) s = .next t ∧ cleared.SkBecame t u (k.retry w)) ∧
        ∃ t, cleared.SkBecame t u (k.dropWait w.id) ∧ Machine.exec (.faultFail c seq) s = .next
          ({ t with issue := { w.issue with sk := u, mask := laneMask (k.inWait w.id) } }.takeTrap
            { kind := 3, addr := f.addr, aux := f.kind.setWidth 64 })) ∧
      (∀ o x, f.sk = none → f.op = some o → s.op? o = some x →
        (∃ t, Machine.exec (.faultRetry c seq) s = .next t ∧ t = { cleared with ops := t.ops } ∧ t.op? o = some { x with held := none }) ∧
        ∃ t, Machine.exec (.faultFail c seq) s = .next t ∧ t = { cleared with ops := t.ops } ∧
          t.op? o = some { x with held := none, ready := true, status := 1, failAddr := f.addr
                                  asked := [], heard := [], atTiles := [], seg := none, wrote := [], wants := [] }) ∧
      (∀ g y, f.sk = none → f.op = none → f.acc = none → f.grid = some g → s.grid? g = some y →
        (∃ t, Machine.exec (.faultRetry c seq) s = .next t ∧ t.skeins = s.skeins ∧ t.grid? g = some { y with held := none }) ∧
        ∃ t, Machine.exec (.faultFail c seq) s = .next t ∧ t.skeins = s.skeins ∧ t.grid? g = some { y with held := none, failed := true })) ∧
    (∀ d, seq = 0xFFFFFFFF → (s.ctx c).held = some d → (s.ctx c).queued = [] →
      (d.kind ≠ 1 → Machine.exec (.faultRetry c seq) s =
          .next ((s.updCtx c fun x => { x with held := none, queued := [], dfKind := 0 }).putRecord c d.kind d.bytes) ∧
        ∃ t, Machine.exec (.faultFail c seq) s = .next t ∧ t.skeins = s.skeins ∧ t.mem = s.mem ∧ (t.ctx c).held = none ∧
          (t.ctx c).dfDrop.toNat = min (2 ^ 32 - 1) ((s.ctx c).dfDrop.toNat + 1)) ∧
      (d.kind = 1 → (s.ctx c).state = .saving ∨ (s.ctx c).state = .running → ∃ t, Machine.exec (.faultFail c seq) s = .next t ∧ (t.ctx c).state = .stopped ∧
        (t.ctx c).err = 8 ∧ ∀ k ∈ t.skeins, k.ctx ≠ c))

end Sys2Proof.Machine

/-- Host accesses, invalidations and the driver's answers to faults. Readings and choices of the model it rests on: log 15, 26, 58, 60, 65, 82. -/
def Obligations.HostAndFaults : Prop :=
  Machine.Claim.HostAccesses ∧ Machine.Claim.Invalidations ∧ Machine.Claim.FaultAnswers

/-! ### Partitions -/

namespace Sys2Proof.Machine

/-- R366, R368, R370, R393: the commands of a partition: activate (idle with frames, keys drawn), rekey (active, the old key kept for the
sweep), release (active or lost with every context free, its block at reset), in another state error 4; a clock code inside the
partition's range, in state idle, is taken, and the clusters that run or step higher step down to it. KEY_SWEEP_LINE re-encrypts the line at its place and moves on. -/
def Claim.PartitionCommands : Prop :=
  ∀ (p : Nat) (s : State) (r : Record), s.record = some r → p < r.mode → s.locked p = false →
    let x := s.part p
    let err := fun (i : Instr) (e : Byte) => Machine.exec i s = .next (s.updPart p fun y => { y with err := e })
    (x.rek = true → err (.partitionActivate p) 5 ∧ err (.partitionRekey p) 5) ∧
    (x.rek = false → (x.state ≠ .idle ∨ ∀ f ∈ x.frames, f.2 = 0) → err (.partitionActivate p) 4) ∧
    (x.rek = false → x.state = .idle → (∃ f ∈ x.frames, f.2 ≠ 0) → ∃ t, Machine.exec (.partitionActivate p) s = .next t ∧
      t.part p = { x with state := .active, err := 0, memKey := s.idCtr, imgKey := s.idCtr + 1, slewWrites := []
                          measured := x.measures r.mode } ∧
      (∀ c, s.partOfCluster c = p → t.slew c = 0x1007) ∧ t.skeins = s.skeins ∧ t.mem = s.mem) ∧
    (x.rek = false → x.state ≠ .active → err (.partitionRekey p) 4) ∧
    (x.rek = false → x.state = .active → ∃ t, Machine.exec (.partitionRekey p) s = .next t ∧ (t.part p).rek = true ∧
      (t.part p).memKey = s.idCtr ∧ (t.part p).oldKey = x.memKey ∧ t.mem = s.mem ∧ t.skeins = s.skeins) ∧
    ((x.state = .idle ∨ ∃ c ∈ s.contexts, c.part = p ∧ c.state ≠ .free) → err (.partitionRelease p) 4) ∧
    ((x.state = .active ∨ x.state = .lost) → (∀ c ∈ s.contexts, c.part = p → c.state = .free) →
      ∃ t, Machine.exec (.partitionRelease p) s = .next t ∧ t.part p = r.block p ∧ t.mem = s.mem ∧ (∀ e ∈ t.tlb, e.owner ≠ p) ∧ (∀ e ∈ t.copies, e.owner ≠ p) ∧
        (∀ e ∈ t.ilines, e.owner ≠ p) ∧ ∀ e ∈ t.homes, e.owner = p → e.cached = false) ∧
    (∀ v : Lane, let range := r.clocks.getD p (0, 26)
      (x.prot = true ∨ x.state ≠ .idle → err (.partitionClockWrite p v) 1) ∧
      (x.prot = false → x.state = .idle → (26 < v.toNat ∨ v.toNat < range.1 ∨ range.2 < v.toNat) → err (.partitionClockWrite p v) 3) ∧
      (x.prot = false → x.state = .idle → v.toNat ≤ 26 → range.1 ≤ v.toNat → v.toNat ≤ range.2 →
        ∃ t, Machine.exec (.partitionClockWrite p v) s = .next t ∧ (t.part p).clock = v.toNat ∧ t.skeins = s.skeins ∧ t.mem = s.mem ∧
          ∀ c, c < 96 → s.partOfCluster c = p → v.toNat < ((s.powerOf c).target.getD (s.powerOf c).freq).toNat →
            (t.powerOf c).target = if (s.powerOf c).freq = BitVec.ofNat 5 v.toNat then none else some (BitVec.ofNat 5 v.toNat))) ∧
    (x.rek = false → Machine.exec (.keySweepLine p) s = .next s) ∧
    (x.rek = true → x.sweepDie < 4 → s.MemOk →
      let line := s.lineAt x.sweepDie ((x.frames.getD x.sweepDie (0, 0)).1 + x.sweepLine / 16384) (x.sweepLine % 16384)
      ∃ t, Machine.exec (.keySweepLine p) s = .next t ∧ t.mem.readN (128 * line) 128 = s.load p (128 * line) 128 ∧
        (∀ a, a / 128 ≠ line → t.mem.read a = s.mem.read a) ∧ t.writtenKey line = x.memKey ∧ t.skeins = s.skeins)

/-- R371, R372, R374, R375: SESSION_OPEN takes a period and a slice within their limits in an active protected partition without a
session; HEARTBEAT below the deadline moves it on; HEARTBEAT_DEADLINE at the deadline loses the partition: its contexts lost, its skeins
gone, its keys gone. SLICE_BOUNDARY begins the halts that waited for it. TDISP_LOCK locks an unlocked function with the partitions it has, and starts
one that is locked. -/
def Claim.Sessions : Prop :=
  ∀ (p : Nat) (s : State),
    let x := s.part p
    (∀ h slice, (x.prot = false ∨ x.state ≠ .active ∨ x.session = true ∨ h < 2 ^ 16 ∨ 2 ^ 30 < h ∨ ∀ i, 16 ≤ i → i ≤ 24 → slice ≠ 2 ^ i) →
      Machine.exec (.sessionOpen p h slice) s = .next s) ∧
    (∀ h i, x.prot = true → x.state = .active → x.session = false → 2 ^ 16 ≤ h → h ≤ 2 ^ 30 → 16 ≤ i → i ≤ 24 →
      ∃ t, Machine.exec (.sessionOpen p h (2 ^ i)) s = .next t ∧ t = { s with partitions := t.partitions } ∧ (t.part p).session = true ∧
        (t.part p).hb = h ∧ (t.part p).slice = 2 ^ i ∧ (t.part p).deadline = s.now + h ∧ ∀ q, q ≠ p → t.part q = s.part q) ∧
    (x.session = false ∨ x.state ≠ .active ∨ s.deadlineOf x ≤ s.now → Machine.exec (.heartbeat p) s = .next s) ∧
    (x.session = true → x.state = .active → s.now < s.deadlineOf x → ∃ t, Machine.exec (.heartbeat p) s = .next t ∧
      t = { s with partitions := t.partitions } ∧ (t.part p).deadline = s.now + x.hb ∧ ∀ q, q ≠ p → t.part q = s.part q) ∧
    (x.session = false ∨ x.idleSince ≠ none ∨ s.now < x.deadline → Machine.exec (.heartbeatDeadline p) s = .next s) ∧
    (x.session = true → x.idleSince = none → x.deadline ≤ s.now → ∃ t, Machine.exec (.heartbeatDeadline p) s = .next t ∧
      (t.part p).state = .lost ∧ (t.part p).memKey = 0 ∧ (t.part p).imgKey = 0 ∧ (t.part p).session = false ∧
      (∀ c ∈ s.contexts, c.part = p → c.state ≠ .free → (t.ctx c.num).state = .lost) ∧
      ∀ k ∈ t.skeins, ∀ c ∈ s.contexts, c.part = p → c.state ≠ .free → k.ctx ≠ c.num) ∧
    (x.prot = false ∨ x.slice = 0 ∨ s.now / x.slice * x.slice ≤ x.sliceAt → Machine.exec (.sliceBoundary p) s = .next s) ∧
    (x.prot = true → x.slice ≠ 0 → x.sliceAt < s.now / x.slice * x.slice → ∃ t, Machine.exec (.sliceBoundary p) s = .next t ∧
      t = { s with partitions := t.partitions, contexts := t.contexts } ∧ (t.part p).sliceAt = s.now / x.slice * x.slice ∧
      ∀ c ∈ t.contexts, c.part = p → c.state = .saving → c.halting ≠ none) ∧
    (∀ vf,
      (192 ≤ vf ∨ 2 ≤ (s.tdispOf vf).toNat → Machine.exec (.tdispLock vf) s = .next s) ∧
      (vf < 192 → (s.tdispOf vf).toNat < 2 → ∃ t, Machine.exec (.tdispLock vf) s = .next t ∧ t = { s with tdisp := t.tdisp } ∧
        t.tdispOf vf = s.tdispOf vf + 1 ∧ (∀ w, w ≠ vf → t.tdispOf w = s.tdispOf w) ∧
        (s.tdispOf vf = 0 → (vf, (1 : Byte), s.partsOfVf vf) ∈ t.tdisp)))

/-- R373: GET_MEASUREMENTS of an index from 1 to 4 (the firmware, the accepted record, the block as it was activated of the partition of
the function's contexts, the interface report), CHALLENGE and GET_CERTIFICATE, where the chain is the device's own, send one answer; nothing else changes. Another
index has none, nor has index 3 of a function without a partition (log 88). -/
def Claim.Attestation : Prop :=
  ∀ (s : State), let answered := fun (i : Instr) (bs : List Byte) => Machine.exec i s = .next { s with attest := s.attest ++ [bs] }
    (∀ index vf, 1 ≤ index → index ≤ 4 → index ≠ 3 →
      let m := if index = 1 then Config.sha256 Config.firmware
        else if index = 2 then Config.sha256 ((s.record.map (·.raw)).getD [])
        else toBytes 1 vf ++ [s.tdispOf vf] ++ (s.partsOfVf vf).map (BitVec.ofNat 8)
      answered (.getMeasurements index vf) (Config.attestation 1 (index :: m.map (·.toNat)))) ∧
    (∀ vf p, s.vfTenant vf = some p →
      answered (.getMeasurements 3 vf) (Config.attestation 1 (3 :: (Config.sha256 (s.part p).measured).map (·.toNat)))) ∧
    (∀ vf, s.vfTenant vf = none → Machine.exec (.getMeasurements 3 vf) s = .next s) ∧
    (∀ vf p, (∃ d ∈ s.contexts, (∃ sl, d.vf = some (vf, sl)) ∧ d.state ≠ .free) →
      (∀ d ∈ s.contexts, (∃ sl, d.vf = some (vf, sl)) → d.state ≠ .free → d.part = p) → s.vfTenant vf = some p) ∧
    (∀ index vf, index = 0 ∨ 4 < index → Machine.exec (.getMeasurements index vf) s = .next s) ∧
    (∀ nonce, answered (.challenge nonce) (Config.attestation 2 (nonce.map (·.toNat)))) ∧
    (∀ r, s.record = some r → Config.ownLeaf r.chain = true → answered .getCertificate r.chain) ∧
    (∀ r, s.record = some r → Config.ownLeaf r.chain = false → Machine.exec .getCertificate s = .next s) ∧
    (s.record = none → Machine.exec .getCertificate s = .next s)

end Sys2Proof.Machine

/-- Partition commands, sessions and attestation. Readings and choices of the model it rests on: log 12, 15, 56, 57, 79, 88. -/
def Obligations.PartitionsAndSessions : Prop :=
  Machine.Claim.PartitionCommands ∧ Machine.Claim.Sessions ∧ Machine.Claim.Attestation

/-! ### Deadlock, the watchdog and samples -/

namespace Sys2Proof.Machine

/-- The groups that a synchronising wait combines, standing at its instruction as one group (R55, R56). -/
def State.together (s : State) (k : Skein) (w : Wait) : State :=
  { s.updSk k.uid fun k => { k.updThreads (k.matesIn w) fun _ t => { t with waiting := none } with
      waits := k.waits.filter fun x => !(k.mates w).contains x } with
    issue := { w.issue with sk := k.uid, mask := laneMask (k.matesIn w) } }

/-- R56, R59, R341, R402: SYNC_COMPLETE of a wait whose members are not all there changes nothing; when they are, and nothing they read is
pending or poisoned, each of its groups is past its instruction, with the registers, predicates and flags that the instruction leaves
when all of them execute it as one group (O18); where it is poisoned they stand at the instruction again. MEMBER_DEADLOCK and WATCHDOG_FIRE, when they are due, make a group take
kind 8 or kind 15, the second the group that can issue, else the waiting one of lowest PC, and nothing of the machine changes before. SAMPLE_RECORD takes off a complete sample, the one that
completed first. -/
def Claim.WaitingEnds : Prop :=
  ∀ (s : State) (k : Skein), s.sk? k.uid = some k →
    (∀ w, k.wait? w.id = some w → w.kind ≠ .syncPre → k.allThere w = false → Machine.exec (.syncComplete k.uid w.id) s = .next s) ∧
    (∀ w, k.wait? w.id = some w → k.allThere w = true → k.syncPoison w = true →
      ∃ t, Machine.exec (.syncComplete k.uid w.id) s = .next t ∧ s.SkBecame t k.uid (k.dropMates w)) ∧
    (∀ w, k.wait? w.id = some w → k.allThere w = true → (∀ r ∈ k.syncReads w, k.pendingBy r = none) → k.syncPoison w = false →
      ∃ t k', Machine.exec (.syncComplete k.uid w.id) s = .next t ∧ s.SkBecame t k.uid k' ∧ (∀ x ∈ k'.waits, x ∉ k.mates w) ∧
        (∀ l, l < 32 → k.matesIn w l = true → (k'.thread l).waiting = none) ∧
        (∀ l, l < 32 → k.matesIn w l = false → k'.thread l = k.thread l) ∧
        ((∀ x ∈ k.mates w, ∀ y ∈ k.mates w, x.id = y.id → x = y) →
          (∀ x ∈ k.mates w, ∀ l, l < 32 → k.inWait x.id l = true →
            { k'.thread l with pred := (k.thread l).pred, sticky := (k.thread l).sticky } = x.issue.past (k.thread l)) ∧
          let u := s.together k w
          ∀ m ds v, syncParts w.instr = some (m, ds) → w.es = u.es → u.Fresh → u.AllIn m →
            u.Clear (maskRegs m ++ (syncSrcs w.instr).map plain) ds → Machine.exec w.instr u = .next v →
              v.cur.handler = k.handler → v.cur.escalated = none →
            k'.regs = v.cur.regs ∧ ∀ l, l < 32 →
              (k'.thread l).pred = (v.cur.thread l).pred ∧ (k'.thread l).sticky = (v.cur.thread l).sticky)) ∧
    (s.deadlocked k = false → Machine.exec (.memberDeadlock k.uid) s = .next s) ∧
    (s.deadlocked k = true → k.handler = none → ∃ t k', Machine.exec (.memberDeadlock k.uid) s = .next t ∧ t.sk? k.uid = some k' ∧
      k'.handler.isSome = true ∧ k'.flt.toNat % 256 = 8 ∧
      k'.fltlanes.toNat = (laneMask fun l => !(k.thread l).exited && (k.syncWaitOf l).isSome).toNat ∧ k'.regs = k.regs) ∧
    (s.watchdogDue k = false → Machine.exec (.watchdogFire k.uid) s = .next { s with blocked := false }) ∧
    (∀ p i, s.watchdogDue k = true → k.handler = none → s.plan k = .go p i → s.blocked = false →
      ∃ t k', Machine.exec (.watchdogFire k.uid) s = .next t ∧ t.sk? k.uid = some k' ∧ k'.handler.isSome = true ∧
        k'.flt.toNat % 256 = 15 ∧ k'.fltpc = i.pc ∧ k'.fltaux = 0 ∧ k'.idle = 0 ∧ k'.regs = k.regs) ∧
    (∀ w, s.watchdogDue k = true → k.handler = none → ((∀ p i, s.plan k ≠ .go p i) ∨ s.blocked = true) →
      w ∈ k.waits → k.standsIn w = true → (∀ x ∈ k.waits, k.standsIn x = true → x = w ∨ w.issue.pc.toNat < x.issue.pc.toNat) →
      ∃ t k', Machine.exec (.watchdogFire k.uid) s = .next t ∧ t.sk? k.uid = some k' ∧ k'.handler.isSome = true ∧
        k'.flt.toNat % 256 = 15 ∧ k'.fltpc = w.issue.pc ∧ k'.idle = 0 ∧ w ∉ k'.waits ∧
        k'.fltaux = match w.kind with | .bar .. => 1 | .gbar _ => 1 | _ => 0) ∧
    (∀ x, s.samples.find? (fun y => y.id == x.id) = some x →
      (x.left ≠ 0 → Machine.exec (.sampleRecord x.id) s = .next s) ∧
      (x.left = 0 → (∀ y ∈ s.samples, y.ctx = x.ctx → y.left = 0 → y = x ∨ x.at' < y.at') →
        ∃ t, Machine.exec (.sampleRecord x.id) s = .next t ∧ t.samples = s.samples.erase x ∧ t.skeins = s.skeins))

end Sys2Proof.Machine

/-- The Dowser's moves, and the ends of waits. Readings and choices of the model it rests on: log 15, 61, 71, 81, 92. -/
def Obligations.DowserAndWaits : Prop :=
  Machine.Claim.DowserSteps ∧ Machine.Claim.WaitingEnds

/-! ### The Ubend domain -/

namespace Sys2Proof.Machine

/-- R379: PORT_HOLD takes an up port down and lets a held one that is down train again; PORT_STATE_CHANGE ends a training in up or down,
takes an up port down, and trains a port that is down and not held; every other change of state is ignored. Neither touches a skein or
a byte of memory. -/
def Claim.PortStates : Prop :=
  ∀ (n : Nat) (s : State), n < 18 →
    let p := s.port n
    let same := fun (t : State) => t.skeins = s.skeins ∧ t.mem = s.mem
    (∀ h, ∃ t, Machine.exec (.portHold n h) s = .next t ∧ same t ∧ (t.port n).hold = h ∧
      (t.port n).state = if h = true ∧ p.state = 2 then 3 else if h = false ∧ p.state = 3 then 1 else p.state) ∧
    (∀ st far,
      let ok := p.state ≠ 0 ∧ ((st = 2 ∧ p.state = 1 ∧ p.hold = false) ∨ (st = 3 ∧ (p.state = 1 ∨ p.state = 2)) ∨
        (st = 1 ∧ p.state = 3 ∧ p.hold = false))
      (¬ ok → Machine.exec (.portStateChange n st far) s = .next s) ∧
      (ok → ∃ t, Machine.exec (.portStateChange n st far) s = .next t ∧ same t ∧ (t.port n).state = st ∧ (st = 2 → (t.port n).far = far)))

/-- R380, R382, R383: FLIT_RECEIVE at an up port: a sound channel flit under the seq expected is accepted, its buffer counted freed; one
accepted before is dropped; a damaged one is discarded with a retry request that names the seq expected, one under a later seq with one
such request (log 82).
At a port not up nothing happens. IDLE_FLIT_SEND sends an idle flit where freed counts are owed, and IDLE_FLIT_RECEIVE reads what one
carries: what it acknowledges leaves the replay buffer. -/
def Claim.FlitsReceived : Prop :=
  ∀ (n : Nat) (f : Flit) (s : State), n < 18 →
    let p := s.port n
    let i := Instr.flitReceive n f
    let channel := 3 ≤ f.kind.toNat ∧ f.kind.toNat ≤ 9
    let link := fun (kind : BitVec 4) (seq : BitVec 16) =>
      sealFlit ⟨kind, 0, seq, p.expect - 1, p.freed, p.far, BitVec.ofNat 9 s.ownDev, [], 0⟩
    (p.state ≠ 2 → Machine.exec i s = .next s) ∧
    (p.state = 2 → channel → flitOk f = true → f.seq = p.expect → p.freed.length = 4 →
      ∃ t, Machine.exec i s = .next t ∧ t.skeins = s.skeins ∧ t.mem = s.mem ∧ (t.port n).expect = p.expect + 1 ∧
        (t.port n).asking = false ∧ (f.freed.length = 4 → (t.port n).got = f.freed) ∧
        ∀ v, v < 4 → (t.port n).freed.getD v 0 = if v = f.vc.toNat then p.freed.getD v 0 + 1 else p.freed.getD v 0) ∧
    (p.state = 2 → channel → flitOk f = true → f.seq ≠ p.expect → (p.expect - f.seq).toNat < 2 ^ 15 → Machine.exec i s = .next s) ∧
    (p.state = 2 → channel → flitOk f = true → f.seq ≠ p.expect → 2 ^ 15 ≤ (p.expect - f.seq).toNat →
      ∃ t, Machine.exec i s = .next t ∧ t = { s with ports := t.ports } ∧ (∀ m, m ≠ n → t.port m = s.port m) ∧
        (t.port n).wire = (if p.asking then p.wire else p.wire ++ [link 2 p.expect]) ∧ (t.port n).asking = true ∧ (t.port n).expect = p.expect) ∧
    (p.state = 2 → channel → flitOk f = false → ∃ t, Machine.exec i s = .next t ∧ t = { s with ports := t.ports } ∧
      (t.port n).wire = p.wire ++ [link 2 p.expect] ∧ (t.port n).asking = true ∧ (t.port n).expect = p.expect) ∧
    (p.state ≠ 2 ∨ p.owed = none → Machine.exec (.idleFlitSend n) s = .next s) ∧
    (p.state = 2 → p.owed ≠ none → ∃ t, Machine.exec (.idleFlitSend n) s = .next t ∧ t = { s with ports := t.ports } ∧
      (∀ m, m ≠ n → t.port m = s.port m) ∧ (t.port n).wire = p.wire ++ [link 0 0] ∧ (t.port n).owed = none) ∧
    (p.state ≠ 2 ∨ f.kind ≠ 0 ∨ flitOk f = false → Machine.exec (.idleFlitReceive n f) s = .next s) ∧
    (p.state = 2 → f.kind = 0 → flitOk f = true → ∃ t, Machine.exec (.idleFlitReceive n f) s = .next t ∧ t.skeins = s.skeins ∧ t.mem = s.mem ∧
      (t.port n).expect = p.expect ∧ (f.freed.length = 4 → (t.port n).got = f.freed) ∧
      (p.out = [] → p.lost = [] → (t.port n).replay = p.replay.filter fun g => decide (2 ^ 15 ≤ (f.ack - g.seq).toNat)))

/-- R383, R384: RETRY_REQUEST at an up port sends the unacknowledged flits from the named seq again, each counted once; the sixteenth
request for one seq takes the port down. -/
def Claim.Retries : Prop :=
  ∀ (n : Nat) (seq : BitVec 16) (s : State), n < 18 →
    let p := s.port n
    let rounds := if p.asked = seq ∧ p.rounds ≠ 0 then p.rounds + 1 else 1
    (p.state ≠ 2 → Machine.exec (.retryRequest n seq) s = .next s) ∧
    (p.state = 2 → rounds < 16 → ∃ t, Machine.exec (.retryRequest n seq) s = .next t ∧ t = { s with ports := t.ports } ∧
      (∀ m, m ≠ n → t.port m = s.port m) ∧ (t.port n).asked = seq ∧ (t.port n).rounds = rounds ∧ (t.port n).replay = p.replay ∧
      (t.port n).retries.toNat = min 65535 (p.retries.toNat + 1) ∧
      (t.port n).wire.map (fun f => (f.kind, f.vc, f.seq, f.payload)) =
        (p.wire ++ p.replay.dropWhile fun f => f.seq != seq).map fun f => (f.kind, f.vc, f.seq, f.payload)) ∧
    (p.state = 2 → 16 ≤ rounds → ∃ t, Machine.exec (.retryRequest n seq) s = .next t ∧ (t.port n).state = 3 ∧ t.skeins = s.skeins ∧ t.mem = s.mem)

/-- The answer to a peer's request, sent on channel 3 (R380). -/
def State.answers (s : State) (src : Nat) (addr : BitVec 52) (tag : Nat) (kind : BitVec 4) (rest : List Byte) : State :=
  s.sendFlit src addr.toNat kind 3 (toBytes 8 addr.toNat ++ toBytes 4 tag ++ rest)

/-- R105, R111, R385, R387: a peer's load, posted store and atomic, and a read or a write of one run by a peer's pump (log 82): one its window does not allow is answered with code 2, one without a
translation with code 1, one its page does not permit with code 2; a load is answered with the bytes at its home, a store is performed
and acknowledged with its completion time, an atomic performed and answered with the old value. -/
def Claim.PeerRequests : Prop :=
  ∀ (src size tag : Nat) (addr : BitVec 52) (op : AmoOp) (y z : Lane) (ok : Bool) (s : State),
    let w := s.window (addr.toNat / 2 ^ 44)
    let off := addr.toNat % 2 ^ 44
    ∀ (i : Instr) (use : PeerUse) (bs : List Byte), bs.length = size →
      let run := toBytes 8 addr.toNat ++ toBytes 2 size
      (i, use) ∈ [(Instr.loadRequest src addr size tag, PeerUse.load), (.atomicRequest src addr op size y z tag, .atomic)] ∨
        (size ≠ 144 ∧ i = .postedStore src addr bs tag ∧ use = .store) ∨
        (size < 2 ^ 16 ∧ i = .bulk tag src ok (toBytes 5 3 ++ run) ∧ use = .load) ∨
        (size < 2 ^ 16 ∧ i = .bulk tag src ok (toBytes 5 2 ++ run ++ bs) ∧ use = .store) →
      (s.windowAllows w src off size use = false → Machine.exec i s = .next (s.answers src addr tag 8 [2])) ∧
      (s.windowAllows w src off size use = true →
        (∀ u b, s.translate w.ctx (w.base + BitVec.ofNat 64 off) = (u, .error b) → Machine.exec i s = .next (u.answers src addr tag 8 [1])) ∧
        ∀ u x, s.translate w.ctx (w.base + BitVec.ofNat 64 off) = (u, .ok x) →
          (use.permits x = false → Machine.exec i s = .next (u.answers src addr tag 8 [2])) ∧
          (use.permits x = true → u.poisonAt x.key size = true → use ≠ .store → Machine.exec i s = .next (u.answers src addr tag 8 [3])) ∧
          (use.permits x = true → u.poisonAt x.key size = false → x.there = true →
            let part := (s.ctx w.ctx).part
            let old := ofBytes (u.load part x.key size)
            let stored := fun (t : State) (b : List Byte) => t.skeins = s.skeins ∧ t.mem.readN x.key b.length = b ∧
              ∀ a, (a < x.key ∨ x.key + b.length ≤ a) → t.mem.read a = s.mem.read a
            (use = .load → ∃ v : State, v.skeins = s.skeins ∧ v.mem = s.mem ∧
              Machine.exec i s = .next (v.answers src addr tag 6 (u.load part x.key size))) ∧
            (s.MemOk → (∀ l, u.writtenKey l = u.keyOf part l) → use = .store →
              ∃ t v, stored v bs ∧ t = v.answers src addr tag 7 (toBytes 8 (v.wctOf part (x.key / 128))) ∧ Machine.exec i s = .next t) ∧
            (s.MemOk → (∀ l, u.writtenKey l = u.keyOf part l) → use = .atomic →
              ∃ t v, stored v (toBytes size (amoNew op (8 * size) old (y.toNat % 2 ^ (8 * size)) (z.toNat % 2 ^ (8 * size)))) ∧
                t = v.answers src addr tag 6 (toBytes size old ++ toBytes 8 (v.wctOf part (x.key / 128))) ∧ Machine.exec i s = .next t)))

/-- R111, R380, R387: a posted store of 144 bytes is one line with a mask (log 82): the bytes from the first that the mask selects to the
last are checked as one store, those selected are written at the line's home, and no other byte of memory changes. -/
def Claim.MaskedStores : Prop :=
  ∀ (src lo hi tag : Nat) (addr : BitVec 52) (data : List Byte) (s : State),
    let sel := fun (i : Nat) => (data.getD (i / 8) 0).getLsbD (i % 8) = true
    let a := addr + BitVec.ofNat 52 lo
    let w := s.window (a.toNat / 2 ^ 44)
    let off := a.toNat % 2 ^ 44
    let i := Instr.postedStore src addr data tag
    data.length = 144 → lo ≤ hi → hi < 128 → sel lo → sel hi → (∀ i, i < 128 → sel i → lo ≤ i ∧ i ≤ hi) →
      (s.windowAllows w src off (hi + 1 - lo) .store = false → Machine.exec i s = .next (s.answers src addr tag 8 [2])) ∧
      (s.windowAllows w src off (hi + 1 - lo) .store = true →
        (∀ u b, s.translate w.ctx (w.base + BitVec.ofNat 64 off) = (u, .error b) → Machine.exec i s = .next (u.answers src addr tag 8 [1])) ∧
        ∀ u x, s.translate w.ctx (w.base + BitVec.ofNat 64 off) = (u, .ok x) →
          (PeerUse.store.permits x = false → Machine.exec i s = .next (u.answers src addr tag 8 [2])) ∧
          (PeerUse.store.permits x = true → x.there = true → s.MemOk →
            (∀ l, u.writtenKey l = u.keyOf (s.ctx w.ctx).part l) →
            ∃ t v : State, Machine.exec i s = .next t ∧ t = v.answers src addr tag 7 (toBytes 8 (v.wctOf (s.ctx w.ctx).part (x.key / 128))) ∧
              v.skeins = s.skeins ∧ (∀ i, i < 128 → sel i → v.mem.read (x.key + (i - lo)) = data.getD (16 + i) 0) ∧
              ∀ b, (∀ i, i < 128 → sel i → b ≠ x.key + (i - lo)) → v.mem.read b = s.mem.read b))

end Sys2Proof.Machine

/-- Port states, flits, retries and the requests of peers. Readings and choices of the model it rests on: log 15, 36, 62, 82. -/
def Obligations.UbendLinks : Prop :=
  Machine.Claim.PortStates ∧ Machine.Claim.FlitsReceived ∧ Machine.Claim.Retries ∧ Machine.Claim.PeerRequests ∧ Machine.Claim.MaskedStores

namespace Sys2Proof.Machine

/-- R95, R388, R389, R390: TIME_FLIT_SEND sends the domain time of an up port every 256 ticks; TIME_FLIT_RECEIVE takes the reference it
brings, and four in a row that agree within a tick set LOCK; TIME_LOCK_LOSS clears it after 2^16 ticks without one, its collectives
ending with status 7. SLUICE_GROUP_WRITE writes an entry, but not while a collective of the group is under way: error 8. -/
def Claim.DomainTime : Prop :=
  ∀ (n : Nat) (s : State), n < 18 →
    let p := s.port n
    (p.state ≠ 2 ∨ s.now < p.timeAt + 256 → Machine.exec (.timeFlitSend n) s = .next s) ∧
    (p.state = 2 → p.timeAt + 256 ≤ s.now → ∃ t f, Machine.exec (.timeFlitSend n) s = .next t ∧ t = { s with ports := t.ports } ∧
      (∀ m, m ≠ n → t.port m = s.port m) ∧ (t.port n).timeAt = s.now ∧ (t.port n).wire = p.wire ++ [f] ∧ f.kind = 1 ∧
      f.payload = toBytes 8 s.now) ∧
    (∀ sent delay, (p.state ≠ 2 ∨ s.isMaster = true → Machine.exec (.timeFlitReceive n sent delay) s = .next s) ∧
      (p.state = 2 → s.isMaster = false →
        let gap : Int := (sent.toNat + delay : Nat) - (s.now : Int)
        let good := if -1 ≤ gap ∧ gap ≤ 1 then s.timeGood + 1 else 0
        ∃ t, Machine.exec (.timeFlitReceive n sent delay) s = .next t ∧
          t = { s with timeSeen := s.now, timeLag := gap, timeGood := min good 4, timeLock := t.timeLock } ∧
          (t.timeLock = true ↔ s.timeLock = true ∨ 4 ≤ good))) ∧
    (s.isMaster = true ∨ s.timeLock = false ∨ s.now < s.timeSeen + 2 ^ 16 → Machine.exec .timeLockLoss s = .next s) ∧
    (s.isMaster = false → s.timeLock = true → s.timeSeen + 2 ^ 16 ≤ s.now → ∃ t, Machine.exec .timeLockLoss s = .next t ∧
      t = { s with timeLock := false, timeGood := 0, ops := t.ops } ∧
      ∀ o op fmt, s.op? o.uid = some o → o.kind = .coll op fmt → o.done = false → o.ready = false →
        t.op? o.uid = some { o with ready := true, status := 7, failAddr := 0, asked := [], heard := [], atTiles := [], seg := none, wrote := [],
                                      wants := [] }) ∧
    (∀ g w0 w1, (1024 ≤ g → Machine.exec (.sluiceGroupWrite g w0 w1) s = .next s) ∧
      (g < 1024 → (∃ o ∈ s.ops, o.group = g ∧ o.done = false ∧ ∃ op fmt, o.kind = .coll op fmt) →
        Machine.exec (.sluiceGroupWrite g w0 w1) s = .next { s with barErr := 8 }) ∧
      (g < 1024 → (∀ o ∈ s.ops, o.group = g → o.done = false → ∀ op fmt, o.kind ≠ .coll op fmt) →
        ∃ t, Machine.exec (.sluiceGroupWrite g w0 w1) s = .next t ∧ t = { s with groups := t.groups } ∧
          t.groupEntry g = (w0 &&& 0x000003FF03FF3F01, w1) ∧ ∀ h, h ≠ g → t.groupEntry h = s.groupEntry h))

/-! ### Power, errors and telemetry -/

/-- Only the power block of one cluster changes. -/
def State.Powered (s t : State) (c : Nat) (p : Power) : Prop :=
  t = { s with power := t.power } ∧ t.powerOf c = p ∧ ∀ d, d ≠ c → t.powerOf d = s.powerOf d

/-- R391 to R393: POWER_BLOCK_WRITE sets the settings of a cluster outside a protected partition, a THR of 0 keeping the old one with
error 9, and UVEN 0 bringing U to 0; FREQUENCY_STEP takes the clock one code towards its aim when its 20 ticks are up; POWER_LIMIT_WRITE
takes a limit of 1,000 to 2,400 W; POWER_WINDOW ends a window: above the limit the clusters step down, or the alert is raised when none
can; well below it they step up. -/
def Claim.PowerSettings : Prop :=
  ∀ (c : Nat) (v : Lane) (s : State), c < 96 →
    let p := s.powerOf c
    let thr := v.toNat / 2 % 2 ^ 15
    (s.shielded c = true → Machine.exec (.powerBlockWrite c v) s = .next s) ∧
    (s.shielded c = false → ∃ t, Machine.exec (.powerBlockWrite c v) s = .next t ∧
      (if thr = 0 then { s with barErr := 9 } else s).Powered t c
        { p with gapMin := BitVec.ofNat 8 (v.toNat / 2 ^ 24), waveMax := BitVec.ofNat 6 (v.toNat / 2 ^ 16), uven := v.getLsbD 0
                 thr := if thr = 0 then p.thr else BitVec.ofNat 15 thr, u := if v.getLsbD 0 then p.u else 0 }) ∧
    (p.target = none ∨ s.now < p.stepAt ∨ s.shielded c = true → Machine.exec (.frequencyStep c) s = .next s) ∧
    (∀ a, p.target = some a → p.stepAt ≤ s.now → s.shielded c = false →
      let f := if p.freq.toNat < a.toNat then p.freq + 1 else if a.toNat < p.freq.toNat then p.freq - 1 else a
      ∃ t, Machine.exec (.frequencyStep c) s = .next t ∧
        s.Powered t c { p with freq := f, target := if f = a then none else some a, stepAt := s.now + 20 }) ∧
    (let w := v.toNat % 2 ^ 12
     Machine.exec (.powerLimitWrite v) s = .next (if 1000 ≤ w ∧ w ≤ 2400 then { s with limit := BitVec.ofNat 12 w } else s)) ∧
    (∀ watts, (s.now < s.powerAt + 100000 → Machine.exec (.powerWindow watts) s = .next s) ∧
      (s.powerAt + 100000 ≤ s.now → ∃ t, Machine.exec (.powerWindow watts) s = .next t ∧ t.powerAt = s.powerAt + 100000 ∧
        t.skeins = s.skeins ∧ t.mem = s.mem ∧
        (t.alert = true ↔ s.limit.toNat < watts ∧ ∀ d, d < 96 → s.shielded d = false → (s.powerOf d).freq = 0) ∧
        (s.limit.toNat < watts → t.alert = false → ∀ d, d < 96 → s.shielded d = false → (s.powerOf d).freq ≠ 0 → (s.powerOf d).target = none →
          (t.powerOf d).target = some ((s.powerOf d).freq - 1)) ∧
        (watts ≤ s.limit.toNat → 95 * s.limit.toNat ≤ 100 * watts → t.power = s.power)))

/-- R328, R394, R395, R404: CORRECTABLE_ERROR counts for its cluster, and in its window while it undervolts; UNCORRECTABLE_ERROR poisons what
it strikes, brings U to 0, and with U above 0 is a margin event that raises the floor, at most six times; in an alteration store it
changes the bits and nothing else; ECC_WINDOW moves U down or up by
5 or leaves it; RAISE_EXPIRY ends the raises whose time is over, U never above 120 less 20 for each in force; TELEMETRY_WINDOW shows the
package's sums. -/
def Claim.ErrorSteps : Prop :=
  ∀ (c : Nat) (s : State), c < 96 →
    let p := s.powerOf c
    (∃ t, Machine.exec (.correctableError c) s = .next t ∧
      { s with sums := t.sums }.Powered t c { p with corr := satInc p.corr, window := if s.undervolts c then p.window + 1 else p.window } ∧
      t.sums.softCor = satInc s.sums.softCor) ∧
    (∀ x, s.strikes c x = false ∨ s.windowOver c = true → Machine.exec (.uncorrectableError c x) s = .next s) ∧
    (∀ core pc w bits, s.strikes c (.store core pc w bits) = true → s.windowOver c = false →
      ∃ t, Machine.exec (.uncorrectableError c (.store core pc w bits)) s = .next t ∧ t = { s with altered := t.altered } ∧
        t.altered = s.altered.map fun a => if a.core = core ∧ a.pc = pc then a.strike w bits else a) ∧
    (∀ x, s.strikes c x = true → s.windowOver c = false → codedTarget x = true → ∃ t, Machine.exec (.uncorrectableError c x) s = .next t ∧ t.mem = s.mem ∧
      (t.powerOf c).u = 0 ∧ (t.powerOf c).uncor = satInc p.uncor ∧ t.sums.softUnc = satInc s.sums.softUnc ∧
      (t.powerOf c).raises.length = (if 0 < p.u.toNat ∧ p.raises.length < 6 then p.raises.length + 1 else p.raises.length) ∧
      (t.powerOf c).mev = (if 0 < p.u.toNat then satInc p.mev else p.mev) ∧
      (∀ key, x = .memory key → t.poisonAt key 1 = true ∧ t.skeins = s.skeins) ∧
      (∀ u r l k, x = .register u r l → s.sk? u = some k → ∃ k', t.sk? u = some k' ∧
        (k'.reg r.toNat) = { k.reg r.toNat with poison := (k.reg r.toNat).poison ||| (1 <<< l) } ∧
        ∀ n, n < 64 → n ≠ r.toNat → k'.reg n = k.reg n)) ∧
    (s.now < p.since + 1000000 → Machine.exec (.eccWindow c) s = .next s) ∧
    (p.since + 1000000 ≤ s.now → ∃ t u, Machine.exec (.eccWindow c) s = .next t ∧
      s.Powered t c { p with u := BitVec.ofNat 8 u, since := p.since + 1000000, window := 0, struck := false } ∧
      u = if s.undervolts c = false then p.u.toNat else if p.thr.toNat ≤ p.window then p.u.toNat - 5 else if p.struck then p.u.toNat
        else min (p.u.toNat + 5) (120 - 20 * p.raises.length)) ∧
    (∃ t, Machine.exec (.raiseExpiry c) s = .next t ∧
      let left := p.raises.filter fun e => decide (s.now < e)
      s.Powered t c { p with raises := left, u := BitVec.ofNat 8 (min p.u.toNat (120 - 20 * left.length)) }) ∧
    (∀ watts temp, (s.now < s.telemetryAt + 10000000 → Machine.exec (.telemetryWindow watts temp) s = .next s) ∧
      (s.telemetryAt + 10000000 ≤ s.now → Machine.exec (.telemetryWindow watts temp) s = .next
        { s with telemetryAt := s.telemetryAt + 10000000
                 telemetry := { s.sums with watts := BitVec.ofNat 16 watts, temp := BitVec.ofNat 16 temp
                                            window := satInc s.telemetry.window } }))

end Sys2Proof.Machine

/-- Domain time, groups, power settings, errors and telemetry. Readings and choices of the model it rests on: log 15, 18, 63, 83. -/
def Obligations.TimePowerErrors : Prop :=
  Machine.Claim.DomainTime ∧ Machine.Claim.PowerSettings ∧ Machine.Claim.ErrorSteps

/-! ### Debugging -/

namespace Sys2Proof.Machine

/-- R398, R399: the debug commands of a context outside protected partitions and not busy: attach saves a running context first and
attaches a saved one at once, detach ends it, reseal and step need a saved, attached context; in another state each answers error 1. A
protected partition answers 7, a busy block 2. A reseal writes the check of the image as it stands over the old one, or is held for the
driver. DEBUG_BLOCK_WRITE of the command field gives the commands; the step's skein and team and the stop identifier, which takes effect
at the next tick, are stored. -/
def Claim.DebugCommands : Prop :=
  ∀ (c : Nat) (s : State), c < 2048 →
    let x := s.ctx c
    let d := x.dbg
    let err := fun (i : Instr) (e : Byte) => Machine.exec i s = .next (s.updCtx c fun x => { x with dbg := { x.dbg with err := e } })
    let free := s.protected x.part = false ∧ d.busy = false
    (s.protected x.part = true → err (.debugAttach c) 7 ∧ err (.debugDetach c) 7 ∧ err (.debugReseal c) 7 ∧ (d.step = none → err (.debugStep c) 7) ∧
      ∀ off v, err (.debugBlockWrite c off v) 7) ∧
    (s.protected x.part = false → d.busy = true → err (.debugAttach c) 2 ∧ err (.debugDetach c) 2 ∧ err (.debugReseal c) 2) ∧
    (free → x.state ≠ .running → x.state ≠ .saved → err (.debugAttach c) 1) ∧
    (free → x.state = .running → ∃ t, Machine.exec (.debugAttach c) s = .next t ∧ (t.ctx c).state = .saving ∧ (t.ctx c).dbg.busy = true ∧
      (t.ctx c).dbg.err = 0 ∧ t.skeins = s.skeins.map fun k => if k.ctx = c then s.stopCount k else k) ∧
    (free → x.state = .saved → ∃ t, Machine.exec (.debugAttach c) s = .next t ∧ (t.ctx c).state = .saved ∧ (t.ctx c).dbg.att = true ∧
      (t.ctx c).dbg.err = 0 ∧ t.skeins = s.skeins) ∧
    (free → d.att = false → err (.debugDetach c) 1) ∧
    (free → d.att = true → ∃ t, Machine.exec (.debugDetach c) s = .next t ∧ (t.ctx c).dbg = { d with att := false, err := 0 } ∧ t.mem = s.mem ∧
      ∀ k ∈ s.skeins, k.ctx ≠ c → k ∈ t.skeins) ∧
    (free → (x.state ≠ .saved ∨ d.att = false) → err (.debugReseal c) 1 ∧ (d.step = none → err (.debugStep c) 1)) ∧
    (free → x.state = .saved → d.att = true →
      (let s1 := s.updCtx c fun x => { x with dbg := { x.dbg with err := 0 } }
       let size := x.saveSize.toNat
       ∀ im cnt, 64 ≤ size → x.image = some im → im.prot = false → s1.areaBytes c (size - 64) 8 = some cnt →
        let stored := s1.devStore c (x.saveBase + BitVec.ofNat 64 (size - 56))
          (toBytes 4 (crc32 (s1.plainBytes c im ++ cnt)).toNat ++ List.replicate 12 0)
        (∀ u, stored = some u → Machine.exec (.debugReseal c) s = .next u) ∧
        (stored = none → Machine.exec (.debugReseal c) s = .next (s1.holdDev c ⟨1, x.saveBase + BitVec.ofNat 64 (size - 56), []⟩))) ∧
      (d.step = none → s.refuseImage c = none → ∃ t, Machine.exec (.debugStep c) s = .next t ∧ (t.ctx c).state = .restoring ∧
        (t.ctx c).dbg.step.isSome = true ∧ (t.ctx c).dbg.busy = true)) ∧
    (∀ v : Lane, s.protected x.part = false →
      (v.toNat % 16 = 1 → Machine.exec (.debugBlockWrite c 0 v) s = Machine.exec (.debugAttach c) s) ∧
      (v.toNat % 16 = 2 → Machine.exec (.debugBlockWrite c 0 v) s = Machine.exec (.debugDetach c) s) ∧
      (v.toNat % 16 = 3 → Machine.exec (.debugBlockWrite c 0 v) s = Machine.exec (.debugReseal c) s) ∧
      (∃ t, Machine.exec (.debugBlockWrite c 0x08 v) s = .next t ∧ t.skeins = s.skeins ∧
        (t.ctx c).dbg = { d with stopId := v, stopsAt := s.now
                                 stopsWere := if d.stopsAt = s.now then d.stopsWere else (d.stopEn, d.stopId) }) ∧
      (∃ t, Machine.exec (.debugBlockWrite c 0x28 v) s = .next t ∧
        (t.ctx c).dbg = { d with skn := BitVec.ofNat 5 (v.toNat / 2 ^ 32), team := BitVec.ofNat 24 v.toNat } ∧ t.skeins = s.skeins))

end Sys2Proof.Machine

/-- Debug commands and the debug block. Readings and choices of the model it rests on: log 64. -/
def Obligations.Debugging : Prop :=
  Machine.Claim.DebugCommands
end

