-- ==== Sys2Proof/Laws/Memory.lean ====
section
/-!
SUPPORT. Memory in its canonical form: every operation on it keeps the form, and a byte written is the byte read.
-/

namespace Sys2Proof.Machine

/-- Rising cells still rise from a lower bound. -/
theorem Memory.wfFrom_mono {lo lo' : Nat} (h : lo' ≤ lo) {m : Memory} (hm : Memory.wfFrom lo m = true) : Memory.wfFrom lo' m = true := by
  cases m with
  | nil => rfl
  | cons c m =>
    simp only [Memory.wfFrom, Bool.and_eq_true, decide_eq_true_eq] at hm ⊢
    exact ⟨⟨by omega, hm.1.2⟩, hm.2⟩

/-- An address below every cell reads as unlisted. -/
theorem Memory.read_below {lo : Nat} {m : Memory} (hm : Memory.wfFrom lo m = true) {a : Nat} (h : a < lo) : m.read a = unlisted := by
  induction m generalizing lo with
  | nil => rfl
  | cons c m ih =>
    simp only [Memory.wfFrom, Bool.and_eq_true, decide_eq_true_eq] at hm
    simp only [Memory.read]
    rw [if_neg (by omega)]
    exact ih hm.2 (by omega)

/-- A write keeps the form above any bound at or below its address. -/
theorem Memory.write_wfFrom {lo a : Nat} {m : Memory} (v : Byte) (hm : Memory.wfFrom lo m = true) (h : lo ≤ a) :
    Memory.wfFrom lo (m.write a v) = true := by
  induction m generalizing lo with
  | nil =>
    simp only [Memory.write]
    split
    · rfl
    · simp [Memory.wfFrom, *]
  | cons c m ih =>
    have hc := hm
    simp only [Memory.wfFrom, Bool.and_eq_true, decide_eq_true_eq] at hc
    simp only [Memory.write]
    split
    · split
      · exact hm
      · simp only [Memory.wfFrom, Bool.and_eq_true, decide_eq_true_eq, bne_iff_ne, ne_eq]
        exact ⟨⟨h, ‹_›⟩, ⟨by omega, by simpa using hc.1.2⟩, hc.2⟩
    · split
      · split
        · exact Memory.wfFrom_mono (by omega) hc.2
        · simp only [Memory.wfFrom, Bool.and_eq_true, decide_eq_true_eq, bne_iff_ne, ne_eq]
          exact ⟨⟨h, ‹_›⟩, by rw [‹a = c.1›]; exact hc.2⟩
      · simp only [Memory.wfFrom, Bool.and_eq_true, decide_eq_true_eq]
        exact ⟨hc.1, ih hc.2 (by omega)⟩

/-- A byte written is read back, and every other byte stands. -/
theorem Memory.read_write {lo a : Nat} {m : Memory} (v : Byte) (b : Nat) (hm : Memory.wfFrom lo m = true) :
    (m.write a v).read b = if b = a then v else m.read b := by
  induction m generalizing lo with
  | nil =>
    by_cases hv : v = unlisted
    · simp [Memory.write, Memory.read, hv]
    · by_cases hb : b = a
      · simp [Memory.write, Memory.read, hv, hb]
      · simp [Memory.write, Memory.read, hv, hb, Ne.symm hb]
  | cons c m ih =>
    have hc := hm
    simp only [Memory.wfFrom, Bool.and_eq_true, decide_eq_true_eq] at hc
    have low : ∀ x, x < c.1 → Memory.read (c :: m) x = unlisted := fun x hx =>
      Memory.read_below (lo := c.1) (by simp [Memory.wfFrom, hc.1.2, hc.2]) hx
    have at' : ∀ x, x ≤ c.1 → Memory.read m x = unlisted := fun x hx => Memory.read_below hc.2 (by omega)
    simp only [Memory.write]
    split
    · by_cases hv : v = unlisted
      · rw [if_pos hv]
        split
        · subst b; rw [hv]; exact low a ‹_›
        · rfl
      · rw [if_neg hv]
        by_cases hb : b = a
        · simp [Memory.read, hb]
        · simp [Memory.read, hb, Ne.symm hb]
    · split
      · rename_i h
        by_cases hv : v = unlisted
        · rw [if_pos hv]
          split
          · subst b; rw [hv]; exact at' a (by omega)
          · simp only [Memory.read]; rw [if_neg (by omega)]
        · rw [if_neg hv]
          by_cases hb : b = a
          · simp [Memory.read, hb]
          · simp only [Memory.read, hb, Ne.symm hb, if_false]
            rw [if_neg (by omega)]
      · simp only [Memory.read]
        split
        · rw [if_neg (by omega)]
        · exact ih hc.2

/-- Bytes written keep the form. -/
theorem Memory.writeN_wf {m : Memory} (a : Nat) (bs : List Byte) (hm : m.wf = true) : (m.writeN a bs).wf = true := by
  induction bs generalizing m a with
  | nil => exact hm
  | cons b bs ih => exact ih _ (Memory.write_wfFrom b hm (Nat.zero_le _))

/-- Cells left out keep the form. -/
theorem Memory.filter_wfFrom {lo : Nat} {m : Memory} (p : Host.Cell → Bool) (hm : Memory.wfFrom lo m = true) :
    Memory.wfFrom lo (m.filter p) = true := by
  induction m generalizing lo with
  | nil => rfl
  | cons c m ih =>
    simp only [Memory.wfFrom, Bool.and_eq_true, decide_eq_true_eq] at hm
    simp only [List.filter_cons]
    split
    · simp only [Memory.wfFrom, Bool.and_eq_true, decide_eq_true_eq]
      exact ⟨hm.1, ih hm.2⟩
    · exact ih (Memory.wfFrom_mono (by omega) hm.2)

/-- A range cleared keeps the form. -/
theorem Memory.clear_wf {m : Memory} (a n : Nat) (hm : m.wf = true) : (m.clear a n).wf = true := Memory.filter_wfFrom _ hm

/-- A line taken over under another key keeps the form. -/
theorem State.takeLine_wf {s : State} (part line : Nat) (h : s.mem.wf = true) : (s.takeLine part line).mem.wf = true := by
  unfold State.takeLine
  generalize s.load part (line * 128) 128 = bs
  split
  · show (s.mem.writeN (line * 128) bs).wf = true
    exact Memory.writeN_wf _ _ h
  · exact h

/-- Every function of a list of steps that keeps a property keeps it over the whole list. -/
theorem foldl_keeps {α β : Type} {P : α → Prop} (f : α → β → α) (hf : ∀ a b, P a → P (f a b)) (l : List β) (a : α) (h : P a) :
    P (l.foldl f a) := by
  induction l generalizing a with
  | nil => exact h
  | cons b l ih => exact ih _ (hf _ _ h)

/-- A store keeps the form. -/
theorem State.store_wf {s : State} (part key : Nat) (bs : List Byte) (h : s.mem.wf = true) : (s.store part key bs).mem.wf = true :=
  Memory.writeN_wf _ _ (foldl_keeps (P := fun s : State => s.mem.wf = true) _ (fun _ _ h => State.takeLine_wf _ _ h) _ _ h)

/-- A translation leaves memory as it is. -/
@[simp] theorem State.translate_mem (s : State) (c : Nat) (a : Lane) : (s.translate c a).1.mem = s.mem := by
  unfold State.translate
  dsimp only
  cases s.tlbHit c (va57 a) with
  | some e => rfl
  | none => cases s.walkBoth c a <;> rfl

/-- A write of the device's own keeps the form. -/
theorem State.devStore_wf {s t : State} (c : Nat) (a : Lane) (bs : List Byte) (h : s.mem.wf = true) (ht : s.devStore c a bs = some t) :
    t.mem.wf = true := by
  unfold State.devStore at ht
  split at ht
  · rename_i s' x hx
    split at ht
    · cases ht
      refine State.store_wf _ _ _ ?_
      have := State.translate_mem s c a
      rw [hx] at this
      rw [this]; exact h
    · cases ht
  · cases ht

end Sys2Proof.Machine
end

