-- ==== Sys2Proof/Laws/State.lean ====
section
/-!
SUPPORT. What each update of the state leaves: one lemma per field.
-/

namespace Sys2Proof.Machine

@[simp] theorem State.setSk_now (s : State) (k : Skein) : (s.setSk k).now = s.now := rfl
@[simp] theorem State.setSk_teams (s : State) (k : Skein) : (s.setSk k).teams = s.teams := rfl
@[simp] theorem State.setSk_grids (s : State) (k : Skein) : (s.setSk k).grids = s.grids := rfl
@[simp] theorem State.setSk_seeps (s : State) (k : Skein) : (s.setSk k).seeps = s.seeps := rfl
@[simp] theorem State.setSk_accs (s : State) (k : Skein) : (s.setSk k).accs = s.accs := rfl
@[simp] theorem State.setSk_releases (s : State) (k : Skein) : (s.setSk k).releases = s.releases := rfl
@[simp] theorem State.setSk_mem (s : State) (k : Skein) : (s.setSk k).mem = s.mem := rfl
@[simp] theorem State.setSk_poisoned (s : State) (k : Skein) : (s.setSk k).poisoned = s.poisoned := rfl
@[simp] theorem State.setSk_accesses (s : State) (k : Skein) : (s.setSk k).accesses = s.accesses := rfl
@[simp] theorem State.setSk_samples (s : State) (k : Skein) : (s.setSk k).samples = s.samples := rfl
@[simp] theorem State.setSk_copies (s : State) (k : Skein) : (s.setSk k).copies = s.copies := rfl
@[simp] theorem State.setSk_homes (s : State) (k : Skein) : (s.setSk k).homes = s.homes := rfl
@[simp] theorem State.setSk_lostLeases (s : State) (k : Skein) : (s.setSk k).lostLeases = s.lostLeases := rfl
@[simp] theorem State.setSk_resids (s : State) (k : Skein) : (s.setSk k).resids = s.resids := rfl
@[simp] theorem State.setSk_dowser (s : State) (k : Skein) : (s.setSk k).dowser = s.dowser := rfl
@[simp] theorem State.setSk_wellMap (s : State) (k : Skein) : (s.setSk k).wellMap = s.wellMap := rfl
@[simp] theorem State.setSk_moves (s : State) (k : Skein) : (s.setSk k).moves = s.moves := rfl
@[simp] theorem State.setSk_dowserAt (s : State) (k : Skein) : (s.setSk k).dowserAt = s.dowserAt := rfl
@[simp] theorem State.setSk_lineKeys (s : State) (k : Skein) : (s.setSk k).lineKeys = s.lineKeys := rfl
@[simp] theorem State.setSk_scratchOf (s : State) (k : Skein) : (s.setSk k).scratchOf = s.scratchOf := rfl
@[simp] theorem State.setSk_tlb (s : State) (k : Skein) : (s.setSk k).tlb = s.tlb := rfl
@[simp] theorem State.setSk_ilines (s : State) (k : Skein) : (s.setSk k).ilines = s.ilines := rfl
@[simp] theorem State.setSk_ireqs (s : State) (k : Skein) : (s.setSk k).ireqs = s.ireqs := rfl
@[simp] theorem State.setSk_invAddr (s : State) (k : Skein) : (s.setSk k).invAddr = s.invAddr := rfl
@[simp] theorem State.setSk_invCtl (s : State) (k : Skein) : (s.setSk k).invCtl = s.invCtl := rfl
@[simp] theorem State.setSk_invFrom (s : State) (k : Skein) : (s.setSk k).invFrom = s.invFrom := rfl
@[simp] theorem State.setSk_invGone (s : State) (k : Skein) : (s.setSk k).invGone = s.invGone := rfl
@[simp] theorem State.setSk_ops (s : State) (k : Skein) : (s.setSk k).ops = s.ops := rfl
@[simp] theorem State.setSk_pumpTurn (s : State) (k : Skein) : (s.setSk k).pumpTurn = s.pumpTurn := rfl
@[simp] theorem State.setSk_mats (s : State) (k : Skein) : (s.setSk k).mats = s.mats := rfl
@[simp] theorem State.setSk_heats (s : State) (k : Skein) : (s.setSk k).heats = s.heats := rfl
@[simp] theorem State.setSk_altered (s : State) (k : Skein) : (s.setSk k).altered = s.altered := rfl
@[simp] theorem State.setSk_altIds (s : State) (k : Skein) : (s.setSk k).altIds = s.altIds := rfl
@[simp] theorem State.setSk_collSeqs (s : State) (k : Skein) : (s.setSk k).collSeqs = s.collSeqs := rfl
@[simp] theorem State.setSk_contexts (s : State) (k : Skein) : (s.setSk k).contexts = s.contexts := rfl
@[simp] theorem State.setSk_partitions (s : State) (k : Skein) : (s.setSk k).partitions = s.partitions := rfl
@[simp] theorem State.setSk_slews (s : State) (k : Skein) : (s.setSk k).slews = s.slews := rfl
@[simp] theorem State.setSk_record (s : State) (k : Skein) : (s.setSk k).record = s.record := rfl
@[simp] theorem State.setSk_bootCode (s : State) (k : Skein) : (s.setSk k).bootCode = s.bootCode := rfl
@[simp] theorem State.setSk_barErr (s : State) (k : Skein) : (s.setSk k).barErr = s.barErr := rfl
@[simp] theorem State.setSk_vfMap (s : State) (k : Skein) : (s.setSk k).vfMap = s.vfMap := rfl
@[simp] theorem State.setSk_vfRoots (s : State) (k : Skein) : (s.setSk k).vfRoots = s.vfRoots := rfl
@[simp] theorem State.setSk_tdisp (s : State) (k : Skein) : (s.setSk k).tdisp = s.tdisp := rfl
@[simp] theorem State.setSk_msixLog (s : State) (k : Skein) : (s.setSk k).msixLog = s.msixLog := rfl
@[simp] theorem State.setSk_attest (s : State) (k : Skein) : (s.setSk k).attest = s.attest := rfl
@[simp] theorem State.setSk_ports (s : State) (k : Skein) : (s.setSk k).ports = s.ports := rfl
@[simp] theorem State.setSk_ubMsix (s : State) (k : Skein) : (s.setSk k).ubMsix = s.ubMsix := rfl
@[simp] theorem State.setSk_timeLock (s : State) (k : Skein) : (s.setSk k).timeLock = s.timeLock := rfl
@[simp] theorem State.setSk_timeSeen (s : State) (k : Skein) : (s.setSk k).timeSeen = s.timeSeen := rfl
@[simp] theorem State.setSk_timeGood (s : State) (k : Skein) : (s.setSk k).timeGood = s.timeGood := rfl
@[simp] theorem State.setSk_timeLag (s : State) (k : Skein) : (s.setSk k).timeLag = s.timeLag := rfl
@[simp] theorem State.setSk_phase (s : State) (k : Skein) : (s.setSk k).phase = s.phase := rfl
@[simp] theorem State.setSk_pathHold (s : State) (k : Skein) : (s.setSk k).pathHold = s.pathHold := rfl
@[simp] theorem State.setSk_windows (s : State) (k : Skein) : (s.setSk k).windows = s.windows := rfl
@[simp] theorem State.setSk_groups (s : State) (k : Skein) : (s.setSk k).groups = s.groups := rfl
@[simp] theorem State.setSk_power (s : State) (k : Skein) : (s.setSk k).power = s.power := rfl
@[simp] theorem State.setSk_limit (s : State) (k : Skein) : (s.setSk k).limit = s.limit := rfl
@[simp] theorem State.setSk_alert (s : State) (k : Skein) : (s.setSk k).alert = s.alert := rfl
@[simp] theorem State.setSk_telemetry (s : State) (k : Skein) : (s.setSk k).telemetry = s.telemetry := rfl
@[simp] theorem State.setSk_sums (s : State) (k : Skein) : (s.setSk k).sums = s.sums := rfl
@[simp] theorem State.setSk_powerAt (s : State) (k : Skein) : (s.setSk k).powerAt = s.powerAt := rfl
@[simp] theorem State.setSk_telemetryAt (s : State) (k : Skein) : (s.setSk k).telemetryAt = s.telemetryAt := rfl
@[simp] theorem State.setSk_agenda (s : State) (k : Skein) : (s.setSk k).agenda = s.agenda := rfl
@[simp] theorem State.setSk_issue (s : State) (k : Skein) : (s.setSk k).issue = s.issue := rfl
@[simp] theorem State.setSk_blocked (s : State) (k : Skein) : (s.setSk k).blocked = s.blocked := rfl
@[simp] theorem State.setSk_freeCtr (s : State) (k : Skein) : (s.setSk k).freeCtr = s.freeCtr := rfl
@[simp] theorem State.setSk_idCtr (s : State) (k : Skein) : (s.setSk k).idCtr = s.idCtr := rfl
@[simp] theorem State.setSk_streak (s : State) (k : Skein) : (s.setSk k).streak = s.streak := rfl

@[simp] theorem State.updCur_now (s : State) (f : Skein → Skein) : (s.updCur f).now = s.now := rfl
@[simp] theorem State.updCur_teams (s : State) (f : Skein → Skein) : (s.updCur f).teams = s.teams := rfl
@[simp] theorem State.updCur_grids (s : State) (f : Skein → Skein) : (s.updCur f).grids = s.grids := rfl
@[simp] theorem State.updCur_seeps (s : State) (f : Skein → Skein) : (s.updCur f).seeps = s.seeps := rfl
@[simp] theorem State.updCur_accs (s : State) (f : Skein → Skein) : (s.updCur f).accs = s.accs := rfl
@[simp] theorem State.updCur_releases (s : State) (f : Skein → Skein) : (s.updCur f).releases = s.releases := rfl
@[simp] theorem State.updCur_mem (s : State) (f : Skein → Skein) : (s.updCur f).mem = s.mem := rfl
@[simp] theorem State.updCur_poisoned (s : State) (f : Skein → Skein) : (s.updCur f).poisoned = s.poisoned := rfl
@[simp] theorem State.updCur_accesses (s : State) (f : Skein → Skein) : (s.updCur f).accesses = s.accesses := rfl
@[simp] theorem State.updCur_samples (s : State) (f : Skein → Skein) : (s.updCur f).samples = s.samples := rfl
@[simp] theorem State.updCur_copies (s : State) (f : Skein → Skein) : (s.updCur f).copies = s.copies := rfl
@[simp] theorem State.updCur_homes (s : State) (f : Skein → Skein) : (s.updCur f).homes = s.homes := rfl
@[simp] theorem State.updCur_lostLeases (s : State) (f : Skein → Skein) : (s.updCur f).lostLeases = s.lostLeases := rfl
@[simp] theorem State.updCur_resids (s : State) (f : Skein → Skein) : (s.updCur f).resids = s.resids := rfl
@[simp] theorem State.updCur_dowser (s : State) (f : Skein → Skein) : (s.updCur f).dowser = s.dowser := rfl
@[simp] theorem State.updCur_wellMap (s : State) (f : Skein → Skein) : (s.updCur f).wellMap = s.wellMap := rfl
@[simp] theorem State.updCur_moves (s : State) (f : Skein → Skein) : (s.updCur f).moves = s.moves := rfl
@[simp] theorem State.updCur_dowserAt (s : State) (f : Skein → Skein) : (s.updCur f).dowserAt = s.dowserAt := rfl
@[simp] theorem State.updCur_lineKeys (s : State) (f : Skein → Skein) : (s.updCur f).lineKeys = s.lineKeys := rfl
@[simp] theorem State.updCur_scratchOf (s : State) (f : Skein → Skein) : (s.updCur f).scratchOf = s.scratchOf := rfl
@[simp] theorem State.updCur_tlb (s : State) (f : Skein → Skein) : (s.updCur f).tlb = s.tlb := rfl
@[simp] theorem State.updCur_ilines (s : State) (f : Skein → Skein) : (s.updCur f).ilines = s.ilines := rfl
@[simp] theorem State.updCur_ireqs (s : State) (f : Skein → Skein) : (s.updCur f).ireqs = s.ireqs := rfl
@[simp] theorem State.updCur_invAddr (s : State) (f : Skein → Skein) : (s.updCur f).invAddr = s.invAddr := rfl
@[simp] theorem State.updCur_invCtl (s : State) (f : Skein → Skein) : (s.updCur f).invCtl = s.invCtl := rfl
@[simp] theorem State.updCur_invFrom (s : State) (f : Skein → Skein) : (s.updCur f).invFrom = s.invFrom := rfl
@[simp] theorem State.updCur_invGone (s : State) (f : Skein → Skein) : (s.updCur f).invGone = s.invGone := rfl
@[simp] theorem State.updCur_ops (s : State) (f : Skein → Skein) : (s.updCur f).ops = s.ops := rfl
@[simp] theorem State.updCur_pumpTurn (s : State) (f : Skein → Skein) : (s.updCur f).pumpTurn = s.pumpTurn := rfl
@[simp] theorem State.updCur_mats (s : State) (f : Skein → Skein) : (s.updCur f).mats = s.mats := rfl
@[simp] theorem State.updCur_heats (s : State) (f : Skein → Skein) : (s.updCur f).heats = s.heats := rfl
@[simp] theorem State.updCur_altered (s : State) (f : Skein → Skein) : (s.updCur f).altered = s.altered := rfl
@[simp] theorem State.updCur_altIds (s : State) (f : Skein → Skein) : (s.updCur f).altIds = s.altIds := rfl
@[simp] theorem State.updCur_collSeqs (s : State) (f : Skein → Skein) : (s.updCur f).collSeqs = s.collSeqs := rfl
@[simp] theorem State.updCur_contexts (s : State) (f : Skein → Skein) : (s.updCur f).contexts = s.contexts := rfl
@[simp] theorem State.updCur_partitions (s : State) (f : Skein → Skein) : (s.updCur f).partitions = s.partitions := rfl
@[simp] theorem State.updCur_slews (s : State) (f : Skein → Skein) : (s.updCur f).slews = s.slews := rfl
@[simp] theorem State.updCur_record (s : State) (f : Skein → Skein) : (s.updCur f).record = s.record := rfl
@[simp] theorem State.updCur_bootCode (s : State) (f : Skein → Skein) : (s.updCur f).bootCode = s.bootCode := rfl
@[simp] theorem State.updCur_barErr (s : State) (f : Skein → Skein) : (s.updCur f).barErr = s.barErr := rfl
@[simp] theorem State.updCur_vfMap (s : State) (f : Skein → Skein) : (s.updCur f).vfMap = s.vfMap := rfl
@[simp] theorem State.updCur_vfRoots (s : State) (f : Skein → Skein) : (s.updCur f).vfRoots = s.vfRoots := rfl
@[simp] theorem State.updCur_tdisp (s : State) (f : Skein → Skein) : (s.updCur f).tdisp = s.tdisp := rfl
@[simp] theorem State.updCur_msixLog (s : State) (f : Skein → Skein) : (s.updCur f).msixLog = s.msixLog := rfl
@[simp] theorem State.updCur_attest (s : State) (f : Skein → Skein) : (s.updCur f).attest = s.attest := rfl
@[simp] theorem State.updCur_ports (s : State) (f : Skein → Skein) : (s.updCur f).ports = s.ports := rfl
@[simp] theorem State.updCur_ubMsix (s : State) (f : Skein → Skein) : (s.updCur f).ubMsix = s.ubMsix := rfl
@[simp] theorem State.updCur_timeLock (s : State) (f : Skein → Skein) : (s.updCur f).timeLock = s.timeLock := rfl
@[simp] theorem State.updCur_timeSeen (s : State) (f : Skein → Skein) : (s.updCur f).timeSeen = s.timeSeen := rfl
@[simp] theorem State.updCur_timeGood (s : State) (f : Skein → Skein) : (s.updCur f).timeGood = s.timeGood := rfl
@[simp] theorem State.updCur_timeLag (s : State) (f : Skein → Skein) : (s.updCur f).timeLag = s.timeLag := rfl
@[simp] theorem State.updCur_phase (s : State) (f : Skein → Skein) : (s.updCur f).phase = s.phase := rfl
@[simp] theorem State.updCur_pathHold (s : State) (f : Skein → Skein) : (s.updCur f).pathHold = s.pathHold := rfl
@[simp] theorem State.updCur_windows (s : State) (f : Skein → Skein) : (s.updCur f).windows = s.windows := rfl
@[simp] theorem State.updCur_groups (s : State) (f : Skein → Skein) : (s.updCur f).groups = s.groups := rfl
@[simp] theorem State.updCur_power (s : State) (f : Skein → Skein) : (s.updCur f).power = s.power := rfl
@[simp] theorem State.updCur_limit (s : State) (f : Skein → Skein) : (s.updCur f).limit = s.limit := rfl
@[simp] theorem State.updCur_alert (s : State) (f : Skein → Skein) : (s.updCur f).alert = s.alert := rfl
@[simp] theorem State.updCur_telemetry (s : State) (f : Skein → Skein) : (s.updCur f).telemetry = s.telemetry := rfl
@[simp] theorem State.updCur_sums (s : State) (f : Skein → Skein) : (s.updCur f).sums = s.sums := rfl
@[simp] theorem State.updCur_powerAt (s : State) (f : Skein → Skein) : (s.updCur f).powerAt = s.powerAt := rfl
@[simp] theorem State.updCur_telemetryAt (s : State) (f : Skein → Skein) : (s.updCur f).telemetryAt = s.telemetryAt := rfl
@[simp] theorem State.updCur_agenda (s : State) (f : Skein → Skein) : (s.updCur f).agenda = s.agenda := rfl
@[simp] theorem State.updCur_issue (s : State) (f : Skein → Skein) : (s.updCur f).issue = s.issue := rfl
@[simp] theorem State.updCur_blocked (s : State) (f : Skein → Skein) : (s.updCur f).blocked = s.blocked := rfl
@[simp] theorem State.updCur_freeCtr (s : State) (f : Skein → Skein) : (s.updCur f).freeCtr = s.freeCtr := rfl
@[simp] theorem State.updCur_idCtr (s : State) (f : Skein → Skein) : (s.updCur f).idCtr = s.idCtr := rfl
@[simp] theorem State.updCur_streak (s : State) (f : Skein → Skein) : (s.updCur f).streak = s.streak := rfl

@[simp] theorem State.updSk_now (s : State) (u : Nat) (f : Skein → Skein) : (s.updSk u f).now = s.now := rfl
@[simp] theorem State.updSk_teams (s : State) (u : Nat) (f : Skein → Skein) : (s.updSk u f).teams = s.teams := rfl
@[simp] theorem State.updSk_grids (s : State) (u : Nat) (f : Skein → Skein) : (s.updSk u f).grids = s.grids := rfl
@[simp] theorem State.updSk_seeps (s : State) (u : Nat) (f : Skein → Skein) : (s.updSk u f).seeps = s.seeps := rfl
@[simp] theorem State.updSk_accs (s : State) (u : Nat) (f : Skein → Skein) : (s.updSk u f).accs = s.accs := rfl
@[simp] theorem State.updSk_releases (s : State) (u : Nat) (f : Skein → Skein) : (s.updSk u f).releases = s.releases := rfl
@[simp] theorem State.updSk_mem (s : State) (u : Nat) (f : Skein → Skein) : (s.updSk u f).mem = s.mem := rfl
@[simp] theorem State.updSk_poisoned (s : State) (u : Nat) (f : Skein → Skein) : (s.updSk u f).poisoned = s.poisoned := rfl
@[simp] theorem State.updSk_accesses (s : State) (u : Nat) (f : Skein → Skein) : (s.updSk u f).accesses = s.accesses := rfl
@[simp] theorem State.updSk_samples (s : State) (u : Nat) (f : Skein → Skein) : (s.updSk u f).samples = s.samples := rfl
@[simp] theorem State.updSk_copies (s : State) (u : Nat) (f : Skein → Skein) : (s.updSk u f).copies = s.copies := rfl
@[simp] theorem State.updSk_homes (s : State) (u : Nat) (f : Skein → Skein) : (s.updSk u f).homes = s.homes := rfl
@[simp] theorem State.updSk_lostLeases (s : State) (u : Nat) (f : Skein → Skein) : (s.updSk u f).lostLeases = s.lostLeases := rfl
@[simp] theorem State.updSk_resids (s : State) (u : Nat) (f : Skein → Skein) : (s.updSk u f).resids = s.resids := rfl
@[simp] theorem State.updSk_dowser (s : State) (u : Nat) (f : Skein → Skein) : (s.updSk u f).dowser = s.dowser := rfl
@[simp] theorem State.updSk_wellMap (s : State) (u : Nat) (f : Skein → Skein) : (s.updSk u f).wellMap = s.wellMap := rfl
@[simp] theorem State.updSk_moves (s : State) (u : Nat) (f : Skein → Skein) : (s.updSk u f).moves = s.moves := rfl
@[simp] theorem State.updSk_dowserAt (s : State) (u : Nat) (f : Skein → Skein) : (s.updSk u f).dowserAt = s.dowserAt := rfl
@[simp] theorem State.updSk_lineKeys (s : State) (u : Nat) (f : Skein → Skein) : (s.updSk u f).lineKeys = s.lineKeys := rfl
@[simp] theorem State.updSk_scratchOf (s : State) (u : Nat) (f : Skein → Skein) : (s.updSk u f).scratchOf = s.scratchOf := rfl
@[simp] theorem State.updSk_tlb (s : State) (u : Nat) (f : Skein → Skein) : (s.updSk u f).tlb = s.tlb := rfl
@[simp] theorem State.updSk_ilines (s : State) (u : Nat) (f : Skein → Skein) : (s.updSk u f).ilines = s.ilines := rfl
@[simp] theorem State.updSk_ireqs (s : State) (u : Nat) (f : Skein → Skein) : (s.updSk u f).ireqs = s.ireqs := rfl
@[simp] theorem State.updSk_invAddr (s : State) (u : Nat) (f : Skein → Skein) : (s.updSk u f).invAddr = s.invAddr := rfl
@[simp] theorem State.updSk_invCtl (s : State) (u : Nat) (f : Skein → Skein) : (s.updSk u f).invCtl = s.invCtl := rfl
@[simp] theorem State.updSk_invFrom (s : State) (u : Nat) (f : Skein → Skein) : (s.updSk u f).invFrom = s.invFrom := rfl
@[simp] theorem State.updSk_invGone (s : State) (u : Nat) (f : Skein → Skein) : (s.updSk u f).invGone = s.invGone := rfl
@[simp] theorem State.updSk_ops (s : State) (u : Nat) (f : Skein → Skein) : (s.updSk u f).ops = s.ops := rfl
@[simp] theorem State.updSk_pumpTurn (s : State) (u : Nat) (f : Skein → Skein) : (s.updSk u f).pumpTurn = s.pumpTurn := rfl
@[simp] theorem State.updSk_mats (s : State) (u : Nat) (f : Skein → Skein) : (s.updSk u f).mats = s.mats := rfl
@[simp] theorem State.updSk_heats (s : State) (u : Nat) (f : Skein → Skein) : (s.updSk u f).heats = s.heats := rfl
@[simp] theorem State.updSk_altered (s : State) (u : Nat) (f : Skein → Skein) : (s.updSk u f).altered = s.altered := rfl
@[simp] theorem State.updSk_altIds (s : State) (u : Nat) (f : Skein → Skein) : (s.updSk u f).altIds = s.altIds := rfl
@[simp] theorem State.updSk_collSeqs (s : State) (u : Nat) (f : Skein → Skein) : (s.updSk u f).collSeqs = s.collSeqs := rfl
@[simp] theorem State.updSk_contexts (s : State) (u : Nat) (f : Skein → Skein) : (s.updSk u f).contexts = s.contexts := rfl
@[simp] theorem State.updSk_partitions (s : State) (u : Nat) (f : Skein → Skein) : (s.updSk u f).partitions = s.partitions := rfl
@[simp] theorem State.updSk_slews (s : State) (u : Nat) (f : Skein → Skein) : (s.updSk u f).slews = s.slews := rfl
@[simp] theorem State.updSk_record (s : State) (u : Nat) (f : Skein → Skein) : (s.updSk u f).record = s.record := rfl
@[simp] theorem State.updSk_bootCode (s : State) (u : Nat) (f : Skein → Skein) : (s.updSk u f).bootCode = s.bootCode := rfl
@[simp] theorem State.updSk_barErr (s : State) (u : Nat) (f : Skein → Skein) : (s.updSk u f).barErr = s.barErr := rfl
@[simp] theorem State.updSk_vfMap (s : State) (u : Nat) (f : Skein → Skein) : (s.updSk u f).vfMap = s.vfMap := rfl
@[simp] theorem State.updSk_vfRoots (s : State) (u : Nat) (f : Skein → Skein) : (s.updSk u f).vfRoots = s.vfRoots := rfl
@[simp] theorem State.updSk_tdisp (s : State) (u : Nat) (f : Skein → Skein) : (s.updSk u f).tdisp = s.tdisp := rfl
@[simp] theorem State.updSk_msixLog (s : State) (u : Nat) (f : Skein → Skein) : (s.updSk u f).msixLog = s.msixLog := rfl
@[simp] theorem State.updSk_attest (s : State) (u : Nat) (f : Skein → Skein) : (s.updSk u f).attest = s.attest := rfl
@[simp] theorem State.updSk_ports (s : State) (u : Nat) (f : Skein → Skein) : (s.updSk u f).ports = s.ports := rfl
@[simp] theorem State.updSk_ubMsix (s : State) (u : Nat) (f : Skein → Skein) : (s.updSk u f).ubMsix = s.ubMsix := rfl
@[simp] theorem State.updSk_timeLock (s : State) (u : Nat) (f : Skein → Skein) : (s.updSk u f).timeLock = s.timeLock := rfl
@[simp] theorem State.updSk_timeSeen (s : State) (u : Nat) (f : Skein → Skein) : (s.updSk u f).timeSeen = s.timeSeen := rfl
@[simp] theorem State.updSk_timeGood (s : State) (u : Nat) (f : Skein → Skein) : (s.updSk u f).timeGood = s.timeGood := rfl
@[simp] theorem State.updSk_timeLag (s : State) (u : Nat) (f : Skein → Skein) : (s.updSk u f).timeLag = s.timeLag := rfl
@[simp] theorem State.updSk_phase (s : State) (u : Nat) (f : Skein → Skein) : (s.updSk u f).phase = s.phase := rfl
@[simp] theorem State.updSk_pathHold (s : State) (u : Nat) (f : Skein → Skein) : (s.updSk u f).pathHold = s.pathHold := rfl
@[simp] theorem State.updSk_windows (s : State) (u : Nat) (f : Skein → Skein) : (s.updSk u f).windows = s.windows := rfl
@[simp] theorem State.updSk_groups (s : State) (u : Nat) (f : Skein → Skein) : (s.updSk u f).groups = s.groups := rfl
@[simp] theorem State.updSk_power (s : State) (u : Nat) (f : Skein → Skein) : (s.updSk u f).power = s.power := rfl
@[simp] theorem State.updSk_limit (s : State) (u : Nat) (f : Skein → Skein) : (s.updSk u f).limit = s.limit := rfl
@[simp] theorem State.updSk_alert (s : State) (u : Nat) (f : Skein → Skein) : (s.updSk u f).alert = s.alert := rfl
@[simp] theorem State.updSk_telemetry (s : State) (u : Nat) (f : Skein → Skein) : (s.updSk u f).telemetry = s.telemetry := rfl
@[simp] theorem State.updSk_sums (s : State) (u : Nat) (f : Skein → Skein) : (s.updSk u f).sums = s.sums := rfl
@[simp] theorem State.updSk_powerAt (s : State) (u : Nat) (f : Skein → Skein) : (s.updSk u f).powerAt = s.powerAt := rfl
@[simp] theorem State.updSk_telemetryAt (s : State) (u : Nat) (f : Skein → Skein) : (s.updSk u f).telemetryAt = s.telemetryAt := rfl
@[simp] theorem State.updSk_agenda (s : State) (u : Nat) (f : Skein → Skein) : (s.updSk u f).agenda = s.agenda := rfl
@[simp] theorem State.updSk_issue (s : State) (u : Nat) (f : Skein → Skein) : (s.updSk u f).issue = s.issue := rfl
@[simp] theorem State.updSk_blocked (s : State) (u : Nat) (f : Skein → Skein) : (s.updSk u f).blocked = s.blocked := rfl
@[simp] theorem State.updSk_freeCtr (s : State) (u : Nat) (f : Skein → Skein) : (s.updSk u f).freeCtr = s.freeCtr := rfl
@[simp] theorem State.updSk_idCtr (s : State) (u : Nat) (f : Skein → Skein) : (s.updSk u f).idCtr = s.idCtr := rfl
@[simp] theorem State.updSk_streak (s : State) (u : Nat) (f : Skein → Skein) : (s.updSk u f).streak = s.streak := rfl

@[simp] theorem State.advance_now (s : State) : (s.advance).now = s.now := rfl
@[simp] theorem State.advance_teams (s : State) : (s.advance).teams = s.teams := rfl
@[simp] theorem State.advance_grids (s : State) : (s.advance).grids = s.grids := rfl
@[simp] theorem State.advance_seeps (s : State) : (s.advance).seeps = s.seeps := rfl
@[simp] theorem State.advance_accs (s : State) : (s.advance).accs = s.accs := rfl
@[simp] theorem State.advance_releases (s : State) : (s.advance).releases = s.releases := rfl
@[simp] theorem State.advance_mem (s : State) : (s.advance).mem = s.mem := rfl
@[simp] theorem State.advance_poisoned (s : State) : (s.advance).poisoned = s.poisoned := rfl
@[simp] theorem State.advance_accesses (s : State) : (s.advance).accesses = s.accesses := rfl
@[simp] theorem State.advance_samples (s : State) : (s.advance).samples = s.samples := rfl
@[simp] theorem State.advance_copies (s : State) : (s.advance).copies = s.copies := rfl
@[simp] theorem State.advance_homes (s : State) : (s.advance).homes = s.homes := rfl
@[simp] theorem State.advance_lostLeases (s : State) : (s.advance).lostLeases = s.lostLeases := rfl
@[simp] theorem State.advance_resids (s : State) : (s.advance).resids = s.resids := rfl
@[simp] theorem State.advance_dowser (s : State) : (s.advance).dowser = s.dowser := rfl
@[simp] theorem State.advance_wellMap (s : State) : (s.advance).wellMap = s.wellMap := rfl
@[simp] theorem State.advance_moves (s : State) : (s.advance).moves = s.moves := rfl
@[simp] theorem State.advance_dowserAt (s : State) : (s.advance).dowserAt = s.dowserAt := rfl
@[simp] theorem State.advance_lineKeys (s : State) : (s.advance).lineKeys = s.lineKeys := rfl
@[simp] theorem State.advance_scratchOf (s : State) : (s.advance).scratchOf = s.scratchOf := rfl
@[simp] theorem State.advance_tlb (s : State) : (s.advance).tlb = s.tlb := rfl
@[simp] theorem State.advance_ilines (s : State) : (s.advance).ilines = s.ilines := rfl
@[simp] theorem State.advance_ireqs (s : State) : (s.advance).ireqs = s.ireqs := rfl
@[simp] theorem State.advance_invAddr (s : State) : (s.advance).invAddr = s.invAddr := rfl
@[simp] theorem State.advance_invCtl (s : State) : (s.advance).invCtl = s.invCtl := rfl
@[simp] theorem State.advance_invFrom (s : State) : (s.advance).invFrom = s.invFrom := rfl
@[simp] theorem State.advance_invGone (s : State) : (s.advance).invGone = s.invGone := rfl
@[simp] theorem State.advance_ops (s : State) : (s.advance).ops = s.ops := rfl
@[simp] theorem State.advance_pumpTurn (s : State) : (s.advance).pumpTurn = s.pumpTurn := rfl
@[simp] theorem State.advance_mats (s : State) : (s.advance).mats = s.mats := rfl
@[simp] theorem State.advance_heats (s : State) : (s.advance).heats = s.heats := rfl
@[simp] theorem State.advance_altered (s : State) : (s.advance).altered = s.altered := rfl
@[simp] theorem State.advance_altIds (s : State) : (s.advance).altIds = s.altIds := rfl
@[simp] theorem State.advance_collSeqs (s : State) : (s.advance).collSeqs = s.collSeqs := rfl
@[simp] theorem State.advance_contexts (s : State) : (s.advance).contexts = s.contexts := rfl
@[simp] theorem State.advance_partitions (s : State) : (s.advance).partitions = s.partitions := rfl
@[simp] theorem State.advance_slews (s : State) : (s.advance).slews = s.slews := rfl
@[simp] theorem State.advance_record (s : State) : (s.advance).record = s.record := rfl
@[simp] theorem State.advance_bootCode (s : State) : (s.advance).bootCode = s.bootCode := rfl
@[simp] theorem State.advance_barErr (s : State) : (s.advance).barErr = s.barErr := rfl
@[simp] theorem State.advance_vfMap (s : State) : (s.advance).vfMap = s.vfMap := rfl
@[simp] theorem State.advance_vfRoots (s : State) : (s.advance).vfRoots = s.vfRoots := rfl
@[simp] theorem State.advance_tdisp (s : State) : (s.advance).tdisp = s.tdisp := rfl
@[simp] theorem State.advance_msixLog (s : State) : (s.advance).msixLog = s.msixLog := rfl
@[simp] theorem State.advance_attest (s : State) : (s.advance).attest = s.attest := rfl
@[simp] theorem State.advance_ports (s : State) : (s.advance).ports = s.ports := rfl
@[simp] theorem State.advance_ubMsix (s : State) : (s.advance).ubMsix = s.ubMsix := rfl
@[simp] theorem State.advance_timeLock (s : State) : (s.advance).timeLock = s.timeLock := rfl
@[simp] theorem State.advance_timeSeen (s : State) : (s.advance).timeSeen = s.timeSeen := rfl
@[simp] theorem State.advance_timeGood (s : State) : (s.advance).timeGood = s.timeGood := rfl
@[simp] theorem State.advance_timeLag (s : State) : (s.advance).timeLag = s.timeLag := rfl
@[simp] theorem State.advance_phase (s : State) : (s.advance).phase = s.phase := rfl
@[simp] theorem State.advance_pathHold (s : State) : (s.advance).pathHold = s.pathHold := rfl
@[simp] theorem State.advance_windows (s : State) : (s.advance).windows = s.windows := rfl
@[simp] theorem State.advance_groups (s : State) : (s.advance).groups = s.groups := rfl
@[simp] theorem State.advance_power (s : State) : (s.advance).power = s.power := rfl
@[simp] theorem State.advance_limit (s : State) : (s.advance).limit = s.limit := rfl
@[simp] theorem State.advance_alert (s : State) : (s.advance).alert = s.alert := rfl
@[simp] theorem State.advance_telemetry (s : State) : (s.advance).telemetry = s.telemetry := rfl
@[simp] theorem State.advance_sums (s : State) : (s.advance).sums = s.sums := rfl
@[simp] theorem State.advance_powerAt (s : State) : (s.advance).powerAt = s.powerAt := rfl
@[simp] theorem State.advance_telemetryAt (s : State) : (s.advance).telemetryAt = s.telemetryAt := rfl
@[simp] theorem State.advance_agenda (s : State) : (s.advance).agenda = s.agenda := rfl
@[simp] theorem State.advance_issue (s : State) : (s.advance).issue = s.issue := rfl
@[simp] theorem State.advance_blocked (s : State) : (s.advance).blocked = s.blocked := rfl
@[simp] theorem State.advance_freeCtr (s : State) : (s.advance).freeCtr = s.freeCtr := rfl
@[simp] theorem State.advance_idCtr (s : State) : (s.advance).idCtr = s.idCtr := rfl
@[simp] theorem State.advance_streak (s : State) : (s.advance).streak = s.streak := rfl

@[simp] theorem State.laneEff_now (s : State) (e : LaneEff) : (s.laneEff e).now = s.now := rfl
@[simp] theorem State.laneEff_teams (s : State) (e : LaneEff) : (s.laneEff e).teams = s.teams := rfl
@[simp] theorem State.laneEff_grids (s : State) (e : LaneEff) : (s.laneEff e).grids = s.grids := rfl
@[simp] theorem State.laneEff_seeps (s : State) (e : LaneEff) : (s.laneEff e).seeps = s.seeps := rfl
@[simp] theorem State.laneEff_accs (s : State) (e : LaneEff) : (s.laneEff e).accs = s.accs := rfl
@[simp] theorem State.laneEff_releases (s : State) (e : LaneEff) : (s.laneEff e).releases = s.releases := rfl
@[simp] theorem State.laneEff_mem (s : State) (e : LaneEff) : (s.laneEff e).mem = s.mem := rfl
@[simp] theorem State.laneEff_poisoned (s : State) (e : LaneEff) : (s.laneEff e).poisoned = s.poisoned := rfl
@[simp] theorem State.laneEff_accesses (s : State) (e : LaneEff) : (s.laneEff e).accesses = s.accesses := rfl
@[simp] theorem State.laneEff_samples (s : State) (e : LaneEff) : (s.laneEff e).samples = s.samples := rfl
@[simp] theorem State.laneEff_copies (s : State) (e : LaneEff) : (s.laneEff e).copies = s.copies := rfl
@[simp] theorem State.laneEff_homes (s : State) (e : LaneEff) : (s.laneEff e).homes = s.homes := rfl
@[simp] theorem State.laneEff_lostLeases (s : State) (e : LaneEff) : (s.laneEff e).lostLeases = s.lostLeases := rfl
@[simp] theorem State.laneEff_resids (s : State) (e : LaneEff) : (s.laneEff e).resids = s.resids := rfl
@[simp] theorem State.laneEff_dowser (s : State) (e : LaneEff) : (s.laneEff e).dowser = s.dowser := rfl
@[simp] theorem State.laneEff_wellMap (s : State) (e : LaneEff) : (s.laneEff e).wellMap = s.wellMap := rfl
@[simp] theorem State.laneEff_moves (s : State) (e : LaneEff) : (s.laneEff e).moves = s.moves := rfl
@[simp] theorem State.laneEff_dowserAt (s : State) (e : LaneEff) : (s.laneEff e).dowserAt = s.dowserAt := rfl
@[simp] theorem State.laneEff_lineKeys (s : State) (e : LaneEff) : (s.laneEff e).lineKeys = s.lineKeys := rfl
@[simp] theorem State.laneEff_scratchOf (s : State) (e : LaneEff) : (s.laneEff e).scratchOf = s.scratchOf := rfl
@[simp] theorem State.laneEff_tlb (s : State) (e : LaneEff) : (s.laneEff e).tlb = s.tlb := rfl
@[simp] theorem State.laneEff_ilines (s : State) (e : LaneEff) : (s.laneEff e).ilines = s.ilines := rfl
@[simp] theorem State.laneEff_ireqs (s : State) (e : LaneEff) : (s.laneEff e).ireqs = s.ireqs := rfl
@[simp] theorem State.laneEff_invAddr (s : State) (e : LaneEff) : (s.laneEff e).invAddr = s.invAddr := rfl
@[simp] theorem State.laneEff_invCtl (s : State) (e : LaneEff) : (s.laneEff e).invCtl = s.invCtl := rfl
@[simp] theorem State.laneEff_invFrom (s : State) (e : LaneEff) : (s.laneEff e).invFrom = s.invFrom := rfl
@[simp] theorem State.laneEff_invGone (s : State) (e : LaneEff) : (s.laneEff e).invGone = s.invGone := rfl
@[simp] theorem State.laneEff_ops (s : State) (e : LaneEff) : (s.laneEff e).ops = s.ops := rfl
@[simp] theorem State.laneEff_pumpTurn (s : State) (e : LaneEff) : (s.laneEff e).pumpTurn = s.pumpTurn := rfl
@[simp] theorem State.laneEff_mats (s : State) (e : LaneEff) : (s.laneEff e).mats = s.mats := rfl
@[simp] theorem State.laneEff_heats (s : State) (e : LaneEff) : (s.laneEff e).heats = s.heats := rfl
@[simp] theorem State.laneEff_altered (s : State) (e : LaneEff) : (s.laneEff e).altered = s.altered := rfl
@[simp] theorem State.laneEff_altIds (s : State) (e : LaneEff) : (s.laneEff e).altIds = s.altIds := rfl
@[simp] theorem State.laneEff_collSeqs (s : State) (e : LaneEff) : (s.laneEff e).collSeqs = s.collSeqs := rfl
@[simp] theorem State.laneEff_contexts (s : State) (e : LaneEff) : (s.laneEff e).contexts = s.contexts := rfl
@[simp] theorem State.laneEff_partitions (s : State) (e : LaneEff) : (s.laneEff e).partitions = s.partitions := rfl
@[simp] theorem State.laneEff_slews (s : State) (e : LaneEff) : (s.laneEff e).slews = s.slews := rfl
@[simp] theorem State.laneEff_record (s : State) (e : LaneEff) : (s.laneEff e).record = s.record := rfl
@[simp] theorem State.laneEff_bootCode (s : State) (e : LaneEff) : (s.laneEff e).bootCode = s.bootCode := rfl
@[simp] theorem State.laneEff_barErr (s : State) (e : LaneEff) : (s.laneEff e).barErr = s.barErr := rfl
@[simp] theorem State.laneEff_vfMap (s : State) (e : LaneEff) : (s.laneEff e).vfMap = s.vfMap := rfl
@[simp] theorem State.laneEff_vfRoots (s : State) (e : LaneEff) : (s.laneEff e).vfRoots = s.vfRoots := rfl
@[simp] theorem State.laneEff_tdisp (s : State) (e : LaneEff) : (s.laneEff e).tdisp = s.tdisp := rfl
@[simp] theorem State.laneEff_msixLog (s : State) (e : LaneEff) : (s.laneEff e).msixLog = s.msixLog := rfl
@[simp] theorem State.laneEff_attest (s : State) (e : LaneEff) : (s.laneEff e).attest = s.attest := rfl
@[simp] theorem State.laneEff_ports (s : State) (e : LaneEff) : (s.laneEff e).ports = s.ports := rfl
@[simp] theorem State.laneEff_ubMsix (s : State) (e : LaneEff) : (s.laneEff e).ubMsix = s.ubMsix := rfl
@[simp] theorem State.laneEff_timeLock (s : State) (e : LaneEff) : (s.laneEff e).timeLock = s.timeLock := rfl
@[simp] theorem State.laneEff_timeSeen (s : State) (e : LaneEff) : (s.laneEff e).timeSeen = s.timeSeen := rfl
@[simp] theorem State.laneEff_timeGood (s : State) (e : LaneEff) : (s.laneEff e).timeGood = s.timeGood := rfl
@[simp] theorem State.laneEff_timeLag (s : State) (e : LaneEff) : (s.laneEff e).timeLag = s.timeLag := rfl
@[simp] theorem State.laneEff_phase (s : State) (e : LaneEff) : (s.laneEff e).phase = s.phase := rfl
@[simp] theorem State.laneEff_pathHold (s : State) (e : LaneEff) : (s.laneEff e).pathHold = s.pathHold := rfl
@[simp] theorem State.laneEff_windows (s : State) (e : LaneEff) : (s.laneEff e).windows = s.windows := rfl
@[simp] theorem State.laneEff_groups (s : State) (e : LaneEff) : (s.laneEff e).groups = s.groups := rfl
@[simp] theorem State.laneEff_power (s : State) (e : LaneEff) : (s.laneEff e).power = s.power := rfl
@[simp] theorem State.laneEff_limit (s : State) (e : LaneEff) : (s.laneEff e).limit = s.limit := rfl
@[simp] theorem State.laneEff_alert (s : State) (e : LaneEff) : (s.laneEff e).alert = s.alert := rfl
@[simp] theorem State.laneEff_telemetry (s : State) (e : LaneEff) : (s.laneEff e).telemetry = s.telemetry := rfl
@[simp] theorem State.laneEff_sums (s : State) (e : LaneEff) : (s.laneEff e).sums = s.sums := rfl
@[simp] theorem State.laneEff_powerAt (s : State) (e : LaneEff) : (s.laneEff e).powerAt = s.powerAt := rfl
@[simp] theorem State.laneEff_telemetryAt (s : State) (e : LaneEff) : (s.laneEff e).telemetryAt = s.telemetryAt := rfl
@[simp] theorem State.laneEff_agenda (s : State) (e : LaneEff) : (s.laneEff e).agenda = s.agenda := rfl
@[simp] theorem State.laneEff_issue (s : State) (e : LaneEff) : (s.laneEff e).issue = s.issue := rfl
@[simp] theorem State.laneEff_blocked (s : State) (e : LaneEff) : (s.laneEff e).blocked = s.blocked := rfl
@[simp] theorem State.laneEff_freeCtr (s : State) (e : LaneEff) : (s.laneEff e).freeCtr = s.freeCtr := rfl
@[simp] theorem State.laneEff_idCtr (s : State) (e : LaneEff) : (s.laneEff e).idCtr = s.idCtr := rfl
@[simp] theorem State.laneEff_streak (s : State) (e : LaneEff) : (s.laneEff e).streak = s.streak := rfl

@[simp] theorem State.updTeam_now (s : State) (u : Nat) (f : Team → Team) : (s.updTeam u f).now = s.now := rfl
@[simp] theorem State.updTeam_skeins (s : State) (u : Nat) (f : Team → Team) : (s.updTeam u f).skeins = s.skeins := rfl
@[simp] theorem State.updTeam_grids (s : State) (u : Nat) (f : Team → Team) : (s.updTeam u f).grids = s.grids := rfl
@[simp] theorem State.updTeam_seeps (s : State) (u : Nat) (f : Team → Team) : (s.updTeam u f).seeps = s.seeps := rfl
@[simp] theorem State.updTeam_accs (s : State) (u : Nat) (f : Team → Team) : (s.updTeam u f).accs = s.accs := rfl
@[simp] theorem State.updTeam_releases (s : State) (u : Nat) (f : Team → Team) : (s.updTeam u f).releases = s.releases := rfl
@[simp] theorem State.updTeam_mem (s : State) (u : Nat) (f : Team → Team) : (s.updTeam u f).mem = s.mem := rfl
@[simp] theorem State.updTeam_poisoned (s : State) (u : Nat) (f : Team → Team) : (s.updTeam u f).poisoned = s.poisoned := rfl
@[simp] theorem State.updTeam_accesses (s : State) (u : Nat) (f : Team → Team) : (s.updTeam u f).accesses = s.accesses := rfl
@[simp] theorem State.updTeam_samples (s : State) (u : Nat) (f : Team → Team) : (s.updTeam u f).samples = s.samples := rfl
@[simp] theorem State.updTeam_copies (s : State) (u : Nat) (f : Team → Team) : (s.updTeam u f).copies = s.copies := rfl
@[simp] theorem State.updTeam_homes (s : State) (u : Nat) (f : Team → Team) : (s.updTeam u f).homes = s.homes := rfl
@[simp] theorem State.updTeam_lostLeases (s : State) (u : Nat) (f : Team → Team) : (s.updTeam u f).lostLeases = s.lostLeases := rfl
@[simp] theorem State.updTeam_resids (s : State) (u : Nat) (f : Team → Team) : (s.updTeam u f).resids = s.resids := rfl
@[simp] theorem State.updTeam_dowser (s : State) (u : Nat) (f : Team → Team) : (s.updTeam u f).dowser = s.dowser := rfl
@[simp] theorem State.updTeam_wellMap (s : State) (u : Nat) (f : Team → Team) : (s.updTeam u f).wellMap = s.wellMap := rfl
@[simp] theorem State.updTeam_moves (s : State) (u : Nat) (f : Team → Team) : (s.updTeam u f).moves = s.moves := rfl
@[simp] theorem State.updTeam_dowserAt (s : State) (u : Nat) (f : Team → Team) : (s.updTeam u f).dowserAt = s.dowserAt := rfl
@[simp] theorem State.updTeam_lineKeys (s : State) (u : Nat) (f : Team → Team) : (s.updTeam u f).lineKeys = s.lineKeys := rfl
@[simp] theorem State.updTeam_scratchOf (s : State) (u : Nat) (f : Team → Team) : (s.updTeam u f).scratchOf = s.scratchOf := rfl
@[simp] theorem State.updTeam_tlb (s : State) (u : Nat) (f : Team → Team) : (s.updTeam u f).tlb = s.tlb := rfl
@[simp] theorem State.updTeam_ilines (s : State) (u : Nat) (f : Team → Team) : (s.updTeam u f).ilines = s.ilines := rfl
@[simp] theorem State.updTeam_ireqs (s : State) (u : Nat) (f : Team → Team) : (s.updTeam u f).ireqs = s.ireqs := rfl
@[simp] theorem State.updTeam_invAddr (s : State) (u : Nat) (f : Team → Team) : (s.updTeam u f).invAddr = s.invAddr := rfl
@[simp] theorem State.updTeam_invCtl (s : State) (u : Nat) (f : Team → Team) : (s.updTeam u f).invCtl = s.invCtl := rfl
@[simp] theorem State.updTeam_invFrom (s : State) (u : Nat) (f : Team → Team) : (s.updTeam u f).invFrom = s.invFrom := rfl
@[simp] theorem State.updTeam_invGone (s : State) (u : Nat) (f : Team → Team) : (s.updTeam u f).invGone = s.invGone := rfl
@[simp] theorem State.updTeam_ops (s : State) (u : Nat) (f : Team → Team) : (s.updTeam u f).ops = s.ops := rfl
@[simp] theorem State.updTeam_pumpTurn (s : State) (u : Nat) (f : Team → Team) : (s.updTeam u f).pumpTurn = s.pumpTurn := rfl
@[simp] theorem State.updTeam_mats (s : State) (u : Nat) (f : Team → Team) : (s.updTeam u f).mats = s.mats := rfl
@[simp] theorem State.updTeam_heats (s : State) (u : Nat) (f : Team → Team) : (s.updTeam u f).heats = s.heats := rfl
@[simp] theorem State.updTeam_altered (s : State) (u : Nat) (f : Team → Team) : (s.updTeam u f).altered = s.altered := rfl
@[simp] theorem State.updTeam_altIds (s : State) (u : Nat) (f : Team → Team) : (s.updTeam u f).altIds = s.altIds := rfl
@[simp] theorem State.updTeam_collSeqs (s : State) (u : Nat) (f : Team → Team) : (s.updTeam u f).collSeqs = s.collSeqs := rfl
@[simp] theorem State.updTeam_contexts (s : State) (u : Nat) (f : Team → Team) : (s.updTeam u f).contexts = s.contexts := rfl
@[simp] theorem State.updTeam_partitions (s : State) (u : Nat) (f : Team → Team) : (s.updTeam u f).partitions = s.partitions := rfl
@[simp] theorem State.updTeam_slews (s : State) (u : Nat) (f : Team → Team) : (s.updTeam u f).slews = s.slews := rfl
@[simp] theorem State.updTeam_record (s : State) (u : Nat) (f : Team → Team) : (s.updTeam u f).record = s.record := rfl
@[simp] theorem State.updTeam_bootCode (s : State) (u : Nat) (f : Team → Team) : (s.updTeam u f).bootCode = s.bootCode := rfl
@[simp] theorem State.updTeam_barErr (s : State) (u : Nat) (f : Team → Team) : (s.updTeam u f).barErr = s.barErr := rfl
@[simp] theorem State.updTeam_vfMap (s : State) (u : Nat) (f : Team → Team) : (s.updTeam u f).vfMap = s.vfMap := rfl
@[simp] theorem State.updTeam_vfRoots (s : State) (u : Nat) (f : Team → Team) : (s.updTeam u f).vfRoots = s.vfRoots := rfl
@[simp] theorem State.updTeam_tdisp (s : State) (u : Nat) (f : Team → Team) : (s.updTeam u f).tdisp = s.tdisp := rfl
@[simp] theorem State.updTeam_msixLog (s : State) (u : Nat) (f : Team → Team) : (s.updTeam u f).msixLog = s.msixLog := rfl
@[simp] theorem State.updTeam_attest (s : State) (u : Nat) (f : Team → Team) : (s.updTeam u f).attest = s.attest := rfl
@[simp] theorem State.updTeam_ports (s : State) (u : Nat) (f : Team → Team) : (s.updTeam u f).ports = s.ports := rfl
@[simp] theorem State.updTeam_ubMsix (s : State) (u : Nat) (f : Team → Team) : (s.updTeam u f).ubMsix = s.ubMsix := rfl
@[simp] theorem State.updTeam_timeLock (s : State) (u : Nat) (f : Team → Team) : (s.updTeam u f).timeLock = s.timeLock := rfl
@[simp] theorem State.updTeam_timeSeen (s : State) (u : Nat) (f : Team → Team) : (s.updTeam u f).timeSeen = s.timeSeen := rfl
@[simp] theorem State.updTeam_timeGood (s : State) (u : Nat) (f : Team → Team) : (s.updTeam u f).timeGood = s.timeGood := rfl
@[simp] theorem State.updTeam_timeLag (s : State) (u : Nat) (f : Team → Team) : (s.updTeam u f).timeLag = s.timeLag := rfl
@[simp] theorem State.updTeam_phase (s : State) (u : Nat) (f : Team → Team) : (s.updTeam u f).phase = s.phase := rfl
@[simp] theorem State.updTeam_pathHold (s : State) (u : Nat) (f : Team → Team) : (s.updTeam u f).pathHold = s.pathHold := rfl
@[simp] theorem State.updTeam_windows (s : State) (u : Nat) (f : Team → Team) : (s.updTeam u f).windows = s.windows := rfl
@[simp] theorem State.updTeam_groups (s : State) (u : Nat) (f : Team → Team) : (s.updTeam u f).groups = s.groups := rfl
@[simp] theorem State.updTeam_power (s : State) (u : Nat) (f : Team → Team) : (s.updTeam u f).power = s.power := rfl
@[simp] theorem State.updTeam_limit (s : State) (u : Nat) (f : Team → Team) : (s.updTeam u f).limit = s.limit := rfl
@[simp] theorem State.updTeam_alert (s : State) (u : Nat) (f : Team → Team) : (s.updTeam u f).alert = s.alert := rfl
@[simp] theorem State.updTeam_telemetry (s : State) (u : Nat) (f : Team → Team) : (s.updTeam u f).telemetry = s.telemetry := rfl
@[simp] theorem State.updTeam_sums (s : State) (u : Nat) (f : Team → Team) : (s.updTeam u f).sums = s.sums := rfl
@[simp] theorem State.updTeam_powerAt (s : State) (u : Nat) (f : Team → Team) : (s.updTeam u f).powerAt = s.powerAt := rfl
@[simp] theorem State.updTeam_telemetryAt (s : State) (u : Nat) (f : Team → Team) : (s.updTeam u f).telemetryAt = s.telemetryAt := rfl
@[simp] theorem State.updTeam_agenda (s : State) (u : Nat) (f : Team → Team) : (s.updTeam u f).agenda = s.agenda := rfl
@[simp] theorem State.updTeam_issue (s : State) (u : Nat) (f : Team → Team) : (s.updTeam u f).issue = s.issue := rfl
@[simp] theorem State.updTeam_blocked (s : State) (u : Nat) (f : Team → Team) : (s.updTeam u f).blocked = s.blocked := rfl
@[simp] theorem State.updTeam_freeCtr (s : State) (u : Nat) (f : Team → Team) : (s.updTeam u f).freeCtr = s.freeCtr := rfl
@[simp] theorem State.updTeam_idCtr (s : State) (u : Nat) (f : Team → Team) : (s.updTeam u f).idCtr = s.idCtr := rfl
@[simp] theorem State.updTeam_streak (s : State) (u : Nat) (f : Team → Team) : (s.updTeam u f).streak = s.streak := rfl

@[simp] theorem State.updGrid_now (s : State) (u : Nat) (f : Grid → Grid) : (s.updGrid u f).now = s.now := rfl
@[simp] theorem State.updGrid_skeins (s : State) (u : Nat) (f : Grid → Grid) : (s.updGrid u f).skeins = s.skeins := rfl
@[simp] theorem State.updGrid_teams (s : State) (u : Nat) (f : Grid → Grid) : (s.updGrid u f).teams = s.teams := rfl
@[simp] theorem State.updGrid_seeps (s : State) (u : Nat) (f : Grid → Grid) : (s.updGrid u f).seeps = s.seeps := rfl
@[simp] theorem State.updGrid_accs (s : State) (u : Nat) (f : Grid → Grid) : (s.updGrid u f).accs = s.accs := rfl
@[simp] theorem State.updGrid_releases (s : State) (u : Nat) (f : Grid → Grid) : (s.updGrid u f).releases = s.releases := rfl
@[simp] theorem State.updGrid_mem (s : State) (u : Nat) (f : Grid → Grid) : (s.updGrid u f).mem = s.mem := rfl
@[simp] theorem State.updGrid_poisoned (s : State) (u : Nat) (f : Grid → Grid) : (s.updGrid u f).poisoned = s.poisoned := rfl
@[simp] theorem State.updGrid_accesses (s : State) (u : Nat) (f : Grid → Grid) : (s.updGrid u f).accesses = s.accesses := rfl
@[simp] theorem State.updGrid_samples (s : State) (u : Nat) (f : Grid → Grid) : (s.updGrid u f).samples = s.samples := rfl
@[simp] theorem State.updGrid_copies (s : State) (u : Nat) (f : Grid → Grid) : (s.updGrid u f).copies = s.copies := rfl
@[simp] theorem State.updGrid_homes (s : State) (u : Nat) (f : Grid → Grid) : (s.updGrid u f).homes = s.homes := rfl
@[simp] theorem State.updGrid_lostLeases (s : State) (u : Nat) (f : Grid → Grid) : (s.updGrid u f).lostLeases = s.lostLeases := rfl
@[simp] theorem State.updGrid_resids (s : State) (u : Nat) (f : Grid → Grid) : (s.updGrid u f).resids = s.resids := rfl
@[simp] theorem State.updGrid_dowser (s : State) (u : Nat) (f : Grid → Grid) : (s.updGrid u f).dowser = s.dowser := rfl
@[simp] theorem State.updGrid_wellMap (s : State) (u : Nat) (f : Grid → Grid) : (s.updGrid u f).wellMap = s.wellMap := rfl
@[simp] theorem State.updGrid_moves (s : State) (u : Nat) (f : Grid → Grid) : (s.updGrid u f).moves = s.moves := rfl
@[simp] theorem State.updGrid_dowserAt (s : State) (u : Nat) (f : Grid → Grid) : (s.updGrid u f).dowserAt = s.dowserAt := rfl
@[simp] theorem State.updGrid_lineKeys (s : State) (u : Nat) (f : Grid → Grid) : (s.updGrid u f).lineKeys = s.lineKeys := rfl
@[simp] theorem State.updGrid_scratchOf (s : State) (u : Nat) (f : Grid → Grid) : (s.updGrid u f).scratchOf = s.scratchOf := rfl
@[simp] theorem State.updGrid_tlb (s : State) (u : Nat) (f : Grid → Grid) : (s.updGrid u f).tlb = s.tlb := rfl
@[simp] theorem State.updGrid_ilines (s : State) (u : Nat) (f : Grid → Grid) : (s.updGrid u f).ilines = s.ilines := rfl
@[simp] theorem State.updGrid_ireqs (s : State) (u : Nat) (f : Grid → Grid) : (s.updGrid u f).ireqs = s.ireqs := rfl
@[simp] theorem State.updGrid_invAddr (s : State) (u : Nat) (f : Grid → Grid) : (s.updGrid u f).invAddr = s.invAddr := rfl
@[simp] theorem State.updGrid_invCtl (s : State) (u : Nat) (f : Grid → Grid) : (s.updGrid u f).invCtl = s.invCtl := rfl
@[simp] theorem State.updGrid_invFrom (s : State) (u : Nat) (f : Grid → Grid) : (s.updGrid u f).invFrom = s.invFrom := rfl
@[simp] theorem State.updGrid_invGone (s : State) (u : Nat) (f : Grid → Grid) : (s.updGrid u f).invGone = s.invGone := rfl
@[simp] theorem State.updGrid_ops (s : State) (u : Nat) (f : Grid → Grid) : (s.updGrid u f).ops = s.ops := rfl
@[simp] theorem State.updGrid_pumpTurn (s : State) (u : Nat) (f : Grid → Grid) : (s.updGrid u f).pumpTurn = s.pumpTurn := rfl
@[simp] theorem State.updGrid_mats (s : State) (u : Nat) (f : Grid → Grid) : (s.updGrid u f).mats = s.mats := rfl
@[simp] theorem State.updGrid_heats (s : State) (u : Nat) (f : Grid → Grid) : (s.updGrid u f).heats = s.heats := rfl
@[simp] theorem State.updGrid_altered (s : State) (u : Nat) (f : Grid → Grid) : (s.updGrid u f).altered = s.altered := rfl
@[simp] theorem State.updGrid_altIds (s : State) (u : Nat) (f : Grid → Grid) : (s.updGrid u f).altIds = s.altIds := rfl
@[simp] theorem State.updGrid_collSeqs (s : State) (u : Nat) (f : Grid → Grid) : (s.updGrid u f).collSeqs = s.collSeqs := rfl
@[simp] theorem State.updGrid_contexts (s : State) (u : Nat) (f : Grid → Grid) : (s.updGrid u f).contexts = s.contexts := rfl
@[simp] theorem State.updGrid_partitions (s : State) (u : Nat) (f : Grid → Grid) : (s.updGrid u f).partitions = s.partitions := rfl
@[simp] theorem State.updGrid_slews (s : State) (u : Nat) (f : Grid → Grid) : (s.updGrid u f).slews = s.slews := rfl
@[simp] theorem State.updGrid_record (s : State) (u : Nat) (f : Grid → Grid) : (s.updGrid u f).record = s.record := rfl
@[simp] theorem State.updGrid_bootCode (s : State) (u : Nat) (f : Grid → Grid) : (s.updGrid u f).bootCode = s.bootCode := rfl
@[simp] theorem State.updGrid_barErr (s : State) (u : Nat) (f : Grid → Grid) : (s.updGrid u f).barErr = s.barErr := rfl
@[simp] theorem State.updGrid_vfMap (s : State) (u : Nat) (f : Grid → Grid) : (s.updGrid u f).vfMap = s.vfMap := rfl
@[simp] theorem State.updGrid_vfRoots (s : State) (u : Nat) (f : Grid → Grid) : (s.updGrid u f).vfRoots = s.vfRoots := rfl
@[simp] theorem State.updGrid_tdisp (s : State) (u : Nat) (f : Grid → Grid) : (s.updGrid u f).tdisp = s.tdisp := rfl
@[simp] theorem State.updGrid_msixLog (s : State) (u : Nat) (f : Grid → Grid) : (s.updGrid u f).msixLog = s.msixLog := rfl
@[simp] theorem State.updGrid_attest (s : State) (u : Nat) (f : Grid → Grid) : (s.updGrid u f).attest = s.attest := rfl
@[simp] theorem State.updGrid_ports (s : State) (u : Nat) (f : Grid → Grid) : (s.updGrid u f).ports = s.ports := rfl
@[simp] theorem State.updGrid_ubMsix (s : State) (u : Nat) (f : Grid → Grid) : (s.updGrid u f).ubMsix = s.ubMsix := rfl
@[simp] theorem State.updGrid_timeLock (s : State) (u : Nat) (f : Grid → Grid) : (s.updGrid u f).timeLock = s.timeLock := rfl
@[simp] theorem State.updGrid_timeSeen (s : State) (u : Nat) (f : Grid → Grid) : (s.updGrid u f).timeSeen = s.timeSeen := rfl
@[simp] theorem State.updGrid_timeGood (s : State) (u : Nat) (f : Grid → Grid) : (s.updGrid u f).timeGood = s.timeGood := rfl
@[simp] theorem State.updGrid_timeLag (s : State) (u : Nat) (f : Grid → Grid) : (s.updGrid u f).timeLag = s.timeLag := rfl
@[simp] theorem State.updGrid_phase (s : State) (u : Nat) (f : Grid → Grid) : (s.updGrid u f).phase = s.phase := rfl
@[simp] theorem State.updGrid_pathHold (s : State) (u : Nat) (f : Grid → Grid) : (s.updGrid u f).pathHold = s.pathHold := rfl
@[simp] theorem State.updGrid_windows (s : State) (u : Nat) (f : Grid → Grid) : (s.updGrid u f).windows = s.windows := rfl
@[simp] theorem State.updGrid_groups (s : State) (u : Nat) (f : Grid → Grid) : (s.updGrid u f).groups = s.groups := rfl
@[simp] theorem State.updGrid_power (s : State) (u : Nat) (f : Grid → Grid) : (s.updGrid u f).power = s.power := rfl
@[simp] theorem State.updGrid_limit (s : State) (u : Nat) (f : Grid → Grid) : (s.updGrid u f).limit = s.limit := rfl
@[simp] theorem State.updGrid_alert (s : State) (u : Nat) (f : Grid → Grid) : (s.updGrid u f).alert = s.alert := rfl
@[simp] theorem State.updGrid_telemetry (s : State) (u : Nat) (f : Grid → Grid) : (s.updGrid u f).telemetry = s.telemetry := rfl
@[simp] theorem State.updGrid_sums (s : State) (u : Nat) (f : Grid → Grid) : (s.updGrid u f).sums = s.sums := rfl
@[simp] theorem State.updGrid_powerAt (s : State) (u : Nat) (f : Grid → Grid) : (s.updGrid u f).powerAt = s.powerAt := rfl
@[simp] theorem State.updGrid_telemetryAt (s : State) (u : Nat) (f : Grid → Grid) : (s.updGrid u f).telemetryAt = s.telemetryAt := rfl
@[simp] theorem State.updGrid_agenda (s : State) (u : Nat) (f : Grid → Grid) : (s.updGrid u f).agenda = s.agenda := rfl
@[simp] theorem State.updGrid_issue (s : State) (u : Nat) (f : Grid → Grid) : (s.updGrid u f).issue = s.issue := rfl
@[simp] theorem State.updGrid_blocked (s : State) (u : Nat) (f : Grid → Grid) : (s.updGrid u f).blocked = s.blocked := rfl
@[simp] theorem State.updGrid_freeCtr (s : State) (u : Nat) (f : Grid → Grid) : (s.updGrid u f).freeCtr = s.freeCtr := rfl
@[simp] theorem State.updGrid_idCtr (s : State) (u : Nat) (f : Grid → Grid) : (s.updGrid u f).idCtr = s.idCtr := rfl
@[simp] theorem State.updGrid_streak (s : State) (u : Nat) (f : Grid → Grid) : (s.updGrid u f).streak = s.streak := rfl

@[simp] theorem State.updCtx_now (s : State) (n : Nat) (f : Context → Context) : (s.updCtx n f).now = s.now := rfl
@[simp] theorem State.updCtx_skeins (s : State) (n : Nat) (f : Context → Context) : (s.updCtx n f).skeins = s.skeins := rfl
@[simp] theorem State.updCtx_teams (s : State) (n : Nat) (f : Context → Context) : (s.updCtx n f).teams = s.teams := rfl
@[simp] theorem State.updCtx_grids (s : State) (n : Nat) (f : Context → Context) : (s.updCtx n f).grids = s.grids := rfl
@[simp] theorem State.updCtx_seeps (s : State) (n : Nat) (f : Context → Context) : (s.updCtx n f).seeps = s.seeps := rfl
@[simp] theorem State.updCtx_accs (s : State) (n : Nat) (f : Context → Context) : (s.updCtx n f).accs = s.accs := rfl
@[simp] theorem State.updCtx_releases (s : State) (n : Nat) (f : Context → Context) : (s.updCtx n f).releases = s.releases := rfl
@[simp] theorem State.updCtx_mem (s : State) (n : Nat) (f : Context → Context) : (s.updCtx n f).mem = s.mem := rfl
@[simp] theorem State.updCtx_poisoned (s : State) (n : Nat) (f : Context → Context) : (s.updCtx n f).poisoned = s.poisoned := rfl
@[simp] theorem State.updCtx_accesses (s : State) (n : Nat) (f : Context → Context) : (s.updCtx n f).accesses = s.accesses := rfl
@[simp] theorem State.updCtx_samples (s : State) (n : Nat) (f : Context → Context) : (s.updCtx n f).samples = s.samples := rfl
@[simp] theorem State.updCtx_copies (s : State) (n : Nat) (f : Context → Context) : (s.updCtx n f).copies = s.copies := rfl
@[simp] theorem State.updCtx_homes (s : State) (n : Nat) (f : Context → Context) : (s.updCtx n f).homes = s.homes := rfl
@[simp] theorem State.updCtx_lostLeases (s : State) (n : Nat) (f : Context → Context) : (s.updCtx n f).lostLeases = s.lostLeases := rfl
@[simp] theorem State.updCtx_resids (s : State) (n : Nat) (f : Context → Context) : (s.updCtx n f).resids = s.resids := rfl
@[simp] theorem State.updCtx_dowser (s : State) (n : Nat) (f : Context → Context) : (s.updCtx n f).dowser = s.dowser := rfl
@[simp] theorem State.updCtx_wellMap (s : State) (n : Nat) (f : Context → Context) : (s.updCtx n f).wellMap = s.wellMap := rfl
@[simp] theorem State.updCtx_moves (s : State) (n : Nat) (f : Context → Context) : (s.updCtx n f).moves = s.moves := rfl
@[simp] theorem State.updCtx_dowserAt (s : State) (n : Nat) (f : Context → Context) : (s.updCtx n f).dowserAt = s.dowserAt := rfl
@[simp] theorem State.updCtx_lineKeys (s : State) (n : Nat) (f : Context → Context) : (s.updCtx n f).lineKeys = s.lineKeys := rfl
@[simp] theorem State.updCtx_scratchOf (s : State) (n : Nat) (f : Context → Context) : (s.updCtx n f).scratchOf = s.scratchOf := rfl
@[simp] theorem State.updCtx_tlb (s : State) (n : Nat) (f : Context → Context) : (s.updCtx n f).tlb = s.tlb := rfl
@[simp] theorem State.updCtx_ilines (s : State) (n : Nat) (f : Context → Context) : (s.updCtx n f).ilines = s.ilines := rfl
@[simp] theorem State.updCtx_ireqs (s : State) (n : Nat) (f : Context → Context) : (s.updCtx n f).ireqs = s.ireqs := rfl
@[simp] theorem State.updCtx_invAddr (s : State) (n : Nat) (f : Context → Context) : (s.updCtx n f).invAddr = s.invAddr := rfl
@[simp] theorem State.updCtx_invCtl (s : State) (n : Nat) (f : Context → Context) : (s.updCtx n f).invCtl = s.invCtl := rfl
@[simp] theorem State.updCtx_invFrom (s : State) (n : Nat) (f : Context → Context) : (s.updCtx n f).invFrom = s.invFrom := rfl
@[simp] theorem State.updCtx_invGone (s : State) (n : Nat) (f : Context → Context) : (s.updCtx n f).invGone = s.invGone := rfl
@[simp] theorem State.updCtx_ops (s : State) (n : Nat) (f : Context → Context) : (s.updCtx n f).ops = s.ops := rfl
@[simp] theorem State.updCtx_pumpTurn (s : State) (n : Nat) (f : Context → Context) : (s.updCtx n f).pumpTurn = s.pumpTurn := rfl
@[simp] theorem State.updCtx_mats (s : State) (n : Nat) (f : Context → Context) : (s.updCtx n f).mats = s.mats := rfl
@[simp] theorem State.updCtx_heats (s : State) (n : Nat) (f : Context → Context) : (s.updCtx n f).heats = s.heats := rfl
@[simp] theorem State.updCtx_altered (s : State) (n : Nat) (f : Context → Context) : (s.updCtx n f).altered = s.altered := rfl
@[simp] theorem State.updCtx_altIds (s : State) (n : Nat) (f : Context → Context) : (s.updCtx n f).altIds = s.altIds := rfl
@[simp] theorem State.updCtx_collSeqs (s : State) (n : Nat) (f : Context → Context) : (s.updCtx n f).collSeqs = s.collSeqs := rfl
@[simp] theorem State.updCtx_partitions (s : State) (n : Nat) (f : Context → Context) : (s.updCtx n f).partitions = s.partitions := rfl
@[simp] theorem State.updCtx_slews (s : State) (n : Nat) (f : Context → Context) : (s.updCtx n f).slews = s.slews := rfl
@[simp] theorem State.updCtx_record (s : State) (n : Nat) (f : Context → Context) : (s.updCtx n f).record = s.record := rfl
@[simp] theorem State.updCtx_bootCode (s : State) (n : Nat) (f : Context → Context) : (s.updCtx n f).bootCode = s.bootCode := rfl
@[simp] theorem State.updCtx_barErr (s : State) (n : Nat) (f : Context → Context) : (s.updCtx n f).barErr = s.barErr := rfl
@[simp] theorem State.updCtx_vfMap (s : State) (n : Nat) (f : Context → Context) : (s.updCtx n f).vfMap = s.vfMap := rfl
@[simp] theorem State.updCtx_vfRoots (s : State) (n : Nat) (f : Context → Context) : (s.updCtx n f).vfRoots = s.vfRoots := rfl
@[simp] theorem State.updCtx_tdisp (s : State) (n : Nat) (f : Context → Context) : (s.updCtx n f).tdisp = s.tdisp := rfl
@[simp] theorem State.updCtx_msixLog (s : State) (n : Nat) (f : Context → Context) : (s.updCtx n f).msixLog = s.msixLog := rfl
@[simp] theorem State.updCtx_attest (s : State) (n : Nat) (f : Context → Context) : (s.updCtx n f).attest = s.attest := rfl
@[simp] theorem State.updCtx_ports (s : State) (n : Nat) (f : Context → Context) : (s.updCtx n f).ports = s.ports := rfl
@[simp] theorem State.updCtx_ubMsix (s : State) (n : Nat) (f : Context → Context) : (s.updCtx n f).ubMsix = s.ubMsix := rfl
@[simp] theorem State.updCtx_timeLock (s : State) (n : Nat) (f : Context → Context) : (s.updCtx n f).timeLock = s.timeLock := rfl
@[simp] theorem State.updCtx_timeSeen (s : State) (n : Nat) (f : Context → Context) : (s.updCtx n f).timeSeen = s.timeSeen := rfl
@[simp] theorem State.updCtx_timeGood (s : State) (n : Nat) (f : Context → Context) : (s.updCtx n f).timeGood = s.timeGood := rfl
@[simp] theorem State.updCtx_timeLag (s : State) (n : Nat) (f : Context → Context) : (s.updCtx n f).timeLag = s.timeLag := rfl
@[simp] theorem State.updCtx_phase (s : State) (n : Nat) (f : Context → Context) : (s.updCtx n f).phase = s.phase := rfl
@[simp] theorem State.updCtx_pathHold (s : State) (n : Nat) (f : Context → Context) : (s.updCtx n f).pathHold = s.pathHold := rfl
@[simp] theorem State.updCtx_windows (s : State) (n : Nat) (f : Context → Context) : (s.updCtx n f).windows = s.windows := rfl
@[simp] theorem State.updCtx_groups (s : State) (n : Nat) (f : Context → Context) : (s.updCtx n f).groups = s.groups := rfl
@[simp] theorem State.updCtx_power (s : State) (n : Nat) (f : Context → Context) : (s.updCtx n f).power = s.power := rfl
@[simp] theorem State.updCtx_limit (s : State) (n : Nat) (f : Context → Context) : (s.updCtx n f).limit = s.limit := rfl
@[simp] theorem State.updCtx_alert (s : State) (n : Nat) (f : Context → Context) : (s.updCtx n f).alert = s.alert := rfl
@[simp] theorem State.updCtx_telemetry (s : State) (n : Nat) (f : Context → Context) : (s.updCtx n f).telemetry = s.telemetry := rfl
@[simp] theorem State.updCtx_sums (s : State) (n : Nat) (f : Context → Context) : (s.updCtx n f).sums = s.sums := rfl
@[simp] theorem State.updCtx_powerAt (s : State) (n : Nat) (f : Context → Context) : (s.updCtx n f).powerAt = s.powerAt := rfl
@[simp] theorem State.updCtx_telemetryAt (s : State) (n : Nat) (f : Context → Context) : (s.updCtx n f).telemetryAt = s.telemetryAt := rfl
@[simp] theorem State.updCtx_agenda (s : State) (n : Nat) (f : Context → Context) : (s.updCtx n f).agenda = s.agenda := rfl
@[simp] theorem State.updCtx_issue (s : State) (n : Nat) (f : Context → Context) : (s.updCtx n f).issue = s.issue := rfl
@[simp] theorem State.updCtx_blocked (s : State) (n : Nat) (f : Context → Context) : (s.updCtx n f).blocked = s.blocked := rfl
@[simp] theorem State.updCtx_freeCtr (s : State) (n : Nat) (f : Context → Context) : (s.updCtx n f).freeCtr = s.freeCtr := rfl
@[simp] theorem State.updCtx_idCtr (s : State) (n : Nat) (f : Context → Context) : (s.updCtx n f).idCtr = s.idCtr := rfl
@[simp] theorem State.updCtx_streak (s : State) (n : Nat) (f : Context → Context) : (s.updCtx n f).streak = s.streak := rfl

@[simp] theorem State.updPart_now (s : State) (n : Nat) (f : Partition → Partition) : (s.updPart n f).now = s.now := rfl
@[simp] theorem State.updPart_skeins (s : State) (n : Nat) (f : Partition → Partition) : (s.updPart n f).skeins = s.skeins := rfl
@[simp] theorem State.updPart_teams (s : State) (n : Nat) (f : Partition → Partition) : (s.updPart n f).teams = s.teams := rfl
@[simp] theorem State.updPart_grids (s : State) (n : Nat) (f : Partition → Partition) : (s.updPart n f).grids = s.grids := rfl
@[simp] theorem State.updPart_seeps (s : State) (n : Nat) (f : Partition → Partition) : (s.updPart n f).seeps = s.seeps := rfl
@[simp] theorem State.updPart_accs (s : State) (n : Nat) (f : Partition → Partition) : (s.updPart n f).accs = s.accs := rfl
@[simp] theorem State.updPart_releases (s : State) (n : Nat) (f : Partition → Partition) : (s.updPart n f).releases = s.releases := rfl
@[simp] theorem State.updPart_mem (s : State) (n : Nat) (f : Partition → Partition) : (s.updPart n f).mem = s.mem := rfl
@[simp] theorem State.updPart_poisoned (s : State) (n : Nat) (f : Partition → Partition) : (s.updPart n f).poisoned = s.poisoned := rfl
@[simp] theorem State.updPart_accesses (s : State) (n : Nat) (f : Partition → Partition) : (s.updPart n f).accesses = s.accesses := rfl
@[simp] theorem State.updPart_samples (s : State) (n : Nat) (f : Partition → Partition) : (s.updPart n f).samples = s.samples := rfl
@[simp] theorem State.updPart_copies (s : State) (n : Nat) (f : Partition → Partition) : (s.updPart n f).copies = s.copies := rfl
@[simp] theorem State.updPart_homes (s : State) (n : Nat) (f : Partition → Partition) : (s.updPart n f).homes = s.homes := rfl
@[simp] theorem State.updPart_lostLeases (s : State) (n : Nat) (f : Partition → Partition) : (s.updPart n f).lostLeases = s.lostLeases := rfl
@[simp] theorem State.updPart_resids (s : State) (n : Nat) (f : Partition → Partition) : (s.updPart n f).resids = s.resids := rfl
@[simp] theorem State.updPart_dowser (s : State) (n : Nat) (f : Partition → Partition) : (s.updPart n f).dowser = s.dowser := rfl
@[simp] theorem State.updPart_wellMap (s : State) (n : Nat) (f : Partition → Partition) : (s.updPart n f).wellMap = s.wellMap := rfl
@[simp] theorem State.updPart_moves (s : State) (n : Nat) (f : Partition → Partition) : (s.updPart n f).moves = s.moves := rfl
@[simp] theorem State.updPart_dowserAt (s : State) (n : Nat) (f : Partition → Partition) : (s.updPart n f).dowserAt = s.dowserAt := rfl
@[simp] theorem State.updPart_lineKeys (s : State) (n : Nat) (f : Partition → Partition) : (s.updPart n f).lineKeys = s.lineKeys := rfl
@[simp] theorem State.updPart_scratchOf (s : State) (n : Nat) (f : Partition → Partition) : (s.updPart n f).scratchOf = s.scratchOf := rfl
@[simp] theorem State.updPart_tlb (s : State) (n : Nat) (f : Partition → Partition) : (s.updPart n f).tlb = s.tlb := rfl
@[simp] theorem State.updPart_ilines (s : State) (n : Nat) (f : Partition → Partition) : (s.updPart n f).ilines = s.ilines := rfl
@[simp] theorem State.updPart_ireqs (s : State) (n : Nat) (f : Partition → Partition) : (s.updPart n f).ireqs = s.ireqs := rfl
@[simp] theorem State.updPart_invAddr (s : State) (n : Nat) (f : Partition → Partition) : (s.updPart n f).invAddr = s.invAddr := rfl
@[simp] theorem State.updPart_invCtl (s : State) (n : Nat) (f : Partition → Partition) : (s.updPart n f).invCtl = s.invCtl := rfl
@[simp] theorem State.updPart_invFrom (s : State) (n : Nat) (f : Partition → Partition) : (s.updPart n f).invFrom = s.invFrom := rfl
@[simp] theorem State.updPart_invGone (s : State) (n : Nat) (f : Partition → Partition) : (s.updPart n f).invGone = s.invGone := rfl
@[simp] theorem State.updPart_ops (s : State) (n : Nat) (f : Partition → Partition) : (s.updPart n f).ops = s.ops := rfl
@[simp] theorem State.updPart_pumpTurn (s : State) (n : Nat) (f : Partition → Partition) : (s.updPart n f).pumpTurn = s.pumpTurn := rfl
@[simp] theorem State.updPart_mats (s : State) (n : Nat) (f : Partition → Partition) : (s.updPart n f).mats = s.mats := rfl
@[simp] theorem State.updPart_heats (s : State) (n : Nat) (f : Partition → Partition) : (s.updPart n f).heats = s.heats := rfl
@[simp] theorem State.updPart_altered (s : State) (n : Nat) (f : Partition → Partition) : (s.updPart n f).altered = s.altered := rfl
@[simp] theorem State.updPart_altIds (s : State) (n : Nat) (f : Partition → Partition) : (s.updPart n f).altIds = s.altIds := rfl
@[simp] theorem State.updPart_collSeqs (s : State) (n : Nat) (f : Partition → Partition) : (s.updPart n f).collSeqs = s.collSeqs := rfl
@[simp] theorem State.updPart_contexts (s : State) (n : Nat) (f : Partition → Partition) : (s.updPart n f).contexts = s.contexts := rfl
@[simp] theorem State.updPart_slews (s : State) (n : Nat) (f : Partition → Partition) : (s.updPart n f).slews = s.slews := rfl
@[simp] theorem State.updPart_record (s : State) (n : Nat) (f : Partition → Partition) : (s.updPart n f).record = s.record := rfl
@[simp] theorem State.updPart_bootCode (s : State) (n : Nat) (f : Partition → Partition) : (s.updPart n f).bootCode = s.bootCode := rfl
@[simp] theorem State.updPart_barErr (s : State) (n : Nat) (f : Partition → Partition) : (s.updPart n f).barErr = s.barErr := rfl
@[simp] theorem State.updPart_vfMap (s : State) (n : Nat) (f : Partition → Partition) : (s.updPart n f).vfMap = s.vfMap := rfl
@[simp] theorem State.updPart_vfRoots (s : State) (n : Nat) (f : Partition → Partition) : (s.updPart n f).vfRoots = s.vfRoots := rfl
@[simp] theorem State.updPart_tdisp (s : State) (n : Nat) (f : Partition → Partition) : (s.updPart n f).tdisp = s.tdisp := rfl
@[simp] theorem State.updPart_msixLog (s : State) (n : Nat) (f : Partition → Partition) : (s.updPart n f).msixLog = s.msixLog := rfl
@[simp] theorem State.updPart_attest (s : State) (n : Nat) (f : Partition → Partition) : (s.updPart n f).attest = s.attest := rfl
@[simp] theorem State.updPart_ports (s : State) (n : Nat) (f : Partition → Partition) : (s.updPart n f).ports = s.ports := rfl
@[simp] theorem State.updPart_ubMsix (s : State) (n : Nat) (f : Partition → Partition) : (s.updPart n f).ubMsix = s.ubMsix := rfl
@[simp] theorem State.updPart_timeLock (s : State) (n : Nat) (f : Partition → Partition) : (s.updPart n f).timeLock = s.timeLock := rfl
@[simp] theorem State.updPart_timeSeen (s : State) (n : Nat) (f : Partition → Partition) : (s.updPart n f).timeSeen = s.timeSeen := rfl
@[simp] theorem State.updPart_timeGood (s : State) (n : Nat) (f : Partition → Partition) : (s.updPart n f).timeGood = s.timeGood := rfl
@[simp] theorem State.updPart_timeLag (s : State) (n : Nat) (f : Partition → Partition) : (s.updPart n f).timeLag = s.timeLag := rfl
@[simp] theorem State.updPart_phase (s : State) (n : Nat) (f : Partition → Partition) : (s.updPart n f).phase = s.phase := rfl
@[simp] theorem State.updPart_pathHold (s : State) (n : Nat) (f : Partition → Partition) : (s.updPart n f).pathHold = s.pathHold := rfl
@[simp] theorem State.updPart_windows (s : State) (n : Nat) (f : Partition → Partition) : (s.updPart n f).windows = s.windows := rfl
@[simp] theorem State.updPart_groups (s : State) (n : Nat) (f : Partition → Partition) : (s.updPart n f).groups = s.groups := rfl
@[simp] theorem State.updPart_power (s : State) (n : Nat) (f : Partition → Partition) : (s.updPart n f).power = s.power := rfl
@[simp] theorem State.updPart_limit (s : State) (n : Nat) (f : Partition → Partition) : (s.updPart n f).limit = s.limit := rfl
@[simp] theorem State.updPart_alert (s : State) (n : Nat) (f : Partition → Partition) : (s.updPart n f).alert = s.alert := rfl
@[simp] theorem State.updPart_telemetry (s : State) (n : Nat) (f : Partition → Partition) : (s.updPart n f).telemetry = s.telemetry := rfl
@[simp] theorem State.updPart_sums (s : State) (n : Nat) (f : Partition → Partition) : (s.updPart n f).sums = s.sums := rfl
@[simp] theorem State.updPart_powerAt (s : State) (n : Nat) (f : Partition → Partition) : (s.updPart n f).powerAt = s.powerAt := rfl
@[simp] theorem State.updPart_telemetryAt (s : State) (n : Nat) (f : Partition → Partition) : (s.updPart n f).telemetryAt = s.telemetryAt := rfl
@[simp] theorem State.updPart_agenda (s : State) (n : Nat) (f : Partition → Partition) : (s.updPart n f).agenda = s.agenda := rfl
@[simp] theorem State.updPart_issue (s : State) (n : Nat) (f : Partition → Partition) : (s.updPart n f).issue = s.issue := rfl
@[simp] theorem State.updPart_blocked (s : State) (n : Nat) (f : Partition → Partition) : (s.updPart n f).blocked = s.blocked := rfl
@[simp] theorem State.updPart_freeCtr (s : State) (n : Nat) (f : Partition → Partition) : (s.updPart n f).freeCtr = s.freeCtr := rfl
@[simp] theorem State.updPart_idCtr (s : State) (n : Nat) (f : Partition → Partition) : (s.updPart n f).idCtr = s.idCtr := rfl
@[simp] theorem State.updPart_streak (s : State) (n : Nat) (f : Partition → Partition) : (s.updPart n f).streak = s.streak := rfl

@[simp] theorem State.updOp_now (s : State) (u : Nat) (f : EngineOp → EngineOp) : (s.updOp u f).now = s.now := rfl
@[simp] theorem State.updOp_skeins (s : State) (u : Nat) (f : EngineOp → EngineOp) : (s.updOp u f).skeins = s.skeins := rfl
@[simp] theorem State.updOp_teams (s : State) (u : Nat) (f : EngineOp → EngineOp) : (s.updOp u f).teams = s.teams := rfl
@[simp] theorem State.updOp_grids (s : State) (u : Nat) (f : EngineOp → EngineOp) : (s.updOp u f).grids = s.grids := rfl
@[simp] theorem State.updOp_seeps (s : State) (u : Nat) (f : EngineOp → EngineOp) : (s.updOp u f).seeps = s.seeps := rfl
@[simp] theorem State.updOp_accs (s : State) (u : Nat) (f : EngineOp → EngineOp) : (s.updOp u f).accs = s.accs := rfl
@[simp] theorem State.updOp_releases (s : State) (u : Nat) (f : EngineOp → EngineOp) : (s.updOp u f).releases = s.releases := rfl
@[simp] theorem State.updOp_mem (s : State) (u : Nat) (f : EngineOp → EngineOp) : (s.updOp u f).mem = s.mem := rfl
@[simp] theorem State.updOp_poisoned (s : State) (u : Nat) (f : EngineOp → EngineOp) : (s.updOp u f).poisoned = s.poisoned := rfl
@[simp] theorem State.updOp_accesses (s : State) (u : Nat) (f : EngineOp → EngineOp) : (s.updOp u f).accesses = s.accesses := rfl
@[simp] theorem State.updOp_samples (s : State) (u : Nat) (f : EngineOp → EngineOp) : (s.updOp u f).samples = s.samples := rfl
@[simp] theorem State.updOp_copies (s : State) (u : Nat) (f : EngineOp → EngineOp) : (s.updOp u f).copies = s.copies := rfl
@[simp] theorem State.updOp_homes (s : State) (u : Nat) (f : EngineOp → EngineOp) : (s.updOp u f).homes = s.homes := rfl
@[simp] theorem State.updOp_lostLeases (s : State) (u : Nat) (f : EngineOp → EngineOp) : (s.updOp u f).lostLeases = s.lostLeases := rfl
@[simp] theorem State.updOp_resids (s : State) (u : Nat) (f : EngineOp → EngineOp) : (s.updOp u f).resids = s.resids := rfl
@[simp] theorem State.updOp_dowser (s : State) (u : Nat) (f : EngineOp → EngineOp) : (s.updOp u f).dowser = s.dowser := rfl
@[simp] theorem State.updOp_wellMap (s : State) (u : Nat) (f : EngineOp → EngineOp) : (s.updOp u f).wellMap = s.wellMap := rfl
@[simp] theorem State.updOp_moves (s : State) (u : Nat) (f : EngineOp → EngineOp) : (s.updOp u f).moves = s.moves := rfl
@[simp] theorem State.updOp_dowserAt (s : State) (u : Nat) (f : EngineOp → EngineOp) : (s.updOp u f).dowserAt = s.dowserAt := rfl
@[simp] theorem State.updOp_lineKeys (s : State) (u : Nat) (f : EngineOp → EngineOp) : (s.updOp u f).lineKeys = s.lineKeys := rfl
@[simp] theorem State.updOp_scratchOf (s : State) (u : Nat) (f : EngineOp → EngineOp) : (s.updOp u f).scratchOf = s.scratchOf := rfl
@[simp] theorem State.updOp_tlb (s : State) (u : Nat) (f : EngineOp → EngineOp) : (s.updOp u f).tlb = s.tlb := rfl
@[simp] theorem State.updOp_ilines (s : State) (u : Nat) (f : EngineOp → EngineOp) : (s.updOp u f).ilines = s.ilines := rfl
@[simp] theorem State.updOp_ireqs (s : State) (u : Nat) (f : EngineOp → EngineOp) : (s.updOp u f).ireqs = s.ireqs := rfl
@[simp] theorem State.updOp_invAddr (s : State) (u : Nat) (f : EngineOp → EngineOp) : (s.updOp u f).invAddr = s.invAddr := rfl
@[simp] theorem State.updOp_invCtl (s : State) (u : Nat) (f : EngineOp → EngineOp) : (s.updOp u f).invCtl = s.invCtl := rfl
@[simp] theorem State.updOp_invFrom (s : State) (u : Nat) (f : EngineOp → EngineOp) : (s.updOp u f).invFrom = s.invFrom := rfl
@[simp] theorem State.updOp_invGone (s : State) (u : Nat) (f : EngineOp → EngineOp) : (s.updOp u f).invGone = s.invGone := rfl
@[simp] theorem State.updOp_pumpTurn (s : State) (u : Nat) (f : EngineOp → EngineOp) : (s.updOp u f).pumpTurn = s.pumpTurn := rfl
@[simp] theorem State.updOp_mats (s : State) (u : Nat) (f : EngineOp → EngineOp) : (s.updOp u f).mats = s.mats := rfl
@[simp] theorem State.updOp_heats (s : State) (u : Nat) (f : EngineOp → EngineOp) : (s.updOp u f).heats = s.heats := rfl
@[simp] theorem State.updOp_altered (s : State) (u : Nat) (f : EngineOp → EngineOp) : (s.updOp u f).altered = s.altered := rfl
@[simp] theorem State.updOp_altIds (s : State) (u : Nat) (f : EngineOp → EngineOp) : (s.updOp u f).altIds = s.altIds := rfl
@[simp] theorem State.updOp_collSeqs (s : State) (u : Nat) (f : EngineOp → EngineOp) : (s.updOp u f).collSeqs = s.collSeqs := rfl
@[simp] theorem State.updOp_contexts (s : State) (u : Nat) (f : EngineOp → EngineOp) : (s.updOp u f).contexts = s.contexts := rfl
@[simp] theorem State.updOp_partitions (s : State) (u : Nat) (f : EngineOp → EngineOp) : (s.updOp u f).partitions = s.partitions := rfl
@[simp] theorem State.updOp_slews (s : State) (u : Nat) (f : EngineOp → EngineOp) : (s.updOp u f).slews = s.slews := rfl
@[simp] theorem State.updOp_record (s : State) (u : Nat) (f : EngineOp → EngineOp) : (s.updOp u f).record = s.record := rfl
@[simp] theorem State.updOp_bootCode (s : State) (u : Nat) (f : EngineOp → EngineOp) : (s.updOp u f).bootCode = s.bootCode := rfl
@[simp] theorem State.updOp_barErr (s : State) (u : Nat) (f : EngineOp → EngineOp) : (s.updOp u f).barErr = s.barErr := rfl
@[simp] theorem State.updOp_vfMap (s : State) (u : Nat) (f : EngineOp → EngineOp) : (s.updOp u f).vfMap = s.vfMap := rfl
@[simp] theorem State.updOp_vfRoots (s : State) (u : Nat) (f : EngineOp → EngineOp) : (s.updOp u f).vfRoots = s.vfRoots := rfl
@[simp] theorem State.updOp_tdisp (s : State) (u : Nat) (f : EngineOp → EngineOp) : (s.updOp u f).tdisp = s.tdisp := rfl
@[simp] theorem State.updOp_msixLog (s : State) (u : Nat) (f : EngineOp → EngineOp) : (s.updOp u f).msixLog = s.msixLog := rfl
@[simp] theorem State.updOp_attest (s : State) (u : Nat) (f : EngineOp → EngineOp) : (s.updOp u f).attest = s.attest := rfl
@[simp] theorem State.updOp_ports (s : State) (u : Nat) (f : EngineOp → EngineOp) : (s.updOp u f).ports = s.ports := rfl
@[simp] theorem State.updOp_ubMsix (s : State) (u : Nat) (f : EngineOp → EngineOp) : (s.updOp u f).ubMsix = s.ubMsix := rfl
@[simp] theorem State.updOp_timeLock (s : State) (u : Nat) (f : EngineOp → EngineOp) : (s.updOp u f).timeLock = s.timeLock := rfl
@[simp] theorem State.updOp_timeSeen (s : State) (u : Nat) (f : EngineOp → EngineOp) : (s.updOp u f).timeSeen = s.timeSeen := rfl
@[simp] theorem State.updOp_timeGood (s : State) (u : Nat) (f : EngineOp → EngineOp) : (s.updOp u f).timeGood = s.timeGood := rfl
@[simp] theorem State.updOp_timeLag (s : State) (u : Nat) (f : EngineOp → EngineOp) : (s.updOp u f).timeLag = s.timeLag := rfl
@[simp] theorem State.updOp_phase (s : State) (u : Nat) (f : EngineOp → EngineOp) : (s.updOp u f).phase = s.phase := rfl
@[simp] theorem State.updOp_pathHold (s : State) (u : Nat) (f : EngineOp → EngineOp) : (s.updOp u f).pathHold = s.pathHold := rfl
@[simp] theorem State.updOp_windows (s : State) (u : Nat) (f : EngineOp → EngineOp) : (s.updOp u f).windows = s.windows := rfl
@[simp] theorem State.updOp_groups (s : State) (u : Nat) (f : EngineOp → EngineOp) : (s.updOp u f).groups = s.groups := rfl
@[simp] theorem State.updOp_power (s : State) (u : Nat) (f : EngineOp → EngineOp) : (s.updOp u f).power = s.power := rfl
@[simp] theorem State.updOp_limit (s : State) (u : Nat) (f : EngineOp → EngineOp) : (s.updOp u f).limit = s.limit := rfl
@[simp] theorem State.updOp_alert (s : State) (u : Nat) (f : EngineOp → EngineOp) : (s.updOp u f).alert = s.alert := rfl
@[simp] theorem State.updOp_telemetry (s : State) (u : Nat) (f : EngineOp → EngineOp) : (s.updOp u f).telemetry = s.telemetry := rfl
@[simp] theorem State.updOp_sums (s : State) (u : Nat) (f : EngineOp → EngineOp) : (s.updOp u f).sums = s.sums := rfl
@[simp] theorem State.updOp_powerAt (s : State) (u : Nat) (f : EngineOp → EngineOp) : (s.updOp u f).powerAt = s.powerAt := rfl
@[simp] theorem State.updOp_telemetryAt (s : State) (u : Nat) (f : EngineOp → EngineOp) : (s.updOp u f).telemetryAt = s.telemetryAt := rfl
@[simp] theorem State.updOp_agenda (s : State) (u : Nat) (f : EngineOp → EngineOp) : (s.updOp u f).agenda = s.agenda := rfl
@[simp] theorem State.updOp_issue (s : State) (u : Nat) (f : EngineOp → EngineOp) : (s.updOp u f).issue = s.issue := rfl
@[simp] theorem State.updOp_blocked (s : State) (u : Nat) (f : EngineOp → EngineOp) : (s.updOp u f).blocked = s.blocked := rfl
@[simp] theorem State.updOp_freeCtr (s : State) (u : Nat) (f : EngineOp → EngineOp) : (s.updOp u f).freeCtr = s.freeCtr := rfl
@[simp] theorem State.updOp_idCtr (s : State) (u : Nat) (f : EngineOp → EngineOp) : (s.updOp u f).idCtr = s.idCtr := rfl
@[simp] theorem State.updOp_streak (s : State) (u : Nat) (f : EngineOp → EngineOp) : (s.updOp u f).streak = s.streak := rfl

@[simp] theorem State.fresh_now (s : State) : s.fresh.2.now = s.now := rfl
@[simp] theorem State.fresh_skeins (s : State) : s.fresh.2.skeins = s.skeins := rfl
@[simp] theorem State.fresh_teams (s : State) : s.fresh.2.teams = s.teams := rfl
@[simp] theorem State.fresh_grids (s : State) : s.fresh.2.grids = s.grids := rfl
@[simp] theorem State.fresh_seeps (s : State) : s.fresh.2.seeps = s.seeps := rfl
@[simp] theorem State.fresh_accs (s : State) : s.fresh.2.accs = s.accs := rfl
@[simp] theorem State.fresh_releases (s : State) : s.fresh.2.releases = s.releases := rfl
@[simp] theorem State.fresh_mem (s : State) : s.fresh.2.mem = s.mem := rfl
@[simp] theorem State.fresh_poisoned (s : State) : s.fresh.2.poisoned = s.poisoned := rfl
@[simp] theorem State.fresh_accesses (s : State) : s.fresh.2.accesses = s.accesses := rfl
@[simp] theorem State.fresh_samples (s : State) : s.fresh.2.samples = s.samples := rfl
@[simp] theorem State.fresh_copies (s : State) : s.fresh.2.copies = s.copies := rfl
@[simp] theorem State.fresh_homes (s : State) : s.fresh.2.homes = s.homes := rfl
@[simp] theorem State.fresh_lostLeases (s : State) : s.fresh.2.lostLeases = s.lostLeases := rfl
@[simp] theorem State.fresh_resids (s : State) : s.fresh.2.resids = s.resids := rfl
@[simp] theorem State.fresh_dowser (s : State) : s.fresh.2.dowser = s.dowser := rfl
@[simp] theorem State.fresh_wellMap (s : State) : s.fresh.2.wellMap = s.wellMap := rfl
@[simp] theorem State.fresh_moves (s : State) : s.fresh.2.moves = s.moves := rfl
@[simp] theorem State.fresh_dowserAt (s : State) : s.fresh.2.dowserAt = s.dowserAt := rfl
@[simp] theorem State.fresh_lineKeys (s : State) : s.fresh.2.lineKeys = s.lineKeys := rfl
@[simp] theorem State.fresh_scratchOf (s : State) : s.fresh.2.scratchOf = s.scratchOf := rfl
@[simp] theorem State.fresh_tlb (s : State) : s.fresh.2.tlb = s.tlb := rfl
@[simp] theorem State.fresh_ilines (s : State) : s.fresh.2.ilines = s.ilines := rfl
@[simp] theorem State.fresh_ireqs (s : State) : s.fresh.2.ireqs = s.ireqs := rfl
@[simp] theorem State.fresh_invAddr (s : State) : s.fresh.2.invAddr = s.invAddr := rfl
@[simp] theorem State.fresh_invCtl (s : State) : s.fresh.2.invCtl = s.invCtl := rfl
@[simp] theorem State.fresh_invFrom (s : State) : s.fresh.2.invFrom = s.invFrom := rfl
@[simp] theorem State.fresh_invGone (s : State) : s.fresh.2.invGone = s.invGone := rfl
@[simp] theorem State.fresh_ops (s : State) : s.fresh.2.ops = s.ops := rfl
@[simp] theorem State.fresh_pumpTurn (s : State) : s.fresh.2.pumpTurn = s.pumpTurn := rfl
@[simp] theorem State.fresh_mats (s : State) : s.fresh.2.mats = s.mats := rfl
@[simp] theorem State.fresh_heats (s : State) : s.fresh.2.heats = s.heats := rfl
@[simp] theorem State.fresh_altered (s : State) : s.fresh.2.altered = s.altered := rfl
@[simp] theorem State.fresh_altIds (s : State) : s.fresh.2.altIds = s.altIds := rfl
@[simp] theorem State.fresh_collSeqs (s : State) : s.fresh.2.collSeqs = s.collSeqs := rfl
@[simp] theorem State.fresh_contexts (s : State) : s.fresh.2.contexts = s.contexts := rfl
@[simp] theorem State.fresh_partitions (s : State) : s.fresh.2.partitions = s.partitions := rfl
@[simp] theorem State.fresh_slews (s : State) : s.fresh.2.slews = s.slews := rfl
@[simp] theorem State.fresh_record (s : State) : s.fresh.2.record = s.record := rfl
@[simp] theorem State.fresh_bootCode (s : State) : s.fresh.2.bootCode = s.bootCode := rfl
@[simp] theorem State.fresh_barErr (s : State) : s.fresh.2.barErr = s.barErr := rfl
@[simp] theorem State.fresh_vfMap (s : State) : s.fresh.2.vfMap = s.vfMap := rfl
@[simp] theorem State.fresh_vfRoots (s : State) : s.fresh.2.vfRoots = s.vfRoots := rfl
@[simp] theorem State.fresh_tdisp (s : State) : s.fresh.2.tdisp = s.tdisp := rfl
@[simp] theorem State.fresh_msixLog (s : State) : s.fresh.2.msixLog = s.msixLog := rfl
@[simp] theorem State.fresh_attest (s : State) : s.fresh.2.attest = s.attest := rfl
@[simp] theorem State.fresh_ports (s : State) : s.fresh.2.ports = s.ports := rfl
@[simp] theorem State.fresh_ubMsix (s : State) : s.fresh.2.ubMsix = s.ubMsix := rfl
@[simp] theorem State.fresh_timeLock (s : State) : s.fresh.2.timeLock = s.timeLock := rfl
@[simp] theorem State.fresh_timeSeen (s : State) : s.fresh.2.timeSeen = s.timeSeen := rfl
@[simp] theorem State.fresh_timeGood (s : State) : s.fresh.2.timeGood = s.timeGood := rfl
@[simp] theorem State.fresh_timeLag (s : State) : s.fresh.2.timeLag = s.timeLag := rfl
@[simp] theorem State.fresh_phase (s : State) : s.fresh.2.phase = s.phase := rfl
@[simp] theorem State.fresh_pathHold (s : State) : s.fresh.2.pathHold = s.pathHold := rfl
@[simp] theorem State.fresh_windows (s : State) : s.fresh.2.windows = s.windows := rfl
@[simp] theorem State.fresh_groups (s : State) : s.fresh.2.groups = s.groups := rfl
@[simp] theorem State.fresh_power (s : State) : s.fresh.2.power = s.power := rfl
@[simp] theorem State.fresh_limit (s : State) : s.fresh.2.limit = s.limit := rfl
@[simp] theorem State.fresh_alert (s : State) : s.fresh.2.alert = s.alert := rfl
@[simp] theorem State.fresh_telemetry (s : State) : s.fresh.2.telemetry = s.telemetry := rfl
@[simp] theorem State.fresh_sums (s : State) : s.fresh.2.sums = s.sums := rfl
@[simp] theorem State.fresh_powerAt (s : State) : s.fresh.2.powerAt = s.powerAt := rfl
@[simp] theorem State.fresh_telemetryAt (s : State) : s.fresh.2.telemetryAt = s.telemetryAt := rfl
@[simp] theorem State.fresh_agenda (s : State) : s.fresh.2.agenda = s.agenda := rfl
@[simp] theorem State.fresh_issue (s : State) : s.fresh.2.issue = s.issue := rfl
@[simp] theorem State.fresh_blocked (s : State) : s.fresh.2.blocked = s.blocked := rfl
@[simp] theorem State.fresh_freeCtr (s : State) : s.fresh.2.freeCtr = s.freeCtr := rfl
@[simp] theorem State.fresh_streak (s : State) : s.fresh.2.streak = s.streak := rfl
@[simp] theorem State.fresh_idCtr (s : State) : s.fresh.2.idCtr = s.idCtr + 1 := rfl
@[simp] theorem State.fresh_fst (s : State) : s.fresh.1 = s.idCtr := rfl

end Sys2Proof.Machine
end

