-- ==== Sys2Proof/Laws/Ops.lean ====
section
/-!
SUPPORT. What the shared operations can do: the outcome of an instruction, the device's own records, taking a trap.
-/

namespace Sys2Proof.Machine

/-- What an instruction's outcome can be: its effect, a trap, or the state held at issue; never a fault, never a refusal. -/
theorem State.finish_cases (s : State) (c : Option Stop) (eff : State) :
    (c = none ∧ s.finish c eff = .next eff) ∨ (∃ t, c = some (.trap t) ∧ s.finish c eff = .next (s.takeTrap t)) ∨
      (c = some .hold ∧ s.finish c eff = .next { s with blocked := true }) := by
  match c with
  | none => exact .inl ⟨rfl, rfl⟩
  | some (.trap t) => exact .inr (.inl ⟨t, rfl, rfl⟩)
  | some .hold => exact .inr (.inr ⟨rfl, rfl⟩)

/-- No check stops exactly when every check passes. -/
theorem firstStop_eq_none (l : List (Option Stop)) : firstStop l = none ↔ ∀ x ∈ l, x = none := by
  induction l with
  | nil => simp [firstStop]
  | cons x r ih => cases x <;> simp [firstStop, ih]

/-- A cause is raised exactly where its condition holds. -/
theorem illIf_eq_none (b : Bool) (c : Cause) : illIf b c = none ↔ b = false := by cases b <;> simp [illIf, ill]

/-- Time passing touches only the clock, its lag and its phase. -/
theorem State.pass_rest (s : State) (n : Nat) :
    s.pass n = { s with now := (s.pass n).now, timeLag := (s.pass n).timeLag, phase := (s.pass n).phase } := by
  unfold State.pass
  split
  · rfl
  · split <;> rfl

@[simp] theorem State.pass_mem (s : State) (n : Nat) : (s.pass n).mem = s.mem := by rw [State.pass_rest]
@[simp] theorem State.pass_skeins (s : State) (n : Nat) : (s.pass n).skeins = s.skeins := by rw [State.pass_rest]

/-- A free value leaves everything but its count. -/
theorem State.free_rest (s : State) : s.free.2 = { s with freeCtr := s.freeCtr + 1 } := rfl

@[simp] theorem State.noteBusy_mem (s : State) (p : Nat) : (s.noteBusy p).mem = s.mem := by
  unfold State.noteBusy
  split <;> rfl

@[simp] theorem State.setState_mem (s : State) (c : Nat) (x : CtxState) : (s.setState c x).mem = s.mem := by simp [State.setState]

@[simp] theorem State.signal_mem (s : State) (f v : Nat) : (s.signal f v).mem = s.mem := rfl

@[simp] theorem State.signalCtx_mem (s : State) (c : Nat) : (s.signalCtx c).mem = s.mem := by unfold State.signalCtx; split <;> rfl

/-- A record's bytes in their area keep the memory's form. -/
theorem State.recStore_wf (s t : State) (c : Nat) (kind : BitVec 2) (a : Lane) (bs : List Byte) (h : s.mem.wf = true)
    (ht : s.recStore c kind a bs = some t) : t.mem.wf = true := by
  unfold State.recStore at ht
  split at ht
  · split at ht
    · cases ht
    · exact State.devStore_wf _ _ _ h ht
  · cases ht

@[simp] theorem State.holdDev_mem (s : State) (c : Nat) (d : DevWrite) : (s.holdDev c d).mem = s.mem := by
  unfold State.holdDev
  split <;> simp

/-- A record of the device's own keeps the memory's form. -/
theorem State.tryRecord_wf (s : State) (c : Nat) (kind : BitVec 2) (r : List Byte) (h : s.mem.wf = true) :
    (s.tryRecord c kind r).mem.wf = true := by
  unfold State.tryRecord
  dsimp only
  cases s.devLoad c ((s.ctx c).area kind).base 24 with
  | none => simpa using h
  | some b =>
    dsimp only
    generalize (if kind = 2 then (s.ctx c).produced else ofBytes (b.take 8)) = n
    split
    · split
      · simpa using h
      · rename_i s1 h1
        have w1 := State.recStore_wf _ _ _ _ _ _ h h1
        split
        · simpa using h
        · rename_i s2 h2
          have w2 := State.recStore_wf _ _ _ _ _ _ w1 h2
          split <;> split <;> simpa using w2
    · split
      · simpa using h
      · exact State.recStore_wf _ _ _ _ _ _ h ‹_›

theorem State.putRecord_wf (s : State) (c : Nat) (kind : BitVec 2) (r : List Byte) (h : s.mem.wf = true) :
    (s.putRecord c kind r).mem.wf = true := by
  unfold State.putRecord
  dsimp only
  split
  · simpa using h
  · exact State.tryRecord_wf _ _ _ _ h

theorem State.event_wf (s : State) (c : Nat) (r : List Byte) (h : s.mem.wf = true) : (s.event c r).mem.wf = true := by
  unfold State.event
  split
  · simpa using h
  · exact State.putRecord_wf _ _ _ _ h

theorem State.ctxEvent_wf (s : State) (c n : Nat) (h : s.mem.wf = true) : (s.ctxEvent c n).mem.wf = true := State.event_wf _ _ _ h

theorem State.flushSamples_wf (c n : Nat) (s : State) (h : s.mem.wf = true) : (State.flushSamples c n s).mem.wf = true := by
  induction n generalizing s with
  | zero => exact h
  | succ n ih =>
    simp only [State.flushSamples]
    split
    · exact h
    · exact ih _ (State.putRecord_wf _ _ _ _ h)

theorem State.trace_wf (s : State) (k : Skein) (n : Nat) (pc : Lane) (b : List Byte) (h : s.mem.wf = true) :
    (s.trace k n pc b).mem.wf = true := by
  unfold State.trace
  split
  · exact State.putRecord_wf _ _ _ _ (State.flushSamples_wf _ _ _ h)
  · exact h

/-- A trap keeps the memory's form. -/
theorem State.takeTrap_wf (s : State) (t : Trap) (h : s.mem.wf = true) : (s.takeTrap t).mem.wf = true := by
  unfold State.takeTrap
  split
  · unfold State.escalate
    simp only [State.signalCtx_mem]
    exact State.event_wf _ _ _ (by simpa using h)
  · simpa using State.trace_wf _ _ _ _ _ h

/-- An instruction's outcome keeps the memory's form where its effect does. -/
theorem State.finish_wf (s t : State) (c : Option Stop) (eff : State) (h : s.mem.wf = true) (he : eff.mem.wf = true)
    (ht : s.finish c eff = .next t) : t.mem.wf = true := by
  rcases s.finish_cases c eff with ⟨_, hf⟩ | ⟨x, _, hf⟩ | ⟨_, hf⟩ <;> rw [hf] at ht <;> cases ht
  · exact he
  · exact State.takeTrap_wf _ _ h
  · exact h

/-- R349: what a trap leaves in the trap registers, where no handler runs and no trace record is due: `t` in `sys.flt`, `fltpc`,
`fltaddr`, `fltlanes` and `fltaux`, the group held by the handler. -/
theorem State.takeTrap_regs (s : State) (t : Trap) (h : s.cur.handler = none) (hn : (s.ctx s.cur.ctx).dbg.tren.getLsbD 1 = false) :
    s.takeTrap t = s.updCur fun k => (k.deliver t).enterHandler s.issue t (s.ctx k.ctx).trapPc := by
  unfold State.takeTrap
  have ht : ∀ pc b, s.trace s.cur 0x32 pc b = s := by intro pc b; unfold State.trace; rw [if_neg (by unfold State.debugOf; split <;> simp_all)]
  rw [if_neg (by simp [h]), ht]

end Sys2Proof.Machine
end

