-- ==== Sys2Proof/Laws/Skein.lean ====
section
/-!
SUPPORT. Banks, threads and registers of a skein, and the one lemma that says what a lane-wise effect leaves.
-/

namespace Sys2Proof.Machine

theorem bankUpd_getD {α : Type} (n : Nat) (d : α) (l : List α) (i : Nat) (f : α → α) (j : Nat) (h : j < n) :
    (bankUpd n d l i f).getD j d = if j = i then f (l.getD j d) else l.getD j d := by
  simp [bankUpd, List.getD_eq_getElem?_getD, h]

@[simp] theorem State.cur_eq (s : State) {k : Skein} (h : s.sk? s.issue.sk = some k) : s.cur = k := by
  simp [State.cur, State.sk, h]

theorem State.sk_uid (s : State) {u : Nat} {k : Skein} (h : s.sk? u = some k) : k.uid = u := by
  simpa using List.find?_some h

theorem State.sk?_setSk (s : State) (k : Skein) (u : Nat) :
    (s.setSk k).sk? u = if k.uid = u then (s.sk? u).map fun _ => k else s.sk? u := by
  simp only [State.setSk, State.sk?]
  induction s.skeins with
  | nil => simp
  | cons x xs ih =>
    simp only [List.map_cons, List.find?_cons]
    by_cases hk : k.uid = u
    · subst hk
      by_cases hx : x.uid = k.uid
      · simp [hx]
      · have hu : (x.uid == k.uid) = false := by simpa using hx
        simpa [hx, hu] using ih
    · have hu : (k.uid == u) = false := by simpa using hk
      by_cases hx : x.uid = k.uid
      · simpa [hx, hk, hu] using ih
      · simp only [hk, if_false] at ih
        have hb : (x.uid == k.uid) = false := by simpa using hx
        rw [if_neg hk, hb, if_neg (by simp), ih]

theorem State.cur_updCur (s : State) (f : Skein → Skein) (h : s.Issuing) (hf : ∀ k, (f k).uid = k.uid) :
    (s.updCur f).cur = f s.cur := by
  obtain ⟨k, hk⟩ := h
  have hu := s.sk_uid hk
  simp [State.cur, State.sk, State.updCur, State.sk?_setSk, hf] at *
  simp [hu, hk]

theorem State.updCur_only (s : State) (f : Skein → Skein) (h : s.Issuing) (hf : ∀ k, (f k).uid = k.uid) :
    s.OnlyCur (s.updCur f) := by
  obtain ⟨k, hk⟩ := h
  refine ⟨rfl, fun u hu => ?_⟩
  have := s.sk_uid hk
  simp [State.updCur, State.sk?_setSk, hf, s.cur_eq hk, this, Ne.symm hu]

theorem State.updCur_issuing (s : State) (f : Skein → Skein) (h : s.Issuing) (hf : ∀ k, (f k).uid = k.uid) :
    (s.updCur f).Issuing := by
  obtain ⟨k, hk⟩ := h
  refine ⟨f k, ?_⟩
  simp [State.updCur, State.sk?_setSk, hf, s.sk_uid hk, hk]

theorem State.OnlyCur.trans {s t u : State} (h : s.OnlyCur t) (h' : t.OnlyCur u) : s.OnlyCur u := by
  have hi : t.issue = s.issue := by rw [h.1]
  refine ⟨?_, fun v hv => ?_⟩
  · rw [h'.1, h.1]
  · rw [h'.2 v (by rwa [hi]), h.2 v hv]

@[simp] theorem Skein.thread_updThreads (k : Skein) (p : Nat → Bool) (f : Nat → Thread → Thread) (l : Nat) (h : l < 32) :
    (k.updThreads p f).thread l = if p l then f l (k.thread l) else k.thread l := by
  simp [Skein.updThreads, Skein.thread, allLanes, List.getD_eq_getElem?_getD, h]

theorem VReg.put_lane (r : VReg) (p : Nat → Bool) (v : Nat → Lane) (t : Tag) (l : Nat) (h : l < 32) :
    (r.put p v t).lanes.getD l 0 = if p l then v l else r.lanes.getD l 0 := by
  simp [VReg.put, allLanes, List.getD_eq_getElem?_getD, h]

/-! ### Writing a register -/

/-- One region's share of a write. -/
def Skein.writeIn (k : Skein) (f : Reg) (p : Nat → Bool) (v : Nat → Lane) (t : Tag) (k' : Skein) (r : Region) : Skein :=
  let q := fun l => p l && (k.thread l).region == r
  if allLanes.any q then
    let phys := resolveIn k.pm r f
    let all := allLanes.all fun l => p l && k.resolve l f == phys
    { k' with regs := bankUpd 64 {} k'.regs phys fun x => x.put q v (if all then t.norm v else .general) }
  else k'

theorem Skein.write_eq (k : Skein) (f : Reg) (p : Nat → Bool) (v : Nat → Lane) (t : Tag) :
    k.write f p v t = allRegions.foldl (k.writeIn f p v t) k := rfl

theorem Skein.writeIn_rest (k : Skein) (f : Reg) (p : Nat → Bool) (v : Nat → Lane) (t : Tag) (k' : Skein) (r : Region) :
    k.writeIn f p v t k' r = { k' with regs := (k.writeIn f p v t k' r).regs } := by
  simp only [Skein.writeIn]; split <;> rfl

theorem Skein.write_rest (k : Skein) (f : Reg) (p : Nat → Bool) (v : Nat → Lane) (t : Tag) :
    k.write f p v t = { k with regs := (k.write f p v t).regs } := by
  rw [Skein.write_eq]
  suffices ∀ (rs : List Region) (k' : Skein), rs.foldl (k.writeIn f p v t) k' =
      { k' with regs := (rs.foldl (k.writeIn f p v t) k').regs } from this _ k
  intro rs
  induction rs with
  | nil => intro k'; rfl
  | cons r rs ih =>
    intro k'
    rw [List.foldl_cons, ih (k.writeIn f p v t k' r), k.writeIn_rest f p v t k' r]

@[simp] theorem Skein.write_uid (k : Skein) (f : Reg) (p : Nat → Bool) (v : Nat → Lane) (t : Tag) :
    (k.write f p v t).uid = k.uid := by rw [Skein.write_rest]

theorem Skein.reg_bankUpd (k : Skein) (i : Nat) (f : VReg → VReg) (j : Nat) (h : j < 64) :
    Skein.reg { k with regs := bankUpd 64 ({} : VReg) k.regs i f } j = if j = i then f (k.reg j) else k.reg j :=
  bankUpd_getD 64 ({} : VReg) k.regs i f j h

/-- The lanes, the tag and the untouched registers after the shares of some regions. -/
theorem Skein.writeIn_foldl (k : Skein) (f : Reg) (p : Nat → Bool) (v : Nat → Lane) (t : Tag) (j : Nat) (hj : j < 64)
    (rs : List Region) (k0 : Skein) :
    let K := rs.foldl (k.writeIn f p v t) k0
    (∀ l, l < 32 → K.lane j l =
      if p l = true ∧ (k.thread l).region ∈ rs ∧ k.resolve l f = j then v l else k0.lane j l) ∧
    ((∀ l, l < 32 → ¬ (p l = true ∧ (k.thread l).region ∈ rs ∧ k.resolve l f = j)) → K.reg j = k0.reg j) ∧
    ((∃ l, l < 32 ∧ p l = true ∧ (k.thread l).region ∈ rs ∧ k.resolve l f = j) → (K.reg j).tag =
      if allLanes.all fun l => p l && k.resolve l f == j then t.norm v else .general) := by
  classical
  induction rs generalizing k0 with
  | nil => simp
  | cons r rs ih =>
    obtain ⟨ih1, ih2, ih3⟩ := ih (k.writeIn f p v t k0 r)
    have step : Skein.reg (k.writeIn f p v t k0 r) j =
        if (∃ l, l < 32 ∧ p l = true ∧ (k.thread l).region = r) ∧ resolveIn k.pm r f = j then
          (k0.reg j).put (fun l => p l && (k.thread l).region == r) v
            (if allLanes.all fun l => p l && k.resolve l f == j then t.norm v else .general)
        else k0.reg j := by
      simp only [Skein.writeIn]
      have hany : (allLanes.any fun l => p l && (k.thread l).region == r) = true ↔
          ∃ l, l < 32 ∧ p l = true ∧ (k.thread l).region = r := by
        simp [allLanes]
      by_cases ha : ∃ l, l < 32 ∧ p l = true ∧ (k.thread l).region = r
      · rw [if_pos (hany.mpr ha), Skein.reg_bankUpd _ _ _ _ hj]
        by_cases he : resolveIn k.pm r f = j
        · subst he; simp [ha]
        · simp [Ne.symm he, he]
      · rw [if_neg (fun h => ha (hany.mp h))]; simp [ha]
    have lane0 : ∀ l, l < 32 → Skein.lane (k.writeIn f p v t k0 r) j l =
        if p l = true ∧ (k.thread l).region = r ∧ k.resolve l f = j then v l else k0.lane j l := by
      intro l hl
      simp only [Skein.lane, step]
      by_cases hr : (k.thread l).region = r
      · by_cases hp : p l = true
        · by_cases he : k.resolve l f = j
          · have he' : resolveIn k.pm r f = j := by rw [← hr]; exact he
            rw [if_pos ⟨⟨l, hl, hp, hr⟩, he'⟩, VReg.put_lane _ _ _ _ _ hl]
            simp [hp, hr, he]
          · have he' : ¬ resolveIn k.pm r f = j := by rw [← hr]; exact he
            simp [he, he']
        · split
          · rw [VReg.put_lane _ _ _ _ _ hl]; simp [hp]
          · simp [hp]
      · split
        · rw [VReg.put_lane _ _ _ _ _ hl]; simp [hr]
        · simp [hr]
    refine ⟨fun l hl => ?_, fun hno => ?_, fun hex => ?_⟩
    · rw [List.foldl_cons, ih1 l hl, lane0 l hl]
      by_cases h1 : p l = true ∧ (k.thread l).region ∈ rs ∧ k.resolve l f = j
      · simp [h1]
      · by_cases h2 : p l = true ∧ (k.thread l).region = r ∧ k.resolve l f = j
        · simp [h2]
        · have : ¬ (p l = true ∧ (k.thread l).region ∈ r :: rs ∧ k.resolve l f = j) := by
            rintro ⟨a, b, c⟩
            rcases List.mem_cons.mp b with b | b
            · exact h2 ⟨a, b, c⟩
            · exact h1 ⟨a, b, c⟩
          rw [if_neg h1, if_neg h2, if_neg this]
    · rw [List.foldl_cons, ih2 fun l hl h => hno l hl ⟨h.1, List.mem_cons_of_mem _ h.2.1, h.2.2⟩, step, if_neg]
      rintro ⟨⟨l, hl, hp, hr⟩, he⟩
      exact hno l hl ⟨hp, hr ▸ List.mem_cons_self, by rw [← he, ← hr]; rfl⟩
    · rw [List.foldl_cons]
      by_cases h1 : ∃ l, l < 32 ∧ p l = true ∧ (k.thread l).region ∈ rs ∧ k.resolve l f = j
      · exact ih3 h1
      · rw [ih2 fun l hl h => h1 ⟨l, hl, h⟩, step]
        obtain ⟨l, hl, hp, hr, he⟩ := hex
        rcases List.mem_cons.mp hr with hr | hr
        · rw [if_pos ⟨⟨l, hl, hp, hr⟩, by rw [← hr]; exact he⟩]; rfl
        · exact absurd ⟨l, hl, hp, hr, he⟩ h1

theorem mem_allRegions (r : Region) : r ∈ allRegions := by
  match r with
  | none => simp [allRegions]
  | some x => revert x; decide

theorem Skein.write_spec (k : Skein) (f : Reg) (p : Nat → Bool) (v : Nat → Lane) (t : Tag) (j : Nat) (hj : j < 64) :
    let K := k.write f p v t
    (∀ l, l < 32 → K.lane j l = if p l = true ∧ k.resolve l f = j then v l else k.lane j l) ∧
    ((∀ l, l < 32 → ¬ (p l = true ∧ k.resolve l f = j)) → K.reg j = k.reg j) ∧
    ((∃ l, l < 32 ∧ p l = true ∧ k.resolve l f = j) → (K.reg j).tag =
      if allLanes.all fun l => p l && k.resolve l f == j then t.norm v else .general) := by
  have := k.writeIn_foldl f p v t j hj allRegions k
  simpa [mem_allRegions, ← Skein.write_eq] using this

theorem Skein.resolve_lt (k : Skein) (l : Nat) (f : Reg) : k.resolve l f < 64 := by
  unfold Skein.resolve resolveIn
  split
  · exact f.isLt
  · split
    · exact f.isLt
    · exact BitVec.isLt _

/-! ### The lane-wise effect -/

/-- The destination's share of a lane-wise effect. -/
def Skein.laneRegs (k : Skein) (e : LaneEff) : Skein :=
  match e.dst with
  | some d => k.write d e.pass e.val e.tag
  | none => k

theorem Skein.laneRegs_rest (k : Skein) (e : LaneEff) : k.laneRegs e = { k with regs := (k.laneRegs e).regs } := by
  unfold Skein.laneRegs; split
  · exact Skein.write_rest ..
  · rfl

/-- A thread's share of a lane-wise effect. -/
def LaneEff.onThread (e : LaneEff) (l : Nat) (t : Thread) : Thread :=
  match e.push l with
  | some b => (t.stick (e.flags l)).push b
  | none => t.stick (e.flags l)

theorem Skein.laneEff_eq (k : Skein) (e : LaneEff) :
    k.laneEff e = { k with regs := (k.laneRegs e).regs, threads := (k.updThreads e.pass e.onThread).threads } := by
  have h := k.laneRegs_rest e
  have ht : (k.laneRegs e).thread = k.thread := by rw [h]; rfl
  have : k.laneEff e = (k.laneRegs e).updThreads e.pass e.onThread := rfl
  rw [this]
  simp only [Skein.updThreads, ht]
  rw [h]

@[simp] theorem Skein.laneEff_uid (k : Skein) (e : LaneEff) : (k.laneEff e).uid = k.uid := by rw [Skein.laneEff_eq]

@[simp] theorem Skein.pass_uid (k : Skein) (i : Issue) (p : Nat → Bool) : (k.pass i p).uid = k.uid := rfl

theorem Skein.laneRegs_none (k : Skein) (e : LaneEff) (h : e.dst = none) : k.laneRegs e = k := by simp [Skein.laneRegs, h]

theorem Skein.laneRegs_some (k : Skein) (e : LaneEff) {d : Reg} (h : e.dst = some d) :
    k.laneRegs e = k.write d e.pass e.val e.tag := by simp [Skein.laneRegs, h]

/-! ### Tags that a guarded write takes (R167) -/

theorem Skein.dull_rest (k : Skein) (e : Nat → Bool) (f : Option Reg) : k.dull e f = { k with regs := (k.dull e f).regs } := by
  unfold Skein.dull; split <;> rfl

@[simp] theorem Skein.dull_uid (k : Skein) (e : Nat → Bool) (f : Option Reg) : (k.dull e f).uid = k.uid := by rw [k.dull_rest]
@[simp] theorem Skein.dull_thread (k : Skein) (e : Nat → Bool) (f : Option Reg) : (k.dull e f).thread = k.thread := by
  rw [k.dull_rest]; rfl
@[simp] theorem Skein.dull_resolve (k : Skein) (e : Nat → Bool) (f : Option Reg) : (k.dull e f).resolve = k.resolve := by
  rw [k.dull_rest]; rfl

/-- A register that an executing lane names loses its tag. -/
theorem Skein.dull_named (k : Skein) (e : Nat → Bool) (d : Reg) (r : Nat) (hr : r < 64)
    (h : ∃ l, l < 32 ∧ e l = true ∧ k.resolve l d = r) : (k.dull e (some d)).reg r = { k.reg r with tag := .general } := by
  have ha : (allLanes.any fun l => e l && k.resolve l d == r) = true := by simpa [allLanes] using h
  have at' : ∀ g : Nat → VReg, ((List.range 64).map g).getD r {} = g r := fun g => by simp [hr]
  exact (at' fun r => if allLanes.any fun l => e l && k.resolve l d == r then { k.reg r with tag := .general } else k.reg r).trans
    (if_pos ha)

/-- Every other register stands. -/
theorem Skein.dull_other (k : Skein) (e : Nat → Bool) (f : Option Reg) (r : Nat) (hr : r < 64)
    (h : ∀ d, f = some d → ∀ l, l < 32 → e l = true → k.resolve l d ≠ r) : (k.dull e f).reg r = k.reg r := by
  cases f with
  | none => rfl
  | some d =>
    have ha : ¬ (allLanes.any fun l => e l && k.resolve l d == r) = true := by simpa [allLanes] using h d rfl
    have at' : ∀ g : Nat → VReg, ((List.range 64).map g).getD r {} = g r := fun g => by simp [hr]
    exact (at' fun r => if allLanes.any fun l => e l && k.resolve l d == r then { k.reg r with tag := .general } else k.reg r).trans
      (if_neg ha)

@[simp] theorem Skein.dull_lane (k : Skein) (e : Nat → Bool) (f : Option Reg) (r l : Nat) (hr : r < 64) :
    (k.dull e f).lane r l = k.lane r l := by
  by_cases h : ∃ d, f = some d ∧ ∃ l, l < 32 ∧ e l = true ∧ k.resolve l d = r
  · obtain ⟨d, rfl, h⟩ := h
    rw [Skein.lane, k.dull_named e d r hr h, Skein.lane]
  · rw [Skein.lane, k.dull_other e f r hr fun d hd l hl he hx => h ⟨d, hd, l, hl, he, hx⟩, Skein.lane]

theorem Skein.laneRegs_kept (k : Skein) (e : LaneEff) (r : Nat) (hr : r < 64)
    (h : ∀ d, e.dst = some d → ∀ l, l < 32 → e.pass l = true → r ≠ k.resolve l d) : (k.laneRegs e).reg r = k.reg r := by
  cases hd : e.dst with
  | none => rw [k.laneRegs_none e hd]
  | some d =>
    rw [k.laneRegs_some e hd]
    exact (k.write_spec d e.pass e.val e.tag r hr).2.1 fun l hl hp => h d hd l hl hp.1 hp.2.symm

theorem State.cur_advance (s : State) (h : s.Issuing) : s.advance.cur = s.cur.pass s.issue s.executing :=
  s.cur_updCur (fun k => k.pass s.issue s.executing) h fun _ => rfl

theorem State.advance_only (s : State) (h : s.Issuing) : s.OnlyCur s.advance :=
  s.updCur_only (fun k => k.pass s.issue s.executing) h fun _ => rfl

theorem State.cur_laneEff (s : State) (e : LaneEff) (h : s.Issuing) :
    (s.laneEff e).cur = ((s.cur.dull s.executing e.dst).laneEff e).pass s.issue s.executing := by
  have hu : ∀ k : Skein, ((k.dull s.executing e.dst).laneEff e).uid = k.uid := by simp
  have h1 := s.updCur_issuing (fun k => (k.dull s.executing e.dst).laneEff e) h hu
  have ha : (s.updCur fun k => (k.dull s.executing e.dst).laneEff e).executing = s.executing := rfl
  rw [State.laneEff, State.cur_advance _ h1, State.cur_updCur _ _ h hu, ha]
  rfl

theorem State.laneEff_only (s : State) (e : LaneEff) (h : s.Issuing) : s.OnlyCur (s.laneEff e) :=
  have hu : ∀ k : Skein, ((k.dull s.executing e.dst).laneEff e).uid = k.uid := by simp
  have h1 := s.updCur_issuing (fun k => (k.dull s.executing e.dst).laneEff e) h hu
  (s.updCur_only (fun k => (k.dull s.executing e.dst).laneEff e) h hu).trans (State.advance_only _ h1)

/-- What the effect of a lane-wise instruction leaves. -/
theorem State.laneEff_wrote (s : State) (e : LaneEff) (h : s.Issuing) : s.Wrote (s.laneEff e) e := by
  have hc := s.cur_laneEff e h
  obtain ⟨K, hK⟩ : ∃ K, K = s.cur.dull s.executing e.dst := ⟨_, rfl⟩
  have hKt : K.thread = s.cur.thread := by rw [hK, Skein.dull_thread]
  have hKr : K.resolve = s.cur.resolve := by rw [hK, Skein.dull_resolve]
  have hKl : ∀ r l, r < 64 → K.lane r l = s.cur.lane r l := fun r l hr => by rw [hK, Skein.dull_lane _ _ _ _ _ hr]
  rw [← hK] at hc
  have hr : (s.laneEff e).cur.regs = (K.laneRegs e).regs := by rw [hc, Skein.laneEff_eq]; rfl
  have hreg : ∀ r, (s.laneEff e).cur.reg r = (K.laneRegs e).reg r := fun r => by simp [Skein.reg, hr]
  have ht : ∀ l, l < 32 → (s.laneEff e).cur.thread l =
      if s.executing l then s.issue.past (if e.pass l then e.onThread l (s.cur.thread l) else s.cur.thread l)
      else if e.pass l then e.onThread l (s.cur.thread l) else s.cur.thread l := by
    intro l hl
    rw [hc, Skein.pass, Skein.thread_updThreads _ _ _ _ hl, Skein.laneEff_eq]
    have : Skein.thread { K with regs := (K.laneRegs e).regs, threads := (K.updThreads e.pass e.onThread).threads } l =
        (K.updThreads e.pass e.onThread).thread l := rfl
    rw [this, Skein.thread_updThreads _ _ _ _ hl, hKt]
  have past_pred : ∀ t : Thread, (s.issue.past t).pred = t.pred := by
    intro t; unfold Issue.past; simp only; repeat' split
    all_goals rfl
  have past_sticky : ∀ t : Thread, (s.issue.past t).sticky = t.sticky := by
    intro t; unfold Issue.past; simp only; repeat' split
    all_goals rfl
  have past_with : ∀ (t : Thread) p q, { s.issue.past { t with pred := p, sticky := q } with pred := t.pred, sticky := t.sticky } =
      s.issue.past t := by
    intro t p q; unfold Issue.past; simp only; repeat' split
    all_goals rfl
  have on_eq : ∀ l (t : Thread), ∃ p q, e.onThread l t = { t with pred := p, sticky := q } := by
    intro l t; unfold LaneEff.onThread; split <;> exact ⟨_, _, rfl⟩
  refine ⟨s.laneEff_only e h, ?_, fun l hl => ?_, fun d hd l hl hp => ?_, fun r l hr hl hno => ?_, fun r hr hno => ?_,
    fun d r l hd hr hl hx he hno => ?_, fun d r hd hr ha => ?_, fun d r l hd hr hl hp he hn => ?_, fun l hl => ?_, fun l hl => ?_⟩
  · rw [hc, Skein.laneEff_eq, hK, Skein.dull_rest]; rfl
  · rw [ht l hl]
    obtain ⟨p, q, ho⟩ := on_eq l (s.cur.thread l)
    by_cases hx : s.executing l = true <;> by_cases hp : e.pass l = true <;> simp only [hx, hp, ho, if_true, if_false, Bool.false_eq_true]
    · exact past_with _ _ _
    · exact past_with _ _ _
  · have := (K.write_spec d e.pass e.val e.tag _ (s.cur.resolve_lt l d)).1 l hl
    rw [Skein.lane, hreg, Skein.laneRegs_some _ _ hd]
    simpa [Skein.lane, hp, hKr] using this
  · cases hd : e.dst with
    | none => rw [Skein.lane, hreg, Skein.laneRegs_none _ _ hd]; exact hKl r l hr
    | some d =>
      have := (K.write_spec d e.pass e.val e.tag r hr).1 l hl
      rw [Skein.lane, hreg, Skein.laneRegs_some _ _ hd]
      rw [hKr, if_neg (fun hh => hno d hd hh.1 hh.2.symm), hKl r l hr] at this
      exact this
  · rw [hreg, K.laneRegs_kept e r hr fun d hd l hl hp => by rw [hKr]; exact hno d hd l hl (.inl hp), hK]
    exact s.cur.dull_other _ _ r hr fun d hd l hl hx he => hno d hd l hl (.inr hx) he.symm
  · rw [hreg, K.laneRegs_kept e r hr fun d' hd' m hm hp => by rw [hKr]; rw [hd] at hd'; cases hd'; exact hno m hm hp, hK, hd]
    exact s.cur.dull_named _ d r hr ⟨l, hl, hx, he⟩
  · rw [hreg, Skein.laneRegs_some _ _ hd, (K.write_spec d e.pass e.val e.tag r hr).2.2 ⟨0, by omega, by rw [hKr]; exact ha 0 (by omega)⟩, if_pos]
    simp only [allLanes, List.all_eq_true, List.mem_range, Bool.and_eq_true, beq_iff_eq, hKr]
    exact ha
  · rw [hreg, Skein.laneRegs_some _ _ hd, (K.write_spec d e.pass e.val e.tag r hr).2.2 ⟨l, hl, hp, by rw [hKr]; exact he⟩, if_neg]
    simpa only [allLanes, List.all_eq_true, List.mem_range, Bool.and_eq_true, beq_iff_eq, hKr] using hn
  · rw [ht l hl]
    have on_sticky : (e.onThread l (s.cur.thread l)).sticky = (s.cur.thread l).sticky ||| e.flags l := by
      unfold LaneEff.onThread; split <;> rfl
    split <;> split <;> simp_all
  · rw [ht l hl]
    have on_pred : (e.onThread l (s.cur.thread l)).pred =
        match e.push l with
        | some b => ((s.cur.thread l).push b).pred
        | none => (s.cur.thread l).pred := by
      unfold LaneEff.onThread; split <;> rfl
    cases hx : s.executing l <;> cases hp : e.pass l <;>
      simp only [if_true, Bool.false_eq_true, if_false, past_pred, on_pred] <;> cases e.push l <;> rfl

/-! ### Checks that pass -/

theorem firstStop_none (l : List (Option Stop)) (h : ∀ x ∈ l, x = none) : firstStop l = none := by
  induction l with
  | nil => rfl
  | cons x xs ih =>
    have hx := h x List.mem_cons_self
    subst hx
    exact ih fun y hy => h y (List.mem_cons_of_mem _ hy)

@[simp] theorem illIf_false (c : Cause) : illIf false c = none := rfl

theorem State.ckRegs_none (s : State) (fs : List Reg) (h : ∀ f ∈ fs, f.toNat < s.cur.regCount) : s.ckRegs fs = none := by
  unfold State.ckRegs
  rw [show (fs.any fun f => decide (s.cur.regCount ≤ f.toNat)) = false by simpa using h]
  rfl

theorem State.ckMarks_none (s : State) (srcs dsts : List Nat) (h : ∀ r ∈ srcs ++ dsts, s.cur.pendingBy r = none)
    (hd : ∀ r ∈ dsts, s.cur.heldBy r = none) : s.ckMarks srcs dsts = none := by
  unfold State.ckMarks
  apply firstStop_none
  intro x hx
  rcases List.mem_append.mp hx with hx | hx
  · obtain ⟨r, hr, rfl⟩ := List.mem_map.mp hx; simp [h r hr]
  · obtain ⟨r, hr, rfl⟩ := List.mem_map.mp hx; simp [hd r hr]

theorem State.ckPoison_none (s : State) (srcs : List SrcReg) (h : ∀ x ∈ srcs, ∀ l, l < 32 → s.executing l = true →
    (s.cur.thread (permSrc x.2 l)).exited = false →
    (s.cur.reg (s.cur.resolve (permSrc x.2 l) x.1)).poison.getLsbD (permSrc x.2 l) = false) : s.ckPoison srcs = none := by
  unfold State.ckPoison
  rw [List.findSome?_eq_none_iff.mpr fun x hx => ?_]
  · rfl
  · unfold State.poisonedSrc
    rw [Option.map_eq_none_iff, List.find?_eq_none]
    intro l hl
    have hl : l < 32 := by simpa [allLanes] using hl
    by_cases he : s.executing l = true
    · cases ht : (s.cur.thread (permSrc x.2 l)).exited
      · simp [h x hx l hl he ht]
      · simp [ht]
    · simp [he]

/-- Operands that are clear pass every check of R164 and R308 about them. -/
theorem State.Clear.ck {s : State} {srcs : List SrcReg} {dsts : List Reg} (h : s.Clear srcs dsts) {extra : Option Stop}
    (he : extra = none) : s.ckOperands srcs dsts extra = none := by
  subst he
  unfold State.ckOperands
  apply firstStop_none
  simp only [List.mem_cons, List.not_mem_nil, or_false]
  rintro x (rfl | rfl | rfl | rfl)
  · exact s.ckRegs_none _ h.range
  · rfl
  · exact s.ckMarks_none _ _ h.landed h.free
  · exact s.ckPoison_none _ h.sound

/-- A lane-wise instruction whose checks pass leaves its effect. -/
theorem State.laneOp_wrote (s : State) (es : Es → Bool) (srcs : List SrcReg) (extra : Option Stop) (e : LaneEff)
    (hi : s.Issuing) (hs : es s.es = true) (he : extra = none) (hc : s.Clear srcs e.dst.toList) :
    ∃ t, s.laneOp es srcs extra e = .next t ∧ s.Wrote t e :=
  ⟨s.laneEff e, by simp [State.laneOp, State.ckEs, hs, hc.ck he, firstStop, State.finish, illIf], s.laneEff_wrote e hi⟩

theorem subs_eq (w : Nat) (v : Lane) : subs w v = (List.range (64 / w)).map (elt w v) := rfl

/-- A lane-wise instruction given sub-element by sub-element, whose checks pass, leaves its effect. -/
theorem State.eltOp_wrote (s : State) (g : Guard) (es : Es → Bool) (srcs : List SrcReg) (d : Reg) (extra : Option Stop) (tag : Tag)
    (res : Nat → List (Nat × Sticky)) (f : Nat → Nat → Nat × Sticky) (hf : ∀ l, res l = (List.range (64 / s.es.w)).map (f l))
    (hi : s.Issuing) (hs : es s.es = true) (he : extra = none) (hc : s.Clear srcs [d]) :
    ∃ t, s.eltOp g es srcs d extra tag res = .next t ∧ s.Wrote t
      { pass := s.passing g, dst := some d, tag := tag
        val := fun l => lanesOf s.es.w fun n => (f l n).1
        flags := fun l => flagsOf s.es.w fun n => (f l n).2 } := by
  obtain ⟨t, h1, h2⟩ := s.laneOp_wrote es srcs extra
    { pass := s.passing g, dst := some d, tag := tag
      val := fun l => packLane s.es.w ((res l).map (·.1)), flags := fun l => orFlags ((res l).map (·.2)) } hi hs he hc
  refine ⟨t, h1, ?_⟩
  convert h2 using 3 with l l <;> simp [lanesOf, flagsOf, hf, Function.comp_def]

end Sys2Proof.Machine
end

