-- ==== Sys2Proof/Tests/Slice0.lean ====
section
/-!
SUPPORT. Tests: ill-formed terms the checks refuse, words of the spec's encoding tables, worked examples of the spec, and for
every statement a state and operands that meet its hypotheses.
-/

open Sys2Proof Sys2Proof.Machine

namespace Sys2Proof.Tests

-- One after another: many proofs that the kernel evaluates, under way at once, would hold too much memory.
set_option Elab.async false

/-! ### Ill-formed terms -/

theorem test_wf_float_control : Instr.wf .e32 (.fadd .always 1 2 (.reg 3 .ident ⟨0, true, false, false, false⟩)) = false := by decide
theorem test_wf_float_immediate : Instr.wf .e16 (.fmul .always 1 2 (.imm 0x10000)) = false := by decide
theorem test_wf_float_rounding : Instr.wf .e32 (.fcmp .always .lt 1 2 3 .ident ⟨1, false, false, false, false⟩) = false := by decide
theorem test_wf_float_flush : Instr.wf .e32 (.frnd .always 1 2 ⟨0, false, true, false, false⟩) = false := by decide
theorem test_wf_float_dot : Instr.wf .e16 (.fdot2 .always 1 2 3 .ident 4 ⟨0, true, false, false, false⟩) = false := by decide
theorem test_wf_float_special : Instr.wf .e32 (.fsin .always 1 2 ⟨2, false, false, false, false⟩) = false := by decide
theorem test_wf_convert_control : Instr.wf .e32 (.cvt .always .f32 .i32 1 2 ⟨0, false, false, false, true⟩) = false := by decide
theorem test_wf_pack_control : Instr.wf .e32 (.pack .always .e4m3 .f32 1 2 3 0 ⟨1, false, false, false, false⟩) = false := by decide
theorem test_wf_unpack_control : Instr.wf .e32 (.unpack .always .f32 .e4m3 1 2 0 ⟨0, false, false, false, true⟩) = false := by decide
theorem test_wf_shfl_amount : Instr.wf .e32 (.shfl .always .at 1 2 3 .full 0 1) = false := by decide
theorem test_wf_shfl_register : Instr.wf .e32 (.shfl .always .fwd 1 2 3 .full 0 1) = false := by decide
theorem test_wf_vote_destination : Instr.wf .e32 (.vote .always .or 1 .full 0) = false := by decide
theorem test_wf_redux_control : Instr.wf .e16 (.redux .always .add 1 2 .full 0 true false false) = false := by decide
theorem test_wf_redux_size : Instr.wf .e32 (.redux .always .fadd 1 2 .full 0 true false false) = false := by decide
theorem test_wf_tbl_wide : Instr.wf .e8 (.tbl .always 1 2 3 true 1 0) = false := by decide
theorem test_wf_asset_immediate : Instr.wf .e32 (.asset .always 0 0 (.imm 4)) = false := by decide
theorem test_wf_asset_register : Instr.wf .e32 (.asset .always 0 6 (.reg 4)) = false := by decide
theorem test_wf_meld_dependence : Instr.wf .e32 (.meld .always false 1 0) = false := by decide
theorem test_wf_load_extension : Instr.wf .e32 (.ldExt .always 1 ⟨0, 0⟩ 2 ⟨false, 0, 0, 0, false⟩) = false := by decide
theorem test_wf_load_scope : Instr.wf .e32 (.ldExt .always 1 ⟨0, 0⟩ 2 ⟨true, 0, 2, 0, false⟩) = false := by decide
theorem test_wf_store_sign : Instr.wf .e32 (.stExt .always 1 ⟨0, 0⟩ 2 ⟨true, 0, 0, 0, true⟩) = false := by decide
theorem test_wf_scratch_hint : Instr.wf .e32 (.ldscExt .always 1 ⟨0, 0⟩ 2 ⟨true, 0, 0, 1, false⟩) = false := by decide
theorem test_wf_atomic_comparand : Instr.wf .e32 (.amo .always .add 1 ⟨0, 0⟩ 2 0 3 0 0) = false := by decide
theorem test_wf_atomic_scope : Instr.wf .e32 (.amo .always .add 1 ⟨0, 0⟩ 2 0 0 2 0) = false := by decide
theorem test_wf_panel_scope : Instr.wf .e32 (.pld .always 1 ⟨0, 0⟩ 0 0 ⟨0, 0, 0, 0, false, false, 2⟩) = false := by decide
theorem test_wf_pump_lanes : Instr.wf .e32 (.pump .always 1 2 3 4 ⟨0, 0, 0, false, 0, 2⟩) = false := by decide
theorem test_wf_unassigned : Instr.wf .e32 (.unassignedOpcode 0x02000000) = false := by decide
theorem test_wf_event : Instr.wf .e32 (.swapIn 0) = false := by decide

/-! ### Words of the spec's encoding tables -/

theorem test_word_movi : decodeWord .e32 (0b0000011#7 ++ 3#6 ++ 0#6 ++ 5#9 ++ 0#4) 0 = .ok (.movi .always 3 5) := by decide
theorem test_word_addsat : decodeWord .e16 (0b0000110#7 ++ 6#6 ++ 4#6 ++ 5#6 ++ 0#4 ++ 0#3) 0 = .ok (.addsatI .always 6 4 5 .ident) := by decide
theorem test_word_mac2 : decodeWord .e32 0x1C404180 0x20000000 = .ok (.mac2 .always 8 2 3 .ident 8) := by decide
theorem test_word_rshr : decodeWord .e32 0x3A610000 0x240000FB = .ok (.rshr .always 12 8 (.imm 15) false true (some 9)) := by decide
theorem test_word_bfx : decodeWord .e32 0x3C18E000 0x0040B004 = .ok (.bfxN .always 3 7 4 11) := by decide
theorem test_word_cmp : decodeWord .e16 0x3E1082E8 0x00200009 = .ok (.cmp (.neg 1) .ltI (some 2) 4 5 .ident false 1) := by decide
theorem test_word_shl : decodeWord .e64 0x34082007 3 = .ok (.shlImm .always 1 1 3) := by decide
theorem test_word_fadd : decodeWord .e32 0x40308280 8 = .ok (.fadd .always 6 4 (.reg 5 .ident ⟨1, false, false, false, false⟩)) := by decide
theorem test_word_fmul : decodeWord .e32 0x4438E007 0x3F000000 = .ok (.fmul .always 7 7 (.imm 0x3F000000)) := by decide
theorem test_word_fcmp : decodeWord .e16 0x50182100 0x00200004 = .ok (.fcmp .always .lt 3 1 2 .ident ⟨0, true, false, false, false⟩) := by decide
theorem test_word_cvt : decodeWord .e32 0x60102000 0x018A0020 = .ok (.cvt .always .e4m3 .f32 2 1 ⟨0, false, false, false, true⟩) := by decide
theorem test_word_pack : decodeWord .e32 0x68502080 0x098A0000 = .ok (.pack .always .e4m3 .f32 10 1 2 1 ⟨0, false, false, false, false⟩) := by decide
theorem test_word_shfl : decodeWord .e32 0x7020C000 0x00280002 = .ok (.shfl .always .fwd 4 6 0 .full 0 2) := by decide
theorem test_word_slide : decodeWord .e16 0x72490380 0x50010001 = .ok (.slide .always false 9 8 (some 7) (.reg 20) 0 1) := by decide
theorem test_word_tbl : decodeWord .e8 0x78504480 0x0001FF00 = .ok (.tbl .always 10 2 9 false 1 0xFF) := by decide
theorem test_word_plog : decodeWord .e8 0x82000000 0x801 = .ok (.plog .always false 8 0 1) := by decide
theorem test_word_lset : decodeWord .e8 0x92000000 0x40007 = .ok (.lset .always 1 (.imm 7)) := by decide
theorem test_word_loop : decodeWord .e8 0x941FFFC0 0 = .ok (.loop 0x1FFFC0) := by decide
theorem test_word_asset : decodeWord .e8 0x96000000 0x35040 = .ok (.asset .always 3 2 (.imm 64)) := by decide
theorem test_word_br : decodeWord .e8 (0x50#7 ++ 0b1001#4 ++ 8#21) 0 = .ok (.br (.pos 1) 8) := by decide
theorem test_word_ld : decodeWord .e8 0xC0208103 0 = .ok (.ld .always 4 ⟨1, 2⟩ 3) := by decide
theorem test_word_ld_keep : decodeWord .e8 0xC0311F86 0x8000 = .ok (.ldExt .always 6 ⟨2, 63⟩ 2 ⟨true, 0, 0, 1, false⟩) := by decide
theorem test_word_st_release : decodeWord .e8 0xC2284186 0x40000 = .ok (.stExt .always 5 ⟨0, 3⟩ 2 ⟨true, 2, 2, 0, false⟩) := by decide
theorem test_word_sld : decodeWord .e8 0xC8528403 0 = .ok (.sld .always 10 ⟨5, 8⟩ 3) := by decide
theorem test_word_amo : decodeWord .e8 0xD0386082 0x240000 = .ok (.amo .always .add 7 ⟨0, 1⟩ 2 3 0 2 0) := by decide
theorem test_word_waitw : decodeWord .e8 0xD41A1F83 0x08048019 = .ok (.waitw .always 3 ⟨4, 63⟩ 3 0 2 2 2 25) := by decide
theorem test_word_resid : decodeWord .e8 0xDA2A8A80 6 = .ok (.residReg .always 5 20 21 6) := by decide
theorem test_word_qpush : decodeWord .e8 0xDC008100 0 = .ok (.qpush .always 4 2) := by decide
theorem test_word_mcfg : decodeWord .e8 0xE0000000 0x12058 = .ok (.mcfg .always 0 .full ⟨1, 1, 0, 0, 1, false, true⟩) := by decide
theorem test_word_msign : decodeWord .e8 0xE2000400 0x40000000 = .ok (.msign 0 0 8 16) := by decide
theorem test_word_pld : decodeWord .e8 0xE8210080 0xFC035280 = .ok (.pld .always 4 ⟨2, 1⟩ 0 0 ⟨63, 3, 20, 5, false, false, 0⟩) := by decide
theorem test_word_qnt : decodeWord .e32 0xEC400000 0x50000400 = .ok (.qnt .always 8 0 ⟨20, 0, false, false⟩ 0 true 0 false false) := by decide
theorem test_word_pump : decodeWord .e8 0xF0089F80 0x28025200 = .ok (.pump .always 1 4 63 10 ⟨2, 5, 0, true, 0, 0⟩) := by decide
theorem test_word_coll : decodeWord .e8 0xF217FF80 0x30011100 = .ok (.coll .always 2 63 63 12 ⟨1, 1, 0, 1⟩) := by decide
theorem test_word_bar : decodeWord .e8 0xF6000000 0x183F = .ok (.bar .always 3 (.imm 63)) := by decide
theorem test_word_sysr : decodeWord .e8 0xFC200000 2 = .ok (.sysr .always 4 2) := by decide
theorem test_word_unused_m : decodeWord .e32 0x26082007 0 = .error .reserved := by decide
theorem test_word_unassigned : decodeWord .e32 0x6E000000 0 = .ok (.unassignedOpcode 0x6E000000) := by decide

/-! ### A small machine -/

/-- A header word: one instruction of class `cls` under `es`. -/
def hdrWord (cls : Cls) (es : Es) : Word := encodeHeader ⟨none, none, 0, cls, es, 1⟩

/-- Thirty-two live threads at 0x104 in a clause of one instruction at 0x100. -/
def threads (w : Word) : List Thread := List.replicate 32 { pc := 0x104, exited := false, clause := some ⟨0x100, w, 0, 1, []⟩ }

/-- A skein of 16 registers, resident in slot 0. -/
def skein (w : Word) : Skein := { uid := 1, team := 2, slot := some 0, threads := threads w }

/-- One grid, team and skein, an instruction at hand under a header word. -/
def boxOf (w : Word) : State :=
  { State.reset with
    grids := [{ uid := 3, count := 1, next := 1, size := 32 }], teams := [{ uid := 2, grid := some 3 }], skeins := [skein w]
    idCtr := 4
    issue := { sk := 1, mask := 0xFFFFFFFF, pc := 0x104, hdr := 0x100, word := w, next := 0x108, follow := 0x108, serial := 1 } }

/-- The same under a vector clause of an element size. -/
def box (es : Es) : State := boxOf (hdrWord .vector es)

theorem boxOf_issuing (w : Word) : (boxOf w).Issuing := ⟨skein w, rfl⟩
theorem box_issuing (es : Es) : (box es).Issuing := boxOf_issuing _

/-- No register of a skein just placed is poisoned. -/
theorem sound_reg (r : Nat) : ((List.replicate 64 ({} : VReg)).getD r {}).poison = 0 := by
  rw [List.getD_eq_getElem?_getD, List.getElem?_replicate]
  split <;> rfl

theorem sound_regs (r l : Nat) : ((List.replicate 64 ({} : VReg)).getD r {}).poison.getLsbD l = false := by
  rw [sound_reg]
  exact BitVec.getLsbD_zero

/-- Every field below 16 is clear. -/
theorem boxOf_clear (w : Word) (srcs : List SrcReg) (dsts : List Reg) (h : ∀ f ∈ srcs.map (·.1) ++ dsts, f.toNat < 16) :
    (boxOf w).Clear srcs dsts where
  range := h
  landed _ _ := rfl
  free _ _ := rfl
  sound x _ l _ _ _ := sound_regs _ (permSrc x.2 l)

theorem box_clear (es : Es) (srcs : List SrcReg) (dsts : List Reg) (h : ∀ f ∈ srcs.map (·.1) ++ dsts, f.toNat < 16) :
    (box es).Clear srcs dsts := boxOf_clear _ srcs dsts h

/-! ### Worked examples of the spec -/

/-- Lane 0 of some registers of the small machine given values. -/
def load0 (s : State) (l : List (Nat × Lane)) : State :=
  s.updCur fun k => { k with regs := l.foldl (fun rs x => bankUpd 64 {} rs x.1 fun r => r.put (· == 0) (fun _ => x.2) .general) k.regs }

/-- One register of one lane, and that lane's sticky flags, after an instruction. -/
def after (o : Host.Outcome State Fault Refusal) (r l : Nat) : Option (Lane × BitVec 6) :=
  match o with
  | .next t => some (t.cur.lane r l, (t.cur.thread l).sticky)
  | _ => none

/-- The accumulate and round example of the integer chapter. -/
def mac : State := load0 (box .e32) [(2, 0x0003FFF980008000), (3, 0x0005006480008000), (8, 0xFFFFFF38000003E8)]

/-- R175, the example: lane 0 of v8 is 0xFFFF_FC8B_7FFF_FFFF and SAT is set. -/
theorem test_mac2_example : after (exec (.mac2 .always 8 2 3 .ident 8) mac) 8 0 = some (0xFFFFFC8B7FFFFFFF, 32) := by decide

/-- R177, the example: lane 0 of v12 is 0xFFFE_0000_0002_7FFF. -/
theorem test_rshr_example :
    after (exec (.rshr .always 12 8 (.imm 15) false true (some 9)) (load0 (box .e32) [(8, 0xFFFFFC8B7FFFFFFF), (9, 0xFFFF40000000C000)]))
      12 0 = some (0xFFFE000000027FFF, 32) := by decide

/-- R197, the example: slots 0 to 3 of v10 are 0x7F7F_AA38, with NV, OF and NX. -/
theorem test_pack_example :
    after (exec (.pack .always .e4m3 .f32 10 1 2 0 ⟨0, false, false, false, false⟩)
      (load0 (box .e32) [(1, 0xBE99999A3F800000), (2, 0x7FC0000043FA0000)])) 10 0 = some (0x7F7FAA38, 21) := by decide

/-- R198, the example: unpack of the first two slots. -/
theorem test_unpack_example :
    after (exec (.unpack .always .f32 .e4m3 11 10 0 ⟨0, false, false, false, false⟩) (load0 (box .e32) [(10, 0x7F7FAA38)])) 11 0 =
      some (0xBEA000003F800000, 0) := by decide

/-- R172: a signed saturating sum clamps at the top of each 16-bit element, and SAT is set. -/
theorem test_addsat_clamps :
    after (exec (.addsatI .always 6 4 5 .ident) (load0 (box .e16) [(4, 0x7FFF000100027FFF), (5, 0x0001000100020001)])) 6 0 =
      some (0x7FFF000200047FFF, 32) := by decide

/-- R172: `add` wraps, and a source may be the destination. -/
theorem test_add_wraps :
    after (exec (.add .always 1 1 1 .ident) (load0 (box .e8) [(1, 0x80FF017F)])) 1 0 = some (0x00FE02FE, 0) := by decide

/-- R172: a shift by the width gives 0, and `shr.i` the sign. -/
theorem test_shr_wide :
    after (exec (.shrIImm .always 1 2 32) (load0 (box .e32) [(2, 0x8000000000000007)])) 1 0 = some (0xFFFFFFFF00000000, 0) := by decide

/-- R178: `bfx.n` of 12 bits at 4. -/
theorem test_bfx_n : after (exec (.bfxN .always 3 7 4 11) (load0 (box .e32) [(7, 0xFFFF1234)])) 3 0 = some (0x123, 0) := by decide

/-- R178: a field past the element raises cause 0x0A. -/
theorem test_bfx_past :
    (match exec (.bfxN .always 3 7 24 11) (box .e32) with | .next t => t.cur.flt.extractLsb' 8 8 | _ => 0) = 0x0A := by decide

/-- R184: 1.5 + 2.25 = 3.75 in f32; the other element adds infinities of unlike signs. -/
theorem test_fadd :
    after (exec (.fadd .always 3 1 (.reg 2 .ident ⟨0, false, false, false, false⟩))
      (load0 (box .e32) [(1, 0x7F8000003FC00000), (2, 0xFF80000040100000)])) 3 0 = some (0x7FC0000040700000, 16) := by decide

/-- R184: one rounding of 3 × (1/3 rounded) − 1 in f32 gives 2^−25, where a rounded product would give 0. -/
theorem test_ffma_once :
    after (exec (.ffma .always 4 1 2 .ident 3 ⟨0, false, false, false, false⟩)
      (load0 (box .e32) [(1, 0x40400000), (2, 0x3EAAAAAB), (3, 0xBF800000)])) 4 0 = some (0x33000000, 0) := by decide

/-- R190: a NaN is not less; NV is set. -/
theorem test_fcmp_nan :
    after (exec (.fcmp .always .lt 3 1 2 .ident ⟨0, false, false, false, false⟩) (load0 (box .e32) [(1, 0x7FC00000), (2, 0xBF80000040000000)]))
      3 0 = some (0, 16) := by decide

/-! ### Hypotheses met: integer and float -/

theorem wit_IntegerPairResults : intPair (.add .always 1 2 3 .ident) ≠ none ∧ intPair (.shlImm .always 15 2 31) ≠ none ∧
    (box .e32).Issuing ∧ (box .e32).Clear (plain 2 :: (SrcB.reg 3 .ident).regs) [1] ∧ (box .e64).Clear (plain 2 :: (SrcB.imm 31).regs) [15] :=
  ⟨by simp [intPair], by simp [intPair], box_issuing _, box_clear _ _ _ (by decide), box_clear _ _ _ (by decide)⟩

theorem wit_MovesAndNop : (box .e64).Issuing ∧ (box .e64).Clear [(3, .bc0)] [15] ∧ (box .e64).Clear [] [15] :=
  ⟨box_issuing _, box_clear _ _ _ (by decide), box_clear _ _ _ (by decide)⟩

theorem wit_IntegerUnaryResults : intOne (.abs .always 1 2) ≠ none ∧ (box .e8).Issuing ∧ (box .e8).Clear [plain 2] [1] :=
  ⟨by simp [intOne], box_issuing _, box_clear _ _ _ (by decide)⟩

/-- A field that ends at the last bit of the element, one that ends a bit past it. -/
theorem wit_BitFieldResults : (box .e32).Issuing ∧ ((20 : BitVec 6).toNat + ((11 : BitVec 6).toNat + 1) ≤ (box .e32).es.w) ∧
    (box .e32).Clear [plain 2, plain 4] [1] ∧ (box .e32).es.w < (21 : BitVec 6).toNat + ((11 : BitVec 6).toNat + 1) :=
  ⟨box_issuing _, by decide, box_clear _ _ _ (by decide), by decide⟩

theorem wit_MultiplyAccumulateResults : (box .e16).Issuing ∧ (box .e16).es ≠ .e8 ∧
    (box .e16).Clear [plain 2, (3, .mir), plain 4] [1] ∧ (box .e8).es = .e8 :=
  ⟨box_issuing _, by decide, box_clear _ _ _ (by decide), by decide⟩

/-- Amounts at both sides of the element's width. -/
theorem wit_RoundingShiftResults : (box .e16).Issuing ∧ (∀ m, ShiftSrc.imm 15 = .imm m → m.toNat < (box .e16).es.w) ∧
    (box .e16).es ≠ .e8 ∧ (box .e16).Clear [plain 2, plain 4] [1] ∧ (box .e16).es.w ≤ (16 : BitVec 6).toNat ∧ (box .e8).es = .e8 :=
  ⟨box_issuing _, by rintro m ⟨⟩; decide, by decide, box_clear _ _ _ (by decide), by decide, by decide⟩

/-- The last sub-element, the one past it, and a compare with no effect asked for. -/
theorem wit_IntegerCompareResults : (box .e16).Issuing ∧ (3 : BitVec 3).toNat < 64 / (box .e16).es.w ∧
    (box .e16).Clear [plain 2, (3, .ident)] (some (1 : Reg)).toList ∧ 64 / (box .e16).es.w ≤ (4 : BitVec 3).toNat :=
  ⟨box_issuing _, by decide, box_clear _ _ _ (by decide), by decide⟩

/-- One skein with a long operation, or a poisoned register. -/
def marked (pend held : List Nat) (poison : Mask) : State :=
  (box .e32).updCur fun k =>
    { k with ops := [{ id := 1, pend := pend, held := held }], regs := bankUpd 64 {} k.regs 2 fun r => { r with poison := poison } }

/-- A register at the count; a pending source; a held destination; a source whose last lane is poisoned. -/
theorem wit_OperandTraps : (box .e32).cur.regCount ≤ (16 : Reg).toNat ∧ (15 : Reg).toNat < (box .e32).cur.regCount ∧
    (marked [2] [] 0).Issuing ∧ (∀ r o, (marked [2] [] 0).cur.pendingBy r = some o → o.fail = none) ∧
    (∃ r ∈ (marked [2] [] 0).namedSrcs [plain 2, (3, .ident)], (marked [2] [] 0).cur.pendingBy r ≠ none) ∧
    (∀ r o, (marked [] [1] 0).cur.heldBy r = some o → o.matrix = false) ∧
    (∃ r ∈ (marked [] [1] 0).namedDsts [1], (marked [] [1] 0).cur.heldBy r ≠ none) ∧
    (marked [] [] 0x80000000).executing 31 = true ∧ ((marked [] [] 0x80000000).cur.thread 31).exited = false ∧
    ((marked [] [] 0x80000000).cur.reg ((marked [] [] 0x80000000).cur.resolve 31 2)).poison.getLsbD 31 = true := by
  refine ⟨by decide, by decide, ⟨_, rfl⟩, ?_, ⟨2, by decide, by decide⟩, ?_, ⟨1, by decide, by decide⟩, by decide, by decide, by decide⟩
  · intro r o h; rw [List.mem_singleton.mp (List.mem_of_find?_eq_some h)]
  · intro r o h; rw [List.mem_singleton.mp (List.mem_of_find?_eq_some h)]

theorem wit_FloatPairResults : floatPair (.fadd .always 1 2 (.imm 0)) ≠ none ∧
    floatPair (.fscale .always 1 2 3 .ident ⟨0, false, false, false, false⟩) ≠ none ∧ (box .e32).Issuing ∧ (box .e32).es ≠ .e8 ∧
    (box .e32).Clear (plain 2 :: fsrcRegs (.imm 0)) [1] ∧ (box .e8).es = .e8 ∧ (box .e8).Issuing :=
  ⟨by simp [floatPair], by simp [floatPair], box_issuing _, by decide, box_clear _ _ _ (by decide), by decide, box_issuing _⟩

theorem wit_FloatUnaryResults : floatOne (.fneg .always 1 2) ≠ none ∧ (box .e64).Issuing ∧ (box .e64).es ≠ .e8 ∧
    (box .e64).Clear [plain 2] [1] ∧ (box .e8).es = .e8 :=
  ⟨by simp [floatOne], box_issuing _, by decide, box_clear _ _ _ (by decide), by decide⟩

theorem wit_FusedResults : (box .e32).Issuing ∧ (box .e32).es ≠ .e8 ∧ (box .e32).es = .e32 ∧
    (box .e32).Clear [plain 2, (3, .ident), plain 4] [1] ∧ (box .e16).es = .e16 :=
  ⟨box_issuing _, by decide, by decide, box_clear _ _ _ (by decide), by decide⟩

theorem wit_FloatCompareResults : (box .e16).Issuing ∧ (box .e16).es ≠ .e8 ∧ (box .e16).Clear [plain 2, (3, .ident)] [1] :=
  ⟨box_issuing _, by decide, box_clear _ _ _ (by decide)⟩

/-- A subnormal of f16. -/
theorem wit_RoundingKeepsFormatValues : (1 : Nat) < 2 ^ f16.w ∧ ∃ n m e, decodeF f16 1 = .fin n m e := ⟨by decide, _, _, _, rfl⟩

theorem wit_FloatSpecialCases : (FVal.nan false).isSig = false := rfl

/-- A lane takes it; none does (guarded off by a predicate that is false); a size it does not allow. -/
theorem wit_SpecialFunctionsBegin : specialFn (.frcp .always 1 2 ⟨0, false, false, false, false⟩) ≠ none ∧ (box .e32).Issuing ∧
    (box .e32).es = .e32 ∧ (box .e32).Clear [plain 2] [1] ∧ (box .e32).passing .always 31 = true ∧ (box .e32).Room true true ∧
    (∀ l, l < 32 → (box .e32).passing (.pos 0) l = false) ∧ (box .e32).Room false false ∧ (box .e8).es = .e8 :=
  ⟨by simp [specialFn], box_issuing _, by decide, box_clear _ _ _ (by decide), by decide, by intro f h; revert h; revert f; decide,
    by decide, by intro f h; revert h; revert f; decide, by decide⟩

/-- A zero, an infinity of each sign, a negative value, a NaN. -/
theorem wit_SpecialFunctionCases : (∃ n e, decodeF f16 0 = .fin n 0 e) ∧ decodeF f16 0x7C00 = .inf false ∧ decodeF f16 0xFC00 = .inf true ∧
    (∃ m e, decodeF f16 0xBC00 = .fin true m e ∧ m ≠ 0) ∧ ∃ sig, decodeF f16 0x7C01 = .nan sig :=
  ⟨⟨_, _, rfl⟩, rfl, rfl, ⟨_, _, rfl, by decide⟩, _, rfl⟩

/-- A legal pair under its size and under another; an illegal pair. -/
theorem wit_ConvertResults : (box .e32).Issuing ∧ cvtSpec .e4m3 .f32 ≠ none ∧ (box .e32).es.w = max Ty.e4m3.cvtW Ty.f32.cvtW ∧
    (box .e32).Clear [plain 1] [2] ∧ cvtSpec .e4m3 .e5m2 = none ∧ (box .e16).es.w ≠ max Ty.e4m3.cvtW Ty.f32.cvtW :=
  ⟨box_issuing _, by decide, by decide, box_clear _ _ _ (by decide), by decide, by decide⟩

/-- Values inside, below and above the range of i8. -/
theorem wit_ConvertToInteger : (roundInt 0 false 127 0).1 = 127 ∧ (roundInt 0 true 129 0).1 = -129 ∧ (roundInt 0 false 128 0).1 = 128 := by decide

/-- The last part and the one past it; another size; illegal pairs. -/
theorem wit_PackResults : (box .e32).Issuing ∧ packSpec .e4m3 .f32 ≠ none ∧ (box .e32).es.w = Ty.f32.cvtW ∧
    (1 : BitVec 6).toNat < (box .e32).es.w / (2 * tySlotW .e4m3) ∧ (box .e32).es.w / (2 * tySlotW .e4m3) ≤ (2 : BitVec 6).toNat ∧
    unpackSpec .f32 .e4m3 ≠ none ∧ (3 : BitVec 6).toNat < (box .e32).es.w / tySlotW .e4m3 ∧
    (box .e32).es.w / tySlotW .e4m3 ≤ (4 : BitVec 6).toNat ∧ (box .e32).Clear [plain 1, plain 2] [3] ∧
    packSpec .f32 .e4m3 = none ∧ unpackSpec .e4m3 .f32 = none ∧ (box .e16).es.w ≠ Ty.f32.cvtW :=
  ⟨box_issuing _, by decide, by decide, by decide, by decide, by decide, by decide, by decide, box_clear _ _ _ (by decide), by decide,
    by decide, by decide⟩

/-! ### Hypotheses met: cross-lane, predicate and tag -/

theorem box_fresh (es : Es) : (box es).Fresh where
  waits := by intro w h; cases h
  threads := by cases es <;> intro l h <;> interval_cases l <;> intro n hn <;> cases hn

theorem box_allIn (es : Es) : (box es).AllIn .full where
  live := by cases es <;> decide
  same := by cases es <;> decide
  all := by cases es <;> decide
  alone := by intro w h; cases h

/-- The last amount and the one past it. -/
theorem wit_MoveAcrossLanes : moveRow (box .e32) (.shfl .always .rot 1 2 0 .full 0 63) ≠ none ∧
    moveRow (box .e32) (.slide .always true 1 2 (some 3) .full 0 63) ≠ none ∧ (box .e32).Issuing ∧ (box .e32).Fresh ∧
    (63 : BitVec 8).toNat < 32 * (64 / (box .e32).es.w) ∧ 32 * (64 / (box .e32).es.w) ≤ (64 : BitVec 8).toNat ∧ (box .e32).AllIn .full ∧
    (box .e32).Clear (maskRegs .full ++ [plain 2, plain 3]) [1] :=
  ⟨by simp [moveRow], by simp [moveRow], box_issuing _, box_fresh _, by decide, by decide, box_allIn _, box_clear _ _ _ (by decide)⟩

theorem wit_VoteResults : (box .e8).Issuing ∧ (box .e8).Fresh ∧ (box .e8).AllIn .full ∧
    (box .e8).Clear (maskRegs .full) (if VoteOp.bits.writes then [3] else []) :=
  ⟨box_issuing _, box_fresh _, box_allIn _, box_clear _ _ _ (by decide)⟩

/-- The last segment code, the one past it, and a float form under ES = 8. -/
theorem wit_ReductionResults : (box .e32).Issuing ∧ (box .e32).Fresh ∧ (ReduxOp.fadd.isFloat = true → (box .e32).es ≠ .e8) ∧
    (4 : BitVec 3).toNat ≤ 4 ∧ 4 < (5 : BitVec 3).toNat ∧ (box .e32).AllIn .full ∧ (box .e32).Clear (maskRegs .full ++ [plain 2]) [1] ∧
    (box .e8).es = .e8 :=
  ⟨box_issuing _, box_fresh _, by decide, by decide, by decide, box_allIn _, box_clear _ _ _ (by decide), by decide⟩

/-- The group of lanes 0 to 15; v5 holds all ones in every lane but the last of them. -/
def half (m : Lane) : State :=
  { (box .e32).updCur fun k => { k with regs := bankUpd 64 {} k.regs 5 fun r => r.put (fun _ => true) (fun _ => m) .uniform } with
    issue := { (box .e32).issue with mask := 0xFFFF } }

/-- A member that has not come; a mask that leaves an executing lane out. -/
theorem wit_SyncWaits : syncParts (.vote .always .or 0 (.reg 5) 0) = some (.reg 5, []) ∧ (half 0xFFFFFFFF).Issuing ∧
    (∀ l, l < 32 → (half 0xFFFFFFFF).executing l = true →
      (half 0xFFFFFFFF).maskAt (.reg 5) l = (half 0xFFFFFFFF).groupMask (.reg 5) ∧ ((half 0xFFFFFFFF).groupMask (.reg 5)).getLsbD l = true) ∧
    (∃ l, l < 32 ∧ ((half 0xFFFFFFFF).groupMask (.reg 5)).getLsbD l = true ∧ (half 0xFFFFFFFF).executing l = false ∧
      ((half 0xFFFFFFFF).cur.thread l).exited = false) ∧
    ∃ l, l < 32 ∧ (half 0x7FFF).executing l = true ∧ ((half 0x7FFF).groupMask (.reg 5)).getLsbD l = false :=
  ⟨rfl, ⟨_, rfl⟩, by decide, ⟨31, by decide⟩, ⟨15, by decide⟩⟩

/-- A table that ends at v63 and one that runs past it; another size. -/
theorem wit_TableLookup : (box .e8).Issuing ∧ (box .e8).es = .e8 ∧ (8 : Reg).toNat + ((7 : BitVec 3).toNat + 1) ≤ 64 ∧
    (box .e8).Clear (((List.range 8).map fun r => (8 : Reg) + BitVec.ofNat 6 r).map plain ++ [plain 2]) [1] ∧
    64 < (57 : Reg).toNat + ((7 : BitVec 3).toNat + 1) ∧ (box .e16).es ≠ .e8 :=
  ⟨box_issuing _, by decide, by decide, box_clear _ _ _ (by decide), by decide, by decide⟩

/-- The last selector and the one past it. -/
theorem wit_IdentifiersAndSelect : (box .e16).Issuing ∧ (8 : BitVec 4).toNat < 9 ∧ 9 ≤ (9 : BitVec 4).toNat ∧ (box .e16).Clear [] [1] ∧
    (box .e16).Clear [plain 2, (3, .rdn1), plain 4] [1] :=
  ⟨box_issuing _, by decide, by decide, box_clear _ _ _ (by decide), box_clear _ _ _ (by decide)⟩

/-- Counts and sub-elements at both ends of their ranges. -/
theorem wit_PredicateResults : (box .e32).Issuing ∧ (1 : BitVec 6).toNat < 64 / (box .e32).es.w ∧ 64 / (box .e32).es.w ≤ (2 : BitVec 6).toNat ∧
    1 ≤ (8 : BitVec 6).toNat ∧ (8 : BitVec 6).toNat ≤ 8 ∧ 8 < (9 : BitVec 6).toNat ∧ (box .e32).Clear [plain 4] [] ∧ (box .e32).Clear [] [4] :=
  ⟨box_issuing _, by decide, by decide, by decide, by decide, by decide, box_clear _ _ _ (by decide), box_clear _ _ _ (by decide)⟩

theorem wit_TagIotaSticky : (box .e64).Issuing ∧ (box .e64).Clear [plain 2] [1] ∧ (box .e64).Clear [] [1] ∧ (box .e64).tagOf 2 = .uniform :=
  ⟨box_issuing _, box_clear _ _ _ (by decide), box_clear _ _ _ (by decide), by decide⟩

/-! ### Hypotheses met: loops, streams, control -/

/-- The small machine in a control clause, its skein and issue changed. -/
def ctl (f : Skein → Skein) (g : Issue → Issue := id) : State :=
  let s := boxOf (hdrWord .control .e32)
  { s.updCur f with issue := g s.issue }

theorem ctl_issuing (f : Skein → Skein) (g : Issue → Issue) (hf : (f (boxOf (hdrWord .control .e32)).cur).uid = 1)
    (hg : (g (boxOf (hdrWord .control .e32)).issue).sk = 1) : (ctl f g).Issuing := by
  refine ⟨f (boxOf (hdrWord .control .e32)).cur, ?_⟩
  have h1 : (ctl f g).issue.sk = 1 := hg
  have h2 : (ctl f g).skeins = [f (boxOf (hdrWord .control .e32)).cur] := by
    show [if _ then _ else _] = _
    rw [if_pos (by rw [hf]; rfl)]
  rw [State.sk?, h1, h2]
  simp [hf]

/-- Level 2 active, at its last trip and before it. -/
def looping (c b : BitVec 32) : State := ctl fun k => { k with levels := [{}, {}, ⟨c, b, true⟩, {}] }

theorem wit_LoopUnit : (looping 0 2).Issuing ∧ (∃ l, l < 32 ∧ (looping 0 2).passing .always l = true) ∧ (looping 0 2).inRegion = false ∧
    ((looping 0 2).cur.level 2).active = true ∧ (∀ j, j < 4 → 2 < j → ((looping 0 2).cur.level j).active = false) ∧
    ((looping 0 2).cur.level 2).counter + 1 < ((looping 0 2).cur.level 2).bound ∧
    canonical ((looping 0 2).issue.hdr + 4 * (0x1FFFC0 : BitVec 21).signExtend 64) = true ∧
    ¬ ((looping 1 2).cur.level 2).counter + 1 < ((looping 1 2).cur.level 2).bound ∧
    (∀ i, i < 4 → ((box .e32).cur.level i).active = false) ∧ (box .e32).inRegion = false ∧ (box .e32).Clear [plain 2] [] ∧
    (box .e32).passing .always 0 = true ∧ (¬ ∃ l, l < 32 ∧ (box .e32).passing (.pos 3) l = true) :=
  ⟨ctl_issuing _ _ rfl rfl, ⟨0, by decide⟩, by decide, by decide, by decide, by decide, by decide, by decide, by decide, by decide,
    box_clear _ _ _ (by decide), by decide, by decide⟩

/-- A `loop` at the top of the canonical range. -/
theorem wit_LoopUnit_far : canonical ((0x00FFFFFFFFFFFFFC : Lane) + 4 * (1 : BitVec 21).signExtend 64) = false := by decide

/-- The largest tag and the one past it. -/
theorem wit_StreamFields : (box .e32).Issuing ∧ ((6 : BitVec 3) = 6 → (2 : BitVec 12).toNat ≤ 2) ∧ 2 < (3 : BitVec 12).toNat ∧
    (∃ l, l < 32 ∧ (box .e32).passing .always l = true) ∧ (box .e32).Clear [plain 2] [] ∧ (box .e32).passing .always 0 = true ∧
    (∀ l, l < 32 → (box .e32).passing (.pos 0) l = false) ∧ (box .e32).Clear [] [1] ∧ (5 : BitVec 3) ≠ 7 :=
  ⟨box_issuing _, by decide, by decide, ⟨0, by decide⟩, box_clear _ _ _ (by decide), by decide, by decide, box_clear _ _ _ (by decide), by decide⟩

/-- A clause of `rep` and `nop`; its skein suspended at the `rep` or not. -/
def repeating (susp : Bool) (last : Bool) : State :=
  ctl (fun k => { k with susp := susp, threads := k.threads.map fun t => { t with repMark := susp } })
    fun i => { i with body := [0x90080000, 0x02000000], last := last }

theorem wit_RepeatBegins : (repeating false false).Issuing ∧
    (repeating false false).ckRep 2 0 (wordsAt (repeating false false).issue.body
      (bodyIdx (repeating false false).issue.hdr (repeating false false).issue.next)) = none ∧
    (repeating false false).cur.susp = false ∧ (repeating true false).cur.susp = true ∧
    (∀ l, l < 32 → ((repeating true false).cur.thread l).repMark = true) ∧ (repeating false true).issue.last = true :=
  ⟨ctl_issuing _ _ rfl rfl, by decide, by decide, by decide, by decide, by decide⟩

/-- A jump register holding an address in every lane. -/
def jumping (v : Lane) (last : Bool) : State :=
  ctl (fun k => { k with regs := bankUpd 64 {} k.regs 2 fun r => r.put (fun _ => true) (fun _ => v) .uniform }) fun i => { i with last := last }

theorem wit_Transfers : (transferRow (jumping 0x200 true) (.jmp .always 2)).isSome ∧ (transferRow (jumping 0x200 true) (.call .always 4)).isSome ∧
    (jumping 0x200 true).Issuing ∧ (jumping 0x200 false).issue.last = false ∧ (jumping 0x200 true).inRegion = false ∧
    (∀ l, l < 32 → ((jumping 0x200 true).cur.read 2 l).toNat % 4 = 0 ∧ canonical ((jumping 0x200 true).cur.read 2 l) = true) ∧
    ((jumping 0x202 true).cur.read 2 0).toNat % 4 ≠ 0 ∧ canonical ((jumping 0x0100000000000000 true).cur.read 2 0) = false ∧
    ((jumping 0x0100000000000000 true).cur.read 2 0).toNat % 4 = 0 :=
  ⟨by decide, by decide, ctl_issuing _ _ rfl rfl, by decide, by decide, by decide, by decide, by decide, by decide⟩

/-- All threads on path 3 of a melded region. -/
def melded : State := ctl fun k => { k with regCount := 64, threads := k.threads.map fun t => { t with region := some 3 } }

theorem wit_Transfers_region : (ctl id).issue.last = true ∧ melded.inRegion = true := by decide

/-- A handle of timeline 5: completed, pending, failed; empty; of timeline 3. -/
def handled (h : Lane) : State := ctl fun k => { k with hd := [h] }

theorem wit_FencedJump : (handled 0x0500000000000001).Issuing ∧ (handled 0x0500000000000001).issue.last = true ∧
    (handled 0x0500000000000001).inRegion = false ∧ (handled 0x0500000000000001).passing .always 0 = true ∧
    ((handled 0x0500000000000001).cur.hd.getD 0 0).toNat / 2 ^ 48 % 256 = 0 ∧
    ((handled 0x0500000000000001).cur.hd.getD 0 0).toNat / 2 ^ 56 % 8 = 5 ∧ ¬ 2 ^ 63 ≤ ((handled 0x0500000000000001).cur.hd.getD 0 0).toNat ∧
    2 ^ 63 ≤ ((handled 0x8500000000000001).cur.hd.getD 0 0).toNat ∧ ((handled 0x0502000000000001).cur.hd.getD 0 0).toNat / 2 ^ 48 % 256 = 2 ∧
    ((handled 0x00FF000000000000).cur.hd.getD 0 0).toNat / 2 ^ 48 % 256 = 0xFF ∧
    ((handled 0x0300000000000001).cur.hd.getD 0 0).toNat / 2 ^ 56 % 8 ≠ 5 :=
  ⟨ctl_issuing _ _ rfl rfl, by decide, by decide, by decide, by decide, by decide, by decide, by decide, by decide, by decide, by decide⟩

theorem wit_ExitRetires : (ctl id).Issuing ∧ (ctl id id).issue.last = true ∧ (ctl id).inRegion = false ∧ (ctl id).cur.unacked = 0 ∧
    (ctl id).cur.faultQ = [] ∧ (ctl id).cur.handler = none ∧ (∀ w ∈ (ctl id).cur.waits, w.kind ≠ .shrink) ∧
    (ctl id fun i => { i with last := false }).issue.last = false ∧ melded.inRegion = true :=
  ⟨ctl_issuing _ _ rfl rfl, by decide, by decide, by decide, by decide, by decide, by decide, by decide, by decide⟩

theorem wit_YieldMarks : (ctl id).Issuing := ctl_issuing _ _ rfl rfl

/-- 64 registers and too few; a path map with a bit too many. -/
theorem wit_MeldedRegions : (ctl fun k => { k with regCount := 64 }).Issuing ∧ (ctl fun k => { k with regCount := 64 }).inRegion = false ∧
    (ctl fun k => { k with regCount := 64 }).cur.regCount = 64 ∧ (ctl id).cur.regCount < 64 ∧ melded.Issuing ∧
    (∀ l, l < 32 → melded.executing l = true → (melded.cur.thread l).region ≠ none) ∧ Guard.pos 0 ≠ .always ∧
    ((ctl id).cur.thread 0).region = none ∧ ((jumping 0xFFFFFFFFFFFF true).cur.read 2 0).toNat < 2 ^ 48 ∧
    2 ^ 48 ≤ ((jumping 0x1000000000000 true).cur.read 2 0).toNat ∧ (jumping 0x1000000000000 true).inRegion = false :=
  ⟨ctl_issuing _ _ rfl rfl, by decide, by decide, by decide, ctl_issuing _ _ rfl rfl, by decide, by decide, by decide, by decide, by decide,
    by decide⟩

/-- Fifteen regions, sixteen, one, none; an identifier a stop is armed for. -/
def profiling (n : Nat) : State := ctl fun k => { k with regions := List.replicate n ⟨7, false⟩ }

theorem wit_ProfilingRegions : (profiling 15).Issuing ∧ (profiling 15).cur.regions.length < 16 ∧ 16 ≤ (profiling 16).cur.regions.length ∧
    ((profiling 15).ctx 0).dbg.tren.getLsbD 0 = false ∧ (∀ i, i < 4 → ((profiling 1).ctx 0).dbg.stopEn.getLsbD i = false) ∧
    (profiling 1).cur.regions = [] ++ [⟨7, false⟩] ∧ (profiling 0).cur.regions = [] ∧
    ∃ i, i < 4 ∧ (((profiling 1).updDebug 0 fun d => { d with stopEn := 1, stopId := 9 }).ctx 0).dbg.stopEn.getLsbD i = true ∧
      (((profiling 1).updDebug 0 fun d => { d with stopEn := 1, stopId := 9 }).ctx 0).dbg.stopId.toNat / 2 ^ (16 * i) % 2 ^ 16 = 9 :=
  ⟨ctl_issuing _ _ rfl rfl, by decide, by decide, by decide, by decide, by decide, by decide, 0, by decide⟩

theorem wit_DeliberateTraps : (ctl id).Issuing ∧ (ctl id).issue.last = true ∧ (∃ l, l < 32 ∧ (ctl id).passing .always l = true) ∧
    (¬ ∃ l, l < 32 ∧ (ctl id).passing (.pos 0) l = true) ∧ (ctl id fun i => { i with last := false }).issue.last = false :=
  ⟨ctl_issuing _ _ rfl rfl, by decide, ⟨0, by decide⟩, by decide, by decide⟩

/-- One group asleep until a tick; time at it and before it. -/
def asleep (wake now : Nat) : State :=
  { ctl (fun k => { k with waits := [{ id := 7, kind := .sleep wake, lanes := 0xFFFFFFFF, instr := .sleep (.imm 4), issue := (ctl id).issue, es := .e32, since := 7 }] }) with now := now }

theorem wit_SleepAndWake : (ctl id).Issuing ∧ (ctl id).executing 0 = true ∧ ((ctl id).cur.read 2 0).toNat % 2 ^ 32 = 0 ∧
    ((asleep 5 9).sk? 1).isSome ∧ ((asleep 5 9).cur.wait? 7).isSome ∧ (5 ≤ (asleep 5 9).nowAt (clusterOf 0)) ∧
    (asleep 1000000 0).nowAt (clusterOf 0) < 1000000 := by
  refine ⟨ctl_issuing _ _ rfl rfl, by decide, by decide, by decide, by decide, ?_, ?_⟩
  · exact Nat.le_trans (by decide) (Nat.le_add_right 9 _)
  · show 0 + _ % _ < _
    have := Nat.mod_lt (Config.clusterLead (clusterOf 0)) (show 0 < Config.skew + 1 by decide)
    have : Config.skew + 1 ≤ 1000000 := by decide
    omega

theorem wit_PrefetchNeverTraps : (ctl id).Issuing := ctl_issuing _ _ rfl rfl

/-! ### Hypotheses met: memory -/

/-- The small machine in a memory clause: scratch of 1,024 bytes under stream 1, lanes 8 bytes apart; one page of memory under stream 0;
seep of one tile under stream 2. -/
def memBox (f : Skein → Skein) : State :=
  let s := boxOf (hdrWord .memory .e32)
  { s.updCur fun k => f { k with streams := [{ lane := 8 }, { tag := 1, lane := 8 }, { tag := 2, lane := 8 }] } with
    teams := [{ uid := 2, grid := some 3, scratchBytes := 1024 }]
    grids := [{ uid := 3, count := 1, next := 1, size := 32, seep := 1 }]
    seeps := [⟨9, 3, 0, 0, 1, []⟩]
    tlb := [⟨0, none, 0, 65536, 0, 0, 0x10000, 7, 0⟩] }

def scratchLoad : MemReq := loadReq (.ldsc .always 4 ⟨1, 63⟩ 3) .always 4 ⟨1, 63⟩ 3 1 ⟨true, 0, 0, 0, false⟩

theorem memBox_id : memBox id = { memBox id with skeins := [{ skein (hdrWord .memory .e32) with
    streams := [{ lane := 8 }, { tag := 1, lane := 8 }, { tag := 2, lane := 8 }] }] } := rfl

theorem memBox_issuing : (memBox id).Issuing := ⟨_, rfl⟩

theorem memBox_clear (srcs : List SrcReg) (dsts : List Reg) (h : ∀ f ∈ srcs.map (·.1) ++ dsts, f.toNat < 16) : (memBox id).Clear srcs dsts where
  range := h
  landed _ _ := rfl
  free _ _ := rfl
  sound x _ l _ _ _ := sound_regs _ (permSrc x.2 l)

theorem memBox_memClear : (memBox id).MemClear scratchLoad where
  fields := rfl
  space := by decide
  clear := memBox_clear _ _ (by decide)
  inside := by
    intro l hl _
    show _ ≤ _
    revert l
    decide
  aligned _ l hl _ := by revert l; decide

/-- Lanes in scratch, all in place. -/
theorem wit_MemoryRequests : memRow (.ldsc .always 4 ⟨1, 63⟩ 3) = some scratchLoad ∧ (memBox id).Issuing ∧
    ((memBox id).ctx (memBox id).cur.ctx).dbg.k = 0 ∧ (memBox id).MemClear scratchLoad ∧
    (∃ xs, (memBox id).formAll scratchLoad ((memBox id).memTag scratchLoad) ((memBox id).memLanes scratchLoad) = (memBox id, .ok xs) ∧
      xs ≠ [] ∧ (∀ x ∈ xs, x.1.isPeer = false) ∧ (memBox id).MemRoom scratchLoad xs) := by
  refine ⟨rfl, memBox_issuing, rfl, memBox_memClear, _, rfl, by decide, by decide, ⟨by decide, by decide, ?_⟩⟩
  intro f h
  revert f
  decide

/-- The first and the last lane that a space of 1,024 bytes has room for at 8 bytes; a page that allows every access. -/
theorem wit_MemoryPlaces : (memBox id).MemClear scratchLoad ∧ (memBox id).memTag scratchLoad = 1 ∧
    (memBox id).memTag { scratchLoad with m := ⟨2, 63⟩ } = 2 ∧ (memBox id).memTag { scratchLoad with m := ⟨0, 63⟩ } = 0 ∧
    ∀ l, l < 32 → (memBox id).tlbHit 0 (va57 ((memBox id).laneAddr { scratchLoad with m := ⟨0, 63⟩ } l)) =
      some ⟨0, none, 0, 65536, 0, 0, 0x10000, 7, 0⟩ :=
  ⟨memBox_memClear, by decide, by decide, by decide, by decide⟩

/-- A stream of another space; the first lane past the space; a lane that is not aligned. -/
theorem wit_MemoryTraps : (memBox id).memTag { scratchLoad with m := ⟨0, 63⟩ } ∉ scratchLoad.tags ∧ (4 : Reg).toNat < (memBox id).cur.regCount ∧
    ((memBox id).team 2).scratchBytes < (1017 : Lane).toNat + 8 ∧ canonical (0x0100000000000000 : Lane) = false ∧
    (memBox id).seepLim < (4089 : Lane).toNat + 8 ∧ (12 : Lane).toNat % 8 ≠ 0 ∧ scratchLoad.align = true := by decide

/-- The same space under a page that forbids stores, and with no page at all. -/
theorem wit_TranslationStops :
    ({ memBox id with tlb := [⟨0, none, 0, 65536, 0, 0, 0x10000, 5, 0⟩] }.formLane
        (storeReq (.st .always 4 ⟨0, 63⟩ 3) .always 4 ⟨0, 63⟩ 3 0 ⟨true, 0, 0, 0, false⟩) 0 0 0 0 0).2 =
      .trap { kind := 4, addr := 0, aux := 1 } ∧
    ({ memBox id with tlb := [] }.formLane (storeReq (.st .always 4 ⟨0, 63⟩ 3) .always 4 ⟨0, 63⟩ 3 0 ⟨true, 0, 0, 0, false⟩) 0 0 0 0 0).2 =
      .miss 0 false := by decide

/-- One access under way. -/
def acc (kind : AccKind) (place : Place) (lanes : List LaneAcc) : Access :=
  { id := 7, seq := 7, sk := 1, op := some 5, ctx := 0, core := 0, kind := kind, place := place, width := 8, lanes := lanes, pc := 0, instr := .nop .always }

def inFlight (a : Access) : State := { memBox (fun k => { k with ops := [{ id := 5, pend := [4], await := 1 }] }) with accesses := [a] }

theorem wit_ScratchLoadPerforms : (inFlight (acc (.load true) (.scratch 0) [⟨0, 8, 8, 0, 0, 4⟩])).Due
      (acc (.load true) (.scratch 0) [⟨0, 8, 8, 0, 0, 4⟩]) ∧
    ((inFlight (acc (.load true) (.scratch 0) [⟨0, 8, 8, 0, 0, 4⟩])).sk? 1).isSome ∧
    (inFlight (acc (.load true) (.scratch 0) [⟨0, 8, 8, 0, 0, 4⟩])).cur.waits = [] := ⟨⟨by decide, rfl⟩, by decide, by decide⟩

/-- The last eight bytes of a line, with no copy, and with a copy. -/
theorem wit_MemoryLoadPerforms : (inFlight (acc (.load false) .global [⟨0, 0, 120, 0, 0, 4⟩])).Due (acc (.load false) .global [⟨0, 0, 120, 0, 0, 4⟩]) ∧
    (acc (.load false) .global [⟨0, 0, 120, 0, 0, 4⟩]).beyond = none ∧ 120 % 128 + 8 ≤ 128 ∧
    (inFlight (acc (.load false) .global [⟨0, 0, 120, 0, 0, 4⟩])).copyOf false 0 0 0 0 = none ∧
    (inFlight (acc (.load false) .global [⟨0, 0, 120, 0, 0, 4⟩])).copyOf true 0 0 0 0 = none ∧
    ({ inFlight (acc (.load false) .global [⟨0, 0, 120, 0, 0, 4⟩]) with copies := [⟨false, 0, 0, [], 99, 0, 0, false, false, 0⟩] }.copyOf
      false 0 0 0 0).isSome := ⟨⟨by decide, rfl⟩, by decide, by decide, by decide, by decide, by decide⟩

theorem wit_StorePerforms : (inFlight (acc .store (.scratch 0) [⟨0, 8, 8, 3, 0, 0⟩])).Due (acc .store (.scratch 0) [⟨0, 8, 8, 3, 0, 0⟩]) ∧
    (inFlight (acc .store .global [⟨0, 0, 120, 3, 0, 0⟩])).Due (acc .store .global [⟨0, 0, 120, 3, 0, 0⟩]) ∧
    (inFlight (acc .store .global [⟨0, 0, 120, 3, 0, 0⟩])).writtenKey 0 = (inFlight (acc .store .global [⟨0, 0, 120, 3, 0, 0⟩])).keyOf 0 0 ∧
    (∀ y ∈ (inFlight (acc .store .global [⟨0, 0, 120, 3, 0, 0⟩])).accesses, y.id = 7 → y = acc .store .global [⟨0, 0, 120, 3, 0, 0⟩]) :=
  ⟨⟨by decide, rfl⟩, ⟨by decide, rfl⟩, by decide, by decide⟩

theorem wit_AtomicPerforms : (inFlight (acc (.atomic .add) (.scratch 0) [⟨0, 8, 8, 3, 0, 4⟩])).Due (acc (.atomic .add) (.scratch 0) [⟨0, 8, 8, 3, 0, 4⟩]) ∧
    (inFlight (acc (.atomic .add) (.scratch 0) [⟨0, 8, 8, 3, 0, 4⟩])).cur.waits = [] := ⟨⟨by decide, rfl⟩, by decide⟩

/-- A tile of seep that is live, at the last tick of its life and the first past it; one that never was. -/
def tiled (age : Nat) (a : Access) : State :=
  { inFlight a with now := age, seeps := [⟨9, 3, 0, 0, 1, [{ idx := 0, state := .live, birth := 0, valid := 1 }]⟩] }

theorem wit_SeepPerforms : (tiled (Config.seepLife - 1) (acc (.seepLoad false) (.seep 9) [⟨0, 0, 0, 0, 0, 4⟩])).Due
      (acc (.seepLoad false) (.seep 9) [⟨0, 0, 0, 0, 0, 4⟩]) ∧
    (tiled (Config.seepLife - 1) (acc .renew (.seep 9) [⟨0, 0, 0, 0, 0, 4⟩])).Due (acc .renew (.seep 9) [⟨0, 0, 0, 0, 0, 4⟩]) ∧
    (inFlight (acc .life (.seep 9) [⟨0, 0, 0, 0, 0, 4⟩])).Due (acc .life (.seep 9) [⟨0, 0, 0, 0, 0, 4⟩]) ∧
    (((tiled 0 (acc .renew (.seep 9) [⟨0, 0, 0, 0, 0, 4⟩])).seepInst 9).tile 0).state = .live ∧
    (((inFlight (acc .life (.seep 9) [⟨0, 0, 0, 0, 0, 4⟩])).seepInst 9).tile 0).state = .empty ∧
    (∃ j ∈ (tiled 0 (acc .renew (.seep 9) [⟨0, 0, 0, 0, 0, 4⟩])).seeps, j.uid = 9) :=
  ⟨⟨by decide, rfl⟩, ⟨by decide, rfl⟩, ⟨by decide, rfl⟩, by decide, by decide, _, List.mem_singleton.mpr rfl, rfl⟩

/-- The clock of the hosting cluster is at most its skew ahead: at tick 0 a tile born at 0 is live, after its life it is not. -/
theorem wit_SeepPerforms_age : (BitVec.ofNat 32 ((tiled 0 (acc .renew (.seep 9) [])).nowAt 0) - (0 : BitVec 32)).toNat < Config.seepLife ∧
    Config.seepLife ≤ (BitVec.ofNat 32 ((tiled Config.seepLife (acc .renew (.seep 9) [])).nowAt 0) - (0 : BitVec 32)).toNat := by
  have h : Config.clusterLead 0 % (Config.skew + 1) < Config.skew + 1 := Nat.mod_lt _ (Nat.succ_pos _)
  have e : (tiled 0 (acc .renew (.seep 9) [])).nowAt 0 = 0 + Config.clusterLead 0 % (Config.skew + 1) := rfl
  have f : (tiled Config.seepLife (acc .renew (.seep 9) [])).nowAt 0 = Config.seepLife + Config.clusterLead 0 % (Config.skew + 1) := rfl
  have s : Config.skew + 1 < Config.seepLife ∧ Config.seepLife + (Config.skew + 1) < 2 ^ 32 := by decide
  have z (n : Nat) (h : n < 2 ^ 32) : (BitVec.ofNat 32 n - (0 : BitVec 32)).toNat = n := by
    rw [show BitVec.ofNat 32 n - (0 : BitVec 32) = BitVec.ofNat 32 n from BitVec.sub_zero _, BitVec.toNat_ofNat, Nat.mod_eq_of_lt h]
  rw [e, f, z _ (by omega), z _ (by omega)]
  omega

/-- A tile whose renew ends at tick 64, before it and at it. -/
theorem wit_SeepSteps_renew : ({ idx := 0, state := .live, busy := some 64 } : Tile).busy = some 64 ∧ (tiled 64 (acc .renew (.seep 9) [])).now = 64 ∧
    (∀ o ∈ (memBox id).ops, o.atTiles = []) ∧ 64 ≤ (tiled 64 (acc .renew (.seep 9) [])).nowAt 0 ∧ (tiled 0 (acc .renew (.seep 9) [])).nowAt 0 < 64 := by
  refine ⟨rfl, rfl, by decide, Nat.le_add_right 64 _, ?_⟩
  have h : Config.clusterLead 0 % (Config.skew + 1) < Config.skew + 1 := Nat.mod_lt _ (Nat.succ_pos _)
  have s : Config.skew + 1 ≤ 64 := by decide
  show 0 + Config.clusterLead 0 % (Config.skew + 1) < 64
  omega

theorem wit_SeepSteps : Config.seepLife ≤ (BitVec.ofNat 32 Config.seepLife - (0 : BitVec 32)).toNat ∧
    (BitVec.ofNat 32 (Config.seepLife - 1) - (0 : BitVec 32)).toNat < Config.seepLife ∧
    ({ idx := 0, state := .live, busy := some 64 } : Tile).busy = some 64 ∧ (memBox id).accesses = [] := by decide

theorem wit_LongOperationsLand : ((memBox fun k => { k with ops := [{ id := 5, pend := [4], held := [5] }] }).sk? 1).isSome ∧
    (memBox fun k => { k with ops := [{ id := 5, pend := [4], held := [5] }] }).cur.waits = [] ∧
    ((memBox fun k => { k with ops := [{ id := 5, pend := [4], held := [5] }] }).cur.ops.find? fun x => x.id == 5) =
      some { id := 5, pend := [4], held := [5] } ∧
    (memBox fun k => { k with ops := [{ id := 5, pend := [4], held := [5] }] }).cur.pushesAhead { id := 5, pend := [4], held := [5] } = false := by decide

/-- A performed store; a posted store and a load of a peer page, at the tick silence becomes a record and before it. -/
theorem wit_AccessesReturn : acc .store (.peer 3) [⟨0, 0, 0, 3, 0, 0⟩] ∈ (inFlight (acc .store (.peer 3) [⟨0, 0, 0, 3, 0, 0⟩])).accesses ∧
    ({ acc .store .global [⟨0, 0, 0, 3, 0, 0⟩] with done := true }).done = true ∧ (acc .store (.peer 3) []).posted = true ∧
    (acc (.load false) (.peer 3) []).place.isPeer = true ∧ (acc (.load false) (.peer 3) []).posted = false ∧
    (acc (.load false) (.peer 3) []).sent + 2 ^ 20 ≤ 2 ^ 20 ∧ 2 ^ 20 - 1 < (acc (.load false) (.peer 3) []).sent + 2 ^ 20 ∧
    ({ acc (.load false) (.peer 3) [⟨0, 0, 0, 0, 0, 4⟩] with out := true } : Access).out = true ∧ (acc (.load false) (.peer 3) []).order = 0 ∧
    ((inFlight (acc .store (.peer 3) [⟨0, 0, 0, 3, 0, 0⟩])).ctx 0).halted = false ∧ (acc .store (.peer 3) []).sample = none ∧
    (inFlight (acc .store (.peer 3) [⟨0, 0, 0, 3, 0, 0⟩])).cur.waits = [] := by decide

/-! ### Hypotheses met: ordering, waiting, prefetch, residency, queues -/

/-- The small machine whose skein stands in one wait, from a wait kind and its instruction. -/
def waitingOn (kind : WaitKind) (i : Instr) : State :=
  memBox fun k => { k with waits := [{ id := 7, kind := kind, lanes := 0xFFFFFFFF, instr := i, issue := (memBox id).issue, es := .e32, since := 7 }] }

/-- A condition met, one unmet (a load under way), scopes 1, 2 and past the last. -/
theorem wit_FenceResults : (memBox id).Issuing ∧ (memBox id).fenceMet (memBox id).cur 1 = true ∧
    ({ memBox id with now := 1 }.fenceMet { (memBox id).cur with wct := [0, 0, 0, 0] } 1 = true) ∧
    (inFlight (acc (.load false) .global [])).fenceMet (inFlight (acc (.load false) .global [])).cur 0 = false ∧
    (inFlight (acc (.load false) .global [])).cur.faultQ = [] ∧ 4 < (5 : BitVec 3).toNat ∧
    ((waitingOn (.fence 1) (.fence 1)).cur.wait? 7).isSome ∧ (waitingOn (.fence 1) (.fence 1)).fenceMet (waitingOn (.fence 1) (.fence 1)).cur 1 = true :=
  ⟨memBox_issuing, by decide, by decide, by decide, by decide, by decide, by decide, by decide⟩

/-- At .dv the clock has passed every completion time. -/
theorem wit_FenceResults_dv : { memBox id with now := 1 }.fenceMet { memBox id with now := 1 }.cur 2 = true := by
  have h : (0 : Nat) < { memBox id with now := 1 }.nowAt (clusterOf { memBox id with now := 1 }.cur.core) :=
    Nat.lt_of_lt_of_le Nat.zero_lt_one (Nat.le_add_right 1 _)
  simp only [State.fenceMet, Bool.and_eq_true, Bool.or_eq_true, decide_eq_true_eq]
  refine ⟨⟨⟨⟨by decide, by decide⟩, .inr (by decide)⟩, .inr ⟨by decide, h⟩⟩, .inl (by decide)⟩

/-- A `waitw` on scratch words. -/
def scratchWait : Instr := .waitw .always 4 ⟨1, 63⟩ 3 0 2 0 0 1

theorem memBox_fresh : (memBox id).Fresh := ⟨by decide, by decide⟩

theorem wit_WaitOnWord_clear : ∀ r, waitReq scratchWait = some r → (memBox id).MemClear r.q := by
  rintro r ⟨⟩
  exact ⟨rfl, by decide, memBox_clear _ _ (by decide), fun l hl _ => by show _ ≤ _; revert l; decide, fun _ l hl _ => by revert l; decide⟩

theorem wit_WaitOnWord_begins : (waitReq scratchWait).isSome ∧ (memBox id).Issuing ∧ (memBox id).Fresh ∧
    ∀ r, waitReq scratchWait = some r → ∃ xs, (memBox id).formAll r.q ((memBox id).memTag r.q) ((memBox id).memLanes r.q) = (memBox id, .ok xs) ∧
      xs ≠ [] := by
  refine ⟨by decide, memBox_issuing, memBox_fresh, ?_⟩
  rintro r ⟨⟩
  exact ⟨_, rfl, by decide⟩

/-- The wait of `scratchWait`, with the addresses of two lanes, which still stand in it. -/
def rereading : State :=
  memBox fun k => { k with
    waits := [{ id := 7, kind := .waitw 0 (some 64), lanes := 3, instr := scratchWait, issue := { (memBox id).issue with mask := 3 }, es := .e32, since := 7
                space := 1, addrs := [(0, 0), (1, 8)] }]
    threads := (List.range 32).map fun l => { (k.thread l) with waiting := if l < 2 then some 7 else none } }

theorem wit_WaitOnWord_rereads : rereading.sk? 1 = some rereading.cur ∧ (rereading.cur.wait? 7).isSome ∧ rereading.cur.uid = 1 ∧
    ∀ r, waitReq scratchWait = some r → ∀ w, rereading.cur.wait? 7 = some w → r.q.scope < 2 ∧
      ∃ xs, { rereading with issue := { w.issue with sk := 1 } }.formAll r.q w.space.toNat (w.addrs.filter fun x => rereading.cur.inWait 7 x.1) =
          ({ rereading with issue := { w.issue with sk := 1 } }, .ok xs) ∧
        xs ≠ [] ∧ (∀ x ∈ xs, x.1 = .scratch 0) ∧ (xs.map fun x => x.2.lane).Nodup ∧ rereading.readBehind 1 w xs = false := by
  refine ⟨rfl, by decide, by decide, ?_⟩
  rintro r ⟨⟩ w ⟨⟩
  exact ⟨by decide, _, rfl, by decide, by decide, by decide, by decide⟩

theorem wit_DataPrefetch : (memBox id).Issuing ∧ (memBox id).Clear (offRegs 63) [] ∧ (memBox id).cur.streamTag 0 = 0 ∧
    (memBox id).cur.streamTag 1 ≠ 0 := ⟨memBox_issuing, memBox_clear _ _ (by decide), by decide, by decide⟩

/-- An instruction line wanted, whose page may be fetched. -/
def filling : State := { memBox id with ireqs := [⟨0, 0, 2, [], []⟩] }

theorem wit_CodeFetch : (7 : Reg).toNat < 8 ∧ (∀ x ∈ (memBox id).ops, x.uid ≠ (memBox id).idCtr) ∧ (∀ x ∈ (memBox id).altered, x.ctx ≠ 0) ∧
    ((memBox id).openOps 2 5).length < 64 ∧ (memBox id).passing .always 0 = true ∧
    filling.ireqs.find? (fun y => y.core == 0 && y.line == 2) = some ⟨0, 0, 2, [], []⟩ ∧
    ({ filling with ireqs := filling.ireqs.erase ⟨0, 0, 2, [], []⟩ }.fetchable 0 (lineAddr 2)).2.isSome := by decide

/-- Registers that hold a range of 64 KiB at 64 KiB and a length; a live handle of it; the next range up. -/
def residBox (base : Lane) (rs : List Resid) : State :=
  { memBox (fun k => { k with regs := [{}, {}, { lanes := List.replicate 32 base }, { lanes := List.replicate 32 0x10000 }] }) with resids := rs }

theorem wit_ResidencyHandles : (residBox 0x10000 []).Issuing ∧ (residBox 0x10000 []).passing .always 0 = true ∧
    ((residBox 0x10000 []).cur.read 2 0).toNat % 65536 = 0 ∧ ((residBox 0x10000 []).cur.read 3 0).toNat = 65536 ∧
    (∀ r ∈ (residBox 0x10000 [⟨0, 0, 0x20000, 0x10000, 3, none⟩]).resids, ¬ (r.base.toNat < 0x20000 ∧ 0x10000 < r.base.toNat + r.len.toNat)) ∧
    (residBox 0x10001 []).cur.read 2 0 = 0x10001 ∧ (residBox 0 [⟨0, 0, 0x20000, 0x10000, 3, none⟩]).cur.read 2 0 = 0 ∧
    (2 : BitVec 3).toNat < 3 ∧ 3 ≤ (3 : BitVec 3).toNat := ⟨⟨_, rfl⟩, by decide, by decide, by decide, by decide, by decide, by decide,
    by decide, by decide⟩

theorem wit_ResidencyHandles_clear : (residBox 0x10000 []).Clear [plain 2, plain 3] [1] ∧ (residBox 0x10000 []).Room true true := by
  refine ⟨⟨by decide, by decide, by decide, by decide⟩, ?_⟩
  intro f h
  revert f
  decide

theorem wit_ResidencyEvict : (residBox 0 [⟨0, 0, 0x20000, 0x10000, 3, none⟩]).residNamed 0 = some ⟨0, 0, 0x20000, 0x10000, 3, none⟩ ∧
    ((residBox 0 []).openOps 2 6).length < 64 ∧ (residBox 0 []).residNamed 0 = none := by decide

/-- A queue of depth 64 with 0, 32, 33 or 64 entries of 4 bytes. -/
def queued (held : Nat) : State :=
  { memBox id with teams := [{ uid := 2, grid := some 3, scratchBytes := 1024
                               qw := [BitVec.ofNat 64 (held * 2 ^ 48 + 2 * 2 ^ 32 + 64 * 2 ^ 19)] }] }

/-- Room for the 32 lanes, and one too few; entries for them, and one too few. -/
theorem wit_QueueResults : (queued 32).Issuing ∧ (∃ x ∈ (queued 32).teams, x.uid = (queued 32).cur.team) ∧
    ((List.range 32).filter ((queued 32).passing .always)).length = 32 ∧
    (((queued 32).team 2).qw.getD 0 0).toNat / 2 ^ 19 % 2 ^ 13 = 64 ∧ (((queued 32).team 2).qw.getD 0 0).toNat / 2 ^ 48 % 2 ^ 13 = 32 ∧
    (((queued 33).team 2).qw.getD 0 0).toNat / 2 ^ 48 % 2 ^ 13 = 33 ∧ (((queued 31).team 2).qw.getD 0 0).toNat / 2 ^ 48 % 2 ^ 13 = 31 ∧
    ((queued 32).skeinsOf 2).any (fun x => (x.queueWait 0 true).isSome || (x.queueWait 0 false).isSome) = false ∧
    (queued 32).fenceMet (queued 32).cur 1 = true :=
  ⟨⟨_, rfl⟩, ⟨_, List.mem_singleton.mpr rfl, rfl⟩, by decide, by decide, by decide, by decide, by decide, by decide, by decide⟩

/-- A waiting `qpop`, with entries and without. -/
theorem wit_QueueStep : ((waitingOn (.qpop 0) (.qpop .always 4 0)).cur.wait? 7).isSome ∧
    queueOf (.qpop .always 4 0) = some (.always, 0, false) ∧ (waitingOn (.qpop 0) (.qpop .always 4 0)).queueReady
      (waitingOn (.qpop 0) (.qpop .always 4 0)).cur 0 false 32 = false ∧ (queued 32).queueReady (queued 32).cur 0 false 32 = true := by decide

/-! ### Hypotheses met: barriers, register counts, handles, system registers, traps -/

/-- The small machine with one barrier, a clock reading and a skein of its own. -/
def barred (b : Barrier) (f : Skein → Skein := id) : State :=
  { memBox f with teams := [{ uid := 2, grid := some 3, scratchBytes := 1024, barriers := [b] }] }

/-- Thirty-one arrivals short of 64, thirty-two short of it; an unmet release; a guard no lane passes; the last barrier and the one past
it. -/
theorem wit_BarrierArrival : (barred ⟨0, 0, 0⟩).Issuing ∧ (∃ x ∈ (barred ⟨0, 0, 0⟩).teams, x.uid = (barred ⟨0, 0, 0⟩).cur.team) ∧
    (barred ⟨0, 0, 0⟩).cur.uid = (barred ⟨0, 0, 0⟩).issue.sk ∧ ((barred ⟨0, 0, 0⟩).team 2).barriers.length ≤ (1 : BitVec 5).toNat ∧
    (0 : BitVec 5).toNat < ((barred ⟨0, 0, 0⟩).team 2).barriers.length ∧ ((List.range 32).filter ((barred ⟨0, 0, 0⟩).passing .always)).length = 32 ∧
    ((List.range 32).filter ((barred ⟨0, 0, 0⟩).passing (.pos 0))).length = 0 ∧ (barred ⟨4, 31, 64⟩).fenceMet (barred ⟨4, 31, 64⟩).cur 1 = true ∧
    31 + 32 < 64 ∧ 32 + 32 = 64 ∧
    (inFlight (acc (.load false) .global [])).fenceMet (inFlight (acc (.load false) .global [])).cur 1 = false :=
  ⟨⟨_, rfl⟩, ⟨_, List.mem_singleton.mpr rfl, rfl⟩, rfl, by decide, by decide, by decide, by decide, by decide, by decide, by decide, by decide⟩

/-- A cooperative grid of 64 and of 32 live threads. -/
def coopBox (twice : Bool) (now : Nat) : State :=
  let s := memBox id
  { s with
    now := now, grids := [{ uid := 3, count := 1, next := 1, size := 64, coop := true }]
    skeins := if twice then s.skeins ++ s.skeins.map fun k => { k with uid := 11, index := 1 } else s.skeins }

theorem wit_GridBarrier : (coopBox true 1).Issuing ∧ (coopBox true 1).gridOf ((coopBox true 1).team 2) =
      some { uid := 3, count := 1, next := 1, size := 64, coop := true } ∧
    ((List.range 32).filter (coopBox true 1).executing).length = 32 ∧ (coopBox true 1).gridLive 3 = 64 ∧ (coopBox false 1).gridLive 3 = 32 ∧
    Guard.pos 0 ≠ .always ∧ ((box .e32).gridOf ((box .e32).team 2)).map (·.coop) = some false ∧
    { inFlight (acc (.load false) .global []) with grids := (coopBox true 1).grids }.fenceMet
      (inFlight (acc (.load false) .global [])).cur 2 = false :=
  ⟨⟨_, rfl⟩, by decide, by decide, by decide, by decide, by decide, by decide, by decide⟩

theorem wit_GridBarrier_met : (coopBox true 1).fenceMet (coopBox true 1).cur 2 = true := by
  have h : (0 : Nat) < (coopBox true 1).nowAt (clusterOf (coopBox true 1).cur.core) :=
    Nat.lt_of_lt_of_le Nat.zero_lt_one (Nat.le_add_right 1 _)
  simp only [State.fenceMet, Bool.and_eq_true, Bool.or_eq_true, decide_eq_true_eq]
  refine ⟨⟨⟨⟨by decide, by decide⟩, .inr (by decide)⟩, .inr ⟨by decide, h⟩⟩, .inl (by decide)⟩

/-- A release with one skein to go. -/
def leaving : Release := ⟨9, .bar 0 4, [(0, 1)], [0], [], [(0, 8, 16)], 0⟩

theorem wit_BarrierRelease : { waitingOn (.bar 0 4) (.bar .always 0 (.imm 63)) with releases := [leaving] }.releases.find? (fun x => x.uid == leaving.uid) =
      some leaving ∧ leaving.kind = .bar 0 4 ∧ leaving.skeins = [(0, 1)] ∧ leaving.clusters = [0] ∧ leaving.begun = [] ∧ 1 ≤ leaving.size 0 ∧
    (waitingOn (.bar 0 4) (.bar .always 0 (.imm 63))).sk? 1 = some (waitingOn (.bar 0 4) (.bar .always 0 (.imm 63))).cur ∧
    (waitingOn (.bar 0 4) (.bar .always 0 (.imm 63))).cur.waits.filter (fun x => x.kind == leaving.kind) =
      [{ id := 7, kind := .bar 0 4, lanes := 0xFFFFFFFF, instr := .bar .always 0 (.imm 63), issue := (memBox id).issue, es := .e32, since := 7 }] :=
  ⟨rfl, rfl, rfl, rfl, rfl, by decide, rfl, by decide⟩

/-- A skein of a register count, alone or with a neighbour that fills its quadrant; a long operation on r20. -/
def sized (n : Nat) (full : Bool) (ops : List LongOp := []) : State :=
  let s := memBox fun k => { k with regCount := n, ops := ops }
  if full then { s with skeins := s.skeins ++ (List.range 11).map fun i => { uid := 20 + i, team := 9, slot := some (i + 1), regCount := 64 } } else s

theorem wit_GrowAndShrink : (sized 56 false).Issuing ∧ (sized 64 false).cur.regCount = 64 ∧ 2048 ≤ (sized 56 false).quadFree 0 0 ∧
    (sized 64 true).quadFree 0 0 = 0 ∧ (sized 60 true).quadFree 0 0 < 2048 ∧
    (∃ x ∈ (sized 60 true).skeins, x.slot.isSome = true ∧ x.core = 0 ∧ x.quad = 0 ∧ x.uid ≠ (sized 60 true).issue.sk ∧ x.growing = none) ∧
    melded.inRegion = true ∧ (sized 16 false).inRegion = false ∧ 16 < (sized 24 false).cur.regCount ∧
    (∀ i, i < 8 → (sized 24 false).cur.pendingBy (24 - 8 + i) = none ∧ (sized 24 false).cur.heldBy (24 - 8 + i) = none) ∧
    (sized 24 false [{ id := 5, pend := [20] }]).cur.pendingBy 20 ≠ none :=
  ⟨⟨_, rfl⟩, by decide, by decide, by decide, by decide,
    ⟨{ uid := 20, team := 9, slot := some 1, regCount := 64 }, by decide, by decide, rfl, rfl, by decide, rfl⟩, by decide, by decide, by decide,
    by decide, by decide⟩

/-- An older skein of the quadrant that waits in `grow`, the issuing one as old as tick 5. -/
def behindOne : State :=
  let s := memBox fun k => { k with regCount := 56, age := 5 }
  { s with skeins := s.skeins ++ [{ uid := 20, team := 9, slot := some 1, regCount := 16
                                    waits := [{ id := 7, kind := .grow, lanes := 0xFFFFFFFF, instr := .grow, issue := s.issue, es := .e32, since := 7 }] }] }

theorem wit_GrowAndShrink_behind : behindOne.Issuing ∧ behindOne.cur.regCount < 64 ∧ 2048 ≤ behindOne.quadFree 0 0 ∧
    ∃ x ∈ behindOne.skeins, x.slot.isSome = true ∧ x.core = 0 ∧ x.quad = 0 ∧ x.growing.isSome = true ∧ behindOne.rank x < behindOne.rank behindOne.cur :=
  ⟨⟨_, rfl⟩, by decide, by decide, _, List.mem_append_right _ (List.mem_singleton.mpr rfl), rfl, rfl, rfl, by decide, by decide⟩

/-- A skein that waits in `grow`, in its slot and swapped out. -/
def growingBox (slot : Option Nat) : State :=
  memBox fun k => { k with slot := slot, waits := [{ id := 7, kind := .grow, lanes := 0xFFFFFFFF, instr := .grow, issue := (memBox id).issue, es := .e32, since := 7 }] }

theorem wit_GrowGrants : (growingBox (some 0)).sk? 1 = some (growingBox (some 0)).cur ∧ (growingBox (some 0)).cur ∈ (growingBox (some 0)).skeins ∧
    (growingBox (some 0)).cur.growing.isSome ∧ 2048 ≤ (growingBox (some 0)).quadFree 0 0 ∧
    (∀ x ∈ (growingBox (some 0)).skeins, x = (growingBox (some 0)).cur) ∧ (growingBox none).cur.slot = none ∧
    (growingBox none).freeSlots 0 0 = 0 :: (List.range 16).drop 1 ∧ 256 * (16 + 8) ≤ (growingBox none).quadFree 0 0 ∧
    (sized 60 true).quadFree 0 0 < 2048 ∧ (growingBox none).readRecord 1 = some (growingBox none).cur ∧ (growingBox none).cur.replays = [] ∧
    (∀ v, (growingBox none).cur.growing = some v → ((growingBox none).cur.endWait v).growing = none) :=
  ⟨rfl, List.mem_singleton.mpr rfl, by decide, by decide, fun _ h => List.mem_singleton.mp h, rfl, by decide, by decide, by decide, rfl, rfl,
    by rintro v ⟨⟩; decide⟩

/-- Handles pending, complete, cancelled, failed, empty; a timeline that has reached 5. -/
theorem wit_HandleWaits : (handled 0).Issuing ∧ (handled 0).passing .always 0 = true ∧ (¬ ∃ l, l < 32 ∧ (handled 0).passing (.pos 0) l = true) ∧
    2 ^ 63 ≤ ((handled 0x8500000000000001).cur.hd.getD 0 0).toNat ∧ ((handled 0x0502000000000001).cur.hd.getD 0 0).toNat / 2 ^ 48 % 256 ∈ [0, 2, 6] ∧
    ((handled 0x00FF000000000000).cur.hd.getD 0 0).toNat / 2 ^ 48 % 256 = 0xFF ∧
    ((handled 0x0509000000000001).cur.hd.getD 0 0).toNat / 2 ^ 48 % 256 ∈ [1, 3, 4, 5, 7, 8, 9] ∧ (box .e32).Clear [plain 2] [] ∧
    ((jumping 5 true).cur.read 2 0).toNat ≤ ({ tl := [5] : Team }.tl.getD 0 0).toNat ∧
    ¬ ((jumping 6 true).cur.read 2 0).toNat ≤ ({ tl := [5] : Team }.tl.getD 0 0).toNat :=
  ⟨ctl_issuing _ _ rfl rfl, by decide, by decide, by decide, by decide, by decide, by decide, box_clear _ _ _ (by decide), by decide, by decide⟩

/-- Operations of a pump and of a launch that a handle names, one complete. -/
def operating (o : EngineOp) : State := { ctl (fun k => { k with hdOp := [some 5], hd := [0x8000000000000001] }) with ops := [o], teams := [{ uid := 2 }] }

theorem wit_HandleTestAndCancel : (operating { uid := 5, kind := .launch }).Issuing ∧ (box .e32).Clear [] [4] ∧
    (operating { uid := 5, kind := .launch }).hdOpOf (operating { uid := 5, kind := .launch }).cur 0 = some { uid := 5, kind := .launch } ∧
    (operating { uid := 5, done := true }).hdOpOf (operating { uid := 5, done := true }).cur 0 = some { uid := 5, done := true } ∧
    (operating { uid := 5, kind := .evict }).hdOpOf (operating { uid := 5, kind := .evict }).cur 0 = some { uid := 5, kind := .evict } ∧
    (operating { uid := 5 }).hdOpOf (operating { uid := 5 }).cur 0 = some { uid := 5, kind := .fetch } ∧
    (operating { uid := 6 }).hdOpOf (operating { uid := 6 }).cur 0 = none ∧ (operating { uid := 5 }).passing .always 0 = true :=
  ⟨⟨_, rfl⟩, box_clear _ _ _ (by decide), by decide, by decide, by decide, by decide, by decide, by decide⟩

/-- An operation ready with status 3, all acknowledged and not. -/
theorem wit_OperationCompletes : (operating { uid := 5, team := 2, ready := true, status := 3 }).op? 5 =
      some { uid := 5, team := 2, ready := true, status := 3 } ∧ ({ uid := 5, team := 2, ready := true, status := 3 } : EngineOp).verdict = some 3 ∧
    (operating { uid := 5, team := 2, ready := true, outs := [⟨1, 0, 0, 0, []⟩] }).opVisible { uid := 5, team := 2, ready := true, outs := [⟨1, 0, 0, 0, []⟩] } = false ∧
    (∀ k ∈ (operating { uid := 5 }).skeins, k.team = 2 → k.waits = []) ∧ ((operating { uid := 5 }).team? 2).isSome ∧
    ({ uid := 5, kind := .coll 0 0, cancel := true } : EngineOp).verdict = some 2 ∧ (2 : Byte) ∈ ([1, 2, 8] : List Byte) := by
  refine ⟨by decide, by decide, ?_, by decide, by decide, by decide, by decide⟩
  show (_ && false) = false
  exact Bool.and_false _

theorem wit_OperationCompletes_visible : ({ operating { uid := 5, team := 2, ready := true } with now := 1 }).opVisible
    { uid := 5, team := 2, ready := true } = true := by
  have h : (0 : Nat) < ({ operating { uid := 5, team := 2, ready := true } with now := 1 }).nowAt (clusterOf 0) :=
    Nat.lt_of_lt_of_le Nat.zero_lt_one (Nat.le_add_right 1 _)
  simp only [State.opVisible, Bool.and_eq_true, decide_eq_true_eq]
  exact ⟨h, rfl⟩

/-- A number R294 does not list, one it does; a handle pending and complete. -/
theorem wit_SystemReads : (box .e32).Issuing ∧ (box .e32).Clear [] [4] ∧ (box .e32).sysReg 0x007 0 = none ∧ (box .e32).sysReg 0x037 0 ≠ none ∧
    (∃ l, l < 32 ∧ (box .e32).passing .always l = true) ∧ (¬ ∃ l, l < 32 ∧ (box .e32).passing (.pos 0) l = true) ∧ (0x17 : Nat) < 0x18 ∧
    2 ^ 63 ≤ ((handled 0x8500000000000001).cur.hd.getD (0x18 - 0x18) 0).toNat ∧ ((handled 5).cur.hd.getD (0x18 - 0x18) 0).toNat < 2 ^ 63 :=
  ⟨box_issuing _, box_clear _ _ _ (by decide), by decide, by decide, ⟨0, by decide⟩, by decide, by decide, by decide, by decide⟩

/-- A handler runs, with its trap state. -/
def trapped (f : Skein → Skein := id) (pcSet : Bool := false) (last : Bool := true) : State :=
  ctl (fun k => f { k with handler := some ⟨0xFFFFFFFF, k.threads, false, 0, (ctl id).issue, pcSet, none, false⟩ }) fun i => { i with last := last }

/-- The queue's last byte that fits and the first that does not; leases 1, 256 and past it; RES alone and another field. -/
theorem wit_SystemWrites : (box .e32).Issuing ∧ (box .e32).Clear [plain 2] [] ∧ (box .e32).passing .always 0 = true ∧
    1 ≤ (256 : Lane).toNat ∧ 256 < (257 : Lane).toNat ∧ (box .e32).cur.conductor = false ∧ (box .e32).cur.handler = none ∧
    trapped.cur.handler.isSome ∧ (2 ^ 34 : Lane).toNat % 2 ^ 34 = trapped.cur.flt.toNat % 2 ^ 34 ∧
    (2 ^ 34 : Lane).toNat / 2 ^ 36 = trapped.cur.flt.toNat / 2 ^ 36 ∧ (1 : Lane).toNat % 2 ^ 34 ≠ trapped.cur.flt.toNat % 2 ^ 34 ∧
    (∃ x ∈ (memBox id).teams, x.uid = (memBox id).cur.team) ∧ (memBox id).queueWaited 2 7 = false ∧
    (0x00080000 : Lane).toNat / 2 ^ 19 % 2 ^ 13 = 1 ∧
    (0x000003F8 + 0x00080000 * 8 : Lane).toNat % 2 ^ 19 + (0x000003F8 + 0x00080000 * 8 : Lane).toNat / 2 ^ 19 % 2 ^ 13 * 2 ^ 0 ≤
      ((memBox id).team 2).scratchBytes :=
  ⟨box_issuing _, box_clear _ _ _ (by decide), by decide, by decide, by decide, by decide, by decide, by decide, by decide, by decide, by decide,
    ⟨_, List.mem_singleton.mpr rfl, rfl⟩, by decide, by decide, by decide⟩

/-- A write of sys.slew on its way to cluster 0, which partition 0 owns. -/
def slewing : State := { State.reset with partitions := [{ num := 0, slewWrites := [(0, 3, 0x2005)] }] }

theorem wit_SlewArrives : slewing.partOfCluster 0 = 0 ∧ (slewing.part 0).slewWrites.find? (fun w => w.1 == 0) = some (0, 3, 0x2005) := by decide

theorem wit_TrapEntry : (ctl id).Issuing ∧ (ctl id).cur.handler = none ∧ ((ctl id).ctx (ctl id).cur.ctx).dbg.tren.getLsbD 1 = false ∧
    ({ kind := 1, cause := 0x0B } : Trap).pop = false ∧ ({ kind := 1, cause := 0x0B } : Trap).clear = none :=
  ⟨ctl_issuing _ _ rfl rfl, by decide, by decide, rfl, rfl⟩

theorem wit_TrapEscalates : trapped.Issuing ∧ trapped.cur.handler ≠ none := ⟨ctl_issuing _ _ rfl rfl, by decide⟩

/-- A written PC that is no multiple of 4; one that is; RES 3 with all stores acknowledged. -/
theorem wit_TrapReturn : trapped.Issuing ∧ (trapped (last := false)).issue.last = false ∧ trapped.issue.last = true ∧ (ctl id).cur.handler = none ∧
    trapped.cur.flt.toNat / 2 ^ 34 % 4 ≠ 3 ∧ (trapped (fun k => { k with fltpc := 2 }) true).cur.fltpc.toNat % 4 ≠ 0 ∧
    (trapped (fun k => { k with fltpc := 4 }) true).cur.fltpc.toNat % 4 = 0 ∧
    (trapped (fun k => { k with flt := 3 * 2 ^ 34 })).cur.flt.toNat / 2 ^ 34 % 4 = 3 ∧ trapped.cur.unacked = 0 ∧ trapped.cur.faultQ = [] ∧
    (trapped.cur.handler.map (·.counted)) = some none ∧ (∀ n, n < 8 → ((trapped.team trapped.cur.team).cvAt n).state ≠ 1) :=
  ⟨ctl_issuing _ _ rfl rfl, by decide, by decide, by decide, by decide, by decide, by decide, by decide, by decide, by decide, by decide,
    by decide⟩

/-- A reserved opcode, and one that is not. -/
theorem wit_ReservedOpcodes : Word.opcode 0x6E000000 ∈ [0x00, 0x37, 0x47, 0x4E, 0x4F, 0x7F] ∧
    Word.opcode 0xFC200000 ∉ [0x00, 0x37, 0x47, 0x4E, 0x4F, 0x7F] := by decide

/-! ### Hypotheses met: matrix operations and panels -/

theorem box_settled (es : Es) (srcs dsts : List Nat) : (box es).Settled srcs dsts where
  landed _ _ := rfl
  free _ _ := rfl
  sound r _ := sound_reg r

/-- Any quadrant's accumulator at reset: no team's, nothing pending; registers r0 to r15 settled; another live team's; one pending. -/
theorem wit_AccumulatorMoves : (box .e32).Issuing ∧ (box .e32).cur.regCount ≤ 64 ∧ (box .e32).AccFree 0 3 ∧ ((box .e32).myAcc 3).pending = [] ∧
    (0 : Reg).toNat + 16 ≤ (box .e32).cur.regCount ∧ (box .e32).Settled [] ((box .e32).wholeFrom 0 16) ∧
    (box .e32).Settled ((box .e32).wholeFrom 0 16) [] ∧ (box .e32).Some .always ∧ (¬ ∃ l, l < 32 ∧ (box .e32).passing (.pos 0) l = true) ∧
    (∀ l, l < 32 → ((box .e32).cur.thread l).region = none) :=
  ⟨box_issuing _, by decide, rfl, by decide, by decide, box_settled _ _ _, box_settled _ _ _, ⟨0, by decide⟩, by decide, by decide⟩

theorem wit_AccumulatorTraps :
    { box .e32 with accs := [{ core := 0, quad := 0, n := 1, owner := some 8 }], teams := [{ uid := 2 }, { uid := 8 }] }.accTaken
      ({ box .e32 with accs := [{ core := 0, quad := 0, n := 1, owner := some 8 }] }.myAcc 1) = true ∧
    { box .e32 with accs := [{ core := 0, quad := 0, n := 1, pending := [5] }] }.AccFree 0 1 ∧
    ({ box .e32 with accs := [{ core := 0, quad := 0, n := 1, pending := [5] }] }.myAcc 1).pending ≠ [] := ⟨by decide, rfl, by decide⟩

/-- A team of four skeins' size, its convergence register 0 as given, r12 holding a value in every lane. -/
def matBox (cv : Cv) (v : Lane := 0x77F00000) : State :=
  { boxOf (hdrWord .matrix .e32) with
    teams := [{ uid := 2, grid := some 3, size := 128, cv := [cv] }]
    skeins := [{ skein (hdrWord .matrix .e32) with
      regs := List.replicate 12 {} ++ { lanes := List.replicate 32 v } :: List.replicate 51 {} }] }

theorem matBox_issuing (cv : Cv) (v : Lane) : (matBox cv v).Issuing := ⟨_, rfl⟩

/-- An idle register and one that is signing; the last skein set a team of 128 threads has. -/
theorem wit_MatrixDeclaration : (matBox {}).Issuing ∧ (matBox {}).team? 2 = some { uid := 2, grid := some 3, size := 128, cv := [{}] } ∧
    (0 : Reg).toNat < 8 ∧ (⟨1, 1, 0, 0, 1, false, true⟩ : McfgExt).cls ≠ 3 ∧ 4 * (0 : BitVec 3).toNat + 4 ≤ (128 + 31) / 32 ∧
    ((matBox {}).team 2 |>.cvAt 0).state = 0 ∧ (∀ q, q < 4 → (matBox {}).AccFree q 1) ∧ (matBox {}).declMask .always .full ≠ 0 ∧
    (matBox {}).declMask .always (.reg 0) = 0 ∧ ((matBox { state := 1 }).team 2 |>.cvAt 0).state ≠ 0 ∧
    (∃ k ∈ (matBox {}).skeins, k.team = (matBox {}).cur.team ∧ 0 ≤ k.index ∧ k.index < 4 ∧ (k.thread 31).exited = false) :=
  ⟨matBox_issuing _ _, by decide, by decide, by decide, by decide, by decide, fun _ _ => rfl, by decide, by decide, by decide,
    _, List.mem_singleton.mpr rfl, by decide⟩

/-- Every thread of the skein awaited, three other skeins signed or none; a bf16 header in r12, and none there. -/
def signing (others : List Sign) : Cv := { state := 1, unsigned := (List.range 32).map fun l => (1, l), signs := others }

def signed (q : Nat) : Sign := ⟨20 + q, q, [0, 1, 2, 3, 4, 5, 6, 7], [0, 1, 2, 3, 4, 5, 6, 7], [8], [], 90 + q⟩

theorem wit_MatrixSigning : (matBox (signing [])).Issuing ∧ lowest (matBox (signing [])).executing = some 0 ∧ declPasses (signing []).decl = 1 ∧
    (∀ l, l < 32 → (1, l) ∈ (signing []).unsigned) ∧ (∀ x ∈ (signing [signed 1, signed 2, signed 3]).signs, x.sk ≠ 1) ∧
    (signing [signed 1, signed 2, signed 3]).signs.length + 1 = 4 ∧ (0 : Reg).toNat + 4 * 1 ≤ 16 ∧ (12 : Reg).toNat + (1 + 3) / 4 ≤ 16 ∧
    (matBox (signing [])).cur.headerLanes 12 1 = List.replicate 8 0x77F00000 ∧ (matBox (signing []) 0).cur.headerLanes 12 1 = List.replicate 8 0 ∧
    headerWords 0 (List.replicate 8 0x77F00000) = List.replicate 4 0x77F00000 ∧ headerFits 0 false 0x77F00000 = true ∧
    headerFits 0 false 0 = false ∧ ({} : Cv).state ≠ 1 ∧
    (∀ r ∈ [0, 1, 2, 3, 12], (matBox (signing [])).cur.pendingBy r = none ∧ ((matBox (signing [])).cur.reg r).poison = 0) :=
  ⟨matBox_issuing _ _, by decide, by decide, by decide, by decide, by decide, by decide, by decide, rfl, rfl, by decide, by decide, by decide, by decide,
    by decide⟩

theorem wit_MatrixSigning_room (a b : Bool) : (matBox (signing [])).Room a b := by
  intro f h
  revert h
  cases a <;> cases b <;> revert f <;> decide

/-- An entry of core 0, its engine idle or at work, of a context that runs. -/
def entry (running : Bool) (prio order : Nat) : MatEntry := ⟨0, 2, 0, 0, prio, 1, 5, order, true, running, 0⟩

def engine (ms : List MatEntry) (cv : Cv := { state := 2 }) : State :=
  { matBox cv with mats := ms, contexts := [{ num := 0, state := .running }] }

theorem wit_MatrixGrant : (∃ m ∈ (engine [entry true 1 3]).mats, m.core = 0 ∧ m.running = true) ∧
    (∀ x ∈ (engine [entry false 1 3, entry false 1 4, entry false 0 2]).mats, x.running = false ∧ x.prio ≤ 3 ∧ x.order < 2 ^ 64) ∧
    (engine [entry false 1 3, entry false 1 4, entry false 0 2]).grantable (entry false 1 3) = true ∧
    (∀ x ∈ (engine [entry false 1 3, entry false 1 4, entry false 0 2]).mats,
      x = entry false 1 3 ∨ x.prio < 1 ∨ (x.prio = 1 ∧ 3 < x.order)) ∧ ((engine [entry false 1 3]).team? 2).isSome :=
  ⟨⟨_, List.mem_singleton.mpr rfl, by decide⟩, by decide, by decide, by decide, by decide⟩

/-- Four signatures of two passes; the first pass under way, and the second. -/
def passing' (done : BitVec 4) : State :=
  engine [entry true 1 3] { state := 3, done := done, decl := 0x02010, signs := [signed 0, signed 1, signed 2, signed 3] }

theorem wit_MatrixPass : (passing' 0).mats.find? (fun x => x.core == 0 && x.running && decide (x.ends ≤ (passing' 0).now)) = some (entry true 1 3) ∧
    ((passing' 0).team? 2).isSome ∧
    (∀ q, q < 4 → (((passing' 0).team 2).cvAt 0 |>.signOf q |>.map fun g => (g.a.length, g.b.length)) = some (8, 8)) ∧
    (0 : BitVec 4).toNat + 1 < declPasses (((passing' 0).team 2).cvAt 0).decl := by decide

theorem wit_MatrixEnds : (passing' 1).mats.find? (fun x => x.core == 0 && x.running && decide (x.ends ≤ (passing' 1).now)) = some (entry true 1 3) ∧
    ((passing' 1).team? 2).isSome ∧ declPasses (((passing' 1).team 2).cvAt 0).decl ≤ (1 : BitVec 4).toNat + 1 ∧
    (∀ k ∈ (passing' 1).skeins, k.waits = []) := by decide

/-- A row of three ones and an f32 two: zero stays a finite sum. -/
theorem wit_MatrixArithmetic : (0 : Nat) < 3 ∧ (List.replicate 32 ((Elt.i 1, Elt.i 2) : Elt × Elt)).length = 4 * 8 ∧
    (decodeF f32 (0x40000000 : Word).toNat).isNan = false ∧ (decodeF f32 (0x40000000 : Word).toNat).isInf = false ∧
    (∃ d z, sumV ([((Elt.f (.fin false 1 0), Elt.f (.fin false 3 0)) : Elt × Elt)].map fun x => (prodV x.1.fval x.2.fval).1) = .fin d z ∧
      d.m ≠ 0) := ⟨by decide, by decide, by decide, by decide, _, _, rfl, by decide⟩

/-- A bp8 header of two planes and one of eight, an INT4 header; the top patterns of their formats. -/
theorem wit_PanelPayload : headerOk 0x67F20000 = true ∧ headerOk 0x67F80000 = true ∧ headerOk 0x57F00000 = true ∧ hGeom 0x67F20000 = false ∧
    (List.replicate 256 255).length = 256 ∧ hFmt 0x67F20000 = 6 ∧ payloadBytes 0x67F20000 = 64 ∧ hFmt 0x57F00000 = 5 ∧
    (∀ p ∈ List.replicate 256 15, p < 16) := by decide +kernel

theorem wit_QuantiseBegins : (box .e32).Issuing ∧ (box .e16).es ≠ .e32 ∧ (box .e32).es = .e32 ∧ (8 : Reg).toNat < (box .e32).cur.regCount ∧
    (0 : BitVec 4).toNat < 8 ∧ planesOk 0 0 false false = true ∧ (12 : Reg).toNat + 4 ≤ (box .e32).cur.regCount ∧
    payloadRegs (mkHeader 0 0 0 false false) = 1 ∧ (15 : Reg).toNat + 1 ≤ (box .e32).cur.regCount ∧
    (box .e32).Settled ((box .e32).wholeFrom 12 4) ((box .e32).wholeFrom 8 1 ++ (box .e32).wholeFrom 4 1) ∧ (box .e32).Some .always ∧
    (box .e32).Room true true ∧ headerOk ((box .e32).cur.headerIn ⟨8, 7, true, false⟩) = true ∧
    (box .e32).Settled ((box .e32).wholeFrom 8 1 ++ (box .e32).wholeFrom 0 1) ((box .e32).wholeFrom 12 4) ∧
    payloadBytes (mkHeader 4 0 0 false false) = 128 :=
  ⟨box_issuing _, by decide, by decide, by decide, by decide, by decide, by decide, by decide, by decide, box_settled _ _ _,
    ⟨0, by decide⟩, (by intro f h; revert f; decide), by decide, box_settled _ _ _, by decide⟩

/-- A panel of scratch: payload and header at offset 0, the header in lane 0 of r4, the payload from r5 on. -/
def panelOf (load : Bool) (c : Reg := 63) : Instr :=
  let e : PanelExt := ⟨c, 1, 4, 0, false, false, 0⟩
  if load then .pld .always 5 ⟨1, 63⟩ 0 0 e else .pst .always 5 ⟨1, 63⟩ 0 0 e

theorem memBox_settled (srcs dsts : List Nat) : (memBox id).Settled srcs dsts where
  landed _ _ := rfl
  free _ _ := rfl
  sound r _ := sound_reg r

theorem panel_clear (load : Bool) (q : PanelReq) (h : panelReq (panelOf load) = some q) (n : Nat) (hn : n ≤ 1024) : (memBox id).PanelClear q n := by
  cases load <;> obtain rfl := (Option.some.inj h) <;>
  exact ⟨by decide, by decide, memBox_clear _ _ (by decide), by
    intro x hx
    obtain rfl := Option.some.inj hx
    refine ⟨?_, show 0 + 4 ≤ 1024 by decide, fun h => ?_⟩
    · show 0 + n ≤ 1024
      omega
    · exact absurd h (by decide), by
    intro x hx
    obtain rfl := Option.some.inj hx
    decide⟩

/-- The first and the last number of payload bytes that scratch of 1,024 bytes has room for. -/
theorem wit_PanelRequests : (memBox id).Issuing ∧ ((memBox id).ctx 0).dbg.k = 0 ∧ (memBox id).Some .always ∧ ¬ (memBox id).Some (.pos 0) ∧
    (∀ q, panelReq (panelOf true) = some q → (memBox id).PanelClear q 1 ∧
      ∃ x xs, (memBox id).panelPlaces q 128 = (memBox id, .ok (x :: xs))) ∧ (memBox id).cur.loads < 16 ∧ (memBox id).Room true true ∧
    (∀ q, panelReq (panelOf false) = some q → (memBox id).PanelClear q 256 ∧ (memBox id).PanelClear q 1024 ∧
      (∃ x xs, (memBox id).panelPlaces q 256 = (memBox id, .ok (x :: xs))) ∧ headerOk ((memBox id).cur.headerIn (extPos q.e)) = true ∧
      payloadBytes ((memBox id).cur.headerIn (extPos q.e)) = 256 ∧ q.d.toNat + payloadRegs ((memBox id).cur.headerIn (extPos q.e)) ≤ 16 ∧
      (memBox id).Settled ((memBox id).wholeFrom q.d 1) []) := by
  refine ⟨memBox_issuing, by decide, ⟨0, by decide⟩, ?_, ?_, by decide, ?_, ?_⟩
  · rintro ⟨l, hl, h⟩
    revert h
    revert l
    decide
  · intro q h
    refine ⟨panel_clear true q h _ (by decide), ?_⟩
    obtain rfl := Option.some.inj h
    exact ⟨_, _, rfl⟩
  · intro f h
    revert f
    decide
  · intro q h
    refine ⟨panel_clear false q h _ (by decide), panel_clear false q h _ (by decide), ?_⟩
    obtain rfl := Option.some.inj h
    exact ⟨⟨_, _, rfl⟩, by decide, by decide, by decide, memBox_settled _ _⟩

theorem wit_PanelRequests_addrs : (memBox id).Fresh ∧ ∀ q, panelReq (panelOf true) = some q → (memBox id).panelAddrs q = some (0, 0, 0) := by
  refine ⟨memBox_fresh, ?_⟩
  rintro q ⟨⟩
  decide

/-- The access of a `pld` that waits; a header of all zero, valid, in scratch, and one that is not. -/
def panelWait (mem : Memory) : State :=
  { memBox fun k => { k with
      ops := [{ id := 8, pend := [4, 5], await := 1, load := true, forWait := some 7 }]
      waits := [{ id := 7, kind := .pld, lanes := 0xFFFFFFFF, instr := panelOf true, issue := (memBox id).issue, es := .e32, since := 7, space := 1
                  addrs := [(0, 0), (0, 0)] }]
      threads := (List.range 32).map fun l => { (k.thread l) with waiting := some 7 } } with
    mem := mem
    accesses := [{ id := 9, seq := 9, sk := 1, op := some 7, ctx := 0, core := 0, kind := .panelRead, place := .scratch 0, width := 4, lanes := [], pc := 0
                   instr := panelOf true }] }

theorem wit_PanelLoadArrives : ((panelWait []).sk? 1).isSome ∧ ((panelWait []).cur.wait? 7).isSome ∧ (panelWait []).cur.waits.length = 1 ∧
    (panelReq (panelOf true)).isSome ∧ (panelWait []).cur.handler = none ∧
    ((panelWait []).cur.wait? 7).map (fun w => (w.space, w.addrs, (panelWait []).cur.mayAct w)) = some (1, [(0, 0), (0, 0)], true) ∧
    (panelWait []).cur.ops.map (·.forWait) = [some 7] ∧
    ((panelWait []).team 2).scratchBytes < 2 ^ 63 ∧
    headerOk (BitVec.ofNat 32 (ofBytes ((panelWait []).mem.readN (scratchKey 0 0 + 0) 4))) = true ∧
    headerOk (BitVec.ofNat 32 (ofBytes ((panelWait [⟨scratchKey 0 0, 1⟩]).mem.readN (scratchKey 0 0 + 0) 4))) = false := by decide

/-! ### Hypotheses met: pump, sluice, launches, dispatcher -/

/-- r2 holds a control value in every lane. -/
def ctlBox (v : Lane) (f : State → State := id) : State :=
  f (memBox fun k => { k with regs := [{}, {}, { lanes := List.replicate 32 v }, {}] })

theorem ctlBox_clear (v : Lane) (srcs : List SrcReg) (dsts : List Reg) (h : ∀ f ∈ srcs.map (·.1) ++ dsts, f.toNat < 16) :
    (ctlBox v).Clear srcs dsts where
  range := h
  landed _ _ := rfl
  free _ _ := rfl
  sound x _ l _ _ _ := by
    have h (r n : Nat) : (([{}, {}, { lanes := List.replicate 32 v }, {}] : List VReg).getD r {}).poison.getLsbD n = false := by
      rcases r with _ | _ | _ | _ | r <;> exact BitVec.getLsbD_zero
    exact h _ _

theorem wit_NewName (v : Lane) : (ctlBox v).NewName := ⟨fun _ h => (List.not_mem_nil h).elim, by
  intro g h
  obtain rfl := List.mem_singleton.mp h
  exact (by decide : (3 : Nat) ≠ 4)⟩

/-- Scratch to scratch, 64 bytes, with the last flag word scratch of 1,024 bytes has room for; L at its limits; a reserved bit. -/
def pumpEx (fl : Bool) : PumpExt := ⟨1, 1, 5, fl, 0, 0⟩

theorem wit_PumpStarts : (ctlBox 64).Issuing ∧ (0 : Reg).toNat < 8 ∧ (pumpEx true).sl.toNat ≤ 4 ∧ (2 : Reg).toNat + 2 ≤ (ctlBox 64).cur.regCount ∧
    ((ctlBox 64).cur.streamTag 1).toNat ≤ 2 ∧ (pumpEx true).kind ≠ 3 ∧ (ctlBox 64).Some .always ∧ (ctlBox 64).Low .always 0 ∧
    (¬ ∃ l, l < 32 ∧ (ctlBox 64).passing (.pos 0) l = true) ∧ 2 ^ 51 ≤ (0x8000000000000 : Lane).toNat ∧ (0x7FFFFFFFFFFFF : Lane).toNat < 2 ^ 51 ∧
    (0x3F800000040 : Lane).toNat % 2 ^ 32 = 64 ∧ (0x3F800000040 : Lane).toNat / 2 ^ 32 % 2 ^ 19 + 8 ≤ ((ctlBox 0).team 2).scratchBytes ∧
    (∀ r ∈ (ctlBox 64).pumpRanges ⟨.always, 0, 63, 63, 2, pumpEx true⟩ 64, r = (1, 64, 0, 0) ∨ r = (1, 64, 1, 0)) ∧
    (ctlBox 64).fenceMet (ctlBox 64).cur ((ctlBox 64).pumpScope ⟨.always, 0, 63, 63, 2, pumpEx true⟩ 64) = true ∧
    ((ctlBox 64).openOps 2 5).length < 64 ∧ (pumpEx true).t.toNat < 8 :=
  ⟨⟨_, rfl⟩, by decide, by decide, by decide, by decide, by decide, ⟨0, by decide⟩, ⟨by decide, by decide, by decide⟩, by decide, by decide,
    by decide, by decide, by decide, by decide, by decide, by decide, by decide⟩

theorem wit_PumpStarts_clear : (ctlBox 64).Clear (PumpReq.srcs ⟨.always, 0, 63, 63, 2, pumpEx true⟩) [] ∧
    (inFlight (acc (.load false) .global [])).fenceMet (inFlight (acc (.load false) .global [])).cur 1 = false :=
  ⟨ctlBox_clear 64 _ _ (by decide), by decide⟩

/-- An operation of 100 bytes from offset 0 to 256; at its end with a flag word to store; in another's turn. -/
def pumping (pos : Nat) (fl : Bool) : EngineOp :=
  { uid := 5, team := 2, order := 5, kind := .pump 0 fl, parts := [(0, 256, 100)], srcPl := .scratch 0, dstPl := .scratch 0, total := 100, pos := pos
    flagAt := 512, flagV := 7 }

def pumpBox (os : List EngineOp) (now : Nat := 1) : State :=
  { memBox id with ops := os, now := now, contexts := [{ num := 0, state := .running }] }

theorem wit_PumpSegments : (pumpBox [pumping 0 true]).MemOk ∧ (pumpBox [pumping 0 true]).op? 5 = some (pumping 0 true) ∧
    ((pumpBox [pumping 0 true]).ctx 0).live = true ∧ ((pumpBox [pumping 0 true]).pumpTurnOf 0).map (·.uid) = some 5 ∧
    ((pumpBox [pumping 0 true, { pumping 0 true with uid := 6, order := 3 }]).pumpTurnOf 0).map (·.uid) ≠ some 5 ∧
    (pumping 100 true).pos = (pumping 100 true).total ∧ (pumping 99 true).pos < (pumping 99 true).total ∧
    (∀ x ∈ (pumpBox []).poisoned, x < scratchKey 0 0 / 8) ∧ (256 : Lane).toNat + 100 ≤ 2 ^ 20 :=
  ⟨rfl, by decide⟩

theorem wit_PumpSegments_flag : (pumpBox [pumping 100 true]).opVisible (pumping 100 true) = true ∧
    (pumpBox [{ pumping 100 true with outs := [⟨1, 0, 0, 0, []⟩] }]).opVisible { pumping 100 true with outs := [⟨1, 0, 0, 0, []⟩] } = false := by
  constructor
  · have h : (0 : Nat) < (pumpBox [pumping 100 true]).nowAt (clusterOf 0) := Nat.lt_of_lt_of_le Nat.zero_lt_one (Nat.le_add_right 1 _)
    simp only [State.opVisible, Bool.and_eq_true, decide_eq_true_eq]
    exact ⟨h, rfl⟩
  · show (_ && false) = false
    exact Bool.and_false _

/-- A group of two devices, this one its first member, the other reachable; group 1 is none. -/
def grouped (v : Lane) : State :=
  ctlBox v fun s => { s with
    groups := [(0, 0x20001, 0x1000)], mem := [⟨0x1002, 1⟩], partitions := [{ num := 0, reach := [true, true] }]
    ports := [{ num := 3, state := 2 }], now := 1 }

theorem wit_CollectiveJoins : (grouped 4).Issuing ∧ (0 : BitVec 2) ≠ 3 ∧ (grouped 4).cur.streamTag 0 = 0 ∧ (grouped 4).Some .always ∧
    (grouped 4).Low .always 0 ∧ (¬ ∃ l, l < 32 ∧ (grouped 4).passing (.pos 0) l = true) ∧ 2 ^ 57 ≤ (0x200000000000000 : Lane).toNat ∧
    (0x1000000000001 : Lane).toNat / 2 ^ 48 % 2 ^ 9 ≠ 0 ∧ (0 : Lane).toNat % 2 ^ 32 = 0 ∧ (0x10000000 : Lane).toNat % 2 ^ 32 ≤ 2 ^ 28 ∧
    2 ^ 28 < (0x10000001 : Lane).toNat % 2 ^ 32 ∧ (grouped 4).grpRefused 1 0 = true ∧
    (∀ r ∈ (grouped 4).collRanges ⟨.always, 0, 63, 63, 2, ⟨0, 0, 3, 0⟩⟩ 0x1000000000004, (grouped 4).peerIn 0 r.2.1 r.2.2 = none) ∧
    ((grouped 4).openOps 2 4).length < 64 ∧ (1 : Nat) ≠ grpRank ((grouped 4).groupEntry 0) :=
  ⟨⟨_, rfl⟩, by decide, by decide, ⟨0, by decide⟩, ⟨by decide, by decide, by decide⟩, by decide, by decide, by decide, by decide, by decide,
    by decide, by decide, by decide, by decide, by decide⟩

theorem wit_CollectiveJoins_member : (grouped 4).grpRefused 0 0 = false := by decide

theorem wit_CollectiveJoins_clear : (ctlBox 4).Clear (offRegs 63 ++ offRegs 63 ++ [plain 2]) [] := ctlBox_clear 4 _ _ (by decide)

theorem wit_CollectiveJoins_fence : (grouped 4).fenceMet (grouped 4).cur 3 = true := by
  have h : (0 : Nat) < (grouped 4).nowAt (clusterOf (grouped 4).cur.core) := Nat.lt_of_lt_of_le Nat.zero_lt_one (Nat.le_add_right 1 _)
  simp only [State.fenceMet, Bool.and_eq_true, Bool.or_eq_true, decide_eq_true_eq]
  exact ⟨⟨⟨⟨by decide, by decide⟩, .inr (by decide)⟩, .inr ⟨by decide, h⟩⟩, .inr ⟨by decide, h⟩⟩

/-- A collective of three members that has heard from one; a pump that has asked for a unit. -/
def hearing : EngineOp := { uid := 5, kind := .coll 0 0, members := 3, count := 1, heard := [(0, [0, 0, 0, 0])], since := 4 }

theorem wit_CollectiveHears : (operating hearing).op? 5 = some hearing ∧ hearing.done = false ∧ hearing.ready = false ∧
    (∀ h ∈ hearing.heard, h.1 ≠ 2) ∧ hearing.heard.length + 1 < hearing.members ∧
    ofBytes (([16, 0, 0, 0, 0, 0, 0, 0, 0] : List Byte).take 5) = 0 + 4 * 0 + 16 * 1 ∧
    (([16, 0, 0, 0, 0, 0, 0, 0, 0] : List Byte).drop 5).length = 4 * 1 ∧
    ofBytes (([0, 0, 0, 0, 0, 9] : List Byte).take 5) ≠ 1 ∧ ofBytes (([1, 0, 0, 0, 0, 9] : List Byte).take 5) = 1 ∧
    hearing.since + 2 ^ 24 ≤ { operating hearing with now := 2 ^ 24 + 4 }.now ∧ (operating hearing).now < hearing.since + 2 ^ 24 ∧
    (operating { uid := 5, kind := .pump 0 false, asked := [⟨65535, 8, 0, 0, []⟩] }).op? 5 = some { uid := 5, kind := .pump 0 false, asked := [⟨65535, 8, 0, 0, []⟩] } ∧
    ({ uid := 5, kind := .pump 0 false, asked := [⟨65535, 8, 0, 0, []⟩] } : EngineOp).asked.find? (fun y => y.num == 65535) = some ⟨65535, 8, 0, 0, []⟩ ∧
    ({ uid := 5, kind := .pump 0 false, outs := [⟨2, 16, 0, 0, []⟩] } : EngineOp).outs.find? (fun y => y.num == 2) = some ⟨2, 16, 0, 0, []⟩ ∧
    ({ hearing with cancel := true } : EngineOp).cancel = true ∧ ({ uid := 5, outs := [⟨2, 16, 0, 0, []⟩], ready := true, status := 6 } : EngineOp).status = 6 := by decide

theorem wit_CollectiveResults : ({ uid := 5, members := 2, count := 1, heard := [(1, [1, 0, 0, 0]), (0, [2, 0, 0, 0])], rank := 1, root := 1 } :
      EngineOp).heard.Perm ((List.range 2).map fun r => (r, if r = 1 then [1, 0, 0, 0] else [2, 0, 0, 0])) ∧ (1 : Nat) < 2 :=
  ⟨List.Perm.swap .., by decide⟩

/-- A record of one team of 32 threads with 16 registers, entry 0, at address 0; of no team; and in a cooperative grid past a partition's
room. -/
def recordBytes (count size flags : Byte) : List Byte := [count, 0, 0, 0, size, 0, 16, 0, 0, 0, 0, 0, 0, 0, flags, 0] ++ List.replicate 48 0

theorem wit_LaunchRecords : (recordBytes 1 32 0).length = 64 ∧ recordOk (recordBytes 1 32 0) = true ∧ recordOk (recordBytes 0 32 0) = false ∧
    recordOk (recordBytes 1 32 8) = false := by decide

/-- The record in the first page of well memory, that page mapped; the launcher at depth 9 and 10. -/
def launching (depth : Nat) (count : Byte := 1) : State :=
  ctlBox 0 fun s => { s with
    grids := [{ uid := 3, count := 1, next := 1, size := 32, depth := depth }], contexts := [{ num := 0, state := .running }]
    record := some {}, tlb := [⟨0, none, 0, 65536, 0, 0, 0, 7, 0⟩], now := 1
    mem := (if count = 0 then [] else [⟨0, count⟩]) ++ [⟨4, 32⟩, ⟨6, 16⟩] }

theorem wit_LaunchResults : (launching 9).Issuing ∧ ((launching 9).gridOf ((launching 9).team 2)).isSome = true ∧
    (launching 9).leader 2 = some (1, 0) ∧ (launching 9).executing 0 = true ∧ guardPasses .always ((launching 9).cur.thread 0) = true ∧
    guardPasses (.pos 0) ((launching 9).cur.thread 0) = false ∧ (0 : Lane).toNat % 64 = 0 ∧ canonical 0 = true ∧
    ((launching 9).openOps 2 7).length < 64 ∧ (launching 9).translate 0 0 = (launching 9, .ok ⟨0, 0, 0, true, true, true⟩) ∧
    (⟨0, 0, 0, true, true, true⟩ : Xlat).there = true ∧ (launching 9).poisonAt 0 64 = false ∧ (∀ k ∈ (launching 9).skeins, k.waits = []) ∧
    ((launching 9).ctx 0).dbg.tren = 0 :=
  ⟨⟨_, rfl⟩, by decide, by decide, by decide, by decide, by decide, by decide, by decide, by decide, rfl, by decide, by decide, by decide, by decide⟩

theorem wit_LaunchResults_record : (launching 9).load 0 0 64 = recordBytes 1 32 0 ∧ (launching 9 0).load 0 0 64 = recordBytes 0 32 0 := by
  constructor <;> decide

/-- The record's last granule past correction. -/
theorem wit_LaunchResults_poisoned : { launching 9 with poisoned := [7] }.poisonAt 0 64 = true ∧ { launching 9 with poisoned := [8] }.poisonAt 0 64 = false ∧
    { launching 9 with poisoned := [7] }.translate 0 0 = ({ launching 9 with poisoned := [7] }, .ok ⟨0, 0, 0, true, true, true⟩) := ⟨by decide, by decide, rfl⟩

theorem wit_LaunchResults_leader : { launching 9 with issue := { (launching 9).issue with mask := 0xFFFFFFFE } }.leader 2 = some (1, 0) ∧
    { launching 9 with issue := { (launching 9).issue with mask := 0xFFFFFFFE } }.executing 0 = false := by decide

theorem wit_LaunchResults_fence : (launching 9).fenceMet (launching 9).cur 2 = true := by
  have h : (0 : Nat) < (launching 9).nowAt (clusterOf (launching 9).cur.core) := Nat.lt_of_lt_of_le Nat.zero_lt_one (Nat.le_add_right 1 _)
  simp only [State.fenceMet, Bool.and_eq_true, Bool.or_eq_true, decide_eq_true_eq]
  exact ⟨⟨⟨⟨by decide, by decide⟩, .inr (by decide)⟩, .inr ⟨by decide, h⟩⟩, .inl (by decide)⟩

/-- A waiting `gridgrow` by 4, alone and behind an older one; a count that reaches the limit and one past it. -/
theorem wit_GridGrowth : (box .e32).Issuing ∧ (box .e32).Clear (src16Regs (.imm 3)) [4] ∧ (box .e32).cur.conductor = false ∧
    (ctl fun k => { k with conductor := true }).cur.conductor = true ∧ (box .e32).growAmount .always (.imm 0) ≠ 0 ∧
    (box .e32).growAmount .always (.reg 2) = 0 ∧ ((waitingOn (.gridgrow 4 0) (.gridgrow .always 4 (.imm 3))).cur.wait? 7).isSome ∧
    ((waitingOn (.gridgrow 4 0) (.gridgrow .always 4 (.imm 3))).gridOf ((waitingOn (.gridgrow 4 0) (.gridgrow .always 4 (.imm 3))).team 2)).isSome ∧
    (waitingOn (.gridgrow 4 0) (.gridgrow .always 4 (.imm 3))).growAhead 0 7 = false ∧
    (waitingOn (.gridgrow 4 0) (.gridgrow .always 4 (.imm 3))).growAhead 0 8 = true ∧ 0xFFFFFB + 4 ≤ 0xFFFFFF ∧ ¬ 0xFFFFFC + 4 ≤ 0xFFFFFF :=
  ⟨box_issuing _, box_clear _ _ _ (by decide), by decide, by decide, by decide, by decide, by decide, by decide, by decide, by decide, by decide, by decide⟩

/-- A configured device whose context runs with one grid of 40 threads to a team; a context that starts. -/
def pendingBox (gs : List Grid) (st : CtxState := .running) : State :=
  { State.reset with record := some { mode := 1 }, contexts := [{ num := 0, state := st, saveSize := 0x1000000 }], grids := gs, idCtr := 9 }

def teamGrid : Grid := { uid := 3, count := 2, size := 40, entry := 0x100, barriers := 2 }

theorem wit_DispatchPlaces : (∀ c ∈ (pendingBox [teamGrid]).contexts, c.part = 0 → c.state ≠ .starting) ∧
    (∀ g ∈ (pendingBox [{ teamGrid with next := 2 }]).grids, (pendingBox [{ teamGrid with next := 2 }]).pending 0 g = false) ∧
    (pendingBox [teamGrid]).nextGrid 0 = some teamGrid ∧ (pendingBox [teamGrid]).grid? 3 = some teamGrid ∧ teamGrid.coop = false := by decide

theorem wit_DispatchPlaces_core : ((pendingBox [teamGrid]).coreFor teamGrid).isSome = true := by decide +kernel

theorem wit_ConductorPlaced : ((pendingBox []).ctx 0).state ≠ .starting ∧ ((pendingBox [] .starting).ctx 0).state = .starting ∧
    (∃ x ∈ (pendingBox [] .starting).contexts, x.num = 0) ∧
    ((pendingBox [] .starting).chooseCore 0 (fun _ => 0) (fun x => ((pendingBox [] .starting).conductorQuad x).isSome)).isSome = true :=
  ⟨by decide, by decide, ⟨_, List.mem_singleton.mpr rfl, rfl⟩, by decide +kernel⟩

/-- A skein with every thread exited, alone in its team and not; a grid with all its teams gone, and one with a team left. -/
def gone (mate : Bool) : State :=
  let s := memBox fun k => { k with threads := List.replicate 32 {} }
  { s with skeins := if mate then s.skeins ++ [{ uid := 11, team := 2 }] else s.skeins }

def ended (g : Grid) : State :=
  { State.reset with
    now := 5, grids := [g], contexts := [{ num := 0, state := .running, root := 0 }], ops := [{ uid := 5, kind := .launch, tl := 7 }]
    tlb := [⟨0, none, 0, 65536, 0, 0, 0x10000, 7, 0⟩] }

theorem wit_Retirement : (gone true).drained (gone true).cur = true ∧ (gone false).drained (gone false).cur = true ∧
    (memBox id).drained (memBox id).cur = false ∧ (∃ x ∈ (gone true).grids, x.ctx = (gone true).cur.ctx) ∧
    (∃ x ∈ (gone true).skeins, x.team = 2 ∧ x.uid ≠ 1) ∧ (∀ x ∈ (gone false).skeins, x.team = 2 → x.uid = 1) ∧
    (ended { uid := 3, op := 5, count := 1, next := 1 }).spent { uid := 3, op := 5, count := 1, next := 1 } = true ∧
    (ended { uid := 3, op := 5, count := 2, next := 1 }).spent { uid := 3, op := 5, count := 2, next := 1 } = false ∧
    ((ended {}).op? 5).isSome ∧ ((ended {}).ctx 0).dbg.tren = 0 ∧ (∀ x ∈ (ended {}).seeps, x.grid ≠ 3) ∧ (∀ k ∈ (ended {}).skeins, k.waits = []) ∧
    (4 : Nat) < (ended { uid := 3, op := 5, count := 1, next := 1, cAddr := 120, cancelled := true, word := some 4 }).now ∧
    (ended { uid := 3, op := 5, count := 1, next := 1, cAddr := 120, cancelled := true, word := some 4 }).spent
      { uid := 3, op := 5, count := 1, next := 1, cAddr := 120, cancelled := true, word := some 4 } = true ∧
    (ended { uid := 3, op := 5, count := 1, next := 1, failed := true }).spent { uid := 3, op := 5, count := 1, next := 1, failed := true } = true :=
  ⟨by decide, by decide, by decide, ⟨_, List.mem_singleton.mpr rfl, rfl⟩, ⟨{ uid := 11, team := 2 }, by decide, rfl, by decide⟩, by decide, by decide,
    by decide, by decide, by decide, by decide, by decide, by decide, by decide, by decide⟩

/-- A completion word at the last aligned place of a line; written, and not visible yet. -/
theorem wit_CompletionWord :
    (ended { uid := 3, op := 5, count := 1, next := 1, cAddr := 120 }).spent { uid := 3, op := 5, count := 1, next := 1, cAddr := 120 } = true ∧
    (ended { uid := 3, op := 5, count := 1, next := 1, cAddr := 120 }).translate 0 120 =
      (ended { uid := 3, op := 5, count := 1, next := 1, cAddr := 120 }, .ok ⟨0, 0, 0x10078, true, true, true⟩) ∧
    (⟨0, 0, 0x10078, true, true, true⟩ : Xlat).there = true ∧ (⟨0, 0, 0x10078, true, true, true⟩ : Xlat).key % 128 + 8 ≤ 128 ∧
    (ended {}).writtenKey (0x10078 / 128) = (ended {}).keyOf 0 (0x10078 / 128) ∧ (ended {}).now ≤ 5 ∧ (ended {}).MemOk :=
  ⟨by decide, rfl, by decide, by decide, by decide, by decide, rfl⟩

/-! ### Hypotheses met: alteration, the Dowser, contexts, device, partitions, waiting -/

/-- r3 becomes three times r1 in two steps, and in one. -/
def tripled : List Frag := [{ op := .add, d := 3, a := some 1, b := some 1 }, { op := .add, d := 3, a := some 3, b := some 1 }]
def tripledOnce : List Frag := [{ op := .mul, d := 3, a := some 1, imm := 3 }]

theorem wit_CandidatesAreSound : (∀ f ∈ tripled ++ tripledOnce, ∃ i, fragOf .e32 i = some f) ∧ allOf true [] tripled = true ∧
    candidateOk true .e32 tripled tripledOnce = true ∧ (∀ l, l < 32 → ((box .e32).cur.thread l).region = none) ∧ 3 ∈ writtenOf tripled := by
  refine ⟨?_, by decide, by decide, by decide, by decide⟩
  intro f h
  simp only [tripled, tripledOnce, List.cons_append, List.nil_append, List.mem_cons, List.not_mem_nil, or_false] at h
  rcases h with rfl | rfl | rfl
  · exact ⟨.add .always 3 1 1 .ident, rfl⟩
  · exact ⟨.add .always 3 3 1 .ident, rfl⟩
  · exact ⟨.mulImm .always 3 1 3, rfl⟩

/-- The words of both. -/
def tripledWords : List Word := [encode (.add .always 3 1 1 .ident) |>.headD 0, encode (.add .always 3 3 1 .ident) |>.headD 0]
def onceWords : List Word := encode (.mulImm .always 3 1 3)

def heated (st : HeatState) (clean : Nat) (g : Option Ghost) : Heat :=
  { core := 0, ctx := 0, pc := 0x104, words := tripledWords, es := .e32, count := 9, start := 0, state := st, swatches := [[5]], cand := onceWords
    clean := clean, guard := g }

def warm (h : Heat) : State := { box .e32 with heats := [h] }

/-- A ghost run of r1 = 1 that left 3, and one that left 4. -/
def ghostly (v : Lane) : Ghost := { inputs := [(1, List.replicate 32 1)], results := [(3, List.replicate 32 v)], lanes := 1 }

theorem wit_AlterationSteps_search : (warm (heated .searching 0 none)).heats.find?
      (fun h => h.core == 0 && h.pc == 0x104 && h.state == .searching && decide (h.ghosts < 2 ^ 16)) = some (heated .searching 0 none) ∧
    (heated .searching 0 none).accepts (altSwn ((warm (heated .searching 0 none)).ctx 0).altctl) onceWords = true ∧
    (∀ x ∈ (warm (heated .searching 0 none)).heats, x.accepts (altSwn ((warm (heated .searching 0 none)).ctx x.ctx).altctl) tripledWords = false) ∧
    ({ heated .searching 0 none with ghosts := 2 ^ 16 } : Heat).ghosts = 2 ^ 16 ∧ fragWords .e32 tripledWords = tripled ∧ fragWords .e32 onceWords = tripledOnce ∧
    (fragWords .e32 onceWords).length = (itemsFrom .e32 0 onceWords.length onceWords).length ∧
    (∀ h ∈ (warm (heated .counting 0 none)).heats, h.core = 0 → h.pc = 0x104 → h.state ≠ .searching) := by decide

theorem wit_AlterationSteps_agrees : ∀ r ∈ writtenOf tripled,
    (ghostRun .e32 1 [(1, List.replicate 32 5)] tripled).lane r.toNat 0 = (ghostRun .e32 1 [(1, List.replicate 32 5)] tripledOnce).lane r.toNat 0 := by
  decide

/-- The last clean run asked for, the one before it, and a difference. -/
theorem wit_AlterationSteps_baste : (warm (heated .basting 3 (some (ghostly 3)))).heats.find?
      (fun h => h.core == 0 && h.pc == 0x104 && h.state == .basting && h.guard.isSome) = some (heated .basting 3 (some (ghostly 3))) ∧
    (ghostly 3).agrees .e32 tripledOnce = true ∧ (ghostly 4).agrees .e32 tripledOnce = false ∧
    altNbaste ((warm (heated .basting 3 none)).ctx 0).altctl ≤ 7 + 1 ∧ 6 + 1 < altNbaste ((warm (heated .basting 3 none)).ctx 0).altctl := by decide

/-- A sewn block at the group's next instruction in a clause of two. -/
def sewn (parity : Bool) (g : Option Ghost := none) : Altered :=
  { core := 0, ctx := 0, pc := 0x104, id := 1, orig := tripledWords, words := onceWords, es := .e32, parity := parity, seam := g }

def sewnBox (a : Altered) : State :=
  let s := box .e32
  let hdr := encodeHeader ⟨none, none, 0, .vector, .e32, 3⟩
  { s with
    altered := [a], contexts := [{ num := 0, state := .running }]
    skeins := [{ skein hdr with threads := List.replicate 32 { pc := 0x104, exited := false, clause := some ⟨0x100, hdr, 0, 1, tripledWords ++ [0x02000000]⟩ } }] }

theorem wit_AlteredExecution : ((sewnBox (sewn true)).redirect 1).map (fun x => (x.1, x.2.1.susp, x.2.2.isRep, x.2.2.sk)) = some (sewn true, none, false, 1) ∧
    ((sewnBox (sewn false)).redirect 1).map (fun x => x.1.parity) = some false ∧ (box .e32).redirect 1 = none ∧
    ((sewnBox (sewn true)).sk? 1).isSome := by decide +kernel

theorem wit_AlteredExecution_clause :
    ((sewnBox (sewn true)).redirect 1).map (fun x => ((decodeHeader x.2.2.word).map (·.count), x.2.2.slot, x.2.2.mask, x.2.1.mask)) =
      some (some 3, 0, 0xFFFFFFFF, 0xFFFFFFFF) := by decide +kernel

theorem wit_SeamChecks : (sewnBox (sewn true (some (ghostly 3)))).altered.find? (fun a => a.core == 0 && a.pc == 0x104 && a.seam.isSome) =
      some (sewn true (some (ghostly 3))) ∧ (ghostly 3).agrees .e32 (fragWords .e32 tripledWords) = true ∧
    (ghostly 4).agrees .e32 (fragWords .e32 tripledWords) = false ∧
    (∀ a ∈ (sewnBox (sewn true)).altered, a.core = 0 → a.pc = 0x104 → a.seam = none) := by decide

/-- Before and at the next evaluation; the last but one and the last chunk of a page. -/
theorem wit_DowserSteps : (1048575 : Nat) / 2 ^ 20 = State.reset.dowserAt / 2 ^ 20 ∧ 1048576 / 2 ^ 20 ≠ State.reset.dowserAt / 2 ^ 20 ∧
    State.reset.moves = [] ∧ { State.reset with moves := [⟨0, 1, 5, 511, 0⟩] }.moves = ⟨0, 1, 5, 511, 0⟩ :: [] ∧ (State.reset.part 0).rek = false ∧
    510 + 1 < 512 ∧ 512 ≤ 511 + 1 := by decide

/-- A configured device with context 3 in a state, its block valid. -/
def owned (st : CtxState) (f : Context → Context := id) : State :=
  { State.reset with
    record := some { mode := 1 }
    contexts := [f { num := 3, state := st, saveSize := 0x100000, saveBase := 0x100000, evCap := 16 }]
    tlb := [⟨3, none, 0, 0x200000, 0, 0, 0, 7, 0⟩] }

theorem wit_ContextCommands : (owned .free).MayCommand true 3 ∧ (owned .stopped).MayCommand true 3 ∧ (owned .running).MayCommand true 3 ∧
    (owned .saved).MayCommand true 2047 ∧ (owned .lost).MayCommand true 3 ∧ ((owned .stopped).ctx 3).startOk = true ∧
    ((owned .stopped fun x => { x with root := 1 }).ctx 3).startOk = false ∧ ((owned .saved).ctx 3).dev = false ∧
    ((owned .stopped fun x => { x with vf := some (0, 0) }).ctx 3).vf ≠ none :=
  ⟨⟨by decide, .inl rfl, fun _ => by decide, by decide, by decide⟩, ⟨by decide, .inl rfl, fun _ => by decide, by decide, by decide⟩,
    ⟨by decide, .inl rfl, fun _ => by decide, by decide, by decide⟩, ⟨by decide, .inl rfl, fun _ => by decide, by decide, by decide⟩,
    ⟨by decide, .inl rfl, fun _ => by decide, by decide, by decide⟩, by decide, by decide, by decide, by decide⟩

/-- A protected partition with a locked function. -/
def lockedBox : State :=
  { owned .running (fun x => { x with vf := some (5, 0) }) with partitions := [{ num := 0, prot := true, state := .active }], tdisp := [(5, 1, [0])] }

theorem wit_CommandRefusals : (2047 : Nat) < 2048 ∧ lockedBox.locked (lockedBox.ctx 3).part = true ∧ (owned .running).locked 0 = false ∧
    State.reset.record = none ∧ (owned .running).record ≠ none ∧ ((owned .saving).ctx 3).state ∈ [CtxState.saving, .restoring, .killing] ∧
    ((owned .starting).ctx 3).state = .starting := by decide

/-- A context halting with nothing unsettled; halted, its area mapped and not. -/
theorem wit_HaltAndSave : ((owned .saving fun x => { x with halting := some 0 }).ctx 3).halting ≠ none ∧
    (owned .saving fun x => { x with halting := some 0 }).settled 3 = true ∧ ((owned .killing fun x => { x with halting := some 0 }).ctx 3).state = .killing ∧
    ((owned .saving).ctx 3).halting = none ∧ ((owned .saving fun x => { x with halted := true }).ctx 3).queued = [] ∧
    (owned .saving fun x => { x with halted := true }).recordsMiss 3
      ((owned .saving fun x => { x with halted := true }).sealImage 3 1).1 = none ∧
    (owned .saving fun x => { x with halted := true, saveBase := 0x200000 }).recordsMiss 3
      ((owned .saving fun x => { x with halted := true, saveBase := 0x200000 }).sealImage 3 1).1 = some 0x200000 := by decide +kernel

def anImage : Image :=
  { ctx := 3, key := 0, part := 0, prot := false, grids := [], teams := [], skeins := [], seeps := [], accs := [], mats := [], scratch := [], handles := []
    paused := [], records := [] }

/-- An image that finds room, and a team that finds none: no core takes 4,097 barriers. -/
def crowded : Image := { anImage with teams := [{ uid := 5, barriers := List.replicate 4097 {} }] }

theorem wit_RestoreSteps : ((owned .restoring fun x => { x with image := some anImage }).ctx 3).image = some anImage ∧
    ((owned .restoring fun x => { x with image := some anImage }).seatImage anImage).isSome = true ∧
    ((owned .saved fun x => { x with image := some anImage, dev := true }).ctx 3).dbg.att = false ∧
    (∀ g ∈ (owned .saved fun x => { x with image := some anImage, dev := true }).grids, g.prio ≠ 3) := by decide +kernel

theorem wit_RestoreSteps_none : (owned .restoring).seatImage { anImage with part := 9, teams := [{ uid := 5 }] } = none := by decide +kernel

theorem wit_FunctionSlots : (191 : Nat) < 192 ∧ (63 : Nat) < 64 ∧
    (∃ x ∈ lockedBox.tdisp, x.1 = 5 ∧ (x.2.1 = 1 ∨ x.2.1 = 2) ∧ ∃ p ∈ x.2.2, (lockedBox.part p).prot = true) ∧
    (owned .free).tdisp = [] ∧ (∀ x ∈ lockedBox.tdisp, x.1 ≠ 6) ∧ 2 ^ 15 ≤ (0x8003 : BitVec 16).toNat ∧ (0x7FFF : BitVec 16).toNat < 2 ^ 15 ∧
    (lockedBox.ctx 3).vf ≠ none ∧ (lockedBox.ctx 3).vf ≠ some (6, 0) ∧ ((owned .free).ctx 3).vf = none :=
  ⟨by decide, by decide, ⟨(5, 1, [0]), by decide, rfl, by decide, 0, by decide, by decide⟩, by decide, by decide, by decide, by decide, by decide,
    by decide, by decide⟩

/-- A partition of a device in mode 48 that has its four functions, and one that has three. -/
def functions (n : Nat) : State :=
  { State.reset with
    record := some { mode := 48 }, contexts := (List.range n).map fun i => { num := i + 4, vf := some (i, 0) } }

theorem wit_FunctionSlots_full : (functions 4).vfFull 9 ((functions 4).ctx 3).part = true ∧ (functions 3).vfFull 9 ((functions 3).ctx 3).part = false ∧
    ((functions 4).ctx 3).vf = none := by decide

theorem wit_RegisterWrites : (2047 : Nat) < 2048 ∧ (255 : Nat) < 256 ∧ (191 : Nat) < 192 ∧ (4095 : Nat) < 4096 ∧ (0 : Nat) < (owned .free).mode ∧
    (6 : Lane).toNat % 16 = 6 ∧ 0xFFF8 + 8 ≤ 0x10000 ∧ (owned .free).mem.wf = true := by decide

theorem wit_Boot : State.reset.record = none ∧ (owned .free).record ≠ none := ⟨rfl, by decide⟩

theorem wit_HostAccesses : State.reset.MemOk ∧ ([7] : List Byte) ≠ [] ∧ 2 ^ 52 - 1 + 1 ≤ 2 ^ 52 ∧ (owned .free).record ≠ none ∧
    wellTop - 1 + 1 ≤ wellTop ∧ wellTop < wellTop + 1 ∧ (owned .free).ownerOf 0 = none ∧
    { lockedBox with partitions := [{ num := 0, prot := true, state := .active, frames := [(0, 1), (0, 0), (0, 0), (0, 0)] }] }.ownerOf 0 = some 0 ∧
    lockedBox.protected 0 = true ∧ (owned .free).protected 0 = false ∧ (∀ l, (owned .free).writtenKey l = (owned .free).keyOf 0 l) :=
  ⟨rfl, by decide, by decide, by decide, by decide, by decide, by decide, by decide, by decide, by decide, fun _ => rfl⟩

/-- Two bytes over the end of a protected partition's only frame: the first is shut, the second in no frame of it. -/
theorem wit_HostAccesses_frames :
    let s := { lockedBox with partitions := [{ num := 0, prot := true, state := .active, frames := [(0, 1), (0, 0), (0, 0), (0, 0)] }] }
    s.ownerOf ((2 ^ 21 - 1) / 2 ^ 21) = some 0 ∧ (s.part 0).prot = true ∧ s.ownerOf (2 ^ 21 / 2 ^ 21) = none := by decide

/-- The last byte of host memory; a write up to the end of a frame that no partition owns; an invalidation of a context; a held fault. -/
theorem wit_HostStepsComplete : (owned .free).MemOk ∧ 2 ^ 52 - 1 + ([7] : List Byte).length ≤ 2 ^ 52 ∧ (owned .free).record ≠ none ∧
    2 ^ 21 - 1 + ([7] : List Byte).length ≤ ((2 ^ 21 - 1) / 2 ^ 21 + 1) * 2 ^ 21 ∧ 2 ^ 21 ≤ wellTop ∧ (owned .free).ownerOf ((2 ^ 21 - 1) / 2 ^ 21) = none ∧
    (0x80001003 : Lane).getLsbD 31 = true ∧ (0x80001003 : Lane).toNat / 2 ^ 12 % 4 = 1 ∧
    ({ owned .free with invCtl := 0x80001003 } : State).invCtl.getLsbD 31 = true ∧ (owned .free).accesses = [] ∧ 2 ^ 32 - 2 < 2 ^ 32 - 1 ∧
    ((owned .running fun x => { x with faults := [{ seq := 2 ^ 32 - 2, kind := 0, addr := 64, bad := false, sk := some 1 }] }).fault? 3 (2 ^ 32 - 2)).map
      (·.acc) = some none := ⟨rfl, by decide⟩

/-- Scopes 0 to 3; the last function and the one past it; an access still open and none. -/
theorem wit_Invalidations : (0x80000003 : Lane).getLsbD 31 = true ∧ (0x7FFFFFFF : Lane).getLsbD 31 = false ∧ (0x80003000 : Lane).toNat / 2 ^ 12 % 4 = 3 ∧
    191 < (0x80C02000 : Lane).toNat / 2 ^ 16 % 256 ∧ (0x80BF2000 : Lane).toNat / 2 ^ 16 % 256 ≤ 191 ∧
    (∀ a ∈ { owned .free with invCtl := 0x80000003 }.accesses, { owned .free with invCtl := 0x80000003 }.invOpen a = false) ∧
    { inFlight (acc (.load false) .global [⟨0, 65535, 0, 0, 0, 0⟩]) with invCtl := 0x80000000, invFrom := 8, invGone := [(0, 0, 65536)] }.invOpen
      (acc (.load false) .global [⟨0, 65535, 0, 0, 0, 0⟩]) = true ∧
    { inFlight (acc (.load false) .global [⟨0, 65536, 0, 0, 0, 0⟩]) with invCtl := 0x80000000, invFrom := 8, invGone := [(0, 0, 65536)] }.invOpen
      (acc (.load false) .global [⟨0, 65536, 0, 0, 0, 0⟩]) = false := by decide

/-- A skein that waits for fault 6, an engine's operation that does. -/
def faulted (f : HeldFault) : State := { waitingOn (.replay 6) (.nop .always) with contexts := [{ num := 0, faults := [f] }], ops := [{ uid := 5, held := some 6 }] }

theorem wit_FaultAnswers : ((faulted ⟨6, 0, 64, false, some 1, none, none, none⟩).ctx 0).held = none ∧
    (faulted ⟨6, 0, 64, false, some 1, none, none, none⟩).fault? 0 6 = some ⟨6, 0, 64, false, some 1, none, none, none⟩ ∧
    ((faulted ⟨6, 0, 64, false, some 1, none, none, none⟩).cur.replayWait 6).isSome ∧
    (faulted ⟨6, 0, 64, false, none, some 5, none, none⟩).fault? 0 6 = some ⟨6, 0, 64, false, none, some 5, none, none⟩ ∧
    ((faulted ⟨6, 0, 64, false, none, some 5, none, none⟩).op? 5).isSome ∧ (6 : BitVec 32) ≠ 0xFFFFFFFF ∧
    (∀ f ∈ ((faulted ⟨6, 0, 64, false, some 1, none, none, none⟩).ctx 0).faults, f.seq ≠ (7 : BitVec 32).toNat) ∧
    (faulted ⟨6, 0, 64, false, none, none, none, some 3⟩).fault? 0 6 = some ⟨6, 0, 64, false, none, none, none, some 3⟩ ∧
    ((faulted ⟨6, 0, 64, false, none, none, none, some 3⟩).grid? 3).isSome := by decide

/-- A record of the event ring held, and a write of a save area. -/
theorem wit_FaultAnswers_writes :
    (owned .running fun x => { x with held := some ⟨0, 0x1000, [1]⟩ }).ctx 3 = { num := 3, state := .running, saveSize := 0x100000, saveBase := 0x100000
                                                                                 evCap := 16, held := some ⟨0, 0x1000, [1]⟩ } ∧
    ((owned .saving fun x => { x with held := some ⟨1, 0x1000, []⟩ }).ctx 3).held = some ⟨1, 0x1000, []⟩ ∧
    ((owned .saving fun x => { x with held := some ⟨1, 0x1000, []⟩ }).ctx 3).queued = [] ∧
    ((owned .saving fun x => { x with held := some ⟨1, 0x1000, []⟩ }).ctx 3).state = .saving := by decide

/-- Partition 0 in a state, with a frame on die 0, under a sweep or not. -/
def parted (st : PartState) (rek : Bool := false) (ctx : CtxState := .free) (f : Partition → Partition := id) : State :=
  { owned ctx with
    record := some { mode := 1, clocks := [(4, 20)] }
    partitions := [f { num := 0, state := st, rek := rek, frames := [(3, 1), (0, 0), (0, 0), (0, 0)] }] }

theorem wit_PartitionCommands : (0 : Nat) < 1 ∧ (parted .idle).locked 0 = false ∧ ((parted .idle).part 0).state = .idle ∧
    (∃ f ∈ ((parted .idle).part 0).frames, f.2 ≠ 0) ∧ ((parted .active true).part 0).rek = true ∧ ((parted .active).part 0).state = .active ∧
    (∃ c ∈ (parted .active false .stopped).contexts, c.part = 0 ∧ c.state ≠ .free) ∧
    (∀ c ∈ (parted .active).contexts, c.part = 0 → c.state = .free) ∧ (20 : Lane).toNat ≤ 26 ∧ 20 < (21 : Lane).toNat ∧ (3 : Lane).toNat < 4 ∧
    ((parted .active true).part 0).sweepDie < 4 ∧ (parted .active true).MemOk ∧ ((parted .idle false .free fun p => { p with prot := true }).part 0).prot = true :=
  ⟨by decide, by decide, by decide, ⟨(3, 1), by decide, by decide⟩, by decide, by decide,
    ⟨_, List.mem_singleton.mpr rfl, by decide, by decide⟩, by decide, by decide, by decide, by decide, by decide, rfl, by decide⟩

/-- A protected active partition, its session open or not, its deadline at 70,000. -/
def tenanted (session : Bool) (now : Nat) : State :=
  { parted .active false .running (fun p => { p with prot := true, session := session, hb := 65536, slice := 65536, deadline := 70000 }) with now := now }

theorem wit_Sessions : ((tenanted false 0).part 0).prot = true ∧ ((tenanted false 0).part 0).state = .active ∧ ((tenanted false 0).part 0).session = false ∧
    2 ^ 16 ≤ 65536 ∧ 1073741824 ≤ 2 ^ 30 ∧ (tenanted true 69999).now < (tenanted true 69999).deadlineOf ((tenanted true 69999).part 0) ∧
    (tenanted true 70000).deadlineOf ((tenanted true 70000).part 0) ≤ (tenanted true 70000).now ∧ ((tenanted true 0).part 0).idleSince = none ∧
    ((tenanted true 0).part 0).sliceAt < 65536 / 65536 * 65536 ∧ 65535 / 65536 * 65536 ≤ ((tenanted true 0).part 0).sliceAt ∧
    (191 : Nat) < 192 ∧ (tenanted true 0).tdispOf 191 = 0 ∧ lockedBox.tdispOf 5 = 1 ∧
    2 ≤ ({ lockedBox with tdisp := [(5, 2, [])] }.tdispOf 5).toNat := by decide

theorem wit_Attestation : (1 : Nat) ≤ 4 ∧ (4 : Nat) < 5 ∧ (parted .idle).record.isSome ∧ State.reset.record = none ∧
    ((Config.ownLeaf [] = true) ∨ (Config.ownLeaf [] = false)) := ⟨by decide, by decide, by decide, rfl, by cases Config.ownLeaf [] <;> simp⟩

/-- A vote that all members have reached; one that lanes 0 to 15 have, while the others stand at another, or run. -/
def voting (low : Bool) (others : Option Nat) : State :=
  let w (n : Nat) (m : Mask) (pc : Lane) : Wait :=
    { id := n, kind := .sync 0xFFFFFFFF, lanes := m, instr := .vote .always .or 0 .full 0, issue := { (memBox id).issue with pc := pc }, es := .e32, since := n }
  memBox fun k => { k with
    waits := if low then [w 7 0xFFFF 0x104, w 8 0xFFFF0000 0x110] else [w 7 0xFFFFFFFF 0x104]
    threads := (List.range 32).map fun l => { (k.thread l) with waiting := if low && decide (16 ≤ l) then others else some 7 } }

theorem wit_WaitingEnds : ((voting false none).cur.wait? 7).map (fun w => ((voting false none).cur.allThere w, (voting false none).cur.syncReads w)) =
      some (true, []) ∧ ((voting true none).cur.wait? 7).map (fun w => (voting true none).cur.allThere w) = some false ∧
    (voting true (some 8)).deadlocked (voting true (some 8)).cur = true ∧ (voting true none).deadlocked (voting true none).cur = false ∧
    (voting true (some 8)).cur.handler = none ∧
    ((voting false none).cur.wait? 7).map (fun w => (voting false none).cur.syncPoison w) = some false := by decide +kernel

/-- A `redux` that all members have reached, lane 31 of what it reads past correction. -/
def spoiled : State :=
  memBox fun k => { k with
    regs := [{}, {}, { poison := 0x80000000 }]
    waits := [{ id := 7, kind := .sync 0xFFFFFFFF, lanes := 0xFFFFFFFF, instr := .redux .always .add 4 2 .full 0 false false false
                issue := (memBox id).issue, es := .e32, since := 7 }]
    threads := (List.range 32).map fun l => { (k.thread l) with waiting := some 7 } }

theorem wit_WaitingEnds_poison : (spoiled.cur.wait? 7).map (fun w => (spoiled.cur.allThere w, spoiled.cur.syncPoison w)) = some (true, true) := by
  decide +kernel

/-- A skein idle for its 1,024 ticks and for one less, at an instruction. -/
def idling (now : Nat) : State := { sewnBox (sewn true) with contexts := [{ num := 0, state := .running, wdog := 1 }], now := now }

theorem wit_WaitingEnds_watchdog : (idling 1024).watchdogDue (idling 1024).cur = true ∧ (idling 1023).watchdogDue (idling 1023).cur = false ∧
    (match (idling 1024).plan (idling 1024).cur with | .go _ i => decide (i.sk = 1) | _ => false) = true ∧
    ([⟨4, 0, [], 0, 0, 0, 0, 0, 0, 0, 0, 0xFF, 0, 0⟩] : List Sample).find? (fun y => y.id == 4) = some ⟨4, 0, [], 0, 0, 0, 0, 0, 0, 0, 0, 0xFF, 0, 0⟩ ∧
    (∀ y ∈ ([⟨4, 0, [], 0, 0, 0, 0, 0, 0, 0, 0, 0xFF, 0, 0⟩, ⟨5, 0, [], 0, 0, 0, 0, 0, 0, 0, 0, 0xFF, 0, 1⟩] : List Sample),
      y.ctx = 0 → y.left = 0 → y = ⟨4, 0, [], 0, 0, 0, 0, 0, 0, 0, 0, 0xFF, 0, 0⟩ ∨ 0 < y.at') ∧
    (⟨4, 0, [], 1, 0, 0, 0, 0, 0, 0, 0, 0xFF, 0, 0⟩ : Sample).left ≠ 0 := by decide +kernel

/-! ### Hypotheses met: the domain, power, errors, debugging -/

/-- A device of a domain of two, not its master, with port 17 in a state. -/
def linked (p : Port) : State :=
  { State.reset with record := some { mode := 1, domain := 5, ports := 1 }, ports := [{ p with num := 17 }], timeLock := true }

def upPort : Port := { state := 2, far := 9, expect := 100, owed := some 0 }

/-- A flit from device 9, its CRC right or one bit of it wrong. -/
def flit (kind : BitVec 4) (seq : BitVec 16) (ok : Bool) : Flit :=
  let f := sealFlit ⟨kind, 3, seq, 0, [0, 0, 0, 0], 5, 9, [], 0⟩
  if ok then f else { f with crc := f.crc ^^^ 1 }

/-- Every state a port leaves, held and not; a change that the states do not allow. -/
theorem wit_PortStates : (17 : Nat) < 18 ∧ ((linked upPort).port 17).state = 2 ∧ ((linked { state := 3, hold := true }).port 17).state = 3 ∧
    ((linked { state := 1 }).port 17).state ≠ 0 ∧ ((linked { state := 1 }).port 17).hold = false ∧
    ¬ (((linked { state := 3, hold := true }).port 17).state = 3 ∧ ((linked { state := 3, hold := true }).port 17).hold = false) := by decide

/-- The seq expected; the furthest one taken for one accepted before, and the nearest taken for a later one. -/
theorem wit_FlitsReceived : ((linked upPort).port 17).state = 2 ∧ (linked {}).port 17 ≠ (linked upPort).port 17 ∧
    (flit 9 100 true).seq = ((linked upPort).port 17).expect ∧ 3 ≤ (flit 3 100 true).kind.toNat ∧ (flit 9 100 true).kind.toNat ≤ 9 ∧
    ((linked upPort).port 17).freed.length = 4 ∧ (flit 9 100 true).freed.length = 4 ∧
    (((linked upPort).port 17).expect - (flit 9 (100 - 32767) true).seq).toNat < 2 ^ 15 ∧
    2 ^ 15 ≤ (((linked upPort).port 17).expect - (flit 9 (100 - 32768) true).seq).toNat ∧ (flit 9 99 false).seq ≠ ((linked upPort).port 17).expect ∧
    ((linked upPort).port 17).owed ≠ none ∧ ((linked { upPort with owed := none }).port 17).owed = none ∧ (flit 0 0 true).kind = 0 ∧
    ((linked upPort).port 17).out = [] ∧ ((linked upPort).port 17).lost = [] ∧ ((linked { upPort with asking := true }).port 17).asking = true := by decide

/-- A CRC is right in the flit it was computed for, and wrong with one bit of it changed. -/
theorem sealed_ok (f : Flit) (h : f.payload.length ≤ 228) : flitOk (sealFlit f) = true := by
  show (decide (f.payload.length ≤ 228) && crc32 (flitBytes f) == crc32 (flitBytes f)) = true
  rw [beq_self_eq_true, Bool.and_true, decide_eq_true h]

theorem damaged_not_ok (f : Flit) : flitOk { sealFlit f with crc := (sealFlit f).crc ^^^ 1 } = false := by
  show (decide (f.payload.length ≤ 228) && crc32 (flitBytes f) ^^^ 1 == crc32 (flitBytes f)) = false
  generalize crc32 (flitBytes f) = c
  have h : c ^^^ 1 ≠ c := fun h => by
    have := congrArg (·.getLsbD 0) h
    simp at this
  rw [beq_eq_false_iff_ne.mpr h, Bool.and_false]

theorem wit_FlitsReceived_crc (kind : BitVec 4) (seq : BitVec 16) : flitOk (flit kind seq true) = true ∧ flitOk (flit kind seq false) = false :=
  ⟨sealed_ok _ (Nat.zero_le _), damaged_not_ok _⟩

/-- The fifteenth and the sixteenth request for one seq. -/
theorem wit_Retries : ((linked { upPort with asked := 7, rounds := 14 }).port 17).state = 2 ∧
    ((linked { upPort with asked := 7, rounds := 14 }).port 17).rounds + 1 < 16 ∧ 16 ≤ ((linked { upPort with asked := 7, rounds := 15 }).port 17).rounds + 1 ∧
    ((linked {}).port 17).state ≠ 2 := by decide

/-- Window 0 takes device 9's loads, stores and atomics on the first page of context 3. -/
def exporting (perm : BitVec 3) : State :=
  { linked upPort with
    contexts := [{ num := 3, state := .running }], tlb := [⟨3, none, 0, 65536, 0, 0, 0x10000, perm, 0⟩]
    windows := [(0, 0x000000090003000F, 0, 65536)] }

/-- The last eight bytes of the window and one byte past them; a page the window maps that may be read only; one with no translation. -/
theorem wit_PeerRequests : (exporting 7).windowAllows ((exporting 7).window 0) 9 65528 8 .atomic = true ∧
    (exporting 7).windowAllows ((exporting 7).window 0) 9 65529 8 .load = false ∧ (exporting 7).windowAllows ((exporting 7).window 0) 8 0 8 .load = false ∧
    (exporting 7).MemOk ∧
    (∃ x, (exporting 7).translate 3 65528 = (exporting 7, .ok x) ∧ PeerUse.permits .atomic x = true ∧ x.there = true ∧
      (exporting 7).poisonAt x.key 8 = false) ∧
    (∃ x, (exporting 1).translate 3 0 = (exporting 1, .ok x) ∧ PeerUse.permits .store x = false ∧
      { exporting 1 with poisoned := [x.key / 8] }.poisonAt x.key 8 = true) ∧
    ((exporting 7).translate 3 65536).2 = .error false ∧ (∀ l, (exporting 7).writtenKey l = (exporting 7).keyOf 0 l) :=
  ⟨by decide, by decide, by decide, rfl, ⟨_, rfl, by decide, by decide, by decide⟩, ⟨_, rfl, by decide, by decide⟩, by decide +kernel, fun _ => rfl⟩

/-- A group entry past the last; a collective of group 3 under way, and none; the last tick without a time flit. -/
theorem wit_DomainTime : (linked upPort).isMaster = false ∧ State.reset.isMaster = true ∧ ((linked upPort).port 17).timeAt + 256 ≤ { linked upPort with now := 256 }.now ∧
    255 < ((linked upPort).port 17).timeAt + 256 ∧ (linked upPort).timeLock = true ∧ (linked upPort).timeSeen + 2 ^ 16 ≤ 65536 ∧
    ¬ (linked upPort).timeSeen + 2 ^ 16 ≤ 65535 ∧ (1023 : Nat) < 1024 ∧ (1024 : Nat) ≤ 1024 ∧
    (∃ o ∈ { linked upPort with ops := [{ uid := 5, kind := .coll 1 0, group := 3 }] }.ops, o.group = 3 ∧ o.done = false ∧ ∃ op fmt, o.kind = .coll op fmt) ∧
    { linked upPort with ops := [{ uid := 5, kind := .coll 1 0, group := 3 }] }.op? 5 = some { uid := 5, kind := .coll 1 0, group := 3 } ∧
    (∀ o ∈ (linked upPort).ops, o.group = 3 → o.done = false → ∀ op fmt, o.kind ≠ .coll op fmt) := by
  refine ⟨by decide, by decide, by decide, by decide, by decide, by decide, by decide, by decide, by decide,
    ⟨_, List.mem_singleton.mpr rfl, rfl, rfl, 1, 0, rfl⟩, by decide, ?_⟩
  intro o h
  cases h

/-- A cluster with its clock on the way from code 18 to code 26, undervolting. -/
def powered (p : Power) : State := { owned .free with power := [{ p with cluster := 95 }] }

/-- The limits of PWRCTL; a window that ends, one step down and none left. -/
theorem wit_PowerSettings : (95 : Nat) < 96 ∧ (powered {}).shielded 95 = false ∧
    { powered {} with partitions := [{ num := 0, prot := true, state := .active }] }.shielded 95 = true ∧
    ((powered { target := some 26 }).powerOf 95).target = some 26 ∧ ((powered { target := some 26 }).powerOf 95).stepAt ≤ (powered {}).now ∧
    1000 ≤ (1000 : Lane).toNat % 2 ^ 12 ∧ (2400 : Lane).toNat % 2 ^ 12 ≤ 2400 ∧ ¬ (2401 : Lane).toNat % 2 ^ 12 ≤ 2400 ∧ ¬ 1000 ≤ (999 : Lane).toNat % 2 ^ 12 ∧
    (powered {}).powerAt + 100000 ≤ 100000 ∧ ((powered {}).powerOf 95).freq ≠ 0 ∧ ((powered {}).powerOf 95).target = none := by decide

/-- An error in a register of a resident skein, in scratch, and in no place of the cluster; U at 0 and above; six raises and five. -/
theorem wit_ErrorSteps : (memBox id).strikes 0 (.register 1 5 31) = true ∧ (memBox id).strikes 0 (.register 1 16 31) = false ∧
    (memBox id).strikes 0 (.register 1 5 32) = false ∧ codedTarget (.register 1 5 31) = true ∧ (memBox id).windowOver 0 = false ∧
    { powered { since := 5 } with now := 5 }.windowOver 95 = true ∧ (sewnBox (sewn true)).strikes 0 (.store 0 0x104 1 4) = true ∧
    (sewnBox (sewn true)).windowOver 0 = false ∧
    (memBox id).strikes 0 (.memory (scratchKey 0 8)) = true ∧ (memBox id).strikes 1 (.memory (scratchKey 0 8)) = false ∧
    ((memBox id).sk? 1).isSome ∧ (powered {}).undervolts 95 = true ∧ ((powered { uven := false }).undervolts 95) = false ∧
    ((powered {}).powerOf 95).since + 1000000 ≤ 1000000 ∧ ((powered { window := 16 }).powerOf 95).thr.toNat ≤ ((powered { window := 16 }).powerOf 95).window ∧
    0 < ((powered { u := 5 }).powerOf 95).u.toNat ∧ ((powered { raises := [1, 2, 3, 4, 5] }).powerOf 95).raises.length < 6 ∧
    (powered {}).telemetryAt + 10000000 ≤ 10000000 := by decide

/-- Each state a command starts from, attached and not, busy and protected. -/
theorem wit_DebugCommands : ((owned .running).ctx 3).state = .running ∧ (owned .running).protected ((owned .running).ctx 3).part = false ∧
    ((owned .running).ctx 3).dbg.busy = false ∧ ((owned .saved fun x => { x with dbg := { att := true } }).ctx 3).dbg.att = true ∧
    lockedBox.protected (lockedBox.ctx 3).part = true ∧ (lockedBox.ctx 3).dbg.step = none ∧
    ((owned .saved fun x => { x with dbg := { busy := true } }).ctx 3).dbg.busy = true ∧ ((owned .stopped).ctx 3).state ≠ .running ∧
    ((owned .stopped).ctx 3).state ≠ .saved ∧ (3 : Lane).toNat % 16 = 3 := by decide

/-- An empty context as a save leaves it, a debugger attached: the header's version 1 and context 3, the count 1, and the CRC-32 of
these 264 bytes as zlib computes it. -/
def sealed : State :=
  { owned .saved (fun x => { x with saveCnt := 1, image := some anImage, dbg := { att := true } }) with
    mem := [(0x100000, 1), (0x100002, 3), (0x1FFFC0, 1), (0x1FFFC8, 0x2F), (0x1FFFC9, 0x3B), (0x1FFFCA, 0xF4), (0x1FFFCB, 0xEE)] }

/-- The CRC's fold over numbers, each of which the kernel evaluates before the next. -/
def crcNat : List Byte → Nat → Nat
  | [], c => c
  | b :: bs, c =>
    match (crcBits 8 (BitVec.ofNat 32 c ^^^ b.setWidth 32)).toNat with
    | 0 => crcNat bs 0
    | n + 1 => crcNat bs (n + 1)

theorem crcNat_eq (bs : List Byte) (c : Word) : crcNat bs c.toNat = (bs.foldl (fun (c : Word) b => crcBits 8 (c ^^^ b.setWidth 32)) c).toNat := by
  induction bs generalizing c with
  | nil => rfl
  | cons b bs ih =>
    have h (n : Nat) : (match n with | 0 => crcNat bs 0 | m + 1 => crcNat bs (m + 1)) = crcNat bs n := by cases n <;> rfl
    rw [crcNat, h, BitVec.ofNat_toNat, BitVec.setWidth_eq, ih]
    rfl

/-- R358: the CRC-32 of the image. -/
theorem test_crc : crc32 (sealed.plainBytes 3 anImage ++ toBytes 8 1) = 0xEEF43B2F := by
  have h : sealed.plainBytes 3 anImage ++ toBytes 8 1 = [1, 0, 3] ++ List.replicate 253 0 ++ [1] ++ List.replicate 7 0 := by decide +kernel
  have n : crcNat ([1, 0, 3] ++ List.replicate 253 0 ++ [1] ++ List.replicate 7 0) 0xFFFFFFFF = 0xEEF43B2F ^^^ 0xFFFFFFFF := by decide +kernel
  rw [h, crc32, BitVec.eq_of_toNat_eq (y := 0xEEF43B2F ^^^ 0xFFFFFFFF) ((crcNat_eq _ 0xFFFFFFFF).symm.trans n)]
  rfl

theorem wit_DebugCommands_step : sealed.refuseImage 3 = none ∧ (sealed.ctx 3).state = .saved ∧ (sealed.ctx 3).dbg.att = true ∧
    (sealed.ctx 3).dbg.step = none ∧ sealed.protected (sealed.ctx 3).part = false ∧ (sealed.ctx 3).dbg.busy = false := by
  have t : sealed.areaBytes 3 ((sealed.ctx 3).saveSize.toNat - 64) 64 = some (toBytes 8 1 ++ toBytes 4 0xEEF43B2F ++ List.replicate 52 0) := by
    decide +kernel
  have c : sealed.checkOk 3 anImage (toBytes 8 1 ++ toBytes 4 0xEEF43B2F ++ List.replicate 52 0) = true := by
    have e : (toBytes 8 1 ++ toBytes 4 0xEEF43B2F ++ List.replicate 52 (0 : Byte)).take 8 = toBytes 8 1 := by decide
    rw [State.checkOk, if_neg (by decide), e, checkField, if_neg (by decide), test_crc]
    decide +kernel
  refine ⟨?_, by decide, by decide, by decide, by decide, by decide⟩
  rw [State.refuseImage, t, show (sealed.ctx 3).image = some anImage from rfl]
  simp only [c]
  decide +kernel

/-- The check can be stored; its page takes no stores. -/
theorem wit_DebugCommands_reseal : (sealed.ctx 3).image.map (·.prot) = some false ∧ 64 ≤ (sealed.ctx 3).saveSize.toNat ∧
    (sealed.areaBytes 3 (0x100000 - 64) 8).isSome ∧ (sealed.devStore 3 (0x100000 + 0x100000 - 56) (List.replicate 16 0)).isSome ∧
    { sealed with tlb := [⟨3, none, 0, 0x200000, 0, 0, 0, 1, 0⟩] }.devStore 3 (0x100000 + 0x100000 - 56) (List.replicate 16 0) = none := by decide +kernel

/-! ### Hypotheses met: words, steps, memory -/

theorem wit_EncodedWordsReadBack : (∀ es, Instr.wf es (.addsatI .always 6 4 5 .ident) = true) ∧
    encode (.addsatI .always 6 4 5 .ident) = 0x0C308280 :: [] ∧ Instr.wf .e32 (.bfxN .always 3 7 4 11) = true ∧
    encode (.bfxN .always 3 7 4 11) = 0x3C18E000 :: [0x0040B004] := ⟨by intro es; cases es <;> decide, by decide, by decide, by decide⟩

theorem wit_LegalWordsHaveOneReading : decodeWord .e16 0x0C308280 0xFFFFFFFF = .ok (.addsatI .always 6 4 5 .ident) := by decide

/-- The last scoreboard a header can name; the longest clause. -/
theorem wit_HeadersReadBack : (⟨some 11, some 0, 7, .memory, .e64, 15⟩ : Header).count ≠ 0 ∧
    (∀ f, (⟨some 11, some 0, 7, .memory, .e64, 15⟩ : Header).setA = some f ∨ (⟨some 11, some 0, 7, .memory, .e64, 15⟩ : Header).setB = some f →
      f.toNat < 12) ∧
    decodeHeader (encodeHeader ⟨some 11, some 0, 7, .memory, .e64, 15⟩) = some ⟨some 11, some 0, 7, .memory, .e64, 15⟩ ∧ decodeHeader 0 = none := by
  refine ⟨by decide, ?_, by decide, by decide⟩
  intro f h
  rcases h with h | h <;> · cases h; decide

/-- One skein of a plain grid; a conductor has no grid. -/
theorem wit_SystemRegisterValues : (7 : Nat) < 8 ∧ (box .e32).cur.conductor = false ∧ ((box .e32).gridOf ((box .e32).team (box .e32).cur.team)).isSome := by
  decide

/-- A skein with nothing under way meets every scope once its clock has started. -/
theorem wit_FenceConditions : (0 : Nat) ≤ 1 ∧ (box .e32).fenceMet (box .e32).cur 1 = true ∧ (box .e32).fenceMet (box .e32).cur 0 = true := by decide

/-- The small machine with a clause of one word under way, its skein's issue next on the agenda. -/
def aboutToIssue (w : Word) : State :=
  let hdr := hdrWord .vector .e32
  { box .e32 with
    contexts := [{ num := 0, state := .running }], agenda := [.issue 1]
    skeins := [{ skein hdr with threads := List.replicate 32 { pc := 0x104, exited := false, clause := some ⟨0x100, hdr, 0, 1, [w]⟩ } }] }

def unplanned (w : Word) : State := { aboutToIssue w with agenda := [] }

/-- `nop`, and a word of a reserved opcode, at the group's pc. -/
theorem wit_StepRunsTheDecodedInstruction :
    ((unplanned 0x02000000).sk? 1).isSome ∧ (unplanned 0x02000000).outranked (unplanned 0x02000000).cur = false ∧
    (match (unplanned 0x02000000).plan (unplanned 0x02000000).cur with
      | .go p i => i.decode == .ok (.nop .always) && p.lane == 0
      | _ => false) = true ∧
    (unplanned 0x02000000).redirect 1 = none ∧
    (match (unplanned 0x26082007).plan (unplanned 0x26082007).cur with
      | .go _ i => i.decode == .error .reserved
      | _ => false) = true := by decide +kernel

theorem wit_StepRunsTheAgenda : isEvent (.swapIn 0) = true ∧ isEvent (.nop .always) = false ∧ State.reset.agenda = [] ∧
    { State.reset with agenda := [.tick 1] }.agenda = .tick 1 :: [] ∧ State.reset.overdue = none ∧ (Act.tick 1).passes = true ∧
    State.reset.premature (.swapIn 0) = false := by decide

/-- A skein that may issue, an operation of its last issue. -/
theorem wit_StepRunsTheAgenda_premature :
    ((unplanned 0x02000000).updCur fun k => { k with issues := 3, ops := [{ id := 5, held := [4], serial := 3 }] }).premature (.sourceRelease 1 5) = true := by
  decide +kernel

/-- A step whose time has come: the Dowser's evaluation at tick 2^20. -/
theorem wit_StepRunsTheAgenda_overdue : ({ State.reset with now := 2 ^ 20, agenda := [.tick 1] } : State).overdue.isSome = true := by decide

/-- A skein at a header whose line clause level 0 holds. -/
def atHeader : State :=
  { aboutToIssue 0 with
    skeins := [{ skein 0 with threads := List.replicate 32 { pc := 0x100, exited := false } }]
    ilines := [⟨0, some 0, 0, 2, toBytes 4 (hdrWord .vector .e32).toNat ++ toBytes 4 0x02000000 ++ List.replicate 120 0, 0, 0, 0, false⟩] }

theorem wit_ClauseWordsIssue : decodeHeader (hdrWord .vector .e32) = some ⟨none, none, 0, .vector, .e32, 1⟩ ∧
    wordsAt [0x02000000] (bodyIdx 0x100 0x104) = 0x02000000 :: [] ∧ encode (.nop .always) = 0x02000000 :: [] ∧ Instr.wf .e32 (.nop .always) = true ∧
    classOk ⟨none, none, 0, .vector, .e32, 1⟩ 0x02000000 = true := by decide

theorem wit_ClauseWordsIssue_header : atHeader.mayIssue atHeader.cur = true ∧ (atHeader.pick atHeader.cur).isSome = true ∧
    (atHeader.cur.thread 0).clause = none ∧
    (match readClause (atHeader.l0Word atHeader.cur) 0x100 with
      | .ok hw h body => hw == hdrWord .vector .e32 && waitMet h atHeader.cur.flags && body == [0x02000000]
      | _ => false) = true := by decide +kernel

theorem test_step_next : (match step (aboutToIssue 0x02000000) with | .next t => t.now == 1 && (t.sk 1).issues == 1 | _ => false) = true := by
  decide +kernel

/-- Reading at both ends of what was written, and one byte past it. -/
theorem wit_MemoryReadsAfterWrites : State.reset.mem.wf = true ∧ (State.reset.mem.writeN 8 [1, 2]).wf = true ∧
    (State.reset.mem.writeN 8 [1, 2]).read 9 = 2 ∧ (State.reset.mem.writeN 8 [1, 2]).read 10 = unlisted := by decide

theorem wit_StoredBytesLoad : State.reset.MemOk ∧ 8 + 4 ≤ 12 ∧ State.reset.MemOk := ⟨rfl, by decide, rfl⟩

theorem wit_StepsKeepTheMemoryForm : ∃ t, State.reset.MemOk ∧ step { State.reset with agenda := [.tick 1] } = .next t := ⟨_, rfl, rfl⟩

/-! ### Hypotheses met: memory, queues and barriers in their further forms -/

/-- Two lanes of a seep store inside one tile, into the tile that is live and into one that is not; the last byte of a tile. -/
def seepStore (at' : Nat) : Access := acc .seepStore (.seep 9) [⟨0, 0, at', 3, 0, 0⟩, ⟨1, 4, at' + 4, 5, 0, 0⟩]

theorem wit_SeepStorePerforms : (tiled 0 (seepStore 0)).Due (seepStore 0) ∧ (inFlight (seepStore 4084)).Due (seepStore 4084) ∧ (tiled 0 (seepStore 0)).MemOk ∧
    (∀ y ∈ (tiled 0 (seepStore 0)).accesses, y.id = (seepStore 0).id → y = seepStore 0) ∧ (∃ j ∈ (tiled 0 (seepStore 0)).seeps, j.uid = 9) ∧
    (∀ x ∈ (seepStore 4084).lanes, x.addr / 4096 = 4084 / 4096 ∧ x.addr % 4096 + 8 ≤ 4096) ∧
    (((tiled 0 (seepStore 0)).seepInst 9).tile 0).state = .live ∧ (((tiled 0 (seepStore 0)).seepInst 9).tile 0).valid.getLsbD 0 = true ∧
    (((inFlight (seepStore 4084)).seepInst 9).tile 0).state = .empty :=
  ⟨⟨by decide, rfl⟩, ⟨by decide, rfl⟩, rfl, by decide, ⟨_, List.mem_singleton.mpr rfl, rfl⟩, by decide, by decide, by decide, by decide⟩

theorem wit_PlacesFrame : ∃ r, (memBox id).formAll scratchLoad ((memBox id).memTag scratchLoad) ((memBox id).memLanes scratchLoad) = (memBox id, r) :=
  ⟨_, rfl⟩

/-- Lines of two owners in the range of a handle and one past it, lanes none of which passes. -/
theorem wit_ResidencyIdle : (residBox 0x10000 []).Issuing ∧ (residBox 0x10000 []).Clear [plain 2, plain 3] [1] ∧ (residBox 0x10000 []).Room false false ∧
    (7 : Reg).toNat < 8 ∧ (∀ l, l < 32 → (residBox 0x10000 []).passing (.pos 0) l = false) := by
  refine ⟨⟨_, rfl⟩, wit_ResidencyHandles_clear.1, ?_, by decide, by decide⟩
  intro f h
  revert f
  decide

theorem wit_ResidencyEvict_lines : ((residBox 0 []).translate 0 (0 + BitVec.ofNat 64 (65536 * 0))).2 = .ok ⟨0, 0, 0x10000, true, true, true⟩ ∧
    ((residBox 0 []).ctx 0).part = 0 ∧ ((residBox 0 []).Clear [plain 2] []) := ⟨by decide, by decide, ⟨by decide, by decide, by decide, by decide⟩⟩

/-- A guard no lane passes. -/
theorem wit_QueueResults_idle : ((List.range 32).filter ((queued 32).passing (.pos 0))).length = 0 ∧
    (queued 32).Clear [plain 2] [] ∧ (queued 32).Clear [] [2] :=
  ⟨by decide, ⟨by decide, by decide, by decide, by decide⟩, ⟨by decide, by decide, by decide, by decide⟩⟩

/-- A waiting `qpush` and a waiting `qpop` of a queue that serves them; a halt asked for and none. -/
def queueWaiting (i : Instr) (kind : WaitKind) (halt : Option Nat) : State :=
  { waitingOn kind i with
    contexts := [{ num := 0, halting := halt }]
    teams := [{ uid := 2, grid := some 3, scratchBytes := 1024, qw := [BitVec.ofNat 64 (32 * 2 ^ 48 + 2 * 2 ^ 32 + 64 * 2 ^ 19)] }] }

theorem wit_QueueStep_served : ((queueWaiting (.qpop .always 4 0) (.qpop 0) none).cur.wait? 7).isSome ∧
    (queueWaiting (.qpop .always 4 0) (.qpop 0) none).queueReady (queueWaiting (.qpop .always 4 0) (.qpop 0) none).cur 0 false 32 = true ∧
    (queueWaiting (.qpush .always 4 0) (.qpush 0) none).queueReady (queueWaiting (.qpush .always 4 0) (.qpush 0) none).cur 0 true 32 = true ∧
    ((queueWaiting (.qpop .always 4 0) (.qpop 0) none).ctx 0).halting = none ∧
    ((queueWaiting (.qpop .always 4 0) (.qpop 0) (some 3)).ctx 0).halting ≠ none ∧
    ((List.range 32).filter fun l => (memBox id).issue.mask.getLsbD l &&
      guardPasses .always ((queueWaiting (.qpop .always 4 0) (.qpop 0) none).cur.thread l)).length = 32 ∧
    (∃ x ∈ (queueWaiting (.qpop .always 4 0) (.qpop 0) none).teams, x.uid = (queueWaiting (.qpop .always 4 0) (.qpop 0) none).cur.team) ∧
    (queueWaiting (.qpop .always 4 0) (.qpop 0) none).cur.uid = 1 :=
  ⟨by decide, by decide, by decide, by decide, by decide, by decide, ⟨_, List.mem_singleton.mpr rfl, rfl⟩, by decide⟩

/-- A region's group at a barrier, its release met and unmet. -/
def barredRegion (b : Barrier) : State := barred b fun k => { k with threads := k.threads.map fun t => { t with region := some 3 } }

theorem wit_BarrierArrival_region : (barredRegion ⟨4, 31, 64⟩).Issuing ∧ (barredRegion ⟨4, 31, 64⟩).inRegion = true ∧ (barred ⟨4, 31, 64⟩).inRegion = false ∧
    (barredRegion ⟨4, 31, 64⟩).fenceMet (barredRegion ⟨4, 31, 64⟩).cur 1 = true ∧
    ((List.range 32).filter ((barredRegion ⟨4, 31, 64⟩).passing .always)).length = 32 ∧ 31 + 32 ≤ 64 ∧
    { barredRegion ⟨4, 31, 64⟩ with accesses := [acc (.load false) .global []] }.fenceMet (barredRegion ⟨4, 31, 64⟩).cur 1 = false :=
  ⟨⟨_, rfl⟩, by decide, by decide, by decide, by decide, by decide, by decide⟩

theorem wit_BarrierRelease_time : leaving.after ≤ (waitingOn (.bar 0 4) (.bar .always 0 (.imm 63))).now * 2 ^ 16 := by decide

/-! ### Hypotheses met: exits, sleeps, grants, handlers in their further forms -/

/-- A handler in every lane, with acknowledgements or records outstanding; the same skein with all its threads in a waiting `exit`. -/
def leavingBox (un : Nat) (q : List FaultRec) : State := trapped fun k => { k with unacked := un, faultQ := q }

def exitWaiting : State :=
  { inFlight { acc .store (.peer 3) [⟨0, 0, 0, 3, 0, 0⟩] with out := true } with
    skeins := (waitingOn .exit (.exit .always)).skeins.map fun k => { k with unacked := 1, threads := k.threads.map fun t => { t with waiting := some 7 } } }

theorem wit_ExitRetires_last : (leavingBox 0 []).Issuing ∧ (leavingBox 0 []).cur.handler.isSome ∧
    (∀ l, l < 32 → (leavingBox 0 []).passing .always l = true) ∧ (leavingBox 1 []).cur.unacked ≠ 0 ∧ (leavingBox 1 []).cur.faultQ = [] ∧
    (leavingBox 0 [⟨0, 0, 0, 1, none⟩]).cur.faultQ = [⟨0, 0, 0, 1, none⟩] ∧ (leavingBox 0 []).issue.last = true ∧ (leavingBox 0 []).inRegion = false ∧
    (∀ w ∈ (leavingBox 0 []).cur.waits, w.kind ≠ .shrink ∧ ∀ m, w.kind ≠ .sync m) :=
  ⟨ctl_issuing _ _ rfl rfl, by decide, by decide, by decide, by decide, by decide, by decide, by decide, fun _ h => (List.not_mem_nil h).elim⟩

theorem wit_ExitRetires_acknowledged : exitWaiting.accesses.find? (fun x => x.id == 7 && x.posted && x.out) =
      some { acc .store (.peer 3) [⟨0, 0, 0, 3, 0, 0⟩] with out := true } ∧ (acc .store (.peer 3) [⟨0, 0, 0, 3, 0, 0⟩]).sample = none ∧
    exitWaiting.sk? 1 = some exitWaiting.cur ∧ exitWaiting.cur.unacked ≤ 1 ∧ exitWaiting.cur.faultQ = [] ∧
    exitWaiting.cur.waits.map (·.kind) = [.exit] := ⟨by decide, rfl, rfl, by decide, by decide, by decide⟩

/-- A register whose low half is zero and one whose low half is not. -/
theorem wit_SleepAndWake_count : ((jumping 0x100000000 true).cur.read 2 0).toNat % 2 ^ 32 = 0 ∧ ((jumping 0x1FFFFFFFF true).cur.read 2 0).toNat % 2 ^ 32 ≠ 0 ∧
    (jumping 4 true).executing 0 = true ∧ (jumping 4 true).Clear [plain 2] [] :=
  ⟨by decide, by decide, by decide, ⟨by decide, by decide, by decide, by decide⟩⟩

/-- A waiting skein with none older, in its slot and swapped out; one with an older before it. -/
theorem wit_GrowGrants_older : (growingBox (some 0)).olderGrows (growingBox (some 0)).cur = false ∧
    (growingBox none).olderGrows (growingBox none).cur = false ∧ behindOne.olderGrows behindOne.cur = true := by decide

theorem wit_GrowAndShrink_fits : (sized 56 false).olderGrows (sized 56 false).cur = false ∧ (sized 56 false).freeSlots 0 0 ≠ [] := by decide

/-- A handler over all threads while one synchronising instruction waits on some of them. -/
def syncTrapped : State :=
  trapped fun k => { k with waits := [{ id := 7, kind := .sync 3, lanes := 1, instr := .nop .always, issue := (boxOf 0).issue, es := .e32, since := 7 }] }

theorem wit_TrapReturn_sync : ∀ w ∈ syncTrapped.cur.waits, ∀ m, w.kind = .sync m → ∃ l, l < 32 ∧ m.getLsbD l = true ∧
    (syncTrapped.cur.thread l).exited = false ∧ (syncTrapped.cur.handler.map fun x => x.lanes.getLsbD l) = some true ∧
      syncTrapped.cur.flt.toNat / 2 ^ 34 % 4 ≠ 3 := by
  intro w h m hm
  obtain rfl := List.mem_singleton.mp h
  obtain rfl := WaitKind.sync.inj hm
  exact ⟨1, by decide, by decide, by decide, by decide, by decide⟩

/-- The agenda's next act issues a skein, with sewn code at its place and without; nothing is overdue and no window has ended. -/
theorem wit_StepRunsTheDecodedInstruction_clear : (aboutToIssue 0x02000000).overdue.isNone = true ∧
    (aboutToIssue 0x02000000).windowStep.isNone = true ∧ ((sewnBox (sewn true)).redirect 1).isSome = true ∧
    (match (sewnBox (sewn true)).plan (sewnBox (sewn true)).cur with | .go _ _ => true | _ => false) = true ∧
    (match exec (.alteredExecution 1) (sewnBox (sewn true)) with | .next _ => true | _ => false) = true := by
  exact ⟨by decide +kernel, by decide +kernel, by decide +kernel, by decide +kernel, by decide +kernel⟩

/-- The end of a power window, and of a telemetry window alone. -/
def telemetryEnds : State :=
  { State.reset with
    now := 10000000, powerAt := 9950000, dowserAt := 10000000, agenda := [.tick 1]
    power := (List.range 96).map fun c => { cluster := c, since := 10000000 } }

theorem wit_StepRunsTheAgenda_windows : ({ State.reset with now := 100000, agenda := [.tick 1] } : State).overdue.isNone = true ∧
    State.reset.powerAt + 100000 ≤ 100000 ∧ telemetryEnds.overdue.isNone = true ∧
    telemetryEnds.now < telemetryEnds.powerAt + 100000 ∧ telemetryEnds.telemetryAt + 10000000 ≤ telemetryEnds.now := by decide +kernel

/-- A group in the second of three repetitions of an `add` whose destination and first source step; its last repetition. -/
def repeatingAdd (idx : Nat) : State :=
  let s := unplanned 0x02000000
  { s with skeins := s.skeins.map fun k => { k with
      threads := List.replicate 32 { pc := 0x104, exited := false, clause := some ⟨0x100, encodeHeader ⟨none, none, 0, .vector, .e32, 2⟩, 0, 1, tripledWords⟩
                                     rep := some ⟨3, 12, idx, 0x100, 0⟩ } } }

theorem wit_Repetitions : (repeatingAdd 1).mayIssue (repeatingAdd 1).cur = true ∧
    (match (repeatingAdd 1).pick (repeatingAdd 1).cur with
      | some p => (((repeatingAdd 1).picked (repeatingAdd 1).cur p).thread p.lane).rep == some ⟨3, 12, 1, 0x100, 0⟩
      | none => false) = true ∧
    (decodeHeader (encodeHeader ⟨none, none, 0, .vector, .e32, 2⟩)).isSome = true ∧
    wordsAt tripledWords (bodyIdx 0x100 0x104) = [tripledWords.headD 0] ∧ (12 : BitVec 4).getLsbD 3 = true ∧ (12 : BitVec 4).getLsbD 0 = false ∧
    (tripledWords.headD 0).toNat / 2 ^ 19 % 64 + 2 < 64 ∧ (tripledWords.headD 0).toNat / 2 ^ 13 % 64 + 2 < 64 ∧ 1 + 1 < 3 ∧ 3 ≤ 2 + 1 := by
  decide +kernel

/-! ### Hypotheses met: panels, pumps and collectives in their further forms -/

theorem wit_QuantiseBegins_idle : ¬ (box .e32).Some (.pos 0) := by
  rintro ⟨l, hl, h⟩
  revert h
  revert l
  decide

theorem wit_PanelLoadArrives_alone : (panelWait []).ops = [] ∧ (∀ x ∈ ([] : List LongOp), x.forWait ≠ some 7) ∧
    (panelWait []).accesses.map (fun a => (a.sk, a.op, a.order)) = [(1, some 7, 0)] := ⟨rfl, fun _ h => (List.not_mem_nil h).elim, rfl⟩

/-- A pump's read and its write with no answer for 2^20 ticks, and a tick before. -/
theorem wit_CollectiveHears_silence : (operating { uid := 5, kind := .pump 0 false, asked := [⟨65535, 8, 0, 0, []⟩] }).accesses = [] ∧
    (⟨65535, 8, 0, 0, []⟩ : PeerMsg).tick + 2 ^ 20 ≤ { operating hearing with now := 2 ^ 20 }.now ∧
    { operating hearing with now := 2 ^ 20 - 1 }.now < (⟨65535, 8, 0, 0, []⟩ : PeerMsg).tick + 2 ^ 20 ∧
    (operating { uid := 5, kind := .pump 0 false, outs := [⟨2, 16, 0, 0, []⟩] }).op? 5 = some { uid := 5, kind := .pump 0 false, outs := [⟨2, 16, 0, 0, []⟩] } ∧
    ofBytes (([0, 0, 0, 0, 0, 9] : List Byte).take 5) ∉ [2, 3] ∧ ofBytes (([1, 0, 0, 0, 0, 9] : List Byte).take 5) ∉ [2, 3] := by decide

/-- Four elements of f32 at address 0, all on this device; r2 holds the count. -/
theorem wit_CollectiveJoins_data : (match (grouped 4).locateAll { ctx := 0 } .global false (Place.cut .global 0 16) with
      | (u, .ok us) => u == grouped 4 && us.all fun x => x.pl == .global && !(grouped 4).poisonAt x.key x.n
      | _ => false) = true := by decide +kernel

/-- A sum of one element over two members, whose last part is to come; its source and its destination lie apart. -/
def finishing : State :=
  { memBox id with ops := [{ uid := 5, kind := .coll 0 0, members := 2, count := 1, heard := [(0, [0, 0, 0, 0])], parts := [(0, 256, 4)] }] }

theorem wit_CollectiveWrites : finishing.MemOk ∧ (finishing.op? 5).map (fun o => (o.heard.length + 1, o.ready, o.cancel, o.done)) = some (2, false, false, false) ∧
    ofBytes (([16, 0, 0, 0, 0, 0, 0, 0, 0] : List Byte).take 5) = 0 + 4 * 0 + 16 * 1 ∧
    (match finishing.locateAll { uid := 5 } .global true (Place.cut .global 256 4) with
      | (_, .ok us) => us.map (·.pl) == [.global] && us.map (·.n) == [4]
      | _ => false) = true := by
  refine ⟨rfl, by decide, by decide, by decide +kernel⟩

/-! ### Hypotheses met: dispatch, alteration, contexts and boot in their further forms -/

theorem wit_DispatchOrder : (∀ g ∈ (pendingBox [teamGrid, { teamGrid with uid := 4, prio := 3, order := 2 ^ 64 - 1 }]).grids, g.prio ≤ 3 ∧ g.order < 2 ^ 64) ∧
    ((pendingBox [teamGrid, { teamGrid with uid := 4, prio := 3, order := 2 ^ 64 - 1 }]).nextGrid 0).map (·.uid) = some 4 ∧
    ((pendingBox [teamGrid]).chooseCore 0 (fun _ => 0) fun _ => true) = some 0 ∧ (pendingBox [teamGrid]).chooseCore 0 (fun _ => 0) (fun _ => false) = none := by
  decide +kernel

/-- The engine runs for the context of an entry; with a debugger attached it does not. -/
theorem wit_AlterationSteps_alters : (warm (heated .basting 3 (some (ghostly 3)))).alters 0 = true ∧
    ((warm (heated .basting 3 (some (ghostly 3)))).updDebug 0 fun d => { d with att := true }).alters 0 = false := by decide

theorem wit_FunctionSlots_lock : (∃ x ∈ lockedBox.tdisp, x.1 = 5 ∧ (x.2.1 = 1 ∨ x.2.1 = 2) ∧ ∃ p, (lockedBox.part p).prot = true ∧ p ∈ x.2.2) ∧
    ∃ x ∈ { lockedBox with tdisp := [(5, 1, [])] }.tdisp, x.1 = 5 ∧ (x.2.1 = 1 ∨ x.2.1 = 2) ∧ ∃ p, (lockedBox.part p).prot = true ∧
      ∃ d ∈ lockedBox.contexts, (∃ sl, d.vf = some (5, sl)) ∧ d.part = p ∧ (d.state ≠ .free ∨ d.part ≠ 0 ∨ lockedBox.mode ≤ 1) :=
  ⟨⟨_, List.mem_singleton.mpr rfl, rfl, .inl rfl, 0, rfl, List.mem_singleton.mpr rfl⟩,
    ⟨_, List.mem_singleton.mpr rfl, rfl, .inl rfl, 0, rfl, _, List.mem_singleton.mpr rfl, ⟨0, rfl⟩, rfl, .inl (by decide)⟩⟩

/-- A sample of a saved context, complete and not. -/
theorem wit_HaltAndSave_samples : ((owned .saving fun x => { x with halted := true }).ctx 3).state = .saving ∧
    (∀ y ∈ ([⟨4, 3, [], 1, 0, 0, 0, 0, 0, 0, 0, 0xFF, 0, 0⟩] : List Sample), y.ctx = 3 → y.left ≠ 0) ∧
    ((State.flushSamples 3 1 { owned .saving (fun x => { x with halted := true }) with samples := [⟨4, 3, List.replicate 32 0, 0, 0, 0, 0, 0, 0, 0, 0, 0xFF, 0, 0⟩] }).ctx 3).queued = [] ∧
    ((State.flushSamples 3 1 { owned .saving (fun x => { x with halted := true }) with samples := [⟨4, 3, List.replicate 32 0, 0, 0, 0, 0, 0, 0, 0, 0, 0xFF, 0, 0⟩] }).ctx 3).held.isSome =
      false := by decide +kernel

/-- A record of 1,024 bytes for mode 1, its clock range one code wide, its certificate chain empty. -/
def plainRecord : List Byte :=
  [0x31, 0x52, 0x43, 0x47, 1, 0, 0, 0, 0, 0, 0, 0, 0, 4, 0, 0, 1, 0, 0, 0, 0, 0, 0, 0, 0, 0, 0, 0, 0, 0, 0, 0, 18, 18] ++ List.replicate 103 0 ++ [1] ++
    List.replicate 886 0

/-- An empty staging area is no record whatever signatures and versions pass; a record in form is valid where its signature and version pass. -/
theorem wit_Boot_verdicts : bootVerdict (List.replicate 1024 0) ≠ 0 ∧ recFieldsOk plainRecord = true ∧
    (Config.recordSigned (plainRecord.take 640) (plainRecord.drop 640) = true → Config.versionFloor = 0 → bootVerdict plainRecord = 0) := by
  have f : recFieldsOk plainRecord = true := by decide +kernel
  refine ⟨?_, f, fun h v => ?_⟩
  · have z : recFieldsOk (List.replicate 1024 0) = false := by decide +kernel
    simp only [bootVerdict, z]
    generalize Config.recordSigned _ _ = b
    cases b
    · decide
    · simp only [Bool.not_true, Bool.false_eq_true, if_false, Bool.not_false, if_true]
      split <;> decide
  · have l : recField plainRecord 0xC 4 = 1024 := by decide +kernel
    have t : (plainRecord.drop 640).take 384 = plainRecord.drop 640 := by decide +kernel
    unfold bootVerdict
    simp only [l, show 1024 - 384 = 640 from rfl, t, h, v, f]
    simp

/-- Scopes 0 and 2 of an invalidation; a page of the context at an address and one next to it. -/
theorem wit_HostStepsComplete_scopes : (0x80000003 : Lane).toNat / 2 ^ 12 % 4 = 0 ∧ (0x80052000 : Lane).toNat / 2 ^ 12 % 4 = 2 ∧
    (0x80052000 : Lane).toNat / 2 ^ 16 % 256 = 5 ∧ 5 ≤ 191 ∧ (∀ o ∈ (owned .free).ops, (owned .free).invSent o = false) := by decide

/-- A pump's message of an entry that is gone, sent before the invalidation, and one sent after it. -/
theorem wit_Invalidations_sent : ({ owned .free with invFrom := 8, invGone := [(0, 0, 65536)] } : State).invSent { uid := 5, outs := [⟨2, 0, 0, 7, []⟩] } = true ∧
    ({ owned .free with invFrom := 8, invGone := [(0, 0, 65536)] } : State).invSent { uid := 5, outs := [⟨2, 0, 0, 8, []⟩] } = false ∧
    ({ owned .free with invFrom := 8, invGone := [(0, 0, 65536)] } : State).invSent { uid := 5, asked := [⟨2, 0, 0, 7, []⟩], heard := [(2, [])] } = false := by decide

theorem wit_FaultAnswers_swap : ((owned .running fun x => { x with held := some ⟨1, 0x1000, []⟩ }).ctx 3).state = .running ∧
    ((owned .running fun x => { x with held := some ⟨1, 0x1000, []⟩ }).ctx 3).queued = [] := by decide

/-- A clock below a cluster's target, one at its frequency, one not below. -/
theorem wit_PartitionCommands_clock : (17 : Lane).toNat < (((parted .idle).powerOf 0).target.getD ((parted .idle).powerOf 0).freq).toNat ∧
    ¬ (18 : Lane).toNat < (((parted .idle).powerOf 0).target.getD ((parted .idle).powerOf 0).freq).toNat ∧ (parted .idle).partOfCluster 0 = 0 ∧
    (4 : Nat) ≤ (17 : Lane).toNat ∧ ({ freq := 18, target := some 19 } : Power).freq = BitVec.ofNat 5 (18 : Lane).toNat := by decide

/-- A function with a context in use, with a lock alone, and with neither. -/
theorem wit_Attestation_tenant : lockedBox.vfTenant 5 = some 0 ∧ (owned .free).vfTenant 5 = none ∧
    (∃ d ∈ lockedBox.contexts, (∃ sl, d.vf = some (5, sl)) ∧ d.state ≠ .free) ∧
    (∀ d ∈ lockedBox.contexts, (∃ sl, d.vf = some (5, sl)) → d.state ≠ .free → d.part = 0) :=
  ⟨by decide, by decide, ⟨_, List.mem_singleton.mpr rfl, ⟨0, rfl⟩, by decide⟩, by
    intro d h _ _
    obtain rfl := List.mem_singleton.mp h
    rfl⟩

/-! ### Hypotheses met: waits and peers in their further forms -/

/-- Two groups at one `vote`, as one group; a wait for its mask register is another kind. -/
theorem wit_WaitingEnds_together : ((voting false none).cur.wait? 7).map (fun w => ((voting false none).together (voting false none).cur w).es) = some .e32 ∧
    (WaitKind.syncPre ≠ .sync 0xFFFFFFFF) ∧ ((voting false none).cur.wait? 7).map (·.es) = some .e32 ∧
    syncParts (.vote .always .or 0 .full 0) = some (.full, []) ∧
    (∀ w, (voting false none).cur.wait? 7 = some w → ((voting false none).together (voting false none).cur w).Fresh ∧
      ((voting false none).together (voting false none).cur w).AllIn .full ∧ ((voting false none).together (voting false none).cur w).Clear [] []) := by
  refine ⟨by decide, by decide, by decide, by decide, ?_⟩
  rintro w ⟨⟩
  exact ⟨⟨by decide, by decide⟩, ⟨by decide, by decide, by decide, by decide⟩, ⟨by decide, by decide, by decide, by decide⟩⟩

/-- A skein with no instruction to issue whose two groups stand in waits, the first of the lower PC. -/
theorem wit_WaitingEnds_lowest : ∀ w, (voting true (some 8)).cur.wait? 7 = some w → (voting true (some 8)).cur.standsIn w = true ∧
    (∀ x ∈ (voting true (some 8)).cur.waits, (voting true (some 8)).cur.standsIn x = true → x = w ∨ w.issue.pc.toNat < x.issue.pc.toNat) ∧
    (match (voting true (some 8)).plan (voting true (some 8)).cur with | .go _ _ => false | _ => true) = true := by
  rintro w ⟨⟩
  exact ⟨by decide, by decide, by decide +kernel⟩

theorem wit_WaitingEnds_blocked : (idling 1024).blocked = false ∧ { idling 1024 with blocked := true }.watchdogDue (idling 1024).cur = true := by decide

/-- The two heads of a peer's pump in a bulk payload; a store that is no masked line. -/
theorem wit_PeerRequests_bulk : (toBytes 5 3 ++ (toBytes 8 0 ++ toBytes 2 128)).length = 15 ∧ (8 : Nat) < 2 ^ 16 ∧ (8 : Nat) ≠ 144 ∧
    (exporting 7).windowAllows ((exporting 7).window 0) 9 0 128 .store = true := by decide

/-- A line of which the bytes 4 and 6 are selected. -/
def maskedLine : List Byte := 0x50 :: List.replicate 143 0

theorem maskedLine_length : maskedLine.length = 144 := congrArg (· + 1) List.length_replicate


theorem wit_MaskedStores : maskedLine.length = 144 ∧ (maskedLine.getD (4 / 8) 0).getLsbD (4 % 8) = true ∧ (maskedLine.getD (6 / 8) 0).getLsbD (6 % 8) = true ∧
    (∀ i, i < 128 → (maskedLine.getD (i / 8) 0).getLsbD (i % 8) = true → 4 ≤ i ∧ i ≤ 6) ∧
    (exporting 7).windowAllows ((exporting 7).window 0) 9 4 (6 + 1 - 4) .store = true ∧
    (exporting 7).windowAllows ((exporting 7).window 0) 9 65532 (6 + 1) .store = false ∧
    (∃ x, (exporting 7).translate 3 4 = (exporting 7, .ok x) ∧ PeerUse.store.permits x = true ∧ x.there = true) :=
  ⟨maskedLine_length, by decide, by decide, by decide +kernel, by decide, by decide, ⟨_, rfl, by decide, by decide⟩⟩

end Sys2Proof.Tests
end

section
/-!
SUPPORT. One step of the machine by the act it takes: what the agenda or the default scheduler names, an overdue step, the end of a
window.
-/

namespace Sys2Proof.Machine

/-! ### What a step does -/

/-- The agenda names the act, and the act leaves the agenda. -/
theorem State.nextAct_of_agenda {s : State} {a : Act} {r : List Act} (h : s.agenda = a :: r) :
    s.nextAct = (a, { s with agenda := r }) := by
  simp only [State.nextAct, h]

/-- An empty agenda leaves the choice to the default scheduler. -/
theorem State.nextAct_of_empty {s : State} (h : s.agenda = []) :
    s.nextAct = (s.choose.1, { s with streak := s.choose.2 }) := by
  simp only [State.nextAct, h]

/-- An act that lets no time pass is taken as it is. -/
theorem step_of_still {s t : State} {a : Act} (h : s.nextAct = (a, t)) (hp : a.passes = false) : step s = t.act a := by
  simp [step, h, hp]

/-- Before an act that lets time pass, a step whose time has come runs. -/
theorem step_of_overdue {s t : State} {a : Act} {i : Instr} (h : s.nextAct = (a, t)) (hp : a.passes = true)
    (ho : s.overdue = some i) : step s = exec i (s.primed i) := by
  simp [step, h, hp, ho]

/-- Then the end of a window. -/
theorem step_of_window {s t : State} {a : Act} {o : Host.Outcome State Fault Refusal} (h : s.nextAct = (a, t))
    (hp : a.passes = true) (ho : s.overdue = none) (hw : s.windowStep = some o) : step s = o := by
  simp [step, h, hp, ho, hw]

/-- With neither, the act itself. -/
theorem step_of_ready {s t : State} {a : Act} (h : s.nextAct = (a, t)) (ho : s.overdue = none) (hw : s.windowStep = none) :
    step s = t.act a := by
  simp [step, h, ho, hw]

/-- The window of package power ends first. -/
theorem State.windowStep_of_power {s : State} (h : s.powerAt + 100000 ≤ s.now) :
    s.windowStep = some (execPowerWindow (Config.meanPower (s.powerAt + 100000)) s) := by
  simp only [State.windowStep, if_pos h]

/-- Then the window of telemetry. -/
theorem State.windowStep_of_telemetry {s : State} (h : s.now < s.powerAt + 100000) (h' : s.telemetryAt + 10000000 ≤ s.now) :
    s.windowStep = some (execTelemetryWindow (Config.meanPower (s.telemetryAt + 10000000))
      (Config.highestTemp (s.telemetryAt + 10000000)) s) := by
  simp only [State.windowStep, if_neg (Nat.not_le.mpr h), if_pos h']

/-- Only the watchdog's step is primed. -/
theorem State.primed_of_other {s : State} {i : Instr} (h : ∀ u, i ≠ .watchdogFire u) : s.primed i = s := by
  cases i
  case watchdogFire u => exact absurd rfl (h u)
  all_goals rfl

/-! ### What an issue does -/

section Issue

variable {s : State} {u : Nat} {k : Skein} {p : Pick} {i : Issue}

/-- Code sewn at the place of the skein's instruction runs. -/
theorem State.issueStep_sewn {t : State} (hk : s.sk? u = some k) (ho : s.outranked k = false) (hp : s.plan k = .go p i)
    (hr : s.redirect u ≠ none) (he : exec (.alteredExecution u) s = .next t) : s.issueStep u = .next (t.noteStep u) := by
  simp [State.issueStep, hk, ho, hp, Option.isSome_iff_ne_none.mpr hr, he]

/-- An instruction that takes effect is observed and counted; one that is held leaves no trace. -/
theorem State.issueStep_next {ins : Instr} {t : State} (hk : s.sk? u = some k) (ho : s.outranked k = false)
    (hp : s.plan k = .go p i) (hr : s.redirect u = none) (hd : i.decode = .ok ins) (he : exec ins (s.atIssue p i) = .next t) :
    s.issueStep u = .next (if t.blocked then s else (s.observe t.afterIssue i ins).noteStep u) := by
  simp [State.issueStep, hk, ho, hp, hr, hd, he]

theorem State.issueStep_fault {ins : Instr} {e : Fault} (hk : s.sk? u = some k) (ho : s.outranked k = false)
    (hp : s.plan k = .go p i) (hr : s.redirect u = none) (hd : i.decode = .ok ins) (he : exec ins (s.atIssue p i) = .fault e) :
    s.issueStep u = .fault e := by
  simp [State.issueStep, hk, ho, hp, hr, hd, he]

theorem State.issueStep_refused {ins : Instr} {e : Refusal} (hk : s.sk? u = some k) (ho : s.outranked k = false)
    (hp : s.plan k = .go p i) (hr : s.redirect u = none) (hd : i.decode = .ok ins) (he : exec ins (s.atIssue p i) = .refused e) :
    s.issueStep u = .refused e := by
  simp [State.issueStep, hk, ho, hp, hr, hd, he]

/-- A word that stands for no instruction takes the trap of its cause. -/
theorem State.issueStep_illegal {c : Cause} (hk : s.sk? u = some k) (ho : s.outranked k = false) (hp : s.plan k = .go p i)
    (hr : s.redirect u = none) (hd : i.decode = .error c) :
    s.issueStep u = .next (((s.atIssue p i).takeTrap { kind := 1, cause := c.code }).afterIssue.noteStep u) := by
  simp [State.issueStep, hk, ho, hp, hr, hd]

end Issue

theorem claim_stepRunsTheDecodedInstruction : Claim.StepRunsTheDecodedInstruction := by
  intro s u k p i r s' ha hover hwin hk hout hplan
  have hstep : step s = s'.issueStep u := step_of_ready (State.nextAct_of_agenda ha) hover hwin
  rw [hstep]
  exact ⟨fun hr => ⟨fun _ _ hd he => State.issueStep_next hk hout hplan hr hd he,
      fun _ _ hd he => State.issueStep_fault hk hout hplan hr hd he, fun _ _ hd he => State.issueStep_refused hk hout hplan hr hd he,
      fun _ hd => State.issueStep_illegal hk hout hplan hr hd⟩,
    fun _ hr he => State.issueStep_sewn hk hout hplan hr he⟩

theorem claim_stepRunsTheAgenda : Claim.StepRunsTheAgenda := by
  refine ⟨fun s i r ha he hp => ?_, fun s i h => State.primed_of_other h, fun s i r ha hp => ?_, fun s n r ha ho hw => ?_,
    fun s a r i ha hp ho => step_of_overdue (State.nextAct_of_agenda ha) hp ho, fun s a r ha hp ho => ⟨fun h => ?_, fun h h' => ?_⟩,
    fun s ha hp i ho => step_of_overdue (State.nextAct_of_empty ha) hp ho, fun s ha h => ?_⟩
  · rw [step_of_still (State.nextAct_of_agenda ha) rfl]
    simp [State.act, he, hp]
  · rw [step_of_still (State.nextAct_of_agenda ha) rfl]
    simp [State.act, hp]
  · exact step_of_ready (State.nextAct_of_agenda ha) ho hw
  · exact step_of_window (State.nextAct_of_agenda ha) hp ho (State.windowStep_of_power h)
  · exact step_of_window (State.nextAct_of_agenda ha) hp ho (State.windowStep_of_telemetry h h')
  · rcases h with h | ⟨ho, hw⟩
    · exact step_of_still (State.nextAct_of_empty ha) h
    · exact step_of_ready (State.nextAct_of_empty ha) ho hw

end Sys2Proof.Machine

/-- Settles O4: one step splits by its act, and an issue by its plan. -/
theorem stepRunsTheDecodedInstruction : Obligations.StepRunsTheDecodedInstruction :=
  ⟨Sys2Proof.Machine.claim_stepRunsTheDecodedInstruction, Sys2Proof.Machine.claim_stepRunsTheAgenda⟩
end

section
/-!
SUPPORT. Where names of skeins are not unique, an update of the issuing skein overwrites its namesakes. The states below have two skeins
of one name; on them a wait changes what a grid or a quadrant holds, and the statements about `gbar` and `grow` fail.
-/

namespace Sys2Proof.Machine

/-! ### A grid barrier and two skeins of one name -/

/-- The grid of the counterexample: cooperative, of one team. -/
def twinGrid : Grid := { uid := 3, count := 1, next := 1, size := 64, coop := true }

/-- A team of the grid with a skein of 32 live threads, which issues, and a skein of the same name whose threads have all exited. -/
def twinBarrier : State :=
  { State.reset with
    now := 1
    grids := [twinGrid]
    teams := [{ uid := 2, grid := some 3 }]
    skeins := [{ uid := 1, team := 2, slot := some 0, threads := List.replicate 32 { exited := false } }, { uid := 1, team := 2, index := 1 }]
    idCtr := 4
    issue := { sk := 1, mask := 0xFFFFFFFF } }

/-- Nothing is outstanding, and the clock stands past every completion time. -/
theorem twinBarrier_fenceMet : twinBarrier.fenceMet twinBarrier.cur 2 = true := by
  have hnow : (0 : Nat) < twinBarrier.nowAt (clusterOf twinBarrier.cur.core) :=
    Nat.lt_of_lt_of_le Nat.zero_lt_one (Nat.le_add_right 1 _)
  simp only [State.fenceMet, Bool.and_eq_true, Bool.or_eq_true, decide_eq_true_eq]
  exact ⟨⟨⟨⟨by decide, by decide⟩, .inr (by decide)⟩, .inr ⟨by decide, hnow⟩⟩, .inl (by decide)⟩

/-- The wait turns the exited namesake into a copy of the issuing skein: 64 threads count as live, and the barrier stays closed. -/
theorem twinBarrier_stays_closed :
    (twinBarrier.gbarArrive twinGrid (.gbar .always)).grid? 3 = some { twinGrid with barArrived := 32 } := by decide

/-- `gbar` at the last live thread of the grid does not open the barrier there. -/
theorem not_claim_gridBarrier : ¬ Claim.GridBarrier := by
  intro h
  obtain ⟨-, -, -, hopen⟩ := h .always twinBarrier twinGrid ⟨_, rfl⟩ (by decide)
  obtain ⟨t, -, hexec, hgrid, -⟩ := hopen rfl twinBarrier_fenceMet (by decide) (by decide)
  have hrun : exec (.gbar .always) twinBarrier = .next (twinBarrier.gbarArrive twinGrid (.gbar .always)) := by
    have hg : twinBarrier.gridOf (twinBarrier.team twinBarrier.cur.team) = some twinGrid := by decide
    show execGbar .always twinBarrier = _
    simp only [execGbar, hg, twinBarrier_fenceMet]
    rfl
  rw [hrun] at hexec
  cases hexec
  have hnext := twinBarrier_stays_closed.symm.trans hgrid
  exact absurd hnext (by decide)

/-! ### A quadrant and two skeins of one name -/

/-- A wait in `grow` of an issue that is not at hand. -/
def growWait (id : Nat) : Wait := { id := id, kind := .grow, lanes := 0, instr := .grow, issue := {}, es := .e32, since := id }

/-- A quadrant of one issuing skein of 56 registers, a namesake of none, and twelve older skeins of 56 that wait in `grow`: 40 registers
are free, and an older skein could use them. -/
def twinQuadrant : State :=
  { State.reset with
    skeins := { uid := 1, team := 2, slot := some 0, age := 5, regCount := 56 } :: { uid := 1, team := 2, slot := some 1, regCount := 0 } ::
      (List.range 12).map fun i => { uid := 20 + i, team := 2, slot := some (2 + i), regCount := 56, waits := [growWait (40 + i)] }
    idCtr := 4
    issue := { sk := 1, mask := 0xFFFFFFFF } }

/-- The wait gives the namesake 56 registers too, no storage is left, and the issuing skein, the youngest, is swapped out. -/
theorem twinQuadrant_swapsOut : ((twinQuadrant.beginWait .grow .grow).swapOut 0 0 16).cur.slot = none := by decide

/-- `grow` behind an older skein does not only wait there. -/
theorem not_claim_growAndShrink : ¬ Claim.GrowAndShrink := by
  intro h
  obtain ⟨-, -, hwait, -⟩ := h twinQuadrant ⟨_, rfl⟩
  obtain ⟨t, hexec, hw⟩ := hwait (by decide) (.inr ⟨by decide,
    { uid := 20, team := 2, slot := some 2, regCount := 56, waits := [growWait 40] }, by decide, by decide, by decide, by decide, by decide, by decide⟩)
  have hrun : exec .grow twinQuadrant = .next ((twinQuadrant.beginWait .grow .grow).swapOut 0 0 16) := by
    show execGrow twinQuadrant = _
    have ho : ¬ (2048 ≤ twinQuadrant.quadFree 0 0 ∧ (!twinQuadrant.olderGrows twinQuadrant.cur) = true) := by decide
    unfold execGrow
    exact congrArg Host.Outcome.next (if_neg ho)
  rw [hrun] at hexec
  cases hexec
  have hslot := congrArg Skein.slot hw.rest
  rw [twinQuadrant_swapsOut] at hslot
  exact absurd hslot (by decide)

end Sys2Proof.Machine

/-- Refutes O37: where a second skein has the issuing skein's name, its wait at `gbar` makes that one a copy of itself; the live threads
of the grid double, and the last arrival does not open the barrier. -/
theorem not_barriers : ¬ Obligations.Barriers := fun h => Sys2Proof.Machine.not_claim_gridBarrier h.2.1

/-- Refutes O38: where a second skein has the issuing skein's name, its wait in `grow` gives that one its register count; the quadrant
has no storage left, and the skein that should wait is swapped out. -/
theorem not_registerCounts : ¬ Obligations.RegisterCounts := fun h => Sys2Proof.Machine.not_claim_growAndShrink h.1
end

section
/-!
SUPPORT. Rules the execution model's statements share: what a name finds after an update, a group that moves on or waits, operands that
are clear, a translation, an engine's operation that starts and one that ends.
-/

namespace Sys2Proof.Machine

/-! ### What a name finds -/

/-- An element that keeps its key is found where it was. -/
theorem find?_map_keyed {α : Type} (key : α → Nat) (f : α → α) (hf : ∀ x, key (f x) = key x) (l : List α) (v : Nat) :
    (l.map f).find? (fun x => key x == v) = (l.find? fun x => key x == v).map f := by
  rw [List.find?_map]
  congr 2
  funext x
  simp [hf]

/-- The elements of one key changed, their key kept: that key finds what it found, changed, and every other key what it found. -/
theorem find?_updKeyed {α : Type} (key : α → Nat) (f : α → α) (hf : ∀ x, key (f x) = key x) (l : List α) (u v : Nat) :
    (l.map fun x => if key x == u then f x else x).find? (fun x => key x == v) =
      if v = u then (l.find? fun x => key x == v).map f else l.find? fun x => key x == v := by
  rw [find?_map_keyed key _ (fun x => by split <;> simp [hf])]
  by_cases h : v = u
  · subst h
    rw [if_pos rfl]
    refine Option.map_congr fun x hx => ?_
    rw [if_pos (by simpa using List.find?_some hx)]
  · rw [if_neg h]
    refine (Option.map_congr fun x hx => ?_).trans Option.map_id'
    have hx : key x = v := by simpa using List.find?_some hx
    rw [if_neg (by simpa [hx] using h)]

theorem State.sk?_updSk (s : State) (u : Nat) (f : Skein → Skein) (hf : ∀ k, (f k).uid = k.uid) (v : Nat) :
    (s.updSk u f).sk? v = if v = u then (s.sk? v).map f else s.sk? v := find?_updKeyed Skein.uid f hf s.skeins u v

theorem State.grid?_updGrid (s : State) (u : Nat) (f : Grid → Grid) (hf : ∀ g, (f g).uid = g.uid) (v : Nat) :
    (s.updGrid u f).grid? v = if v = u then (s.grid? v).map f else s.grid? v := find?_updKeyed Grid.uid f hf s.grids u v

theorem State.op?_updOp (s : State) (u : Nat) (f : EngineOp → EngineOp) (hf : ∀ o, (f o).uid = o.uid) (v : Nat) :
    (s.updOp u f).op? v = if v = u then (s.op? v).map f else s.op? v := find?_updKeyed EngineOp.uid f hf s.ops u v

theorem State.grid_uid (s : State) {u : Nat} {g : Grid} (h : s.grid? u = some g) : g.uid = u := by
  simpa using List.find?_some h

theorem State.op_uid (s : State) {u : Nat} {o : EngineOp} (h : s.op? u = some o) : o.uid = u := by
  simpa using List.find?_some h

theorem State.sk_eq (s : State) {u : Nat} {k : Skein} (h : s.sk? u = some k) : s.sk u = k := by simp [State.sk, h]

/-- The issuing skein is one of the machine's. -/
theorem State.cur_mem {s : State} (h : s.Issuing) : s.cur ∈ s.skeins := by
  obtain ⟨k, hk⟩ := h
  rw [s.cur_eq hk]
  exact List.mem_of_find?_eq_some hk

/-! ### Lanes -/

@[simp] theorem mem_allLanes (l : Nat) : l ∈ allLanes ↔ l < 32 := List.mem_range

theorem State.anyPass_iff (s : State) (g : Guard) : s.anyPass g = true ↔ s.Some g := by
  simp [State.anyPass, State.Some]

theorem State.anyPass_eq_false (s : State) (g : Guard) : s.anyPass g = false ↔ ¬ s.Some g := by
  rw [← s.anyPass_iff g, Bool.not_eq_true]

/-- Moving past an instruction leaves a thread's predicates. -/
@[simp] theorem Issue.past_pred (i : Issue) (t : Thread) : (i.past t).pred = t.pred := by
  unfold Issue.past
  dsimp only
  repeat' split
  all_goals rfl

/-! ### A group that moves on, and one that waits -/

theorem State.advance_became {s : State} (h : s.Issuing) : s.Became s.advance s.moved := ⟨s.advance_only h, s.cur_advance h⟩

/-- The wait that a group begins. -/
def State.newWait (s : State) (kind : WaitKind) (i : Instr) : Wait :=
  { id := s.idCtr, kind := kind, lanes := s.issue.mask, instr := i, issue := s.issue, es := s.es, since := s.idCtr, tick := s.now }

/-- A skein of which some lanes stand in a new wait. -/
def Skein.joinWait (k : Skein) (e : Nat → Bool) (w : Wait) : Skein :=
  { k.updThreads e fun _ t => { t with waiting := some w.id } with waits := k.waits ++ [w] }

theorem Skein.joinWait_thread (k : Skein) (e : Nat → Bool) (w : Wait) {l : Nat} (hl : l < 32) :
    (k.joinWait e w).thread l = if e l then { k.thread l with waiting := some w.id } else k.thread l :=
  k.thread_updThreads e (fun _ t => { t with waiting := some w.id }) l hl

theorem State.beginWait_eq (s : State) (kind : WaitKind) (i : Instr) :
    s.beginWait kind i = s.fresh.2.updCur fun k => k.joinWait s.executing (s.newWait kind i) := rfl

theorem State.beginWait_cur {s : State} (h : s.Issuing) (kind : WaitKind) (i : Instr) :
    (s.beginWait kind i).cur = s.cur.joinWait s.executing (s.newWait kind i) :=
  State.cur_updCur s.fresh.2 (fun k => k.joinWait s.executing (s.newWait kind i)) h fun _ => rfl

theorem State.beginWait_waits {s : State} (h : s.Issuing) (kind : WaitKind) (i : Instr) : s.Waits (s.beginWait kind i) kind i := by
  have hc := State.beginWait_cur h kind i
  refine ⟨State.updCur_only s.fresh.2 (fun k => k.joinWait s.executing (s.newWait kind i)) h fun _ => rfl, ?_, ?_, fun l hl => ?_⟩
  · rw [hc]; rfl
  · rw [hc]; rfl
  · rw [hc]; exact s.cur.joinWait_thread _ _ hl

/-! ### Operands that are clear -/

/-- Where the operands are clear, only the further checks of the instruction stop it. -/
theorem State.Clear.ck_extra {s : State} {srcs : List SrcReg} {dsts : List Reg} (h : s.Clear srcs dsts) (extra : Option Stop) :
    s.ckOperands srcs dsts extra = extra := by
  cases extra with
  | none => exact h.ck rfl
  | some x => simp [State.ckOperands, s.ckRegs_none _ h.range, firstStop]

/-- No register that is read is pending. -/
theorem State.Clear.srcMarks {s : State} {srcs : List SrcReg} {dsts : List Reg} (h : s.Clear srcs dsts) :
    s.ckMarks (s.namedSrcs srcs) [] = none :=
  s.ckMarks_none _ _ (fun r hr => h.landed r (List.mem_append_left _ (by simpa using hr))) (by simp)

/-! ### A translation, a request counted -/

/-- A translation adds to the cached translations alone. -/
theorem State.translate_rest {s u : State} {c : Nat} {a : Lane} {x : Except XMiss Xlat} (h : s.translate c a = (u, x)) :
    u = { s with tlb := u.tlb } := by
  have hrest : (s.translate c a).1 = { s with tlb := (s.translate c a).1.tlb } := by
    unfold State.translate
    dsimp only
    cases s.tlbHit c (va57 a) with
    | some e => rfl
    | none => cases s.walkBoth c a <;> rfl
  rwa [h] at hrest

/-- A request counted at a home changes the Dowser's counts alone. -/
theorem State.countDie_rest (s : State) (key core n : Nat) :
    s.countDie key core n = { s with dowser := (s.countDie key core n).dowser } := by
  unfold State.countDie
  split <;> rfl

/-! ### An engine's operation starts and ends -/

/-- The operation that a skein starts. -/
def State.newOp (s : State) (tl : Nat) (o : EngineOp) : EngineOp :=
  { o with uid := s.idCtr, ctx := s.cur.ctx, team := s.cur.team, core := s.cur.core, sk := s.cur.uid, tl := tl
           num := (s.team s.cur.team).tlIssued.getD tl 0 + 1, order := s.idCtr }

/-- The state in which an operation stands started, before its handle names it. -/
def State.withOp (s : State) (tl : Nat) (o : EngineOp) : State :=
  { s.fresh.2 with ops := s.ops ++ [s.newOp tl o] }.updTeam s.cur.team fun t =>
    { t with tlIssued := bankUpd 8 0 t.tlIssued tl fun _ => (s.team s.cur.team).tlIssued.getD tl 0 + 1 }

/-- A handle register that names an operation under way. -/
def Skein.nameOp (k : Skein) (hd : Nat) (o : EngineOp) : Skein :=
  { k with hd := bankUpd 8 0 k.hd hd fun _ => handleWord true o.tl 0 o.num, hdOp := bankUpd 8 none k.hdOp hd fun _ => some o.uid }

theorem State.startOp_eq (s : State) (hd tl : Nat) (o : EngineOp) :
    s.startOp hd tl o = (s.idCtr, (s.withOp tl o).updCur fun k => k.nameOp hd (s.newOp tl o)) := rfl

theorem State.startOp_issuing {s : State} (h : s.Issuing) (hd tl : Nat) (o : EngineOp) : (s.startOp hd tl o).2.Issuing :=
  State.updCur_issuing (s.withOp tl o) _ h fun _ => rfl

theorem State.startOp_cur {s : State} (h : s.Issuing) (hd tl : Nat) (o : EngineOp) :
    (s.startOp hd tl o).2.cur = s.cur.nameOp hd (s.newOp tl o) :=
  State.cur_updCur (s.withOp tl o) _ h fun _ => rfl

/-- A new name finds the operation that took it. -/
theorem State.startOp_op? {s : State} (h : s.NewName) (hd tl : Nat) (o : EngineOp) :
    (s.startOp hd tl o).2.op? s.idCtr = some (s.newOp tl o) := by
  have hnone : s.ops.find? (fun x => x.uid == s.idCtr) = none := by simpa using h.1
  show (s.ops ++ [s.newOp tl o]).find? (fun x => x.uid == s.idCtr) = _
  rw [List.find?_append, hnone]
  simp [State.newOp]

/-- No skein waits. -/
def State.Quiet (s : State) : Prop := ∀ k ∈ s.skeins, k.waits = []

theorem State.Quiet.sk {s : State} (h : s.Quiet) (u : Nat) : (s.sk u).waits = [] := by
  unfold State.sk
  cases hk : s.sk? u with
  | none => rfl
  | some k => exact h k (List.mem_of_find?_eq_some hk)

/-- A change of skeins that keeps their waits leaves none waiting. -/
theorem State.Quiet.of_map {s t : State} (h : s.Quiet) (f : Skein → Skein) (hf : ∀ k ∈ s.skeins, (f k).waits = k.waits)
    (ht : t.skeins = s.skeins.map f) : t.Quiet := by
  intro k hk
  rw [ht] at hk
  obtain ⟨x, hx, rfl⟩ := List.mem_map.mp hk
  rw [hf x hx]
  exact h x hx

/-- Where no skein waits, no wait for a handle ends. -/
theorem State.Quiet.settleHandles {s : State} (h : s.Quiet) (ks : List Skein) :
    ks.foldl (fun s (k : Skein) => s.settleHandles k.uid) s = s := by
  induction ks with
  | nil => rfl
  | cons k ks ih =>
    have hk : s.settleHandles k.uid = s := by simp [State.settleHandles, h.sk]
    rw [List.foldl_cons, hk, ih]

/-- An operation with its status. -/
def EngineOp.ended (o : EngineOp) (st : Byte) : EngineOp := { o with status := st, done := true, ready := true, held := none }

/-- What the end of an operation leaves where no skein waits. -/
theorem State.finishOp_quiet {s : State} (h : s.Quiet) {u : Nat} {o : EngineOp} (ho : s.op? u = some o) (st : Byte) :
    s.finishOp u st = { (s.updOp u fun _ => o.ended st).moveTl o.team o.tl with
      skeins := s.skeins.map fun k => k.showOp (o.ended st) } := by
  have hq : State.Quiet { (s.updOp u fun _ => o.ended st).moveTl o.team o.tl with
      skeins := s.skeins.map fun k => k.showOp (o.ended st) } := h.of_map (fun k => k.showOp (o.ended st)) (fun _ _ => rfl) rfl
  simp only [State.finishOp, ho]
  exact hq.settleHandles _

/-- A handle register that names the operation shows its end. -/
theorem Skein.showOp_hd (k : Skein) (o : EngineOp) {i : Nat} (hi : i < 8) (h : k.hdOp.getD i none = some o.uid) :
    (k.showOp o).hd.getD i 0 = handleWord false o.tl o.status o.num := by
  simp [Skein.showOp, List.getD_eq_getElem?_getD, hi] at h ⊢
  simp [h]

theorem Skein.nameOp_hdOp (k : Skein) {hd : Nat} (o : EngineOp) (h : hd < 8) : (k.nameOp hd o).hdOp.getD hd none = some o.uid := by
  rw [Skein.nameOp, bankUpd_getD _ _ _ _ _ _ h, if_pos rfl]

theorem Skein.nameOp_hd (k : Skein) {hd : Nat} (o : EngineOp) (h : hd < 8) :
    (k.nameOp hd o).hd.getD hd 0 = handleWord true o.tl 0 o.num := by
  rw [Skein.nameOp, bankUpd_getD _ _ _ _ _ _ h, if_pos rfl]

end Sys2Proof.Machine
end

section
/-!
SUPPORT. `gridgrow` and its answer (R19, R291).
-/

namespace Sys2Proof.Machine

/-! ### A group that is answered -/

@[simp] theorem Skein.updThreads_uid (k : Skein) (p : Nat → Bool) (f : Nat → Thread → Thread) : (k.updThreads p f).uid = k.uid := rfl

@[simp] theorem Skein.endWait_uid (k : Skein) (w : Wait) : (k.endWait w).uid = k.uid := rfl

/-- The end of a wait leaves the registers. -/
@[simp] theorem Skein.endWait_lane (k : Skein) (w : Wait) (r l : Nat) : (k.endWait w).lane r l = k.lane r l := rfl

theorem Skein.endWait_thread (k : Skein) (w : Wait) {l : Nat} (hl : l < 32) :
    (k.endWait w).thread l = if k.inWait w.id l then w.issue.past (k.thread l) else k.thread l :=
  k.thread_updThreads (k.inWait w.id) (fun _ t => w.issue.past t) l hl

theorem Skein.writeBy_rest (k : Skein) (e : Nat → Bool) (f : Reg) (p : Nat → Bool) (v : Nat → Lane) (t : Tag) :
    k.writeBy e f p v t = { k with regs := (k.writeBy e f p v t).regs } := by
  unfold Skein.writeBy
  rw [Skein.write_rest, Skein.dull_rest]

@[simp] theorem Skein.writeBy_uid (k : Skein) (e : Nat → Bool) (f : Reg) (p : Nat → Bool) (v : Nat → Lane) (t : Tag) :
    (k.writeBy e f p v t).uid = k.uid := by rw [Skein.writeBy_rest]

@[simp] theorem Skein.writeBy_thread (k : Skein) (e : Nat → Bool) (f : Reg) (p : Nat → Bool) (v : Nat → Lane) (t : Tag) :
    (k.writeBy e f p v t).thread = k.thread := by
  rw [Skein.writeBy_rest]
  rfl

@[simp] theorem Skein.writeBy_waits (k : Skein) (e : Nat → Bool) (f : Reg) (p : Nat → Bool) (v : Nat → Lane) (t : Tag) :
    (k.writeBy e f p v t).waits = k.waits := by rw [Skein.writeBy_rest]

/-- A guarded write gives the lanes that pass their value and leaves every other lane. -/
theorem Skein.writeBy_lane (k : Skein) (e : Nat → Bool) (f : Reg) (p : Nat → Bool) (v : Nat → Lane) (t : Tag) {r l : Nat}
    (hr : r < 64) (hl : l < 32) :
    (k.writeBy e f p v t).lane r l = if p l = true ∧ k.resolve l f = r then v l else k.lane r l := by
  have hspec := ((k.dull e (some f)).write_spec f p v t r hr).1 l hl
  rwa [Skein.dull_resolve, Skein.dull_lane _ _ _ _ _ hr] at hspec

/-- Outside every region a field names the register of its number (R51). -/
theorem Skein.resolve_outside (k : Skein) {l : Nat} (f : Reg) (h : (k.thread l).region = none) : k.resolve l f = f.toNat := by
  simp [Skein.resolve, h, resolveIn]

section Answer

variable {k : Skein} {w : Wait} {g : Guard} {d : Reg} {n : Src16}

/-- The lanes that take an answer: they stand in the wait and pass the guard. -/
def Skein.answered (k : Skein) (w : Wait) (g : Guard) (l : Nat) : Bool := k.inWait w.id l && guardPasses g (k.thread l)

theorem Skein.growAnswer_eq (hi : w.instr = .gridgrow g d n) (old : Nat) (ok : Bool) :
    k.growAnswer w old ok = ((k.writeBy (k.inWait w.id) d (k.answered w g) (fun _ => u64 old) .uniform).updThreads (k.answered w g)
      fun _ t => t.push ok).endWait w := by
  simp only [Skein.growAnswer, hi]
  rfl

@[simp] theorem Skein.growAnswer_uid (k : Skein) (w : Wait) (old : Nat) (ok : Bool) : (k.growAnswer w old ok).uid = k.uid := by
  unfold Skein.growAnswer
  split
  · simp only [Skein.endWait_uid, Skein.updThreads_uid, Skein.writeBy_uid]
  · rfl

theorem Skein.growAnswer_waits (hi : w.instr = .gridgrow g d n) (hw : k.waits = [w]) (old : Nat) (ok : Bool) :
    (k.growAnswer w old ok).waits = [] := by
  rw [Skein.growAnswer_eq hi]
  show (k.writeBy (k.inWait w.id) d (k.answered w g) (fun _ => u64 old) .uniform).waits.filter (fun x => x.id != w.id) = []
  rw [Skein.writeBy_waits, hw]
  simp

theorem Skein.growAnswer_lane (hi : w.instr = .gridgrow g d n) (hout : ∀ l, l < 32 → (k.thread l).region = none) (old : Nat) (ok : Bool)
    {r l : Nat} (hr : r < 64) (hl : l < 32) :
    (k.growAnswer w old ok).lane r l = if k.answered w g l = true ∧ d.toNat = r then u64 old else k.lane r l := by
  rw [Skein.growAnswer_eq hi, Skein.endWait_lane, ← k.resolve_outside d (hout l hl)]
  exact k.writeBy_lane _ d _ _ _ hr hl

theorem Skein.growAnswer_pred (hi : w.instr = .gridgrow g d n) (old : Nat) (ok : Bool) {l : Nat} (hl : l < 32) :
    ((k.growAnswer w old ok).thread l).pred =
      if k.answered w g l then ((k.thread l).push ok).pred else (k.thread l).pred := by
  rw [Skein.growAnswer_eq hi, Skein.endWait_thread _ _ hl, apply_ite Thread.pred, Issue.past_pred, ite_self,
    Skein.thread_updThreads _ _ _ _ hl, Skein.writeBy_thread, apply_ite Thread.pred]

end Answer

/-! ### The request -/

theorem execGridgrow_spec (g : Guard) (d : Reg) (n : Src16) (s : State) (h : s.Issuing) (hc : s.Clear (src16Regs n) [d]) :
    let i := Instr.gridgrow g d n
    let amount := s.growAmount g n
    let ill := fun (x : BitVec 8) => exec i s = .next (s.takeTrap { kind := 1, cause := x })
    (s.Some g → amount = 0 → ill 0x0A) ∧
    (s.cur.conductor = true → (s.Some g → amount ≠ 0) → ill 0x0B) ∧
    (s.cur.conductor = false →
      (¬ s.Some g → ∃ t, exec i s = .next t ∧ s.Became t s.moved) ∧
      (s.Some g → amount ≠ 0 → ∃ t, exec i s = .next t ∧ s.Waits t (.gridgrow amount s.now) i)) := by
  intro i amount ill
  have hexec : exec i s = s.finish
      (firstStop [illIf (s.anyPass g && amount == 0) .range, illIf s.cur.conductor .state])
      (if s.anyPass g then s.beginWait (.gridgrow amount s.now) i else s.advance) := by
    show execGridgrow g d n s = _
    simp only [execGridgrow, hc.srcMarks, hc.ck_extra, Option.isNone_none, Bool.true_and]
    rfl
  refine ⟨fun hs ha => ?_, fun hcon ha => ?_, fun hcon => ⟨fun hs => ⟨s.advance, ?_, State.advance_became h⟩,
    fun hs ha => ⟨_, ?_, State.beginWait_waits h _ i⟩⟩⟩
  · show exec i s = _
    rw [hexec, (s.anyPass_iff g).mpr hs, ha]
    rfl
  · have hnone : (s.anyPass g && amount == 0) = false := by
      by_cases hs : s.Some g
      · simp [ha hs]
      · simp [(s.anyPass_eq_false g).mpr hs]
    show exec i s = _
    rw [hexec, hnone, hcon]
    rfl
  · rw [hexec, (s.anyPass_eq_false g).mpr hs, hcon]
    rfl
  · rw [hexec, (s.anyPass_iff g).mpr hs, hcon, beq_false_of_ne ha]
    rfl

/-! ### The answer -/

/-- R19: a grid takes a raise that keeps it in its limits. -/
theorem Grid.canGrow_iff (g : Grid) (n : Nat) :
    g.canGrow n = true ↔ g.coop = false ∧ g.cancelled = false ∧ g.count + n ≤ 0xFFFFFF := by
  simp [Grid.canGrow, and_assoc]

/-- A grid after its answer. -/
def Grid.raised (g : Grid) (ok : Bool) (n : Nat) : Grid := if ok then { g with count := g.count + n } else g

/-- The state after the answer to a request at the head of its dispatcher's queue. -/
theorem execGridgrowAnswer_head {s : State} {k : Skein} {w : Wait} {gr : Grid} {m c : Nat} (hk : s.sk? k.uid = some k)
    (hw : k.wait? w.id = some w) (hkind : w.kind = .gridgrow m c) (hg : s.gridOf (s.team k.team) = some gr) :
    exec (.gridgrowAnswer k.uid w.id) s = .next (if s.growAhead (s.ctx k.ctx).part w.id then s else
      (s.updGrid gr.uid fun x => x.raised (gr.canGrow m) m).updSk k.uid fun k => k.growAnswer w gr.count (gr.canGrow m)) := by
  show execGridgrowAnswer k.uid w.id s = _
  simp only [execGridgrowAnswer, s.sk_eq hk, hw, hg, hkind]
  rfl

theorem claim_gridGrowth : Claim.GridGrowth := by
  refine ⟨execGridgrow_spec, ?_⟩
  intro g d n s k w gr m c hk hw hwaits hkind hi hg hgr hout hd ok p
  have hexec := execGridgrowAnswer_head hk hw hkind hg
  refine ⟨fun ha => by rw [hexec, ha]; rfl, fun ha => ?_⟩
  rw [ha] at hexec
  have hok : gr.canGrow m = decide ok := by
    rw [Bool.eq_iff_iff, Grid.canGrow_iff, decide_eq_true_iff]
  refine ⟨_, k.growAnswer w gr.count (gr.canGrow m), hexec, rfl, ?_, ?_, Skein.growAnswer_waits hi hwaits _ _, fun l hl => ?_,
    fun r l hr hl hrd => ?_, fun l hl => ?_⟩
  · refine (s.grid?_updGrid gr.uid (fun x => x.raised (gr.canGrow m) m) (fun x => by unfold Grid.raised; split <;> rfl) gr.uid).trans ?_
    rw [if_pos rfl, hgr, hok]
    by_cases h : ok <;> simp [Grid.raised, h]
  · refine (State.sk?_updSk _ k.uid _ (fun x => x.growAnswer_uid w gr.count _) k.uid).trans ?_
    rw [if_pos rfl]
    exact congrArg _ hk
  · rw [Skein.growAnswer_lane hi hout _ _ hd hl]
    simp only [and_true]
    rfl
  · rw [Skein.growAnswer_lane hi hout _ _ hr hl, if_neg fun h => hrd h.2.symm]
  · rw [Skein.growAnswer_pred hi _ _ hl, hok]
    rfl

end Sys2Proof.Machine
end

section
/-!
SUPPORT. The fields of a launch record (R14, R15) and what `launch` makes of it (R13, R16, R17, R290).
-/

namespace Sys2Proof.Machine

/-! ### Records -/

/-- The bytes of a prefix spell the sum of their places. -/
theorem ofBytes_take (n : Nat) (bs : List Byte) :
    ofBytes (bs.take n) = ((List.range n).map fun i => (bs.getD i 0).toNat * 256 ^ i).sum := by
  induction n generalizing bs with
  | zero => rfl
  | succ n ih =>
    cases bs with
    | nil => simp [ofBytes]
    | cons b bs =>
      have htail : ((List.range n).map fun i => (bs.getD i 0).toNat * 256 ^ (i + 1)).sum = 256 * ofBytes (bs.take n) := by
        rw [ih, ← List.sum_map_mul_left]
        exact congrArg List.sum (List.map_congr_left fun i _ => by ring)
      rw [List.range_succ_eq_map, List.map_cons, List.map_map, List.sum_cons]
      simpa [ofBytes, Function.comp_def] using htail.symm

/-- A field of a record as the statements read it. -/
theorem recField_eq (r : List Byte) (off n : Nat) : recField r off n = recAt r off n := by
  simp [recField, recAt, ofBytes_take, List.getD_eq_getElem?_getD]

/-- The low bits of a field are zero where it is a multiple. -/
theorem lowBits_u64 (x : Nat) {n : Nat} (hn : n ≤ 64) : ((u64 x).extractLsb' 0 n == 0) = decide (x % 2 ^ n = 0) := by
  have hdvd : 2 ^ n ∣ 2 ^ 64 := Nat.pow_dvd_pow 2 hn
  have hbits : ((u64 x).extractLsb' 0 n).toNat = x % 2 ^ n := by
    simpa [u64, BitVec.extractLsb'_toNat] using Nat.mod_mod_of_dvd x hdvd
  rw [Bool.eq_iff_iff, beq_iff_eq, decide_eq_true_iff, ← hbits, ← BitVec.toNat_inj]
  rfl

theorem claim_launchRecords : Claim.LaunchRecords := by
  intro r _
  have hentry := lowBits_u64 (recAt r 16 8) (n := 2) (by omega)
  have haddr := lowBits_u64 (recAt r 48 8) (n := 3) (by omega)
  simp only [recordOk, gridOfRecord, recField_eq, hentry, haddr, Bool.and_eq_true, decide_eq_true_eq]
  omega

/-! ### Who launches -/

theorem State.ckLauncher_leads {s : State} {l : Nat} (hlead : s.leader s.cur.team = some (s.cur.uid, l)) (he : s.executing l = true)
    (hwho : s.cur.conductor = true ∨ (s.gridOf (s.team s.cur.team)).isSome = true) : s.ckLauncher = none := by
  have hin : (!s.cur.conductor && (s.gridOf (s.team s.cur.team)).isNone) = false := by
    rcases hwho with h | h
    · simp [h]
    · simp [h]
  simp [State.ckLauncher, hlead, he, hin]

theorem State.ckLauncher_absent {s : State} (h : ∀ j, s.leader s.cur.team = some (s.cur.uid, j) → s.executing j = false) :
    s.ckLauncher = ill .state := by
  cases hl : s.leader s.cur.team with
  | none => simp [State.ckLauncher, hl, illIf]
  | some x =>
    obtain ⟨u, j⟩ := x
    have hnot : (u == s.cur.uid && s.executing j) = false := by
      by_cases hu : u = s.cur.uid
      · simp [h j (by rw [hl, hu])]
      · simp [hu]
    simp [State.ckLauncher, hl, hnot, illIf]

/-- The lane that launches, where the leader passes its guard. -/
theorem State.launchLane_of_leader {s : State} {l : Nat} (g : Guard) (hlead : s.leader s.cur.team = some (s.cur.uid, l)) :
    s.launchLane g = if guardPasses g (s.cur.thread l) then some l else none := by
  simp only [State.launchLane, hlead]

section Launch

variable {s : State} {g : Guard} {n a : Reg}

/-- With clear operands and a handle register that exists, only the question who launches can stop the instruction. -/
theorem State.launch_checks (hn : n.toNat < 8) (hc : s.Clear [plain a] []) :
    s.ckOperands [plain a] [] (firstStop [illIf (decide (8 ≤ n.toNat)) .range, s.ckLauncher]) = s.ckLauncher := by
  rw [hc.ck_extra, decide_eq_false (by omega), illIf_false]
  cases hl : s.ckLauncher <;> rfl

theorem execLaunch_absent (hn : n.toNat < 8) (hc : s.Clear [plain a] [])
    (h : ∀ j, s.leader s.cur.team = some (s.cur.uid, j) → s.executing j = false) :
    exec (.launch g n a) s = .next (s.takeTrap { kind := 1, cause := 0x0B }) := by
  have hpre := (State.launch_checks hn hc).trans (State.ckLauncher_absent h)
  show execLaunch g n a s = _
  simp only [execLaunch, hpre]
  rfl

theorem execLaunch_unguarded {l : Nat} (hn : n.toNat < 8) (hc : s.Clear [plain a] [])
    (hwho : s.cur.conductor = true ∨ (s.gridOf (s.team s.cur.team)).isSome = true)
    (hlead : s.leader s.cur.team = some (s.cur.uid, l)) (he : s.executing l = true) (hg : guardPasses g (s.cur.thread l) = false) :
    exec (.launch g n a) s = .next s.advance := by
  have hpre := (State.launch_checks hn hc).trans (State.ckLauncher_leads hlead he hwho)
  show execLaunch g n a s = _
  simp [execLaunch, hpre, State.launchLane_of_leader g hlead, hg]

theorem execLaunch_reads {l : Nat} {u : State} {x : Xlat} (hn : n.toNat < 8) (hc : s.Clear [plain a] [])
    (hwho : s.cur.conductor = true ∨ (s.gridOf (s.team s.cur.team)).isSome = true)
    (hlead : s.leader s.cur.team = some (s.cur.uid, l)) (he : s.executing l = true) (hg : guardPasses g (s.cur.thread l) = true)
    (halign : (s.cur.read a l).toNat % 64 = 0) (hcan : canonical (s.cur.read a l) = true) (hfence : s.fenceMet s.cur 2 = true)
    (hroom : (s.openOps s.cur.team 7).length < 64) (ht : s.translate s.cur.ctx (s.cur.read a l) = (u, .ok x)) (hr : x.r = true)
    (hk : x.kind ≠ 2) (hthere : x.there = true) :
    exec (.launch g n a) s = .next (u.launchRecord n.toNat (s.cur.read a l) x.key).advance := by
  have hpre := (State.launch_checks hn hc).trans (State.ckLauncher_leads hlead he hwho)
  have htl : s.ckTimeline 7 = none := by simp [State.ckTimeline, holdIf, hroom]
  show execLaunch g n a s = _
  simp [execLaunch, hpre, State.launchLane_of_leader g hlead, hg, halign, hcan, hfence, htl, ht, hr, hthere, holdIf, firstStop]
  exact fun h => absurd h hk

end Launch

/-! ### The operation of a launch -/

/-- The operation on tl7 that a launch starts. -/
def State.launchOp (s : State) : EngineOp := s.newOp 7 { kind := .launch }

/-- The state with the record's request counted and the operation started. -/
def State.launched (s : State) (hd key : Nat) : State := ((s.countDie key s.cur.core 1).startOp hd 7 { kind := .launch }).2

theorem State.launched_eq (s : State) (hd key : Nat) :
    ∃ d, s.launched hd key = (State.startOp { s with dowser := d } hd 7 { kind := .launch }).2 :=
  ⟨_, by rw [State.launched, State.countDie_rest]⟩

section Launched

variable {s : State} (hi : s.Issuing) (hd key : Nat)

/-- What the start of the operation leaves. -/
theorem State.launched_rest (s : State) (hd key : Nat) :
    let t := s.launched hd key
    t = { s with dowser := t.dowser, idCtr := t.idCtr, ops := t.ops, teams := t.teams, skeins := t.skeins } := by
  obtain ⟨d, h⟩ := s.launched_eq hd key
  rw [h]
  rfl

include hi in
theorem State.launched_issuing : (s.launched hd key).Issuing := by
  obtain ⟨d, h⟩ := s.launched_eq hd key
  rw [h]
  exact State.startOp_issuing (s := { s with dowser := d }) hi _ _ _

include hi in
theorem State.launched_cur : (s.launched hd key).cur = s.cur.nameOp hd s.launchOp := by
  obtain ⟨d, h⟩ := s.launched_eq hd key
  rw [h]
  exact State.startOp_cur (s := { s with dowser := d }) hi _ _ _

theorem State.launched_op? (hn : s.NewName) : (s.launched hd key).op? s.idCtr = some s.launchOp := by
  obtain ⟨d, h⟩ := s.launched_eq hd key
  rw [h]
  exact State.startOp_op? (s := { s with dowser := d }) hn _ _ _

include hi in
theorem State.launched_quiet (hq : s.Quiet) : (s.launched hd key).Quiet := by
  obtain ⟨d, h⟩ := s.launched_eq hd key
  have hw : (s.cur.nameOp hd s.launchOp).waits = [] := hq s.cur (State.cur_mem hi)
  rw [h]
  intro k hk
  obtain ⟨x, hx, rfl⟩ := List.mem_map.mp hk
  split
  · exact hw
  · exact hq x hx

end Launched

/-! ### The end of an operation that a handle names -/

section Ended

variable {s : State} {u : Nat} {o : EngineOp}

theorem State.finishOp_sk? (hq : s.Quiet) (ho : s.op? u = some o) (st : Byte) (v : Nat) :
    (s.finishOp u st).sk? v = (s.sk? v).map fun k => k.showOp (o.ended st) := by
  rw [State.finishOp_quiet hq ho]
  exact find?_map_keyed Skein.uid (fun k => k.showOp (o.ended st)) (fun _ => rfl) s.skeins v

/-- The end of an operation leaves the grids, and a handle that names it shows the status once its group has moved on. -/
theorem State.finishOp_handle (hi : s.Issuing) (hq : s.Quiet) (ho : s.op? u = some o) {hd : Nat} (hhd : hd < 8)
    (hname : s.cur.hdOp.getD hd none = some o.uid) (st : Byte) :
    (s.finishOp u st).advance.grids = s.grids ∧
      (s.finishOp u st).advance.cur.hd.getD hd 0 = handleWord false o.tl st o.num := by
  have hfin := State.finishOp_quiet hq ho st
  have hissue : (s.finishOp u st).issue = s.issue := by rw [hfin]; rfl
  obtain ⟨k, hk⟩ := hi
  have hk' : (s.finishOp u st).sk? (s.finishOp u st).issue.sk = some (k.showOp (o.ended st)) := by
    rw [hissue, State.finishOp_sk? hq ho, hk]
    rfl
  refine ⟨by rw [State.advance_grids, hfin]; rfl, ?_⟩
  rw [State.cur_advance _ ⟨_, hk'⟩, State.cur_eq _ hk']
  rw [s.cur_eq hk] at hname
  exact k.showOp_hd (o.ended st) hhd hname

end Ended

end Sys2Proof.Machine
end

section
/-!
SUPPORT. What `launch` makes of a record that reads (R13 to R17, R290).
-/

namespace Sys2Proof.Machine

/-! ### The record taken or refused -/

/-- R403: no trace record is made while no kind is enabled. -/
theorem State.trace_off {s : State} {k : Skein} (h : (s.ctx k.ctx).dbg.tren = 0) (kind : Nat) (pc : Lane) (part : List Byte) :
    s.trace k kind pc part = s := by
  have hoff : (s.debugOf k.ctx).tren = 0 := by
    unfold State.debugOf
    split
    · rfl
    · exact h
  simp [State.trace, hoff]

/-- An operation that failed at an address. -/
def EngineOp.failedAt (o : EngineOp) (a : Lane) : EngineOp := { o with failAddr := a }

/-- The depth of what a skein launches. -/
def State.launchDepth (s : State) : Nat := ((s.gridOf (s.team s.cur.team)).map (·.depth)).getD 0 + 1

/-- The partition of the issuing skein. -/
def State.curPart (s : State) : Nat := (s.ctx s.cur.ctx).part

/-- The record a launch reads. -/
def State.launchBytes (s : State) (key : Nat) : List Byte := s.load s.curPart key 64

/-- The grid that a launch makes of its record. -/
def State.gridMade (s : State) (hd key : Nat) (va : Lane) : Grid :=
  { gridOfRecord (s.launchBytes key) with
    uid := s.idCtr, ctx := s.cur.ctx, recAddr := va, depth := s.launchDepth, parent := (s.gridOf (s.team s.cur.team)).map (·.uid)
    order := s.idCtr, op := s.idCtr, area := (s.launched hd key).takeSlot s.cur.ctx gridSlot }

/-- The word of a launch's handle. -/
def State.launchWord (s : State) (pending : Bool) (st : Byte) : Lane :=
  handleWord pending 7 st ((s.team s.cur.team).tlIssued.getD 7 0 + 1)

/-- What a launch answers: the grids there are, and the word of its handle once its group has moved on. -/
structure State.LaunchAnswer (s t : State) (hd : Nat) (grids : List Grid) (word : Lane) : Prop where
  grids : t.advance.grids = grids
  word  : t.advance.cur.hd.getD hd 0 = word

section Record

variable {s : State} {hd key : Nat} {va : Lane}

theorem State.startOp_launched (s : State) (hd key : Nat) :
    (s.countDie key s.cur.core 1).startOp hd 7 { kind := .launch } = (s.idCtr, s.launched hd key) := by
  refine Prod.ext ?_ rfl
  rw [State.countDie_rest]
  rfl

/-- Starting the operation changes nothing that a record is judged by. -/
theorem State.launched_refuse (s : State) (hd key part depth : Nat) (r : List Byte) :
    (s.launched hd key).refuse part depth r = s.refuse part depth r := by
  rw [s.launched_rest hd key]
  rfl

theorem State.launched_poisonAt (s : State) (hd key at' n : Nat) : (s.launched hd key).poisonAt at' n = s.poisonAt at' n := by
  rw [s.launched_rest hd key]
  rfl

theorem State.launchRecord_poisoned (h : s.poisonAt key 64 = true) :
    s.launchRecord hd va key = ((s.launched hd key).updOp s.idCtr fun o => o.failedAt va).finishOp s.idCtr 8 := by
  simp only [State.launchRecord, s.startOp_launched, State.launched_poisonAt, h]
  rfl

theorem State.launchRecord_refused (h : s.poisonAt key 64 = false) {code : Byte}
    (hr : s.refuse s.curPart s.launchDepth (s.launchBytes key) = some code) :
    s.launchRecord hd va key = (s.launched hd key).finishOp s.idCtr code := by
  have hr' := (s.launched_refuse hd key s.curPart s.launchDepth (s.launchBytes key)).trans hr
  unfold State.curPart State.launchDepth State.launchBytes at hr'
  simp only [State.launchRecord, s.startOp_launched, State.launched_poisonAt, h]
  rw [if_neg (by simp)]
  split
  · rename_i c hc
    rw [Option.some.inj (hc.symm.trans hr')]
  · rename_i hc
    exact absurd (hc.symm.trans hr') (by simp)

theorem State.launchRecord_made (h : s.poisonAt key 64 = false)
    (hr : s.refuse s.curPart s.launchDepth (s.launchBytes key) = none) (ht : (s.ctx s.cur.ctx).dbg.tren = 0) :
    s.launchRecord hd va key = { s.launched hd key with grids := s.grids ++ [s.gridMade hd key va] } := by
  have hr' := (s.launched_refuse hd key s.curPart s.launchDepth (s.launchBytes key)).trans hr
  unfold State.curPart State.launchDepth State.launchBytes at hr'
  have hrest := s.launched_rest hd key
  have hgrids : (s.launched hd key).grids = s.grids := by rw [hrest]
  have hctx : (State.ctx { s.launched hd key with grids := s.grids ++ [s.gridMade hd key va] } s.cur.ctx).dbg.tren = 0 := by
    rw [hrest]
    exact ht
  simp only [State.launchRecord, s.startOp_launched, State.launched_poisonAt, h]
  rw [if_neg (by simp)]
  split
  · rename_i c hc
    exact absurd (hc.symm.trans hr') (by simp)
  · rw [hgrids]
    exact State.trace_off hctx _ _ _

variable (hi : s.Issuing) (hn : s.NewName) (hq : s.Quiet) (hhd : hd < 8)
include hi hn hq hhd

theorem State.launchRecord_poisoned_answer (h : s.poisonAt key 64 = true) :
    s.LaunchAnswer (s.launchRecord hd va key) hd s.grids (s.launchWord false 8) := by
  have hrest := s.launched_rest hd key
  have ho : ((s.launched hd key).updOp s.idCtr fun o => o.failedAt va).op? s.idCtr =
      some (s.launchOp.failedAt va) := by
    rw [State.op?_updOp _ _ (fun o => o.failedAt va) (fun _ => rfl), if_pos rfl, State.launched_op? hd key hn]
    rfl
  have hname : ((s.launched hd key).updOp s.idCtr fun o => o.failedAt va).cur.hdOp.getD hd none = some s.idCtr := by
    refine (congrArg (fun k : Skein => k.hdOp.getD hd none) (State.launched_cur hi hd key)).trans ?_
    exact Skein.nameOp_hdOp _ _ hhd
  have hend := State.finishOp_handle (s := (s.launched hd key).updOp s.idCtr fun o => o.failedAt va)
    (State.launched_issuing hi hd key) (State.launched_quiet hi hd key hq) ho hhd hname 8
  rw [State.launchRecord_poisoned h]
  exact ⟨hend.1.trans (by rw [hrest]; rfl), hend.2⟩

theorem State.launchRecord_refused_answer (h : s.poisonAt key 64 = false) {code : Byte}
    (hr : s.refuse s.curPart s.launchDepth (s.launchBytes key) = some code) :
    s.LaunchAnswer (s.launchRecord hd va key) hd s.grids (s.launchWord false code) := by
  have hrest := s.launched_rest hd key
  have hname : (s.launched hd key).cur.hdOp.getD hd none = some s.idCtr := by
    rw [State.launched_cur hi hd key]
    exact Skein.nameOp_hdOp _ _ hhd
  have hend := State.finishOp_handle (State.launched_issuing hi hd key) (State.launched_quiet hi hd key hq)
    (State.launched_op? hd key hn) hhd hname code
  rw [State.launchRecord_refused h hr]
  exact ⟨hend.1.trans (by rw [hrest]), hend.2⟩

omit hn hq in
theorem State.launchRecord_made_answer (h : s.poisonAt key 64 = false)
    (hr : s.refuse s.curPart s.launchDepth (s.launchBytes key) = none) (ht : (s.ctx s.cur.ctx).dbg.tren = 0) :
    s.LaunchAnswer (s.launchRecord hd va key) hd (s.grids ++ [s.gridMade hd key va]) (s.launchWord true 0) := by
  have hnamed := congrArg Skein.hd (State.launched_cur hi hd key)
  have hcur : (State.advance { s.launched hd key with grids := s.grids ++ [s.gridMade hd key va] }).cur.hd =
      (s.cur.nameOp hd s.launchOp).hd :=
    (congrArg Skein.hd (State.cur_advance { s.launched hd key with grids := s.grids ++ [s.gridMade hd key va] }
      (State.launched_issuing hi hd key))).trans hnamed
  rw [State.launchRecord_made h hr ht]
  exact ⟨rfl, by rw [hcur]; exact Skein.nameOp_hd _ _ hhd⟩

end Record

/-! ### Which records are refused (R16, R17) -/

theorem State.refuse_malformed {s : State} {r : List Byte} (part depth : Nat) (h : recordOk r = false) :
    s.refuse part depth r = some 3 := by
  simp [State.refuse, h]

theorem State.refuse_deep {s : State} {r : List Byte} (part : Nat) {depth : Nat} (h : recordOk r = true) (hd : 10 < depth) :
    s.refuse part depth r = some 4 := by
  simp [State.refuse, h, hd]

theorem State.refuse_large {s : State} {r : List Byte} {part depth : Nat} (h : recordOk r = true) (hd : depth ≤ 10)
    (hc : (gridOfRecord r).coop = true) (hl : (gridOfRecord r).perCore * (s.coresOf part).length < (gridOfRecord r).count) :
    s.refuse part depth r = some 5 := by
  simp [State.refuse, h, Nat.not_lt.mpr hd, hc, hl]

theorem State.refuse_none {s : State} {r : List Byte} {part depth : Nat} (h : recordOk r = true) (hd : depth ≤ 10)
    (hl : (gridOfRecord r).coop = true → (gridOfRecord r).count ≤ (gridOfRecord r).perCore * (s.coresOf part).length) :
    s.refuse part depth r = none := by
  simpa [State.refuse, h, Nat.not_lt.mpr hd] using hl

theorem claim_launchResults : Claim.LaunchResults := by
  intro g n a s l x u hi hn hc hwho i va
  refine ⟨execLaunch_absent hn hc, fun hlead he => ⟨fun hg => ⟨s.advance, execLaunch_unguarded hn hc hwho hlead he hg,
    State.advance_became hi⟩, ?_⟩⟩
  intro hg halign hcan hfence hroom ht hr hkind hthere hnew hquiet htren r up depth word
  have hexec := execLaunch_reads hn hc hwho hlead he hg halign hcan hfence hroom ht hr hkind hthere
  obtain ⟨tb, rfl⟩ : ∃ tb, u = { s with tlb := tb } := ⟨_, State.translate_rest ht⟩
  have hword : ∀ {st : Byte}, State.LaunchAnswer { s with tlb := tb } (State.launchRecord { s with tlb := tb } n.toNat va x.key) n.toNat
      s.grids (s.launchWord false st) → word st := fun h => ⟨_, hexec, h.grids, h.word⟩
  refine ⟨fun hp => hword (State.launchRecord_poisoned_answer (s := { s with tlb := tb }) hi hnew hquiet hn hp),
    fun hp hbad => hword ?_, fun hp hok hdeep => hword ?_, fun hp hok hdepth => ⟨fun hcoop hlarge => hword ?_, fun hfits => ?_⟩⟩
  · exact State.launchRecord_refused_answer (s := { s with tlb := tb }) hi hnew hquiet hn hp (State.refuse_malformed _ _ hbad)
  · exact State.launchRecord_refused_answer (s := { s with tlb := tb }) hi hnew hquiet hn hp (State.refuse_deep _ hok hdeep)
  · exact State.launchRecord_refused_answer (s := { s with tlb := tb }) hi hnew hquiet hn hp (State.refuse_large hok hdepth hcoop hlarge)
  · have hmade := State.launchRecord_made_answer (s := { s with tlb := tb }) (va := va) hi hn hp
      (State.refuse_none hok hdepth hfits) htren
    refine ⟨_, _, hexec, hmade.grids, ?_, ?_, ?_, ?_, ?_, ?_, ?_, ?_, ?_, ?_, rfl, rfl, rfl, rfl, hmade.word⟩
    · exact recField_eq r 0 4
    · exact recField_eq r 4 2
    · exact recField_eq r 6 1
    · exact recField_eq r 7 1
    · exact recField_eq r 8 4
    · exact recField_eq r 12 2
    · exact congrArg (· % 4) (recField_eq r 14 1)
    · rw [← recField_eq]
      exact decide_eq_true_iff
    · exact congrArg u64 (recField_eq r 16 8)
    · exact congrArg u64 (recField_eq r 24 8)

end Sys2Proof.Machine

/-- Settles O49: a launch by the record it reads, the fields of a record, and growth by its request and its answer. -/
theorem launches : Obligations.Launches :=
  ⟨Sys2Proof.Machine.claim_launchResults, Sys2Proof.Machine.claim_launchRecords, Sys2Proof.Machine.claim_gridGrowth⟩
end

section
/-!
SUPPORT. The dispatcher (R20 to R22): whose team comes next, where it goes, and what its placement makes.
-/

namespace Sys2Proof.Machine

/-! ### Least elements -/

theorem minBy_eq_none {α : Type} (key : α → Nat) (l : List α) : minBy key l = none ↔ l = [] := by
  cases l with
  | nil => simp [minBy]
  | cons x xs =>
    simp only [minBy, reduceCtorEq, iff_false]
    split
    · simp
    · split <;> simp

/-- The least element is one of the list, and no key is below its own. -/
theorem minBy_spec {α : Type} {key : α → Nat} {l : List α} {x : α} (h : minBy key l = some x) : x ∈ l ∧ ∀ y ∈ l, key x ≤ key y := by
  induction l generalizing x with
  | nil => cases h
  | cons z zs ih =>
    simp only [minBy] at h
    cases hm : minBy key zs with
    | none =>
      obtain rfl := (minBy_eq_none key zs).mp hm
      obtain rfl : z = x := by simpa [hm] using h
      simp
    | some m =>
      obtain ⟨hmem, hmin⟩ := ih hm
      rw [hm] at h
      by_cases hlt : key m < key z
      · obtain rfl : m = x := by simpa [hlt] using h
        exact ⟨List.mem_cons_of_mem _ hmem, List.forall_mem_cons.mpr ⟨hlt.le, hmin⟩⟩
      · obtain rfl : z = x := by simpa [hlt] using h
        exact ⟨List.mem_cons_self, List.forall_mem_cons.mpr ⟨le_rfl, fun y hy => (Nat.not_lt.mp hlt).trans (hmin y hy)⟩⟩

/-- The greatest of some numbers bounds each of them. -/
theorem le_foldl_max {l : List Nat} {n : Nat} (h : n ∈ l) : n ≤ l.foldl max 0 := by
  rw [List.foldl_eq_foldr]
  exact List.le_max_of_le h le_rfl

/-- Where there are numbers, the greatest is one of them. -/
theorem foldl_max_mem {l : List Nat} (h : l ≠ []) : l.foldl max 0 ∈ l := by
  rw [List.foldl_eq_foldr]
  exact List.maximum_mem (List.foldr_max_of_ne_nil h).symm

/-! ### Whose team comes next (R21) -/

theorem State.nextGrid_eq_none (s : State) (part : Nat) : s.nextGrid part = none ↔ ∀ g ∈ s.grids, s.pending part g = false := by
  simp [State.nextGrid, minBy_eq_none, List.filter_eq_nil_iff]

theorem State.nextGrid_spec {s : State} {part : Nat} {g : Grid} (hb : ∀ g ∈ s.grids, g.prio ≤ 3 ∧ g.order < 2 ^ 64)
    (h : s.nextGrid part = some g) : g ∈ s.grids ∧ s.pending part g = true ∧
      ∀ x ∈ s.grids, s.pending part x = true → x.prio < g.prio ∨ (x.prio = g.prio ∧ g.order ≤ x.order) := by
  obtain ⟨hmem, hmin⟩ := minBy_spec h
  obtain ⟨hg, hp⟩ := List.mem_filter.mp hmem
  refine ⟨hg, hp, fun x hx hpx => ?_⟩
  have hle := hmin x (List.mem_filter.mpr ⟨hx, hpx⟩)
  have hbg := hb g hg
  have hbx := hb x hx
  omega

/-! ### Where it goes (R21) -/

section Core

variable {s : State} {part : Nat} {rank : Nat → Nat} {ok : Nat → Bool}

/-- The resident threads of a partition on a die. -/
def State.dieLoad (s : State) (part die : Nat) : Nat := (((s.coresOf part).filter fun c => dieOf c == die).map s.threadsOn).sum

/-- The dies that have a core for a need. -/
def State.diesWith (s : State) (part : Nat) (ok : Nat → Bool) : List Nat := (((s.coresOf part).filter ok).map dieOf).dedup

theorem State.coresOf_lt {c : Nat} (h : c ∈ s.coresOf part) : c < 768 := by
  simpa [Config.cores] using (List.mem_filter.mp h).1

theorem dieOf_lt {c : Nat} (h : c < 768) : dieOf c < 4 := by
  unfold dieOf
  omega

theorem State.mem_diesWith {c : Nat} (h : c ∈ s.coresOf part) (hok : ok c = true) : dieOf c ∈ s.diesWith part ok :=
  List.mem_dedup.mpr (List.mem_map_of_mem (List.mem_filter.mpr ⟨h, hok⟩))

theorem State.of_mem_diesWith {d : Nat} (h : d ∈ s.diesWith part ok) : ∃ c ∈ s.coresOf part, ok c = true ∧ dieOf c = d := by
  obtain ⟨c, hc, rfl⟩ := List.mem_map.mp (List.mem_dedup.mp h)
  exact ⟨c, (List.mem_filter.mp hc).1, (List.mem_filter.mp hc).2, rfl⟩

/-- The die that is chosen among those with a core. -/
def State.chooseDie (s : State) (part : Nat) (rank : Nat → Nat) (ok : Nat → Bool) : Option Nat :=
  minBy (fun d => s.dieLoad part d * 4 + d)
    ((s.diesWith part ok).filter fun d => rank d == ((s.diesWith part ok).map rank).foldl max 0)

theorem State.chooseCore_eq (s : State) (part : Nat) (rank : Nat → Nat) (ok : Nat → Bool) :
    s.chooseCore part rank ok = (s.chooseDie part rank ok).bind fun d =>
      minBy (fun c => s.threadsOn c * 1024 + c) (((s.coresOf part).filter ok).filter fun c => dieOf c == d) := by
  unfold State.chooseCore State.chooseDie State.diesWith State.dieLoad
  dsimp only
  split
  · rename_i hnone
    rw [hnone, Option.bind_none]
  · rename_i d hd
    rw [hd, Option.bind_some]

/-- Every die with a core leaves one to choose. -/
theorem State.chooseDie_isSome {d : Nat} (h : d ∈ s.diesWith part ok) : ∃ e, s.chooseDie part rank ok = some e := by
  refine Option.ne_none_iff_exists'.mp fun hnone => ?_
  have hne : (s.diesWith part ok).map rank ≠ [] := by simpa using List.ne_nil_of_mem h
  obtain ⟨e, he, hrank⟩ := List.mem_map.mp (foldl_max_mem hne)
  have hmem : e ∈ (s.diesWith part ok).filter fun d => rank d == ((s.diesWith part ok).map rank).foldl max 0 :=
    List.mem_filter.mpr ⟨he, beq_iff_eq.mpr hrank⟩
  rw [(minBy_eq_none _ _).mp hnone] at hmem
  cases hmem

/-- The die chosen has a core, the highest rank, then the fewest threads, then the lowest number. -/
theorem State.chooseDie_spec {d : Nat} (h : s.chooseDie part rank ok = some d) : d ∈ s.diesWith part ok ∧
    ∀ e ∈ s.diesWith part ok, rank e < rank d ∨ (rank e = rank d ∧ s.dieLoad part d * 4 + d ≤ s.dieLoad part e * 4 + e) := by
  obtain ⟨hmem, hmin⟩ := minBy_spec h
  obtain ⟨hd, hrank⟩ := List.mem_filter.mp hmem
  have hrank : rank d = ((s.diesWith part ok).map rank).foldl max 0 := beq_iff_eq.mp hrank
  refine ⟨hd, fun e he => ?_⟩
  have hle : rank e ≤ rank d := hrank ▸ le_foldl_max (List.mem_map_of_mem he)
  rcases Nat.lt_or_eq_of_le hle with hlt | heq
  · exact .inl hlt
  · exact .inr ⟨heq, hmin e (List.mem_filter.mpr ⟨he, beq_iff_eq.mpr (heq.trans hrank)⟩)⟩

theorem State.chooseCore_eq_none : s.chooseCore part rank ok = none ↔ ∀ x ∈ s.coresOf part, ok x = false := by
  rw [State.chooseCore_eq]
  refine ⟨fun h x hx => Bool.eq_false_iff.mpr fun hok => ?_, fun h => ?_⟩
  · obtain ⟨d, hd⟩ := State.chooseDie_isSome (rank := rank) (State.mem_diesWith hx hok)
    obtain ⟨c, hc, hokc, rfl⟩ := State.of_mem_diesWith (State.chooseDie_spec hd).1
    rw [hd, Option.bind_some, minBy_eq_none] at h
    have hmem : c ∈ ((s.coresOf part).filter ok).filter fun x => dieOf x == dieOf c :=
      List.mem_filter.mpr ⟨List.mem_filter.mpr ⟨hc, hokc⟩, beq_self_eq_true _⟩
    rw [h] at hmem
    cases hmem
  · have hnil : s.diesWith part ok = [] := by
      refine List.eq_nil_iff_forall_not_mem.mpr fun d hd => ?_
      obtain ⟨c, hc, hok, -⟩ := State.of_mem_diesWith hd
      rw [h c hc] at hok
      cases hok
    simp [State.chooseDie, hnil, minBy]

theorem State.chooseCore_spec {c : Nat} (h : s.chooseCore part rank ok = some c) : c ∈ s.coresOf part ∧ ok c = true ∧
    ∀ x ∈ s.coresOf part, ok x = true →
      (rank (dieOf x) < rank (dieOf c) ∨ (rank (dieOf x) = rank (dieOf c) ∧
        (s.dieLoad part (dieOf c) < s.dieLoad part (dieOf x) ∨
          (s.dieLoad part (dieOf c) = s.dieLoad part (dieOf x) ∧ dieOf c ≤ dieOf x)))) ∧
      (dieOf x = dieOf c → s.threadsOn c < s.threadsOn x ∨ (s.threadsOn c = s.threadsOn x ∧ c ≤ x)) := by
  rw [State.chooseCore_eq] at h
  obtain ⟨d, hd, hcore⟩ := Option.bind_eq_some_iff.mp h
  obtain ⟨hmem, hmin⟩ := minBy_spec hcore
  obtain ⟨hmem, hdie⟩ := List.mem_filter.mp hmem
  obtain ⟨hc, hok⟩ := List.mem_filter.mp hmem
  obtain rfl := beq_iff_eq.mp hdie
  refine ⟨hc, hok, fun x hx hokx => ⟨?_, fun hsame => ?_⟩⟩
  · have hdc := dieOf_lt (State.coresOf_lt hc)
    have hdx := dieOf_lt (State.coresOf_lt hx)
    rcases (State.chooseDie_spec hd).2 _ (State.mem_diesWith hx hokx) with hlt | ⟨heq, hle⟩
    · exact .inl hlt
    · exact .inr ⟨heq, by omega⟩
  · have hlt := State.coresOf_lt hc
    have hltx := State.coresOf_lt hx
    have hle := hmin x (List.mem_filter.mpr ⟨List.mem_filter.mpr ⟨hx, hokx⟩, beq_iff_eq.mpr hsame⟩)
    omega

end Core

/-- The core for a team is one that fits it. -/
theorem State.coreFor_fits (s : State) (g : Grid) : ∃ ok, (∀ c, ok c = true → s.fits g.need c = true) ∧
    s.coreFor g = s.chooseCore (s.ctx g.ctx).part (s.affinityOn g) ok := by
  unfold State.coreFor
  refine ⟨_, fun c hc => ?_, rfl⟩
  simp only [Bool.and_eq_true] at hc
  exact hc.1.1

theorem claim_dispatchOrder : Claim.DispatchOrder := fun s part hb =>
  ⟨s.nextGrid_eq_none part, fun _ h => State.nextGrid_spec hb h, fun _ => rfl,
    fun _ _ => ⟨State.chooseCore_eq_none, fun _ h => State.chooseCore_spec h⟩, fun g _ => s.coreFor_fits g⟩

end Sys2Proof.Machine
end

section
/-!
SUPPORT. What the placement of a team makes (R10, R20, R21, R306).
-/

namespace Sys2Proof.Machine

/-! ### The skeins of a team take their slots -/

/-- The skein of a number as it is seated: the lowest free slot of its quadrant, a place in the save area. -/
def State.seatedSkein (s : State) (g : Grid) (team core index i : Nat) : Skein :=
  { newSkein s.idCtr g team core i ((s.fresh.2.slotIn core (i % 4)).getD 0) s.now index with
    area := s.fresh.2.takeSlot g.ctx skeinSlot }

/-- One skein of a new team takes its slot. -/
def State.seatSkein (s : State) (g : Grid) (team core index i : Nat) : State :=
  { s.fresh.2 with skeins := s.skeins ++ [s.seatedSkein g team core index i] }

theorem State.seatSkeins_eq (s : State) (g : Grid) (team core index : Nat) :
    s.seatSkeins g team core index = (List.range (skeinsFor g.size)).foldl (fun s i => s.seatSkein g team core index i) s := rfl

/-- The skeins seated: one for each number, each a new skein of the team but for its name, slot and place in the save area. -/
structure State.Seated (s t : State) (g : Grid) (team core index : Nat) (ks : List Skein) : Prop where
  rest : ∃ n, t = { s with idCtr := n, skeins := s.skeins ++ ks }
  each : ∀ i, i < ks.length → ∃ u slot area, ks.getD i {} = { newSkein u g team core i slot s.now index with area := area }

theorem State.seatSkeins_upTo (s : State) (g : Grid) (team core index n : Nat) :
    ∃ ks, ks.length = n ∧ s.Seated ((List.range n).foldl (fun s i => s.seatSkein g team core index i) s) g team core index ks := by
  induction n with
  | zero => exact ⟨[], rfl, ⟨s.idCtr, by simp⟩, by simp⟩
  | succ n ih =>
    obtain ⟨ks, hlen, ⟨c, hrest⟩, heach⟩ := ih
    rw [List.range_succ, List.foldl_append, List.foldl_cons, List.foldl_nil, hrest]
    refine ⟨ks ++ [State.seatedSkein { s with idCtr := c, skeins := s.skeins ++ ks } g team core index n], by simp [hlen],
      ⟨c + 1, ?_⟩, fun i hi => ?_⟩
    · rw [← List.append_assoc]
      rfl
    · rcases Nat.lt_or_eq_of_le (Nat.le_of_lt_succ (by simpa [hlen] using hi)) with hlt | rfl
      · rw [List.getD_append _ _ _ _ (by omega)]
        exact heach i (by omega)
      · rw [List.getD_append_right _ _ _ _ (by omega), hlen, Nat.sub_self]
        exact ⟨_, _, _, rfl⟩

theorem State.seatSkeins_seated (s : State) (g : Grid) (team core index : Nat) :
    ∃ ks, ks.length = skeinsFor g.size ∧ s.Seated (s.seatSkeins g team core index) g team core index ks :=
  s.seatSkeins_upTo g team core index _

/-- A thread of a new skein stands at the entry, and has exited where its number lies past the size. -/
theorem newSkein_thread (u : Nat) (g : Grid) (team core i slot now index : Nat) {l : Nat} (hl : l < 32) :
    (newSkein u g team core i slot now index).thread l = { pc := g.entry, exited := decide (g.size ≤ 32 * i + l) } := by
  have hlive : decide (g.size - 32 * i ≤ l) = decide (g.size ≤ 32 * i + l) := decide_eq_decide.mpr (by omega)
  rw [← hlive]
  simp [newSkein, Skein.thread, startThreads, allLanes, List.getD_eq_getElem?_getD, hl]

/-- Its registers read zero. -/
theorem newSkein_reg (u : Nat) (g : Grid) (team core i slot now index : Nat) {r : Nat} (hr : r < 64) :
    (newSkein u g team core i slot now index).reg r = {} := by
  show (List.replicate 64 ({} : VReg)).getD r {} = {}
  rw [List.getD_eq_getElem?_getD, List.getElem?_replicate, if_pos hr]
  rfl

/-! ### A team without scratch and seep is placed -/

theorem State.claimScratch_zero (s : State) (core base ctx : Nat) : s.claimScratch core base 0 ctx = s := rfl

theorem State.openSeep_zero (s : State) (g cluster : Nat) : s.openSeep g cluster 0 = s := by simp [State.openSeep]

/-- The grid with a slot of the save area. -/
def State.withArea (s : State) (g : Grid) : State :=
  if g.area.isSome then s.fresh.2 else s.fresh.2.updGrid g.uid fun x => { x with area := s.fresh.2.takeSlot g.ctx gridSlot }

/-- The team that is placed. -/
def State.newTeam (s : State) (g : Grid) (core : Nat) : Team :=
  { uid := s.idCtr, ctx := g.ctx, grid := some g.uid, index := g.next, size := g.size, core := core, regs0 := g.regs
    barriers := List.replicate g.barriers {}, scratchBase := (s.fresh.2.scratchFit core g.scratch).getD 0, scratchBytes := g.scratch
    area := ((s.withArea g).dropL1 core).takeSlot g.ctx (teamSlot g.scratch) }

/-- The state before its skeins are seated. -/
def State.withTeam (s : State) (g : Grid) (core : Nat) : State :=
  { (s.withArea g).dropL1 core with teams := s.teams ++ [s.newTeam g core] }

/-- A grid of which one team more is placed. -/
def Grid.counted (g : Grid) : Grid := { g with next := g.next + 1 }

/-- What stands before the skeins are seated, but for the grid's slot of the save area and the core's copies. -/
theorem State.withTeam_rest (s : State) (g : Grid) (core : Nat) :
    let t := s.withTeam g core
    t = { s with idCtr := t.idCtr, grids := (s.withArea g).grids, copies := t.copies, teams := s.teams ++ [s.newTeam g core] } := by
  unfold State.withTeam State.withArea
  split <;> rfl

theorem State.placeTeam_bare {s : State} {g : Grid} (hseep : g.seep = 0) (hscratch : g.scratch = 0) (core : Nat) :
    s.placeTeam g core = ((s.withTeam g core).seatSkeins g s.idCtr core g.next).updGrid g.uid Grid.counted := by
  have hteams : ((s.withArea g).dropL1 core).teams = s.teams := by
    unfold State.withArea
    split <;> rfl
  unfold State.withTeam State.newTeam
  rw [← hteams]
  simp only [State.placeTeam, hseep, hscratch, State.claimScratch_zero, State.openSeep_zero]
  rfl

/-- The grid found after the placement: one team more, its slot of the save area kept where it had one. -/
theorem State.placeTeam_grid? {s : State} {g : Grid} (hg : s.grid? g.uid = some g) (hseep : g.seep = 0) (hscratch : g.scratch = 0)
    (core : Nat) : ∃ y, (s.placeTeam g core).grid? g.uid = some y ∧ y = { g with next := g.next + 1, area := y.area } ∧
      (g.area.isSome = true → y.area = g.area) := by
  obtain ⟨ks, -, ⟨n, hrest⟩, -⟩ := (s.withTeam g core).seatSkeins_seated g s.idCtr core g.next
  have hgrids : (s.placeTeam g core).grid? g.uid = ((s.withArea g).grid? g.uid).map Grid.counted := by
    rw [State.placeTeam_bare hseep hscratch, State.grid?_updGrid _ _ Grid.counted (fun _ => rfl), if_pos rfl, hrest, s.withTeam_rest g core]
    rfl
  rw [hgrids]
  by_cases ha : g.area.isSome
  · have harea : (s.withArea g).grid? g.uid = some g := by
      rw [State.withArea, if_pos ha]
      exact hg
    exact ⟨g.counted, by rw [harea]; rfl, rfl, fun _ => rfl⟩
  · have harea : (s.withArea g).grid? g.uid = some { g with area := s.fresh.2.takeSlot g.ctx gridSlot } := by
      rw [State.withArea, if_neg ha]
      refine (State.grid?_updGrid s.fresh.2 g.uid (fun x => { x with area := s.fresh.2.takeSlot g.ctx gridSlot }) (fun _ => rfl) _).trans ?_
      rw [if_pos rfl]
      exact congrArg _ hg
    exact ⟨_, congrArg (Option.map Grid.counted) harea, rfl, fun h => absurd h ha⟩

/-! ### The dispatcher's step -/

theorem State.conductorWaits_eq_false {s : State} {part : Nat} (h : ∀ c ∈ s.contexts, c.part = part → c.state ≠ .starting) :
    s.conductorWaits part = false := by
  simpa [State.conductorWaits] using h

theorem execDispatchTeam_idle {s : State} {part : Nat} (hw : s.conductorWaits part = false) (hg : s.nextGrid part = none) :
    exec (.dispatchTeam part) s = .next s := by
  show execDispatchTeam part s = _
  simp [execDispatchTeam, hw, hg]

/-- One team placed. The recursion is opened by hand: the equation of `State.placeTeams` that Lean would derive runs its choice of core. -/
theorem State.placeTeams_one {s : State} {u c : Nat} {g : Grid} (hg : s.grid? u = some g) (hc : s.coreFor g = some c) :
    s.placeTeams u 1 = some (s.placeTeam g c) := by
  delta State.placeTeams
  rw [Nat.brecOn.eq]
  delta State.placeTeams._f
  dsimp only
  rw [hg]
  dsimp only
  rw [hc]
  rfl

theorem execDispatchTeam_places {s : State} {part c : Nat} {g : Grid} (hw : s.conductorWaits part = false)
    (hnext : s.nextGrid part = some g) (hg : s.grid? g.uid = some g) (hcoop : g.coop = false) (hc : s.coreFor g = some c) :
    exec (.dispatchTeam part) s = .next (s.placeTeam g c) := by
  have hbatch : g.batch = 1 := by simp [Grid.batch, hcoop]
  have hplace : s.placeTeams g.uid g.batch = some (s.placeTeam g c) := by
    rw [hbatch]
    exact State.placeTeams_one hg hc
  show execDispatchTeam part s = _
  simp [execDispatchTeam, hw, hnext, hplace]

theorem claim_dispatchPlaces : Claim.DispatchPlaces := by
  intro part s hstart
  have hw := State.conductorWaits_eq_false hstart
  refine ⟨fun h => execDispatchTeam_idle hw ((s.nextGrid_eq_none part).mpr h), fun g c hnext hg hcoop hc hseep hscratch => ?_⟩
  obtain ⟨ks, hlen, ⟨n, hrest⟩, heach⟩ := (s.withTeam g c).seatSkeins_seated g s.idCtr c g.next
  have hbase := s.withTeam_rest g c
  have hplace := State.placeTeam_bare (s := s) hseep hscratch c
  refine ⟨_, s.newTeam g c, execDispatchTeam_places hw hnext hg hcoop hc, ?_, rfl, rfl, rfl, rfl, by simp [State.newTeam],
    State.placeTeam_grid? hg hseep hscratch c, ?_, ks, ?_, hlen, fun i hi => ?_⟩
  · rw [hplace, State.updGrid_teams, hrest, hbase]
  · rw [hplace, State.updGrid_mem, hrest, hbase]
  · rw [hplace, State.updGrid_skeins, hrest, hbase]
  · obtain ⟨u, slot, area, hk⟩ := heach i hi
    intro k
    have hk : k = _ := hk
    refine ⟨by rw [hk]; rfl, by rw [hk]; rfl, by rw [hk]; rfl, by rw [hk]; rfl, by rw [hk]; rfl, fun r hr => ?_, fun l hl => ?_⟩
    · rw [hk]
      exact newSkein_reg u g s.idCtr c i slot (s.withTeam g c).now g.next hr
    · rw [hk]
      exact newSkein_thread u g s.idCtr c i slot (s.withTeam g c).now g.next hl

end Sys2Proof.Machine
end

section
/-!
SUPPORT. A conductor's placement (R342, R343).
-/

namespace Sys2Proof.Machine

/-! ### Contexts by their number -/

theorem find?_putBy {α : Type} (key : α → Nat) (x : α) (l : List α) (n : Nat) :
    (putBy key x l).find? (fun y => key y == n) = if n = key x then some x else l.find? fun y => key y == n := by
  induction l with
  | nil =>
    by_cases h : n = key x
    · simp [putBy, h]
    · simp [putBy, h, Ne.symm h]
  | cons y ys ih =>
    by_cases hy : key y = key x
    · by_cases h : n = key x
      · simp [putBy, hy, h]
      · simp [putBy, hy, h, Ne.symm h]
    · rw [putBy, if_neg hy, List.find?_cons, List.find?_cons, ih]
      by_cases h : n = key x
      · have hb : (key y == key x) = false := by simpa using hy
        rw [h, hb, if_pos rfl]
      · simp [h]

theorem State.ctx_updCtx_same (s : State) (c : Nat) (f : Context → Context) : (s.updCtx c f).ctx c = { f (s.ctx c) with num := c } := by
  simp only [State.ctx, State.updCtx, find?_putBy]
  simp

theorem State.ctx_updCtx_other (s : State) {c d : Nat} (h : d ≠ c) (f : Context → Context) : (s.updCtx c f).ctx d = s.ctx d := by
  simp only [State.ctx, State.updCtx, find?_putBy]
  rw [if_neg h]

/-- The deadline of a partition stands in its entry. -/
theorem State.noteBusy_rest (s : State) (part : Nat) : s.noteBusy part = { s with partitions := (s.noteBusy part).partitions } := by
  unfold State.noteBusy
  split <;> rfl

theorem State.ctx_noteBusy (s : State) (part c : Nat) : (s.noteBusy part).ctx c = s.ctx c := by
  rw [s.noteBusy_rest part]
  rfl

theorem State.setState_rest (s : State) (c : Nat) (st : CtxState) :
    s.setState c st = { s with contexts := (s.setState c st).contexts, partitions := (s.setState c st).partitions } := by
  unfold State.setState
  rw [State.noteBusy_rest]
  rfl

theorem State.ctx_setState_same (s : State) (c : Nat) (st : CtxState) : (s.setState c st).ctx c = { s.ctx c with state := st, num := c } := by
  rw [State.setState, State.ctx_noteBusy, State.ctx_updCtx_same]

theorem State.ctx_setState_other (s : State) {c d : Nat} (h : d ≠ c) (st : CtxState) : (s.setState c st).ctx d = s.ctx d := by
  rw [State.setState, State.ctx_noteBusy, State.ctx_updCtx_other s h]

/-! ### The conductor -/

/-- The skein of a conductor that is placed. -/
def State.newConductor (s : State) (c core q : Nat) : Skein :=
  let t := s.fresh.2.fresh.2
  { uid := s.fresh.2.idCtr, ctx := c, team := s.idCtr, conductor := true, core := core, slot := t.slotIn core q, quad := q
    age := ageOf s.now 0 0 0, regCount := 32, threads := startThreads (s.ctx c).condPc 1, acquire := s.now, idleAt := s.now
    area := t.takeSlot c skeinSlot }

/-- Its team. -/
def State.conductorTeam (s : State) (c core : Nat) : Team := { uid := s.idCtr, ctx := c, core := core, regs0 := 32 }

theorem State.placeConductor_eq (s : State) (c core q : Nat) :
    s.placeConductor c core q =
      { s.fresh.2.fresh.2 with skeins := s.skeins ++ [s.newConductor c core q], teams := s.teams ++ [s.conductorTeam c core] }.updCtx c
        fun x => { x with conductor := some (s.newConductor c core q).uid } := rfl

/-- A new skein's threads stand at the start address, as many of them live as are asked for. -/
theorem startThreads_getD (pc : Lane) (live : Nat) {l : Nat} (hl : l < 32) :
    (startThreads pc live).getD l {} = { pc := pc, exited := decide (live ≤ l) } := by
  simp [startThreads, allLanes, List.getD_eq_getElem?_getD, hl]

/-- The state in which a conductor is placed and its context runs. -/
def State.conducted (s : State) (c core : Nat) : State := (s.placeConductor c core ((s.conductorQuad core).getD 0)).setState c .running

theorem State.conducted_rest (s : State) (c core : Nat) :
    ∃ k, k = s.newConductor c core ((s.conductorQuad core).getD 0) ∧ s.conducted c core =
      { s with idCtr := s.idCtr + 2, skeins := s.skeins ++ [k], teams := s.teams ++ [s.conductorTeam c core]
               contexts := (s.conducted c core).contexts, partitions := (s.conducted c core).partitions } :=
  ⟨_, rfl, (State.setState_rest _ _ _).trans rfl⟩

theorem State.conducted_now (s : State) (c core : Nat) : (s.conducted c core).now = s.now := by
  obtain ⟨k, -, hp⟩ := s.conducted_rest c core
  rw [hp]

theorem State.conducted_idCtr (s : State) (c core : Nat) : (s.conducted c core).idCtr = s.idCtr + 2 := by
  obtain ⟨k, -, hp⟩ := s.conducted_rest c core
  rw [hp]

theorem State.conducted_ctx (s : State) (c core : Nat) :
    (s.conducted c core).ctx c =
      { s.ctx c with state := .running, num := c, conductor := some (s.newConductor c core ((s.conductorQuad core).getD 0)).uid } := by
  rw [State.conducted, State.ctx_setState_same, State.placeConductor_eq, State.ctx_updCtx_same]
  rfl

theorem State.conducted_ctx_other (s : State) {c d : Nat} (h : d ≠ c) (core : Nat) : (s.conducted c core).ctx d = s.ctx d := by
  rw [State.conducted, State.ctx_setState_other _ h, State.placeConductor_eq, State.ctx_updCtx_other _ h]
  rfl

theorem execConductorPlace_idle {s : State} {c : Nat} (h : (s.ctx c).state ≠ .starting) : exec (.conductorPlace c) s = .next s := by
  show execConductorPlace c s = _
  simp [execConductorPlace, h]

theorem execConductorPlace_places {s : State} {c core : Nat} (h : (s.ctx c).state = .starting)
    (hcore : s.chooseCore (s.ctx c).part (fun _ => 0) (fun x => (s.conductorQuad x).isSome) = some core) :
    exec (.conductorPlace c) s = .next (((s.conducted c core).event c (s.record32 0x21 (toBytes 2 c))).signalCtx c) := by
  have hrec : s.record32 0x21 (toBytes 2 c) = (s.conducted c core).record32 0x21 (toBytes 2 c) := by
    rw [State.record32, State.record32, s.conducted_now]
  rw [hrec]
  show execConductorPlace c s = _
  simp only [execConductorPlace, h, hcore]
  rfl

theorem claim_conductorPlaced : Claim.ConductorPlaced := by
  intro c s
  refine ⟨execConductorPlace_idle, fun core _ hstart hcore => ?_⟩
  obtain ⟨k, hk, hp⟩ := s.conducted_rest c core
  refine ⟨s.conducted c core, k, s.conductorTeam c core, execConductorPlace_places hstart hcore, ?_, ?_⟩
  · rw [s.conducted_idCtr]
    exact hp
  · rw [hk, s.conducted_ctx]
    exact ⟨rfl, rfl, rfl, rfl, rfl, rfl, fun l hl => startThreads_getD _ _ hl, rfl, rfl, fun d hd => s.conducted_ctx_other hd core⟩

end Sys2Proof.Machine
end

section
/-!
SUPPORT. A drained skein's slot is released (R41, R42), and what a context that goes idle leaves (R343).
-/

namespace Sys2Proof.Machine

/-! ### The device's own writes leave grids, operations and residencies -/

/-- The grids, the engines' operations and the residencies stand as before. -/
structure State.SameWork (s t : State) : Prop where
  grids  : t.grids = s.grids
  ops    : t.ops = s.ops
  resids : t.resids = s.resids

theorem State.SameWork.trans {s t u : State} (h : s.SameWork t) (h' : t.SameWork u) : s.SameWork u :=
  ⟨h'.grids.trans h.grids, h'.ops.trans h.ops, h'.resids.trans h.resids⟩

theorem State.sameWork_updCtx (s : State) (c : Nat) (f : Context → Context) : s.SameWork (s.updCtx c f) := ⟨rfl, rfl, rfl⟩

theorem State.takeLine_rest (s : State) (part line : Nat) :
    ∃ m k, s.takeLine part line = { s with mem := m, lineKeys := k } := by
  unfold State.takeLine
  split
  · exact ⟨_, _, rfl⟩
  · exact ⟨s.mem, s.lineKeys, rfl⟩

theorem State.takeLines_rest (s : State) (part line : Nat) (is : List Nat) :
    ∃ m k, is.foldl (fun s i => s.takeLine part (line + i)) s = { s with mem := m, lineKeys := k } := by
  refine foldl_keeps (P := fun t => ∃ m k, t = { s with mem := m, lineKeys := k }) _ ?_ is s ⟨s.mem, s.lineKeys, rfl⟩
  rintro t i ⟨m, k, rfl⟩
  obtain ⟨m', k', h⟩ := State.takeLine_rest { s with mem := m, lineKeys := k } part (line + i)
  exact ⟨m', k', h⟩

/-- A store changes the memory, its poison and the keys of its lines alone. -/
theorem State.store_rest (s : State) (part key : Nat) (bs : List Byte) :
    ∃ m k p, s.store part key bs = { s with mem := m, lineKeys := k, poisoned := p } := by
  obtain ⟨m, k, h⟩ := s.takeLines_rest part (key / 128) (List.range ((key + bs.length + 127) / 128 - key / 128))
  simp only [State.store, h]
  exact ⟨_, _, _, rfl⟩

theorem State.sameWork_devStore {s t : State} {c : Nat} {a : Lane} {bs : List Byte} (h : s.devStore c a bs = some t) : s.SameWork t := by
  unfold State.devStore at h
  split at h
  · rename_i u x hx
    split at h
    · obtain ⟨m, k, p, hst⟩ := u.store_rest (u.ctx c).part x.key bs
      obtain rfl := Option.some.inj h
      rw [hst, State.translate_rest hx]
      exact ⟨rfl, rfl, rfl⟩
    · cases h
  · cases h

theorem State.sameWork_recStore {s t : State} {c : Nat} {kind : BitVec 2} {a : Lane} {bs : List Byte}
    (h : s.recStore c kind a bs = some t) : s.SameWork t := by
  unfold State.recStore at h
  split at h
  · split at h
    · cases h
    · exact State.sameWork_devStore h
  · cases h

theorem State.sameWork_signalCtx (s : State) (c : Nat) : s.SameWork (s.signalCtx c) := by
  unfold State.signalCtx
  split <;> exact ⟨rfl, rfl, rfl⟩

theorem State.sameWork_holdDev (s : State) (c : Nat) (d : DevWrite) : s.SameWork (s.holdDev c d) := by
  unfold State.holdDev
  split
  · exact s.sameWork_updCtx c _
  · exact (s.sameWork_updCtx c _).trans (State.sameWork_signalCtx _ c)

theorem State.sameWork_tryRecord (s : State) (c : Nat) (kind : BitVec 2) (r : List Byte) : s.SameWork (s.tryRecord c kind r) := by
  unfold State.tryRecord
  dsimp only
  cases s.devLoad c ((s.ctx c).area kind).base 24 with
  | none => exact s.sameWork_holdDev c _
  | some b =>
    dsimp only
    generalize (if kind = 2 then (s.ctx c).produced else ofBytes (b.take 8)) = n
    split
    · split
      · exact s.sameWork_holdDev c _
      · rename_i s1 h1
        split
        · exact s.sameWork_holdDev c _
        · rename_i s2 h2
          have h12 := (State.sameWork_recStore h1).trans (State.sameWork_recStore h2)
          split <;> split
          · exact (h12.trans (s2.sameWork_updCtx c _)).trans (State.sameWork_signalCtx _ c)
          · exact h12.trans (s2.sameWork_signalCtx c)
          · exact h12.trans (s2.sameWork_updCtx c _)
          · exact h12
    · split
      · exact s.sameWork_holdDev c _
      · exact State.sameWork_recStore ‹_›

theorem State.sameWork_event (s : State) (c : Nat) (r : List Byte) : s.SameWork (s.event c r) := by
  unfold State.event State.putRecord
  dsimp only
  split
  · exact s.sameWork_updCtx c _
  · split
    · exact s.sameWork_updCtx c _
    · exact s.sameWork_tryRecord c 2 r

theorem State.sameWork_setState (s : State) (c : Nat) (st : CtxState) : s.SameWork (s.setState c st) := by
  rw [s.setState_rest c st]
  exact ⟨rfl, rfl, rfl⟩

theorem State.sameWork_dropAlter (s : State) (c : Nat) : s.SameWork (s.dropAlter c) := ⟨rfl, rfl, rfl⟩

theorem State.sameWork_tryIdle (s : State) (c : Nat) : s.SameWork (s.tryIdle c) := by
  unfold State.tryIdle
  split
  · exact (((s.sameWork_dropAlter c).trans (State.sameWork_setState _ c .stopped)).trans (State.sameWork_event _ c _)).trans
      (State.sameWork_signalCtx _ c)
  · exact ⟨rfl, rfl, rfl⟩

/-- A context that still has a grid stays as it is. -/
theorem State.tryIdle_of_grid {s : State} {c : Nat} (h : ∃ x ∈ s.grids, x.ctx = c) : s.tryIdle c = s := by
  have hg : (s.grids.any fun g => g.ctx == c) = true := by simpa using h
  simp [State.tryIdle, hg]

/-! ### A team exits -/

theorem State.fillTable_rest (s : State) (core : Nat) :
    s.fillTable core = { s with idCtr := (s.fillTable core).idCtr, mats := (s.fillTable core).mats } := by
  unfold State.fillTable
  dsimp only
  split
  · rfl
  · split <;> rfl

theorem State.fillTables_rest (s : State) (core : Nat) (is : List Nat) :
    ∃ n m, is.foldl (fun s _ => s.fillTable core) s = { s with idCtr := n, mats := m } := by
  refine foldl_keeps (P := fun t => ∃ n m, t = { s with idCtr := n, mats := m }) _ ?_ is s ⟨s.idCtr, s.mats, rfl⟩
  rintro t i ⟨n, m, rfl⟩
  exact ⟨_, _, State.fillTable_rest _ core⟩

theorem State.teamExit_rest (s : State) (team : Nat) :
    ∃ n m a o, s.teamExit team =
      { s with idCtr := n, mats := m, accs := a, ops := o, teams := s.teams.filter fun t => t.uid != team } := by
  unfold State.teamExit State.fillCore
  obtain ⟨n, m, h⟩ := State.fillTables_rest _ _ _
  dsimp only
  rw [h]
  exact ⟨n, m, _, _, rfl⟩

/-! ### A skein's slot -/

theorem find?_filter_key_ne {α : Type} (key : α → Nat) (l : List α) (u v : Nat) :
    (l.filter fun x => key x != u).find? (fun x => key x == v) = if v = u then none else l.find? fun x => key x == v := by
  rw [List.find?_filter]
  by_cases h : v = u
  · rw [if_pos h, List.find?_eq_none]
    rintro x -
    simpa using fun hne he => hne (he.trans h)
  · rw [if_neg h]
    congr 1
    funext x
    by_cases hx : key x = v
    · simp [hx, h]
    · simp [hx]

/-- The machine without a skein, before its team is looked at. -/
def State.unseat (s : State) (k : Skein) : State :=
  let t := { s with skeins := s.skeins.filter fun x => x.uid != k.uid }
  let t := match (t.team k.team).grid with
    | some g => t.updGrid g fun x => { x with wct := max x.wct (k.wct.foldl max 0) }
    | none => t
  if k.conductor then t.updCtx k.ctx fun c => { c with conductor := none } else t

theorem State.unseat_rest (s : State) (k : Skein) :
    s.unseat k = { s with skeins := s.skeins.filter (fun x => x.uid != k.uid), grids := (s.unseat k).grids
                          contexts := (s.unseat k).contexts } := by
  unfold State.unseat
  dsimp only
  split <;> split <;> rfl

/-- A skein that goes leaves every context its grids. -/
theorem State.unseat_grid_of_ctx {s : State} {c : Nat} (k : Skein) (h : ∃ x ∈ s.grids, x.ctx = c) :
    ∃ x ∈ (s.unseat k).grids, x.ctx = c := by
  obtain ⟨x, hx, hc⟩ := h
  have hupd : ∀ u, ∃ y ∈ s.grids.map (fun x => if x.uid == u then { x with wct := max x.wct (k.wct.foldl max 0) } else x), y.ctx = c :=
    fun u => ⟨_, List.mem_map_of_mem hx, by split <;> exact hc⟩
  unfold State.unseat
  dsimp only
  split <;> split
  · exact hupd _
  · exact ⟨x, hx, hc⟩
  · exact hupd _
  · exact ⟨x, hx, hc⟩

theorem execSkeinSlotRelease_undrained {s : State} {k : Skein} (hk : s.sk? k.uid = some k) (h : s.drained k = false) :
    exec (.skeinSlotRelease k.uid) s = .next s := by
  show execSkeinSlotRelease k.uid s = _
  simp [execSkeinSlotRelease, hk, h]

theorem execSkeinSlotRelease_drained {s : State} {k : Skein} (hk : s.sk? k.uid = some k) (h : s.drained k = true) :
    exec (.skeinSlotRelease k.uid) s =
      .next ((if ((s.unseat k).skeinsOf k.team).isEmpty then (s.unseat k).teamExit k.team else s.unseat k).tryIdle k.ctx) := by
  show execSkeinSlotRelease k.uid s = _
  simp only [execSkeinSlotRelease, hk, h]
  rfl

/-- The machine once a drained skein is gone: without its team where it was the last of it. -/
def State.released (s : State) (k : Skein) : State :=
  if ((s.unseat k).skeinsOf k.team).isEmpty then (s.unseat k).teamExit k.team else s.unseat k

theorem State.unseat_skeins (s : State) (k : Skein) : (s.unseat k).skeins = s.skeins.filter fun x => x.uid != k.uid := by
  rw [s.unseat_rest k]

theorem State.unseat_skeinsOf_isEmpty (s : State) (k : Skein) :
    ((s.unseat k).skeinsOf k.team).isEmpty = true ↔ ∀ x ∈ s.skeins, x.team = k.team → x.uid = k.uid := by
  simp only [State.skeinsOf, s.unseat_skeins k, List.isEmpty_iff, List.filter_filter, List.filter_eq_nil_iff, Bool.and_eq_true,
    beq_iff_eq, bne_iff_ne, ne_eq, not_and, not_not]

/-- What goes with the slot, whether or not the team goes too: nothing of the memory, and no grid. -/
theorem State.released_rest (s : State) (k : Skein) :
    (s.released k).skeins = s.skeins.filter (fun x => x.uid != k.uid) ∧ (s.released k).mem = s.mem ∧
      (s.released k).grids = (s.unseat k).grids := by
  obtain ⟨n, m, a, o, hexit⟩ := (s.unseat k).teamExit_rest k.team
  unfold State.released
  split
  · rw [hexit, s.unseat_rest k]
    exact ⟨rfl, rfl, rfl⟩
  · rw [s.unseat_rest k]
    exact ⟨rfl, rfl, rfl⟩

/-- A team with a skein left stays. -/
theorem State.released_of_other {s : State} {k : Skein} (h : ∃ x ∈ s.skeins, x.team = k.team ∧ x.uid ≠ k.uid) :
    (s.released k).teams = s.teams ∧ (s.released k).ops = s.ops := by
  have hsome : ¬ ((s.unseat k).skeinsOf k.team).isEmpty = true := by
    rw [s.unseat_skeinsOf_isEmpty k]
    obtain ⟨x, hx, hteam, hne⟩ := h
    exact fun hall => hne (hall x hx hteam)
  rw [State.released, if_neg hsome, s.unseat_rest k]
  exact ⟨rfl, rfl⟩

/-- A team without a skein goes. -/
theorem State.released_of_last {s : State} {k : Skein} (h : ∀ x ∈ s.skeins, x.team = k.team → x.uid = k.uid) :
    (s.released k).team? k.team = none := by
  obtain ⟨n, m, a, o, hexit⟩ := (s.unseat k).teamExit_rest k.team
  rw [State.released, if_pos ((s.unseat_skeinsOf_isEmpty k).mpr h), hexit]
  exact (find?_filter_key_ne Team.uid _ _ _).trans (if_pos rfl)

theorem slotRelease_takes_drained (k : Skein) (s : State) (hk : s.sk? k.uid = some k) :
    (s.drained k = false → exec (.skeinSlotRelease k.uid) s = .next s) ∧
    (s.drained k = true → (∃ x ∈ s.grids, x.ctx = k.ctx) →
      ∃ t, exec (.skeinSlotRelease k.uid) s = .next t ∧ t.sk? k.uid = none ∧ (∀ u, u ≠ k.uid → t.sk? u = s.sk? u) ∧ t.mem = s.mem ∧
        ((∃ x ∈ s.skeins, x.team = k.team ∧ x.uid ≠ k.uid) → t.teams = s.teams ∧ t.ops = s.ops) ∧
        ((∀ x ∈ s.skeins, x.team = k.team → x.uid = k.uid) → t.team? k.team = none)) := by
  refine ⟨execSkeinSlotRelease_undrained hk, fun hd hgrid => ?_⟩
  obtain ⟨hskeins, hmem, hgrids⟩ := s.released_rest k
  have hfind : ∀ u, (s.released k).sk? u = if u = k.uid then none else s.sk? u := fun u => by
    rw [State.sk?, hskeins]
    exact find?_filter_key_ne Skein.uid _ _ _
  have hidle : (s.released k).tryIdle k.ctx = s.released k :=
    State.tryIdle_of_grid (hgrids ▸ State.unseat_grid_of_ctx k hgrid)
  refine ⟨s.released k, (execSkeinSlotRelease_drained hk hd).trans (congrArg _ hidle), (hfind _).trans (if_pos rfl),
    fun u hu => (hfind u).trans (if_neg hu), hmem, State.released_of_other, State.released_of_last⟩

end Sys2Proof.Machine
end

section
/-!
SUPPORT. A grid ends (R12, R18, R286).
-/

namespace Sys2Proof.Machine

/-- The end of an operation where no skein waits: it is done, with its status. -/
theorem State.finishOp_op? {s : State} (hq : s.Quiet) {u : Nat} {o : EngineOp} (ho : s.op? u = some o) (st : Byte) :
    (s.finishOp u st).op? u = some (o.ended st) := by
  have hu : o.uid = u := s.op_uid ho
  rw [State.finishOp_quiet hq ho st]
  show (s.ops.map fun x => if x.uid == u then o.ended st else x).find? (fun x => x.uid == u) = _
  have hkeep : (s.ops.map fun x => if x.uid == u then o.ended st else x) =
      s.ops.map fun x => if x.uid == u then { o.ended st with uid := x.uid } else x := by
    refine List.map_congr_left fun x _ => ?_
    split
    · rename_i h
      rw [show x.uid = o.uid from (by simpa using h : x.uid = u).trans hu.symm]
      rfl
    · rfl
  rw [hkeep]
  refine (find?_updKeyed EngineOp.uid (fun x => { o.ended st with uid := x.uid }) (fun _ => rfl) s.ops u u).trans ?_
  rw [if_pos rfl]
  exact (congrArg _ ho).trans rfl

/-! ### The machine without a grid -/

/-- The grid and what was resident for it gone, and its children's completion noted for the grid that launched it. -/
def State.withoutGrid (s : State) (g : Grid) : State :=
  let t := { s with grids := s.grids.filter (fun x => x.uid != g.uid), resids := s.resids.filter fun r => r.owner != some g.uid }
  match g.parent with
  | some p => t.updGrid p fun x => { x with wct := max x.wct g.wct }
  | none => t

/-- The machine before the grid's operation ends: the failing address noted where it failed. -/
def State.beforeEnd (s : State) (g : Grid) : State :=
  if g.failed then (s.withoutGrid g).updOp g.op fun o => o.failedAt g.cAddr else s.withoutGrid g

theorem State.withoutGrid_rest (s : State) (g : Grid) :
    s.withoutGrid g = { s with grids := (s.withoutGrid g).grids, resids := s.resids.filter fun r => r.owner != some g.uid } := by
  unfold State.withoutGrid
  dsimp only
  split <;> rfl

theorem State.withoutGrid_grid? (s : State) (g : Grid) : (s.withoutGrid g).grid? g.uid = none := by
  have hgone : ∀ t : State, t.grids = s.grids.filter (fun x => x.uid != g.uid) → t.grid? g.uid = none := fun t ht => by
    rw [State.grid?, ht]
    exact (find?_filter_key_ne Grid.uid _ _ _).trans (if_pos rfl)
  unfold State.withoutGrid
  dsimp only
  split
  · rename_i p _
    rw [State.grid?_updGrid _ p (fun x => { x with wct := max x.wct g.wct }) (fun _ => rfl), hgone _ rfl]
    simp
  · exact hgone _ rfl

theorem State.beforeEnd_rest (s : State) (g : Grid) :
    s.beforeEnd g = { s with grids := (s.withoutGrid g).grids, resids := s.resids.filter (fun r => r.owner != some g.uid)
                             ops := (s.beforeEnd g).ops } := by
  unfold State.beforeEnd
  split
  · rw [s.withoutGrid_rest g]
    rfl
  · have hops : (s.withoutGrid g).ops = s.ops := by rw [s.withoutGrid_rest g]
    rw [hops]
    exact s.withoutGrid_rest g

/-- The operation of a grid as it stands before it ends. -/
def Grid.lastOp (g : Grid) (o : EngineOp) : EngineOp := if g.failed then o.failedAt g.cAddr else o

theorem State.beforeEnd_op? {s : State} {g : Grid} {o : EngineOp} (ho : s.op? g.op = some o) :
    (s.beforeEnd g).op? g.op = some (g.lastOp o) := by
  have hops : (s.withoutGrid g).op? g.op = some o := by
    rw [s.withoutGrid_rest g]
    exact ho
  unfold State.beforeEnd Grid.lastOp
  split
  · rw [State.op?_updOp _ _ (fun o => o.failedAt g.cAddr) (fun _ => rfl), if_pos rfl, hops]
    rfl
  · exact hops

section End
variable {s : State} {g : Grid} {o : EngineOp}

/-- The end of a grid without a seep of whose context no event is traced. -/
theorem State.endGrid_eq (hseep : ∀ x ∈ s.seeps, x.grid ≠ g.uid) (htren : (s.ctx g.ctx).dbg.tren = 0) (hq : s.Quiet)
    (ho : s.op? g.op = some o) : s.endGrid g = ((s.beforeEnd g).finishOp g.op g.status).tryIdle g.ctx := by
  have hnone : s.seeps.filter (fun i => i.grid == g.uid) = [] := by simpa using hseep
  have hquiet : (s.beforeEnd g).Quiet := by
    rw [s.beforeEnd_rest g]
    exact hq
  have hctx : ((s.beforeEnd g).finishOp g.op g.status).ctx g.ctx = s.ctx g.ctx := by
    rw [State.finishOp_quiet hquiet (State.beforeEnd_op? ho), s.beforeEnd_rest g]
    rfl
  have htrace : ((s.beforeEnd g).finishOp g.op g.status).traceGrid { ctx := g.ctx } 0 g true =
      (s.beforeEnd g).finishOp g.op g.status := State.trace_off (by rw [hctx]; exact htren) _ _ _
  rw [← htrace]
  unfold State.endGrid
  rw [hnone]
  rfl

/-- What the end of a grid leaves. -/
theorem State.endGrid_ends (hseep : ∀ x ∈ s.seeps, x.grid ≠ g.uid) (htren : (s.ctx g.ctx).dbg.tren = 0) (hq : s.Quiet)
    (ho : s.op? g.op = some o) :
    (s.endGrid g).grid? g.uid = none ∧ (s.endGrid g).op? g.op = some ((g.lastOp o).ended g.status) ∧
      ∀ r ∈ (s.endGrid g).resids, r.owner ≠ some g.uid := by
  have hquiet : (s.beforeEnd g).Quiet := by
    rw [s.beforeEnd_rest g]
    exact hq
  obtain ⟨hgrids, hops, hresids⟩ := ((s.beforeEnd g).finishOp g.op g.status).sameWork_tryIdle g.ctx
  have hfin := State.finishOp_quiet hquiet (State.beforeEnd_op? ho) g.status
  rw [State.endGrid_eq hseep htren hq ho]
  refine ⟨?_, ?_, ?_⟩
  · rw [State.grid?, hgrids, hfin, s.beforeEnd_rest g]
    exact s.withoutGrid_grid? g
  · rw [State.op?, hops]
    exact State.finishOp_op? hquiet (State.beforeEnd_op? ho) _
  · rw [hresids, hfin, s.beforeEnd_rest g]
    intro r hr
    simpa using (List.mem_filter.mp hr).2

theorem execGridRetire_idle (hg : s.grid? g.uid = some g) (h : s.spent g = false ∨ g.held ≠ none) :
    exec (.gridRetire g.uid) s = .next s := by
  have hstop : (!s.spent g || g.held.isSome) = true := by
    rcases h with h | h
    · simp [h]
    · simp [Option.isSome_iff_ne_none.mpr h]
  show execGridRetire g.uid s = _
  simp only [execGridRetire, hg, hstop, if_true]

theorem execGridRetire_ends (hg : s.grid? g.uid = some g) (hspent : s.spent g = true) (hheld : g.held = none)
    (h : g.failed = true ∨ (g.cancelled = true ∧ g.word = none) ∨ g.cAddr = 0 ∨ ∃ w, g.word = some w ∧ w < s.now) :
    exec (.gridRetire g.uid) s = .next (s.endGrid g) := by
  show execGridRetire g.uid s = _
  by_cases hnow : (g.failed || (g.cancelled && g.word.isNone) || decide (g.cAddr = 0)) = true
  · simp only [execGridRetire, hg, hspent, hheld, hnow, Option.isSome_none, Bool.not_true, Bool.or_self, Bool.false_eq_true, if_false,
      if_true]
  · obtain ⟨w, hw, hlt⟩ : ∃ w, g.word = some w ∧ w < s.now := by
      rcases h with h | ⟨hc, hn⟩ | h | h
      · simp [h] at hnow
      · simp [hc, hn] at hnow
      · simp [h] at hnow
      · exact h
    simp [execGridRetire, hg, hspent, hheld, hw, hlt]

end End

theorem gridRetire_ends_spent (g : Grid) (o : EngineOp) (s : State) (hg : s.grid? g.uid = some g) :
    (s.spent g = false ∨ g.held ≠ none → exec (.gridRetire g.uid) s = .next s) ∧
    (s.spent g = true → g.held = none →
      g.failed = true ∨ (g.cancelled = true ∧ g.word = none) ∨ g.cAddr = 0 ∨ (∃ w, g.word = some w ∧ w < s.now) → s.op? g.op = some o → g.op = o.uid →
      (s.ctx g.ctx).dbg.tren = 0 → (∀ x ∈ s.seeps, x.grid ≠ g.uid) → (∀ k ∈ s.skeins, k.waits = []) →
      ∃ t o', exec (.gridRetire g.uid) s = .next t ∧ t.grid? g.uid = none ∧ t.op? g.op = some o' ∧ o'.done = true ∧
        o'.status = (if g.failed then 1 else if g.cancelled ∧ g.word = none then 2 else 0) ∧ (g.failed = true → o'.failAddr = g.cAddr) ∧
        (∀ r ∈ t.resids, r.owner ≠ some g.uid)) := by
  refine ⟨execGridRetire_idle hg, fun hspent hheld hend ho _ htren hseep hq => ?_⟩
  obtain ⟨hgone, hop, hresids⟩ := State.endGrid_ends hseep htren hq ho
  refine ⟨_, _, execGridRetire_ends hg hspent hheld hend, hgone, hop, rfl, ?_, fun hf => ?_, hresids⟩
  · simp [EngineOp.ended, Grid.status]
  · simp [EngineOp.ended, Grid.lastOp, hf, EngineOp.failedAt]

theorem claim_retirement : Claim.Retirement := ⟨slotRelease_takes_drained, gridRetire_ends_spent⟩

end Sys2Proof.Machine
end

section
/-!
SUPPORT. The completion word of a grid (R18).
-/

namespace Sys2Proof.Machine

/-! ### Bytes read where bytes were written -/

theorem toBytes_length (n v : Nat) : (toBytes n v).length = n := by
  induction n generalizing v with
  | zero => rfl
  | succ n ih => simp [toBytes, ih]

/-- A byte away from those written is as before. -/
theorem Memory.read_writeN_out {m : Memory} (hm : m.wf = true) {a b : Nat} (bs : List Byte) (h : b < a ∨ a + bs.length ≤ b) :
    (m.writeN a bs).read b = m.read b := by
  induction bs generalizing m a with
  | nil => rfl
  | cons x xs ih =>
    simp only [List.length_cons] at h
    rw [Memory.writeN, ih (Memory.write_wfFrom x hm (Nat.zero_le a)) (by omega), Memory.read_write x b hm,
      if_neg (by omega)]

/-- The bytes written are read. -/
theorem Memory.readN_writeN {m : Memory} (hm : m.wf = true) (a : Nat) (bs : List Byte) : (m.writeN a bs).readN a bs.length = bs := by
  induction bs generalizing m a with
  | nil => rfl
  | cons x xs ih =>
    have hw : (m.write a x).wf = true := Memory.write_wfFrom x hm (Nat.zero_le a)
    have hfirst : ((m.write a x).writeN (a + 1) xs).read (a + 0) = x := by
      rw [Memory.read_writeN_out hw xs (by omega), Memory.read_write x _ hm, if_pos (Nat.add_zero a)]
    rw [Memory.readN, List.length_cons, List.range_succ_eq_map, List.map_cons, List.map_map, Memory.writeN, hfirst]
    refine congrArg (x :: ·) (Eq.trans (List.map_congr_left fun i _ => ?_) (ih hw (a + 1)))
    simp [Nat.add_comm, Nat.add_left_comm]

/-! ### A store within one line of the partition's own -/

theorem State.takeLine_of_own {s : State} {part line : Nat} (h : s.writtenKey line = s.keyOf part line) : s.takeLine part line = s := by
  simp [State.takeLine, h]

theorem State.store_within {s : State} {part key : Nat} {bs : List Byte} (hone : key % 128 + bs.length ≤ 128) (hpos : 0 < bs.length)
    (hown : s.writtenKey (key / 128) = s.keyOf part (key / 128)) :
    ∃ p, s.store part key bs = { s with mem := s.mem.writeN key bs, poisoned := p } := by
  have hlines : (key + bs.length + 127) / 128 - key / 128 = 1 := by omega
  have htake : (List.range ((key + bs.length + 127) / 128 - key / 128)).foldl (fun s i => s.takeLine part (key / 128 + i)) s = s := by
    rw [hlines]
    exact State.takeLine_of_own hown
  simp only [State.store, htake]
  exact ⟨_, rfl⟩

theorem State.makeRoom_rest (s : State) (die part : Nat) :
    ∃ c h l, s.makeRoom die part = { s with copies := c, homes := h, lostLeases := l } := by
  unfold State.makeRoom
  dsimp only
  split
  · exact ⟨s.copies, s.homes, s.lostLeases, rfl⟩
  · split
    · split
      · exact ⟨_, s.homes, s.lostLeases, rfl⟩
      · exact ⟨s.copies, _, _, rfl⟩
    · exact ⟨_, s.homes, s.lostLeases, rfl⟩
    · exact ⟨s.copies, _, _, rfl⟩
    · exact ⟨s.copies, s.homes, s.lostLeases, rfl⟩

/-- A line that comes to stand at its home changes the caches alone. -/
theorem State.fillHome_rest (s : State) (line part : Nat) (hint : BitVec 2) :
    ∃ c h l, s.fillHome line part hint = { s with copies := c, homes := h, lostLeases := l } := by
  unfold State.fillHome
  dsimp only
  split
  · exact ⟨s.copies, _, s.lostLeases, rfl⟩
  · obtain ⟨c, h, l, hroom⟩ := s.makeRoom_rest (s.homeDie (line * 128)) part
    rw [hroom]
    exact ⟨c, _, l, rfl⟩

/-! ### The word -/

/-- The machine with the completion word of a grid stored, before the grid notes it. -/
def State.wordStored (s : State) (g : Grid) (x : Xlat) : State :=
  (s.store (s.ctx g.ctx).part x.key (toBytes 8 g.cVal.toNat)).fillHome (x.key / 128) (s.ctx g.ctx).part 0

/-- A grid whose completion word is under way until a time. -/
def Grid.wordUntil (g : Grid) (w : Nat) : Grid := { g with word := some w }

section Word
variable {g : Grid} {x : Xlat} {s u : State}

theorem State.completionWord_stores (htr : s.translate g.ctx g.cAddr = (u, .ok x)) (hw : x.w = true) (hkind : x.kind ≠ 2)
    (hcan : canonical g.cAddr = true) (hthere : x.there = true) :
    ∃ w, s.completionWord g = (u.wordStored g x).updGrid g.uid fun y => y.wordUntil w := by
  refine ⟨u.wctOf (u.ctx g.ctx).part (x.key / 128), ?_⟩
  have hok : (x.w && x.kind != 2 && canonical g.cAddr && x.there) = true := by
    rw [hw, bne_iff_ne.mpr hkind, hcan, hthere]
    rfl
  unfold State.completionWord
  rw [htr]
  dsimp only
  rw [if_pos hok]
  rfl

theorem State.wordStored_rest (hone : x.key % 128 + 8 ≤ 128)
    (hown : s.writtenKey (x.key / 128) = s.keyOf (s.ctx g.ctx).part (x.key / 128)) :
    ∃ p c h l, s.wordStored g x =
      { s with mem := s.mem.writeN x.key (toBytes 8 g.cVal.toNat), poisoned := p, copies := c, homes := h, lostLeases := l } := by
  have hlen := toBytes_length 8 g.cVal.toNat
  obtain ⟨p, hstore⟩ := State.store_within (bs := toBytes 8 g.cVal.toNat) (hlen ▸ hone) (by omega) hown
  unfold State.wordStored
  obtain ⟨c, h, l, hfill⟩ := State.fillHome_rest (s.store (s.ctx g.ctx).part x.key (toBytes 8 g.cVal.toNat)) (x.key / 128)
    (s.ctx g.ctx).part 0
  rw [hfill, hstore]
  exact ⟨p, c, h, l, rfl⟩

theorem execGridRetire_waits {w : Nat} (hg : s.grid? g.uid = some g) (hf : g.failed = false) (hc : g.cancelled = false)
    (ha : g.cAddr ≠ 0#64) (hw : g.word = some w) (hnow : s.now ≤ w) : exec (.gridRetire g.uid) s = .next s := by
  show execGridRetire g.uid s = _
  simp [execGridRetire, hg, hf, hc, ha, hw, Nat.not_lt.mpr hnow]

theorem execGridRetire_stores (hg : s.grid? g.uid = some g) (hspent : s.spent g = true) (hheld : g.held = none) (hf : g.failed = false)
    (hc : g.cancelled = false) (ha : g.cAddr ≠ 0#64) (hw : g.word = none) :
    exec (.gridRetire g.uid) s = .next (s.completionWord g) := by
  show execGridRetire g.uid s = _
  simp [execGridRetire, hg, hspent, hheld, hf, hc, ha, hw]

end Word

theorem claim_completionWord : Claim.CompletionWord := by
  intro g x s u hmem hg hspent hheld hf hc ha
  refine ⟨fun w hw hnow => execGridRetire_waits hg hf hc ha hw hnow, fun hw htr hxw hkind hcan hthere _ hone hown => ?_⟩
  have hu := State.translate_rest htr
  have hctx : (u.ctx g.ctx).part = (s.ctx g.ctx).part := by rw [hu]; rfl
  obtain ⟨w, hword⟩ := State.completionWord_stores htr hxw hkind hcan hthere
  obtain ⟨p, c, h, l, hrest⟩ := State.wordStored_rest (g := g) hone (hctx ▸ hown)
  have hlen := toBytes_length 8 g.cVal.toNat
  have hwf : s.mem.wf = true := hmem
  have hmem' : ((u.wordStored g x).updGrid g.uid fun y => y.wordUntil w).mem = s.mem.writeN x.key (toBytes 8 g.cVal.toNat) := by
    rw [State.updGrid_mem, hrest, hu]
  refine ⟨_, g.wordUntil w, (execGridRetire_stores hg hspent hheld hf hc ha hw).trans (congrArg _ hword), ?_, fun a hout => ?_, ?_, ?_, rfl, rfl⟩
  · rw [hmem']
    have hread := Memory.readN_writeN hwf x.key (toBytes 8 g.cVal.toNat)
    rwa [hlen] at hread
  · rw [hmem']
    exact Memory.read_writeN_out hwf _ (by omega)
  · rw [State.updGrid_skeins, hrest, hu]
  · rw [State.grid?_updGrid _ _ (fun y => y.wordUntil w) (fun _ => rfl), if_pos rfl, hrest, hu]
    exact congrArg _ hg

end Sys2Proof.Machine

/-- Settles O50: each step of placement and retirement is opened once, and what it leaves follows from the rules of its parts. -/
theorem teamsPlacedAndRetired : Obligations.TeamsPlacedAndRetired :=
  ⟨Sys2Proof.Machine.claim_dispatchPlaces, Sys2Proof.Machine.claim_dispatchOrder, Sys2Proof.Machine.claim_conductorPlaced,
    Sys2Proof.Machine.claim_retirement, Sys2Proof.Machine.claim_completionWord⟩
end

section
/-!
SUPPORT. A region stop armed in the debug block of a protected tenant does not act (R398), and the statement about profiling regions
does not except it.
-/

namespace Sys2Proof.Machine

/-- A tenant of a protected partition: its debug block has a stop armed for the identifier 5, and its skein has one thread at `enter`. -/
def shieldedTenant : State :=
  { State.reset with
    now := 1
    contexts := [{ num := 0, dbg := { stopEn := 1, stopId := 5 } }]
    partitions := [{ num := 0, prot := true }]
    skeins := [{ uid := 1, threads := [{ exited := false }] }]
    issue := { sk := 1, mask := 1 } }

/-- `enter` of the armed identifier moves on there. -/
theorem shieldedTenant_enters : exec (.enter false 5) shieldedTenant =
    .next (shieldedTenant.updCur fun k => { k with regions := [⟨5, false⟩] }).advance := rfl

theorem not_claim_profilingRegions : ¬ Claim.ProfilingRegions := by
  intro h
  obtain ⟨-, harmed, -⟩ := h false 5 shieldedTenant ⟨_, rfl⟩
  obtain ⟨t, hexec, htrap⟩ := harmed (by decide) (by decide) ⟨0, by decide⟩
  rw [shieldedTenant_enters] at hexec
  cases hexec
  exact absurd (congrArg (fun t => t.cur.handler.isSome) htrap) (by decide)

end Sys2Proof.Machine

/-- Refutes O25: in a protected partition, whose tenant has no device debugging, `enter` of an armed identifier raises no stop. -/
theorem not_regions : ¬ Obligations.Regions := fun h => Sys2Proof.Machine.not_claim_profilingRegions h.2
end

section
/-!
SUPPORT. The poison check of a synchronising instruction reads the lanes of all executing threads, also of one that has exited, whose
operands the statement about waits leaves free to be poisoned.
-/

namespace Sys2Proof.Machine

/-- A group of one thread, which has exited, at a `vote` whose mask register v5 leaves it out and is poisoned in its lane. -/
def exitedVoter : State :=
  { State.reset with
    skeins := [{ uid := 1, regs := List.replicate 5 {} ++ [{ poison := 1 }] }]
    issue := { sk := 1, mask := 1 } }

theorem exitedVoter_clear : exitedVoter.Clear [plain 5] [] where
  range := by decide
  landed _ _ := rfl
  free _ h := absurd h List.not_mem_nil
  sound x hx l hl he hlive := by
    obtain rfl : x = plain 5 := List.mem_singleton.mp hx
    have hexited : ∀ l, l < 32 → (exitedVoter.cur.thread l).exited = true := by decide
    exact absurd (hlive.symm.trans (hexited l hl)) (by decide)

/-- The poison trap comes before the check of the members. -/
theorem exitedVoter_poisoned : exec (.vote .always .or 0 (.reg 5) 0) exitedVoter =
    .next (exitedVoter.takeTrap { kind := 0x0B, aux := 5 }) := rfl

end Sys2Proof.Machine

open Sys2Proof.Machine in
/-- Refutes O19: where an executing thread has exited and its lane of the mask register is poisoned, the poison trap is taken, not that of
cause 0x0B. -/
theorem not_syncWaits : ¬ Obligations.SyncWaits := by
  intro h
  obtain ⟨htrap, -⟩ := h (.vote .always .or 0 (.reg 5) 0) (.reg 5) [] exitedVoter rfl ⟨_, rfl⟩
    ⟨fun _ hw => absurd hw List.not_mem_nil, by decide⟩ nofun nofun nofun exitedVoter_clear
  have hsame := Host.Outcome.next.inj (exitedVoter_poisoned.symm.trans (htrap ⟨0, by decide⟩))
  exact absurd (congrArg (fun t => t.cur.flt) hsame) (by decide)
end

section
/-!
SUPPORT. A synchronising instruction whose members are all there: its group begins to wait and completes at once (R55, R56, R200), and what
it leaves is the lane-wise effect of its result.
-/

namespace Sys2Proof.Machine

/-! ### Lane masks -/

/-- A chosen set of powers of two, added one after another. -/
theorem foldr_bits_eq_sum (f : Nat → Bool) (ls : List Nat) :
    ls.foldr (fun l m => if f l then m + 2 ^ l else m) 0 = ((ls.filter f).map (2 ^ ·)).sum := by
  induction ls with
  | nil => rfl
  | cons l ls ih =>
    rw [List.foldr_cons, ih]
    cases h : f l <;> simp [h, Nat.add_comm]

theorem laneMask_eq_sum (f : Nat → Bool) : laneMask f = BitVec.ofNat 32 (((List.range 32).filter f).map (2 ^ ·)).sum := by
  rw [laneMask, foldr_bits_eq_sum]
  rfl

/-- The powers of two of the set bits add up to the number. -/
theorem sum_testBit (x n : Nat) : (((List.range n).filter x.testBit).map (2 ^ ·)).sum = x % 2 ^ n := by
  induction n with
  | zero => simp [Nat.mod_one]
  | succ n ih =>
    have hbit := Nat.testBit_eq_decide_div_mod_eq (x := x) (i := n)
    rw [List.range_succ, List.filter_append, List.map_append, List.sum_append, ih, Nat.mod_pow_succ]
    rcases Nat.mod_two_eq_zero_or_one (x / 2 ^ n) with h | h <;> simp [hbit, h]

/-- The lanes of a mask make that mask. -/
theorem laneMask_getLsbD (m : Mask) : laneMask m.getLsbD = m := by
  rw [laneMask_eq_sum, show m.getLsbD = m.toNat.testBit from rfl, sum_testBit, Nat.mod_eq_of_lt m.isLt, BitVec.ofNat_toNat,
    BitVec.setWidth_eq]

/-- A mask has no bits past lane 31. -/
theorem setWidth_laneMask (f : Nat → Bool) :
    (laneMask f).setWidth 64 = BitVec.ofNat 64 (((List.range 32).filter f).map (2 ^ ·)).sum := by
  have hle : (((List.range 32).filter f).map (2 ^ ·)).sum ≤ ((List.range 32).map (2 ^ ·)).sum :=
    (List.filter_sublist.map _).sum_le_sum fun _ _ => Nat.zero_le _
  have hlt : (((List.range 32).filter f).map (2 ^ ·)).sum < 2 ^ 32 := Nat.lt_of_le_of_lt hle (by decide)
  rw [laneMask_eq_sum]
  generalize (((List.range 32).filter f).map (2 ^ ·)).sum = n at hlt
  exact BitVec.eq_of_toNat_eq (by simp; omega)

theorem State.executing_lt {s : State} {l : Nat} (h : s.executing l = true) : l < 32 := BitVec.lt_of_getLsbD h

theorem State.passing_executing {s : State} {g : Guard} {l : Nat} (h : s.passing g l = true) : s.executing l = true :=
  (Bool.and_eq_true_iff.mp h).1

/-! ### A lane-wise effect, as far as the lanes go -/

/-- Two effects of the same lanes: they agree in the 32 lanes there are. -/
structure LaneEff.Same (e e' : LaneEff) : Prop where
  dst   : e.dst = e'.dst
  tag   : e.tag = e'.tag
  pass  : ∀ l, l < 32 → e.pass l = e'.pass l
  val   : ∀ l, l < 32 → e.val l = e'.val l
  flags : ∀ l, l < 32 → e.flags l = e'.flags l
  push  : ∀ l, l < 32 → e.push l = e'.push l

theorem Tag.norm_congr (t : Tag) {v v' : Nat → Lane} (h : ∀ l, l < 32 → v l = v' l) : t.norm v = t.norm v' := by
  have hsame : sameAll v = sameAll v' := by
    unfold sameAll
    rw [h 0 (by omega)]
    exact Bool.eq_iff_iff.mpr (by simp +contextual [h])
  cases t <;> simp [Tag.norm, hsame]

/-- What an effect leaves is what any effect of the same lanes leaves. -/
theorem State.Wrote.congr {s t : State} {e e' : LaneEff} (h : s.Wrote t e) (he : e.Same e') : s.Wrote t e' where
  only := h.only
  rest := h.rest
  moved := h.moved
  value d hd l hl hp := (h.value d (he.dst.trans hd) l hl ((he.pass l hl).trans hp)).trans (he.val l hl)
  other r l hr hl hno := h.other r l hr hl fun d hd hp => hno d (he.dst.symm.trans hd) ((he.pass l hl).symm.trans hp)
  kept r hr hno := h.kept r hr fun d hd l hl hp => hno d (he.dst.symm.trans hd) l hl (he.pass l hl ▸ hp)
  dulled d r l hd hr hl hx hres hno :=
    h.dulled d r l (he.dst.trans hd) hr hl hx hres fun m hm hp => hno m hm ((he.pass m hm).symm.trans hp)
  tagAll d r hd hr ha := by
    rw [h.tagAll d r (he.dst.trans hd) hr fun l hl => ⟨(he.pass l hl).trans (ha l hl).1, (ha l hl).2⟩, he.tag]
    exact Tag.norm_congr _ he.val
  tagSome d r l hd hr hl hp hres hn :=
    h.tagSome d r l (he.dst.trans hd) hr hl ((he.pass l hl).trans hp) hres fun ha =>
      hn fun m hm => ⟨(he.pass m hm).symm.trans (ha m hm).1, (ha m hm).2⟩
  flags l hl := by rw [h.flags l hl, he.pass l hl, he.flags l hl]
  preds l hl := by rw [h.preds l hl, he.pass l hl, he.push l hl]

/-! ### The group stands in its wait -/

/-- The wait of a synchronising instruction. -/
def State.syncWait (s : State) (i : Instr) : Wait := s.newWait (.sync (s.groupMask (syncMaskOf i))) i

/-- The issuing skein with its group in that wait. -/
def State.stood (s : State) (i : Instr) : Skein := s.cur.joinWait s.executing (s.syncWait i)

@[simp] theorem State.syncWait_instr (s : State) (i : Instr) : (s.syncWait i).instr = i := rfl
@[simp] theorem State.syncWait_es (s : State) (i : Instr) : (s.syncWait i).es = s.es := rfl

section Stood

variable {s : State} {i : Instr}

theorem State.stood_thread {l : Nat} (hl : l < 32) :
    (s.stood i).thread l = if s.executing l then { s.cur.thread l with waiting := some s.idCtr } else s.cur.thread l :=
  s.cur.joinWait_thread _ _ hl

theorem State.stood_thread_out {l : Nat} (hl : ¬ l < 32) : (s.stood i).thread l = {} :=
  List.getD_eq_default _ _ (by simpa [State.stood, Skein.joinWait, Skein.updThreads, allLanes] using hl)

theorem State.stood_reg (r : Nat) : (s.stood i).reg r = s.cur.reg r := rfl

theorem State.stood_resolve {l : Nat} (hl : l < 32) (f : Reg) : (s.stood i).resolve l f = s.cur.resolve l f := by
  unfold Skein.resolve
  rw [State.stood_thread hl]
  split <;> rfl

theorem State.stood_read {l : Nat} (hl : l < 32) (f : Reg) : (s.stood i).read f l = s.cur.read f l := by
  rw [Skein.read, State.stood_resolve hl]
  rfl

theorem State.stood_pred {l : Nat} (hl : l < 32) : ((s.stood i).thread l).pred = (s.cur.thread l).pred := by
  rw [State.stood_thread hl]
  split <;> rfl

theorem guardPasses_congr {t t' : Thread} (h : t.pred = t'.pred) (g : Guard) : guardPasses g t = guardPasses g t' := by
  cases g <;> simp [guardPasses, Thread.predAt, h]

/-- The lanes in the wait are those of the group (R56). -/
theorem State.stood_inWait (hf : s.Fresh) {m : MaskSrc} (ha : s.AllIn m) : (s.stood i).inWait s.idCtr = s.executing := by
  funext l
  by_cases hl : l < 32
  · unfold Skein.inWait
    rw [State.stood_thread hl]
    cases hx : s.executing l with
    | true => simp [ha.live l hl hx]
    | false =>
      have hold : (s.cur.thread l).waiting ≠ some s.idCtr := fun h => Nat.lt_irrefl _ (hf.threads l hl _ h)
      simp [hold]
  · rw [Skein.inWait, State.stood_thread_out hl]
    exact (Bool.eq_false_iff.mpr fun hx => hl (State.executing_lt hx)).symm

theorem State.stood_wait (hf : s.Fresh) : (s.stood i).wait? s.idCtr = some (s.syncWait i) := by
  have hold : s.cur.waits.find? (fun w => w.id == s.idCtr) = none :=
    List.find?_eq_none.mpr fun w hw => by simpa using Nat.ne_of_lt (hf.waits w hw)
  show (s.cur.waits ++ [s.syncWait i]).find? (fun w => w.id == s.idCtr) = _
  simp [List.find?_append, hold, State.syncWait, State.newWait]

/-- No other group of the skein combines with it. -/
theorem State.stood_mates {m : MaskSrc} (ha : s.AllIn m) : (s.stood i).mates (s.syncWait i) = [s.syncWait i] := by
  have hold : ∀ w ∈ s.cur.waits, (w.issue.pc == (s.syncWait i).issue.pc) = false :=
    fun w hw => beq_false_of_ne (ha.alone w hw)
  show (s.cur.waits ++ [s.syncWait i]).filter _ = _
  rw [List.filter_append, List.filter_eq_nil_iff.mpr fun w hw => by simp [hold w hw]]
  simp

theorem State.stood_matesIn (hf : s.Fresh) {m : MaskSrc} (ha : s.AllIn m) : (s.stood i).matesIn (s.syncWait i) = s.executing := by
  funext l
  rw [Skein.matesIn, State.stood_mates ha, ← State.stood_inWait (i := i) hf ha]
  exact Bool.or_false _

/-- The members that take part are the passing lanes of the group. -/
theorem State.stood_part (hf : s.Fresh) {m : MaskSrc} (ha : s.AllIn m) :
    (s.stood i).part (s.syncWait i) = s.passing (syncGuard i) := by
  funext l
  rw [Skein.part, State.stood_matesIn hf ha, State.passing]
  cases hx : s.executing l with
  | false => rfl
  | true => exact guardPasses_congr (State.stood_pred (State.executing_lt hx)) _

theorem State.stood_allThere (hf : s.Fresh) (ha : s.AllIn (syncMaskOf i)) : (s.stood i).allThere (s.syncWait i) = true := by
  simp only [Skein.allThere, State.syncWait, State.newWait, List.all_eq_true, mem_allLanes]
  intro l hl
  have hthere := State.stood_matesIn (i := i) hf ha
  simp only [State.syncWait, State.newWait] at hthere
  rw [hthere]
  cases hm : (s.groupMask (syncMaskOf i)).getLsbD l with
  | false => rfl
  | true =>
    cases hx : s.executing l with
    | true => simp
    | false =>
      have hgone := (ha.all l hl hm).resolve_left (by simp [hx])
      rw [State.stood_thread hl, hx]
      simp [hgone]

/-- Every register an instruction reads, as sources. -/
def syncReadRegs (m : MaskSrc) (i : Instr) : List SrcReg := maskRegs m ++ (syncSrcs i).map plain

theorem plain_mem_maskRegs {m : MaskSrc} {f : Reg} (h : f ∈ (maskRegs m).map (·.1)) : plain f ∈ maskRegs m := by
  cases m <;> simp_all [maskRegs, plain]

theorem mem_syncRegs {f : Reg} (h : f ∈ syncRegs i) : plain f ∈ syncReadRegs (syncMaskOf i) i := by
  rcases List.mem_append.mp h with h | h
  · exact List.mem_append_right _ (List.mem_map_of_mem h)
  · exact List.mem_append_left _ (plain_mem_maskRegs h)

theorem mem_syncReadRegs {x : SrcReg} : x ∈ syncReadRegs (syncMaskOf i) i ↔ ∃ f ∈ syncRegs i, x = plain f := by
  refine ⟨fun h => ?_, fun ⟨f, hf, hx⟩ => hx ▸ mem_syncRegs hf⟩
  rcases List.mem_append.mp h with h | h
  · refine ⟨x.1, List.mem_append_right _ (List.mem_map_of_mem h), ?_⟩
    revert h
    cases syncMaskOf i <;> simp +contextual [maskRegs, plain]
  · obtain ⟨f, hf, rfl⟩ := List.mem_map.mp h
    exact ⟨f, List.mem_append_left _ hf, rfl⟩

/-- The tag of a plain source is uniform where the register's is. -/
theorem State.seenTag_plain (s : State) (f : Reg) : s.seenTag (plain f) = .uniform ↔ s.tagOf f = .uniform := by
  simp only [State.seenTag, plain]
  cases s.tagOf f <;> simp
  split <;> simp

/-- A register that a group's lane names is among those its sources name. -/
theorem State.resolve_mem_namedSrcs {srcs : List SrcReg} {f : Reg} (h : plain f ∈ srcs) {l : Nat} (hx : s.executing l = true) :
    s.cur.resolve l f ∈ s.namedSrcs srcs := by
  refine List.mem_flatMap.mpr ⟨plain f, h, List.mem_dedup.mpr (List.mem_filterMap.mpr ⟨l, ?_, ?_⟩)⟩
  · exact (mem_allLanes l).mpr (State.executing_lt hx)
  · exact if_pos hx

variable {ds : List Reg}

/-- What the completion reads has landed. -/
theorem State.stood_landed (hf : s.Fresh) (ha : s.AllIn (syncMaskOf i)) (hc : s.Clear (syncReadRegs (syncMaskOf i) i) ds) :
    ∀ r ∈ (s.stood i).syncReads (s.syncWait i), (s.stood i).pendingBy r = none := by
  intro r hr
  obtain ⟨f, hfr, hr⟩ := List.mem_flatMap.mp (List.mem_dedup.mp hr)
  obtain ⟨l, hl, rfl⟩ := List.mem_map.mp hr
  obtain ⟨hl, hp⟩ := List.mem_filter.mp hl
  rw [State.stood_part hf ha] at hp
  rw [State.stood_resolve ((mem_allLanes l).mp hl)]
  exact hc.landed _ (List.mem_append_left _ (State.resolve_mem_namedSrcs (mem_syncRegs hfr) (State.passing_executing hp)))

/-- No lane that the group reads is poisoned. -/
theorem State.Clear.sound_plain {srcs : List SrcReg} (hc : s.Clear srcs ds) {m : MaskSrc} (ha : s.AllIn m) {f : Reg}
    (h : plain f ∈ srcs) {l : Nat} (hx : s.executing l = true) : (s.cur.reg (s.cur.resolve l f)).poison.getLsbD l = false :=
  hc.sound (plain f) h l (State.executing_lt hx) hx (ha.live l (State.executing_lt hx) hx)

theorem State.stood_sound (hf : s.Fresh) (ha : s.AllIn (syncMaskOf i)) (hc : s.Clear (syncReadRegs (syncMaskOf i) i) ds) :
    (s.stood i).syncPoison (s.syncWait i) = false := by
  refine Bool.eq_false_iff.mpr fun h => ?_
  obtain ⟨f, hfr, h⟩ := List.any_eq_true.mp h
  obtain ⟨l, hl, h⟩ := List.any_eq_true.mp h
  simp only [State.stood_part hf ha, Bool.and_eq_true] at h
  obtain ⟨⟨hp, -⟩, hbad⟩ := h
  rw [State.stood_resolve ((mem_allLanes l).mp hl), State.stood_reg, hc.sound_plain ha (mem_syncRegs hfr) (State.passing_executing hp)] at hbad
  cases hbad

end Stood

/-! ### The completion -/

theorem Skein.completeSync_uid (k : Skein) (w : Wait) : (k.completeSync w).uid = k.uid := by
  have hends : ∀ (ws : List Wait) (k' : Skein), (ws.foldl (fun k x => k.endWait x) k').uid = k'.uid := by
    intro ws
    induction ws with
    | nil => exact fun _ => rfl
    | cons x ws ih => exact fun k' => (ih _).trans (Skein.endWait_uid k' x)
  rw [Skein.completeSync, hends, Skein.laneEff_uid, Skein.dull_uid]

theorem State.cur_updSk {s : State} (h : s.Issuing) {f : Skein → Skein} (hf : ∀ k, (f k).uid = k.uid) :
    (s.updSk s.issue.sk f).cur = f s.cur := by
  obtain ⟨k, hk⟩ := h
  refine (State.cur_eq (s.updSk s.issue.sk f) (k := f k) ?_).trans (congrArg f (s.cur_eq hk).symm)
  exact (s.sk?_updSk _ f hf _).trans ((if_pos rfl).trans (congrArg (Option.map f) hk))

theorem State.updSk_only (s : State) {f : Skein → Skein} (hf : ∀ k, (f k).uid = k.uid) : s.OnlyCur (s.updSk s.issue.sk f) :=
  ⟨rfl, fun v hv => (s.sk?_updSk _ f hf v).trans (if_neg hv)⟩

theorem Skein.updThreads_congr (k : Skein) {p q : Nat → Bool} (h : ∀ l, l < 32 → p l = q l) (f : Nat → Thread → Thread) :
    k.updThreads p f = k.updThreads q f := by
  have hmap : (allLanes.map fun l => if p l then f l (k.thread l) else k.thread l) =
      allLanes.map fun l => if q l then f l (k.thread l) else k.thread l :=
    List.map_congr_left fun l hl => by rw [h l ((mem_allLanes l).mp hl)]
  simp only [Skein.updThreads, hmap]

/-- A lane-wise effect leaves who waits. -/
theorem Skein.laneEff_inWait (k : Skein) (e : LaneEff) (id : Nat) {l : Nat} (hl : l < 32) :
    (k.laneEff e).inWait id l = k.inWait id l := by
  have ht : (k.laneEff e).thread l = if e.pass l then e.onThread l (k.thread l) else k.thread l := by
    rw [Skein.laneEff_eq]
    exact k.thread_updThreads e.pass e.onThread l hl
  unfold Skein.inWait
  rw [ht]
  split
  · unfold LaneEff.onThread
    split <;> rfl
  · rfl

/-- The lane-wise effect of a synchronising instruction of the issuing group alone. -/
def State.syncLane (s : State) (i : Instr) : LaneEff := (s.stood i).syncEff (s.syncWait i)

section Complete

variable {s : State} {i : Instr} {ds : List Reg}

theorem State.stood_completeSync (hf : s.Fresh) {m : MaskSrc} (ha : s.AllIn m) :
    (s.stood i).completeSync (s.syncWait i) =
      { (((s.stood i).dull s.executing (s.syncLane i).dst).laneEff (s.syncLane i)).pass s.issue s.executing with waits := s.cur.waits } := by
  obtain ⟨k, hk⟩ : ∃ k, k = ((s.stood i).dull s.executing (s.syncLane i).dst).laneEff (s.syncLane i) := ⟨_, rfl⟩
  have hwaits : k.waits = s.cur.waits ++ [s.syncWait i] := by rw [hk, Skein.laneEff_eq, Skein.dull_rest]; rfl
  have hin : ∀ l, l < 32 → k.inWait s.idCtr l = s.executing l := fun l hl => by
    rw [hk, Skein.laneEff_inWait _ _ _ hl, Skein.inWait, Skein.dull_thread, ← State.stood_inWait (i := i) hf ha]
    rfl
  have hold : s.cur.waits.filter (fun w => w.id != s.idCtr) = s.cur.waits :=
    List.filter_eq_self.mpr fun w hw => by simpa using Nat.ne_of_lt (hf.waits w hw)
  have hend : (s.stood i).completeSync (s.syncWait i) = k.endWait (s.syncWait i) := by
    rw [Skein.completeSync, State.stood_mates ha, State.stood_matesIn hf ha, hk]
    rfl
  have hpass : k.pass s.issue (k.inWait s.idCtr) = k.pass s.issue s.executing := k.updThreads_congr hin _
  have hleft : k.waits.filter (fun w => w.id != s.idCtr) = s.cur.waits := by
    rw [hwaits, List.filter_append, hold]
    simp [State.syncWait, State.newWait]
  rw [hend, ← hk]
  show { k.pass s.issue (k.inWait s.idCtr) with waits := k.waits.filter fun w => w.id != s.idCtr } = _
  rw [hpass, hleft]

theorem State.syncBegin_eq (hi : s.Issuing) (hf : s.Fresh) (ha : s.AllIn (syncMaskOf i))
    (hc : s.Clear (syncReadRegs (syncMaskOf i) i) ds) :
    s.syncBegin i = (s.beginWait (s.syncWait i).kind i).updSk s.issue.sk fun k => k.completeSync (s.syncWait i) := by
  have hsk : (s.beginWait (s.syncWait i).kind i).sk s.issue.sk = s.stood i := State.beginWait_cur hi _ _
  have hland := State.stood_landed hf ha hc
  show (s.beginWait (s.syncWait i).kind i).trySync s.issue.sk s.idCtr = _
  simp only [State.trySync, hsk, State.stood_wait hf, State.stood_allThere hf ha, State.stood_sound hf ha hc]
  rw [List.any_eq_false.mpr fun r hr => by simp [hland r hr], List.any_eq_false.mpr fun r hr => by simp [hland r hr]]
  rfl

/-- A lane-wise effect on the skein whose group stands in the wait, the wait taken off again, is one on the skein as it was. -/
theorem State.Wrote.of_stood {b u t : State} {e : LaneEff} (hw : b.Wrote u e) (hbc : b.cur = s.stood i) (hissue : b.issue = s.issue)
    (ht : t.cur = { u.cur with waits := s.cur.waits }) (honly : { s with idCtr := s.idCtr + 1 }.OnlyCur t) :
    { s with idCtr := s.idCtr + 1 }.Wrote t e := by
  have hx : b.executing = s.executing := congrArg (fun x => x.mask.getLsbD) hissue
  have hthread : t.cur.thread = u.cur.thread := by rw [ht]; rfl
  have hreg : t.cur.reg = u.cur.reg := by rw [ht]; rfl
  have hlane : t.cur.lane = u.cur.lane := by rw [ht]; rfl
  have hres : ∀ l, l < 32 → ∀ f, b.cur.resolve l f = s.cur.resolve l f := fun l hl f => by rw [hbc, State.stood_resolve hl]
  have hbr : ∀ r, b.cur.reg r = s.cur.reg r := fun r => by rw [hbc, State.stood_reg]
  refine ⟨honly, ?_, fun l hl => ?_, fun d hd l hl hp => ?_, fun r l hr hl hno => ?_, fun r hr hno => ?_,
    fun d r l hd hr hl he heq hno => ?_, fun d r hd hr hall => ?_, fun d r l hd hr hl hp heq hn => ?_, fun l hl => ?_, fun l hl => ?_⟩
  · rw [ht, hw.rest, hbc]
    rfl
  · have hm := hw.moved l hl
    rw [hbc, State.stood_thread hl, hx, hissue] at hm
    rw [hthread]
    show _ = if s.executing l then s.issue.past (s.cur.thread l) else s.cur.thread l
    cases he : s.executing l <;> simp only [he, if_true, Bool.false_eq_true, if_false] at hm ⊢ <;> exact hm
  · rw [hlane]
    show _ = _
    rw [← hw.value d hd l hl hp, hres l hl]
    rfl
  · rw [hlane, hw.other r l hr hl fun d hd hp => hres l hl d ▸ hno d hd hp, hbc]
    rfl
  · rw [hreg, hw.kept r hr fun d hd l hl h => hres l hl d ▸ hno d hd l hl (hx ▸ h), hbr]
    rfl
  · rw [hreg, hw.dulled d r l hd hr hl (hx ▸ he) (hres l hl d ▸ heq) fun m hm hp => hres m hm d ▸ hno m hm hp, hbr]
    rfl
  · rw [hreg, hw.tagAll d r hd hr fun l hl => ⟨(hall l hl).1, hres l hl d ▸ (hall l hl).2⟩]
  · rw [hreg, hw.tagSome d r l hd hr hl hp (hres l hl d ▸ heq) fun h => hn fun m hm => ⟨(h m hm).1, (hres m hm d).symm.trans (h m hm).2⟩]
  · rw [hthread, hw.flags l hl, hbc, State.stood_thread hl]
    show _ = if _ then (s.cur.thread l).sticky ||| _ else (s.cur.thread l).sticky
    split <;> split <;> rfl
  · rw [hthread, hw.preds l hl, hbc, State.stood_thread hl]
    cases s.executing l <;> rfl

/-- With every member there, a synchronising instruction leaves the lane-wise effect of its result. -/
theorem State.syncBegin_wrote (hi : s.Issuing) (hf : s.Fresh) (ha : s.AllIn (syncMaskOf i))
    (hc : s.Clear (syncReadRegs (syncMaskOf i) i) ds) :
    { s with idCtr := s.idCtr + 1 }.Wrote (s.syncBegin i) (s.syncLane i) := by
  obtain ⟨b, hb⟩ : ∃ b, b = s.beginWait (s.syncWait i).kind i := ⟨_, rfl⟩
  have hissue : b.issue = s.issue := by rw [hb]; rfl
  have hbc : b.cur = s.stood i := hb ▸ State.beginWait_cur hi _ _
  have hbi : b.Issuing := hb ▸ State.updCur_issuing s.fresh.2 (fun k => k.joinWait s.executing (s.syncWait i)) hi fun _ => rfl
  have hx : b.executing = s.executing := congrArg (fun x => x.mask.getLsbD) hissue
  refine (b.laneEff_wrote (s.syncLane i) hbi).of_stood hbc hissue ?_ ?_
  · rw [State.syncBegin_eq hi hf ha hc, ← hb, ← hissue, State.cur_updSk hbi fun k => k.completeSync_uid _, hbc,
      State.stood_completeSync hf ha, b.cur_laneEff _ hbi, hbc, hx, hissue]
  · rw [State.syncBegin_eq hi hf ha hc]
    exact (State.beginWait_waits hi _ i).only.trans (State.updSk_only _ fun k => k.completeSync_uid _)

end Complete

/-! ### The checks -/

section Checks

variable {s : State} {i : Instr} {ds : List Reg} {es : Es → Bool} {extra : Option Stop}

theorem State.Clear.failed {srcs : List SrcReg} (hc : s.Clear srcs ds) : s.ckFailed (s.namedSrcs srcs) = none := by
  refine firstStop_none _ fun x hx => ?_
  obtain ⟨r, hr, rfl⟩ := List.mem_map.mp hx
  rw [hc.landed r (List.mem_append_left _ hr)]
  rfl

theorem State.Clear.settledPoison {m : MaskSrc} (hc : s.Clear (syncReadRegs m i) ds) (ha : s.AllIn m) :
    s.ckSettledPoison ((maskRegs m).map (·.1) ++ syncSrcs i) = none := by
  unfold State.ckSettledPoison State.ckPoisonLanes
  rw [Option.map_eq_none_iff, List.find?_eq_none]
  intro x hx
  obtain ⟨f, hf, hx⟩ := List.mem_flatMap.mp (List.mem_of_mem_filter hx)
  obtain ⟨l, hl, rfl⟩ := List.mem_map.mp hx
  have hplain : plain f ∈ syncReadRegs m i := by
    rcases List.mem_append.mp hf with hf | hf
    · exact List.mem_append_left _ (plain_mem_maskRegs hf)
    · exact List.mem_append_right _ (List.mem_map_of_mem hf)
  simp [hc.sound_plain ha hplain (List.mem_filter.mp hl).2]

theorem State.AllIn.members {m : MaskSrc} (ha : s.AllIn m) : s.ckMembers m = none := by
  have hall : (allLanes.all fun l => !s.executing l || (s.maskAt m l == s.groupMask m && (s.groupMask m).getLsbD l)) = true := by
    simp only [List.all_eq_true, mem_allLanes]
    intro l hl
    cases hx : s.executing l with
    | false => rfl
    | true => simp [ha.same l hl hx]
  rw [State.ckMembers, hall]
  rfl

theorem State.Clear.maskPending {m : MaskSrc} (hc : s.Clear (syncReadRegs m i) ds) : s.maskPending m = false := by
  refine List.any_eq_false.mpr fun r hr => ?_
  obtain ⟨x, hx, hr⟩ := List.mem_flatMap.mp hr
  rw [hc.landed r (List.mem_append_left _ (List.mem_flatMap.mpr ⟨x, List.mem_append_left _ hx, hr⟩))]
  simp

/-- A synchronising instruction whose checks pass and whose members are all there completes at once. -/
theorem State.syncOp_wrote (hi : s.Issuing) (hf : s.Fresh) (ha : s.AllIn (syncMaskOf i))
    (hc : s.Clear (syncReadRegs (syncMaskOf i) i) ds) (hes : es s.es = true) (hextra : extra = none) :
    ∃ t, s.syncOp i es (syncMaskOf i) ds extra = .next t ∧ { s with idCtr := s.idCtr + 1 }.Wrote t (s.syncLane i) := by
  refine ⟨s.syncBegin i, ?_, State.syncBegin_wrote hi hf ha hc⟩
  have hregs : s.ckRegs (syncSrcs i ++ (maskRegs (syncMaskOf i)).map (·.1) ++ ds) = none :=
    s.ckRegs_none _ fun f h => hc.range f (by
      simp only [syncReadRegs, List.map_append, List.map_map, List.mem_append] at h ⊢
      simp only [Function.comp_def, plain, List.map_id']
      tauto)
  have hmarks : s.ckMarks [] (s.namedDsts ds) = none :=
    s.ckMarks_none _ _ (fun r hr => hc.landed r (List.mem_append_right _ hr)) hc.free
  have hsize : s.ckEs es = none := by rw [State.ckEs, hes]; rfl
  have hfailed : s.ckFailed (s.namedSrcs (maskRegs (syncMaskOf i) ++ (syncSrcs i).map plain)) = none := hc.failed
  simp only [State.syncOp, hsize, hregs, hextra, hfailed, hmarks, hc.settledPoison ha, hc.maskPending, ha.members]
  rfl

/-- An operand out of range raises cause 0x0A, be it a register's number or the amount (R164). -/
theorem State.syncOp_outOfRange (m : MaskSrc) (hes : es s.es = true) :
    s.syncOp i es m ds (illIf true .range) = .next (s.takeTrap { kind := 1, cause := 0x0A }) := by
  have hsize : s.ckEs es = none := by rw [State.ckEs, hes]; rfl
  simp only [State.syncOp, hsize, State.ckRegs]
  cases (syncSrcs i ++ (maskRegs m).map (·.1) ++ ds).any fun f => decide (s.cur.regCount ≤ f.toNat) <;> rfl

/-- Another element size raises cause 0x07 before all else. -/
theorem State.syncOp_badSize (m : MaskSrc) (hes : es s.es = false) :
    s.syncOp i es m ds extra = .next (s.takeTrap { kind := 1, cause := 0x07 }) := by
  have hsize : s.ckEs es = ill .badSize := by rw [State.ckEs, hes]; rfl
  simp only [State.syncOp, hsize]
  rfl

end Checks

/-! ### What the lanes supply -/

theorem lanes_pos (e : Es) : 0 < 64 / e.w := by cases e <;> decide

theorem subs_getD (w : Nat) (v : Lane) {n : Nat} (h : n < 64 / w) : (subs w v).getD n 0 = elt w v n := by
  simp [subs_eq, List.getD_eq_getElem?_getD, h]

section Supply

variable {s : State} {i : Instr} (hf : s.Fresh) {m : MaskSrc} (ha : s.AllIn m)
include hf ha

theorem State.stood_element (f : Reg) (fill j : Nat) :
    (s.stood i).element (s.syncWait i) f fill j = s.supplied (syncGuard i) f fill j := by
  have hn := Nat.mod_lt j (lanes_pos s.es)
  show (if decide (j / (64 / s.es.w) < 32) && (s.stood i).part (s.syncWait i) (j / (64 / s.es.w)) then
    (subs s.es.w ((s.stood i).read f (j / (64 / s.es.w)))).getD (j % (64 / s.es.w)) 0 else fill) = _
  rw [State.stood_part hf ha, subs_getD _ _ hn, State.supplied]
  simp only [Bool.and_eq_true, decide_eq_true_eq]
  by_cases h : j / (64 / s.es.w) < 32 ∧ s.passing (syncGuard i) (j / (64 / s.es.w)) = true
  · rw [if_pos h, if_pos h, State.stood_read h.1]
  · rw [if_neg h, if_neg h]

theorem State.stood_tagOf (f : Reg) : (s.stood i).tagOf (laneMask ((s.stood i).matesIn (s.syncWait i))) f = s.tagOf f := by
  have hnamed : (s.stood i).named s.issue.mask f .ident = s.cur.named s.issue.mask f .ident := by
    unfold Skein.named
    congr 1
    refine List.filterMap_congr fun l hl => ?_
    rw [show permSrc .ident l = l from rfl, State.stood_resolve ((mem_allLanes l).mp hl)]
  rw [State.stood_matesIn hf ha, show s.executing = s.issue.mask.getLsbD from rfl, laneMask_getLsbD, State.tagOf, Skein.tagOf,
    Skein.tagOf, hnamed]
  rfl

theorem State.stood_tagAll : tagAll ((syncRegs i).map fun f => (s.stood i).tagOf (laneMask ((s.stood i).matesIn (s.syncWait i))) f) =
    s.plainTag (syncReadRegs (syncMaskOf i) i) := by
  have hall : (((syncRegs i).map fun f => (s.stood i).tagOf (laneMask ((s.stood i).matesIn (s.syncWait i))) f).all (· == .uniform)) = true ↔
      ∀ x ∈ syncReadRegs (syncMaskOf i) i, s.seenTag x = .uniform := by
    simp only [State.stood_tagOf hf ha, List.all_map, List.all_eq_true, Function.comp_apply, beq_iff_eq, mem_syncReadRegs]
    exact ⟨fun h x ⟨f, hfr, hx⟩ => hx ▸ (s.seenTag_plain f).mpr (h f hfr), fun h f hfr => (s.seenTag_plain f).mp (h _ ⟨f, hfr, rfl⟩)⟩
  exact if_congr hall rfl rfl

end Supply

/-! ### Moves across lanes (R201 to R203) -/

theorem lane_of_element {n l k : Nat} (h : k < n) : (l * n + k) / n = l ∧ (l * n + k) % n = k := by
  rw [Nat.mul_comm]
  exact ⟨by rw [Nat.mul_add_div (by omega), Nat.div_eq_of_lt h, Nat.add_zero], by rw [Nat.mul_add_mod, Nat.mod_eq_of_lt h]⟩

section Moves

variable {s : State} {i : Instr} {g : Guard} {d : Reg} {srcs : List Reg} {m : MaskSrc} {amt : BitVec 8} {v : Nat → Nat}

theorem moveRow_cases (h : moveRow s i = some (g, d, srcs, m, amt, v)) :
    (∃ md a b fill, i = .shfl g md d a b m fill amt) ∨ ∃ down a nb fill, i = .slide g down d a nb m fill amt := by
  unfold moveRow at h
  split at h
  · cases h
    exact .inl ⟨_, _, _, _, rfl⟩
  · cases h
    exact .inr ⟨_, _, _, _, rfl⟩
  · cases h

theorem exec_of_moveRow (h : moveRow s i = some (g, d, srcs, m, amt, v)) :
    exec i s = s.syncOp i anyEs (syncMaskOf i) [d] (s.ckAmt amt) := by
  rcases moveRow_cases h with ⟨md, a, b, fill, rfl⟩ | ⟨down, a, nb, fill, rfl⟩ <;> rfl

theorem moveRow_srcs (h : moveRow s i = some (g, d, srcs, m, amt, v)) : syncGuard i = g ∧ syncMaskOf i = m ∧ syncSrcs i = srcs := by
  rcases moveRow_cases h with ⟨md, a, b, fill, rfl⟩ | ⟨down, a, nb, fill, rfl⟩
  · cases h
    exact ⟨rfl, rfl, by cases md <;> rfl⟩
  · cases h
    exact ⟨rfl, rfl, rfl⟩

/-- Each sub-element is the element the rule names. -/
theorem moveRow_val (h : moveRow s i = some (g, d, srcs, m, amt, v)) (hf : s.Fresh) (ha : s.AllIn m) {l : Nat} (hl : l < 32) :
    (s.syncLane i).val l = lanesOf s.es.w fun k => v (l * (64 / s.es.w) + k) := by
  have helt := State.stood_element (i := i) hf ha
  have hread := State.stood_read (s := s) (i := i) hl
  rcases moveRow_cases h with ⟨md, a, b, fill, rfl⟩ | ⟨down, a, nb, fill, rfl⟩
  · cases h
    refine congrArg (packLane s.es.w) (List.map_congr_left fun k hk => ?_)
    have hk : k < 64 / s.es.w := List.mem_range.mp hk
    obtain ⟨hdiv, hmod⟩ := lane_of_element (l := l) hk
    have hb : elt s.es.w (s.cur.read b ((l * (64 / s.es.w) + k) / (64 / s.es.w))) ((l * (64 / s.es.w) + k) % (64 / s.es.w)) =
        (subs s.es.w (s.cur.read b l)).getD k 0 := by rw [hdiv, hmod, subs_getD _ _ hk]
    simp only [helt, hread, hb]
    cases md <;> rfl
  · cases h
    refine congrArg (packLane s.es.w) (List.map_congr_left fun k hk => ?_)
    simp only [helt]
    cases nb <;> rfl

/-- The lane-wise effect of a move across lanes. -/
theorem moveRow_same (h : moveRow s i = some (g, d, srcs, m, amt, v)) (hf : s.Fresh) (ha : s.AllIn m) :
    (s.syncLane i).Same { pass := s.passing g, dst := some d, tag := s.plainTag (maskRegs m ++ srcs.map plain)
                          val := fun l => lanesOf s.es.w fun k => v (l * (64 / s.es.w) + k) } := by
  have hpart := State.stood_part (i := i) hf ha
  have htag := State.stood_tagAll (i := i) hf ha
  have hval := fun l (hl : l < 32) => moveRow_val h hf ha hl
  obtain ⟨hg, hm, hs⟩ := moveRow_srcs h
  rw [syncReadRegs, hm, hs] at htag
  rw [hg] at hpart
  rcases moveRow_cases h with ⟨md, a, b, fill, rfl⟩ | ⟨down, a, nb, fill, rfl⟩ <;>
    exact ⟨rfl, htag, fun l _ => congrFun hpart l, hval, fun _ _ => rfl, fun _ _ => rfl⟩

end Moves

theorem claim_moveAcrossLanes : Claim.MoveAcrossLanes := by
  intro i g d srcs m amt v s h hi hf n
  have hexec := exec_of_moveRow h
  refine ⟨fun hamt ha hc => ?_, fun hamt => ?_⟩
  · have hsame := moveRow_same h hf ha
    have hok : s.ckAmt amt = none := (illIf_eq_none _ _).mpr (decide_eq_false (Nat.not_le.mpr hamt))
    obtain ⟨-, hm, hs⟩ := moveRow_srcs h
    subst hm hs
    obtain ⟨t, ht, hw⟩ := State.syncOp_wrote (es := anyEs) hi hf ha hc rfl hok
    exact ⟨t, hexec.trans ht, hw.congr hsame⟩
  · rw [hexec, State.ckAmt, decide_eq_true hamt]
    exact State.syncOp_outOfRange _ rfl

/-! ### Votes (R204) -/

/-- The predicates that the passing lanes supply. -/
def State.ballots (s : State) (g : Guard) (n : Nat) : List Bool :=
  (allLanes.filter (s.passing g)).map fun l => (s.cur.thread l).predAt n

/-- A passing lane whose predicate holds. -/
def State.holds (s : State) (g : Guard) (n l : Nat) : Bool := s.passing g l && (s.cur.thread l).predAt n

section Votes

variable {s : State} {g : Guard} {n : Nat}

theorem State.ballots_any : (s.ballots g n).any id = (List.range 32).any (s.holds g n) := by
  simp only [State.ballots, List.any_map, List.any_filter]
  rfl

theorem State.ballots_all : (s.ballots g n).all id = (List.range 32).all fun l => !s.passing g l || s.holds g n l := by
  simp only [State.ballots, List.all_map, List.all_filter]
  refine congrArg (List.all (List.range 32)) (funext fun l => ?_)
  cases h : s.passing g l <;> simp [State.holds, h]

theorem State.ballots_none : (s.ballots g n).all not = !(List.range 32).any (s.holds g n) := by
  rw [← State.ballots_any, List.not_any_eq_all_not]
  rfl

theorem State.ballots_count : (s.ballots g n).count true = ((List.range 32).filter (s.holds g n)).length := by
  rw [State.ballots, List.count, List.countP_map, List.countP_filter, List.countP_eq_length_filter]
  refine congrArg List.length (List.filter_congr fun l _ => ?_)
  cases h : s.passing g l <;> simp [State.holds, h]

variable {op : VoteOp} {d : Reg} {m : MaskSrc} {dep : BitVec 2}

/-- What a `vote` leaves, from the lanes whose predicate holds. -/
def State.voteEff (s : State) (g : Guard) (op : VoteOp) (d : Reg) (n : Nat) : LaneEff :=
  match op with
  | .or => { pass := s.passing g, push := fun _ => some ((s.ballots g n).any id) }
  | .and => { pass := s.passing g, push := fun _ => some ((s.ballots g n).all id) }
  | .eqv => { pass := s.passing g, push := fun _ => some ((s.ballots g n).all id || (s.ballots g n).all not) }
  | .bits => { pass := s.passing g, dst := some d, tag := .uniform, val := fun _ => (laneMask (s.holds g n)).setWidth 64 }
  | .cnt => { pass := s.passing g, dst := some d, tag := .uniform, val := fun _ => u64 ((s.ballots g n).count true)
              push := fun _ => some ((s.ballots g n).count true != 0) }

theorem State.syncLane_vote (hf : s.Fresh) (ha : s.AllIn m) :
    s.syncLane (.vote g op d m dep) = s.voteEff g op d dep.toNat := by
  have hpart := State.stood_part (i := .vote g op d m dep) hf ha
  have hballots : ((allLanes.filter (s.passing g)).map fun l => ((s.stood (.vote g op d m dep)).thread l).predAt dep.toNat) =
      s.ballots g dep.toNat :=
    List.map_congr_left fun l hl =>
      congrArg (·.getLsbD dep.toNat) (State.stood_pred ((mem_allLanes l).mp (List.mem_of_mem_filter hl)))
  have hholds : (fun l => s.passing g l && ((s.stood (.vote g op d m dep)).thread l).predAt dep.toNat) = s.holds g dep.toNat := by
    funext l
    cases hp : s.passing g l with
    | false => simp [State.holds, hp]
    | true => simp [State.holds, hp, Thread.predAt, State.stood_pred (State.executing_lt (State.passing_executing hp))]
  simp only [State.syncLane, Skein.syncEff, State.syncWait_instr, hpart, syncGuard, hballots, hholds]
  cases op <;> rfl

end Votes

theorem claim_voteResults : Claim.VoteResults := by
  intro g op d m dep s hi hf ha hc holds any all cnt
  have hc' : s.Clear (syncReadRegs m (.vote g op d m dep)) (if op.writes then [d] else []) := by
    simpa [syncReadRegs, syncSrcs] using hc
  obtain ⟨t, ht, hw⟩ := State.syncOp_wrote (i := .vote g op d m dep) (es := anyEs) (extra := none) hi hf ha hc' rfl rfl
  refine ⟨t, ht, ?_⟩
  rw [State.syncLane_vote hf ha] at hw
  have hany : (s.ballots g dep.toNat).any id = any := State.ballots_any
  have hall : (s.ballots g dep.toNat).all id = all := State.ballots_all
  have hnone : (s.ballots g dep.toNat).all not = !any := State.ballots_none
  have hcnt : (s.ballots g dep.toNat).count true = cnt := State.ballots_count
  have htruth : (cnt != 0) = decide (0 < cnt) := Bool.eq_iff_iff.mpr (by simp [Nat.pos_iff_ne_zero])
  cases op with
  | or => rwa [State.voteEff, hany] at hw
  | and => rwa [State.voteEff, hall] at hw
  | eqv => rwa [State.voteEff, hall, hnone] at hw
  | bits => rwa [State.voteEff, setWidth_laneMask] at hw
  | cnt => rwa [State.voteEff, hcnt, htruth] at hw

/-! ### Reductions (R205) -/

theorem wrap_natCast (w n : Nat) : wrap w n = n % 2 ^ w := by
  rw [wrap, ← Int.natCast_emod, Int.toNat_natCast]

theorem wrap_sgn (w x : Nat) : wrap w (sgn w x) = x % 2 ^ w := by
  have hlow : ((x % 2 ^ w : Nat) : Int) % (2 ^ w : Nat) = (x % 2 ^ w : Nat) := by rw [← Int.natCast_emod, Nat.mod_mod]
  have hmod : sgn w x % (2 ^ w : Nat) = (x % 2 ^ w : Nat) := by
    unfold sgn
    split
    · exact hlow
    · rw [show (2 : Int) ^ w = (2 ^ w : Nat) by push_cast; rfl, Int.sub_emod_right, hlow]
  rw [wrap, hmod, Int.toNat_natCast]

theorem sgn_of_lt {w x : Nat} (hw : 0 < w) (h : x < 2 ^ (w - 1)) : sgn w x = x := by
  rw [sgn, Nat.mod_eq_of_lt (h.trans (Nat.two_pow_pred_lt_two_pow hw)), if_pos h]

/-- The least signed value. -/
theorem sgn_half {w : Nat} (hw : 0 < w) : sgn w (2 ^ (w - 1)) = -2 ^ (w - 1) := by
  have hdouble : (2 : Int) ^ w = 2 ^ (w - 1) + 2 ^ (w - 1) := by
    rw [← two_mul, mul_comm, ← pow_succ, Nat.sub_add_cancel hw]
  rw [sgn, Nat.mod_eq_of_lt (Nat.two_pow_pred_lt_two_pow hw), if_neg (Nat.lt_irrefl _), hdouble, Nat.cast_pow, Nat.cast_ofNat]
  omega

/-- A fold that keeps one of two values stays below a bound. -/
theorem foldl_choice_lt {f : Nat → Nat → Nat} (hf : ∀ a x, f a x = a ∨ f a x = x) {N : Nat} (xs : List Nat) {a : Nat} (ha : a < N)
    (hxs : ∀ x ∈ xs, x < N) : xs.foldl f a < N := by
  induction xs generalizing a with
  | nil => exact ha
  | cons x xs ih =>
    refine ih ?_ fun y hy => hxs y (List.mem_cons_of_mem _ hy)
    rcases hf a x with h | h <;> rw [h]
    · exact ha
    · exact hxs x List.mem_cons_self

theorem foldl_wrap_add (w : Nat) (xs : List Nat) (a : Nat) : xs.foldl (fun a x => (fnAdd w a x).1) (a % 2 ^ w) = (a + xs.sum) % 2 ^ w := by
  induction xs generalizing a with
  | nil => simp
  | cons x xs ih =>
    have hstep : (fnAdd w (a % 2 ^ w) x).1 = (a + x) % 2 ^ w := by
      rw [← Nat.mod_add_mod]
      exact wrap_natCast w _
    rw [List.foldl_cons, hstep, ih, List.sum_cons, Nat.add_assoc]

section Reduce

variable {w : Nat} {xs : List Nat}

/-- The pattern chosen by signed values has the signed value chosen. -/
theorem foldl_signed {f : Nat → Nat → Nat} {g : Int → Int → Int} (hf : ∀ a x, f a x = a ∨ f a x = x)
    (hg : ∀ a x, g (sgn w a) (sgn w x) = sgn w (f a x)) {a : Nat} (ha : a < 2 ^ w) (hxs : ∀ x ∈ xs, x < 2 ^ w) :
    xs.foldl f a = wrap w ((xs.map (sgn w)).foldl g (sgn w a)) := by
  rw [List.foldl_map, List.foldl_hom (sgn w) fun a x => hg a x, wrap_sgn, Nat.mod_eq_of_lt (foldl_choice_lt hf xs ha hxs)]

/-- The folds of the model are the closed forms of the integer reductions. -/
theorem reduxOf_eq_reduction (op : ReduxOp) (F : Fmt) (c : FCtl) (hw : 0 < w) (hxs : op.isFloat = false → ∀ x ∈ xs, x < 2 ^ w) :
    reduxOf op w F c xs = reduction op w F c xs := by
  have hmin : ∀ a x, min (sgn w a) (sgn w x) = sgn w (fnMinI w a x).1 := fun a x => by
    simp only [fnMinI, apply_ite (sgn w)]
    exact min_def _ _
  have hmax : ∀ a x, max (sgn w a) (sgn w x) = sgn w (fnMaxI w a x).1 := fun a x => by
    simp only [fnMaxI, apply_ite (sgn w)]
    exact max_def _ _
  have hhalf := Nat.two_pow_pred_lt_two_pow hw
  have hpos := Nat.two_pow_pos (w - 1)
  cases op with
  | add => exact Prod.ext ((foldl_wrap_add w xs 0).trans (congrArg (· % 2 ^ w) (Nat.zero_add _))) rfl
  | minI =>
    have hfold := foldl_signed (a := 2 ^ (w - 1) - 1) (fun a x => ite_eq_or_eq _ _ _) hmin (by omega) (hxs rfl)
    rw [sgn_of_lt hw (by omega), Nat.cast_pred hpos, Nat.cast_pow] at hfold
    exact Prod.ext hfold rfl
  | maxI =>
    have hfold := foldl_signed (fun a x => (ite_eq_or_eq _ _ _).symm) hmax hhalf (hxs rfl)
    rw [sgn_half hw] at hfold
    exact Prod.ext hfold rfl
  | minN => rfl
  | maxN => rfl
  | and => rfl
  | or => rfl
  | xor => rfl
  | fadd => rfl
  | fmin => rfl
  | fmax => rfl

end Reduce

section Redux

variable {s : State} {i : Instr} {g : Guard} {op : ReduxOp} {d a : Reg} {m : MaskSrc} {seg : BitVec 3} {h fzo fzi : Bool}

/-- What a lane supplies to a reduction: its own sub-element, or the identity. -/
def State.reduxElt (s : State) (g : Guard) (op : ReduxOp) (a : Reg) (h : Bool) (l n : Nat) : Nat :=
  if s.passing g l then elt s.es.w (s.cur.read a l) n else reduxIdent op s.es.w (esFmt s.es h)

/-- The result of one sub-element over a lane's segment. -/
def State.reduxAt (s : State) (g : Guard) (op : ReduxOp) (a : Reg) (seg : BitVec 3) (h fzo fzi : Bool) (l n : Nat) : Nat × Sticky :=
  reduction op s.es.w (esFmt s.es h) ⟨0, h, fzo, fzi, false⟩
    ((List.range (segLen seg)).map fun j => s.reduxElt g op a h (l / segLen seg * segLen seg + j) n)

theorem es_pos (e : Es) : 0 < e.w := by cases e <;> decide

theorem reduxIdent_lt {w : Nat} (hw : 0 < w) (F : Fmt) (hop : op.isFloat = false) : reduxIdent op w F < 2 ^ w := by
  have hhalf := Nat.two_pow_pred_lt_two_pow hw
  have hpos := Nat.two_pow_pos (w - 1)
  cases op with
  | fadd | fmin | fmax => cases hop
  | add | minI | minN | maxI | maxN | and | or | xor =>
    simp only [reduxIdent]
    omega

theorem State.reduxElt_lt (hop : op.isFloat = false) (l n : Nat) : s.reduxElt g op a h l n < 2 ^ s.es.w := by
  unfold State.reduxElt
  split
  · exact Nat.mod_lt _ (Nat.two_pow_pos _)
  · exact reduxIdent_lt (es_pos _) _ hop

variable (hf : s.Fresh) (ha : s.AllIn m)
include hf ha

/-- What a lane of the group supplies while it stands at the instruction. -/
theorem State.stood_supply (hg : syncGuard i = g) (l : Nat) {n : Nat} (hn : n < 64 / s.es.w) :
    (if (s.stood i).part (s.syncWait i) l then (subs s.es.w ((s.stood i).read a l)).getD n 0 else reduxIdent op s.es.w (esFmt s.es h)) =
      s.reduxElt g op a h l n := by
  rw [State.stood_part hf ha, State.reduxElt, hg]
  by_cases hp : s.passing g l = true
  · rw [if_pos hp, if_pos hp, State.stood_read (State.executing_lt (State.passing_executing hp)), subs_getD _ _ hn]
  · rw [if_neg hp, if_neg hp]

theorem State.stood_reduxOf (hg : syncGuard i = g) (l : Nat) :
    ((List.range (64 / s.es.w)).map fun n => reduxOf op s.es.w (esFmt s.es h) ⟨0, h, fzo, fzi, false⟩ ((List.range (segLen seg)).map fun j =>
      if (s.stood i).part (s.syncWait i) (l / segLen seg * segLen seg + j) then
        (subs s.es.w ((s.stood i).read a (l / segLen seg * segLen seg + j))).getD n 0
      else reduxIdent op s.es.w (esFmt s.es h))) = (List.range (64 / s.es.w)).map (s.reduxAt g op a seg h fzo fzi l) := by
  refine List.map_congr_left fun n hn => ?_
  simp only [State.stood_supply hf ha hg _ (List.mem_range.mp hn)]
  refine reduxOf_eq_reduction op _ _ (es_pos _) fun hop x hx => ?_
  obtain ⟨j, -, rfl⟩ := List.mem_map.mp hx
  exact State.reduxElt_lt hop _ _

/-- The lane-wise effect of a reduction. -/
theorem State.syncLane_redux : s.syncLane (.redux g op d a m seg h fzo fzi) =
    { pass := s.passing g, dst := some d, tag := if segLen seg = 32 then .uniform else .general
      val := fun l => lanesOf s.es.w fun n => (s.reduxAt g op a seg h fzo fzi l n).1
      flags := fun l => flagsOf s.es.w fun n => (s.reduxAt g op a seg h fzo fzi l n).2 } := by
  have hpart := State.stood_part (i := .redux g op d a m seg h fzo fzi) hf ha
  have hres := State.stood_reduxOf (i := .redux g op d a m seg h fzo fzi) (op := op) (a := a) (seg := seg) (h := h) (fzo := fzo)
    (fzi := fzi) hf ha rfl
  simp only [State.syncLane, Skein.syncEff, State.syncWait_instr, State.syncWait_es, hres, List.map_map]
  rw [hpart]
  rfl

end Redux

theorem claim_reductionResults : Claim.ReductionResults := by
  intro g op d a m seg h fzo fzi s hi hf i w G x r
  have hsize : (op.isFloat = true → s.es ≠ .e8) → (!op.isFloat || s.es != .e8) = true := fun hes => by
    cases hop : op.isFloat with
    | false => rfl
    | true => simpa using hes hop
  refine ⟨fun hes hseg ha hc => ?_, fun hop hes => ?_, fun hes hseg => ?_⟩
  · have hok : illIf (decide (4 < seg.toNat)) .range = none := (illIf_eq_none _ _).mpr (decide_eq_false (Nat.not_lt.mpr hseg))
    obtain ⟨t, ht, hw⟩ := State.syncOp_wrote (i := i) (es := fun e => !op.isFloat || e != .e8) hi hf ha hc (hsize hes) hok
    rw [State.syncLane_redux hf ha] at hw
    exact ⟨t, ht, hw⟩
  · exact State.syncOp_badSize (i := i) m (es := fun e => !op.isFloat || e != .e8) (by simp [hop, hes])
  · have hrange := State.syncOp_outOfRange (i := i) (ds := [d]) m (es := fun e => !op.isFloat || e != .e8) (hsize hes)
    rwa [← decide_eq_true hseg] at hrange

end Sys2Proof.Machine

/-- Settles O18: with every member there a synchronising instruction completes as it issues, and its lanes hold what the rules name. -/
theorem crossLaneResults : Obligations.CrossLaneResults :=
  ⟨Sys2Proof.Machine.claim_moveAcrossLanes, Sys2Proof.Machine.claim_voteResults, Sys2Proof.Machine.claim_reductionResults⟩
end

section
/-!
SUPPORT. An access that may be performed and what it hands back to its skein (R96, R308).
-/

namespace Sys2Proof.Machine

section HandBack
variable {s : State} {a : Access} {k : Skein}

/-- ACCESS_PERFORM performs the access that is due. -/
theorem State.Due.exec_perform (h : s.Due a) (hb : a.beyond = none) : exec (.accessPerform a.id) s = .next (s.perform a) := by
  show execAccessPerform a.id s = _
  simp only [execAccessPerform, h.1, hb]

theorem State.sampleDone_unsampled (h : a.sample = none) (serve : Nat) : s.sampleDone a serve = s := by
  simp only [State.sampleDone, h]

theorem State.acquireBy_unordered (h : a.order = 0) : s.acquireBy a = s := by
  simp [State.acquireBy, h]

/-- A skein without waits has none to settle. -/
theorem State.settle_idle {u : Nat} (hk : s.sk? u = some k) (hw : k.waits = []) : s.settle u = s := by
  simp [State.settle, s.sk_eq hk, hw]

theorem State.finishAccess_returned (s : State) (a : Access) :
    s.finishAccess a none = { s with accesses := s.accesses.filter fun x => x.id != a.id } := by
  have hkeep : (s.accesses.flatMap fun x => if (x.id != a.id) = true then [x] else []) =
      s.accesses.filter fun x => x.id != a.id := by
    induction s.accesses with
    | nil => rfl
    | cons x xs ih =>
      rw [List.flatMap_cons, List.filter_cons, ih]
      split <;> rfl
  exact congrArg (fun l => { s with accesses := l }) hkeep

/-- A write performed waits for its completion time. -/
theorem State.finishAccess_waits (hone : ∀ y ∈ s.accesses, y.id = a.id → y = a) (w : Nat) :
    s.finishAccess a (some w) =
      { s with accesses := s.accesses.map fun y => if y.id = a.id then { a with done := true, wct := w } else y } := by
  have heach : ∀ y ∈ s.accesses, (if (y.id != a.id) = true then [y] else [{ y with done := true, wct := w }]) =
      [if y.id = a.id then { a with done := true, wct := w } else y] := fun y hy => by
    by_cases h : y.id = a.id
    · obtain rfl := hone y hy h
      simp
    · simp [h]
  have hmap := (List.flatMap_congr heach).trans List.map_eq_flatMap.symm
  exact congrArg (fun l => { s with accesses := l }) hmap

/-- What a request brings goes to the operation it belongs to. -/
theorem State.deliver_eq (hk : s.sk? a.sk = some k) (ws : List LaneWrite) (ps : List (Nat × Bool)) :
    s.deliver a ws ps = s.updSk a.sk fun k => k.handed a ws ps := by
  unfold State.deliver Skein.handed
  rw [hk]
  cases a.op with
  | none => simp [State.updSk]
  | some id => simp only [State.updSk, Option.some.injEq, beq_iff_eq, eq_comm (a := id)]

/-- A request handed back: its values to its skein, itself off the list, the skein's waits tried. -/
def State.handBack (s : State) (a : Access) (ws : List LaneWrite) (ps : List (Nat × Bool)) : State :=
  (((s.deliver a ws ps).finishAccess a none).sampleDone a 0).settle a.sk

theorem State.handBack_eq (hs : a.sample = none) (hk : s.sk? a.sk = some k) (hw : k.waits = []) (ws : List LaneWrite)
    (ps : List (Nat × Bool)) :
    s.handBack a ws ps = { s.updSk a.sk fun k => k.handed a ws ps with accesses := s.accesses.filter fun x => x.id != a.id } := by
  have hsk := s.sk?_updSk a.sk (fun k => k.handed a ws ps) (fun _ => rfl) a.sk
  rw [if_pos rfl, hk, Option.map_some] at hsk
  rw [State.handBack, State.deliver_eq hk, State.sampleDone_unsampled hs, State.finishAccess_returned]
  exact State.settle_idle hsk hw

theorem State.handBack_rest (hs : a.sample = none) (hk : s.sk? a.sk = some k) (hw : k.waits = []) (ws : List LaneWrite)
    (ps : List (Nat × Bool)) :
    s.handBack a ws ps = { s with skeins := (s.handBack a ws ps).skeins, accesses := (s.handBack a ws ps).accesses } := by
  rw [State.handBack_eq hs hk hw]
  rfl

theorem State.handBack_returned (hs : a.sample = none) (hk : s.sk? a.sk = some k) (hw : k.waits = []) (ws : List LaneWrite)
    (ps : List (Nat × Bool)) : s.Returned (s.handBack a ws ps) a k ws ps := by
  have hsk (u : Nat) := s.sk?_updSk a.sk (fun k => k.handed a ws ps) (fun _ => rfl) u
  rw [State.handBack_eq hs hk hw]
  refine ⟨rfl, (hsk a.sk).trans ?_, fun u hu => (hsk u).trans (if_neg hu)⟩
  rw [if_pos rfl, hk, Option.map_some]

theorem State.handBack_seeps (hs : a.sample = none) (hk : s.sk? a.sk = some k) (hw : k.waits = []) (ws : List LaneWrite)
    (ps : List (Nat × Bool)) : (s.handBack a ws ps).seeps = s.seeps := by
  rw [State.handBack_eq hs hk hw]
  rfl

end HandBack

end Sys2Proof.Machine
end

section
/-!
SUPPORT. The tiles of a seep (R83, R86), the seep operations that bring values back, the sweep and the end of a renew (R87 to R89).
-/

namespace Sys2Proof.Machine

/-! ### A tile changed -/

@[simp] theorem SeepInst.tile_idx (j : SeepInst) (n : Nat) : (j.tile n).idx = n := by
  unfold SeepInst.tile
  cases h : j.states.find? fun t => t.idx == n with
  | none => rfl
  | some t => simpa using List.find?_some h

/-- A seep with one tile changed. -/
def SeepInst.updTile (j : SeepInst) (n : Nat) (f : Tile → Tile) : SeepInst :=
  { j with states := f (j.tile n) :: j.states.filter fun t => t.idx != n }

theorem SeepInst.tile_updTile (j : SeepInst) (n : Nat) {f : Tile → Tile} (hf : ∀ t, (f t).idx = t.idx) (m : Nat) :
    (j.updTile n f).tile m = if m = n then f (j.tile n) else j.tile m := by
  have hidx : (f (j.tile n)).idx = n := by rw [hf, j.tile_idx]
  show ((f (j.tile n) :: j.states.filter fun t => t.idx != n).find? fun t => t.idx == m).getD _ = _
  by_cases hm : m = n
  · rw [if_pos hm, List.find?_cons_of_pos (by simp [hidx, hm])]
    rfl
  · have hkeep : (j.states.filter fun t => t.idx != n).find? (fun t => t.idx == m) = j.states.find? fun t => t.idx == m := by
      rw [List.find?_filter]
      congr 1
      funext t
      by_cases ht : t.idx = m <;> simp [ht, hm]
    rw [if_neg hm, List.find?_cons_of_neg (by simpa [hidx] using Ne.symm hm), hkeep]
    rfl

section UpdTile
variable {s : State} {i : Nat} {f : Tile → Tile}

theorem State.updTile_there (h : ∃ j ∈ s.seeps, j.uid = i) (n : Nat) (f : Tile → Tile) :
    ∃ j ∈ (s.updTile i n f).seeps, j.uid = i := by
  obtain ⟨j, hj, hu⟩ := h
  exact ⟨j.updTile n f, List.mem_map.mpr ⟨j, hj, if_pos (by simpa using hu)⟩, hu⟩

theorem State.seepInst_updTile (h : ∃ j ∈ s.seeps, j.uid = i) (n : Nat) (f : Tile → Tile) :
    (s.updTile i n f).seepInst i = (s.seepInst i).updTile n f := by
  have hfind := find?_updKeyed SeepInst.uid (fun j => j.updTile n f) (fun _ => rfl) s.seeps i i
  obtain ⟨j, hj⟩ := Option.isSome_iff_exists.mp ((List.find?_isSome (p := fun j : SeepInst => j.uid == i)).mpr (by simpa using h))
  rw [if_pos rfl, hj, Option.map_some] at hfind
  show (((s.updTile i n f).seeps.find? fun j => j.uid == i).getD _) = ((s.seeps.find? fun j => j.uid == i).getD _).updTile n f
  rw [hj]
  exact congrArg (Option.getD · _) hfind

/-- A change of one tile is a change of that tile alone. -/
theorem State.tile_updTile (h : ∃ j ∈ s.seeps, j.uid = i) (hf : ∀ t, (f t).idx = t.idx) (n m : Nat) :
    ((s.updTile i n f).seepInst i).tile m = if m = n then f ((s.seepInst i).tile n) else (s.seepInst i).tile m := by
  rw [State.seepInst_updTile h, SeepInst.tile_updTile _ _ hf]

theorem State.tile_updTile_same (h : ∃ j ∈ s.seeps, j.uid = i) (hf : ∀ t, (f t).idx = t.idx) (n : Nat) :
    ((s.updTile i n f).seepInst i).tile n = f ((s.seepInst i).tile n) := by
  rw [State.tile_updTile h hf, if_pos rfl]

theorem State.tile_updTile_other (h : ∃ j ∈ s.seeps, j.uid = i) (hf : ∀ t, (f t).idx = t.idx) {n m : Nat} (hm : m ≠ n) :
    ((s.updTile i n f).seepInst i).tile m = (s.seepInst i).tile m := by
  rw [State.tile_updTile h hf, if_neg hm]

end UpdTile

theorem State.seepInst_congr {s t : State} (h : t.seeps = s.seeps) (i : Nat) : t.seepInst i = s.seepInst i := by
  simp only [State.seepInst, h]

/-! ### Live and expired -/

theorem Tile.liveAt_iff (t : Tile) (T : Nat) :
    t.liveAt T = true ↔ t.state = .live ∧ (BitVec.ofNat 32 T - t.birth).toNat < Config.seepLife := by
  simp [Tile.liveAt, Tile.age]

theorem Tile.expired_iff (t : Tile) (T : Nat) :
    t.expired T = true ↔ t.state = .live ∧ Config.seepLife ≤ (BitVec.ofNat 32 T - t.birth).toNat := by
  simp [Tile.expired, Tile.age]

/-! ### Sweep and the end of a renew -/

section Steps
variable {s : State} {i n : Nat}

/-- A sweep visit finds the tile expired. -/
theorem exec_seepSweepVisit_expired (h : ((s.seepInst i).tile n).expired (s.nowAt (s.seepInst i).cluster) = true) :
    exec (.seepSweepVisit i n) s = .next (s.updTile i n fun t => { t with state := .expired, valid := 0 }) :=
  congrArg Host.Outcome.next (if_pos h)

theorem exec_seepSweepVisit_other (h : ¬ ((s.seepInst i).tile n).expired (s.nowAt (s.seepInst i).cluster) = true) :
    exec (.seepSweepVisit i n) s = .next s :=
  congrArg Host.Outcome.next (if_neg h)

theorem State.tileQueue_idle (ha : s.accesses = []) (ho : ∀ o ∈ s.ops, o.atTiles = []) (T : Nat) : s.tileQueue i n T = [] := by
  have hpumps : (s.ops.flatMap fun o => (o.atTiles.filter fun x => x.1 == i && x.2.1 == n).map fun x =>
      (x.2.2, (Sum.inr o.uid : Sum Nat Nat))) = [] := List.flatMap_eq_nil_iff.mpr fun o h => by rw [ho o h]; rfl
  simp only [State.tileQueue, ha, hpumps]
  rfl

theorem exec_renewEnd_held {e : Nat} (hb : ((s.seepInst i).tile n).busy = some e) (h : s.nowAt (s.seepInst i).cluster < e) :
    exec (.renewEnd i n) s = .next s := by
  show execRenewEnd i n s = _
  simp only [execRenewEnd, hb, State.seepCluster]
  exact if_pos h

/-- A renew that ends where nothing waits for the tile frees the tile. -/
theorem exec_renewEnd_ended {e : Nat} (hb : ((s.seepInst i).tile n).busy = some e) (h : e ≤ s.nowAt (s.seepInst i).cluster)
    (ha : s.accesses = []) (ho : ∀ o ∈ s.ops, o.atTiles = []) :
    exec (.renewEnd i n) s = .next (s.updTile i n fun t => { t with busy := none }) := by
  have hq : (s.updTile i n fun t => { t with busy := none }).tileQueue i n e = [] := State.tileQueue_idle (s := s.updTile i n _) ha ho e
  show execRenewEnd i n s = _
  simp only [execRenewEnd, hb, State.seepCluster, hq]
  exact if_neg (Nat.not_lt.mpr h)

end Steps

theorem claim_seepSteps : Claim.SeepSteps := by
  intro i n s hi tile now age
  refine ⟨fun hl ha => ?_, fun h => ?_, fun e hb h => exec_renewEnd_held hb h, fun e hb h ha ho => ?_⟩
  · exact ⟨_, exec_seepSweepVisit_expired ((tile.expired_iff now).mpr ⟨hl, ha⟩), rfl, State.tile_updTile_same hi (fun _ => by rfl) n,
      fun m hm => State.tile_updTile_other hi (fun _ => by rfl) hm⟩
  · refine exec_seepSweepVisit_other fun hx => ?_
    obtain ⟨hl, ha⟩ := (tile.expired_iff now).mp hx
    exact h.elim (fun h => h hl) (Nat.not_lt.mpr ha)
  · exact ⟨_, exec_renewEnd_ended hb h ha ho, rfl, State.tile_updTile_same hi (fun _ => by rfl) n,
      fun m hm => State.tile_updTile_other hi (fun _ => by rfl) hm⟩

/-! ### Loads, lives and renewals -/

section Performs
variable {s : State} {a : Access} {i T : Nat}

/-- The tile a seep access reaches. -/
def Access.tileNo (a : Access) : Nat := ((a.lanes.head?).getD ⟨0, 0, 0, 0, 0, 0⟩).addr / 4096

/-- A tile born anew and held until a tick. -/
def Tile.renewed (T e : Nat) (t : Tile) : Tile := { t with birth := BitVec.ofNat 32 T, busy := some e }

/-- One value to each lane of an access, unpoisoned. -/
def Access.all (a : Access) (v : Lane) : List LaneWrite := a.lanes.map fun x => ⟨x.reg, x.lane, v, false⟩

/-- One predicate to each lane of an access. -/
def Access.pushed (a : Access) (b : Bool) : List (Nat × Bool) := a.lanes.map fun x => (x.lane, b)

theorem State.Due.exec_seep (h : s.Due a) (hp : a.place = .seep i) :
    exec (.accessPerform a.id) s = .next (s.performSeep a i (s.nowAt (s.seepInst i).cluster)) := by
  have hb : a.beyond = none := by simp only [Access.beyond, hp]
  rw [h.exec_perform hb, State.perform, hp]
  rfl

theorem State.performSeep_load {sx : Bool} (h : a.kind = .seepLoad sx) (ho : a.order = 0) :
    s.performSeep a i T = s.handBack a
      (a.lanes.map fun x => ⟨x.reg, x.lane, loadVal sx (s.tileBytes i ((s.seepInst i).tile a.tileNo) T x.addr a.width),
        s.tilePoison i ((s.seepInst i).tile a.tileNo) T x.addr a.width⟩)
      (a.pushed !((s.seepInst i).tile a.tileNo).liveAt T) := by
  simp only [State.performSeep, h, State.acquireBy_unordered ho]
  rfl

theorem State.performSeep_life (h : a.kind = .life) :
    s.performSeep a i T = s.handBack a (a.all (if ((s.seepInst i).tile a.tileNo).liveAt T then
      u64 (Config.seepLife - ((s.seepInst i).tile a.tileNo).age T) else 0)) [] := by
  simp only [State.performSeep, h]
  rfl

theorem State.performSeep_renew_dead (h : a.kind = .renew) (hl : ((s.seepInst i).tile a.tileNo).liveAt T = false) :
    s.performSeep a i T = s.handBack a (a.all 0) (a.pushed false) := by
  unfold Access.tileNo at hl
  simp only [State.performSeep, h, hl]
  rfl

theorem State.performSeep_renew_live (h : a.kind = .renew) (hl : ((s.seepInst i).tile a.tileNo).liveAt T = true) :
    s.performSeep a i T = (s.updTile i a.tileNo (Tile.renewed T (T + s.cycleTicks (s.seepInst i).cluster 64))).handBack a
      (a.all (u64 Config.seepLife)) (a.pushed true) := by
  unfold Access.tileNo at hl
  simp only [State.performSeep, h, hl]
  rfl

end Performs

theorem loadVal_eq_extended (sx : Bool) (bs : List Byte) : loadVal sx bs = extended sx bs := rfl

/-- A sector whose bytes a load returns: valid, in a tile that is live. -/
theorem Tile.liveAt_and_valid (t : Tile) (T c : Nat) : (t.liveAt T && t.valid.getLsbD c) =
    decide ((t.state = .live ∧ (BitVec.ofNat 32 T - t.birth).toNat < Config.seepLife) ∧ t.valid.getLsbD c = true) := by
  rw [Bool.eq_iff_iff, Bool.and_eq_true, t.liveAt_iff, decide_eq_true_iff]

theorem claim_seepPerforms : Claim.SeepPerforms := by
  intro a i x0 xs k s hdue hp ho hlanes hk hw n tile T age live vals byte bad dead
  have hn : a.tileNo = n := by rw [Access.tileNo, hlanes]; rfl
  have hexec := hdue.exec_seep hp
  have hlive : tile.liveAt T = true ↔ live := tile.liveAt_iff T
  have hrest {u : State} (hu : u.sk? a.sk = some k) := State.handBack_rest hdue.2 hu hw
  have hret {u : State} (hu : u.sk? a.sk = some k) := State.handBack_returned hdue.2 hu hw
  refine ⟨fun sx hkind => ?_, fun hkind => ?_, fun hkind hd => ?_, fun hkind hl hi => ?_⟩
  · have hbytes (x : LaneAcc) : s.tileBytes i tile T x.addr a.width = (List.range a.width).map fun j => byte (x.addr + j) := by
      simp only [State.tileBytes, Tile.liveAt_and_valid, decide_eq_true_eq]
      rfl
    have hbad (x : LaneAcc) : s.tilePoison i tile T x.addr a.width = bad x := by
      simp only [State.tilePoison, Tile.liveAt_and_valid]
      rfl
    have hdead : (!tile.liveAt T) = true ↔ dead := by rw [Bool.not_eq_true']; rfl
    rw [hexec, State.performSeep_load hkind ho, hn]
    refine ⟨_, _, rfl, hrest hk _ _, hdead, ?_⟩
    simp only [← hbytes, ← hbad, ← loadVal_eq_extended]
    exact hret hk _ _
  · rw [hexec, State.performSeep_life hkind, hn]
    refine ⟨_, rfl, hrest hk _ _, fun hl => ?_, fun hd => ?_⟩
    · rw [if_pos (hlive.mpr hl)]
      exact hret hk _ _
    · rw [if_neg (mt hlive.mp hd)]
      exact hret hk _ _
  · have hdead : tile.liveAt T = false := by simpa using mt hlive.mp hd
    rw [hexec, State.performSeep_renew_dead hkind (by rw [hn]; exact hdead)]
    exact ⟨_, rfl, hrest hk _ _, hret hk _ _⟩
  · rw [hexec, State.performSeep_renew_live hkind (by rw [hn]; exact hlive.mpr hl), hn]
    generalize he : T + s.cycleTicks (s.seepInst i).cluster 64 = e
    have hk' : (s.updTile i n (Tile.renewed T e)).sk? a.sk = some k := hk
    have hseeps := State.handBack_seeps hdue.2 hk' hw (a.all (u64 Config.seepLife)) (a.pushed true)
    refine ⟨_, rfl, (hrest hk' _ _).trans (by rw [hseeps]; rfl), ?_, fun m hm => ?_, hret hk' _ _⟩
    · rw [State.seepInst_congr hseeps]
      exact State.tile_updTile_same hi (fun _ => by rfl) n
    · rw [State.seepInst_congr hseeps]
      exact State.tile_updTile_other hi (fun _ => by rfl) hm

end Sys2Proof.Machine
end

section
/-!
SUPPORT. Bytes cleared and bytes written, read back one by one, in memory and in the places above the wells.
-/

namespace Sys2Proof.Machine

/-- A byte of a cleared range reads as unlisted, every other byte as before. -/
theorem Memory.read_clear (m : Memory) (a n b : Nat) : (m.clear a n).read b = if a ≤ b ∧ b < a + n then unlisted else m.read b := by
  induction m with
  | nil => exact (ite_self unlisted).symm
  | cons c m ih =>
    simp only [Memory.clear] at ih
    rw [Memory.clear, List.filter_cons, Memory.read]
    by_cases hin : a ≤ c.1 ∧ c.1 < a + n
    · rw [if_neg (by simp [hin]), ih]
      by_cases hc : c.1 = b
      · rw [if_pos (hc ▸ hin), if_pos (hc ▸ hin)]
      · rw [if_neg hc]
    · rw [if_pos (by rwa [← Bool.decide_and, Bool.not_eq_true', decide_eq_false_iff_not]), Memory.read, ih]
      by_cases hc : c.1 = b
      · rw [if_pos hc, if_pos hc, if_neg (hc ▸ hin)]
      · rw [if_neg hc, if_neg hc]

theorem toBytes_getElem? {n j : Nat} (h : j < n) (v : Nat) : (toBytes n v)[j]? = some (BitVec.ofNat 8 (v / 256 ^ j)) := by
  induction n generalizing j v with
  | zero => omega
  | succ n ih =>
    cases j with
    | zero => simp [toBytes]
    | succ j => rw [toBytes, List.getElem?_cons_succ, ih (by omega), Nat.div_div_eq_div_mul, Nat.pow_succ']

/-- The bytes of a number written, and every byte beside them. -/
theorem Memory.read_writeN_toBytes {m : Memory} (hm : m.wf = true) (a n v b : Nat) :
    (m.writeN a (toBytes n v)).read b = if a ≤ b ∧ b < a + n then BitVec.ofNat 8 (v / 256 ^ (b - a)) else m.read b := by
  have hlen := toBytes_length n v
  by_cases hin : a ≤ b ∧ b < a + n
  · have hback := congrArg (fun l => l[b - a]?) (Memory.readN_writeN hm a (toBytes n v))
    have hlt : b - a < n := by omega
    simp only [hlen, Memory.readN, List.getElem?_map, List.getElem?_range hlt, toBytes_getElem? hlt, Option.map_some,
      Option.some.injEq, Nat.add_sub_cancel' hin.1] at hback
    rw [if_pos hin, hback]
  · rw [if_neg hin, Memory.read_writeN_out hm _ (by omega)]

/-- A line above the wells has no key. -/
theorem State.takeLine_above (s : State) (part : Nat) {line : Nat} (h : wellTop ≤ line * 128) : s.takeLine part line = s := by
  have hwell : isWell (line * 128) = false := decide_eq_false (Nat.not_lt.mpr h)
  simp [State.takeLine, hwell]

/-- A store above the wells changes its bytes and their poison. -/
theorem State.store_above (s : State) (part : Nat) {key : Nat} (bs : List Byte) (h : wellTop + 128 ≤ key) :
    ∃ p, s.store part key bs = { s with mem := s.mem.writeN key bs, poisoned := p } := by
  have htake : ∀ l : List Nat, l.foldl (fun s i => s.takeLine part (key / 128 + i)) s = s := fun l =>
    foldl_keeps (P := fun t => t = s) _ (fun t i ht => (t.takeLine_above part (by omega)).trans ht) l s rfl
  simp only [State.store, htake]
  exact ⟨_, rfl⟩

end Sys2Proof.Machine
end

section
/-!
SUPPORT. A seep store on its tile (R86, R88, R246): a birth and one lane's bytes, each said by what its tile then holds, and all that is
not of the tile as it was.
-/

namespace Sys2Proof.Machine

theorem seepKey_above (i o : Nat) : wellTop + 128 ≤ seepKey i o := by
  have : wellTop + 128 ≤ 2 ^ 54 := by decide
  unfold seepKey
  omega

/-- A byte at no offset of a tile lies before it or behind it. -/
theorem seepKey_outside {i n b : Nat} (hb : ∀ o, o / 4096 = n → b ≠ seepKey i o) :
    b < seepKey i (4096 * n) ∨ seepKey i (4096 * n) + 4096 ≤ b := by
  by_contra hin
  refine hb (b - seepKey i 0) ?_ ?_ <;> simp only [seepKey] at hin ⊢ <;> omega

/-- An offset is among those of a write where its key is among theirs. -/
theorem seepKey_mem_range (i off w o : Nat) : seepKey i off ≤ seepKey i o ∧ seepKey i o < seepKey i off + w ↔ off ≤ o ∧ o < off + w := by
  simp only [seepKey]
  omega

theorem seepKey_sub (i off o : Nat) : seepKey i o - seepKey i off = o - off := by
  simp only [seepKey]
  omega

/-! ### What a tile holds, and what lies outside it -/

/-- What a tile that is live holds at an offset of its seep (R88): zero in a sector that is not valid. -/
def State.seepByte (s : State) (i o : Nat) : Byte :=
  if ((s.seepInst i).tile (o / 4096)).valid.getLsbD (o % 4096 / 256) then s.mem.read (seepKey i o) else 0

/-- From one state to another one tile has changed, in its entry and its bytes, and memory keeps its form. -/
structure State.OnTile (s t : State) (i n : Nat) : Prop where
  form : t.MemOk
  there : ∃ j ∈ t.seeps, j.uid = i
  rest : t = { s with mem := t.mem, poisoned := t.poisoned, seeps := t.seeps }
  others : ∀ m, m ≠ n → (t.seepInst i).tile m = (s.seepInst i).tile m
  bytes : ∀ b, (∀ o, o / 4096 = n → b ≠ seepKey i o) → t.mem.read b = s.mem.read b

theorem State.OnTile.refl {s : State} {i : Nat} (hm : s.MemOk) (hi : ∃ j ∈ s.seeps, j.uid = i) (n : Nat) : s.OnTile s i n :=
  ⟨hm, hi, rfl, fun _ _ => rfl, fun _ _ => rfl⟩

theorem State.OnTile.trans {s t u : State} {i n : Nat} (h : s.OnTile t i n) (h' : t.OnTile u i n) : s.OnTile u i n where
  form := h'.form
  there := h'.there
  rest := by rw [h'.rest, h.rest]
  others m hm := (h'.others m hm).trans (h.others m hm)
  bytes b hb := (h'.bytes b hb).trans (h.bytes b hb)

/-- Bytes of a tile changed, then its entry. -/
theorem State.OnTile.of_updTile {s u : State} {i n : Nat} {f : Tile → Tile} (hi : ∃ j ∈ s.seeps, j.uid = i)
    (hf : ∀ t, (f t).idx = t.idx) (hform : u.MemOk) (hrest : u = { s with mem := u.mem, poisoned := u.poisoned })
    (hbytes : ∀ b, (∀ o, o / 4096 = n → b ≠ seepKey i o) → u.mem.read b = s.mem.read b) : s.OnTile (u.updTile i n f) i n := by
  have hseeps : u.seeps = s.seeps := by rw [hrest]
  have hi' : ∃ j ∈ u.seeps, j.uid = i := by rwa [hseeps]
  refine ⟨hform, State.updTile_there hi' n f, ?_, fun m hm => ?_, hbytes⟩
  · rw [hrest]
    rfl
  · rw [State.tile_updTile_other hi' hf hm, State.seepInst_congr hseeps]

section Tile
variable {s : State} {i : Nat} (hm : s.MemOk) (hi : ∃ j ∈ s.seeps, j.uid = i)

/-! ### A birth -/

include hi in
theorem State.tile_birth (n T : Nat) : ((s.birth i n T).seepInst i).tile n =
    { (s.seepInst i).tile n with state := .live, birth := BitVec.ofNat 32 T, valid := 0 } :=
  State.tile_updTile_same (s := s.zero (seepKey i (4096 * n)) 4096) hi (fun _ => by rfl) n

include hm hi in
theorem State.birth_onTile (n T : Nat) : s.OnTile (s.birth i n T) i n := by
  refine State.OnTile.of_updTile hi (fun _ => by rfl) (Memory.clear_wf _ _ hm) rfl fun b hb => ?_
  have hout := seepKey_outside hb
  exact (s.mem.read_clear _ _ b).trans (if_neg (by omega))

include hi in
theorem State.seepByte_birth {o n : Nat} (ho : o / 4096 = n) (T : Nat) : (s.birth i n T).seepByte i o = 0 := by
  rw [State.seepByte, ho, State.tile_birth hi]
  simp

/-! ### The sectors of one write -/

/-- The sectors zeroed before a write first fills them. -/
def State.zeroSectors (s : State) (i n : Nat) (cs : List Nat) : State :=
  cs.foldl (fun s c => s.zero (seepKey i (4096 * n + 256 * c)) 256) s

theorem State.zeroSectors_rest (s : State) (i n : Nat) (cs : List Nat) :
    s.zeroSectors i n cs = { s with mem := (s.zeroSectors i n cs).mem, poisoned := (s.zeroSectors i n cs).poisoned } := by
  induction cs generalizing s with
  | nil => rfl
  | cons c cs ih => exact ih (s.zero (seepKey i (4096 * n + 256 * c)) 256)

include hm in
theorem State.zeroSectors_form (i n : Nat) (cs : List Nat) : (s.zeroSectors i n cs).MemOk := by
  induction cs generalizing s with
  | nil => exact hm
  | cons c cs ih => exact ih (s := s.zero (seepKey i (4096 * n + 256 * c)) 256) (Memory.clear_wf _ _ hm)

theorem State.read_zeroSectors (s : State) (i n : Nat) (cs : List Nat) (b : Nat) : (s.zeroSectors i n cs).mem.read b =
    if ∃ c ∈ cs, seepKey i (4096 * n + 256 * c) ≤ b ∧ b < seepKey i (4096 * n + 256 * c) + 256 then 0 else s.mem.read b := by
  induction cs generalizing s with
  | nil => simp [State.zeroSectors]
  | cons c cs ih =>
    refine (ih (s.zero (seepKey i (4096 * n + 256 * c)) 256)).trans ?_
    simp only [List.exists_mem_cons_iff]
    by_cases hcs : ∃ c ∈ cs, seepKey i (4096 * n + 256 * c) ≤ b ∧ b < seepKey i (4096 * n + 256 * c) + 256
    · rw [if_pos hcs, if_pos (Or.inr hcs)]
    · rw [if_neg hcs]
      simp only [hcs, or_false]
      exact s.mem.read_clear _ _ b

/-- In the tile a byte is zeroed with its sector. -/
theorem State.read_zeroSectors_tile (s : State) {i n o : Nat} (ho : o / 4096 = n) (cs : List Nat) (hcs : ∀ c ∈ cs, c < 16) :
    (s.zeroSectors i n cs).mem.read (seepKey i o) = if o % 4096 / 256 ∈ cs then 0 else s.mem.read (seepKey i o) := by
  have hsector : (∃ c ∈ cs, seepKey i (4096 * n + 256 * c) ≤ seepKey i o ∧ seepKey i o < seepKey i (4096 * n + 256 * c) + 256) ↔
      o % 4096 / 256 ∈ cs := by
    simp only [seepKey]
    constructor
    · rintro ⟨c, hc, h⟩
      have := hcs c hc
      rwa [show o % 4096 / 256 = c by omega]
    · exact fun h => ⟨_, h, by omega⟩
  rw [State.read_zeroSectors, if_congr hsector rfl rfl]

/-- Outside the tile every byte stands. -/
theorem State.read_zeroSectors_out (s : State) {i n b : Nat} (hb : ∀ o, o / 4096 = n → b ≠ seepKey i o) (cs : List Nat)
    (hcs : ∀ c ∈ cs, c < 16) : (s.zeroSectors i n cs).mem.read b = s.mem.read b := by
  refine (s.read_zeroSectors i n cs b).trans (if_neg ?_)
  rintro ⟨c, hc, h⟩
  have hlt := hcs c hc
  have hout := seepKey_outside hb
  simp only [seepKey] at h hout
  omega

/-- The valid bits with that of a sector, if it lies in a range. -/
def withSector (lo hi : Nat) (v : BitVec 16) (c : Nat) : BitVec 16 := if lo ≤ c ∧ c ≤ hi then v ||| ((1 : BitVec 16) <<< c) else v

theorem withSector_getLsbD {c : Nat} (hc : c < 16) (lo hi : Nat) (v : BitVec 16) (d : Nat) :
    (withSector lo hi v d).getLsbD c = true ↔ v.getLsbD c = true ∨ (c = d ∧ lo ≤ c ∧ c ≤ hi) := by
  have hone : ((1 : BitVec 16) <<< d).getLsbD c = (decide (d < 16) && decide (d = c)) := BitVec.getLsbD_twoPow d c
  unfold withSector
  by_cases hd : c = d
  · subst hd
    split
    next hin => simp [hc, hin]
    next hin => simp [hin]
  · split
    next => simp only [BitVec.getLsbD_or, hone, hd, Ne.symm hd, decide_false, Bool.and_false, Bool.or_false, false_and, or_false]
    next => simp only [hd, false_and, or_false]

/-- The valid bits with those of a range of sectors. -/
def withSectors (lo hi : Nat) (v : BitVec 16) : BitVec 16 := (List.range 16).foldl (withSector lo hi) v

theorem foldl_withSector_getLsbD {c : Nat} (hc : c < 16) (lo hi : Nat) (l : List Nat) (v : BitVec 16) :
    (l.foldl (withSector lo hi) v).getLsbD c = true ↔ v.getLsbD c = true ∨ (c ∈ l ∧ lo ≤ c ∧ c ≤ hi) := by
  induction l generalizing v with
  | nil => simp
  | cons d l ih => rw [List.foldl_cons, ih, withSector_getLsbD hc, List.mem_cons, or_assoc, ← or_and_right]

theorem withSectors_getLsbD {c : Nat} (hc : c < 16) (lo hi : Nat) (v : BitVec 16) :
    (withSectors lo hi v).getLsbD c = true ↔ v.getLsbD c = true ∨ (lo ≤ c ∧ c ≤ hi) := by
  rw [withSectors, foldl_withSector_getLsbD hc, List.mem_range, and_iff_right hc]

/-! ### One lane's bytes -/

section Write
variable {off w : Nat} (d : Nat) (hin : off % 4096 + w ≤ 4096) (hw : 1 ≤ w)

/-- The sectors that a write of some bytes fills first. -/
def State.freshSectors (s : State) (i off w : Nat) : List Nat :=
  (List.range 16).filter fun c => decide (off % 4096 / 256 ≤ c) && decide (c ≤ (off % 4096 + w - 1) / 256) &&
    !((s.seepInst i).tile (off / 4096)).valid.getLsbD c

theorem State.mem_freshSectors (s : State) (i off w c : Nat) : c ∈ s.freshSectors i off w ↔
    c < 16 ∧ (off % 4096 / 256 ≤ c ∧ c ≤ (off % 4096 + w - 1) / 256) ∧ ¬((s.seepInst i).tile (off / 4096)).valid.getLsbD c = true := by
  simp [State.freshSectors]

/-- A write before it marks its sectors valid. -/
def State.seepFilled (s : State) (i off w d : Nat) : State :=
  (s.zeroSectors i (off / 4096) (s.freshSectors i off w)).store 0 (seepKey i off) (toBytes w d)

/-- An entry whose valid sectors are joined by those of a write. -/
def Tile.filled (off w : Nat) (t : Tile) : Tile :=
  { t with valid := withSectors (off % 4096 / 256) ((off % 4096 + w - 1) / 256) t.valid }

theorem Tile.filled_valid (t : Tile) (off w : Nat) {c : Nat} (hc : c < 16) : (t.filled off w).valid.getLsbD c = true ↔
    t.valid.getLsbD c = true ∨ off % 4096 / 256 ≤ c ∧ c ≤ (off % 4096 + w - 1) / 256 := withSectors_getLsbD hc _ _ _

theorem State.tileWrite_eq (s : State) (i off w d : Nat) :
    s.tileWrite i off (toBytes w d) = (s.seepFilled i off w d).updTile i (off / 4096) (Tile.filled off w) := by
  have hlen := toBytes_length w d
  simp only [State.tileWrite, hlen]
  rfl

theorem State.seepFilled_eq (s : State) (i off w d : Nat) : ∃ p, s.seepFilled i off w d =
    { s with mem := (s.zeroSectors i (off / 4096) (s.freshSectors i off w)).mem.writeN (seepKey i off) (toBytes w d), poisoned := p } := by
  obtain ⟨p, hp⟩ := (s.zeroSectors i (off / 4096) (s.freshSectors i off w)).store_above 0 (toBytes w d) (seepKey_above i off)
  refine ⟨p, hp.trans ?_⟩
  rw [State.zeroSectors_rest]

theorem State.seepFilled_seeps (s : State) (i off w d : Nat) : (s.seepFilled i off w d).seeps = s.seeps := by
  obtain ⟨p, hp⟩ := s.seepFilled_eq i off w d
  rw [hp]

include hm in
theorem State.read_seepFilled (i off w b : Nat) : (s.seepFilled i off w d).mem.read b =
    if seepKey i off ≤ b ∧ b < seepKey i off + w then BitVec.ofNat 8 (d / 256 ^ (b - seepKey i off))
    else (s.zeroSectors i (off / 4096) (s.freshSectors i off w)).mem.read b := by
  obtain ⟨p, hp⟩ := s.seepFilled_eq i off w d
  rw [hp]
  exact Memory.read_writeN_toBytes (State.zeroSectors_form hm _ _ _) _ _ _ _

include hi in
/-- What the entry of the tile is after a write. -/
theorem State.tile_tileWrite (off w d : Nat) : ((s.tileWrite i off (toBytes w d)).seepInst i).tile (off / 4096) =
    ((s.seepInst i).tile (off / 4096)).filled off w := by
  have hseeps := s.seepFilled_seeps i off w d
  rw [State.tileWrite_eq, State.tile_updTile_same (by rwa [hseeps]) (fun _ => by rfl), State.seepInst_congr hseeps]

include hm hi hin in
theorem State.tileWrite_onTile : s.OnTile (s.tileWrite i off (toBytes w d)) i (off / 4096) := by
  obtain ⟨p, hp⟩ := s.seepFilled_eq i off w d
  rw [State.tileWrite_eq]
  refine State.OnTile.of_updTile hi (fun _ => by rfl) ?_ ?_ fun b hb => ?_
  · rw [hp]
    exact Memory.writeN_wf _ _ (State.zeroSectors_form hm _ _ _)
  · rw [hp]
  · rw [State.read_seepFilled hm d, if_neg, State.read_zeroSectors_out s hb _ fun c hc => ((s.mem_freshSectors i off w c).mp hc).1]
    have hout := seepKey_outside hb
    simp only [seepKey] at hout ⊢
    omega

include hm hi hw in
/-- After a write the tile holds the bytes written, and elsewhere what it held. -/
theorem State.seepByte_tileWrite {o : Nat} (ho : o / 4096 = off / 4096) : (s.tileWrite i off (toBytes w d)).seepByte i o =
    if off ≤ o ∧ o < off + w then BitVec.ofNat 8 (d / 256 ^ (o - off)) else s.seepByte i o := by
  have hc : o % 4096 / 256 < 16 := by omega
  have hread := State.read_seepFilled hm d i off w (seepKey i o)
  rw [s.read_zeroSectors_tile ho _ fun c hc => ((s.mem_freshSectors i off w c).mp hc).1,
    if_congr (seepKey_mem_range i off w o) rfl rfl, seepKey_sub,
    if_congr (s.mem_freshSectors i off w _) rfl rfl] at hread
  have hmem : (s.tileWrite i off (toBytes w d)).mem = (s.seepFilled i off w d).mem := by rw [State.tileWrite_eq]; rfl
  rw [State.seepByte, ho, State.tile_tileWrite hi, hmem, hread, if_congr (Tile.filled_valid _ off w hc) rfl rfl, State.seepByte, ho]
  by_cases hcov : off ≤ o ∧ o < off + w
  · have hsec : off % 4096 / 256 ≤ o % 4096 / 256 ∧ o % 4096 / 256 ≤ (off % 4096 + w - 1) / 256 := by omega
    rw [if_pos (Or.inr hsec), if_pos hcov, if_pos hcov]
  · rw [if_neg hcov, if_neg hcov]
    by_cases hv : ((s.seepInst i).tile (off / 4096)).valid.getLsbD (o % 4096 / 256) = true
    · rw [if_pos (Or.inl hv), if_neg fun h => h.2.2 hv, if_pos hv]
    · rw [if_neg hv]
      by_cases hsec : off % 4096 / 256 ≤ o % 4096 / 256 ∧ o % 4096 / 256 ≤ (off % 4096 + w - 1) / 256
      · rw [if_pos (Or.inr hsec), if_pos ⟨hc, hsec, hv⟩]
      · rw [if_neg fun h => h.elim hv hsec]

end Write

/-! ### The lanes of a store -/

section Lanes
variable {a : Access} {n : Nat} {xs : List LaneAcc}

/-- One lane of a seep store. -/
def State.seepLane (a : Access) (i : Nat) (s : State) (x : LaneAcc) : State := s.tileWrite i x.addr (storeBytes a x)

/-- The entry of a tile after the lanes of a store. -/
def Tile.filledBy (a : Access) (xs : List LaneAcc) (t : Tile) : Tile := xs.foldl (fun t x => t.filled x.addr a.width) t

theorem Tile.filledBy_rest (a : Access) (xs : List LaneAcc) (t : Tile) : t.filledBy a xs = { t with valid := (t.filledBy a xs).valid } := by
  induction xs generalizing t with
  | nil => rfl
  | cons x xs ih => exact ih (t.filled x.addr a.width)

theorem Tile.filledBy_valid (a : Access) (xs : List LaneAcc) (t : Tile) {c : Nat} (hc : c < 16) :
    (t.filledBy a xs).valid.getLsbD c = true ↔ t.valid.getLsbD c = true ∨
      ∃ x ∈ xs, x.addr % 4096 / 256 ≤ c ∧ c ≤ (x.addr % 4096 + a.width - 1) / 256 := by
  induction xs generalizing t with
  | nil => simp [Tile.filledBy]
  | cons x xs ih => exact (ih (t.filled x.addr a.width)).trans (by rw [t.filled_valid _ _ hc, List.exists_mem_cons_iff, or_assoc])

variable (hxs : ∀ x ∈ xs, x.addr / 4096 = n ∧ x.addr % 4096 + a.width ≤ 4096)
include hm hi hxs

theorem State.seepLanes_onTile : s.OnTile (xs.foldl (State.seepLane a i) s) i n := by
  induction xs generalizing s with
  | nil => exact State.OnTile.refl hm hi n
  | cons x xs ih =>
    obtain ⟨⟨hn, hin⟩, hrest⟩ := List.forall_mem_cons.mp hxs
    have hlane : s.OnTile (s.seepLane a i x) i n := hn ▸ State.tileWrite_onTile hm hi x.data.toNat hin
    exact hlane.trans (ih hlane.form hlane.there hrest)

theorem State.tile_seepLanes : ((xs.foldl (State.seepLane a i) s).seepInst i).tile n = ((s.seepInst i).tile n).filledBy a xs := by
  induction xs generalizing s with
  | nil => rfl
  | cons x xs ih =>
    obtain ⟨⟨hn, hin⟩, hrest⟩ := List.forall_mem_cons.mp hxs
    have hlane : s.OnTile (s.seepLane a i x) i n := hn ▸ State.tileWrite_onTile hm hi x.data.toNat hin
    have htile : ((s.seepLane a i x).seepInst i).tile n = ((s.seepInst i).tile n).filled x.addr a.width :=
      hn ▸ State.tile_tileWrite hi x.addr a.width x.data.toNat
    exact (ih hlane.form hlane.there hrest).trans (by rw [htile]; rfl)

/-- The last lane that covers a byte writes it; a byte that none covers stands. -/
theorem State.seepByte_seepLanes (hw : 1 ≤ a.width) {o : Nat} (ho : o / 4096 = n) : (xs.foldl (State.seepLane a i) s).seepByte i o =
    (xs.reverse.find? fun x => decide (x.addr ≤ o ∧ o < x.addr + a.width)).elim (s.seepByte i o) fun x =>
      BitVec.ofNat 8 (x.data.toNat / 256 ^ (o - x.addr)) := by
  induction xs generalizing s with
  | nil => rfl
  | cons x xs ih =>
    obtain ⟨⟨hn, hin⟩, hrest⟩ := List.forall_mem_cons.mp hxs
    have hlane : s.OnTile (s.seepLane a i x) i n := hn ▸ State.tileWrite_onTile hm hi x.data.toNat hin
    have hbyte : (s.seepLane a i x).seepByte i o = _ := State.seepByte_tileWrite hm hi x.data.toNat hw (ho.trans hn.symm)
    rw [List.foldl_cons, ih hlane.form hlane.there hrest, hbyte, List.reverse_cons, List.find?_append]
    cases xs.reverse.find? fun x => decide (x.addr ≤ o ∧ o < x.addr + a.width) with
    | some y => rfl
    | none => by_cases hcov : x.addr ≤ o ∧ o < x.addr + a.width <;> simp [hcov]

end Lanes

/-! ### The whole store -/

/-- The entry of a tile that is live from a tick on: born then unless it was. -/
def Tile.alive (T : Nat) (t : Tile) : Tile :=
  if t.liveAt T then t else { t with state := .live, birth := BitVec.ofNat 32 T, valid := 0 }

theorem Tile.alive_state (t : Tile) (T : Nat) : (t.alive T).state = .live := by
  unfold Tile.alive
  split
  next h => exact ((t.liveAt_iff T).mp h).1
  next => rfl

theorem Tile.alive_birth (t : Tile) (T : Nat) : (t.alive T).birth = if t.liveAt T then t.birth else BitVec.ofNat 32 T :=
  apply_ite Tile.birth _ _ _

theorem Tile.alive_busy (t : Tile) (T : Nat) : (t.alive T).busy = t.busy := by
  unfold Tile.alive
  split <;> rfl

theorem Tile.alive_valid (t : Tile) (T c : Nat) :
    (t.alive T).valid.getLsbD c = true ↔ t.liveAt T = true ∧ t.valid.getLsbD c = true := by
  unfold Tile.alive
  split <;> simp [*]

/-- The machine with a tile live, born now unless it was. -/
def State.alive (s : State) (i n T : Nat) : State := if ((s.seepInst i).tile n).liveAt T then s else s.birth i n T

theorem State.performSeep_store {a : Access} {T : Nat} (h : a.kind = .seepStore) (hs : a.sample = none)
    (hone : ∀ y ∈ s.accesses, y.id = a.id → y = a)
    (hrest : s.OnTile (a.lanes.foldl (State.seepLane a i) (s.alive i a.tileNo T)) i a.tileNo) :
    s.performSeep a i T = { a.lanes.foldl (State.seepLane a i) (s.alive i a.tileNo T) with
      accesses := s.accesses.map fun y => if y.id = a.id then { a with done := true, wct := T } else y } := by
  have hacc : (a.lanes.foldl (State.seepLane a i) (s.alive i a.tileNo T)).accesses = s.accesses := by rw [hrest.rest]
  have hstore : s.tileStore i a.tileNo T (a.lanes.map fun x => (x.addr, storeBytes a x)) =
      a.lanes.foldl (State.seepLane a i) (s.alive i a.tileNo T) := List.foldl_map
  have hperform : s.performSeep a i T =
      ((s.tileStore i a.tileNo T (a.lanes.map fun x => (x.addr, storeBytes a x))).finishAccess a (some T)).sampleDone a 0 := by
    simp only [State.performSeep, h]
    rfl
  rw [hperform, hstore, State.sampleDone_unsampled hs, State.finishAccess_waits (by rwa [hacc]), hacc]

include hm hi

theorem State.alive_onTile (n T : Nat) : s.OnTile (s.alive i n T) i n := by
  unfold State.alive
  split
  · exact State.OnTile.refl hm hi n
  · exact State.birth_onTile hm hi n T

omit hm in
theorem State.tile_alive (n T : Nat) : ((s.alive i n T).seepInst i).tile n = ((s.seepInst i).tile n).alive T := by
  unfold State.alive Tile.alive
  split
  · rfl
  · exact State.tile_birth hi n T

omit hm in
/-- A tile that was not live begins with nothing. -/
theorem State.seepByte_alive {n o : Nat} (ho : o / 4096 = n) (T : Nat) : (s.alive i n T).seepByte i o =
    if ((s.seepInst i).tile n).liveAt T then s.seepByte i o else 0 := by
  unfold State.alive
  split
  · rfl
  · exact State.seepByte_birth hi ho T

end Tile

theorem claim_seepStorePerforms : Claim.SeepStorePerforms := by
  intro a i x0 xs s hdue hp hkind hlanes hm hone hi hw hin n tile T live was covers
  have hn : a.tileNo = n := by rw [Access.tileNo, hlanes]; rfl
  have hlive : tile.liveAt T = true ↔ live := tile.liveAt_iff T
  have halive := State.alive_onTile hm hi n T
  have hlanesOn := State.seepLanes_onTile halive.form halive.there hin
  have htile := State.tile_seepLanes halive.form halive.there hin
  have hbyte (o : Nat) (ho : o / 4096 = n) := State.seepByte_seepLanes halive.form halive.there hin hw ho
  have hon := halive.trans hlanesOn
  rw [hdue.exec_seep hp, State.performSeep_store hkind hdue.2 hone (by rw [hn]; exact hon), hn]
  generalize a.lanes.foldl (State.seepLane a i) (s.alive i n T) = u at hon htile hbyte
  rw [State.tile_alive hi, Tile.filledBy_rest] at htile
  have hvalid {c : Nat} (hc : c < 16) := Tile.filledBy_valid a a.lanes (tile.alive T) hc
  refine ⟨_, rfl, ?_, ⟨?_, ?_, ?_, fun c hc => ?_, fun o ho hv => ?_⟩, hon.others, hon.bytes⟩
  · rw [hon.rest]
  · exact (congrArg Tile.state htile).trans (tile.alive_state T)
  · exact ((congrArg Tile.birth htile).trans (tile.alive_birth T)).trans (if_congr hlive rfl rfl)
  · exact (congrArg Tile.busy htile).trans (tile.alive_busy T)
  · show ((u.seepInst i).tile n).valid.getLsbD c = true ↔ _
    rw [htile, hvalid hc, Tile.alive_valid, hlive]
  · have hheld : u.seepByte i o = u.mem.read (seepKey i o) := if_pos (by rw [ho]; exact hv)
    have hwas : (s.alive i n T).seepByte i o = if was o then s.mem.read (seepKey i o) else 0 := by
      rw [State.seepByte_alive hi ho, State.seepByte, ho, ← ite_and, if_congr (and_congr_left' hlive) rfl rfl]
    show u.mem.read (seepKey i o) = _
    rw [← hheld, hbyte o ho, hwas]
    cases a.lanes.reverse.find? fun x => decide (x.addr ≤ o ∧ o < x.addr + a.width) <;> rfl

end Sys2Proof.Machine

/-- Settles O31: a tile is born, written, renewed, swept and freed alone, and what it holds while it lives is what its loads return. -/
theorem seepAccesses : Obligations.SeepAccesses :=
  ⟨Sys2Proof.Machine.claim_seepPerforms, Sys2Proof.Machine.claim_seepStorePerforms, Sys2Proof.Machine.claim_seepSteps⟩
end

section
/-!
SUPPORT. Where a line has two records under one owner, a store at its home keeps the first of them alone, and its completion time does not
wait for the lease of the second.
-/

namespace Sys2Proof.Machine

/-- A store of one byte to the first line of memory. -/
def lineStore : Access :=
  { id := 1, seq := 1, sk := 1, op := none, ctx := 0, core := 0, kind := .store, place := .global, width := 1, lanes := [⟨0, 0, 0, 0, 0, 0⟩]
    pc := 0, instr := .st .always 0 ⟨0, 0⟩ 0 }

/-- The store is due, and of its line two records stand, the second with a lease to the tick 10. -/
def twinRecords : State :=
  { State.reset with accesses := [lineStore], homes := [{ line := 0, cached := true }, { line := 0, cached := true, lease := 10 }] }

theorem twinRecords_due : twinRecords.Due lineStore := ⟨by decide, rfl⟩

/-- The store performed leaves no lease of its line. -/
theorem twinRecords_leaseOf : (twinRecords.perform lineStore).leaseOf 0 0 = 0 := by decide

theorem not_claim_storePerforms : ¬ Claim.StorePerforms := by
  intro h
  obtain ⟨-, hmemory⟩ := h lineStore ⟨0, 0, 0, 0, 0, 0⟩ [] twinRecords twinRecords_due rfl rfl
  obtain ⟨t, hexec, -, hleases, -⟩ := hmemory rfl rfl (by decide) (by decide) (by decide) (by decide)
  rw [twinRecords_due.exec_perform rfl] at hexec
  cases hexec
  have hle : 10 ≤ (twinRecords.perform lineStore).leaseOf 0 0 :=
    hleases { line := 0, cached := true, lease := 10 } (by decide) rfl
  rw [twinRecords_leaseOf] at hle
  exact absurd hle (by decide)

end Sys2Proof.Machine

/-- Refutes O30: where two records of a line stand under one owner, a store to the line drops the one with the later lease, and the store's
completion time comes before that lease ends. -/
theorem not_storesPerform : ¬ Obligations.StoresPerform := fun h => Sys2Proof.Machine.not_claim_storePerforms h.1
end

section
/-!
SUPPORT. The conditions of a fence (R103), and what `fence` and FENCE_COMPLETE leave (R249).
-/

namespace Sys2Proof.Machine

/-! ### The condition -/

section Condition
variable (s : State) (k : Skein)

theorem State.outstanding_all (u : Nat) (p : Access → Bool) :
    (s.outstanding u).all p = true ↔ ∀ a, a ∈ s.accesses ∧ a.sk = u → p a = true := by
  rw [List.all_eq_true]
  exact forall_congr' fun a => imp_congr_left (by simp [State.outstanding])

/-- Every load has landed: none of its registers is marked pending with all its requests answered. -/
theorem loads_landed_iff (ops : List LongOp) :
    (ops.all fun o => !o.load || o.pend.isEmpty || o.await != 0 || o.fail.isSome) = true ↔
      ∀ o ∈ ops, o.load = true → o.pend = [] ∨ o.await ≠ 0 ∨ o.fail ≠ none := by
  simp [Option.isSome_iff_ne_none, imp_iff_not_or, or_assoc]

/-- A row of R103's table binds from its scope on. -/
theorem fence_row_iff (n scope : Nat) (b : Bool) : (decide (scope < n) || b) = true ↔ (n ≤ scope → b = true) := by
  rw [Bool.or_eq_true, decide_eq_true_eq, ← Nat.not_le, ← imp_iff_not_or]

theorem State.fenceMet_iff (scope : Nat) :
    s.fenceMet k scope = true ↔
      (∀ a, a ∈ s.accesses ∧ a.sk = k.uid → a.kind.reads = false) ∧
      (∀ o ∈ k.ops, o.load = true → o.pend = [] ∨ o.await ≠ 0 ∨ o.fail ≠ none) ∧
      (1 ≤ scope → ∀ a, a ∈ s.accesses ∧ a.sk = k.uid → a.kind.writes = true → a.posted = true ∨ a.done = true) ∧
      (2 ≤ scope → (∀ a, a ∈ s.accesses ∧ a.sk = k.uid → a.done = false) ∧ k.wct.getD 1 0 < s.nowAt (clusterOf k.core)) ∧
      (3 ≤ scope → k.unacked = 0 ∧ k.wct.getD 2 0 < s.nowAt (clusterOf k.core)) := by
  have hwrites (a : Access) : (!a.kind.writes || a.posted || a.done) = true ↔ (a.kind.writes = true → a.posted = true ∨ a.done = true) := by
    simp [imp_iff_not_or, or_assoc]
  simp only [State.fenceMet, Bool.and_eq_true, fence_row_iff, State.outstanding_all, loads_landed_iff, hwrites, and_assoc, Bool.not_eq_true',
    beq_iff_eq, decide_eq_true_eq]

/-- A condition met at a scope is met at every narrower one. -/
theorem State.fenceMet_narrower {n scope : Nat} (hn : n ≤ scope) (h : s.fenceMet k scope = true) : s.fenceMet k n = true := by
  rw [State.fenceMet_iff] at h ⊢
  obtain ⟨hreads, hloads, htm, hdv, hdm⟩ := h
  exact ⟨hreads, hloads, fun h => htm (h.trans hn), fun h => hdv (h.trans hn), fun h => hdm (h.trans hn)⟩

end Condition

theorem claim_fenceConditions : Claim.FenceConditions := fun k scope s =>
  ⟨s.fenceMet_iff k scope, fun _ hn => s.fenceMet_narrower k hn⟩

/-! ### A skein changed, and its acquire -/

section Acquire
variable {s t : State} {u n : Nat} {k : Skein}

theorem State.updSk_became (hk : s.sk? u = some k) {f : Skein → Skein} (hf : ∀ k, (f k).uid = k.uid) : s.SkBecame (s.updSk u f) u (f k) where
  rest := rfl
  there := by rw [s.sk?_updSk u f hf, if_pos rfl, hk, Option.map_some]
  others v hv := by rw [s.sk?_updSk u f hf, if_neg hv]

theorem State.advance_skBecame (h : s.Issuing) : s.SkBecame s.advance s.issue.sk s.moved := by
  obtain ⟨hrest, hothers⟩ := s.advance_only h
  obtain ⟨k, hk⟩ : s.advance.Issuing := s.updCur_issuing _ h fun _ => rfl
  exact ⟨hrest, hk.trans (congrArg some ((s.advance.cur_eq hk).symm.trans (s.cur_advance h))), hothers⟩

/-- An acquire below .dv does nothing. -/
theorem State.acquire_narrow (hn : n < 2) (tick : Nat) : s.acquire u n tick = s := if_pos hn

theorem State.acquire_wide (hk : s.sk? u = some k) (hn : 2 ≤ n) (tick : Nat) :
    s.acquire u n tick = { s with copies := s.copies.filter fun c => c.l2 || c.place != k.core }.updSk u fun k => { k with acquire := tick } := by
  rw [State.acquire, if_neg (Nat.not_lt.mpr hn), s.sk_eq hk]

theorem State.SkBecame.acquires (h : s.SkBecame t u k) (hn : 2 ≤ n) : s.SkAcquired (t.acquire u n s.now) u k := by
  obtain ⟨hrest, hk, hothers⟩ := h
  rw [State.acquire_wide hk hn]
  obtain ⟨-, hthere, hstand⟩ := State.updSk_became (s := { t with copies := t.copies.filter fun c => c.l2 || c.place != k.core }) hk
    (f := fun k => { k with acquire := s.now }) fun _ => rfl
  refine ⟨?_, hthere, fun v hv => (hstand v hv).trans (hothers v hv)⟩
  rw [hrest]
  rfl

end Acquire

/-! ### The instruction and its completion -/

section Fence
variable {s : State} {scope : BitVec 3}

theorem Skein.remoteTrap_none {k : Skein} (h : k.faultQ = []) : k.remoteTrap = none := by rw [Skein.remoteTrap, h]

theorem execFence_beyond (h : 4 < scope.toNat) : exec (.fence scope) s = .next (s.takeTrap { kind := 1, cause := 0x0A }) := by
  show execFence scope s = _
  simp only [execFence, h, decide_true]
  rfl

theorem execFence_checked (h : scope.toNat ≤ 4) (hq : 3 ≤ scope.toNat → s.cur.faultQ = []) :
    exec (.fence scope) s = .next (if s.fenceMet s.cur scope.toNat then s.advance.acquire s.cur.uid scope.toNat s.now
      else s.beginWait (.fence scope.toNat) (.fence scope)) := by
  have hrange : illIf (decide (4 < scope.toNat)) .range = none := (illIf_eq_none _ _).mpr (decide_eq_false (Nat.not_lt.mpr h))
  have htrap : (if scope.toNat < 3 then none else s.cur.remoteTrap) = none := by
    split
    next => rfl
    next hwide => exact Skein.remoteTrap_none (hq (Nat.not_lt.mp hwide))
  show execFence scope s = _
  simp only [execFence, hrange, htrap]
  rfl

end Fence

theorem execFenceComplete_fence {s : State} {u id n : Nat} {k : Skein} {w : Wait} (hk : s.sk? u = some k) (hw : k.wait? id = some w)
    (hkind : w.kind = .fence n) (hq : 3 ≤ n → k.faultQ = []) :
    exec (.fenceComplete u id) s = .next (if s.fenceMet k n then (s.updSk u fun k => k.endWait w).acquire u n s.now else s) := by
  have hnone : ¬ (3 ≤ n ∧ (!k.faultQ.isEmpty) = true) := fun ⟨hn, hfault⟩ => by simp [hq hn] at hfault
  show execFenceComplete u id s = _
  simp only [execFenceComplete, s.sk_eq hk, hw, hkind, if_neg hnone]

theorem claim_fenceResults : Claim.FenceResults := by
  refine ⟨fun scope s hi => ⟨fun hle hq hmet => ?_, fun hle hq hmet => ?_, execFence_beyond⟩, fun u id n k w s hk hw hkind hq => ?_⟩
  · have hu : s.cur.uid = s.issue.sk := by
      obtain ⟨k, hk⟩ := hi
      rw [s.cur_eq hk, s.sk_uid hk]
    rw [execFence_checked hle hq, if_pos hmet, hu]
    refine ⟨_, rfl, fun hn => ?_, (State.advance_skBecame hi).acquires⟩
    rw [State.acquire_narrow hn]
    exact State.advance_became hi
  · rw [execFence_checked hle hq, if_neg (by simp [hmet])]
    exact ⟨_, rfl, State.beginWait_waits hi _ _⟩
  · have hended := State.updSk_became hk (f := fun k => k.endWait w) fun _ => rfl
    rw [execFenceComplete_fence hk hw hkind hq]
    refine ⟨fun hmet hn => ?_, fun hmet hn => ?_, fun hmet => by rw [if_neg (by simp [hmet])]⟩
    · rw [if_pos hmet, State.acquire_narrow hn]
      exact ⟨_, rfl, hended⟩
    · rw [if_pos hmet]
      exact ⟨_, rfl, hended.acquires hn⟩

end Sys2Proof.Machine

/-- Settles O33: the conditions are the rows of R103's table, and a fence whose condition holds is a move past it or the end of its wait, with
an acquire from .dv on. -/
theorem fences : Obligations.Fences := ⟨Sys2Proof.Machine.claim_fenceConditions, Sys2Proof.Machine.claim_fenceResults⟩
end

section
/-!
SUPPORT. Domain time (R388) and sluice groups (R389), with the end that a lost lock brings to collectives (R390).
-/

namespace Sys2Proof.Machine

/-! ### Ports by their number -/

theorem State.port_updPort_same (s : State) (n : Nat) (f : Port → Port) : (s.updPort n f).port n = { f (s.port n) with num := n } := by
  rw [State.port, State.updPort, find?_putBy, if_pos rfl, Option.getD_some]

theorem State.port_updPort_other (s : State) {n m : Nat} (h : m ≠ n) (f : Port → Port) : (s.updPort n f).port m = s.port m := by
  rw [State.port, State.updPort, find?_putBy, if_neg h, State.port]

/-! ### Time flits -/

section Time
variable {s : State} {n : Nat}

/-- The time flit that a port puts on its link. -/
def State.timeFlit (s : State) (n : Nat) : Flit :=
  sealFlit ⟨1, 0, 0, (s.port n).expect - 1, (s.port n).freed, (s.port n).far, BitVec.ofNat 9 s.ownDev, toBytes 8 s.now, 0⟩

theorem execTimeFlitSend_idle (h : (s.port n).state ≠ 2 ∨ s.now < (s.port n).timeAt + 256) : exec (.timeFlitSend n) s = .next s := by
  have hidle : ¬ ((s.port n).state == 2 && decide ((s.port n).timeAt + 256 ≤ s.now)) = true := by
    simp only [Bool.and_eq_true, beq_iff_eq, decide_eq_true_eq]
    exact fun ⟨hup, hdue⟩ => h.elim (fun hdown => hdown hup) fun hearly => Nat.not_le.mpr hearly hdue
  exact congrArg Host.Outcome.next (if_neg hidle)

theorem execTimeFlitSend_sends (hup : (s.port n).state = 2) (hdue : (s.port n).timeAt + 256 ≤ s.now) :
    exec (.timeFlitSend n) s = .next (s.updPort n fun p => { p.linkFlit s.ownDev 1 0 (toBytes 8 s.now) with timeAt := s.now }) :=
  congrArg Host.Outcome.next (if_pos (by simp [hup, hdue]))

/-- A time flit leaves on its port alone, and the others stand. -/
theorem timeFlitSend_spec (hup : (s.port n).state = 2) (hdue : (s.port n).timeAt + 256 ≤ s.now) :
    ∃ t f, exec (.timeFlitSend n) s = .next t ∧ t = { s with ports := t.ports } ∧ (∀ m, m ≠ n → t.port m = s.port m) ∧
      (t.port n).timeAt = s.now ∧ (t.port n).wire = (s.port n).wire ++ [f] ∧ f.kind = 1 ∧ f.payload = toBytes 8 s.now := by
  refine ⟨_, s.timeFlit n, execTimeFlitSend_sends hup hdue, rfl, fun m hm => s.port_updPort_other hm _, ?_, ?_, rfl, rfl⟩
  · rw [State.port_updPort_same]
  · rw [State.port_updPort_same]
    rfl

theorem execTimeFlitReceive_idle (sent : Lane) (delay : Nat) (h : (s.port n).state ≠ 2 ∨ s.isMaster = true) :
    exec (.timeFlitReceive n sent delay) s = .next s :=
  congrArg Host.Outcome.next (if_pos (by simpa using h))

/-- The time flits in a row that agree within a tick, one more with a gap. -/
def State.agreeing (s : State) (gap : Int) : Nat := if -1 ≤ gap ∧ gap ≤ 1 then s.timeGood + 1 else 0

/-- A device that has taken a reference. -/
def State.heardTime (s : State) (gap : Int) : State :=
  { s with timeSeen := s.now, timeLag := gap, timeGood := min (s.agreeing gap) 4, timeLock := s.timeLock || decide (4 ≤ s.agreeing gap) }

theorem execTimeFlitReceive_takes (sent : Lane) (delay : Nat) (hup : (s.port n).state = 2) (hm : s.isMaster = false) :
    exec (.timeFlitReceive n sent delay) s = .next (s.heardTime ((sent.toNat + delay : Nat) - (s.now : Int))) := by
  have hagree (gap : Int) : (if gap.natAbs ≤ 1 then s.timeGood + 1 else 0) = s.agreeing gap := if_congr (by omega) rfl rfl
  show execTimeFlitReceive n sent delay s = _
  simp only [execTimeFlitReceive, hup, hm, hagree]
  rfl

/-! ### The lock lost -/

/-- An operation that its engine gives up with a status. -/
def EngineOp.givenUp (o : EngineOp) (st : Byte) (a : Lane) : EngineOp :=
  { o with ready := true, status := st, failAddr := a, asked := [], heard := [], atTiles := [], seg := none, wrote := [], wants := [] }

theorem State.foldl_endEngine_rest (us : List Nat) (s : State) (st : Byte) (a : Lane) :
    us.foldl (fun s u => s.endEngine u st a) s = { s with ops := (us.foldl (fun s u => s.endEngine u st a) s).ops } := by
  induction us generalizing s with
  | nil => rfl
  | cons u us ih => exact ih (s.endEngine u st a)

/-- Several operations given up: a name that stands twice is given up as if once. -/
theorem State.op?_foldl_endEngine (us : List Nat) (s : State) (st : Byte) (a : Lane) (v : Nat) :
    (us.foldl (fun s u => s.endEngine u st a) s).op? v = if v ∈ us then (s.op? v).map fun o => o.givenUp st a else s.op? v := by
  induction us generalizing s with
  | nil => rfl
  | cons u us ih =>
    have hone : (s.endEngine u st a).op? v = if v = u then (s.op? v).map fun o => o.givenUp st a else s.op? v :=
      s.op?_updOp u (fun o => o.givenUp st a) (fun _ => rfl) v
    rw [List.foldl_cons, ih, hone]
    by_cases hu : v = u
    · rw [if_pos hu, if_pos (List.mem_cons.mpr (.inl hu)), Option.map_map]
      exact ite_self _
    · simp [hu]

/-- The names of the collectives under way. -/
def State.openColls (s : State) : List Nat :=
  (s.ops.filter fun o => (match o.kind with | .coll .. => true | _ => false) && !o.done && !o.ready).map (·.uid)

theorem State.mem_openColls {o : EngineOp} {op fmt : BitVec 2} (ho : s.op? o.uid = some o) (hk : o.kind = .coll op fmt)
    (hd : o.done = false) (hr : o.ready = false) : o.uid ∈ s.openColls := by
  refine List.mem_map.mpr ⟨o, List.mem_filter.mpr ⟨List.mem_of_find?_eq_some ho, ?_⟩, rfl⟩
  rw [hk, hd, hr]
  rfl

theorem execTimeLockLoss_idle (h : s.isMaster = true ∨ s.timeLock = false ∨ s.now < s.timeSeen + 2 ^ 16) :
    exec .timeLockLoss s = .next s := by
  refine congrArg Host.Outcome.next (if_pos ?_)
  rw [State.locksTime, Bool.or_eq_true, decide_eq_true_eq]
  rcases h with h | h | h
  · exact .inl (by rw [h, Bool.true_or])
  · exact .inl (by rw [h, Bool.or_false, Bool.or_not_self])
  · exact .inr h

theorem execTimeLockLoss_loses (hm : s.isMaster = false) (hl : s.timeLock = true) (ht : s.timeSeen + 2 ^ 16 ≤ s.now) :
    exec .timeLockLoss s = .next (s.openColls.foldl (fun s u => s.endEngine u 7 0) { s with timeLock := false, timeGood := 0 }) :=
  congrArg Host.Outcome.next (if_neg (by simpa [State.locksTime, hm, hl] using ht))

theorem timeLockLoss_spec (hm : s.isMaster = false) (hl : s.timeLock = true) (ht : s.timeSeen + 2 ^ 16 ≤ s.now) :
    ∃ t, exec .timeLockLoss s = .next t ∧ t = { s with timeLock := false, timeGood := 0, ops := t.ops } ∧
      ∀ o op fmt, s.op? o.uid = some o → o.kind = .coll op fmt → o.done = false → o.ready = false →
        t.op? o.uid = some (o.givenUp 7 0) := by
  refine ⟨_, execTimeLockLoss_loses hm hl ht, State.foldl_endEngine_rest _ _ _ _, fun o op fmt ho hk hd hr => ?_⟩
  rw [State.op?_foldl_endEngine, if_pos (State.mem_openColls ho hk hd hr)]
  exact congrArg (Option.map fun o : EngineOp => o.givenUp 7 0) ho

end Time

/-! ### Group entries -/

/-- A collective of a group is under way. -/
def State.groupBusy (s : State) (g : Nat) : Bool :=
  s.ops.any fun o => (match o.kind with | .coll .. => true | _ => false) && o.group == g && !o.done

theorem State.groupBusy_iff (s : State) (g : Nat) :
    s.groupBusy g = true ↔ ∃ o ∈ s.ops, o.group = g ∧ o.done = false ∧ ∃ op fmt, o.kind = .coll op fmt := by
  have hcoll (k : OpKind) : (match k with | .coll .. => true | _ => false) = true ↔ ∃ op fmt, k = .coll op fmt := by
    cases k <;> simp
  simp only [State.groupBusy, List.any_eq_true, Bool.and_eq_true, hcoll, beq_iff_eq, Bool.not_eq_true']
  exact exists_congr fun o => and_congr_right fun _ => by tauto

theorem execSluiceGroupWrite_eq (s : State) {g : Nat} (hg : g < 1024) (w0 w1 : Lane) :
    exec (.sluiceGroupWrite g w0 w1) s = .next (if s.groupBusy g = true then { s with barErr := 8 }
      else { s with groups := (g, w0 &&& 0x000003FF03FF3F01, w1) :: s.groups.filter fun x => x.1 != g }) :=
  congrArg Host.Outcome.next (if_neg (Nat.not_le.mpr hg))

theorem State.groupEntry_written (s : State) (g : Nat) (e : Lane × Lane) (h : Nat) :
    State.groupEntry { s with groups := (g, e) :: s.groups.filter fun x => x.1 != g } h = if h = g then e else s.groupEntry h := by
  by_cases hh : h = g
  · simp [State.groupEntry, hh]
  · have hfind : (s.groups.filter fun x => x.1 != g).find? (fun x => x.1 == h) = s.groups.find? fun x => x.1 == h := by
      rw [List.find?_filter]
      congr 1
      funext x
      by_cases hx : x.1 = h <;> simp [hx, hh]
    simp [State.groupEntry, hfind, hh, Ne.symm hh]

theorem sluiceGroupWrite_spec (s : State) (g : Nat) (w0 w1 : Lane) :
    (1024 ≤ g → exec (.sluiceGroupWrite g w0 w1) s = .next s) ∧
    (g < 1024 → (∃ o ∈ s.ops, o.group = g ∧ o.done = false ∧ ∃ op fmt, o.kind = .coll op fmt) →
      exec (.sluiceGroupWrite g w0 w1) s = .next { s with barErr := 8 }) ∧
    (g < 1024 → (∀ o ∈ s.ops, o.group = g → o.done = false → ∀ op fmt, o.kind ≠ .coll op fmt) →
      ∃ t, exec (.sluiceGroupWrite g w0 w1) s = .next t ∧ t = { s with groups := t.groups } ∧
        t.groupEntry g = (w0 &&& 0x000003FF03FF3F01, w1) ∧ ∀ h, h ≠ g → t.groupEntry h = s.groupEntry h) := by
  refine ⟨fun hg => congrArg Host.Outcome.next (if_pos hg), fun hg hbusy => ?_, fun hg hfree => ?_⟩
  · rw [execSluiceGroupWrite_eq s hg, if_pos ((s.groupBusy_iff g).mpr hbusy)]
  · have hidle : ¬ s.groupBusy g = true := fun hb => by
      obtain ⟨o, ho, hgr, hd, op, fmt, hk⟩ := (s.groupBusy_iff g).mp hb
      exact hfree o ho hgr hd op fmt hk
    rw [execSluiceGroupWrite_eq s hg, if_neg hidle]
    exact ⟨_, rfl, rfl, (s.groupEntry_written g _ g).trans (if_pos rfl), fun h hh => (s.groupEntry_written g _ h).trans (if_neg hh)⟩

theorem claim_domainTime : Claim.DomainTime := by
  intro n s _ p
  refine ⟨execTimeFlitSend_idle, timeFlitSend_spec, fun sent delay => ⟨execTimeFlitReceive_idle sent delay, fun hup hm => ?_⟩,
    execTimeLockLoss_idle, timeLockLoss_spec, sluiceGroupWrite_spec s⟩
  refine ⟨_, execTimeFlitReceive_takes sent delay hup hm, rfl, ?_⟩
  rw [State.heardTime, Bool.or_eq_true, decide_eq_true_eq]
  rfl

end Sys2Proof.Machine
end

section
/-!
SUPPORT. Power blocks by their cluster, and the steps that set and move them (R391 to R393).
-/

namespace Sys2Proof.Machine

/-! ### A power block changed -/

section Block
variable (s : State) (c : Nat)

theorem State.powerOf_cluster : (s.powerOf c).cluster = c := by
  unfold State.powerOf
  cases h : s.power.find? fun p => p.cluster == c with
  | none => rfl
  | some p => simpa using List.find?_some h

theorem State.powerOf_updPower_same {f : Power → Power} (hf : ∀ p, (f p).cluster = p.cluster) :
    (s.updPower c f).powerOf c = f (s.powerOf c) := by
  have hc : (f (s.powerOf c)).cluster = c := (hf _).trans (s.powerOf_cluster c)
  have hkey : { f (s.powerOf c) with cluster := c } = f (s.powerOf c) := congrArg (fun n => { f (s.powerOf c) with cluster := n }) hc.symm
  rw [State.powerOf, State.updPower, hkey, find?_putBy, if_pos hc.symm, Option.getD_some]

theorem State.powerOf_updPower_other {d : Nat} (hd : d ≠ c) (f : Power → Power) : (s.updPower c f).powerOf d = s.powerOf d := by
  rw [State.powerOf, State.updPower, find?_putBy, if_neg hd, State.powerOf]

theorem State.updPower_powered {f : Power → Power} (hf : ∀ p, (f p).cluster = p.cluster) :
    s.Powered (s.updPower c f) c (f (s.powerOf c)) :=
  ⟨rfl, s.powerOf_updPower_same c hf, fun _ hd => s.powerOf_updPower_other c hd f⟩

end Block

/-! ### Settings and steps (R391, R392) -/

section Settings
variable {c : Nat} {s : State}

theorem extractLsb'_eq_ofNat {w : Nat} (v : BitVec w) (start len : Nat) :
    v.extractLsb' start len = BitVec.ofNat len (v.toNat / 2 ^ start) := by
  rw [← Nat.shiftRight_eq_div_pow]
  rfl

/-- The settings that a write of a power block leaves. -/
def Power.written (p : Power) (v : Lane) : Power :=
  let thr := v.toNat / 2 % 2 ^ 15
  { p with gapMin := BitVec.ofNat 8 (v.toNat / 2 ^ 24), waveMax := BitVec.ofNat 6 (v.toNat / 2 ^ 16), uven := v.getLsbD 0
           thr := if thr = 0 then p.thr else BitVec.ofNat 15 thr, u := if v.getLsbD 0 then p.u else 0 }

theorem execPowerBlockWrite_shielded (v : Lane) (h : s.shielded c = true) : exec (.powerBlockWrite c v) s = .next s :=
  congrArg Host.Outcome.next (if_pos (by simp [h]))

theorem execPowerBlockWrite_writes (hc : c < 96) (v : Lane) (h : s.shielded c = false) :
    exec (.powerBlockWrite c v) s =
      .next ((if v.toNat / 2 % 2 ^ 15 = 0 then { s with barErr := 9 } else s).updPower c fun p => p.written v) := by
  have hthr : v.extractLsb' 1 15 = BitVec.ofNat 15 (v.toNat / 2 % 2 ^ 15) := by
    rw [extractLsb'_eq_ofNat]
    exact BitVec.eq_of_toNat_eq (by simp)
  have hzero : v.extractLsb' 1 15 = 0 ↔ v.toNat / 2 % 2 ^ 15 = 0 := by
    rw [extractLsb'_eq_ofNat, ← BitVec.toNat_inj]
    simp
  have hopen : ¬ (decide (Config.clusters ≤ c) || s.shielded c) = true := by
    rw [h, Bool.or_false, decide_eq_true_eq]
    exact Nat.not_le.mpr hc
  refine congrArg Host.Outcome.next ((if_neg hopen).trans ?_)
  simp only [hzero, Power.written, ← hthr, ← extractLsb'_eq_ofNat]

theorem execFrequencyStep_idle (h : (s.powerOf c).target = none ∨ s.now < (s.powerOf c).stepAt ∨ s.shielded c = true) :
    exec (.frequencyStep c) s = .next s := by
  show execFrequencyStep c s = _
  unfold execFrequencyStep
  dsimp only
  cases ht : (s.powerOf c).target with
  | none => rfl
  | some a =>
    dsimp only
    have hwait : (decide (s.now < (s.powerOf c).stepAt) || s.shielded c) = true := by
      rw [Bool.or_eq_true, decide_eq_true_eq]
      exact h.resolve_left (by simp [ht])
    exact congrArg Host.Outcome.next (if_pos hwait)

/-- The code one step from another towards a third. -/
def stepTowards (f a : BitVec 5) : BitVec 5 := if f.toNat < a.toNat then f + 1 else if a.toNat < f.toNat then f - 1 else a

theorem execFrequencyStep_steps {a : BitVec 5} (ht : (s.powerOf c).target = some a) (hdue : (s.powerOf c).stepAt ≤ s.now)
    (h : s.shielded c = false) :
    exec (.frequencyStep c) s = .next (s.updPower c fun p =>
      { p with freq := stepTowards (s.powerOf c).freq a, stepAt := s.now + 20
               target := if stepTowards (s.powerOf c).freq a = a then none else some a }) := by
  have hgo : ¬ (decide (s.now < (s.powerOf c).stepAt) || s.shielded c) = true := by
    rw [h, Bool.or_false, decide_eq_true_eq]
    exact Nat.not_lt.mpr hdue
  show execFrequencyStep c s = _
  unfold execFrequencyStep
  dsimp only
  rw [ht]
  exact congrArg Host.Outcome.next (if_neg hgo)

theorem execPowerLimitWrite_eq (v : Lane) : exec (.powerLimitWrite v) s =
    .next (if 1000 ≤ v.toNat % 2 ^ 12 ∧ v.toNat % 2 ^ 12 ≤ 2400 then { s with limit := BitVec.ofNat 12 (v.toNat % 2 ^ 12) } else s) := by
  have hw : v.extractLsb' 0 12 = BitVec.ofNat 12 (v.toNat % 2 ^ 12) := by
    rw [extractLsb'_eq_ofNat]
    exact BitVec.eq_of_toNat_eq (by simp)
  have hn : (v.extractLsb' 0 12).toNat = v.toNat % 2 ^ 12 := by rw [hw]; simp
  refine congrArg Host.Outcome.next (if_congr ?_ (by rw [hw]) rfl)
  rw [hn, Bool.and_eq_true, decide_eq_true_eq, decide_eq_true_eq]

end Settings

/-! ### The power window (R393) -/

/-- A step that changes the power block of one cluster alone. -/
structure OwnStep (step : State → Nat → State) : Prop where
  rest  : ∀ s c, step s c = { s with power := (step s c).power }
  other : ∀ s c d, d ≠ c → (step s c).powerOf d = s.powerOf d

theorem stepDown_own : OwnStep State.stepDown where
  rest s c := by
    unfold State.stepDown
    dsimp only
    split <;> rfl
  other s c d hd := by
    unfold State.stepDown
    dsimp only
    split
    · rfl
    · exact s.powerOf_updPower_other c hd _

theorem stepUp_own : OwnStep State.stepUp where
  rest s c := by
    unfold State.stepUp
    dsimp only
    split <;> rfl
  other s c d hd := by
    unfold State.stepUp
    dsimp only
    split
    · rfl
    · exact s.powerOf_updPower_other c hd _

section Walk
variable {step : State → Nat → State}

theorem OwnStep.foldl_rest (h : OwnStep step) (cs : List Nat) (s : State) :
    cs.foldl step s = { s with power := (cs.foldl step s).power } := by
  induction cs generalizing s with
  | nil => rfl
  | cons c cs ih =>
    rw [List.foldl_cons, ih (step s c), h.rest s c]

theorem OwnStep.foldl_other (h : OwnStep step) {cs : List Nat} {d : Nat} (hd : d ∉ cs) (s : State) :
    (cs.foldl step s).powerOf d = s.powerOf d := by
  induction cs generalizing s with
  | nil => rfl
  | cons c cs ih =>
    rw [List.foldl_cons, ih (List.not_mem_of_not_mem_cons hd), h.other s c d (List.ne_of_not_mem_cons hd)]

end Walk

theorem State.stepDown_target {s : State} {c : Nat} (hf : (s.powerOf c).freq ≠ 0) (ht : (s.powerOf c).target = none) :
    ((s.stepDown c).powerOf c).target = some ((s.powerOf c).freq - 1) := by
  have hgo : ¬ ((s.powerOf c).freq = 0 || (s.powerOf c).target.any fun t => t < (s.powerOf c).freq) = true := by
    simpa [ht] using hf
  have hne : (s.powerOf c).freq ≠ (s.powerOf c).freq - 1 := by generalize (s.powerOf c).freq = f; bv_omega
  have haim : s.stepDown c = s.aimFreq c ((s.powerOf c).freq - 1) := if_neg hgo
  rw [haim, State.aimFreq, State.powerOf_updPower_same s c fun p => by split <;> rfl, if_neg hne]

theorem State.foldl_stepDown_target {cs : List Nat} (hcs : cs.Nodup) {d : Nat} (hd : d ∈ cs) {s : State} (hf : (s.powerOf d).freq ≠ 0)
    (ht : (s.powerOf d).target = none) : ((cs.foldl State.stepDown s).powerOf d).target = some ((s.powerOf d).freq - 1) := by
  induction cs generalizing s with
  | nil => exact absurd hd List.not_mem_nil
  | cons c cs ih =>
    obtain ⟨hc, hcs⟩ := List.nodup_cons.mp hcs
    rw [List.foldl_cons]
    rcases List.mem_cons.mp hd with rfl | hd
    · rw [stepDown_own.foldl_other hc, State.stepDown_target hf ht]
    · have hother := stepDown_own.other s c d (ne_of_mem_of_not_mem hd hc)
      rw [← hother] at hf ht ⊢
      exact ih hcs hd hf ht

section Window
variable {s : State} {watts : Nat}

theorem State.mem_throttled (c : Nat) : c ∈ s.throttled ↔ c < 96 ∧ s.shielded c = false := by
  simp [State.throttled, Config.clusters]

theorem State.throttled_nodup : s.throttled.Nodup := List.nodup_range.filter _

/-- Every cluster that may be throttled is at its lowest clock. -/
def State.allLowest (s : State) : Bool := s.throttled.all fun c => (s.powerOf c).freq == 0

theorem State.allLowest_iff : s.allLowest = true ↔ ∀ d, d < 96 → s.shielded d = false → (s.powerOf d).freq = 0 := by
  simp [State.allLowest, State.mem_throttled]

/-- A power window over, the alert raised or not, before any cluster steps. -/
def State.windowEnded (s : State) (alert : Bool) : State := { s with powerAt := s.powerAt + 100000, alert := alert }

theorem execPowerWindow_early (h : s.now < s.powerAt + 100000) : exec (.powerWindow watts) s = .next s :=
  congrArg Host.Outcome.next (if_pos h)

theorem execPowerWindow_ends (h : s.powerAt + 100000 ≤ s.now) :
    exec (.powerWindow watts) s = .next (
      if s.limit.toNat < watts then
        if s.allLowest then (s.windowEnded true).signal 0 (s.ubMsix.toNat % 2048) else s.throttled.foldl State.stepDown (s.windowEnded false)
      else if 100 * watts < 95 * s.limit.toNat then s.throttled.foldl State.stepUp (s.windowEnded false) else s.windowEnded false) :=
  congrArg Host.Outcome.next (if_neg (Nat.not_lt.mpr h))

theorem powerWindow_spec (h : s.powerAt + 100000 ≤ s.now) :
    ∃ t, exec (.powerWindow watts) s = .next t ∧ t.powerAt = s.powerAt + 100000 ∧ t.skeins = s.skeins ∧ t.mem = s.mem ∧
      (t.alert = true ↔ s.limit.toNat < watts ∧ ∀ d, d < 96 → s.shielded d = false → (s.powerOf d).freq = 0) ∧
      (s.limit.toNat < watts → t.alert = false → ∀ d, d < 96 → s.shielded d = false → (s.powerOf d).freq ≠ 0 → (s.powerOf d).target = none →
        (t.powerOf d).target = some ((s.powerOf d).freq - 1)) ∧
      (watts ≤ s.limit.toNat → 95 * s.limit.toNat ≤ 100 * watts → t.power = s.power) := by
  refine ⟨_, execPowerWindow_ends h, ?_⟩
  rw [← State.allLowest_iff]
  by_cases hover : s.limit.toNat < watts
  · rw [if_pos hover]
    by_cases hall : s.allLowest = true
    · rw [if_pos hall]
      exact ⟨rfl, rfl, rfl, iff_of_true rfl ⟨hover, hall⟩, fun _ => nofun, fun hle => absurd hover (Nat.not_lt.mpr hle)⟩
    · have hrest := stepDown_own.foldl_rest s.throttled (s.windowEnded false)
      rw [if_neg hall]
      refine ⟨by rw [hrest]; rfl, by rw [hrest]; rfl, by rw [hrest]; rfl, iff_of_false (by rw [hrest]; exact nofun) fun hboth => hall hboth.2,
        fun _ _ d hd hs hf ht => ?_, fun hle => absurd hover (Nat.not_lt.mpr hle)⟩
      exact State.foldl_stepDown_target State.throttled_nodup ((State.mem_throttled d).mpr ⟨hd, hs⟩) hf ht
  · rw [if_neg hover]
    by_cases hbelow : 100 * watts < 95 * s.limit.toNat
    · have hrest := stepUp_own.foldl_rest s.throttled (s.windowEnded false)
      rw [if_pos hbelow]
      exact ⟨by rw [hrest]; rfl, by rw [hrest]; rfl, by rw [hrest]; rfl, iff_of_false (by rw [hrest]; exact nofun) fun hboth => hover hboth.1,
        fun hlt => absurd hlt hover, fun _ hle => absurd hbelow (Nat.not_lt.mpr hle)⟩
    · rw [if_neg hbelow]
      exact ⟨rfl, rfl, rfl, iff_of_false nofun fun hboth => hover hboth.1, fun hlt => absurd hlt hover, fun _ _ => rfl⟩

end Window

theorem claim_powerSettings : Claim.PowerSettings := by
  intro c v s hc p thr
  refine ⟨execPowerBlockWrite_shielded v, fun h => ⟨_, execPowerBlockWrite_writes hc v h, ?_⟩, execFrequencyStep_idle,
    fun a ht hdue h => ⟨_, execFrequencyStep_steps ht hdue h, s.updPower_powered c fun _ => rfl⟩, execPowerLimitWrite_eq v,
    fun watts => ⟨execPowerWindow_early, powerWindow_spec⟩⟩
  have hpower : State.powerOf (if v.toNat / 2 % 2 ^ 15 = 0 then { s with barErr := 9 } else s) c = s.powerOf c := by split <;> rfl
  have hwritten := State.updPower_powered (if v.toNat / 2 % 2 ^ 15 = 0 then { s with barErr := 9 } else s) c
    (f := fun p => p.written v) fun _ => rfl
  rw [hpower] at hwritten
  exact hwritten

end Sys2Proof.Machine
end

section
/-!
SUPPORT. Errors, the windows of undervolting and telemetry (R328, R394, R395, R404).
-/

namespace Sys2Proof.Machine

/-! ### What an error strikes -/

section Struck
variable {s : State} {c : Nat} {x : ErrTarget}

/-- Poison lies in skeins and in memory's granules alone. -/
theorem State.poisonData_rest (s : State) (h : codedTarget x = true) :
    s.poisonData x = { s with skeins := (s.poisonData x).skeins, poisoned := (s.poisonData x).poisoned } := by
  cases x with
  | memory key => rfl
  | register u r l => rfl
  | store core pc w bits => exact absurd h nofun

theorem State.poisonData_memory (s : State) (key : Nat) : (s.poisonData (.memory key)).poisonAt key 1 = true := by
  have hhit : (decide (8 * (key / 8) < key + 1) && decide (key < 8 * (key / 8) + 8)) = true := by simp; omega
  rw [State.poisonAt, State.poisonData, List.any_cons, hhit, Bool.true_or]

/-- A skein with one lane of a register poisoned. -/
def Skein.poisonLane (k : Skein) (r l : Nat) : Skein :=
  { k with regs := bankUpd 64 {} k.regs r fun x => { x with poison := x.poison ||| (1 <<< l) } }

theorem State.poisonData_register (s : State) (u : Nat) (r : Reg) (l : Nat) :
    s.poisonData (.register u r l) = s.updSk u fun k => k.poisonLane r.toNat l := rfl

theorem Skein.poisonLane_reg (k : Skein) (r l : Nat) {n : Nat} (hn : n < 64) : (k.poisonLane r l).reg n =
    if n = r then { k.reg n with poison := (k.reg n).poison ||| (1 <<< l) } else k.reg n := k.reg_bankUpd r _ n hn

/-- A power block after an uncorrectable error (R395): counted, U at 0, and with U above 0 a margin event. -/
def Power.hit (p : Power) (now : Nat) : Power :=
  { p with uncor := satInc p.uncor, struck := true, u := 0
           raises := if 0 < p.u.toNat then (p.raise now).raises else p.raises, mev := if 0 < p.u.toNat then satInc p.mev else p.mev }

theorem Power.raise_length (p : Power) (now : Nat) :
    (p.raise now).raises.length = if p.raises.length < 6 then p.raises.length + 1 else p.raises.length := by
  unfold Power.raise Power.raised
  split <;> simp

theorem Power.hit_length (p : Power) (now : Nat) : (p.hit now).raises.length =
    if 0 < p.u.toNat ∧ p.raises.length < 6 then p.raises.length + 1 else p.raises.length := by
  rw [Power.hit, ite_and]
  split
  next => exact p.raise_length now
  next => rfl

/-- A power block after an uncorrectable error, as UNCORRECTABLE_ERROR writes it. -/
def Power.struckBy (p : Power) (margin : Bool) (now : Nat) : Power :=
  let q := { p with uncor := satInc p.uncor, struck := true, u := 0 }
  if margin then { q.raise now with mev := satInc q.mev } else q

theorem Power.struckBy_eq_hit (p : Power) (now : Nat) : p.struckBy (decide (0 < p.u.toNat)) now = p.hit now := by
  by_cases hu : 0 < p.u.toNat
  · by_cases hr : p.raises.length < 6 <;> simp [Power.struckBy, Power.hit, Power.raise, Power.raised, hu, hr]
  · simp [Power.struckBy, Power.hit, hu]

theorem Power.raise_cluster (p : Power) (now : Nat) : (p.raise now).cluster = p.cluster := by
  unfold Power.raise
  split <;> rfl

theorem Power.struckBy_cluster (p : Power) (margin : Bool) (now : Nat) : (p.struckBy margin now).cluster = p.cluster := by
  cases margin with
  | false => rfl
  | true => exact Power.raise_cluster _ now

/-- The package's sums are not of a power block. -/
theorem State.powerOf_tally (s : State) (f : Telemetry → Telemetry) (c : Nat) : (s.tally f).powerOf c = s.powerOf c := rfl

theorem execUncorrectableError_idle (h : s.strikes c x = false ∨ s.windowOver c = true) : exec (.uncorrectableError c x) s = .next s := by
  refine congrArg Host.Outcome.next (if_pos ?_)
  rcases h with h | h <;> simp [h]

/-- An error that strikes in a tick that ends no window passes the guard of UNCORRECTABLE_ERROR. -/
theorem uncorrectableError_passes (hc : c < 96) (h : s.strikes c x = true) (hw : s.windowOver c = false) :
    ¬ (!s.strikes c x || s.windowOver c || decide (Config.clusters ≤ c)) = true := by
  rw [h, hw, Bool.not_true, Bool.or_self, Bool.false_or, decide_eq_true_eq]
  exact Nat.not_le.mpr hc

theorem execUncorrectableError_store {core : Nat} {pc : Lane} {w : Nat} {bits : Word} (hc : c < 96)
    (h : s.strikes c (.store core pc w bits) = true) (hw : s.windowOver c = false) :
    exec (.uncorrectableError c (.store core pc w bits)) s = .next (s.poisonData (.store core pc w bits)) :=
  congrArg Host.Outcome.next (if_neg (uncorrectableError_passes hc h hw))

theorem execUncorrectableError_coded (hc : c < 96) (h : s.strikes c x = true) (hw : s.windowOver c = false) (hx : codedTarget x = true) :
    exec (.uncorrectableError c x) s = .next (
      ((s.poisonData x).updPower c fun p => p.struckBy (decide (0 < (s.powerOf c).u.toNat)) s.now).tally fun t =>
        { t with softUnc := satInc t.softUnc, margin := if decide (0 < (s.powerOf c).u.toNat) then satInc t.margin else t.margin }) :=
  have hcoded : ¬ (!codedTarget x) = true := by simp [hx]
  congrArg Host.Outcome.next ((if_neg (uncorrectableError_passes hc h hw)).trans (if_neg hcoded))

theorem uncorrectableError_spec (hc : c < 96) (h : s.strikes c x = true) (hw : s.windowOver c = false) (hx : codedTarget x = true) :
    ∃ t, exec (.uncorrectableError c x) s = .next t ∧ t.powerOf c = (s.powerOf c).hit s.now ∧ t.mem = s.mem ∧
      t.skeins = (s.poisonData x).skeins ∧ t.poisoned = (s.poisonData x).poisoned ∧ t.sums.softUnc = satInc s.sums.softUnc := by
  have hrest := s.poisonData_rest hx
  have hpower : (s.poisonData x).powerOf c = s.powerOf c := by rw [hrest]; rfl
  have hmem : (s.poisonData x).mem = s.mem := by rw [hrest]
  have hsums : (s.poisonData x).sums = s.sums := by rw [hrest]
  refine ⟨_, execUncorrectableError_coded hc h hw hx, ?_, hmem, rfl, rfl, congrArg (fun t : Telemetry => satInc t.softUnc) hsums⟩
  rw [State.powerOf_tally, State.powerOf_updPower_same _ c fun p => p.struckBy_cluster _ _, hpower, Power.struckBy_eq_hit]

end Struck

/-! ### Windows and counts -/

section Counts
variable {s : State} {c : Nat}

/-- A power block after a correctable error. -/
def Power.corrected (p : Power) (undervolts : Bool) : Power :=
  { p with corr := satInc p.corr, window := if undervolts then p.window + 1 else p.window }

theorem execCorrectableError_counts (hc : c < 96) : exec (.correctableError c) s = .next (
    (s.updPower c fun p => p.corrected (s.undervolts c)).tally fun t => { t with softCor := satInc t.softCor }) :=
  congrArg Host.Outcome.next (if_neg (Nat.not_le.mpr hc))

theorem correctableError_spec (hc : c < 96) : ∃ t, exec (.correctableError c) s = .next t ∧
    { s with sums := t.sums }.Powered t c ((s.powerOf c).corrected (s.undervolts c)) ∧ t.sums.softCor = satInc s.sums.softCor := by
  refine ⟨_, execCorrectableError_counts hc, ⟨rfl, ?_, fun d hd => ?_⟩, rfl⟩
  · rw [State.powerOf_tally, State.powerOf_updPower_same s c (f := fun p => p.corrected (s.undervolts c)) fun _ => rfl]
  · rw [State.powerOf_tally, State.powerOf_updPower_other s c hd]
    rfl

theorem execEccWindow_early (h : s.now < (s.powerOf c).since + 1000000) : exec (.eccWindow c) s = .next s :=
  congrArg Host.Outcome.next (if_pos (by simp [h]))

/-- U after a window (R394). -/
def State.windowU (s : State) (c : Nat) : Nat :=
  let p := s.powerOf c
  if s.undervolts c = false then p.u.toNat else if p.thr.toNat ≤ p.window then p.u.toNat - 5 else if p.struck then p.u.toNat
    else min (p.u.toNat + 5) (120 - 20 * p.raises.length)

theorem execEccWindow_ends (hc : c < 96) (h : (s.powerOf c).since + 1000000 ≤ s.now) : exec (.eccWindow c) s = .next (s.updPower c fun p =>
    { p with u := BitVec.ofNat 8 (s.windowU c), since := p.since + 1000000, window := 0, struck := false }) := by
  have hgo : ¬ (decide (s.now < (s.powerOf c).since + 1000000) || decide (Config.clusters ≤ c)) = true := by
    rw [Bool.or_eq_true, decide_eq_true_eq, decide_eq_true_eq]
    exact not_or.mpr ⟨Nat.not_lt.mpr h, Nat.not_le.mpr hc⟩
  have hu : (if (!s.undervolts c) = true then (s.powerOf c).u.toNat
      else if (s.powerOf c).thr.toNat ≤ (s.powerOf c).window then (s.powerOf c).u.toNat - 5
      else if (s.powerOf c).struck then (s.powerOf c).u.toNat else min ((s.powerOf c).u.toNat + 5) (s.powerOf c).umax) = s.windowU c :=
    if_congr (Bool.not_eq_true' _).to_iff rfl rfl
  rw [← hu]
  exact congrArg Host.Outcome.next (if_neg hgo)

theorem execTelemetryWindow_early (watts temp : Nat) (h : s.now < s.telemetryAt + 10000000) :
    exec (.telemetryWindow watts temp) s = .next s := congrArg Host.Outcome.next (if_pos h)

theorem execTelemetryWindow_shows (watts temp : Nat) (h : s.telemetryAt + 10000000 ≤ s.now) :
    exec (.telemetryWindow watts temp) s = .next
      { s with telemetryAt := s.telemetryAt + 10000000
               telemetry := { s.sums with watts := BitVec.ofNat 16 watts, temp := BitVec.ofNat 16 temp
                                          window := satInc s.telemetry.window } } :=
  congrArg Host.Outcome.next (if_neg (Nat.not_lt.mpr h))

end Counts

theorem claim_errorSteps : Claim.ErrorSteps := by
  intro c s hc p
  refine ⟨correctableError_spec hc, fun x => execUncorrectableError_idle, fun core pc w bits h hw => ⟨_, execUncorrectableError_store hc h hw, rfl, ?_⟩,
    fun x h hw hx => ?_, execEccWindow_early,
    fun h => ⟨_, s.windowU c, execEccWindow_ends hc h, s.updPower_powered c fun _ => rfl, rfl⟩,
    ⟨_, rfl, s.updPower_powered c fun _ => rfl⟩, fun watts temp => ⟨execTelemetryWindow_early watts temp, execTelemetryWindow_shows watts temp⟩⟩
  · simp [State.poisonData]
  · obtain ⟨t, hexec, hpower, hmem, hskeins, hpoisoned, hsums⟩ := uncorrectableError_spec hc h hw hx
    refine ⟨t, hexec, hmem, by rw [hpower]; rfl, by rw [hpower]; rfl, hsums, by rw [hpower, Power.hit_length], by rw [hpower]; rfl, ?_, ?_⟩
    · rintro key rfl
      refine ⟨?_, hskeins⟩
      rw [State.poisonAt, hpoisoned]
      exact s.poisonData_memory key
    · rintro u r l k rfl hk
      have hthere : t.sk? u = some (k.poisonLane r.toNat l) := by
        rw [State.sk?, hskeins, State.poisonData_register]
        exact (State.updSk_became hk (f := fun k => k.poisonLane r.toNat l) fun _ => rfl).there
      refine ⟨_, hthere, ?_, fun n hn hne => ?_⟩
      · rw [k.poisonLane_reg _ _ r.isLt, if_pos rfl]
      · rw [k.poisonLane_reg _ _ hn, if_neg hne]

end Sys2Proof.Machine

/-- Settles O59: each step is its equation, and a power block changed is read back in its cluster alone. -/
theorem timePowerErrors : Obligations.TimePowerErrors :=
  ⟨Sys2Proof.Machine.claim_domainTime, Sys2Proof.Machine.claim_powerSettings, Sys2Proof.Machine.claim_errorSteps⟩
end

section
/-!
SUPPORT. Rounding a value that its format holds (R123, R138), and the branches of a sum and a product for zeros, infinities and NaNs
(R184).
-/

namespace Sys2Proof.Machine

/-! ### Rounding where the mantissa already stands in units of the format -/

theorem blen_le {m k : Nat} (h : m < 2 ^ k) : blen m ≤ k := by
  unfold blen
  split
  · exact Nat.zero_le k
  · next hm => exact (Nat.log2_lt hm).mpr h

theorem blen_eq {m k : Nat} (hlo : 2 ^ k ≤ m) (hhi : m < 2 ^ (k + 1)) : blen m = k + 1 := by
  have hm : m ≠ 0 := Nat.ne_of_gt (Nat.lt_of_lt_of_le (Nat.two_pow_pos k) hlo)
  rw [blen, if_neg hm, (Nat.log2_eq_iff hm).mpr ⟨hlo, hhi⟩]

/-- The unit that rounding takes for m × 2^e is 2^e itself. -/
def Fmt.Exact (F : Fmt) (m : Nat) (e : Int) : Prop := max (e + blen m - (F.fbits + 1)) F.qmin = e

/-- The magnitude pattern of m × 2^e in units of 2^e. -/
def Fmt.pattern (F : Fmt) (m : Nat) (e : Int) : Nat := (e - F.qmin).toNat * 2 ^ F.fbits + m

theorem roundAt_unit (mode : BitVec 2) (neg : Bool) (m : Nat) (e : Int) (stk : Bool) : roundAt mode neg m e e stk = (m, stk) := by
  simp [roundAt]

theorem roundCore_exact {F : Fmt} {m : Nat} {e : Int} (h : F.Exact m e) (mode : BitVec 2) (neg : Bool) :
    ∃ tiny, roundCore F mode neg m e false = (F.pattern m e, false, tiny) := by
  unfold Fmt.Exact at h
  simp only [roundCore, h, roundAt_unit]
  exact ⟨_, rfl⟩

theorem Fmt.Exact.pattern_zero {F : Fmt} {e : Int} (h : F.Exact 0 e) : F.pattern 0 e = 0 := by
  have he : e = F.qmin := by
    simp only [Fmt.Exact, blen, if_true] at h
    omega
  simp [Fmt.pattern, he]

/-- Round of a value in units of the format, not above its greatest, has no flag and gives its pattern. -/
theorem roundF_exact {F : Fmt} {m : Nat} {e : Int} (h : F.Exact m e) (hfit : F.pattern m e ≤ F.maxPat) (mode : BitVec 2) (neg : Bool) :
    roundF F mode false neg m e = (withSign F neg (F.pattern m e), 0) := by
  by_cases hm : m = 0
  · subst hm
    rw [roundF, if_pos rfl, h.pattern_zero]
  · obtain ⟨tiny, hcore⟩ := roundCore_exact h mode neg
    simp [roundF, hm, hcore, Nat.not_lt.mpr hfit, flagIf]

/-! ### What a pattern decodes to -/

theorem exact_subnormal {F : Fmt} {m : Nat} (h : m < 2 ^ F.fbits) : F.Exact m F.qmin := by
  have hlen := blen_le h
  unfold Fmt.Exact
  omega

theorem exact_normal {F : Fmt} {m k : Nat} (hk : k ≠ 0) (hlo : 2 ^ F.fbits ≤ m) (hhi : m < 2 ^ (F.fbits + 1)) :
    F.Exact m (F.qmin + k - 1) := by
  have hlen := blen_eq hlo hhi
  unfold Fmt.Exact
  omega

theorem pattern_subnormal (F : Fmt) (m : Nat) : F.pattern m F.qmin = m := by simp [Fmt.pattern]

/-- The exponent and fraction bits of a normal magnitude, put together again. -/
theorem pattern_normal (F : Fmt) {a : Nat} (h : a / 2 ^ F.fbits ≠ 0) :
    F.pattern (a % 2 ^ F.fbits + 2 ^ F.fbits) (F.qmin + (a / 2 ^ F.fbits : Nat) - 1) = a := by
  obtain ⟨d, hd⟩ := Nat.exists_eq_add_one_of_ne_zero h
  have hexp : (F.qmin + (d + 1 : Nat) - 1 - F.qmin).toNat = d := by omega
  calc F.pattern (a % 2 ^ F.fbits + 2 ^ F.fbits) (F.qmin + (a / 2 ^ F.fbits : Nat) - 1)
      = d * 2 ^ F.fbits + (a % 2 ^ F.fbits + 2 ^ F.fbits) := by rw [hd, Fmt.pattern, hexp]
    _ = (d + 1) * 2 ^ F.fbits + a % 2 ^ F.fbits := by ring
    _ = a := by rw [← hd, Nat.div_add_mod']

/-- A finite value that a pattern decodes to: its sign bit, and a mantissa in units of the format whose pattern is the magnitude. -/
theorem decodeF_fin {F : Fmt} {x : Nat} {n : Bool} {m : Nat} {e : Int} (h : decodeF F x = .fin n m e) :
    n = (x / F.top % 2 == 1) ∧ x % F.top ≤ F.maxPat ∧ F.Exact m e ∧ F.pattern m e = x % F.top := by
  have hfr : x % F.top % 2 ^ F.fbits < 2 ^ F.fbits := Nat.mod_lt _ (Nat.two_pow_pos _)
  unfold decodeF at h
  dsimp only at h
  split at h
  · split at h <;> cases h
  next hfin =>
  split at h
  next hex =>
    have hmod : x % F.top % 2 ^ F.fbits = x % F.top := Nat.mod_eq_of_lt ((Nat.div_eq_zero_iff_lt (Nat.two_pow_pos _)).mp hex)
    cases h
    exact ⟨rfl, Nat.not_lt.mp hfin, exact_subnormal hfr, (pattern_subnormal F _).trans hmod⟩
  next hex =>
    cases h
    exact ⟨rfl, Nat.not_lt.mp hfin, exact_normal hex (by omega) (by omega), pattern_normal F hex⟩

/-- A pattern is its magnitude under its sign. -/
theorem withSign_decoded {F : Fmt} {x : Nat} (hw : 0 < F.w) (hx : x < 2 ^ F.w) : withSign F (x / F.top % 2 == 1) (x % F.top) = x := by
  have htwo : 2 ^ F.w = F.top * 2 := (Nat.two_pow_pred_mul_two hw).symm
  have hsign : x / F.top < 2 := Nat.div_lt_of_lt_mul (htwo ▸ hx)
  have hsplit := Nat.div_add_mod' x F.top
  rw [withSign, Nat.mod_eq_of_lt hsign]
  obtain h0 | h1 := Nat.le_one_iff_eq_zero_or_eq_one.mp (Nat.le_of_lt_succ hsign)
  · rw [h0] at hsplit ⊢
    simpa using hsplit
  · rw [h1] at hsplit ⊢
    simpa using hsplit

/-- R123, R138: what decodes to a finite value rounds back to itself, in every format. -/
theorem roundF_decodeF {F : Fmt} (hw : 0 < F.w) (mode : BitVec 2) {x : Nat} {n : Bool} {m : Nat} {e : Int} (hx : x < 2 ^ F.w)
    (h : decodeF F x = .fin n m e) : roundF F mode false n m e = (x, 0) := by
  obtain ⟨hn, hmax, hexact, hpat⟩ := decodeF_fin h
  rw [roundF_exact hexact (hpat ▸ hmax), hpat, hn, withSign_decoded hw hx]

theorem claim_roundingKeepsFormatValues : Claim.RoundingKeepsFormatValues := by
  intro F hF rm x n m e hx h
  have hw : ∀ F ∈ [f16, bf16, f32, f64], 0 < F.w := by decide
  exact roundF_decodeF (hw F hF) rm hx h

/-! ### Sums and products of zeros, infinities and NaNs (R184) -/

section Special
variable (F : Fmt) (c : FCtl)

theorem roundDy_zero (mode : BitVec 2) (fzo zneg : Bool) (e : Int) : roundDy F mode fzo zneg ⟨0, e⟩ = (if zneg then 2 ^ (F.w - 1) else 0, 0) := by
  simp [roundDy, withSign, Fmt.top]

@[simp] theorem signed_zero (n : Bool) : signed n 0 = 0 := by cases n <;> rfl

theorem fAddV_zeros (n n' : Bool) (e e' : Int) :
    fAddV F c (.fin n 0 e) (.fin n' 0 e') = (if (if n = n' then n else c.rm == 3) then 2 ^ (F.w - 1) else 0, 0) := by
  have hsum : (FVal.fin n 0 e).dy.add (FVal.fin n' 0 e').dy = ⟨0, e'⟩ := by simp [FVal.dy, Dy.add]
  have hround : fAddV F c (.fin n 0 e) (.fin n' 0 e') =
      roundDy F c.rm c.fzo (if n = n' then n else c.rm == 3) ((FVal.fin n 0 e).dy.add (FVal.fin n' 0 e').dy) := rfl
  rw [hround, hsum, roundDy_zero]

theorem fAddV_opposite_inf (n : Bool) : fAddV F c (.inf n) (.inf !n) = (F.canon, fNV) := by
  simp [fAddV, FVal.isNan, FVal.isInf, FVal.neg]

theorem fMulV_zero_inf (n n' : Bool) (e : Int) : fMulV F c (.fin n 0 e) (.inf n') = (F.canon, fNV) := rfl

theorem fAddV_nan {x y : FVal} (h : (x.isNan || y.isNan) = true) : fAddV F c x y = (F.canon, sigNV [x, y]) := if_pos h

theorem fMulV_nan {x y : FVal} (h : (x.isNan || y.isNan) = true) : fMulV F c x y = (F.canon, sigNV [x, y]) := if_pos h

end Special

theorem sigNV_quiet {x y : FVal} (hx : x.isSig = false) (hy : y.isSig = false) : sigNV [x, y] = 0 := by simp [sigNV, flagIf, hx, hy]

theorem sigNV_signalling {x y : FVal} (h : (x.isSig || y.isSig) = true) : sigNV [x, y] = fNV := by
  rw [Bool.or_eq_true] at h
  simp [sigNV, flagIf, h]

theorem claim_floatSpecialCases : Claim.FloatSpecialCases := by
  intro F _ c n e e' y
  have hdown : (c.rm == 3) = true ↔ c.rm.toNat = 3 := by rw [beq_iff_eq, ← BitVec.toNat_inj]; rfl
  have hlast : (y.isNan || true) = true := Bool.or_true _
  refine ⟨?_, ?_, fAddV_opposite_inf F c n, fMulV_zero_inf F c n n e, fun hy => ⟨?_, ?_, ?_, ?_⟩, ?_, ?_⟩
  · rw [fAddV_zeros, if_neg (Bool.eq_not_self n).mp]
    simp only [hdown]
  · rw [fAddV_zeros, if_pos rfl]
  · rw [fAddV_nan F c rfl, sigNV_quiet rfl hy]
  · rw [fAddV_nan F c hlast, sigNV_quiet hy rfl]
  · rw [fMulV_nan F c rfl, sigNV_quiet rfl hy]
  · rw [fMulV_nan F c hlast, sigNV_quiet hy rfl]
  · rw [fAddV_nan F c rfl, sigNV_signalling rfl]
  · rw [fMulV_nan F c hlast, sigNV_signalling (Bool.or_true _)]

end Sys2Proof.Machine

/-- Settles O15: a finite pattern's mantissa stands in units of its format already, and each special case takes its own branch of the sum
or the product. -/
theorem floatRounding : Obligations.FloatRounding :=
  ⟨Sys2Proof.Machine.claim_roundingKeepsFormatValues, Sys2Proof.Machine.claim_floatSpecialCases⟩
end

section
/-!
SUPPORT. Where a completion flag counts more than R143 allows, a clause that names it for both sets holds an instruction that no lane
passes too, and the statement about `qnt` and `dqnt` asks no room there.
-/

namespace Sys2Proof.Machine

/-- Under a clause of element size 32 that names the flag 0 for both sets, one thread whose predicate 0 is clear; every flag counts 64. -/
def fullFlags : State :=
  { State.reset with
    skeins := [{ uid := 1, flags := List.replicate 12 64, threads := [{ exited := false }] }]
    issue := { sk := 1, mask := 1, word := encodeHeader ⟨some 0, some 0, 0, .matrix, .e32, 1⟩ } }

theorem fullFlags_none_pass : ¬ fullFlags.Some (.pos 0) := by
  have hnone : ∀ l, l < 32 → fullFlags.passing (.pos 0) l = false := by decide
  rintro ⟨l, hl, hpass⟩
  exact absurd (hpass.symm.trans (hnone l hl)) (by decide)

theorem fullFlags_settled (srcs dsts : List Nat) : fullFlags.Settled srcs dsts where
  landed _ _ := rfl
  free _ _ := rfl
  sound r _ := by
    show ((List.replicate 64 ({} : VReg)).getD r {}).poison = 0
    rw [List.getD_eq_getElem?_getD, List.getElem?_replicate]
    split <;> rfl

/-- A `dqnt` of the panel from r0 on, its header in lane 0 of r8, to r12 and the registers after it. -/
theorem fullFlags_holds : exec (.dqnt (.pos 0) 12 0 ⟨8, 0, false, false⟩) fullFlags = .next { fullFlags with blocked := true } := rfl

theorem not_claim_quantiseBegins : ¬ Claim.QuantiseBegins := by
  intro h
  obtain ⟨-, hes⟩ := h (.pos 0) 12 0 ⟨8, 0, false, false⟩ 0 0 false false false fullFlags ⟨_, rfl⟩
  obtain ⟨-, hdqnt⟩ := hes (by decide) (by decide)
  obtain ⟨hidle, -⟩ := hdqnt (by decide) (by decide) nofun (by decide) (by decide) (by decide) (fullFlags_settled _ _)
  obtain ⟨t, hexec, hmoved⟩ := hidle fullFlags_none_pass
  rw [fullFlags_holds] at hexec
  cases hexec
  exact absurd (congrArg State.blocked hmoved.only.1) (by decide)

end Sys2Proof.Machine

/-- Refutes O46: where the flag that a clause names for both sets counts 64, past the limit of R143, a `dqnt` that no lane passes is held
at issue and does not move on. -/
theorem not_panels : ¬ Obligations.Panels := by
  rintro ⟨-, hquantise, -⟩
  exact Sys2Proof.Machine.not_claim_quantiseBegins hquantise
end

section
/-!
SUPPORT. Words and their fields (R146): a word is the one that a format lays out exactly where its fields are the ones laid there, and the
codes of the small fields read back (R140, R148, R149, R160 to R162).
-/

namespace Sys2Proof

/-! ### Fields of a word -/

theorem append_eq_append {n m : Nat} {a c : BitVec n} {b d : BitVec m} : a ++ b = c ++ d ↔ a = c ∧ b = d := by
  refine ⟨fun h => ⟨?_, ?_⟩, fun ⟨ha, hb⟩ => by rw [ha, hb]⟩
  · simpa only [BitVec.extractLsb'_append_eq_left] using congrArg (BitVec.extractLsb' m n) h
  · simpa only [BitVec.extractLsb'_append_eq_right] using congrArg (BitVec.extractLsb' 0 m) h

/-- The field of a word from bit `lo` on, as wide as `y`, is `y`. -/
def Word.Has (x : Word) (lo : Nat) {n : Nat} (y : BitVec n) : Prop := Word.fld x lo n = y

@[simp] theorem Word.has_iff {x : Word} {lo n : Nat} {y : BitVec n} : Word.Has x lo y ↔ Word.fld x lo n = y := Iff.rfl

/-- Two fields side by side stand in a word where each stands in its place. -/
theorem Word.has_append {n m : Nat} {x : Word} {lo : Nat} {a : BitVec n} {b : BitVec m} :
    Word.Has x lo (no_index (a ++ b)) ↔ Word.Has x (lo + m) a ∧ Word.Has x lo b := by
  rw [Word.Has, Word.fld, ← BitVec.extractLsb'_append_extractLsb'_eq_extractLsb' (start₂ := lo + m) rfl, append_eq_append]
  rfl

theorem Word.fld_fld {x : Word} {lo n j k : Nat} (h : j + k ≤ n) : (Word.fld x lo n).extractLsb' j k = Word.fld x (lo + j) k := by
  ext l hl
  simp [Nat.add_assoc, show j + l < n by omega]

@[simp] theorem Word.fld_eq_bit1 {x : Word} {i : Nat} {b : Bool} : Word.fld x i 1 = bit1 b ↔ Word.bit x i = b := by
  have hfld : Word.fld x i 1 = bit1 (Word.bit x i) := by
    ext j hj
    obtain rfl : j = 0 := by omega
    simp [bit1]
  rw [hfld, bit1, bit1, BitVec.ofBool_eq_iff_eq]

@[simp] theorem Word.fld_eq_one {x : Word} {i : Nat} : Word.fld x i 1 = 1#1 ↔ Word.bit x i = true := Word.fld_eq_bit1 (b := true)

@[simp] theorem Word.fld_eq_zero {x : Word} {i : Nat} : Word.fld x i 1 = 0#1 ↔ Word.bit x i = false := Word.fld_eq_bit1 (b := false)

theorem Word.eq_word {n : Nat} {x : Word} {y : BitVec n} (hn : n = 32) : x = word y ↔ Word.Has x 0 y := by
  subst hn
  simp [word]

/-! ### Codes of small fields -/

/-- A code is read by its inverse where each side undoes the other. -/
theorem reads_back {α β : Type} {read : β → Option α} {code : α → β} (hread : ∀ b, ∀ c ∈ read b, code c = b)
    (hcode : ∀ c, read (code c) = some c) {b : β} {c : α} : read b = some c ↔ b = code c :=
  ⟨fun h => (hread b c h).symm, fun h => h ▸ hcode c⟩

@[simp] theorem Guard.ofBits_bits (g : Guard) : Guard.ofBits g.bits = some g := by
  cases g with
  | always => rfl
  | pos d => revert d; decide
  | neg d => revert d; decide

@[simp] theorem Guard.bits_always : Guard.always.bits = 0#4 := rfl

@[simp] theorem Guard.ofBits_eq_some {b : BitVec 4} {g : Guard} : Guard.ofBits b = some g ↔ b = g.bits :=
  reads_back (by decide) Guard.ofBits_bits

@[simp] theorem Perm.ofBits_bits (c : Perm) : Perm.ofBits c.bits = some c := by cases c <;> rfl

@[simp] theorem Perm.ofBits_eq_some {b : BitVec 3} {p : Perm} : Perm.ofBits b = some p ↔ b = p.bits :=
  reads_back (by decide) Perm.ofBits_bits


@[simp] theorem Ty.ofBits_bits (c : Ty) : Ty.ofBits c.bits = some c := by cases c <;> rfl

@[simp] theorem Ty.ofBits_eq_some {b : BitVec 5} {c : Ty} : Ty.ofBits b = some c ↔ b = c.bits :=
  reads_back (by decide) Ty.ofBits_bits

@[simp] theorem CmpCond.ofBits_bits (c : CmpCond) : CmpCond.ofBits c.bits = some c := by cases c <;> rfl

@[simp] theorem CmpCond.ofBits_eq_some {b : BitVec 6} {c : CmpCond} : CmpCond.ofBits b = some c ↔ b = c.bits :=
  reads_back (by decide) CmpCond.ofBits_bits

@[simp] theorem FCond.ofBits_bits (c : FCond) : FCond.ofBits c.bits = some c := by cases c <;> rfl

@[simp] theorem FCond.ofBits_eq_some {b : BitVec 6} {c : FCond} : FCond.ofBits b = some c ↔ b = c.bits :=
  reads_back (by decide) FCond.ofBits_bits

@[simp] theorem ShflMode.ofBits_bits (c : ShflMode) : ShflMode.ofBits c.bits = some c := by cases c <;> rfl

@[simp] theorem ShflMode.ofBits_eq_some {b : BitVec 6} {c : ShflMode} : ShflMode.ofBits b = some c ↔ b = c.bits :=
  reads_back (by decide) ShflMode.ofBits_bits

@[simp] theorem VoteOp.ofBits_code (c : VoteOp) : VoteOp.ofBits c.code = some c := by cases c <;> rfl

@[simp] theorem VoteOp.ofBits_eq_some {b : BitVec 6} {c : VoteOp} : VoteOp.ofBits b = some c ↔ b = c.code :=
  reads_back (by decide) VoteOp.ofBits_code

@[simp] theorem ReduxOp.ofBits_bits (c : ReduxOp) : ReduxOp.ofBits c.bits = some c := by cases c <;> rfl

@[simp] theorem ReduxOp.ofBits_eq_some {b : BitVec 6} {c : ReduxOp} : ReduxOp.ofBits b = some c ↔ b = c.bits :=
  reads_back (by decide) ReduxOp.ofBits_bits

@[simp] theorem AmoOp.ofBits_bits (c : AmoOp) : AmoOp.ofBits c.bits = some c := by cases c <;> rfl

@[simp] theorem AmoOp.ofBits_eq_some {b : BitVec 6} {c : AmoOp} : AmoOp.ofBits b = some c ↔ b = c.bits :=
  reads_back (by decide) AmoOp.ofBits_bits

theorem Perm.ofBits_eq_none {b : BitVec 3} : Perm.ofBits b = none ↔ b = 7 := by revert b; decide

@[simp] theorem FCtl.bits_ofBits (b : BitVec 6) : (FCtl.ofBits b).bits = b := by revert b; decide

@[simp] theorem FCtl.ofBits_bits (c : FCtl) : FCtl.ofBits c.bits = c := by
  obtain ⟨rm, h, fzo, fzi, satc⟩ := c
  revert rm h fzo fzi satc
  decide

/-! ### The formats of R146 -/

theorem Word.eq_encV {w : Word} {op : BitVec 7} {d a b : Reg} {g : BitVec 4} {m : BitVec 3} :
    w = encV op d a b g m ↔ Word.fld w 25 7 = op ∧ VW.ofWord w = ⟨d, a, b, g, m⟩ := by
  simp [encV, Word.eq_word, ↓Word.has_append, and_assoc, VW.ofWord]

theorem Word.eq_encM {w : Word} {op : BitVec 7} {d : Reg} {m : MemOp} {order : BitVec 2} {g : BitVec 4} {size : BitVec 3} :
    w = encM op d m order g size ↔ Word.fld w 25 7 = op ∧ MW.ofWord w = ⟨d, m.stream, order, m.off, g, size⟩ := by
  simp [encM, Word.eq_word, ↓Word.has_append, and_assoc, MW.ofWord]

theorem Word.eq_encB {w : Word} {op : BitVec 7} {g : BitVec 4} {off : BitVec 21} :
    w = encB op g off ↔ Word.fld w 25 7 = op ∧ Word.fld w 21 4 = g ∧ Word.fld w 0 21 = off := by
  simp [encB, Word.eq_word, ↓Word.has_append, and_assoc]

theorem Word.eq_encI {w : Word} {op : BitVec 7} {d a : Reg} {imm : BitVec 9} {g : BitVec 4} :
    w = encI op d a imm g ↔
      Word.fld w 25 7 = op ∧ Word.fld w 19 6 = d ∧ Word.fld w 13 6 = a ∧ Word.fld w 4 9 = imm ∧ Word.fld w 0 4 = g := by
  simp [encI, Word.eq_word, ↓Word.has_append, and_assoc]

theorem Word.eq_encX {n : Nat} {x : Word} {c : Reg} {fn : BitVec 6} {lo : BitVec n} (hn : n = 20) :
    x = encX c fn lo ↔ Word.c x = c ∧ Word.fn x = fn ∧ Word.Has x 0 lo := by
  subst hn
  simp [encX, Word.eq_word, ↓Word.has_append, and_assoc]

theorem Word.eq_encFX {n : Nat} {x : Word} {c : Reg} {fn : BitVec n} {ctl : FCtl} (hn : n = 10) :
    x = encFX c fn ctl ↔
      Word.c x = c ∧ Word.Has x 16 fn ∧ Word.fld x 6 10 = 0 ∧ Word.fld x 0 6 = ctl.bits := by
  subst hn
  simp [encFX, Word.eq_word, ↓Word.has_append, and_assoc]

/-! ### The fields of words laid out -/

section Parts

variable {n m i k : Nat} {a : BitVec n} {b : BitVec m}

/-! The widths of fields laid side by side add up to a numeral, which hides the sum from `simp`: hence `no_index`. -/

@[simp] theorem extract_upper (h : m ≤ i) : BitVec.extractLsb' i k (no_index (a ++ b)) = BitVec.extractLsb' (i - m) k a :=
  BitVec.extractLsb'_append_eq_of_le h

@[simp] theorem extract_lower (h : i + k ≤ m) : BitVec.extractLsb' i k (no_index (a ++ b)) = BitVec.extractLsb' i k b :=
  BitVec.extractLsb'_append_eq_of_add_le h

@[simp] theorem bit1_beq_one (b : Bool) : (bit1 b == 1#1) = b := by cases b <;> rfl

theorem extract_zeros : BitVec.extractLsb' 0 3 (no_index (a ++ 0#1 ++ 0#1 ++ 0#1)) = 0#3 := by
  ext j hj
  obtain rfl | rfl | rfl : j = 0 ∨ j = 1 ∨ j = 2 := by omega
  all_goals simp [BitVec.getElem_append]

end Parts

@[simp] theorem Word.fld_word {n : Nat} {y : BitVec n} {i k : Nat} (hn : n = 32) : Word.fld (word y) i k = y.extractLsb' i k := by
  subst hn
  simp [word]

@[simp] theorem Word.getElem_word {n : Nat} {y : BitVec n} {i : Nat} (hn : n = 32) {h : i < 32} :
    (word y)[i]'h = (y.extractLsb' i 1 == 1#1) := by
  rw [← Word.fld_word hn, Bool.eq_iff_iff, beq_iff_eq, Word.fld_eq_one, Word.bit, BitVec.getLsbD_eq_getElem h]

/-- The size field of a memory word: X above the access width. -/
@[simp] theorem x_of_size (x : Bool) (w : BitVec 2) : (bit1 x ++ w)[2] = x := by
  revert w
  cases x <;> decide

@[simp] theorem no_x_of_size (w : BitVec 2) : (0#1 ++ w)[2] = false := x_of_size false w

section FirstWord

variable {op : BitVec 7} {d a b : Reg} {mo : MemOp} {order : BitVec 2} {g : BitVec 4} {m : BitVec 3}

theorem Word.opcode_encV : Word.opcode (encV op d a b g m) = op.toNat := by
  obtain ⟨hop, -⟩ := Word.eq_encV.mp (rfl : encV op d a b g m = _)
  rw [Word.opcode, hop]

theorem VW.ofWord_encV : VW.ofWord (encV op d a b g m) = ⟨d, a, b, g, m⟩ := by
  obtain ⟨-, hv⟩ := Word.eq_encV.mp (rfl : encV op d a b g m = _)
  exact hv

theorem Word.m_encV : Word.fld (encV op d a b g m) 0 3 = m := congrArg VW.m VW.ofWord_encV

theorem Word.order_encV : Word.fld (encV op d a b g m) 13 2 = a.extractLsb' 0 2 := by
  rw [encV, Word.fld_word rfl]
  simp

theorem Word.opcode_encM : Word.opcode (encM op d mo order g m) = op.toNat := by
  obtain ⟨hop, -⟩ := Word.eq_encM.mp (rfl : encM op d mo order g m = _)
  rw [Word.opcode, hop]

theorem MW.ofWord_encM : MW.ofWord (encM op d mo order g m) = ⟨d, mo.stream, order, mo.off, g, m⟩ := by
  obtain ⟨-, hv⟩ := Word.eq_encM.mp (rfl : encM op d mo order g m = _)
  exact hv

theorem Word.m_encM : Word.fld (encM op d mo order g m) 0 3 = m := congrArg MW.size MW.ofWord_encM

theorem Word.order_encM : Word.fld (encM op d mo order g m) 13 2 = order := congrArg MW.order MW.ofWord_encM

end FirstWord

section ExtensionWord

variable {n i k : Nat} {c : Reg} {fn : BitVec 6} {lo : BitVec n}

@[simp] theorem Word.c_encX (hn : n = 20) : Word.c (encX c fn lo) = c := by
  obtain ⟨hc, -, -⟩ := (Word.eq_encX hn).mp (rfl : encX c fn lo = _)
  exact hc

@[simp] theorem Word.fn_encX (hn : n = 20) : Word.fn (encX c fn lo) = fn := by
  obtain ⟨-, hfn, -⟩ := (Word.eq_encX hn).mp (rfl : encX c fn lo = _)
  exact hfn

@[simp] theorem Word.fld_encX (hn : n = 20) (hk : i + k ≤ 20) : Word.fld (encX c fn lo) i k = lo.extractLsb' i k := by
  subst hn
  rw [encX, Word.fld_word rfl, BitVec.extractLsb'_append_eq_of_add_le hk]

@[simp] theorem Word.getElem_encX (hn : n = 20) (hi : i < 20) {h : i < 32} : (encX c fn lo)[i]'h = (lo.extractLsb' i 1 == 1#1) := by
  rw [← Word.fld_encX hn (Nat.succ_le_of_lt hi), Bool.eq_iff_iff, beq_iff_eq, Word.fld_eq_one, Word.bit, BitVec.getLsbD_eq_getElem h]

end ExtensionWord

section FloatControl

variable {n i k : Nat} {c : Reg} {fn : BitVec n} {ctl : FCtl} (hn : n = 10)
include hn

@[simp] theorem Word.c_encFX : Word.c (encFX c fn ctl) = c := by
  obtain ⟨hc, -, -, -⟩ := (Word.eq_encFX hn).mp (rfl : encFX c fn ctl = _)
  exact hc

@[simp] theorem Word.fld_encFX_fn (hi : 16 ≤ i) (hk : i + k ≤ 26) : Word.fld (encFX c fn ctl) i k = fn.extractLsb' (i - 16) k := by
  subst hn
  rw [encFX, Word.fld_word rfl, BitVec.extractLsb'_append_eq_of_le (by omega), BitVec.extractLsb'_append_eq_of_le (by omega),
    BitVec.extractLsb'_append_eq_of_add_le (by omega), Nat.sub_sub]

@[simp] theorem Word.fld_encFX_zero : Word.fld (encFX c fn ctl) 6 10 = 0 := by
  obtain ⟨-, -, hz, -⟩ := (Word.eq_encFX hn).mp (rfl : encFX c fn ctl = _)
  exact hz

@[simp] theorem Word.fld_encFX_ctl : Word.fld (encFX c fn ctl) 0 6 = ctl.bits := by
  obtain ⟨-, -, -, hctl⟩ := (Word.eq_encFX hn).mp (rfl : encFX c fn ctl = _)
  exact hctl

end FloatControl

/-! ### The checks of R164 -/

section Checks

variable {k : Dec} {i : Instr}

@[simp] theorem withG_bits {g : Guard} {k : Guard → Dec} : withG g.bits k = k g := by simp only [withG, Guard.ofBits_bits]

@[simp] theorem withP_bits {p : Perm} {k : Perm → Dec} : withP p.bits k = k p := by simp only [withP, Perm.ofBits_bits]

@[simp] theorem withP_zero {k : Perm → Dec} : withP 0#3 k = k .ident := rfl

@[simp] theorem req_ok {b : Bool} {c : Cause} : req b c k = .ok i ↔ k = .ok i ∧ b = true := by
  cases b <;> simp [req]

@[simp] theorem withG_ok {b : BitVec 4} {k : Guard → Dec} : withG b k = .ok i ↔ ∃ g, k g = .ok i ∧ b = g.bits := by
  simp only [← Guard.ofBits_eq_some, withG]
  cases Guard.ofBits b <;> simp

@[simp] theorem withP_ok {b : BitVec 3} {k : Perm → Dec} : withP b k = .ok i ↔ ∃ p, k p = .ok i ∧ b = p.bits := by
  simp only [← Perm.ofBits_eq_some, withP]
  cases Perm.ofBits b <;> simp

@[simp] theorem withF_ok {α : Type} {o : Option α} {k : α → Dec} : withF o k = .ok i ↔ ∃ v, k v = .ok i ∧ o = some v := by
  cases o <;> simp [withF]

@[simp] theorem noGuard_ok {b : BitVec 4} : noGuard b k = .ok i ↔ k = .ok i ∧ b = 0 := by
  simp [noGuard, and_comm]

end Checks

end Sys2Proof
end

section
/-!
SUPPORT. Each instruction's words read back (R146 to R163): its row's check finds the fields where the format laid them.
-/

namespace Sys2Proof

/-! ### Words of format V -/

/-- R164: the instruction of a V-format word, read from its opcode and fields. -/
def decodeV (es : Es) (op : Nat) (v : VW) (x : Word) : Dec :=
  if op < 0x20 then decodeInt op v x
  else if op < 0x38 then decodeFloat es op v x
  else if op < 0x50 then decodeLane es op v x
  else if op < 0x60 then decodeControl op v x
  else if op < 0x78 then decodeMatrix op v x
  else decodeAsync op v x

theorem decodeWord_m {es : Es} {w x : Word} {cls : Option Cls} {cat : ExtCat}
    (hop : opInfo (Word.opcode w) = some (.m, cls, cat)) : decodeWord es w x = decodeM (Word.opcode w) (.ofWord w) x := by
  simp only [decodeWord, hop]

theorem decodeWord_v {es : Es} {w x : Word} {cls : Option Cls} {cat : ExtCat}
    (hop : opInfo (Word.opcode w) = some (.v, cls, cat)) :
    decodeWord es w x = decodeV es (Word.opcode w) (.ofWord w) x := by
  simp only [decodeWord, hop, decodeV]

/-- R158, R163: whether an extension word follows, by the opcode and the two fields that may decide it. -/
def extFollows (op : Nat) (m : BitVec 3) (order : BitVec 2) : Bool :=
  match opInfo op with
  | some (_, _, .imm) => m == 7
  | some (_, _, .always) | some (_, _, .fpair) => true
  | some (_, _, .mem) => order != 0 || m.getLsbD 2
  | _ => false

theorem Word.hasExt_eq (w : Word) : Word.hasExt w = extFollows (Word.opcode w) (Word.fld w 0 3) (Word.fld w 13 2) := by
  rcases hinfo : opInfo (Word.opcode w) with _ | ⟨fmt, cls, _ | _ | _ | _ | _⟩ <;> simp [Word.hasExt, extFollows, hinfo]

/-- An instruction that its own words give back, the first of which says whether a second follows. -/
def ReadsBack (es : Es) (i : Instr) : Prop :=
  ∀ (w : Word) (r : List Word), encode i = w :: r →
    decodeWord es w (r.headD 0) = .ok i ∧ (Word.hasExt w = true ↔ r ≠ []) ∧ r.length ≤ 1

section Reads

variable {es : Es} {i : Instr} {op : BitVec 7} {d a b : Reg} {g : Guard} {m : BitVec 3} {cls : Option Cls} {cat : ExtCat}

theorem readsBack_of {w : Word} {r : List Word} (henc : encode i = w :: r) (hr : r.length = if Word.hasExt w then 1 else 0)
    (hdec : decodeWord es w (r.headD 0) = .ok i) : ReadsBack es i := by
  intro w' r' hw
  obtain ⟨rfl, rfl⟩ := List.cons.inj (henc.symm.trans hw)
  rw [← List.length_pos_iff, hr]
  refine ⟨hdec, ?_, ?_⟩ <;> split <;> simp_all

theorem readsBack_raw {g : BitVec 4} {r : List Word} (henc : encode i = encV op d a b g m :: r)
    (hop : opInfo op.toNat = some (.v, cls, cat)) (hr : r.length = if extFollows op.toNat m (a.extractLsb' 0 2) then 1 else 0)
    (hdec : decodeV es op.toNat ⟨d, a, b, g, m⟩ (r.headD 0) = .ok i) : ReadsBack es i := by
  refine readsBack_of henc ?_ ?_
  · rw [hr, Word.hasExt_eq, Word.opcode_encV, Word.m_encV, Word.order_encV]
  · rw [decodeWord_v (cls := cls) (cat := cat) (by rw [Word.opcode_encV, hop]), Word.opcode_encV, VW.ofWord_encV, hdec]

/-- A V-format word whose row begins with its guard. -/
theorem readsBack_v {r : List Word} {k : Guard → Dec} (henc : encode i = encV op d a b g.bits m :: r)
    (hop : opInfo op.toNat = some (.v, cls, cat)) (hr : r.length = if extFollows op.toNat m (a.extractLsb' 0 2) then 1 else 0)
    (hrow : decodeV es op.toNat ⟨d, a, b, g.bits, m⟩ (r.headD 0) = withG g.bits k) (hdec : k g = .ok i) : ReadsBack es i :=
  readsBack_raw henc hop hr (by rw [hrow, withG_bits, hdec])

theorem readsBack_m {mo : MemOp} {order : BitVec 2} {g : BitVec 4} {r : List Word} (henc : encode i = encM op d mo order g m :: r)
    (hop : opInfo op.toNat = some (.m, cls, cat)) (hr : r.length = if extFollows op.toNat m order then 1 else 0)
    (hdec : decodeM op.toNat ⟨d, mo.stream, order, mo.off, g, m⟩ (r.headD 0) = .ok i) : ReadsBack es i := by
  refine readsBack_of henc ?_ ?_
  · rw [hr, Word.hasExt_eq, Word.opcode_encM, Word.m_encM, Word.order_encM]
  · rw [decodeWord_m (cls := cls) (cat := cat) (by rw [Word.opcode_encM, hop]), Word.opcode_encM, MW.ofWord_encM, hdec]

theorem readsBack_b {off : BitVec 21} {g : BitVec 4} (henc : encode i = [encB op g off])
    (hop : opInfo op.toNat = some (.b, cls, .never)) (hdec : decodeB op.toNat g off = .ok i) : ReadsBack es i := by
  obtain ⟨hwop, hg, hoff⟩ := Word.eq_encB.mp (rfl : encB op g off = _)
  have hopc : Word.opcode (encB op g off) = op.toNat := by rw [Word.opcode, hwop]
  refine readsBack_of henc ?_ ?_
  · simp [Word.hasExt, hopc, hop]
  · simp [decodeWord, hopc, hop, hg, hoff, hdec]

/-- An Immediate opcode's register form. -/
theorem readsBack_reg {p : Perm} {reg : Guard → Reg → Reg → Reg → Perm → Instr} {imm : Guard → Reg → Reg → Word → Instr}
    (henc : encode (reg g d a b p) = encReg op g d a b p) (hop : opInfo op.toNat = some (.v, cls, .imm))
    (hdec : ∀ v x, decodeV es op.toNat v x = decImm v x reg imm) : ReadsBack es (reg g d a b p) := by
  refine readsBack_raw henc hop ?_ ?_
  · rw [extFollows, hop]
    cases p <;> rfl
  · simp [hdec, decImm]

/-- An Immediate opcode's immediate form. -/
theorem readsBack_imm {x : Word} {reg : Guard → Reg → Reg → Reg → Perm → Instr} {imm : Guard → Reg → Reg → Word → Instr}
    (henc : encode (imm g d a x) = encImm op g d a x) (hop : opInfo op.toNat = some (.v, cls, .imm))
    (hdec : ∀ v x, decodeV es op.toNat v x = decImm v x reg imm) : ReadsBack es (imm g d a x) := by
  refine readsBack_raw henc hop ?_ ?_
  · rw [extFollows, hop]
    rfl
  · simp [hdec, decImm, Perm.ofBits_eq_none.mpr]

theorem readsBack_un {k : Guard → Reg → Reg → Instr} (henc : encode (k g d a) = encUn op g d a)
    (hop : opInfo op.toNat = some (.v, cls, .never)) (hdec : ∀ v x, decodeV es op.toNat v x = decUn v k) : ReadsBack es (k g d a) := by
  refine readsBack_raw henc hop ?_ ?_
  · rw [extFollows, hop]
    rfl
  · simp [hdec, decUn]

section Float

variable {s : FSpec} {c : Reg} {p : Perm} {ctl : FCtl}

theorem readsBack_fpair {src : FSrc} {k : Guard → Reg → Reg → FSrc → Instr} (hwf : src.wf s es = true)
    (henc : encode (k g d a src) = encFPair op g d a src)
    (hop : opInfo op.toNat = some (.v, cls, .fpair)) (hdec : ∀ v x, decodeV es op.toNat v x = decFPair es v x s k) :
    ReadsBack es (k g d a src) := by
  cases src with
  | reg b p c =>
    refine readsBack_raw henc hop ?_ ?_
    · rw [extFollows, hop]
      rfl
    · simp_all [decFPair, FSrc.wf]
  | imm x =>
    refine readsBack_raw henc hop ?_ ?_
    · rw [extFollows, hop]
      rfl
    · simp_all [decFPair, FSrc.wf, Perm.ofBits_eq_none.mpr]

theorem readsBack_f3 {k : Guard → Reg → Reg → Reg → Perm → Reg → FCtl → Instr} (hwf : s.ok es ctl = true)
    (henc : encode (k g d a b p c ctl) = [encV op d a b g.bits p.bits, encFX c 0#10 ctl])
    (hop : opInfo op.toNat = some (.v, cls, .always)) (hdec : ∀ v x, decodeV es op.toNat v x = decF3 es v x s k) :
    ReadsBack es (k g d a b p c ctl) := by
  refine readsBack_raw henc hop ?_ ?_
  · rw [extFollows, hop]
    rfl
  · simp [hdec, decF3, hwf]

theorem readsBack_f2 {k : Guard → Reg → Reg → Reg → Perm → FCtl → Instr} (hwf : s.ok es ctl = true)
    (henc : encode (k g d a b p ctl) = [encV op d a b g.bits p.bits, encFX 0 0#10 ctl])
    (hop : opInfo op.toNat = some (.v, cls, .always)) (hdec : ∀ v x, decodeV es op.toNat v x = decF2 es v x s k) :
    ReadsBack es (k g d a b p ctl) := by
  refine readsBack_raw henc hop ?_ ?_
  · rw [extFollows, hop]
    rfl
  · simp [hdec, decF2, hwf]

theorem readsBack_f1 {k : Guard → Reg → Reg → FCtl → Instr} (hwf : s.ok es ctl = true) (henc : encode (k g d a ctl) = encF1 op g d a ctl)
    (hop : opInfo op.toNat = some (.v, cls, .always)) (hdec : ∀ v x, decodeV es op.toNat v x = decF1 es v x s k) :
    ReadsBack es (k g d a ctl) := by
  refine readsBack_raw henc hop ?_ ?_
  · rw [extFollows, hop]
    rfl
  · simp [hdec, decF1, hwf]

end Float
end Reads


theorem readsBack_memS {es : Es} {op : BitVec 7} {g : Guard} {d : Reg} {mo : MemOp} {w : BitVec 2} {cls : Option Cls} {hint sx : Bool}
    {short : Guard → Reg → MemOp → BitVec 2 → Instr} {ext : Guard → Reg → MemOp → BitVec 2 → MemExt → Instr}
    (henc : encode (short g d mo w) = encMemS op g d mo w) (hop : opInfo op.toNat = some (.m, cls, .mem))
    (hdec : ∀ v x, decodeM op.toNat v x = decMem v x hint sx short ext) : ReadsBack es (short g d mo w) := by
  refine readsBack_m henc hop ?_ ?_
  · rw [extFollows, hop]
    simp
  · simp [hdec, decMem]

theorem readsBack_memE {es : Es} {op : BitVec 7} {g : Guard} {d : Reg} {mo : MemOp} {w : BitVec 2} {e : MemExt} {cls : Option Cls} {hint sx : Bool}
    {short : Guard → Reg → MemOp → BitVec 2 → Instr} {ext : Guard → Reg → MemOp → BitVec 2 → MemExt → Instr}
    (hwf : e.wf hint sx = true)
    (henc : encode (ext g d mo w e) = encMemE op g d mo w e) (hop : opInfo op.toNat = some (.m, cls, .mem))
    (hdec : ∀ v x, decodeM op.toNat v x = decMem v x hint sx short ext) : ReadsBack es (ext g d mo w e) := by
  obtain ⟨x, order, scope, h, s⟩ := e
  simp only [MemExt.wf, Bool.and_eq_true] at hwf
  obtain ⟨⟨⟨hthere, hscope⟩, hhint⟩, hsx⟩ := hwf
  refine readsBack_m henc hop ?_ ?_
  · rw [extFollows, hop]
    simp_all [or_comm]
  · have hlong : ¬(order = 0 ∧ (bit1 x ++ w).getLsbD 2 = false) := by simp_all [imp_iff_not_or, or_comm]
    simp only [hdec, decMem, withG_bits, if_neg hlong]
    simp_all [MemExt.ofWords, MemExt.bits]

theorem readsBack_movi {es : Es} {g : Guard} {d : Reg} {imm : BitVec 9} : ReadsBack es (.movi g d imm) := by
  obtain ⟨w, hw⟩ : ∃ w, w = encI 0x03 d 0 imm g.bits := ⟨_, rfl⟩
  obtain ⟨hop, hd, ha, himm, hg⟩ := Word.eq_encI.mp hw
  have hinfo : opInfo (Word.opcode w) = some (.i, some .vector, .never) := by
    rw [Word.opcode, hop]
    rfl
  refine readsBack_of (w := w) (r := []) (hw ▸ rfl) ?_ ?_
  · simp [Word.hasExt, hinfo]
  · simp [decodeWord, hinfo, hd, ha, himm, hg]

theorem readsBack_rep {es : Es} {cnt1 : BitVec 6} {step : BitVec 4} : ReadsBack es (.rep cnt1 step) := by
  have hinfo : opInfo (Word.opcode (word (0x48#7 ++ cnt1 ++ step ++ 0#15))) = some (.rep, none, .never) := by
    rw [show Word.opcode _ = 0x48 by simp [Word.opcode]]
    rfl
  refine readsBack_of rfl ?_ ?_
  · simp [Word.hasExt, hinfo]
  · simp [decodeWord, hinfo]

theorem AmoOp.bits_eq_one (o : AmoOp) : o.bits = 1#6 ↔ o = .cas := by cases o <;> decide

theorem VoteOp.writes_eq (o : VoteOp) : decide (3 ≤ o.code.toNat) = o.writes := by cases o <;> rfl

theorem ReduxOp.isFloat_eq (o : ReduxOp) : decide (8 ≤ o.bits.toNat) = o.isFloat := by cases o <;> rfl

/-- R146 to R162: each instruction that can be written is read back from its words. -/
theorem readsBack {es : Es} {i : Instr} (hwf : i.wf es = true) : ReadsBack es i := by
  cases i with
  | add | sub | addsatI | addsatN | subsatI | subsatN | mul | mulhiI | mulhiN | minI | minN | maxI | maxN | and | or | xor | andn
  | shl | shrN | shrI => exact readsBack_reg rfl rfl (fun _ _ => rfl)
  | addImm | subImm | addsatIImm | addsatNImm | subsatIImm | subsatNImm | mulImm | mulhiIImm | mulhiNImm | minIImm | minNImm
  | maxIImm | maxNImm | andImm | orImm | xorImm | andnImm | shlImm | shrNImm | shrIImm =>
    exact readsBack_imm rfl rfl (fun _ _ => rfl)
  | abs | neg | not | fneg | fabs | tag => exact readsBack_un rfl rfl (fun _ _ => rfl)
  | fadd | fsub | fmul | fmin | fmax => exact readsBack_fpair hwf rfl rfl (fun _ _ => rfl)
  | ffma | fdot2 => exact readsBack_f3 hwf rfl rfl (fun _ _ => rfl)
  | fscale => exact readsBack_f2 hwf rfl rfl (fun _ _ => rfl)
  | frcp | frsqrt | fsqrt | frnd | fclass | fexp2 | flog2 | fsin | fcos => exact readsBack_f1 hwf rfl rfl (fun _ _ => rfl)
  | nop | mad | mac2 | popc | clz | brev | bfxI | bfxN | bfi =>
    exact readsBack_v rfl rfl rfl rfl (by simp)
  | mov g d b p => exact readsBack_v rfl rfl (by cases p <;> rfl) rfl (by simp)
  | movImm => exact readsBack_v rfl rfl rfl rfl (by simp [Perm.ofBits_eq_none.mpr])
  | rshr g d a sh u he nw =>
    cases sh <;> cases nw <;> exact readsBack_v rfl rfl rfl rfl (by simp)
  | cmp g cond wd => cases wd <;> exact readsBack_v rfl rfl rfl rfl (by simp)
  | fcmp => 
    replace hwf : fsPick.ok es _ = true := hwf
    exact readsBack_v rfl rfl rfl rfl (by simp [hwf])
  | cvt | pack | unpack =>
    replace hwf : convCtlOk _ es _ = true := hwf
    exact readsBack_v rfl rfl rfl rfl (by simp [hwf])
  | shfl g md d a b mask =>
    replace hwf : (if md = .at then _ else _) = true := hwf
    cases mask <;> cases md <;> exact readsBack_v rfl rfl rfl rfl (by simpa [maskOf, MaskSrc.c, MaskSrc.isFull, ShflMode.bits] using hwf)
  | slide g down d a nb mask =>
    cases mask <;> cases nb <;> cases down <;>
      exact readsBack_v rfl rfl rfl rfl (by simp [maskOf, MaskSrc.c, MaskSrc.isFull, bit1])
  | vote g op d mask => 
    replace hwf : (op.writes || d == 0) = true := hwf
    cases mask <;> exact readsBack_v rfl rfl rfl rfl (by simp_all [maskOf, MaskSrc.c, MaskSrc.isFull, VoteOp.writes_eq])
  | redux g op d a mask seg h fzo fzi =>
    have hctl : reduxWf es op h fzo fzi = true := hwf
    simp only [reduxWf, Bool.and_eq_true, Bool.or_eq_true, Bool.not_eq_true', beq_iff_eq, ← ReduxOp.isFloat_eq] at hctl
    obtain ⟨hop | ⟨⟨rfl, rfl⟩, rfl⟩, hes⟩ := hctl <;> cases mask <;>
      exact readsBack_v rfl rfl rfl rfl (by simp_all [maskOf, MaskSrc.c, MaskSrc.isFull, extract_zeros, show bit1 false = 0#1 from rfl])
  | tbl g d a b wide cnt1 fill =>
    have hrow : (!wide || (cnt1 == 0 && fill == 0)) = true := hwf
    exact readsBack_v rfl rfl rfl rfl (by simp_all)
  | sel g d a b p src => cases src <;> exact readsBack_v rfl rfl rfl rfl (by simp)
  | iota g d src => cases src <;> exact readsBack_v rfl rfl rfl rfl (by simp)
  | lset g n src => cases src <;> exact readsBack_v rfl rfl rfl rfl (by simp [Src16.rb, Src16.a, Src16.v])
  | asset g n f src =>
    replace hwf : assetWf f src = true := hwf
    cases src <;> exact readsBack_v rfl rfl rfl rfl (by simp_all [assetWf])
  | lid | ppush | ppop | pmovFromPred | pmovToPred | plog | ppick | stk | asget | kget =>
    exact readsBack_v rfl rfl rfl rfl (by simp)
  | enter | fence | msign | grow | shrink | tret =>
    exact readsBack_raw rfl rfl rfl (by simp [decodeV, decodeControl, decodeMatrix, decodeAsync])
  | leave => exact readsBack_raw rfl rfl rfl rfl
  | meld g p4 db da =>
    have hrow : (p4 || db == 0) = true := hwf
    exact readsBack_v rfl rfl rfl rfl (by simp_all)
  | sleep src => cases src <;> exact readsBack_raw rfl rfl rfl (by simp [decodeV, decodeControl, Src16.rb, Src16.a, Src16.v])
  | jmp | jmpL | ret | jmpf | mend | ldpm |  trap | brk =>
    exact readsBack_v rfl rfl rfl rfl (by simp)
  | mcfg g n mask => cases mask <;> exact readsBack_v rfl rfl rfl rfl (by simp [MaskSrc.c, MaskSrc.isFull, McfgExt.ofWord, McfgExt.bits])
  | residReg | residPrio | residDemote | residEvict | residDrop | qpush | qpop | maccFrom | maccTo | mzero | qnt | dqnt =>
    exact readsBack_v rfl rfl rfl rfl (by simp)
  | pump g n a b c e =>
    have hrow : (e.kind == 3 || e.sl == 0) = true := hwf
    exact readsBack_v rfl rfl rfl rfl (by simp_all)
  | bar g n src => cases src <;> exact readsBack_v rfl rfl rfl rfl (by simp)
  | gridgrow g n src => cases src <;> exact readsBack_v rfl rfl rfl rfl (by simp [Src16.rb, Src16.a, Src16.v])
  | coll | hwait | htest | hcancel | tlwait | gbar | launch | sysr | sysw =>
    exact readsBack_v rfl rfl rfl rfl (by simp)
  | ld | st | ldsc | stsc | sld | sst => exact readsBack_memS rfl rfl (fun _ _ => rfl)
  | ldExt | stExt | ldscExt | stscExt | sldExt | sstExt => exact readsBack_memE hwf rfl rfl (fun _ _ => rfl)
  | srenew | slife | waitw | prefdL1 | prefdL2 | codefetch => exact readsBack_m rfl rfl rfl (by simp [decodeM])
  | amo g op d mo size order c scope hint =>
    have hrow : ((op == .cas || c == 0) && (order != 0 || scope == 0)) = true := hwf
    exact readsBack_m rfl rfl rfl (by simp_all [decodeM, AmoOp.bits_eq_one])
  | pld g d mo size order e | pst g d mo size order e =>
    have hrow : (order != 0 || e.scope == 0) = true := hwf
    exact readsBack_m rfl rfl rfl (by simp_all [decodeM, Word.c, Word.fn, PanelExt.ofWord, PanelExt.bits])
  | loop | br | call | exit | yield | ipref => exact readsBack_b rfl rfl (by simp [decodeB])
  | movi => exact readsBack_movi
  | rep => exact readsBack_rep
  | unassignedOpcode w =>
    have hrow : (opInfo (Word.opcode w)).isNone = true := hwf
    rw [Option.isNone_iff_eq_none] at hrow
    exact readsBack_of rfl (by simp [Word.hasExt, hrow]) (by simp [decodeWord, hrow])
  | _ => exact absurd hwf Bool.false_ne_true
end Sys2Proof

/-- Settles O1: each row's words are read field by field, by the format they are laid out in. -/
theorem encodedWordsReadBack : Obligations.EncodedWordsReadBack :=
  fun _ _ w r hwf henc => Sys2Proof.readsBack hwf w r henc
end

section
/-!
SUPPORT. A word pair that decodes is the encoding of what it gives (R147, R164), and so is a header (R140): a row's fields and the zeros it
asks for are all of its bits.
-/

namespace Sys2Proof

/-- A well-formed instruction whose words are `w` and, where `ext` says so, `x`. -/
def Encodes (es : Es) (i : Instr) (w x : Word) (ext : Bool) : Prop :=
  i.wf es = true ∧ encode i = w :: if ext then [x] else []

section Written

variable {es : Es} {i : Instr} {w x w' x' : Word} {ext : Bool}

theorem encodes_one (hwf : i.wf es = true) (henc : encode i = [w']) (hext : ext = false) (hw : w = w') : Encodes es i w x ext :=
  ⟨hwf, by rw [henc, hext, hw]; rfl⟩

theorem encodes_two (hwf : i.wf es = true) (henc : encode i = [w', x']) (hext : ext = true) (hw : w = w') (hx : x = x') :
    Encodes es i w x ext :=
  ⟨hwf, by rw [henc, hext, hw, hx]; rfl⟩

end Written

theorem Word.fn_of_toNat {x : Word} {n : Nat} (h : (Word.fn x).toNat = n) : Word.fn x = BitVec.ofNat 6 n := by
  rw [← h, BitVec.ofNat_toNat, BitVec.setWidth_eq]

section Rows

variable {es : Es} {i : Instr} {op : Nat} {d a b : Reg} {g : BitVec 4} {m : BitVec 3} {x : Word} {cls : Option Cls}

theorem decImm_encodes {reg : Guard → Reg → Reg → Reg → Perm → Instr} {imm : Guard → Reg → Reg → Word → Instr}
    (h : decImm ⟨d, a, b, g, m⟩ x reg imm = .ok i) (hext : ∀ m, extFollows op m (a.extractLsb' 0 2) = (m == 7))
    (hreg : ∀ g d a b p, (reg g d a b p).wf es = true ∧ encode (reg g d a b p) = encReg (BitVec.ofNat 7 op) g d a b p)
    (himm : ∀ g d a, (imm g d a x).wf es = true ∧ encode (imm g d a x) = encImm (BitVec.ofNat 7 op) g d a x) :
    Encodes es i (encV (BitVec.ofNat 7 op) d a b g m) x (extFollows op m (a.extractLsb' 0 2)) := by
  simp only [decImm, withG_ok] at h
  obtain ⟨g, h, rfl⟩ := h
  rw [hext]
  split at h
  next p hp =>
    obtain ⟨hwf, henc⟩ := hreg g d a b p
    obtain rfl := Perm.ofBits_eq_some.mp hp
    cases h
    exact encodes_one hwf henc (by cases p <;> rfl) rfl
  next hp =>
    obtain ⟨hwf, henc⟩ := himm g d a
    obtain rfl := Perm.ofBits_eq_none.mp hp
    simp only [req_ok, beq_iff_eq, Except.ok.injEq] at h
    obtain ⟨rfl, rfl⟩ := h
    exact encodes_two hwf henc rfl rfl rfl

theorem decUn_encodes {k : Guard → Reg → Reg → Instr} (h : decUn ⟨d, a, b, g, m⟩ k = .ok i)
    (hext : extFollows op m (a.extractLsb' 0 2) = false)
    (hk : ∀ g d a, (k g d a).wf es = true ∧ encode (k g d a) = encUn (BitVec.ofNat 7 op) g d a) :
    Encodes es i (encV (BitVec.ofNat 7 op) d a b g m) x (extFollows op m (a.extractLsb' 0 2)) := by
  simp [decUn] at h
  obtain ⟨g, ⟨rfl, h⟩, rfl⟩ := h
  obtain ⟨hwf, henc⟩ := hk g d a
  exact encodes_one hwf henc hext (by simp [h])

section Float

variable {s : FSpec} (hext : extFollows op m (a.extractLsb' 0 2) = true)
include hext

theorem decFPair_encodes {k : Guard → Reg → Reg → FSrc → Instr} (h : decFPair es ⟨d, a, b, g, m⟩ x s k = .ok i)
    (hk : ∀ g d a src, (k g d a src).wf es = src.wf s es ∧ encode (k g d a src) = encFPair (BitVec.ofNat 7 op) g d a src) :
    Encodes es i (encV (BitVec.ofNat 7 op) d a b g m) x (extFollows op m (a.extractLsb' 0 2)) := by
  simp only [decFPair, withG_ok] at h
  obtain ⟨g, h, rfl⟩ := h
  split at h
  next p hp =>
    obtain ⟨hwf, henc⟩ := hk g d a (.reg b p (.ofBits (Word.fld x 0 6)))
    obtain rfl := Perm.ofBits_eq_some.mp hp
    simp [and_assoc] at h
    obtain ⟨rfl, hfn, hc, hz, hs⟩ := h
    exact encodes_two (hwf.trans hs) henc hext rfl (by simp [↓Word.eq_encFX, *])
  next hp =>
    obtain ⟨hwf, henc⟩ := hk g d a (.imm x)
    obtain rfl := Perm.ofBits_eq_none.mp hp
    simp at h
    obtain ⟨rfl, rfl, hs⟩ := h
    exact encodes_two (hwf.trans hs) henc hext rfl rfl

theorem decF3_encodes {k : Guard → Reg → Reg → Reg → Perm → Reg → FCtl → Instr} (h : decF3 es ⟨d, a, b, g, m⟩ x s k = .ok i)
    (hk : ∀ g d a b p c ctl, (k g d a b p c ctl).wf es = s.ok es ctl ∧
      encode (k g d a b p c ctl) = [encV (BitVec.ofNat 7 op) d a b g.bits p.bits, encFX c 0#10 ctl]) :
    Encodes es i (encV (BitVec.ofNat 7 op) d a b g m) x (extFollows op m (a.extractLsb' 0 2)) := by
  simp [decF3, and_assoc] at h
  obtain ⟨g, ⟨p, rfl, hfn, hz, hs, rfl⟩, rfl⟩ := h
  obtain ⟨hwf, henc⟩ := hk g d a b p (Word.c x) (.ofBits (Word.fld x 0 6))
  exact encodes_two (hwf.trans hs) henc hext rfl (by simp [↓Word.eq_encFX, *])

theorem decF2_encodes {k : Guard → Reg → Reg → Reg → Perm → FCtl → Instr} (h : decF2 es ⟨d, a, b, g, m⟩ x s k = .ok i)
    (hk : ∀ g d a b p ctl, (k g d a b p ctl).wf es = s.ok es ctl ∧
      encode (k g d a b p ctl) = [encV (BitVec.ofNat 7 op) d a b g.bits p.bits, encFX 0 0#10 ctl]) :
    Encodes es i (encV (BitVec.ofNat 7 op) d a b g m) x (extFollows op m (a.extractLsb' 0 2)) := by
  simp [decF2, and_assoc] at h
  obtain ⟨g, ⟨p, rfl, hfn, hc, hz, hs, rfl⟩, rfl⟩ := h
  obtain ⟨hwf, henc⟩ := hk g d a b p (.ofBits (Word.fld x 0 6))
  exact encodes_two (hwf.trans hs) henc hext rfl (by simp [↓Word.eq_encFX, *])

theorem decF1_encodes {k : Guard → Reg → Reg → FCtl → Instr} (h : decF1 es ⟨d, a, b, g, m⟩ x s k = .ok i)
    (hk : ∀ g d a ctl, (k g d a ctl).wf es = s.ok es ctl ∧ encode (k g d a ctl) = encF1 (BitVec.ofNat 7 op) g d a ctl) :
    Encodes es i (encV (BitVec.ofNat 7 op) d a b g m) x (extFollows op m (a.extractLsb' 0 2)) := by
  simp [decF1, and_assoc] at h
  obtain ⟨g, rfl, hfn, hb, hm, hc, hz, hs, -, hg⟩ := h
  obtain ⟨hwf, henc⟩ := hk g d a (.ofBits (Word.fld x 0 6))
  exact encodes_two (hwf.trans hs) henc hext (by simp [*]) (by simp [↓Word.eq_encFX, *])

theorem decConv_encodes {z : Bool} {c : Reg} {b' : Reg} {spec : Ty → Ty → Option FSpec} {k : Guard → Ty → Ty → FCtl → Instr}
    (h : decConv es ⟨d, a, b, g, m⟩ x z spec k = .ok i) (hz : z = true → b = b' ∧ Word.c x = c)
    (hk : ∀ g dst src ctl, (k g dst src ctl).wf es = convCtlOk (spec dst src) es ctl ∧
      encode (k g dst src ctl) = [encV (BitVec.ofNat 7 op) d a b' g.bits 0, encFX c (dst.bits ++ src.bits) ctl]) :
    Encodes es i (encV (BitVec.ofNat 7 op) d a b g m) x (extFollows op m (a.extractLsb' 0 2)) := by
  simp [decConv, and_assoc] at h
  obtain ⟨g, ⟨dst, ⟨src, rfl, hs, hsrc⟩, hdst⟩, hunused, hm, hres, -, hg⟩ := h
  obtain ⟨hwf, henc⟩ := hk g dst src (.ofBits (Word.fld x 0 6))
  obtain ⟨rfl, rfl⟩ := hz hunused
  exact encodes_two (hwf.trans hs) henc hext (by simp [*]) (by simp [↓Word.eq_encFX, ↓Word.has_append, *])

end Float

theorem decodeInt_encodes (h : decodeInt op ⟨d, a, b, g, m⟩ x = .ok i) :
    Encodes es i (encV (BitVec.ofNat 7 op) d a b g m) x (extFollows op m (a.extractLsb' 0 2)) := by
  unfold decodeInt at h
  split at h
  case h_1 =>
    simp at h
    obtain ⟨g, ⟨rfl, h⟩, rfl⟩ := h
    exact encodes_one rfl rfl rfl (by simp [h])
  case h_2 =>
    simp only [withG_ok, req_ok, beq_iff_eq] at h
    obtain ⟨g, ⟨h, rfl⟩, rfl⟩ := h
    split at h
    next p hp =>
      obtain rfl := Perm.ofBits_eq_some.mp hp
      cases h
      exact encodes_one rfl rfl (by cases p <;> rfl) rfl
    next hp =>
      obtain rfl := Perm.ofBits_eq_none.mp hp
      simp at h
      obtain ⟨rfl, rfl⟩ := h
      exact encodes_two rfl rfl rfl rfl rfl
  case h_3 | h_4 | h_5 | h_6 | h_7 | h_8 | h_9 | h_10 | h_11 | h_14 | h_15 | h_16 | h_17 | h_20 | h_21 | h_22 | h_23 | h_25 | h_26 | h_27 =>
    exact decImm_encodes h (fun _ => rfl) (fun _ _ _ _ _ => ⟨rfl, rfl⟩) (fun _ _ _ => ⟨rfl, rfl⟩)
  case h_12 | h_13 =>
    simp [and_assoc] at h
    obtain ⟨g, ⟨p, rfl, h⟩, rfl⟩ := h
    exact encodes_two rfl rfl rfl (by simp [h]) (by simp [↓Word.eq_encX, h])
  case h_18 | h_19 | h_24 => exact decUn_encodes h rfl (fun _ _ _ => ⟨rfl, rfl⟩)
  case h_28 =>
    cases hsi : x[3] <;> cases hnw : x[1] <;> simp [and_assoc, hsi, hnw] at h
    case' false.false | false.true => obtain ⟨g, ⟨p, rfl, h⟩, rfl⟩ := h
    case' true.false | true.true => obtain ⟨g, rfl, h⟩ := h
    all_goals exact encodes_two rfl rfl rfl (by simp [h]) (by simp [↓Word.eq_encX, ↓Word.has_append, h, hsi, hnw])
  case h_29 =>
    simp [and_assoc, -BitVec.extractLsb'_toNat] at h
    obtain ⟨g, h, hb, hm, h18, h6, hc, -, hg⟩ := h
    split at h
    case h_1 hfn | h_2 hfn | h_3 hfn =>
      replace hfn := Word.fn_of_toNat hfn
      simp [hfn] at hc h
      obtain ⟨rfl, hlo⟩ := h
      exact encodes_two rfl rfl rfl (by simp [*]) (by simp [↓Word.eq_encX, *])
    case h_4 hfn | h_5 hfn | h_6 hfn =>
      replace hfn := Word.fn_of_toNat hfn
      cases h
      simp [hfn] at hc
      exact encodes_two rfl rfl rfl (by simp [*]) (by simp [↓Word.eq_encX, ↓Word.has_append, *])
    case h_7 => cases h
  case h_30 =>
    cases hwd : x[3] <;> simp [and_assoc, hwd] at h <;> obtain ⟨g, ⟨p, ⟨v, rfl, hv⟩, h⟩, rfl⟩ := h <;>
      exact encodes_two rfl rfl rfl (by simp [h]) (by simp [↓Word.eq_encX, ↓Word.has_append, h, hv, hwd])
  case h_31 => cases h

theorem decodeFloat_encodes (h : decodeFloat es op ⟨d, a, b, g, m⟩ x = .ok i) :
    Encodes es i (encV (BitVec.ofNat 7 op) d a b g m) x (extFollows op m (a.extractLsb' 0 2)) := by
  unfold decodeFloat at h
  split at h
  case h_1 | h_2 | h_3 | h_5 | h_6 => exact decFPair_encodes rfl h (fun _ _ _ _ => ⟨rfl, rfl⟩)
  case h_4 | h_18 => exact decF3_encodes rfl h (fun _ _ _ _ _ _ _ => ⟨rfl, rfl⟩)
  case h_7 | h_8 => exact decUn_encodes h rfl (fun _ _ _ => ⟨rfl, rfl⟩)
  case h_9 =>
    simp [and_assoc] at h
    obtain ⟨g, ⟨p, ⟨v, rfl, hv⟩, hlo, hc, hz, hs, hm⟩, rfl⟩ := h
    exact encodes_two hs rfl rfl (by simp [hm]) (by simp [↓Word.eq_encFX, ↓Word.has_append, *])
  case h_10 | h_11 | h_12 | h_13 | h_14 | h_15 | h_16 | h_19 | h_20 => exact decF1_encodes rfl h (fun _ _ _ _ => ⟨rfl, rfl⟩)
  case h_17 | h_21 | h_22 => exact decConv_encodes rfl h (by simp) (fun _ _ _ _ => ⟨rfl, rfl⟩)
  case h_23 => exact decF2_encodes rfl h (fun _ _ _ _ _ _ => ⟨rfl, rfl⟩)
  case h_24 => cases h

theorem maskOf_c {full : Bool} (h : full = false ∨ Word.c x = 0) : Word.c x = (maskOf x full).c := by
  cases full <;> simp_all [maskOf, MaskSrc.c]

@[simp] theorem maskOf_isFull (full : Bool) : (maskOf x full).isFull = full := by cases full <;> rfl

theorem decodeLane_encodes (h : decodeLane es op ⟨d, a, b, g, m⟩ x = .ok i) :
    Encodes es i (encV (BitVec.ofNat 7 op) d a b g m) x (extFollows op m (a.extractLsb' 0 2)) := by
  unfold decodeLane at h
  split at h
  case h_1 =>
    simp [and_assoc] at h
    obtain ⟨g, ⟨v, rfl, hfn⟩, hm, hz, hmask, hrow, -, rfl⟩ := h
    refine encodes_two ?_ rfl rfl (by simp [*]) (by simp [↓Word.eq_encX, ↓Word.has_append, ← maskOf_c hmask, *])
    change (if v = .at then _ else _) = true
    cases v <;> simp_all [ShflMode.bits]
  case h_2 =>
    simp [and_assoc, -BitVec.extractLsb'_toNat] at h
    obtain ⟨g, rfl, hfn, hm, hz, hmask, hb, -, rfl⟩ := h
    have hdown : Word.fn x = 0#5 ++ bit1 (Word.fn x == 1) := by
      obtain h | h := Nat.le_one_iff_eq_zero_or_eq_one.mp hfn <;> rw [Word.fn_of_toNat h] <;> rfl
    cases hnb : x[16] <;> simp [hnb] at hb <;>
      exact encodes_two rfl rfl rfl (by simp [*])
        ((Word.eq_encX (by rfl)).mpr ⟨maskOf_c hmask, hdown, by simp [↓Word.has_append, *]⟩)
  case h_3 =>
    simp [and_assoc, -BitVec.extractLsb'_toNat] at h
    obtain ⟨g, ⟨v, rfl, hfn⟩, ha, hb, hm, hz, hmask, hrow, -, rfl⟩ := h
    refine encodes_two ?_ rfl rfl (by simp [*]) (by simp [↓Word.eq_encX, ↓Word.has_append, ← maskOf_c hmask, *])
    change (v.writes || d == 0) = true
    simpa [← VoteOp.writes_eq, ← hfn, -BitVec.extractLsb'_toNat] using hrow
  case h_4 =>
    simp [and_assoc, -BitVec.extractLsb'_toNat] at h
    obtain ⟨g, ⟨v, rfl, hfn⟩, hb, hm, hz, hz3, hmask, hrow, hes, -, rfl⟩ := h
    refine encodes_two ?_ rfl rfl (by simp [*]) (by simp [↓Word.eq_encX, ↓Word.has_append, ← maskOf_c hmask, *])
    change reduxWf _ _ _ _ _ = true
    rw [hfn, ← decide_eq_true_iff (p := 8 ≤ _), ReduxOp.isFloat_eq] at hrow
    obtain hfloat | hctl := hrow
    · simpa [reduxWf, hfloat] using hes
    · have hbits : Word.Has x 0 (0#1 ++ 0#1 ++ 0#1) := hctl
      simp [↓Word.has_append] at hbits
      simp [reduxWf, hbits]
  case h_5 =>
    simp [and_assoc] at h
    obtain ⟨g, rfl, hfn, hm, hc, hz, hrow, -, rfl⟩ := h
    refine encodes_two ?_ rfl rfl (by simp [*]) (by simp [↓Word.eq_encX, ↓Word.has_append, *])
    change (!_ || _ == _ && _) = true
    simpa using hrow
  case h_6 | h_10 | h_11 | h_18 | h_19 =>
    simp [and_assoc] at h
    obtain ⟨g, rfl, h⟩ := h
    exact encodes_two rfl rfl rfl (by simp [*]) (by simp [↓Word.eq_encX, ↓Word.has_append, *])
  case h_7 =>
    cases hd : x[3] <;> simp [and_assoc, hd] at h <;> obtain ⟨g, ⟨p, rfl, h⟩, rfl⟩ := h
    case false =>
      exact encodes_two (x' := encX (Word.c x) 0 (0#16 ++ 0#1 ++ 0#1 ++ 0#2)) rfl rfl rfl (by simp [*])
        (by simp [↓Word.eq_encX, ↓Word.has_append, *])
    case true => exact encodes_two rfl rfl rfl (by simp [*]) (by simp [↓Word.eq_encX, ↓Word.has_append, *])
  case h_8 | h_9 | h_15 =>
    simp [and_assoc] at h
    obtain ⟨g, rfl, h⟩ := h
    exact encodes_one rfl rfl rfl (by simp [*])
  case h_12 =>
    simp only [withG_ok] at h
    obtain ⟨g, h, rfl⟩ := h
    split at h <;> simp at h <;> obtain ⟨rfl, h⟩ := h <;> exact encodes_one rfl rfl rfl (by simp [*])
  case h_13 => exact decUn_encodes h rfl (fun _ _ _ => ⟨rfl, rfl⟩)
  case h_14 =>
    cases hr : x[11] <;> simp [and_assoc, hr] at h <;> obtain ⟨g, rfl, h⟩ := h <;>
      exact encodes_two rfl rfl rfl (by simp [*]) (by simp [↓Word.eq_encX, ↓Word.has_append, *])
  case h_16 =>
    cases hr : x[17] <;> simp [and_assoc, hr] at h <;> obtain ⟨g, rfl, h⟩ := h <;>
      exact encodes_two rfl rfl rfl (by simp [Src16.a, *]) (by simp [↓Word.eq_encX, ↓Word.has_append, Src16.rb, Src16.v, *])
  case h_17 =>
    cases hr : x[12] <;> simp [and_assoc, hr] at h <;> obtain ⟨g, rfl, h⟩ := h <;>
      refine encodes_two ?_ rfl rfl (by simp [*]) (by simp [↓Word.eq_encX, ↓Word.has_append, *])
    case true => exact (show assetWf (Word.fld x 13 3) (.imm (Word.fld x 0 12)) = true by simp [assetWf, h])
    case false => exact (show assetWf (Word.fld x 13 3) (.reg a) = true by simp [assetWf, h])
  case h_20 => cases h

theorem decodeControl_encodes (h : decodeControl op ⟨d, a, b, g, m⟩ x = .ok i) :
    Encodes es i (encV (BitVec.ofNat 7 op) d a b g m) x (extFollows op m (a.extractLsb' 0 2)) := by
  unfold decodeControl at h
  split at h
  case h_1 =>
    simp [and_assoc] at h
    obtain ⟨g, hi, h⟩ := h
    split at hi <;> obtain rfl := hi <;> exact encodes_one rfl rfl rfl (by simp_all)
  case h_2 | h_5 | h_10 =>
    simp [and_assoc] at h
    obtain ⟨g, rfl, h⟩ := h
    exact encodes_one rfl rfl rfl (by simp [*])
  case h_3 | h_6 | h_9 =>
    simp [and_assoc] at h
    obtain ⟨g, rfl, h⟩ := h
    exact encodes_two rfl rfl rfl (by simp [*]) (by simp [↓Word.eq_encX, ↓Word.has_append, *])
  case h_4 =>
    simp [and_assoc] at h
    obtain ⟨g, rfl, hfn, hd, ha, hb, hm, hc, hz, hrow, -, hg⟩ := h
    refine encodes_two ?_ rfl rfl (by simp [*]) (by simp [↓Word.eq_encX, ↓Word.has_append, *])
    change (_ || _ == _) = true
    simpa using hrow
  case h_7 =>
    simp [and_assoc] at h
    obtain ⟨rfl, h⟩ := h
    exact encodes_two rfl rfl rfl (by simp [*]) (by simp [↓Word.eq_encX, ↓Word.has_append, *])
  case h_8 =>
    simp [and_assoc] at h
    obtain ⟨rfl, h⟩ := h
    exact encodes_one rfl rfl rfl (by simp [*])
  case h_11 =>
    cases hr : x[19] <;> simp [and_assoc, hr] at h <;> obtain ⟨rfl, h⟩ := h <;>
      exact encodes_two rfl rfl rfl (by simp [Src16.a, *]) (by simp [↓Word.eq_encX, ↓Word.has_append, Src16.rb, Src16.v, *])
  case h_12 => cases h

theorem decodeMatrix_encodes (h : decodeMatrix op ⟨d, a, b, g, m⟩ x = .ok i) :
    Encodes es i (encV (BitVec.ofNat 7 op) d a b g m) x (extFollows op m (a.extractLsb' 0 2)) := by
  unfold decodeMatrix at h
  split at h
  case h_2 =>
    simp [and_assoc, -BitVec.extractLsb'_toNat] at h
    obtain ⟨g, h, hm, hc, hz, -, hg⟩ := h
    split at h
    case h_1 hfn =>
      replace hfn := Word.fn_of_toNat hfn
      cases h
      exact encodes_two rfl rfl rfl (by simp [*]) (by simp [↓Word.eq_encX, ↓Word.has_append, *])
    case h_2 hfn | h_3 hfn =>
      replace hfn := Word.fn_of_toNat hfn
      simp at h
      obtain ⟨rfl, h⟩ := h
      exact encodes_two rfl rfl rfl (by simp [*]) (by simp [↓Word.eq_encX, ↓Word.has_append, *])
    case h_4 hfn | h_5 hfn =>
      replace hfn := Word.fn_of_toNat hfn
      simp at h
      obtain ⟨rfl, h⟩ := h
      exact encodes_two (x' := encX 0 (BitVec.ofNat 6 _) (0#17 ++ 0#3)) rfl rfl rfl (by simp [*])
        (by simp [↓Word.eq_encX, ↓Word.has_append, *])
    case h_6 => cases h
  case h_3 | h_4 | h_8 =>
    simp [and_assoc] at h
    obtain ⟨g, rfl, h⟩ := h
    exact encodes_one rfl rfl rfl (by simp [*])
  case h_9 | h_10 =>
    simp [and_assoc] at h
    obtain ⟨g, rfl, h⟩ := h
    exact encodes_two rfl rfl rfl (by simp [*]) (by simp [↓Word.eq_encX, ↓Word.has_append, *])
  case h_5 =>
    cases hr : x[3] <;> simp [and_assoc, hr] at h <;> obtain ⟨g, rfl, h⟩ := h <;>
      exact encodes_two rfl rfl rfl (by simp [MaskSrc.c, *]) (by
        unfold McfgExt.bits
        simp [↓Word.eq_encX, ↓Word.has_append, McfgExt.ofWord, MaskSrc.isFull, *])
  case h_7 =>
    cases hr : x[19] <;> simp [and_assoc, hr] at h <;> obtain ⟨g, rfl, h⟩ := h <;>
      exact encodes_two rfl rfl rfl (by simp [*]) (by simp [↓Word.eq_encX, ↓Word.has_append, *])
  case h_1 | h_6 =>
    simp [and_assoc] at h
    obtain ⟨rfl, h⟩ := h
    exact encodes_two rfl rfl rfl (by simp [*]) (by simp [↓Word.eq_encX, ↓Word.has_append, *])
  case h_11 => cases h

theorem decodeAsync_encodes (h : decodeAsync op ⟨d, a, b, g, m⟩ x = .ok i) :
    Encodes es i (encV (BitVec.ofNat 7 op) d a b g m) x (extFollows op m (a.extractLsb' 0 2)) := by
  unfold decodeAsync at h
  split at h
  case h_1 =>
    simp [and_assoc] at h
    obtain ⟨g, rfl, hfn, hm, hz, hrow, -, hg⟩ := h
    refine encodes_two ?_ rfl rfl (by simp [*]) (by simp [↓Word.eq_encX, ↓Word.has_append, *])
    change (_ == _ || _ == _) = true
    simpa using hrow
  case h_2 =>
    simp [and_assoc] at h
    obtain ⟨g, rfl, h⟩ := h
    exact encodes_two rfl rfl rfl (by simp [*]) (by simp [↓Word.eq_encX, ↓Word.has_append, *])
  case h_3 =>
    simp [and_assoc, -BitVec.extractLsb'_toNat] at h
    obtain ⟨g, h, hrest⟩ := h
    split at h
    case h_1 hfn | h_2 hfn | h_3 hfn | h_4 hfn =>
      replace hfn := Word.fn_of_toNat hfn
      simp at h
      obtain ⟨rfl, h⟩ := h
      exact encodes_two rfl rfl rfl (by simp [*]) (by simp [↓Word.eq_encX, ↓Word.has_append, *])
    case h_5 => cases h
  case h_4 =>
    simp [and_assoc, -BitVec.extractLsb'_toNat] at h
    obtain ⟨g, h, hd, hb, hm, hc, hz, -, hg⟩ := h
    split at h
    case h_1 hfn =>
      replace hfn := Word.fn_of_toNat hfn
      cases hr : x[10] <;> simp [hr] at h <;> obtain ⟨rfl, h⟩ := h <;>
        exact encodes_two rfl rfl rfl (by simp [*]) (by simp [↓Word.eq_encX, ↓Word.has_append, *])
    case h_2 hfn =>
      replace hfn := Word.fn_of_toNat hfn
      simp at h
      obtain ⟨rfl, h⟩ := h
      exact encodes_two (x' := encX 0 1 (0#4 ++ 0#16)) rfl rfl rfl (by simp [*]) (by simp [↓Word.eq_encX, ↓Word.has_append, *])
    case h_3 => cases h
  case h_5 =>
    simp [and_assoc, -BitVec.extractLsb'_toNat] at h
    obtain ⟨g, h, hb, hm, hc, hz, -, hg⟩ := h
    split at h
    case h_1 hfn =>
      replace hfn := Word.fn_of_toNat hfn
      simp at h
      obtain ⟨rfl, h⟩ := h
      exact encodes_two (x' := encX 0 0 (0#3 ++ 0#17)) rfl rfl rfl (by simp [*]) (by simp [↓Word.eq_encX, ↓Word.has_append, *])
    case h_2 hfn =>
      replace hfn := Word.fn_of_toNat hfn
      cases hr : x[16] <;> simp [hr] at h <;> obtain ⟨rfl, h⟩ := h <;>
        exact encodes_two rfl rfl rfl (by simp [Src16.a, *]) (by simp [↓Word.eq_encX, ↓Word.has_append, Src16.rb, Src16.v, *])
    case h_3 => cases h
  case h_6 =>
    simp [and_assoc, -BitVec.extractLsb'_toNat] at h
    obtain ⟨h, hrest⟩ := h
    split at h
    case h_1 hfn | h_2 hfn =>
      replace hfn := Word.fn_of_toNat hfn
      cases h
      exact encodes_two rfl rfl rfl (by simp [*]) (by simp [↓Word.eq_encX, *])
    case h_3 => cases h
  case h_7 =>
    simp [and_assoc, -BitVec.extractLsb'_toNat] at h
    obtain ⟨g, h, hb, hm, hc, hz, -, hg⟩ := h
    split at h
    case h_1 hfn | h_2 hfn =>
      replace hfn := Word.fn_of_toNat hfn
      simp at h
      obtain ⟨rfl, h⟩ := h
      exact encodes_two rfl rfl rfl (by simp [*]) (by simp [↓Word.eq_encX, ↓Word.has_append, *])
    case h_3 hfn =>
      replace hfn := Word.fn_of_toNat hfn
      simp [and_assoc] at h
      obtain ⟨rfl, rfl, h⟩ := h
      exact encodes_two (x' := encX 0 2 (0#8 ++ 0#12)) rfl rfl rfl (by simp [*]) (by simp [↓Word.eq_encX, ↓Word.has_append, *])
    case h_4 => cases h
  case h_8 => cases h

theorem decodeV_encodes (h : decodeV es op ⟨d, a, b, g, m⟩ x = .ok i) :
    Encodes es i (encV (BitVec.ofNat 7 op) d a b g m) x (extFollows op m (a.extractLsb' 0 2)) := by
  unfold decodeV at h
  split_ifs at h
  · exact decodeInt_encodes h
  · exact decodeFloat_encodes h
  · exact decodeLane_encodes h
  · exact decodeControl_encodes h
  · exact decodeMatrix_encodes h
  · exact decodeAsync_encodes h

theorem decodeB_encodes {order : BitVec 2} {gb : BitVec 4} {off : BitVec 21} (h : decodeB op gb off = .ok i) :
    Encodes es i (encB (BitVec.ofNat 7 op) gb off) x (extFollows op m order) := by
  unfold decodeB at h
  split at h
  case h_1 | h_6 =>
    simp at h
    obtain ⟨rfl, rfl⟩ := h
    exact encodes_one rfl rfl rfl rfl
  case h_2 | h_3 =>
    simp at h
    obtain ⟨g, rfl, rfl⟩ := h
    exact encodes_one rfl rfl rfl rfl
  case h_4 =>
    simp at h
    obtain ⟨g, ⟨rfl, rfl⟩, rfl⟩ := h
    exact encodes_one rfl rfl rfl rfl
  case h_5 =>
    simp at h
    obtain ⟨⟨rfl, rfl⟩, rfl⟩ := h
    exact encodes_one rfl rfl rfl rfl
  case h_7 => cases h

end Rows

section MemoryRows

variable {es : Es} {i : Instr} {op : Nat} {d off : Reg} {stream g : BitVec 4} {order : BitVec 2} {size : BitVec 3} {x : Word}

theorem size_eq (size : BitVec 3) : bit1 size[2] ++ size.extractLsb' 0 2 = size := by revert size; decide

theorem MemExt.eq_bits {v : MW} (hhi : Word.fld x 20 12 = 0) (hlo : Word.fld x 0 14 = 0) : x = (MemExt.ofWords v x).bits := by
  simp_all [MemExt.bits, MemExt.ofWords, Word.eq_word, ↓Word.has_append]

theorem PanelExt.eq_bits (hfn : Word.fn x = 0) (hlo : Word.fld x 0 2 = 0) : x = (PanelExt.ofWord x).bits := by
  simp_all [PanelExt.bits, PanelExt.ofWord, Word.eq_word, ↓Word.has_append]

theorem decMem_encodes {hint sx : Bool} {short : Guard → Reg → MemOp → BitVec 2 → Instr}
    {ext : Guard → Reg → MemOp → BitVec 2 → MemExt → Instr}
    (h : decMem ⟨d, stream, order, off, g, size⟩ x hint sx short ext = .ok i)
    (hext : extFollows op size order = (order != 0 || size.getLsbD 2))
    (hshort : ∀ g d m w, (short g d m w).wf es = true ∧ encode (short g d m w) = encMemS (BitVec.ofNat 7 op) g d m w)
    (hlong : ∀ g d m w e, (ext g d m w e).wf es = e.wf hint sx ∧ encode (ext g d m w e) = encMemE (BitVec.ofNat 7 op) g d m w e) :
    Encodes es i (encM (BitVec.ofNat 7 op) d ⟨stream, off⟩ order g size) x (extFollows op size order) := by
  simp only [decMem, withG_ok] at h
  obtain ⟨g, h, rfl⟩ := h
  have hsize := size_eq size
  split at h
  next hs =>
    obtain ⟨rfl, hx⟩ := hs
    cases h
    obtain ⟨hwf, henc⟩ := hshort g d ⟨stream, off⟩ (size.extractLsb' 0 2)
    rw [BitVec.getLsbD_eq_getElem (by decide)] at hx
    rw [hx] at hsize
    have hnone : extFollows op size 0 = false := by rw [hext, BitVec.getLsbD_eq_getElem (by decide), hx]; rfl
    exact encodes_one hwf henc hnone (congrArg (encM _ d ⟨stream, off⟩ 0 g.bits) hsize.symm)
  next hs =>
    simp only [req_ok, Except.ok.injEq, Bool.and_eq_true, beq_iff_eq] at h
    obtain ⟨rfl, ⟨⟨⟨hhi, hlo⟩, hscope⟩, hhint⟩, hsx⟩ := h
    obtain ⟨hwf, henc⟩ := hlong g d ⟨stream, off⟩ (size.extractLsb' 0 2) (.ofWords ⟨d, stream, order, off, g.bits, size⟩ x)
    have hlast : extFollows op size order = true := by
      rw [hext]
      simpa [imp_iff_not_or, or_comm] using hs
    refine encodes_two (hwf.trans ?_) henc hlast (congrArg (encM _ d ⟨stream, off⟩ order g.bits) hsize.symm)
      (MemExt.eq_bits hhi hlo)
    simp_all [MemExt.wf, MemExt.ofWords, imp_iff_not_or, or_comm]

theorem decodeM_encodes (h : decodeM op ⟨d, stream, order, off, g, size⟩ x = .ok i) :
    Encodes es i (encM (BitVec.ofNat 7 op) d ⟨stream, off⟩ order g size) x (extFollows op size order) := by
  unfold decodeM at h
  dsimp only at h
  split at h
  case h_1 | h_2 | h_3 | h_4 | h_5 | h_6 => exact decMem_encodes h rfl (fun _ _ _ _ => ⟨rfl, rfl⟩) (fun _ _ _ _ _ => ⟨rfl, rfl⟩)
  case h_7 | h_8 =>
    simp [and_assoc] at h
    obtain ⟨g, rfl, h⟩ := h
    exact encodes_one rfl rfl rfl (by simp [*])
  case h_9 =>
    simp [and_assoc] at h
    obtain ⟨g, ⟨v, rfl, hfn⟩, hz, hc, hscope, rfl⟩ := h
    refine encodes_two ?_ rfl rfl rfl (by simp [↓Word.eq_encX, ↓Word.has_append, *])
    change ((v == .cas || _ == _) && (_ != _ || _ == _)) = true
    simpa [hfn, AmoOp.bits_eq_one, hscope] using hc
  case h_10 | h_12 =>
    simp [and_assoc] at h
    obtain ⟨g, rfl, h⟩ := h
    exact encodes_two rfl rfl rfl (by simp [*]) (by simp [↓Word.eq_encX, ↓Word.has_append, *])
  case h_11 =>
    simp [and_assoc] at h
    obtain ⟨g, h, rfl, rfl, rfl⟩ := h
    split_ifs at h with hs
    · cases h
      exact encodes_one rfl rfl rfl (by rw [hs]; rfl)
    · simp at h
      obtain ⟨rfl, rfl⟩ := h
      exact encodes_one rfl rfl rfl rfl
  case h_13 | h_14 =>
    simp [and_assoc] at h
    obtain ⟨g, rfl, hfn, hz, hscope, rfl⟩ := h
    refine encodes_two ?_ rfl rfl rfl (PanelExt.eq_bits hfn hz)
    change (_ != _ || _ == _) = true
    simpa [PanelExt.ofWord] using hscope
  case h_15 => cases h

end MemoryRows

/-- R146, R159: format I is `movi` alone, and 0x48 is `rep`; neither takes an extension word. -/
theorem opInfo_lone (op : BitVec 7) : (opInfo op.toNat).all (fun r =>
    (r.1 != .i || op == 0x03 && r.2.2 == .never) && (r.1 != .rep || op == 0x48 && r.2.2 == .never)) = true := by
  revert op
  decide

/-- R147, R164: a word pair that decodes is the encoding of the instruction it gives. -/
theorem decodeWord_encodes {es : Es} {w x : Word} {i : Instr} (h : decodeWord es w x = .ok i) :
    Encodes es i w x (Word.hasExt w) := by
  have hop : BitVec.ofNat 7 (Word.opcode w) = Word.fld w 25 7 := by rw [Word.opcode, BitVec.ofNat_toNat, BitVec.setWidth_eq]
  rw [Word.hasExt_eq]
  cases hinfo : opInfo (Word.opcode w) with
  | none =>
    simp only [decodeWord, hinfo, Except.ok.injEq] at h
    subst h
    exact encodes_one (Option.isNone_iff_eq_none.mpr hinfo) rfl (by simp [extFollows, hinfo]) rfl
  | some row =>
    obtain ⟨fmt, cls, cat⟩ := row
    cases fmt with
    | v =>
      rw [decodeWord_v hinfo] at h
      have henc := decodeV_encodes h
      rwa [hop, ← Word.eq_encV.mpr ⟨rfl, rfl⟩, Word.fld_fld (by decide)] at henc
    | m =>
      rw [decodeWord_m hinfo] at h
      have henc := decodeM_encodes (es := es) h
      rwa [hop, ← Word.eq_encM.mpr ⟨rfl, rfl⟩] at henc
    | b =>
      simp only [decodeWord, hinfo] at h
      have henc := decodeB_encodes (es := es) (x := x) (m := Word.fld w 0 3) (order := Word.fld w 13 2) h
      rwa [hop, ← Word.eq_encB.mpr ⟨rfl, rfl, rfl⟩] at henc
    | i =>
      have hlone := opInfo_lone (Word.fld w 25 7)
      rw [← Word.opcode, hinfo] at hlone
      obtain ⟨hmovi, rfl⟩ : Word.fld w 25 7 = 0x03 ∧ cat = .never := by simpa using hlone
      simp [decodeWord, hinfo, and_assoc] at h
      obtain ⟨g, rfl, ha, hg⟩ := h
      refine encodes_one rfl rfl (by simp [extFollows, hinfo]) (Word.eq_encI.mpr ⟨hmovi, rfl, ha, rfl, hg⟩)
    | rep =>
      have hlone := opInfo_lone (Word.fld w 25 7)
      rw [← Word.opcode, hinfo] at hlone
      obtain ⟨hrep, rfl⟩ : Word.fld w 25 7 = 0x48 ∧ cat = .never := by simpa using hlone
      simp [decodeWord, hinfo] at h
      obtain ⟨rfl, hz⟩ := h
      exact encodes_one rfl rfl (by simp [extFollows, hinfo]) (by simp [Word.eq_word, ↓Word.has_append, hz, hrep])

/-! ### Headers (R140) -/

@[simp] theorem Es.ofBits_bits (e : Es) : Es.ofBits e.bits = e := by cases e <;> rfl

@[simp] theorem Es.bits_ofBits (b : BitVec 2) : (Es.ofBits b).bits = b := by revert b; decide

@[simp] theorem Cls.ofBits_bits (c : Cls) : Cls.ofBits c.bits = some c := by cases c <;> rfl

@[simp] theorem Cls.ofBits_eq_some {b : BitVec 3} {c : Cls} : Cls.ofBits b = some c ↔ b = c.bits :=
  reads_back (by decide) Cls.ofBits_bits

theorem flagOfBits_getD {f : Option (BitVec 4)} (h : ∀ n, f = some n → n.toNat < 12) : flagOfBits (f.getD 15) = some f := by
  cases f with
  | none => rfl
  | some n =>
    have hn := h n rfl
    have hne : n ≠ 15 := by
      rintro rfl
      exact absurd hn (by decide)
    rw [flagOfBits, Option.getD_some, if_neg hne, if_pos hn]

theorem getD_of_flagOfBits {b : BitVec 4} {f : Option (BitVec 4)} (h : flagOfBits b = some f) : f.getD 15 = b := by
  unfold flagOfBits at h
  split_ifs at h with hb
  · cases h
    exact hb.symm
  · cases h
    rfl

theorem eq_encodeHeader {w : Word} {h : Header} : w = encodeHeader h ↔
    Word.fld w 29 3 = 5 ∧ Word.fld w 25 4 = h.setB.getD 15 ∧ Word.fld w 21 4 = h.setA.getD 15 ∧ Word.fld w 9 12 = h.wait ∧
      Word.fld w 6 3 = h.cls.bits ∧ Word.fld w 4 2 = h.es.bits ∧ Word.fld w 0 4 = h.count := by
  have hword : encodeHeader h = word (5#3 ++ h.setB.getD 15 ++ h.setA.getD 15 ++ h.wait ++ h.cls.bits ++ h.es.bits ++ h.count) := rfl
  rw [hword]
  simp [Word.eq_word, ↓Word.has_append, and_assoc]

theorem decodeHeader_encodeHeader {h : Header} (hcount : h.count ≠ 0) (hflags : ∀ f, h.setA = some f ∨ h.setB = some f → f.toNat < 12) :
    decodeHeader (encodeHeader h) = some h := by
  obtain ⟨hmark, hb, ha, hwait, hcls, hes, hc⟩ := eq_encodeHeader.mp (rfl : encodeHeader h = _)
  have hsetA := flagOfBits_getD fun f hf => hflags f (.inl hf)
  have hsetB := flagOfBits_getD fun f hf => hflags f (.inr hf)
  rw [decodeHeader, if_pos ⟨hmark, hc ▸ hcount⟩, hb, ha, hwait, hcls, hes, hc, hsetA, hsetB, Cls.ofBits_bits, Es.ofBits_bits]

theorem encodeHeader_of_decodeHeader {w : Word} {h : Header} (hdec : decodeHeader w = some h) : encodeHeader h = w := by
  unfold decodeHeader at hdec
  split at hdec
  next hmark =>
    split at hdec
    next sb sa c hb ha hcls =>
      cases hdec
      exact (eq_encodeHeader.mpr ⟨hmark.1, (getD_of_flagOfBits hb).symm, (getD_of_flagOfBits ha).symm, rfl, Cls.ofBits_eq_some.mp hcls,
        (Es.bits_ofBits _).symm, rfl⟩).symm
    next => cases hdec
  next => cases hdec

end Sys2Proof

/-- Settles O2: each row's checks leave no bit of a word unread, and a header is its fields side by side. -/
theorem legalWordsHaveOneReading : Obligations.LegalWordsHaveOneReading := by
  refine ⟨fun es w x i h => Sys2Proof.decodeWord_encodes h, fun h => Sys2Proof.decodeHeader_encodeHeader, fun w h =>
    Sys2Proof.encodeHeader_of_decodeHeader⟩
end

section
/-!
SUPPORT. Where a group at a `rep` is held back by the repetition that its turn would suspend (R27, R220), the selection goes on among
threads put back at their `rep`; one of these may have stood at another header, and the statement reads the clause there.
-/

namespace Sys2Proof.Machine

/-- A skein of two threads at headers: a starved one whose clause is a `rep`, and one in the midst of a repetition whose `rep` stands at
an address that level 0 does not hold. -/
def suspendedRep : Skein :=
  { uid := 1
    slot := some 0
    threads := [{ pc := 0x100, exited := false, starve := 32 }, { pc := 0x108, exited := false, rep := some ⟨2, 0, 1, 0x500, 0⟩ }] }

/-- That skein, its two clauses in level 0: a `rep`, and a `nop`. -/
def repMachine : State :=
  let hdr := encodeHeader ⟨none, none, 0, .vector, .e32, 1⟩
  { State.reset with
    contexts := [{ num := 0, state := .running }]
    skeins := [suspendedRep]
    ilines := [⟨0, some 0, 0, 2, ([hdr, 0x90000000, hdr, 0x02000000].map Word.bytes).flatten ++ List.replicate 112 0, 0, 0, 0, false⟩] }

theorem repMachine_pick : repMachine.pick suspendedRep = some ⟨1, 2, some 1⟩ := by decide +kernel

/-- The clause at the header where the second thread stands. -/
theorem repMachine_clause : readClause (repMachine.l0Word suspendedRep) 0x108 =
    .ok (encodeHeader ⟨none, none, 0, .vector, .e32, 1⟩) ⟨none, none, 0, .vector, .e32, 1⟩ [0x02000000] := by decide +kernel

/-- What the skein does: it fetches the clause of the `rep` that the second thread was put back at. -/
theorem repMachine_plan : repMachine.plan suspendedRep = .fetch 2 0x500 [0x500] := by decide +kernel

end Sys2Proof.Machine

/-- Refutes O5: the selection may suspend a repetition (R220) and then take its thread, at the repetition's `rep`; a thread in the midst of
a repetition that stands at a header, as only an unreached state holds it, is not where it stood, and its clause is not what issues. -/
theorem not_clauseWordsIssue : ¬ Obligations.ClauseWordsIssue := by
  rintro ⟨-, hheader, -⟩
  have hplan := hheader Sys2Proof.Machine.repMachine Sys2Proof.Machine.suspendedRep _ _ _ _ (by decide)
    Sys2Proof.Machine.repMachine_pick rfl Sys2Proof.Machine.repMachine_clause (by decide)
  rw [Sys2Proof.Machine.repMachine_plan] at hplan
  cases hplan
end

section
/-!
SUPPORT. What lands in registers when a long operation is done (R143, R308), and what its landing leaves of the skein.
-/

namespace Sys2Proof.Machine

/-! ### Masks, flags and lists -/

/-- The mask of a lane predicate holds the lanes of the predicate. -/
theorem getLsbD_laneMask (f : Nat → Bool) {l : Nat} (hl : l < 32) : (laneMask f).getLsbD l = f l := by
  have hmask : laneMask f = BitVec.ofFnLE fun i : Fin 32 => f i := by
    refine Eq.trans ?_ (laneMask_getLsbD _)
    rw [laneMask_eq_sum, laneMask_eq_sum]
    congr 3
    refine List.filter_congr fun i hi => ?_
    rw [BitVec.getLsbD_ofFnLE, dif_pos (List.mem_range.mp hi)]
  rw [hmask, BitVec.getLsbD_ofFnLE, dif_pos hl]

theorem decFlag_getD (flags : List Nat) (f : Option (BitVec 4)) {n : Nat} (hn : n < 12) :
    (decFlag flags f).getD n 0 = flags.getD n 0 - if f.map (·.toNat) = some n then 1 else 0 := by
  cases f with
  | none => rfl
  | some f =>
    simp only [decFlag, bankUpd_getD 12 0 flags f.toNat (· - 1) n hn, Option.map_some, Option.some.injEq, eq_comm (a := n)]
    split <;> rfl

/-- The operations of one name replaced: each other operation stands. -/
theorem mem_flatMap_replaced {ops : List LongOp} {id : Nat} {new : List LongOp} (hnew : ∀ y ∈ new, y.id = id) {x : LongOp}
    (hx : x.id ≠ id) : (x ∈ ops.flatMap fun y => if y.id == id then new else [y]) ↔ x ∈ ops := by
  rw [List.mem_flatMap]
  constructor
  · rintro ⟨y, hy, hxy⟩
    split at hxy
    · exact absurd (hnew x hxy) hx
    · rwa [List.mem_singleton.mp hxy]
  · exact fun h => ⟨x, h, by simp [hx]⟩

/-- The operations of one name replaced: what has that name is the replacement. -/
theorem mem_flatMap_replacement {ops : List LongOp} {id : Nat} {new : List LongOp} {x : LongOp} (hid : x.id = id)
    (hx : x ∈ ops.flatMap fun y => if y.id == id then new else [y]) : x ∈ new := by
  obtain ⟨y, -, hxy⟩ := List.mem_flatMap.mp hx
  split at hxy
  · exact hxy
  · next hy =>
    obtain rfl := List.mem_singleton.mp hxy
    exact absurd (beq_iff_eq.mpr hid) hy

/-! ### The writes of a long operation -/

/-- A register that takes the writes that land in it, newest first. -/
def VReg.take (x : VReg) (uni : Bool) (mine : List LaneWrite) : VReg :=
  let val := fun l => ((mine.find? fun w => w.lane == l).map (·.val)).getD 0
  let bad := fun l => ((mine.find? fun w => w.lane == l).map (·.poison)).getD false
  let p := fun l => mine.any fun w => w.lane == l
  let y := x.put p val (if uni && allLanes.all p then Tag.uniform.norm val else .general)
  { y with poison := y.poison ||| laneMask bad }

theorem VReg.take_lane (x : VReg) (uni : Bool) (mine : List LaneWrite) {l : Nat} (hl : l < 32) :
    (x.take uni mine).lanes.getD l 0 = ((mine.find? fun w => w.lane == l).map (·.val)).getD (x.lanes.getD l 0) := by
  unfold VReg.take
  dsimp only
  rw [VReg.put_lane _ _ _ _ _ hl, ← List.isSome_find?]
  cases mine.find? fun w => w.lane == l <;> rfl

theorem VReg.take_poison (x : VReg) (uni : Bool) (mine : List LaneWrite) {l : Nat} (hl : l < 32) :
    (x.take uni mine).poison.getLsbD l = ((mine.find? fun w => w.lane == l).map (·.poison)).getD (x.poison.getLsbD l) := by
  simp only [VReg.take, VReg.put, BitVec.getLsbD_or, BitVec.getLsbD_and, BitVec.getLsbD_not, getLsbD_laneMask _ hl, hl,
    decide_true, Bool.true_and]
  rw [← List.isSome_find?]
  cases mine.find? fun w => w.lane == l <;> simp

/-- The writes that land in one register, newest first. -/
def newestOf (ws : List LaneWrite) (r : Nat) : List LaneWrite := (ws.filter fun w => w.reg == r).reverse

theorem newestOf_find (ws : List LaneWrite) (r l : Nat) :
    (newestOf ws r).find? (fun w => w.lane == l) = ws.reverse.find? fun w => w.reg == r && w.lane == l := by
  rw [newestOf, ← List.filter_reverse, List.find?_filter]
  simp only [Bool.decide_and, Bool.decide_eq_true]

/-- One register's share of a landing. -/
def Skein.landReg (uni : Bool) (ws : List LaneWrite) (k : Skein) (r : Nat) : Skein :=
  { k with regs := bankUpd 64 {} k.regs r fun x => x.take uni (newestOf ws r) }

theorem Skein.landWrites_eq (k : Skein) (uni : Bool) (ws : List LaneWrite) :
    k.landWrites uni ws = (ws.map (·.reg)).dedup.foldl (Skein.landReg uni ws) k := rfl

theorem Skein.landReg_foldl_rest (uni : Bool) (ws : List LaneWrite) (rs : List Nat) (k : Skein) :
    rs.foldl (Skein.landReg uni ws) k = { k with regs := (rs.foldl (Skein.landReg uni ws) k).regs } := by
  induction rs generalizing k with
  | nil => rfl
  | cons r rs ih => rw [List.foldl_cons, ih]; rfl

/-- The writes of each register land in it once. -/
theorem Skein.landReg_foldl_reg (uni : Bool) (ws : List LaneWrite) {rs : List Nat} (hrs : rs.Nodup) (k : Skein) {j : Nat}
    (hj : j < 64) : (rs.foldl (Skein.landReg uni ws) k).reg j = if j ∈ rs then (k.reg j).take uni (newestOf ws j) else k.reg j := by
  induction rs generalizing k with
  | nil => rfl
  | cons r rs ih =>
    obtain ⟨hr, hrs⟩ := List.nodup_cons.mp hrs
    rw [List.foldl_cons, ih hrs, show (Skein.landReg uni ws k r).reg j = _ from k.reg_bankUpd r _ j hj]
    by_cases hjr : j = r
    · subst hjr
      simp [hr]
    · simp [hjr]

theorem Skein.landWrites_rest (k : Skein) (uni : Bool) (ws : List LaneWrite) :
    k.landWrites uni ws = { k with regs := (k.landWrites uni ws).regs } :=
  Skein.landReg_foldl_rest uni ws _ k

/-- A register without a write takes none. -/
theorem newestOf_eq_nil {ws : List LaneWrite} {r : Nat} (h : r ∉ ws.map (·.reg)) : newestOf ws r = [] := by
  rw [newestOf, List.reverse_eq_nil_iff, List.filter_eq_nil_iff]
  exact fun w hw hr => h (List.mem_map.mpr ⟨w, hw, by simpa using hr⟩)

theorem Skein.landWrites_reg (k : Skein) (uni : Bool) (ws : List LaneWrite) {j : Nat} (hj : j < 64) :
    (k.landWrites uni ws).reg j = if j ∈ ws.map (·.reg) then (k.reg j).take uni (newestOf ws j) else k.reg j := by
  simp only [Skein.landWrites_eq, Skein.landReg_foldl_reg uni ws (List.nodup_dedup _) k hj, List.mem_dedup]

/-- A lane holds the newest write for it. -/
theorem Skein.landWrites_lane (k : Skein) (uni : Bool) (ws : List LaneWrite) {r l : Nat} (hr : r < 64) (hl : l < 32) :
    (k.landWrites uni ws).lane r l =
      ((ws.reverse.find? fun w => w.reg == r && w.lane == l).map (·.val)).getD (k.lane r l) := by
  rw [← newestOf_find, Skein.lane, k.landWrites_reg uni ws hr]
  split
  · exact VReg.take_lane _ _ _ hl
  · next hnone => rw [newestOf_eq_nil hnone]; rfl

/-- A lane is poisoned where the newest write for it is. -/
theorem Skein.landWrites_poison (k : Skein) (uni : Bool) (ws : List LaneWrite) {r l : Nat} (hr : r < 64) (hl : l < 32) :
    ((k.landWrites uni ws).reg r).poison.getLsbD l =
      ((ws.reverse.find? fun w => w.reg == r && w.lane == l).map (·.poison)).getD ((k.reg r).poison.getLsbD l) := by
  rw [← newestOf_find, k.landWrites_reg uni ws hr]
  split
  · exact VReg.take_poison _ _ _ hl
  · next hnone => rw [newestOf_eq_nil hnone]; rfl

/-! ### Landing and release -/

/-- What stands of an operation that has landed: its hold on the registers it reads. -/
def LongOp.afterLanding (o : LongOp) : List LongOp :=
  if o.held.isEmpty && o.setB.isNone then []
  else [{ o with pend := [], writes := [], pushes := [], flags := [], setA := none, load := false }]

/-- What stands of an operation that has read its registers: its write. -/
def LongOp.afterReading (o : LongOp) : List LongOp := if o.pend.isEmpty then [] else [{ o with held := [], setB := none }]

theorem LongOp.mem_afterLanding {o x : LongOp} (h : x ∈ o.afterLanding) : x.id = o.id ∧ x.pend = [] := by
  unfold LongOp.afterLanding at h
  split at h
  · cases h
  · obtain rfl := List.mem_singleton.mp h
    exact ⟨rfl, rfl⟩

theorem LongOp.mem_afterReading {o x : LongOp} (h : x ∈ o.afterReading) : x.id = o.id ∧ x.held = [] := by
  unfold LongOp.afterReading at h
  split at h
  · cases h
  · obtain rfl := List.mem_singleton.mp h
    exact ⟨rfl, rfl⟩

section Landing
variable (k : Skein) (o : LongOp)

theorem Skein.land_ops : (k.land o).ops = k.ops.flatMap fun x => if x.id == o.id then o.afterLanding else [x] := by
  show List.flatMap _ ((k.landWrites o.uni o.writes).landPushes o |>.landFlags o).ops = _
  rw [Skein.landWrites_rest]
  rfl

theorem Skein.land_flags : (k.land o).flags = decFlag k.flags o.setA := by
  show decFlag ((k.landWrites o.uni o.writes).landPushes o |>.landFlags o).flags o.setA = _
  rw [Skein.landWrites_rest]
  rfl

theorem Skein.land_rest : k.land o =
    { k with regs := (k.land o).regs, threads := (k.land o).threads, flags := (k.land o).flags, ops := (k.land o).ops } := by
  unfold Skein.land Skein.landFlags Skein.landPushes Skein.updThreads
  rw [Skein.landWrites_rest]

end Landing

/-- REGISTER_WRITE_LAND lands an operation whose values have come. -/
theorem State.registerWriteLand_lands {s : State} {u : Nat} {k : Skein} {o : LongOp} (hk : s.sk? u = some k) (hw : k.waits = [])
    (ho : k.ops.find? (fun x => x.id == o.id) = some o) (hmatrix : o.matrix = false) (hpend : o.pend ≠ []) (hawait : o.await = 0)
    (hfail : o.fail = none) (hahead : k.pushesAhead o = false) :
    ∃ t, exec (.registerWriteLand u o.id) s = .next t ∧ s.SkBecame t u (k.land o) := by
  have hland := State.updSk_became hk (f := fun k => k.land o) fun k => by rw [k.land_rest o]
  refine ⟨_, ?_, hland⟩
  show execRegisterWriteLand u o.id s = _
  simp only [execRegisterWriteLand, s.sk_eq hk, ho, List.isEmpty_eq_false_iff.mpr hpend, hawait, hfail, hmatrix, hahead]
  refine congrArg Host.Outcome.next (State.settle_idle hland.there ?_)
  rw [k.land_rest o]
  exact hw

/-- SOURCE_RELEASE releases what an operation holds. -/
theorem State.sourceRelease_releases {s : State} {u : Nat} {k : Skein} {o : LongOp} (hk : s.sk? u = some k) (hw : k.waits = [])
    (ho : k.ops.find? (fun x => x.id == o.id) = some o) (hmatrix : o.matrix = false) (hheld : o.held ≠ [] ∨ o.setB ≠ none) :
    ∃ t, exec (.sourceRelease u o.id) s = .next t ∧ s.SkBecame t u (k.releaseSrc o) := by
  have hrel := State.updSk_became hk (f := fun k => k.releaseSrc o) fun _ => rfl
  have hsome : (o.held.isEmpty && o.setB.isNone) = false := by
    rcases hheld with h | h
    · simp [h]
    · simp [Option.isNone_eq_false_iff.mpr (Option.isSome_iff_ne_none.mpr h)]
  refine ⟨_, ?_, hrel⟩
  show execSourceRelease u o.id s = _
  simp only [execSourceRelease, s.sk_eq hk, ho, hsome, hmatrix]
  exact congrArg Host.Outcome.next (State.settle_idle hrel.there hw)

theorem claim_longOperationsLand : Claim.LongOperationsLand := by
  intro u k o s hk hw ho hmatrix
  refine ⟨fun hpend hawait hfail hahead => ?_, fun hheld => ?_⟩
  · obtain ⟨t, hexec, hrest, hthere, hothers⟩ := State.registerWriteLand_lands hk hw ho hmatrix hpend hawait hfail hahead
    refine ⟨t, k.land o, hexec, hrest, hthere, hothers, k.land_rest o, fun r l hr hl => ?_, fun r l hr hl => ?_, fun n hn => ?_,
      fun x hx hid => ?_, fun x hx => ?_⟩
    · refine (k.landWrites_lane o.uni o.writes hr hl).trans ?_
      cases o.writes.reverse.find? fun w => w.reg == r && w.lane == l <;> rfl
    · refine (k.landWrites_poison o.uni o.writes hr hl).trans ?_
      cases o.writes.reverse.find? fun w => w.reg == r && w.lane == l <;> rfl
    · rw [k.land_flags o]
      exact decFlag_getD _ _ hn
    · rw [k.land_ops o] at hx
      exact (LongOp.mem_afterLanding (mem_flatMap_replacement hid hx)).2
    · rw [k.land_ops o]
      exact mem_flatMap_replaced (fun _ hy => (LongOp.mem_afterLanding hy).1) hx
  · obtain ⟨t, hexec, hrest, hthere, hothers⟩ := State.sourceRelease_releases hk hw ho hmatrix hheld
    exact ⟨t, k.releaseSrc o, hexec, hrest, hthere, hothers, rfl, fun n hn => decFlag_getD _ _ hn,
      fun x hx hid => (LongOp.mem_afterReading (mem_flatMap_replacement hid hx)).2,
      fun x hx => mem_flatMap_replaced (fun _ hy => (LongOp.mem_afterReading hy).1) hx⟩

end Sys2Proof.Machine
end

section
/-!
SUPPORT. What comes back for an access (R98, R111 to R113): the access off its list, its skein told.
-/

namespace Sys2Proof.Machine

/-- The one element that satisfies a test is what the test finds. -/
theorem find?_of_unique {α : Type} {l : List α} {p : α → Bool} {a : α} (ha : a ∈ l) (hp : p a = true)
    (hone : ∀ y ∈ l, p y = true → y = a) : l.find? p = some a := by
  cases hfind : l.find? p with
  | none => exact absurd hp (List.find?_eq_none.mp hfind a ha)
  | some y => rw [hone y (List.mem_of_find?_eq_some hfind) (List.find?_some hfind)]

theorem State.updSk_updSk (s : State) (u : Nat) {f : Skein → Skein} (hf : ∀ k, (f k).uid = k.uid) (g : Skein → Skein) :
    (s.updSk u f).updSk u g = s.updSk u fun k => g (f k) := by
  simp only [State.updSk, List.map_map]
  congr 1
  refine List.map_congr_left fun k _ => ?_
  by_cases h : k.uid = u <;> simp [h, hf]

/-- The state after an access has gone: off its list, and its skein changed. -/
def State.accessGone (s : State) (a : Access) (f : Skein → Skein) : State :=
  { s.updSk a.sk f with accesses := s.accesses.filter fun x => x.id != a.id }

/-- A state differs from another in that an access has gone, and in the skein it went back to. -/
def State.LostAccess (s t : State) (a : Access) : Prop :=
  t.accesses = s.accesses.filter (fun x => x.id != a.id) ∧
    t = { s with skeins := t.skeins, accesses := t.accesses } ∧ ∀ u, u ≠ a.sk → t.sk? u = s.sk? u

section Gone
variable {s : State} {a : Access} {k : Skein}

theorem State.sk?_accessGone (s : State) (a : Access) {f : Skein → Skein} (hf : ∀ k, (f k).uid = k.uid) (u : Nat) :
    (s.accessGone a f).sk? u = if u = a.sk then (s.sk? u).map f else s.sk? u := s.sk?_updSk a.sk f hf u

theorem State.accessGone_there (hk : s.sk? a.sk = some k) {f : Skein → Skein} (hf : ∀ k, (f k).uid = k.uid) :
    (s.accessGone a f).sk? a.sk = some (f k) := by
  rw [s.sk?_accessGone a hf, if_pos rfl, hk, Option.map_some]

theorem State.accessGone_lost (s : State) (a : Access) {f : Skein → Skein} (hf : ∀ k, (f k).uid = k.uid) :
    s.LostAccess (s.accessGone a f) a :=
  ⟨rfl, rfl, fun u hu => (s.sk?_accessGone a hf u).trans (if_neg hu)⟩

/-- A skein that is left without waits has none to settle. -/
theorem State.accessGone_settle (hk : s.sk? a.sk = some k) {f : Skein → Skein} (hf : ∀ k, (f k).uid = k.uid)
    (hw : (f k).waits = []) : (s.accessGone a f).settle a.sk = s.accessGone a f :=
  State.settle_idle (State.accessGone_there hk hf) hw

end Gone

/-! ### The fault records of a skein -/

/-- R112, R113: a fault record queued in a skein, or held back where eight stand there, its operation failed. -/
def Skein.queued (k : Skein) (f : FaultRec) (posted : Bool) : Skein :=
  let k : Skein := match f.op with
    | some id => { k with ops := k.ops.map fun (o : LongOp) => if o.id == id then { o with fail := some .remote } else o }
    | none => k
  if k.faultQ.length < 8 then { k with faultQ := k.faultQ ++ [f], unacked := if posted then k.unacked - 1 else k.unacked }
  else { k with faultHeld := k.faultHeld ++ [f], unacked := if posted then k.unacked else k.unacked + 1 }

theorem State.queueFault_eq (s : State) (u : Nat) (f : FaultRec) (posted : Bool) :
    s.queueFault u f posted = s.updSk u fun k => k.queued f posted := rfl

section Queued
variable (k : Skein) (f : FaultRec) (posted : Bool)

/-- A record queued leaves the skein but for its operations, its records and its count of posted stores. -/
theorem Skein.queued_rest : k.queued f posted =
    { k with ops := (k.queued f posted).ops, faultQ := (k.queued f posted).faultQ, faultHeld := (k.queued f posted).faultHeld,
             unacked := (k.queued f posted).unacked } := by
  unfold Skein.queued
  cases f.op <;> dsimp only <;> split <;> rfl

theorem Skein.queued_faultQ : (k.queued f posted).faultQ = if k.faultQ.length < 8 then k.faultQ ++ [f] else k.faultQ := by
  unfold Skein.queued
  cases f.op <;> dsimp only <;> split <;> rfl

theorem Skein.queued_ops : (k.queued f posted).ops =
    k.ops.map fun o => if f.op = some o.id then { o with fail := some .remote } else o := by
  unfold Skein.queued
  cases f.op with
  | none => simp only [reduceCtorEq, if_false, List.map_id']; split <;> rfl
  | some id => simp only [Option.some.injEq, beq_iff_eq, eq_comm (a := id)]; split <;> rfl

end Queued

/-! ### What comes back -/

/-- The values that a peer's answer brings to the lanes of an access. -/
def Access.answered (a : Access) (data : List Lane) : List LaneWrite :=
  (List.range a.lanes.length).map fun i =>
    let x := a.lanes.getD i ⟨0, 0, 0, 0, 0, 0⟩
    let w := 8 * a.width
    let v := (data.getD i 0).toNat % 2 ^ w
    let d : Lane := match a.kind with | .load true => BitVec.ofInt 64 (sgn w v) | _ => u64 v
    (⟨x.reg, x.lane, d, false⟩ : LaneWrite)

/-- Without sign extension each lane receives the low bytes of its value. -/
theorem Access.answered_unsigned {a : Access} (h : a.kind ≠ .load true) (data : List Lane) : a.answered data =
    a.lanes.zipIdx.map fun x =>
      ⟨x.1.reg, x.1.lane, BitVec.ofNat 64 ((data.getD x.2 0).toNat % 2 ^ (8 * a.width)), false⟩ := by
  refine List.ext_getElem (by simp [Access.answered]) fun i hi _ => ?_
  have hlane : i < a.lanes.length := by simpa [Access.answered] using hi
  simp only [Access.answered, List.getElem_map, List.getElem_range, List.getElem_zipIdx, Nat.zero_add,
    List.getD_eq_getElem?_getD, List.getElem?_eq_getElem hlane, Option.getD_some]
  rfl

/-- A skein takes an answer: its operation the values, and so the waits that asked for them. -/
def Skein.answer (k : Skein) (a : Access) (ws : List LaneWrite) : Skein :=
  let k := k.handed a ws []
  { k with waits := k.waits.map fun w => if a.op == some w.id then w.note ws else w }

theorem Skein.answer_idle {k : Skein} (hw : k.waits = []) (a : Access) (ws : List LaneWrite) :
    k.answer a ws = k.handed a ws [] := by
  simp [Skein.answer, Skein.handed, hw]

/-- A completion time noted before the values come, or after. -/
theorem Skein.handed_noteWct (k : Skein) (from' w : Nat) (a : Access) (ws : List LaneWrite) (ps : List (Nat × Bool)) :
    (k.noteWct from' w).handed a ws ps = { k.handed a ws ps with wct := (k.noteWct from' w).wct } := rfl

section Returning
variable {s : State} {a : Access} {k : Skein} (ha : a ∈ s.accesses) (hone : ∀ y ∈ s.accesses, y.id = a.id → y = a)
  (hk : s.sk? a.sk = some k) (hw : k.waits = []) (hs : a.sample = none)
include hk hw hs in
/-- A fault record that arrives while the context runs is queued in the skein. -/
theorem State.recordArrives_gone (hrun : (s.ctx a.ctx).halted = false) (code : Byte) :
    s.recordArrives a code = s.accessGone a fun k => k.queued (a.record code) a.posted := by
  have hsample (t : State) : t.sampleFail a = t := by simp [State.sampleFail, hs]
  have huid (k : Skein) : (k.queued (a.record code) a.posted).uid = k.uid := by rw [Skein.queued_rest]
  simp only [State.recordArrives, hk, hrun, State.failAccess, hsample, State.queueFault_eq]
  refine State.accessGone_settle hk huid ?_
  rw [Skein.queued_rest]
  exact hw

include ha hone

/-- An access is found by its name and what holds of it. -/
theorem State.find?_access {p : Access → Bool} (hp : p a = true) (hid : ∀ y, p y = true → y.id = a.id) :
    s.accesses.find? p = some a :=
  find?_of_unique ha hp fun y hy hpy => hone y hy (hid y hpy)

include hk hw

theorem State.wctReturn_gone (hdone : a.done = true) :
    exec (.wctReturn a.id) s = .next (s.accessGone a fun k => k.noteWct 0 a.wct) := by
  have hfind := State.find?_access (p := fun x => x.id == a.id && x.done) ha hone (by simp [hdone]) (by simp +contextual)
  have hthere : { s with accesses := s.accesses.filter fun x => x.id != a.id }.sk? a.sk = some k := hk
  show execWctReturn a.id s = _
  simp only [execWctReturn, hfind, hthere]
  exact congrArg Host.Outcome.next (State.accessGone_settle hk (fun _ => rfl) hw)

include hs

theorem State.remoteAcknowledgement_gone (hposted : a.posted = true) (hout : a.out = true) (w : Lane) :
    exec (.remoteAcknowledgement a.id w) s =
      .next (s.accessGone a fun k => { k.noteWct 2 w.toNat with unacked := k.unacked - 1 }) := by
  have hfind := State.find?_access (p := fun x => x.id == a.id && x.posted && x.out) ha hone (by simp [hposted, hout])
    (by simp +contextual)
  have hthere : { s with accesses := s.accesses.filter fun x => x.id != a.id }.sk? a.sk = some k := hk
  show execRemoteAcknowledgement a.id w s = _
  simp only [execRemoteAcknowledgement, hfind, State.sampleDone_unsampled hs, State.finishAccess_returned, hthere]
  exact congrArg Host.Outcome.next (State.accessGone_settle hk (fun _ => rfl) hw)

omit hw in
/-- RESPONSE, where the completion time that comes with it changes the skein by `g`. -/
theorem State.response_answers (hpeer : a.place.isPeer = true) (hout : a.out = true) (hposted : a.posted = false)
    (horder : a.order = 0) (data : List Lane) {g : Skein → Skein} (hg : ∀ k, (g k).uid = k.uid) (hgw : (g k).waits = [])
    (hwct : s.peerWct a data = s.updSk a.sk g) :
    ∃ t, exec (.response a.id data) s = .next t ∧ s.LostAccess t a ∧
      t.sk? a.sk = some ((g k).handed a (a.answered data) []) := by
  have hfind := State.find?_access (p := fun x => x.id == a.id && x.place.isPeer && x.out && !x.posted) ha hone
    (by simp [hpeer, hout, hposted]) (by simp +contextual)
  have hthere := (State.updSk_became hk hg).there
  have htold : ((s.peerWct a data).deliver a (a.answered data) []).noteRead a (a.answered data) =
      s.updSk a.sk fun k => (g k).answer a (a.answered data) := by
    rw [hwct, State.deliver_eq hthere, s.updSk_updSk a.sk hg]
    exact s.updSk_updSk a.sk (f := fun k => (g k).handed a (a.answered data) []) hg _
  have hanswer : (g k).answer a (a.answered data) = (g k).handed a (a.answered data) [] := Skein.answer_idle hgw a _
  refine ⟨s.accessGone a fun k => (g k).answer a (a.answered data), ?_, s.accessGone_lost a hg,
    (State.accessGone_there hk (f := fun k => (g k).answer a (a.answered data)) hg).trans (congrArg some hanswer)⟩
  show execResponse a.id data s = _
  simp only [execResponse, hfind, State.acquireBy_unordered horder]
  change Host.Outcome.next ((((((s.peerWct a data).deliver a (a.answered data) []).noteRead a (a.answered data)).finishAccess a
    none).sampleDone a 0).settle a.sk) = _
  rw [htold, State.finishAccess_returned, State.sampleDone_unsampled hs]
  exact congrArg Host.Outcome.next (State.accessGone_settle hk (f := fun k => (g k).answer a (a.answered data)) hg
    ((congrArg Skein.waits hanswer).trans hgw))

theorem State.faultRecordArrival_gone (hpeer : a.place.isPeer = true) (hout : a.out = true)
    (hrun : (s.ctx a.ctx).halted = false) (code : Byte) :
    exec (.faultRecordArrival a.id code) s = .next (s.accessGone a fun k => k.queued (a.record code) a.posted) := by
  have hfind := State.find?_access (p := fun x => x.id == a.id && x.place.isPeer && x.out) ha hone (by simp [hpeer, hout])
    (by simp +contextual)
  show execFaultRecordArrival a.id code s = _
  simp only [execFaultRecordArrival, hfind, State.recordArrives_gone hk hw hs hrun]

theorem State.remoteAckTimeout_gone (hpeer : a.place.isPeer = true) (hout : a.out = true)
    (hrun : (s.ctx a.ctx).halted = false) (hlate : a.sent + 2 ^ 20 ≤ s.now) :
    exec (.remoteAckTimeout a.id) s = .next (s.accessGone a fun k => k.queued (a.record 4) a.posted) := by
  have hfind := State.find?_access (p := fun x => x.id == a.id && x.place.isPeer && x.out && decide (x.sent + 2 ^ 20 ≤ s.now)) ha
    hone (by simp only [hpeer, hout, hlate, decide_true, beq_self_eq_true, Bool.and_true]) (by simp +contextual)
  show execRemoteAckTimeout a.id s = _
  simp only [execRemoteAckTimeout, hfind, State.recordArrives_gone hk hw hs hrun]

end Returning

/-- Before 2^20 ticks nothing is late. -/
theorem State.remoteAckTimeout_early {s : State} {a : Access} (hone : ∀ y ∈ s.accesses, y.id = a.id → y = a)
    (hearly : s.now < a.sent + 2 ^ 20) (hops : ∀ o ∈ s.ops, o.uid ≠ a.id) : exec (.remoteAckTimeout a.id) s = .next s := by
  have haccess : s.accesses.find? (fun x => x.id == a.id && x.place.isPeer && x.out && decide (x.sent + 2 ^ 20 ≤ s.now)) = none := by
    refine List.find?_eq_none.mpr fun y hy htrue => ?_
    simp only [Bool.and_eq_true, beq_iff_eq, decide_eq_true_eq] at htrue
    obtain ⟨⟨⟨hid, -⟩, -⟩, hlate⟩ := htrue
    obtain rfl := hone y hy hid
    exact absurd hlate (Nat.not_le.mpr hearly)
  have hop : s.ops.find? (fun o => o.uid == a.id && o.isPump && !o.done) = none :=
    List.find?_eq_none.mpr fun o ho htrue => by simp [hops o ho] at htrue
  show execRemoteAckTimeout a.id s = _
  simp only [execRemoteAckTimeout, haccess, hop, Option.bind_none]

/-- An access goes into a fault record: what stands in its skein. -/
theorem State.accessGone_record {s : State} {a : Access} {k : Skein} (hk : s.sk? a.sk = some k) (code : Byte) :
    let t := s.accessGone a fun k => k.queued (a.record code) a.posted
    ∃ k', t.sk? a.sk = some k' ∧ (k.faultQ.length < 8 → k'.faultQ = k.faultQ ++ [a.record code]) ∧
      (8 ≤ k.faultQ.length → k'.faultQ = k.faultQ) ∧ k'.regs = k.regs ∧
      (a.posted = false → ∀ o ∈ k'.ops, a.op = some o.id → o.fail = some .remote) := by
  refine ⟨_, State.accessGone_there hk fun k => by rw [Skein.queued_rest], fun hroom => ?_, fun hfull => ?_, ?_, fun hposted => ?_⟩
  · rw [Skein.queued_faultQ, if_pos hroom]
  · rw [Skein.queued_faultQ, if_neg (Nat.not_lt.mpr hfull)]
  · rw [Skein.queued_rest]
  · have hop : (a.record code).op = a.op := by simp [Access.record, hposted]
    rw [Skein.queued_ops, hop]
    rintro o ho hid
    obtain ⟨x, -, rfl⟩ := List.mem_map.mp ho
    split
    · rfl
    · next hne => rw [if_neg hne] at hid; exact absurd hid hne

theorem claim_accessesReturn : Claim.AccessesReturn := by
  intro a k s ha hone hk hw hs gone wct x0 record
  have hqueued (code : Byte) (k : Skein) : (k.queued (a.record code) a.posted).uid = k.uid := by rw [Skein.queued_rest]
  have hrecord (code : Byte) : record code (s.accessGone a fun k => k.queued (a.record code) a.posted) :=
    ⟨s.accessGone_lost a (hqueued code), State.accessGone_record hk code⟩
  refine ⟨fun hdone => ?_, fun hposted hout w => ?_, fun hpeer hout horder data => ⟨fun hkind => ?_, fun op hkind => ?_⟩,
    fun hpeer hout hrun code => ?_, fun hpeer hout hrun hlate => ?_, State.remoteAckTimeout_early hone⟩
  · exact ⟨_, State.wctReturn_gone ha hone hk hw hdone, s.accessGone_lost a fun _ => rfl, State.accessGone_there hk fun _ => rfl⟩
  · exact ⟨_, State.remoteAcknowledgement_gone ha hone hk hw hs hposted hout w, s.accessGone_lost a fun _ => rfl,
      State.accessGone_there hk fun _ => rfl⟩
  · have hwct : s.peerWct a data = s.updSk a.sk id := by simp [State.peerWct, hkind, State.updSk]
    obtain ⟨t, hexec, hlost, hthere⟩ := State.response_answers ha hone hk hs hpeer hout (by simp [Access.posted, hkind]) horder data
      (fun _ => rfl) hw hwct
    refine ⟨t, hexec, hlost, hthere.trans ?_⟩
    rw [Access.answered_unsigned (by simp [hkind])]
  · have hwct : s.peerWct a data = s.updSk a.sk fun k => k.noteWct 2 (data.getD a.lanes.length 0).toNat := by
      simp only [State.peerWct, hkind, hk]
    obtain ⟨t, hexec, hlost, hthere⟩ := State.response_answers ha hone hk hs hpeer hout (by simp [Access.posted, hkind]) horder data
      (g := fun k => k.noteWct 2 (data.getD a.lanes.length 0).toNat) (fun _ => rfl) hw hwct
    refine ⟨t, hexec, hlost, hthere.trans ?_⟩
    rw [Access.answered_unsigned (by simp [hkind]), Skein.handed_noteWct]
    rfl
  · exact ⟨_, State.faultRecordArrival_gone ha hone hk hw hs hpeer hout hrun code, hrecord code⟩
  · exact ⟨_, State.remoteAckTimeout_gone ha hone hk hw hs hpeer hout hrun hlate, hrecord 4⟩

end Sys2Proof.Machine

/-- Settles O32: a long operation lands write by write in its registers, and what comes back for an access takes it off the list and
tells its skein. -/
theorem accessesEnd : Obligations.AccessesEnd :=
  ⟨Sys2Proof.Machine.claim_longOperationsLand, Sys2Proof.Machine.claim_accessesReturn⟩
end

section
/-!
SUPPORT. The two answers of a decoder (R164, R165): a row gives an instruction or one of the five causes its words can show, and every opcode
that R165 does not reserve has its row.
-/

namespace Sys2Proof

/-- R164: the causes that the words of an assigned opcode can show. -/
@[simp] def wordCauses : List Cause := [.badGuard, .badM, .reserved, .badFunction, .range]

/-- An answer that is an instruction or a cause that words can show. -/
def Judged (r : Dec) : Prop := ∀ c, r = .error c → c ∈ wordCauses

/-! ### The checks of R164 -/

section Checks

variable {r r' : Dec} {i : Instr} {c : Cause}

@[simp] theorem judged_ok : Judged (.ok i) := fun _ h => nomatch h

@[simp] theorem judged_error : Judged (.error c) ↔ c ∈ wordCauses :=
  ⟨fun h => h c rfl, fun hc _ h => Except.error.inj h ▸ hc⟩

@[simp] theorem judged_ite {p : Prop} [Decidable p] : Judged (if p then r else r') ↔ (p → Judged r) ∧ (¬p → Judged r') := by
  split <;> simp [*]

@[simp] theorem judged_req {b : Bool} : Judged (req b c r) ↔ (b = true → Judged r) ∧ (b = false → c ∈ wordCauses) := by
  simp [req]

@[simp] theorem judged_withG {g : BitVec 4} {k : Guard → Dec} : Judged (withG g k) ↔ ∀ g', g = g'.bits → Judged (k g') := by
  simp only [← Guard.ofBits_eq_some, withG]
  cases Guard.ofBits g <;> simp

@[simp] theorem judged_withP {m : BitVec 3} {k : Perm → Dec} : Judged (withP m k) ↔ ∀ p, m = p.bits → Judged (k p) := by
  simp only [← Perm.ofBits_eq_some, withP]
  cases Perm.ofBits m <;> simp

@[simp] theorem judged_withF {α : Type} {o : Option α} {k : α → Dec} : Judged (withF o k) ↔ ∀ v, o = some v → Judged (k v) := by
  cases o <;> simp [withF]

@[simp] theorem judged_noGuard {g : BitVec 4} : Judged (noGuard g r) ↔ (g = 0 → Judged r) := by
  simp [noGuard]
  exact ⟨fun h hg => h .always hg rfl, fun h g' hg halways => h (hg.trans (congrArg Guard.bits halways))⟩

end Checks

/-! ### The shapes that rows share -/

section Shapes

variable {es : Es} {v : VW} {x : Word} {s : FSpec}

@[simp] theorem judged_decImm {reg : Guard → Reg → Reg → Reg → Perm → Instr} {imm : Guard → Reg → Reg → Word → Instr} :
    Judged (decImm v x reg imm) := by
  simp only [decImm, judged_withG]
  intro g hg
  split <;> simp

@[simp] theorem judged_decUn {k : Guard → Reg → Reg → Instr} : Judged (decUn v k) := by simp [decUn]

@[simp] theorem judged_decFPair {k : Guard → Reg → Reg → FSrc → Instr} : Judged (decFPair es v x s k) := by
  simp only [decFPair, judged_withG]
  intro g hg
  split <;> simp

@[simp] theorem judged_decF3 {k : Guard → Reg → Reg → Reg → Perm → Reg → FCtl → Instr} : Judged (decF3 es v x s k) := by simp [decF3]

@[simp] theorem judged_decF2 {k : Guard → Reg → Reg → Reg → Perm → FCtl → Instr} : Judged (decF2 es v x s k) := by simp [decF2]

@[simp] theorem judged_decF1 {k : Guard → Reg → Reg → FCtl → Instr} : Judged (decF1 es v x s k) := by simp [decF1]

@[simp] theorem judged_decConv {z : Bool} {spec : Ty → Ty → Option FSpec} {k : Guard → Ty → Ty → FCtl → Instr} :
    Judged (decConv es v x z spec k) := by simp [decConv]

@[simp] theorem judged_decMem {w : MW} {hint sx : Bool} {short : Guard → Reg → MemOp → BitVec 2 → Instr}
    {ext : Guard → Reg → MemOp → BitVec 2 → MemExt → Instr} : Judged (decMem w x hint sx short ext) := by simp [decMem]

end Shapes

/-! ### The opcode map (R159) -/

/-- R165: the opcodes the map reserves. -/
@[simp] def unassignedOpcodes : List Nat := [0x00, 0x37, 0x47, 0x4E, 0x4F, 0x7F]

/-- R146, R159: the opcodes of format B. -/
@[simp] def bOpcodes : List Nat := [0x4A, 0x50, 0x52, 0x55, 0x56, 0x5F]

/-- R146, R159: the opcodes of format M. -/
@[simp] def mOpcodes : List Nat :=
  [0x60, 0x61, 0x62, 0x63, 0x64, 0x65, 0x66, 0x67, 0x68, 0x6A, 0x6B, 0x6C, 0x74, 0x75]

theorem Word.opcode_lt (w : Word) : Word.opcode w < 0x80 := (Word.fld w 25 7).isLt

/-- R159: the format of every opcode; 0x03 is format I's and 0x48 is `rep`. -/
theorem opInfo_format : ∀ op < 0x80, (opInfo op).map Prod.fst =
    if op ∈ unassignedOpcodes then none
    else if op = 0x03 then some .i
    else if op = 0x48 then some .rep
    else if op ∈ bOpcodes then some .b
    else if op ∈ mOpcodes then some .m
    else some .v := by decide

theorem opInfo_eq_none {op : Nat} (hop : op < 0x80) : opInfo op = none ↔ op ∈ unassignedOpcodes := by
  rw [← Option.map_eq_none_iff (f := Prod.fst), opInfo_format op hop]
  split_ifs with h <;> simp_all

/-! ### The rows

Each row is a chain of the checks above, some with a further choice by function code. The last case of each decoder is the one that answers
0x01: the opcodes left to it are those that the map reserves or gives to another format. -/

section Rows

variable {es : Es} {op : Nat} {v : VW} {w : MW} {x : Word}

theorem decodeInt_judged (hop : op ∉ unassignedOpcodes) (hi : op ≠ 0x03) (hhi : op < 0x20) : Judged (decodeInt op v x) := by
  unfold decodeInt
  split
  case h_2 | h_29 =>
    simp only [judged_withG, judged_withP, judged_req]
    intros
    split <;> simp
  case h_31 =>
    simp at *
    omega
  all_goals simp

theorem decodeFloat_judged (hop : op ∉ unassignedOpcodes) (hlo : 0x20 ≤ op) (hhi : op < 0x38) : Judged (decodeFloat es op v x) := by
  unfold decodeFloat
  split
  case h_24 =>
    simp at *
    omega
  all_goals simp

theorem decodeLane_judged (hop : op ∉ unassignedOpcodes) (hb : op ∉ bOpcodes) (hrep : op ≠ 0x48) (hlo : 0x38 ≤ op) (hhi : op < 0x50) :
    Judged (decodeLane es op v x) := by
  unfold decodeLane
  split
  case h_20 =>
    simp at *
    omega
  all_goals simp

theorem decodeControl_judged (hb : op ∉ bOpcodes) (hlo : 0x50 ≤ op) (hhi : op < 0x60) : Judged (decodeControl op v x) := by
  unfold decodeControl
  split
  case h_12 =>
    simp at *
    omega
  all_goals simp

theorem decodeMatrix_judged (hm : op ∉ mOpcodes) (hlo : 0x60 ≤ op) (hhi : op < 0x78) : Judged (decodeMatrix op v x) := by
  unfold decodeMatrix
  split
  case h_2 =>
    simp only [judged_withG, judged_withP, judged_req]
    intros
    split <;> simp
  case h_11 =>
    simp at *
    omega
  all_goals simp

theorem decodeAsync_judged (hop : op ∉ unassignedOpcodes) (hlo : 0x78 ≤ op) (hhi : op < 0x80) : Judged (decodeAsync op v x) := by
  unfold decodeAsync
  split
  case h_3 | h_4 | h_5 | h_6 | h_7 =>
    simp only [judged_withG, judged_withP, judged_req]
    intros
    split <;> simp
  case h_8 =>
    simp at *
    omega
  all_goals simp

theorem decodeV_judged (hop : op ∉ unassignedOpcodes) (hi : op ≠ 0x03) (hrep : op ≠ 0x48) (hb : op ∉ bOpcodes) (hm : op ∉ mOpcodes)
    (hhi : op < 0x80) : Judged (decodeV es op v x) := by
  unfold decodeV
  split_ifs with hint hfloat hlane hcontrol hmatrix
  · exact decodeInt_judged hop hi hint
  · exact decodeFloat_judged hop (Nat.le_of_not_lt hint) hfloat
  · exact decodeLane_judged hop hb hrep (Nat.le_of_not_lt hfloat) hlane
  · exact decodeControl_judged hb (Nat.le_of_not_lt hlane) hcontrol
  · exact decodeMatrix_judged hm (Nat.le_of_not_lt hcontrol) hmatrix
  · exact decodeAsync_judged hop (Nat.le_of_not_lt hmatrix) hhi

theorem decodeB_judged (hb : op ∈ bOpcodes) {g : BitVec 4} {off : BitVec 21} : Judged (decodeB op g off) := by
  unfold decodeB
  split
  case h_7 =>
    simp at *
    omega
  all_goals simp

theorem decodeM_judged (hm : op ∈ mOpcodes) : Judged (decodeM op w x) := by
  unfold decodeM
  dsimp only
  split
  case h_15 =>
    simp at *
    omega
  all_goals simp

end Rows

/-- R164: a word pair gives an instruction or a cause that words can show, whatever its opcode. -/
theorem decodeWord_judged (es : Es) (w x : Word) : Judged (decodeWord es w x) := by
  have hfmt := opInfo_format (Word.opcode w) w.opcode_lt
  cases hinfo : opInfo (Word.opcode w) with
  | none => simp [decodeWord, hinfo]
  | some row =>
    obtain ⟨fmt, cls, cat⟩ := row
    rw [hinfo] at hfmt
    split_ifs at hfmt with hop hi hrep hb hm <;> cases hfmt
    · simp [decodeWord, hinfo]
    · simp [decodeWord, hinfo]
    · simpa only [decodeWord, hinfo] using decodeB_judged hb
    · simpa only [decodeWord_m hinfo] using decodeM_judged hm
    · simpa only [decodeWord_v hinfo] using decodeV_judged hop hi hrep hb hm w.opcode_lt

/-- R165: of an opcode the map does not reserve, no word pair is the unassigned instruction. -/
theorem decodeWord_ne_unassigned {es : Es} {w x : Word} {i : Instr} (hop : Word.opcode w ∉ unassignedOpcodes)
    (h : decodeWord es w x = .ok i) : i ≠ .unassignedOpcode w := by
  rintro rfl
  obtain ⟨hwf, -⟩ := decodeWord_encodes h
  exact hop ((opInfo_eq_none w.opcode_lt).mp (Option.isNone_iff_eq_none.mp hwf))

theorem decodeWord_reserved {es : Es} {w x : Word} (hop : Word.opcode w ∈ unassignedOpcodes) :
    decodeWord es w x = .ok (.unassignedOpcode w) := by
  simp only [decodeWord, (opInfo_eq_none w.opcode_lt).mpr hop]

theorem Machine.exec_unassignedOpcode (w : Word) (s : Machine.State) :
    Machine.exec (.unassignedOpcode w) s = .next (s.takeTrap { kind := 1, cause := 0x01 }) := rfl

end Sys2Proof

/-- Settles O42: the map has no row for the reserved opcodes alone, and a row's word is an instruction or shows a cause of its own. -/
theorem reservedOpcodes : Obligations.ReservedOpcodes := by
  intro w es x s
  refine ⟨fun hop => ⟨_, Sys2Proof.decodeWord_reserved hop, Sys2Proof.Machine.exec_unassignedOpcode w s⟩, fun hop => ?_,
    Sys2Proof.Machine.exec_unassignedOpcode w s⟩
  cases hdec : Sys2Proof.decodeWord es w x with
  | ok i => exact .inl ⟨i, rfl, Sys2Proof.decodeWord_ne_unassigned hop hdec⟩
  | error c => exact .inr ⟨c, Sys2Proof.decodeWord_judged es w x c hdec, rfl⟩
end

section
/-!
SUPPORT. The lane-wise shape: lanes laid side by side from element functions (R116), tags as the statements and the model write them
(R149, R167), and what each check of the operands answers where it stops (R164, R168, R308).
-/

namespace Sys2Proof.Machine

/-! ### Sub-elements side by side -/

theorem elt_lt (w : Nat) (v : Lane) (n : Nat) : elt w v n < 2 ^ w := Nat.mod_lt _ (Nat.two_pow_pos w)

theorem zipWith_subs {α : Type} (f : Nat → Nat → α) (w : Nat) (x y : Lane) :
    (subs w x).zipWith f (subs w y) = (List.range (64 / w)).map fun n => f (elt w x n) (elt w y n) := by
  simp [subs_eq, List.zipWith_map, List.zipWith_self]

theorem zipLane_eq (w : Nat) (f : Nat → Nat → Int) (x y : Lane) :
    zipLane w f x y = lanesOf w fun n => wrap w (f (elt w x n) (elt w y n)) := congrArg (packLane w) (zipWith_subs _ w x y)

@[simp] theorem packNat_replicate_mod (w v n : Nat) : packNat w (List.replicate n (v % 2 ^ w)) = packNat w (List.replicate n v) := by
  induction n with
  | zero => rfl
  | succ n ih => simp [List.replicate_succ, packNat, ih]

theorem lanesOf_const (w v : Nat) : (lanesOf w fun _ => v) = splat w v := by
  rw [lanesOf, splat, List.map_const', List.length_range]

/-- Sub-elements that raise no flag leave the lane's flags. -/
theorem flagsOf_zero (w : Nat) : (flagsOf w fun _ => 0) = 0 := by
  have hzeros : ∀ n, orFlags (List.replicate n 0) = 0 := fun n => by
    induction n with
    | zero => rfl
    | succ n ih => rw [List.replicate_succ, orFlags, ih]; rfl
  rw [flagsOf, List.map_const', hzeros]

/-! ### Tags (R149, R167) -/

section Tags

variable (s : State)

@[simp] theorem Tag.at_eq_uniform (t : Tag) (es : Es) : t.at es = .uniform ↔ t = .uniform := by
  cases t with
  | affine b st e =>
    simp only [Tag.at]
    split <;> simp
  | _ => simp [Tag.at]

theorem State.seenTag_eq (f : Reg) (p : Perm) : s.seenTag (f, p) = (permTag p (s.tagOf f)).at s.es := by
  cases p <;> cases h : s.tagOf f <;> simp [State.seenTag, permTag, Tag.at, h]

theorem State.seenB_eq (b : SrcB) : s.seenB b = (s.tagB b).at s.es := by
  cases b with
  | reg f p => exact s.seenTag_eq f p
  | imm v => rfl

/-- The tag of sources whose tags the model combines. -/
theorem State.plainTag_eq (srcs : List SrcReg) : s.plainTag srcs = tagAll (srcs.map fun x => permTag x.2 (s.tagOf x.1)) := by
  have hseen : ∀ x : SrcReg, s.seenTag x = .uniform ↔ permTag x.2 (s.tagOf x.1) = .uniform := fun x => by
    rw [s.seenTag_eq x.1 x.2, Tag.at_eq_uniform]
  simp only [State.plainTag, tagAll, hseen, List.all_map, List.all_eq_true, Function.comp_apply, beq_iff_eq]

end Tags

/-! ### Checks that stop -/

theorem firstStop_append (l r : List (Option Stop)) : firstStop (l ++ r) = (firstStop l).or (firstStop r) := by
  induction l with
  | nil => rfl
  | cons x l ih => cases x <;> simp [firstStop, ih]

/-- Where some check of a list stops, one that stops is taken. -/
theorem firstStop_map_some {α : Type} {l : List α} {f : α → Option Stop} (h : ∃ x ∈ l, f x ≠ none) :
    ∃ x ∈ l, f x ≠ none ∧ firstStop (l.map f) = f x := by
  induction l with
  | nil => simp at h
  | cons y l ih =>
    cases hy : f y with
    | none =>
      obtain ⟨x, hx, hfx⟩ := h
      rcases List.mem_cons.mp hx with rfl | hx
      · exact absurd hy hfx
      · obtain ⟨z, hz, hfz, hstop⟩ := ih ⟨x, hx, hfx⟩
        exact ⟨z, List.mem_cons_of_mem _ hz, hfz, by simpa [firstStop, hy] using hstop⟩
    | some t => exact ⟨y, List.mem_cons_self, by simp [hy], by simp [firstStop, hy]⟩

section Checks

variable {s : State} {srcs : List SrcReg} {dsts : List Reg} {extra : Option Stop}

theorem State.ckRegs_range {fs : List Reg} (h : ∃ f ∈ fs, s.cur.regCount ≤ f.toNat) : s.ckRegs fs = ill .range := by
  have hany : (fs.any fun f => decide (s.cur.regCount ≤ f.toNat)) = true := by simpa using h
  rw [State.ckRegs, hany]
  rfl

/-- A range check of the operands' numbers or of the instruction's own raises one cause. -/
theorem State.ckOperands_range (h : extra = ill .range) : s.ckOperands srcs dsts extra = ill .range := by
  subst h
  cases hany : (srcs.map (·.1) ++ dsts).any fun f => decide (s.cur.regCount ≤ f.toNat) <;>
    simp [State.ckOperands, State.ckRegs, illIf, ill, firstStop, hany]

theorem State.ckOperands_registers (h : ∃ f ∈ srcs.map (·.1) ++ dsts, s.cur.regCount ≤ f.toNat) :
    s.ckOperands srcs dsts extra = ill .range := by
  rw [State.ckOperands, State.ckRegs_range h]
  rfl

/-- Registers in range leave the marks and the poison to check. -/
theorem State.ckOperands_inRange (h : ∀ f ∈ srcs.map (·.1) ++ dsts, f.toNat < s.cur.regCount) :
    s.ckOperands srcs dsts = (s.ckMarks (s.namedSrcs srcs) (s.namedDsts dsts)).or (s.ckPoison srcs) := by
  rw [State.ckOperands, s.ckRegs_none _ h]
  cases s.ckMarks (s.namedSrcs srcs) (s.namedDsts dsts) <;> cases s.ckPoison srcs <;> rfl

variable {rs ds : List Nat}

/-- What a pending register stops an instruction with. -/
def Skein.pendingStop (k : Skein) (r : Nat) : Option Stop := (k.pendingBy r).bind (k.pendTrap r)

/-- What a held destination stops an instruction with. -/
def Skein.heldStop (k : Skein) (r : Nat) : Option Stop :=
  (k.heldBy r).bind fun o => if o.matrix && o.setB.isSome then some .hold else some (.trap { kind := 7, aux := u64 (64 + r) })

/-- The registers pending are asked about before those held. -/
theorem State.ckMarks_eq :
    s.ckMarks rs ds = (firstStop ((rs ++ ds).map s.cur.pendingStop)).or (firstStop (ds.map s.cur.heldStop)) :=
  firstStop_append _ _

theorem Skein.pendingStop_eq {k : Skein} (hfail : ∀ r o, k.pendingBy r = some o → o.fail = none) (r : Nat) :
    k.pendingStop r = (k.pendingBy r).map fun _ => .trap { kind := 7, aux := u64 r } := by
  cases hr : k.pendingBy r with
  | none => simp [Skein.pendingStop, hr]
  | some o => simp [Skein.pendingStop, Skein.pendTrap, hr, hfail r o hr]

theorem Skein.heldStop_eq {k : Skein} (hmatrix : ∀ r o, k.heldBy r = some o → o.matrix = false) (r : Nat) :
    k.heldStop r = (k.heldBy r).map fun _ => .trap { kind := 7, aux := u64 (64 + r) } := by
  cases hr : k.heldBy r with
  | none => simp [Skein.heldStop, hr]
  | some o => simp [Skein.heldStop, hr, hmatrix r o hr]

/-- R308: a pending register that no failure ended raises a trap that names it. -/
theorem State.ckMarks_pending (hfail : ∀ r o, s.cur.pendingBy r = some o → o.fail = none)
    (h : ∃ r ∈ rs ++ ds, s.cur.pendingBy r ≠ none) :
    ∃ r ∈ rs ++ ds, s.cur.pendingBy r ≠ none ∧ s.ckMarks rs ds = some (.trap { kind := 7, aux := u64 r }) := by
  have heq := Skein.pendingStop_eq hfail
  obtain ⟨r, hr, hne, hstop⟩ := firstStop_map_some (f := s.cur.pendingStop) (by simpa only [heq, ne_eq, Option.map_eq_none_iff] using h)
  rw [heq, ne_eq, Option.map_eq_none_iff] at hne
  obtain ⟨o, ho⟩ := Option.ne_none_iff_exists'.mp hne
  exact ⟨r, hr, hne, by rw [State.ckMarks_eq, hstop, heq, ho]; rfl⟩

/-- R308: a held destination that no matrix operation holds raises a trap that names it with bit 6 set. -/
theorem State.ckMarks_held (hlanded : ∀ r ∈ rs ++ ds, s.cur.pendingBy r = none)
    (hmatrix : ∀ r o, s.cur.heldBy r = some o → o.matrix = false) (h : ∃ r ∈ ds, s.cur.heldBy r ≠ none) :
    ∃ r ∈ ds, s.cur.heldBy r ≠ none ∧ s.ckMarks rs ds = some (.trap { kind := 7, aux := u64 (64 + r) }) := by
  have heq := Skein.heldStop_eq hmatrix
  have hpend : firstStop ((rs ++ ds).map s.cur.pendingStop) = none :=
    firstStop_none _ (List.forall_mem_map.mpr fun r hr => by simp [Skein.pendingStop, hlanded r hr])
  obtain ⟨r, hr, hne, hstop⟩ := firstStop_map_some (f := s.cur.heldStop) (by simpa only [heq, ne_eq, Option.map_eq_none_iff] using h)
  rw [heq, ne_eq, Option.map_eq_none_iff] at hne
  obtain ⟨o, ho⟩ := Option.ne_none_iff_exists'.mp hne
  exact ⟨r, hr, hne, by rw [State.ckMarks_eq, hpend, hstop, heq, ho]; rfl⟩

/-- R168: lane l executes and reads, through the source x, a lane past correction. -/
def State.ReadsPoison (s : State) (x : SrcReg) (l : Nat) : Prop :=
  s.executing l = true ∧ (s.cur.thread (permSrc x.2 l)).exited = false ∧
    (s.cur.reg (s.cur.resolve (permSrc x.2 l) x.1)).poison.getLsbD (permSrc x.2 l) = true

theorem State.poisonedSrc_eq_none {x : SrcReg} : s.poisonedSrc x = none ↔ ∀ l, l < 32 → ¬ s.ReadsPoison x l := by
  simp [State.poisonedSrc, State.ReadsPoison]

theorem State.ReadsPoison.of_poisonedSrc {x : SrcReg} {r : Nat} (h : s.poisonedSrc x = some r) :
    ∃ l, l < 32 ∧ s.ReadsPoison x l ∧ r = s.cur.resolve (permSrc x.2 l) x.1 := by
  obtain ⟨l, hl, hr⟩ := Option.map_eq_some_iff.mp h
  have hlt := (mem_allLanes l).mp (List.mem_of_find?_eq_some hl)
  exact ⟨l, hlt, by simpa [State.ReadsPoison, and_assoc] using List.find?_some hl, hr.symm⟩

/-- R168: a poisoned lane that is read raises a poison trap that names its register. -/
theorem State.ckPoison_trap (h : ∃ x ∈ srcs, ∃ l, l < 32 ∧ s.ReadsPoison x l) :
    ∃ x ∈ srcs, ∃ l, l < 32 ∧ s.ReadsPoison x l ∧
      s.ckPoison srcs = some (.trap { kind := 0x0B, aux := u64 (s.cur.resolve (permSrc x.2 l) x.1) }) := by
  cases hr : srcs.findSome? s.poisonedSrc with
  | none =>
    obtain ⟨x, hx, l, hl, hbad⟩ := h
    exact absurd hbad (State.poisonedSrc_eq_none.mp (List.findSome?_eq_none_iff.mp hr x hx) l hl)
  | some r =>
    obtain ⟨x, hx, hxr⟩ := List.exists_of_findSome?_eq_some hr
    obtain ⟨l, hl, hbad, rfl⟩ := State.ReadsPoison.of_poisonedSrc hxr
    exact ⟨x, hx, l, hl, hbad, by rw [State.ckPoison, hr]; rfl⟩

/-! ### What a lane-wise instruction answers -/

variable {es : Es → Bool} {e : LaneEff} {t : Trap}

theorem State.laneOp_trap (hes : es s.es = true) (h : s.ckOperands srcs e.dst.toList extra = some (.trap t)) :
    s.laneOp es srcs extra e = .next (s.takeTrap t) := by
  have hsize : s.ckEs es = none := by rw [State.ckEs, hes]; rfl
  rw [State.laneOp, hsize, h]
  rfl

/-- An element size that the instruction has not raises cause 0x07 before all else. -/
theorem State.laneOp_badSize (hes : es s.es = false) : s.laneOp es srcs extra e = .next (s.takeTrap { kind := 1, cause := 0x07 }) := by
  have hsize : s.ckEs es = ill .badSize := by rw [State.ckEs, hes]; rfl
  rw [State.laneOp, hsize]
  rfl

/-- A range check of the instruction's own raises cause 0x0A, whatever the operands. -/
theorem State.laneOp_range (hes : es s.es = true) (h : extra = ill .range) :
    s.laneOp es srcs extra e = .next (s.takeTrap { kind := 1, cause := 0x0A }) :=
  State.laneOp_trap hes (State.ckOperands_range h)

/-- A lane-wise instruction whose sub-elements raise no flag leaves their values. -/
theorem State.eltOp_values {g : Guard} {d : Reg} {tag : Tag} {res : Nat → List (Nat × Sticky)} (v : Nat → Nat → Nat)
    (hv : ∀ l, res l = (List.range (64 / s.es.w)).map fun n => (v l n, 0)) (hi : s.Issuing) (hes : es s.es = true)
    (he : extra = none) (hc : s.Clear srcs [d]) :
    ∃ t, s.eltOp g es srcs d extra tag res = .next t ∧ s.Wrote t
      { pass := s.passing g, dst := some d, tag := tag, val := fun l => lanesOf s.es.w (v l) } := by
  simpa only [flagsOf_zero] using s.eltOp_wrote g es srcs d extra tag res (fun l n => (v l n, 0)) hv hi hes he hc

end Checks

end Sys2Proof.Machine
end

section
/-!
SUPPORT. The two-source integer instructions and the compares (R172, R179, R180): each row of the table is the model's one two-source
shape, with the row's function and the row's tag.
-/

namespace Sys2Proof.Machine

/-! ### The functions of the table (R172) -/

theorem sgn_bounds (w x : Nat) : -(2 ^ w : Int) ≤ sgn w x ∧ sgn w x < 2 ^ w := by
  have hlt : ((x % 2 ^ w : Nat) : Int) < 2 ^ w := by exact_mod_cast Nat.mod_lt x (Nat.two_pow_pos w)
  unfold sgn
  split <;> omega

/-- A signed value shifted by its whole width is its sign. -/
theorem sgn_ediv_width (w x : Nat) : sgn w x / 2 ^ w = if sgn w x < 0 then -1 else 0 := by
  obtain ⟨hlo, hhi⟩ := sgn_bounds w x
  split
  · next hneg => exact Int.ediv_eq_neg_one_of_neg_of_le hneg (by omega)
  · next hneg => exact Int.ediv_eq_zero_of_lt (by omega) hhi

theorem fnMulhiI_eq : fnMulhiI = fun w x y => (wrap w (sgn w x * sgn w y / 2 ^ w), 0) := by
  funext w x y
  simp [fnMulhiI]

theorem fnMulhiN_eq : fnMulhiN = fun (w x y : Nat) => (wrap w ((x : Int) * y / 2 ^ w), 0) := by
  funext w x y
  simp [fnMulhiN]

theorem fnMinN_eq : fnMinN = fun _ x y => (min x y, 0) := by
  funext w x y
  rw [fnMinN, Nat.min_def]

theorem fnMaxN_eq : fnMaxN = fun _ x y => (max x y, 0) := by
  funext w x y
  rw [fnMaxN, Nat.max_def]

theorem fnShl_eq : fnShl = fun (w x k : Nat) => (if k < w then wrap w ((x : Int) * 2 ^ k) else 0, 0) := by
  funext w x k
  rw [fnShl, ← wrap_natCast, Nat.cast_mul, Nat.cast_pow, Nat.cast_ofNat]

theorem fnShrI_eq :
    fnShrI = fun w x k => (wrap w (if k < w then sgn w x / 2 ^ k else if sgn w x < 0 then -1 else 0), 0) := by
  funext w x k
  rw [fnShrI, ← sgn_ediv_width]
  split <;> simp

/-! ### The tags of the table (R167) -/

section Tags

variable (s : State) (g : Guard) (d a : Reg) (b : SrcB)

theorem State.seenTag_eq_plain : s.seenTag (plain a) = (s.tagOf a).at s.es := s.seenTag_eq a .ident

/-- An affine tag that is seen is of the state's element size. -/
theorem Tag.at_size {t : Tag} {es e : Es} {x st : Lane} (h : t.at es = .affine x st e) : e = es := by
  cases t with
  | affine b st' e' =>
    simp only [Tag.at] at h
    split at h <;> simp_all
  | _ => simp [Tag.at] at h

theorem State.seenTag_size {x y : Lane} {e : Es} (h : s.seenTag (plain a) = .affine x y e) : e = s.es :=
  Tag.at_size ((s.seenTag_eq_plain a).symm.trans h)

theorem State.seenB_size {x y : Lane} {e : Es} (h : s.seenB b = .affine x y e) : e = s.es :=
  Tag.at_size ((s.seenB_eq b).symm.trans h)

/-- The tags that the rows of R167 compute for the state's operands. -/
def State.ruleTag (rule : Es → Tag → Tag → Lane → Lane → Tag) : Tag :=
  rule s.es (s.tagOf a) (s.tagB b) (s.cur.read a 0) (s.srcB b 0)

theorem State.ruleTag_add : s.ruleTag a b tagAdd = s.pairTag (.addImm g d a 0) a b := by
  simp only [State.ruleTag, tagAdd, State.pairTag, ← s.seenTag_eq_plain, ← s.seenB_eq, zipLane_eq]
  cases ha : s.seenTag (plain a) <;> cases hb : s.seenB b
  case uniform.affine => rw [s.seenB_size b hb]; rfl
  case affine.uniform => rw [s.seenTag_size a ha]; rfl
  all_goals rfl

theorem State.ruleTag_sub : s.ruleTag a b tagSub = s.pairTag (.subImm g d a 0) a b := by
  simp only [State.ruleTag, tagSub, State.pairTag, ← s.seenTag_eq_plain, ← s.seenB_eq, zipLane_eq]
  cases ha : s.seenTag (plain a) <;> cases hb : s.seenB b
  case affine.uniform => rw [s.seenTag_size a ha]; rfl
  all_goals rfl

theorem State.ruleTag_mul : s.ruleTag a b tagMul = s.pairTag (.mulImm g d a 0) a b := by
  simp only [State.ruleTag, tagMul, State.pairTag, ← s.seenTag_eq_plain, ← s.seenB_eq, zipLane_eq]
  cases ha : s.seenTag (plain a) <;> cases hb : s.seenB b
  case uniform.affine => rw [s.seenB_size b hb]; rfl
  case affine.uniform => rw [s.seenTag_size a ha]; rfl
  all_goals rfl

theorem State.ruleTag_plain : s.ruleTag a b tagPlain = s.pairTag (.andImm g d a 0) a b := by
  have hall : tagAll [s.tagOf a, s.tagB b] = tagAll [s.seenTag (plain a), s.seenB b] := by
    rw [s.seenTag_eq_plain, s.seenB_eq]
    simp [tagAll]
  simp only [State.ruleTag, tagPlain, hall, State.pairTag]
  cases s.seenTag (plain a) <;> cases s.seenB b <;> rfl

end Tags

/-! ### The rows -/

/-- An instruction is the two-source shape with a function and the tag that R167 names. -/
def State.PairRow (s : State) (i : Instr) (g : Guard) (d a : Reg) (b : SrcB) (f : Fn2) : Prop :=
  ∃ rule, exec i s = s.alu2 g d a b rule f ∧ s.ruleTag a b rule = s.pairTag i a b

section Rows

variable {s : State} {i : Instr} {g : Guard} {d a : Reg} {b : SrcB} {f : Fn2}

/-- A row that neither adds, subtracts nor multiplies keeps uniform tags alone. -/
theorem State.PairRow.of_plain {f' : Fn2} (hx : exec i s = s.alu2 g d a b tagPlain f') (hf : f' = f)
    (ht : s.pairTag (.andImm g d a 0) a b = s.pairTag i a b) : s.PairRow i g d a b f :=
  ⟨tagPlain, hf ▸ hx, (s.ruleTag_plain g d a b).trans ht⟩

theorem State.pairRow_of_intPair (h : intPair i = some (g, d, a, b, f)) : s.PairRow i g d a b f := by
  unfold intPair at h
  split at h <;> cases h
  case h_1 | h_2 => exact ⟨tagAdd, rfl, s.ruleTag_add g d a _⟩
  case h_3 | h_4 => exact ⟨tagSub, rfl, s.ruleTag_sub g d a _⟩
  case h_13 | h_14 => exact ⟨tagMul, rfl, s.ruleTag_mul g d a _⟩
  case h_15 | h_16 => exact .of_plain rfl fnMulhiI_eq rfl
  case h_17 | h_18 => exact .of_plain rfl fnMulhiN_eq rfl
  case h_21 | h_22 => exact .of_plain rfl fnMinN_eq rfl
  case h_25 | h_26 => exact .of_plain rfl fnMaxN_eq rfl
  case h_35 | h_36 => exact .of_plain rfl fnShl_eq rfl
  case h_39 | h_40 => exact .of_plain rfl fnShrI_eq rfl
  all_goals exact .of_plain rfl rfl rfl

theorem State.PairRow.exec_eq (h : s.PairRow i g d a b f) : exec i s =
    s.eltOp g anyEs (plain a :: b.regs) d none (s.pairTag i a b)
      fun l => (subs s.es.w (s.cur.read a l)).zipWith (f s.es.w) (subs s.es.w (s.srcB b l)) := by
  obtain ⟨rule, hx, ht⟩ := h
  rw [hx, ← ht]
  rfl

theorem State.PairRow.trap {t : Trap} (h : s.PairRow i g d a b f)
    (hck : s.ckOperands (plain a :: b.regs) [d] = some (.trap t)) : exec i s = .next (s.takeTrap t) := by
  rw [h.exec_eq]
  exact State.laneOp_trap rfl hck

end Rows

theorem claim_integerPairResults : Claim.IntegerPairResults := by
  intro i g d a b f s h hi hc
  rw [(State.pairRow_of_intPair h).exec_eq]
  exact s.eltOp_wrote g anyEs _ d none _ _ _ (fun l => zipWith_subs ..) hi rfl rfl hc

/-! ### The operand traps (R36, R164, R168, R308) -/

theorem claim_operandTraps : Claim.OperandTraps := by
  intro i g d a b f s h _ srcs dsts bad
  have hrow := State.pairRow_of_intPair (s := s) h
  refine ⟨fun hreg => hrow.trap (State.ckOperands_registers hreg), fun hreg => ?_⟩
  have hck := State.ckOperands_inRange hreg
  refine ⟨fun hfail hpend => ?_, fun hlanded hmatrix hheld => ?_, fun hlanded hfree hbad => ?_⟩
  · obtain ⟨r, hr, hne, hstop⟩ := State.ckMarks_pending hfail hpend
    exact ⟨r, hr, hne, hrow.trap (by rw [hck, hstop]; rfl)⟩
  · obtain ⟨r, hr, hne, hstop⟩ := State.ckMarks_held hlanded hmatrix hheld
    exact ⟨r, hr, hne, hrow.trap (by rw [hck, hstop]; rfl)⟩
  · obtain ⟨x, hx, l, hl, hread, hstop⟩ := State.ckPoison_trap hbad
    exact ⟨x, hx, l, hl, hread, hrow.trap (by rw [hck, s.ckMarks_none _ _ hlanded hfree, hstop]; rfl)⟩

/-! ### Compares (R179, R180) -/

theorem cmpTest_iff {cond : CmpCond} {w x y : Nat} : cmpTest cond w x y = true ↔ intCond cond w x y := by
  cases cond <;> simp [cmpTest, intCond]

theorem cmpTest_eq_false {cond : CmpCond} {w x y : Nat} : cmpTest cond w x y = false ↔ ¬ intCond cond w x y := by
  rw [← cmpTest_iff, Bool.not_eq_true]

section Compare

variable (s : State) (g : Guard) (cond : CmpCond) (wd : Option Reg) (a b : Reg) (p : Perm) (np : Bool) (sub : BitVec 3)

/-- The test of one sub-element of one lane. -/
def State.cmpAt (l n : Nat) : Bool := cmpTest cond s.es.w (elt s.es.w (s.cur.read a l) n) (elt s.es.w (s.cur.readB b p l) n)

/-- The effect of a compare: the mask of each sub-element, and the truth of the chosen one. -/
def State.cmpEff : LaneEff :=
  { pass := s.passing g, dst := wd, tag := s.plainTag [plain a, (b, p)]
    val := fun l => lanesOf s.es.w fun n => maskElt s.es.w (s.cmpAt cond a b p l n)
    push := fun l => if np then none else some (s.cmpAt cond a b p l sub.toNat) }

variable {np sub}

theorem exec_cmp_inside (hsub : sub.toNat < 64 / s.es.w) (hnp : np = true → wd ≠ none) :
    exec (.cmp g cond wd a b p np sub) s = s.laneOp anyEs [plain a, (b, p)] none (s.cmpEff g cond wd a b p np sub) := by
  have hextra : illIf (decide (64 / s.es.w ≤ sub.toNat) || (np && wd.isNone)) .range = none :=
    (illIf_eq_none _ _).mpr (by simpa [hsub, Option.isSome_iff_ne_none] using hnp)
  have htests : ∀ l, (subs s.es.w (s.cur.read a l)).zipWith (cmpTest cond s.es.w) (subs s.es.w (s.cur.readB b p l)) =
      (List.range (64 / s.es.w)).map (s.cmpAt cond a b p l) := fun l => zipWith_subs ..
  have hchosen : ∀ l, ((List.range (64 / s.es.w)).map (s.cmpAt cond a b p l)).getD sub.toNat false =
      s.cmpAt cond a b p l sub.toNat := fun l => by simp [List.getD_eq_getElem?_getD, hsub]
  show execCmp g cond wd a b p np sub s = _
  simp only [execCmp, hextra, htests, hchosen, List.map_map, State.cmpEff, State.plainTag_eq]
  rfl

theorem exec_cmp_outside (h : 64 / s.es.w ≤ sub.toNat ∨ np = true ∧ wd = none) :
    exec (.cmp g cond wd a b p np sub) s = .next (s.takeTrap { kind := 1, cause := 0x0A }) := by
  have hcheck : (decide (64 / s.es.w ≤ sub.toNat) || (np && wd.isNone)) = true := by simpa using h
  exact State.laneOp_range rfl (congrArg (illIf · .range) hcheck)

end Compare

theorem claim_integerCompareResults : Claim.IntegerCompareResults := by
  intro g cond wd a b p np sub s hi w truth
  refine ⟨fun hsub hnp hc => ?_, exec_cmp_outside s g cond wd a b p⟩
  obtain ⟨t, ht, hw⟩ := s.laneOp_wrote anyEs [plain a, (b, p)] none (s.cmpEff g cond wd a b p np sub) hi rfl rfl hc
  refine ⟨t, _, _, (exec_cmp_inside s g cond wd a b p hsub hnp).trans ht, hw, fun l => ⟨_, rfl, fun n => ⟨fun h => ?_, fun h => ?_⟩⟩,
    fun l => ⟨fun h => if_pos h, fun h => ⟨fun htrue => ?_, fun hfalse => ?_⟩⟩⟩
  · exact congrArg (maskElt w) (cmpTest_iff.mpr h)
  · exact congrArg (maskElt w) (cmpTest_eq_false.mpr h)
  · exact (if_neg (by simp [h])).trans (congrArg some (cmpTest_iff.mpr htrue))
  · exact (if_neg (by simp [h])).trans (congrArg some (cmpTest_eq_false.mpr hfalse))

end Sys2Proof.Machine

/-- Settles O10: each row of the table is the two-source shape with its function and its tag, a compare is its effect, and the checks of
that shape stop in the order of their list. -/
theorem integerPairsAndCompares : Obligations.IntegerPairsAndCompares :=
  ⟨Sys2Proof.Machine.claim_integerPairResults, Sys2Proof.Machine.claim_integerCompareResults, Sys2Proof.Machine.claim_operandTraps⟩
end

section
/-!
SUPPORT. nop, the moves, the one-source integer instructions and the bit fields (R169 to R171, R173, R178): the bits of a sub-element
as counts and sums, and a field of it as quotient and remainder.
-/

namespace Sys2Proof.Machine

/-! ### nop and the moves (R169 to R171) -/

@[simp] theorem Issue.past_sticky (i : Issue) (t : Thread) : (i.past t).sticky = t.sticky := by
  unfold Issue.past
  dsimp only
  repeat' split
  all_goals rfl

/-- A group that only moves past its instruction leaves the effect that passes no lane. -/
theorem State.advance_wrote {s : State} (h : s.Issuing) : s.Wrote s.advance { pass := fun _ => false } := by
  have hcur := s.cur_advance h
  have hthread : ∀ l, l < 32 → s.advance.cur.thread l = if s.executing l then s.issue.past (s.cur.thread l) else s.cur.thread l :=
    fun l hl => by rw [hcur, Skein.pass, Skein.thread_updThreads _ _ _ _ hl]
  have hreg : ∀ r, s.advance.cur.reg r = s.cur.reg r := fun r => by rw [hcur]; rfl
  have hpred : ∀ l, l < 32 → (s.advance.cur.thread l).pred = (s.cur.thread l).pred := fun l hl => by
    rw [hthread l hl]; split <;> simp
  have hsticky : ∀ l, l < 32 → (s.advance.cur.thread l).sticky = (s.cur.thread l).sticky := fun l hl => by
    rw [hthread l hl]; split <;> simp
  exact {
    only := s.advance_only h
    rest := by rw [hcur]; rfl
    moved := fun l hl => by rw [← hpred l hl, ← hsticky l hl]; exact hthread l hl
    value := nofun
    other := fun r l _ _ _ => by rw [Skein.lane, hreg, Skein.lane]
    kept := fun r _ _ => hreg r
    dulled := nofun
    tagAll := nofun
    tagSome := nofun
    flags := hsticky
    preds := hpred }

theorem immLane_eq (es : Es) (v : Word) :
    immLane es v = if es = .e64 then v.signExtend 64 else lanesOf es.w fun _ => v.toNat % 2 ^ es.w := by
  rw [immLane, lanesOf_const, splat, splat, packLane, packLane, packNat_replicate_mod]

theorem claim_movesAndNop : Claim.MovesAndNop := by
  refine ⟨fun g s hi => ⟨_, rfl, State.advance_wrote hi⟩, fun g d b p s hi hc => ?_, fun g d v s hi hc => ?_, fun g d v s hi hc => ?_⟩
  · rw [s.seenTag_eq]
    exact s.laneOp_wrote anyEs [(b, p)] none _ hi rfl rfl hc
  · simp only [← immLane_eq]
    exact s.laneOp_wrote anyEs [] none _ hi rfl rfl hc
  · simp only [lanesOf_const]
    exact s.laneOp_wrote anyEs [] none _ hi rfl rfl hc

/-! ### The bits of a sub-element (R178) -/

theorem bitsOf_succ_reverse (w x : Nat) : (bitsOf (w + 1) x).reverse = x.testBit w :: (bitsOf w x).reverse := by
  simp [bitsOf, List.range_succ]

theorem fnPopc_eq (w x : Nat) : fnPopc w x = ((List.range w).filter x.testBit).length := by
  rw [fnPopc, bitsOf, List.count, List.countP_map, List.countP_eq_length_filter]
  simp [Function.comp_def]

/-- The zero bits above the highest one bit are counted from its place. -/
theorem fnClz_eq {w x : Nat} (h : x < 2 ^ w) : fnClz w x = if x = 0 then w else w - 1 - Nat.log2 x := by
  induction w with
  | zero => simp [fnClz, bitsOf]
  | succ w ih =>
    rw [fnClz, bitsOf_succ_reverse]
    by_cases hx : x < 2 ^ w
    · rw [Nat.testBit_lt_two_pow hx]
      simp only [List.takeWhile_cons, Bool.not_false, if_true, List.length_cons]
      rw [← fnClz, ih hx]
      split
      · rfl
      · next hne =>
        have hlog := (Nat.log2_lt hne).mpr hx
        omega
    · have hle := Nat.le_of_not_lt hx
      have hne : x ≠ 0 := Nat.ne_of_gt (Nat.lt_of_lt_of_le (Nat.two_pow_pos w) hle)
      rw [Nat.testBit_of_two_pow_le_and_two_pow_add_one_gt hle h, if_neg hne, (Nat.log2_eq_iff hne).mpr ⟨hle, h⟩]
      simp

/-- Bit by bit, the highest first, the reversed pattern is the sum of the bits at their mirrored places. -/
theorem fnBrev_eq (w x : Nat) : fnBrev w x = ((List.range w).map fun i => (x.testBit i).toNat * 2 ^ (w - 1 - i)).sum := by
  induction w with
  | zero => rfl
  | succ w ih =>
    have hlow : fnBrev (w + 1) x = (x.testBit w).toNat + 2 * fnBrev w x := by
      rw [fnBrev, bitsOf_succ_reverse, List.map_cons, packNat, ← fnBrev]
      cases x.testBit w <;> rfl
    have hshift : ((List.range w).map fun i => (x.testBit i).toNat * 2 ^ (w - i)) =
        ((List.range w).map fun i => 2 * ((x.testBit i).toNat * 2 ^ (w - 1 - i))) := by
      refine List.map_congr_left fun i hi => ?_
      have hi := List.mem_range.mp hi
      rw [show w - i = w - 1 - i + 1 by omega, pow_succ]
      ring
    rw [hlow, ih, List.range_succ, List.map_append, List.sum_append]
    simp only [Nat.add_sub_cancel, hshift, List.sum_map_mul_left, List.map_cons, List.map_nil, List.sum_singleton, Nat.sub_self]
    omega

/-! ### One source (R173, R178) -/

section Unary

variable {s : State} {g : Guard} {d a : Reg} {extra : Option Stop}

/-- A one-source instruction leaves what its function makes of each sub-element's pattern. -/
theorem State.alu1_wrote {f : Nat → Nat → Nat} (v : Nat → Nat) (hv : ∀ x < 2 ^ s.es.w, f s.es.w x = v x) (hi : s.Issuing)
    (he : extra = none) (hc : s.Clear [plain a] [d]) :
    ∃ t, s.alu1 g d a extra f = .next t ∧ s.Wrote t
      { pass := s.passing g, dst := some d, tag := s.plainTag [plain a]
        val := fun l => lanesOf s.es.w fun n => v (elt s.es.w (s.cur.read a l) n) } := by
  rw [s.plainTag_eq]
  refine State.eltOp_values (fun l n => v (elt s.es.w (s.cur.read a l) n)) (fun l => ?_) hi rfl he hc
  simp only [subs_eq, List.map_map, Function.comp_def, hv _ (elt_lt ..)]

end Unary

theorem claim_integerUnaryResults : Claim.IntegerUnaryResults := by
  intro i g d a f s h hi hc
  unfold intOne at h
  split at h <;> cases h
  case h_4 => exact State.alu1_wrote _ (fun x _ => fnPopc_eq ..) hi rfl hc
  case h_5 => exact State.alu1_wrote _ (fun x hx => fnClz_eq hx) hi rfl hc
  case h_6 => exact State.alu1_wrote _ (fun x _ => fnBrev_eq ..) hi rfl hc
  all_goals exact State.alu1_wrote _ (fun x _ => rfl) hi rfl hc

/-! ### Bit fields (R178) -/

theorem sgn_mod (n x : Nat) : sgn n (x % 2 ^ n) = sgn n x := by simp only [sgn, Nat.mod_mod]

/-- A pattern with a field replaced: what lies below, the new field, what lies above. -/
theorem fnBfi_eq (pos len1 : BitVec 6) (x z : Nat) : fnBfi pos len1 x z =
    z % 2 ^ pos.toNat + 2 ^ pos.toNat * (x % 2 ^ (len1.toNat + 1)) +
      2 ^ (pos.toNat + (len1.toNat + 1)) * (z / 2 ^ (pos.toNat + (len1.toNat + 1))) := by
  rw [fnBfi, field]
  generalize len1.toNat + 1 = len
  have hlow := Nat.mod_add_div z (2 ^ pos.toNat)
  have hmid := Nat.mod_add_div (z / 2 ^ pos.toNat) (2 ^ len)
  rw [pow_add, ← Nat.div_div_eq_div_mul]
  generalize z / 2 ^ pos.toNat / 2 ^ len = top at *
  generalize z / 2 ^ pos.toNat % 2 ^ len = mid at *
  generalize z / 2 ^ pos.toNat = high at *
  generalize z % 2 ^ pos.toNat = low at *
  subst hmid hlow
  rw [Nat.sub_eq_of_eq_add (b := mid * 2 ^ pos.toNat) (c := low + 2 ^ pos.toNat * (2 ^ len * top)) (by ring)]
  ring

/-- A field inside the element passes its check. -/
theorem State.ckField_none {s : State} {pos len1 : BitVec 6} (h : pos.toNat + (len1.toNat + 1) ≤ s.es.w) : s.ckField pos len1 = none :=
  (illIf_eq_none _ _).mpr (decide_eq_false (by omega))

theorem State.ckField_range {s : State} {pos len1 : BitVec 6} (h : s.es.w < pos.toNat + (len1.toNat + 1)) :
    s.ckField pos len1 = ill .range :=
  congrArg (illIf · .range) (decide_eq_true h)

theorem claim_bitFieldResults : Claim.BitFieldResults := by
  intro g d a c pos len1 s hi w len
  refine ⟨fun hin hc => ?_, fun hin hc => ?_, fun hin hc => ?_, fun hout i hmem => ?_⟩
  · exact State.alu1_wrote (f := fun w x => wrap w (sgn len (field x pos len1)))
      (fun x => wrap w (sgn len (x / 2 ^ pos.toNat))) (fun x _ => congrArg (wrap w) (sgn_mod len _)) hi (State.ckField_none hin) hc
  · exact State.alu1_wrote (f := fun _ x => field x pos len1) (fun x => x / 2 ^ pos.toNat % 2 ^ len) (fun x _ => rfl) hi
      (State.ckField_none hin) hc
  · rw [s.plainTag_eq]
    refine State.eltOp_values _ (fun l => ?_) hi rfl (State.ckField_none hin) hc
    simp only [zipWith_subs, fnBfi_eq]
    rfl
  · have hrange := State.ckField_range hout
    simp only [List.mem_cons, List.not_mem_nil, or_false] at hmem
    rcases hmem with rfl | rfl | rfl <;> exact State.laneOp_range rfl hrange

end Sys2Proof.Machine

/-- Settles O11: the bits of a sub-element are counted and summed by induction on the width, and a field is a remainder of a quotient. -/
theorem integerMovesAndUnaries : Obligations.IntegerMovesAndUnaries :=
  ⟨Sys2Proof.Machine.claim_movesAndNop, Sys2Proof.Machine.claim_integerUnaryResults, Sys2Proof.Machine.claim_bitFieldResults⟩
end

section
/-!
SUPPORT. mad, mac2 and rshr (R174 to R177): pairs of half-width sub-elements, two lists interleaved, and the two ways of rounding a
shifted value.
-/

namespace Sys2Proof.Machine

/-! ### Neighbours and interleavings -/

theorem range_two_mul_succ (n : Nat) : List.range (2 * (n + 1)) = 0 :: 1 :: (List.range (2 * n)).map (· + 2) := by
  rw [show 2 * (n + 1) = 2 * n + 1 + 1 by ring, List.range_succ_eq_map, List.range_succ_eq_map]
  simp [Function.comp_def]

theorem pairs_map_range {α : Type} (q : Nat → α) (n : Nat) :
    pairs ((List.range (2 * n)).map q) = (List.range n).map fun i => (q (2 * i), q (2 * i + 1)) := by
  induction n generalizing q with
  | zero => rfl
  | succ n ih =>
    rw [range_two_mul_succ, List.map_cons, List.map_cons, List.map_map, pairs, ih, List.range_succ_eq_map, List.map_cons, List.map_map]
    rfl

theorem interleave_map_range {α : Type} (f g : Nat → α) (n : Nat) :
    interleave ((List.range n).map f) ((List.range n).map g) =
      (List.range (2 * n)).map fun i => if i % 2 = 0 then f (i / 2) else g (i / 2) := by
  induction n generalizing f g with
  | zero => rfl
  | succ n ih =>
    rw [range_two_mul_succ, List.range_succ_eq_map, List.map_cons, List.map_cons, List.map_map, List.map_map, interleave, ih]
    simp [Function.comp_def]

/-- A lane holds twice as many sub-elements of half the width. -/
theorem lanes_half (e : Es) : 64 / (e.w / 2) = 2 * (64 / e.w) := by cases e <;> rfl

/-! ### Three sources (R174, R175) -/

theorem pairs_zipWith_half {α : Type} (f : Nat → Nat → α) (e : Es) (x y : Lane) :
    pairs ((subs (e.w / 2) x).zipWith f (subs (e.w / 2) y)) = (List.range (64 / e.w)).map fun n =>
      (f (elt (e.w / 2) x (2 * n)) (elt (e.w / 2) y (2 * n)), f (elt (e.w / 2) x (2 * n + 1)) (elt (e.w / 2) y (2 * n + 1))) := by
  rw [zipWith_subs, lanes_half]
  exact pairs_map_range (fun n => f (elt (e.w / 2) x n) (elt (e.w / 2) y n)) _

theorem claim_multiplyAccumulateResults : Claim.MultiplyAccumulateResults := by
  intro g d a b p c s hi w x y z h q
  refine ⟨fun hc => ?_, fun hes hc => ?_, fun hes => State.laneOp_badSize (by rw [hes]; rfl)⟩
  · rw [s.plainTag_eq]
    refine State.eltOp_values (fun l n => wrap w ((x l n : Int) * y l n + z l n)) (fun l => ?_) hi rfl rfl hc
    simp only [subs_eq, List.zip_eq_zipWith, List.zipWith_map, List.zipWith_self, Nat.cast_add, Nat.cast_mul]
    rfl
  · rw [s.plainTag_eq]
    refine s.eltOp_wrote g _ _ d none _ _ (fun l n => satI w (sgn w (z l n) + (q l (2 * n) + q l (2 * n + 1)))) (fun l => ?_) hi
      (by simpa using hes) rfl hc
    show (pairs _).zipWith _ (subs w (s.cur.read c l)) = _
    rw [pairs_zipWith_half, subs_eq, List.zipWith_map, List.zipWith_self]

/-! ### Rounding (R138, R177) -/

/-- Half the unit added before the shift rounds up from one half on. -/
theorem add_half_ediv {v b : Int} (hb : 0 < b) :
    (v + b) / (2 * b) = if 2 * (v % (2 * b)) < 2 * b then v / (2 * b) else v / (2 * b) + 1 := by
  have hdiv := Int.mul_ediv_add_emod v (2 * b)
  have hlo := Int.emod_nonneg v (b := 2 * b) (by omega)
  have hhi := Int.emod_lt_of_pos v (b := 2 * b) (by omega)
  split
  · next hlt =>
    exact ((Int.ediv_emod_unique (r := v % (2 * b) + b) (by omega)).mpr ⟨by linarith, by omega, by omega⟩).1
  · next hge =>
    exact ((Int.ediv_emod_unique (r := v % (2 * b) - b) (by omega)).mpr ⟨by linarith, by omega, by omega⟩).1

theorem rshrHalfUp_eq {k : Nat} (hk : k ≠ 0) (v : Int) :
    rshrHalfUp v k = if 2 * (v % 2 ^ k) < 2 ^ k then v / 2 ^ k else v / 2 ^ k + 1 := by
  have hdouble : (2 : Int) ^ k = 2 * 2 ^ (k - 1) := by rw [← pow_succ', Nat.sub_add_cancel (Nat.pos_of_ne_zero hk)]
  rw [rshrHalfUp, if_neg hk]
  push_cast
  rw [hdouble]
  exact add_half_ediv (by positivity)

theorem rshr1_eq (w : Nat) (u he : Bool) (k x : Nat) : rshr1 w u he k x = roundedShift w u he k x := by
  by_cases hk : k = 0
  · cases he <;> simp [rshr1, roundedShift, rshrHalfUp, rshrHalfEven, hk]
  · cases he with
    | false =>
      simp only [rshr1, roundedShift, Bool.false_eq_true, if_false, hk, rshrHalfUp_eq hk, Bool.false_and, ite_self]
    | true =>
      simp [rshr1, roundedShift, rshrHalfEven, roundHalfEven, hk]

/-! ### The rounding right shift (R176, R177) -/

/-- The registers a shift amount names. -/
def shiftRegs : ShiftSrc → List SrcReg
  | .imm _ => []
  | .reg b p => [(b, p)]

section Shift

variable (s : State) (sh : ShiftSrc) (u he : Bool)

/-- The amount that one sub-element is shifted by; those of a register are held at 63. -/
def State.shiftAmount (l n : Nat) : Nat :=
  match sh with
  | .imm m => m.toNat
  | .reg b p => min (elt s.es.w (s.cur.readB b p l) n) 63

/-- R176: an immediate amount past the element raises cause 0x0A. -/
def State.ckShift : Option Stop :=
  match sh with
  | .imm m => illIf (decide (s.es.w ≤ m.toNat)) .range
  | .reg _ _ => none

/-- One sub-element of a register shifted and rounded. -/
def State.shiftedElt (f : Reg) (l n : Nat) : Int :=
  roundedShift s.es.w u he (s.shiftAmount sh l n) (elt s.es.w (s.cur.read f l) n)

/-- One half-width sub-element of a narrowing shift: a supplies the even ones, c the odd. -/
def State.narrowedElt (a c : Reg) (l n : Nat) : Nat × Sticky :=
  (if u then satN else satI) (s.es.w / 2) (s.shiftedElt sh u he (if n % 2 = 0 then a else c) l (n / 2))

theorem State.ckShift_none {s : State} {sh : ShiftSrc} (h : ∀ m, sh = .imm m → m.toNat < s.es.w) : s.ckShift sh = none := by
  cases sh with
  | imm m => exact (illIf_eq_none _ _).mpr (decide_eq_false (Nat.not_le_of_lt (h m rfl)))
  | reg b p => rfl

theorem State.ckShift_range {s : State} {m : BitVec 6} (h : s.es.w ≤ m.toNat) : s.ckShift (.imm m) = ill .range :=
  congrArg (illIf · .range) (decide_eq_true h)

/-- The amounts as the model lists them. -/
def State.shiftAmounts (l : Nat) : List Nat :=
  match sh with
  | .imm m => List.replicate (64 / s.es.w) m.toNat
  | .reg b p => (subs s.es.w (s.cur.readB b p l)).map fun x => min x 63

theorem State.shiftAmounts_eq (l : Nat) : s.shiftAmounts sh l = (List.range (64 / s.es.w)).map (s.shiftAmount sh l) := by
  cases sh with
  | imm m =>
    have hconst : s.shiftAmount (.imm m) l = fun _ => m.toNat := rfl
    rw [hconst, List.map_const', List.length_range, State.shiftAmounts]
  | reg b p =>
    rw [State.shiftAmounts, subs_eq, List.map_map]
    rfl

theorem State.zipWith_shiftAmounts {α : Type} (f : Nat → Nat → α) (x : Lane) (l : Nat) :
    (subs s.es.w x).zipWith f (s.shiftAmounts sh l) =
      (List.range (64 / s.es.w)).map fun n => f (elt s.es.w x n) (s.shiftAmount sh l n) := by
  rw [State.shiftAmounts_eq, subs_eq, List.zipWith_map, List.zipWith_self]

/-- The tag of the amounts. -/
def State.shiftTag : Tag :=
  match sh with
  | .imm _ => .uniform
  | .reg b p => s.tagB (.reg b p)

theorem State.tagAll_shiftTag (fs : List Reg) : tagAll (fs.map s.tagOf ++ [s.shiftTag sh]) =
    s.plainTag (fs.map plain ++ shiftRegs sh) := by
  have hplain : (fs.map plain).map (fun x => permTag x.2 (s.tagOf x.1)) = fs.map s.tagOf := by simp [plain, permTag]
  rw [s.plainTag_eq, List.map_append, hplain]
  cases sh with
  | imm m => simp [tagAll, State.shiftTag, shiftRegs]
  | reg b p => rfl

variable (g : Guard) (d a c : Reg)

theorem exec_rshr_full : exec (.rshr g d a sh u he none) s =
    s.eltOp g anyEs (plain a :: shiftRegs sh) d (s.ckShift sh) (s.plainTag (plain a :: shiftRegs sh))
      fun l => (List.range (64 / s.es.w)).map fun n => (wrap s.es.w (s.shiftedElt sh u he a l n), 0) := by
  have hmodel : exec (.rshr g d a sh u he none) s =
      s.eltOp g anyEs (plain a :: shiftRegs sh) d (s.ckShift sh) (tagAll [s.tagOf a, s.shiftTag sh])
        fun l => (subs s.es.w (s.cur.read a l)).zipWith (fun x n => (wrap s.es.w (rshr1 s.es.w u he n x), 0)) (s.shiftAmounts sh l) := by
    cases sh <;> rfl
  have htag : tagAll [s.tagOf a, s.shiftTag sh] = s.plainTag (plain a :: shiftRegs sh) := s.tagAll_shiftTag sh [a]
  simp only [hmodel, htag, State.zipWith_shiftAmounts, rshr1_eq]
  rfl

/-- The effect of a narrowing shift. -/
def State.narrowEff : LaneEff :=
  { pass := s.passing g, dst := some d, tag := s.plainTag (plain a :: plain c :: shiftRegs sh)
    val := fun l => lanesOf (s.es.w / 2) fun n => (s.narrowedElt sh u he a c l n).1
    flags := fun l => flagsOf (s.es.w / 2) fun n => (s.narrowedElt sh u he a c l n).2 }

theorem exec_rshr_narrow : exec (.rshr g d a sh u he (some c)) s =
    s.laneOp (· != .e8) (plain a :: plain c :: shiftRegs sh) (s.ckShift sh) (s.narrowEff sh u he g d a c) := by
  let narrow := fun (l : Nat) (f : Reg) => (subs s.es.w (s.cur.read f l)).zipWith
    (fun x n => (if u then satN else satI) (s.es.w / 2) (rshr1 s.es.w u he n x)) (s.shiftAmounts sh l)
  have hmodel : exec (.rshr g d a sh u he (some c)) s =
      s.laneOp (· != .e8) (plain a :: plain c :: shiftRegs sh) (s.ckShift sh)
        { pass := s.passing g, dst := some d, tag := tagAll [s.tagOf a, s.tagOf c, s.shiftTag sh]
          val := fun l => packLane (s.es.w / 2) ((interleave (narrow l a) (narrow l c)).map (·.1))
          flags := fun l => orFlags ((interleave (narrow l a) (narrow l c)).map (·.2)) } := by
    cases sh <;> rfl
  have htag : tagAll [s.tagOf a, s.tagOf c, s.shiftTag sh] = s.plainTag (plain a :: plain c :: shiftRegs sh) :=
    s.tagAll_shiftTag sh [a, c]
  have hnarrow : ∀ l, interleave (narrow l a) (narrow l c) =
      (List.range (64 / (s.es.w / 2))).map (s.narrowedElt sh u he a c l) := fun l => by
    simp only [narrow, State.zipWith_shiftAmounts, rshr1_eq, interleave_map_range, lanes_half]
    refine List.map_congr_left fun n _ => ?_
    rw [State.narrowedElt]
    split <;> rfl
  simp only [hmodel, htag, hnarrow, List.map_map]
  rfl

end Shift

theorem claim_roundingShiftResults : Claim.RoundingShiftResults := by
  intro g d a sh u he c s hi w k rs y r
  refine ⟨fun hin hc => ?_, fun hin hes hc => ?_, fun m hm hout => ?_, fun hes => ?_⟩
  · rw [exec_rshr_full]
    exact State.eltOp_values (fun l n => wrap w (s.shiftedElt sh u he a l n)) (fun _ => rfl) hi rfl (State.ckShift_none hin) hc
  · rw [exec_rshr_narrow]
    exact s.laneOp_wrote _ _ _ (s.narrowEff sh u he g d a c) hi (by simpa using hes) (State.ckShift_none hin) hc
  · subst hm
    rw [exec_rshr_full, exec_rshr_narrow]
    exact ⟨State.laneOp_range rfl (State.ckShift_range hout),
      fun hes => State.laneOp_range (by simpa using hes) (State.ckShift_range hout)⟩
  · rw [exec_rshr_narrow]
    exact State.laneOp_badSize (by simp [hes])

end Sys2Proof.Machine

/-- Settles O12: each instruction is the lane-wise shape with its lists written out element by element, and both roundings of a shift
are quotient and remainder. -/
theorem multiplyAccumulateAndRoundingShift : Obligations.MultiplyAccumulateAndRoundingShift :=
  ⟨Sys2Proof.Machine.claim_multiplyAccumulateResults, Sys2Proof.Machine.claim_roundingShiftResults⟩
end

section
/-!
SUPPORT. Lane-wise float instructions of two and three sources (R184, R185, R187): each is the lane-wise shape, refused under ES = 8, with
its lists written out element by element.
-/

namespace Sys2Proof.Machine

/-! ### What the float instructions share (R181, R182) -/

/-- R181: the tag that the model gives a float result is that of its sources. -/
theorem State.ftag_eq (s : State) (srcs : List SrcReg) : s.ftag srcs = s.plainTag srcs := (s.plainTag_eq srcs).symm

theorem esFloat_iff {e : Es} : esFloat e = true ↔ e ≠ .e8 := by simp [esFloat]

theorem esFloat_e8 {e : Es} (h : e = .e8) : esFloat e = false := by rw [h]; rfl

/-- Two lists of sub-elements zipped, then a third. -/
theorem zip_zipWith_subs {α : Type} (f : Nat × Nat → Nat → α) (w : Nat) (x y z : Lane) :
    ((subs w x).zip (subs w y)).zipWith f (subs w z) =
      (List.range (64 / w)).map fun n => f (elt w x n, elt w y n) (elt w z n) := by
  rw [List.zip_eq_zipWith, zipWith_subs, subs_eq w z, List.zipWith_map, List.zipWith_self]

/-! ### Two sources (R184, R185) -/

theorem exec_floatPair {i : Instr} {g : Guard} {d a : Reg} {b : FSrc} {f : Fmt → FCtl → Nat → Nat → Nat × Sticky}
    (h : floatPair i = some (g, d, a, b, f)) (s : State) : exec i s = s.fop2 g d a b f := by
  unfold floatPair at h
  split at h <;> cases h <;> rfl

theorem claim_floatPairResults : Claim.FloatPairResults := by
  intro i g d a b f s h hi w r
  rw [exec_floatPair h]
  refine ⟨fun hes hc => ?_, fun hes => State.laneOp_badSize (esFloat_e8 hes)⟩
  rw [← s.ftag_eq]
  exact s.eltOp_wrote g esFloat _ d none _ _ r (fun l => zipWith_subs ..) hi (esFloat_iff.mpr hes) rfl hc

/-! ### Three sources (R184, R187) -/

theorem claim_fusedResults : Claim.FusedResults := by
  intro g d a b p cr c s hi w F v r G h q
  refine ⟨fun hes hc => ?_, fun hes hc => ?_, fun hes => State.laneOp_badSize ?_⟩
  · rw [← s.ftag_eq]
    exact s.eltOp_wrote g esFloat _ d none _ _ r (fun l => zip_zipWith_subs ..) hi (esFloat_iff.mpr hes) rfl hc
  · rw [← s.ftag_eq]
    refine s.eltOp_wrote g _ _ d none _ _ q (fun l => ?_) hi (by simpa using hes) rfl hc
    show (pairs _).zipWith _ (subs w (s.cur.read cr l)) = _
    rw [List.zip_eq_zipWith, pairs_zipWith_half, subs_eq, List.zipWith_map, List.zipWith_self]
  · rcases hes with hes | hes <;> rw [hes] <;> rfl

end Sys2Proof.Machine

/-- Settles O13: each row is the lane-wise float shape with its function, and the two products of `fdot2` are neighbours in its lists. -/
theorem floatPairsAndFused : Obligations.FloatPairsAndFused :=
  ⟨Sys2Proof.Machine.claim_floatPairResults, Sys2Proof.Machine.claim_fusedResults⟩
end

section
/-!
SUPPORT. One-source float instructions (R186, R188, R189) and float compares (R190): the sign bit flipped and cleared as arithmetic, and
the conditions from the order of two values.
-/

namespace Sys2Proof.Machine

/-! ### One source (R186, R188, R189) -/

/-- Above its k low bits a pattern of k + 1 bits has one bit. -/
theorem div_two_pow_top {k x : Nat} (hx : x < 2 ^ (k + 1)) : x / 2 ^ k = 0 ∨ x / 2 ^ k = 1 :=
  Nat.le_one_iff_eq_zero_or_eq_one.mp (Nat.le_of_lt_succ (Nat.div_lt_of_lt_mul (by rwa [pow_succ] at hx)))

/-- Flipping bit k of a pattern of k + 1 bits takes its weight away where it is set and adds it where it is not. -/
theorem xor_two_pow {k x : Nat} (hx : x < 2 ^ (k + 1)) : x ^^^ 2 ^ k = if x / 2 ^ k % 2 = 1 then x - 2 ^ k else x + 2 ^ k := by
  have hpos := Nat.two_pow_pos k
  have hlow : (x ^^^ 2 ^ k) % 2 ^ k = x % 2 ^ k := by rw [Nat.xor_mod_two_pow, Nat.mod_self, Nat.xor_zero]
  have hhigh : (x ^^^ 2 ^ k) / 2 ^ k = x / 2 ^ k ^^^ 1 := by rw [Nat.xor_div_two_pow, Nat.div_self hpos]
  have hflipped := Nat.div_add_mod' (x ^^^ 2 ^ k) (2 ^ k)
  have hsplit := Nat.div_add_mod' x (2 ^ k)
  rw [hlow, hhigh] at hflipped
  obtain h | h := div_two_pow_top hx <;> rw [h] at hflipped hsplit ⊢
  · rw [if_neg (by decide), ← hflipped, ← hsplit]
    simp [Nat.add_comm]
  · rw [if_pos (by decide), ← hflipped, ← hsplit]
    simp

/-- Clearing bit k of a pattern of k + 1 bits takes its weight away where it is set. -/
theorem mod_two_pow_top {k x : Nat} (hx : x < 2 ^ (k + 1)) : x % 2 ^ k = if x / 2 ^ k % 2 = 1 then x - 2 ^ k else x := by
  have hsplit := Nat.div_add_mod' x (2 ^ k)
  obtain h | h := div_two_pow_top hx <;> rw [h] at hsplit ⊢ <;> simp <;> omega

/-- The bits below the top one of an element size, and that one. -/
theorem width_pred_succ (e : Es) : e.w - 1 + 1 = e.w := by cases e <;> rfl

section Unary

variable {s : State} {g : Guard} {d a : Reg}

/-- A one-source float instruction leaves what its function makes of each sub-element's pattern. -/
theorem State.fop1_wrote {f : Nat → Nat × Sticky} (v : Nat → Nat × Sticky) (hv : ∀ x < 2 ^ s.es.w, f x = v x) (hi : s.Issuing)
    (hes : s.es ≠ .e8) (hc : s.Clear [plain a] [d]) :
    ∃ t, s.fop1 g d a f = .next t ∧ s.Wrote t
      { pass := s.passing g, dst := some d, tag := s.plainTag [plain a]
        val := fun l => lanesOf s.es.w fun n => (v (elt s.es.w (s.cur.read a l) n)).1
        flags := fun l => flagsOf s.es.w fun n => (v (elt s.es.w (s.cur.read a l) n)).2 } := by
  rw [← s.ftag_eq]
  refine s.eltOp_wrote g esFloat _ d none _ _ (fun l n => v (elt s.es.w (s.cur.read a l) n)) (fun l => ?_) hi (esFloat_iff.mpr hes) rfl hc
  simp only [subs_eq, List.map_map, Function.comp_def, hv _ (elt_lt ..)]

/-- Each row is the one-source shape with its function of a sub-element's pattern. -/
theorem exec_floatOne {i : Instr} {f : Es → Nat → Nat × Sticky} (h : floatOne i = some (g, d, a, f)) (s : State) :
    ∃ f', exec i s = s.fop1 g d a f' ∧ ∀ x < 2 ^ s.es.w, f' x = f s.es x := by
  unfold floatOne at h
  split at h <;> cases h
  case h_1 => exact ⟨_, rfl, fun x hx => congrArg (·, 0) (xor_two_pow (by rwa [width_pred_succ]))⟩
  case h_2 => exact ⟨_, rfl, fun x hx => congrArg (·, 0) (mod_two_pow_top (by rwa [width_pred_succ]))⟩
  all_goals exact ⟨_, rfl, fun x _ => rfl⟩

end Unary

theorem claim_floatUnaryResults : Claim.FloatUnaryResults := by
  refine ⟨fun g d a => ⟨congrArg (fun n => [n]) Word.opcode_encV, congrArg (fun n => [n]) Word.opcode_encV⟩, ?_⟩
  intro i g d a f s h hi r
  obtain ⟨f', hexec, hf⟩ := exec_floatOne h s
  rw [hexec]
  exact ⟨fun hes hc => State.fop1_wrote (f s.es) hf hi hes hc, fun hes => State.laneOp_badSize (esFloat_e8 hes)⟩

/-! ### The order of two values (R190) -/

/-- A difference taken the other way round has the opposite sign. -/
theorem Dy.add_neg_swap (x y : Dy) : (y.add ⟨-x.m, x.e⟩).m = -(x.add ⟨-y.m, y.e⟩).m := by
  by_cases hx : x.m = 0
  · by_cases hy : y.m = 0 <;> simp [Dy.add, hx, hy]
  · by_cases hy : y.m = 0
    · simp [Dy.add, hx, hy]
    · obtain hlt | heq | hgt := lt_trichotomy x.e y.e
      · simp [Dy.add, hx, hy, hlt.le, hlt.not_ge]
      · simp [Dy.add, hx, hy, heq]
      · simp [Dy.add, hx, hy, hgt.le, hgt.not_ge]

theorem Dy.lt_asymm {x y : Dy} (h : x.lt y = true) : y.lt x = false := by
  have hswap := x.add_neg_swap y
  simp only [Dy.lt, decide_eq_true_eq, decide_eq_false_iff_not] at h ⊢
  omega

theorem fLt_asymm {x y : FVal} (h : fLt x y = true) : fLt y x = false := by
  cases x <;> cases y
  case fin.fin => exact Dy.lt_asymm h
  all_goals simp_all [fLt]

/-- Equal or below is not above. -/
theorem equal_or_below (x y : FVal) : (!fLt x y && !fLt y x || fLt x y) = !fLt y x := by
  cases h : fLt x y with
  | false => simp
  | true => rw [fLt_asymm h]; rfl

theorem fLt_nan {x y : FVal} (h : (x.isNan || y.isNan) = true) : fLt x y = false ∧ fLt y x = false := by
  cases x <;> cases y <;> simp_all [fLt, FVal.isNan]

/-- Only a NaN is signalling. -/
theorem FVal.isNan_of_isSig {x : FVal} (h : x.isSig = true) : x.isNan = true := by
  cases x <;> simp_all [FVal.isSig, FVal.isNan]

/-! ### Conditions and flags (R190) -/

section Conditions

variable (c : FCond) (x y : FVal)

/-- R190: beside a NaN only `.ne` and `.unord` hold. -/
theorem fCond_nan {x y : FVal} (h : (x.isNan || y.isNan) = true) : (fCond c x y).1 = true ↔ c = .ne ∨ c = .unord := by
  obtain ⟨hxy, hyx⟩ := fLt_nan h
  cases c <;> simp [fCond, h, hxy, hyx]

/-- R190: without a NaN a condition is that of the order of the two values. -/
theorem fCond_ordered {x y : FVal} (h : (x.isNan || y.isNan) = false) : (fCond c x y).1 = true ↔ floatCond c x y := by
  have hle := equal_or_below x y
  have hge := equal_or_below y x
  rw [Bool.and_comm] at hge
  cases c <;> simp [fCond, floatCond, h, hle, hge]

/-- Whether a condition of two values holds. -/
def CondHolds : Prop :=
  ((x.isNan = true ∨ y.isNan = true) ∧ (c = .ne ∨ c = .unord)) ∨ (¬ (x.isNan = true ∨ y.isNan = true) ∧ floatCond c x y)

/-- Whether a condition of two values sets NV. -/
def CondInvalid : Prop :=
  ((x.isNan = true ∨ y.isNan = true) ∧ c ∈ [FCond.lt, .le, .gt, .ge]) ∨ x.isSig = true ∨ y.isSig = true

theorem fCond_holds : (fCond c x y).1 = true ↔ CondHolds c x y := by
  unfold CondHolds
  rw [← Bool.or_eq_true]
  cases h : x.isNan || y.isNan with
  | true => simpa using fCond_nan c h
  | false => simpa using fCond_ordered c h

/-- The flags of a compare are NV or none. -/
theorem fCond_flags : ∃ b, (fCond c x y).2 = flagIf b fNV ∧ (b = true ↔ CondInvalid c x y) := by
  have hsig : x.isSig = true ∨ y.isSig = true → x.isNan = true ∨ y.isNan = true := Or.imp FVal.isNan_of_isSig FVal.isNan_of_isSig
  by_cases hc : c ∈ [FCond.lt, .le, .gt, .ge]
  · refine ⟨x.isNan || y.isNan, ?_, ?_⟩
    · fin_cases hc <;> rfl
    · simpa [CondInvalid, hc] using hsig
  · refine ⟨[x, y].any FVal.isSig, ?_, ?_⟩
    · cases c
      case eq | ne | unord | ord => rfl
      all_goals exact absurd (by simp) hc
    · simp [CondInvalid, hc]

end Conditions

/-! ### fcmp (R190) -/

section Compare

variable (s : State) (g : Guard) (cond : FCond) (d a b : Reg) (p : Perm) (c : FCtl)

/-- The condition of one sub-element of one lane, with its flags. -/
def State.fcmpAt (l n : Nat) : Bool × Sticky :=
  fCond cond (decodeFz (esFmt s.es c.h) c.fzi (elt s.es.w (s.cur.read a l) n))
    (decodeFz (esFmt s.es c.h) c.fzi (elt s.es.w (s.cur.readB b p l) n))

/-- The effect of a float compare: the mask and the flags of each sub-element, and the truth of the first. -/
def State.fcmpEff : LaneEff :=
  { pass := s.passing g, dst := some d, tag := s.plainTag [plain a, (b, p)]
    val := fun l => lanesOf s.es.w fun n => maskElt s.es.w (s.fcmpAt cond a b p c l n).1
    flags := fun l => flagsOf s.es.w fun n => (s.fcmpAt cond a b p c l n).2
    push := fun l => some (s.fcmpAt cond a b p c l 0).1 }

theorem exec_fcmp : exec (.fcmp g cond d a b p c) s = s.laneOp esFloat [plain a, (b, p)] none (s.fcmpEff g cond d a b p c) := by
  have htests : ∀ l, (subs s.es.w (s.cur.read a l)).zipWith (fun x y =>
      fCond cond (decodeFz (esFmt s.es c.h) c.fzi x) (decodeFz (esFmt s.es c.h) c.fzi y)) (subs s.es.w (s.cur.readB b p l)) =
      (List.range (64 / s.es.w)).map (s.fcmpAt cond a b p c l) := fun l => zipWith_subs ..
  have hsome : 0 < 64 / s.es.w := by cases s.es <;> decide
  have hfirst : ∀ l, ((List.range (64 / s.es.w)).map fun n => (s.fcmpAt cond a b p c l n).1).getD 0 false =
      (s.fcmpAt cond a b p c l 0).1 := fun l => by simp [List.getD_eq_getElem?_getD, hsome]
  show execFcmp g cond d a b p c s = _
  simp only [execFcmp, htests, List.map_map, Function.comp_def, hfirst, State.ftag_eq]
  rfl

end Compare

theorem claim_floatCompareResults : Claim.FloatCompareResults := by
  intro g cond d a b p c s hi hes hc w x y un holds nv
  have hholds : ∀ l n, (s.fcmpAt cond a b p c l n).1 = true ↔ holds l n := fun l n => fCond_holds cond (x l n) (y l n)
  have hfails : ∀ l n, (s.fcmpAt cond a b p c l n).1 = false ↔ ¬ holds l n := fun l n => by rw [← hholds, Bool.not_eq_true]
  obtain ⟨t, ht, hw⟩ := s.laneOp_wrote esFloat [plain a, (b, p)] none (s.fcmpEff g cond d a b p c) hi (esFloat_iff.mpr hes) rfl hc
  refine ⟨t, _, _, _, (exec_fcmp s g cond d a b p c).trans ht, hw, fun l => ⟨⟨_, rfl, fun n => ⟨fun h => ?_, fun h => ?_⟩⟩,
    ⟨_, rfl, fun n => ?_⟩, fun h => ?_, fun h => ?_⟩⟩
  · exact congrArg (maskElt w) ((hholds l n).mpr h)
  · exact congrArg (maskElt w) ((hfails l n).mpr h)
  · obtain ⟨raised, hflags, hraised⟩ := fCond_flags cond (x l n) (y l n)
    exact ⟨fun h => hflags.trans (if_pos (hraised.mpr h)), fun h => hflags.trans (if_neg (mt hraised.mp h))⟩
  · exact congrArg some ((hholds l 0).mpr h)
  · exact congrArg some ((hfails l 0).mpr h)

end Sys2Proof.Machine

/-- Settles O14: the sign bit is flipped and cleared as arithmetic on the pattern, and a condition holds as the order of its two values
says, which no two values have both ways. -/
theorem floatUnariesAndCompares : Obligations.FloatUnariesAndCompares :=
  ⟨Sys2Proof.Machine.claim_floatUnaryResults, Sys2Proof.Machine.claim_floatCompareResults⟩
end

section
/-!
SUPPORT. A long operation as its instruction begins it (R143, R308), and the special functions (R191): one operation where some lane takes
the instruction, none otherwise.
-/

namespace Sys2Proof.Machine

/-! ### Room on the flags, and counts that rise (R143) -/

theorem incFlag_getD (flags : List Nat) (f : Option (BitVec 4)) {n : Nat} (hn : n < 12) :
    (incFlag flags f).getD n 0 = flags.getD n 0 + if f.map (·.toNat) = some n then 1 else 0 := by
  cases f with
  | none => rfl
  | some f =>
    simp only [incFlag, bankUpd_getD 12 0 flags f.toNat (· + 1) n hn, Option.map_some, Option.some.injEq, eq_comm (a := n)]
    split <;> rfl

/-- R143: some more operations would take the flag that a clause names for a set past its limit. -/
def State.tops (s : State) (f : Option (BitVec 4)) (n : Nat) : Bool :=
  match f with
  | some x => decide (63 < s.cur.flags.getD x.toNat 0 + n)
  | none => false

theorem State.ckFlag_eq (s : State) (a b : Bool) : s.ckFlag a b = holdIf (if s.header.setA = s.header.setB then
    s.tops s.header.setA (a.toNat + b.toNat) else (a && s.tops s.header.setA 1) || (b && s.tops s.header.setB 1)) := rfl

section Room

variable {s : State} {a b : Bool}

theorem State.tops_eq_false {f : Option (BitVec 4)} {n : Nat} :
    s.tops f n = false ↔ ∀ x, f = some x → s.cur.flags.getD x.toNat 0 + n ≤ 63 := by
  cases f <;> simp [State.tops]

theorem State.Room.setA (h : s.Room a b) : (a && s.tops s.header.setA 1) = false := by
  cases a with
  | false => rfl
  | true =>
    refine State.tops_eq_false.mpr fun f hf => ?_
    have hroom := h f (.inl hf)
    rw [if_pos (by simpa using hf)] at hroom
    omega

theorem State.Room.setB (h : s.Room a b) : (b && s.tops s.header.setB 1) = false := by
  cases b with
  | false => rfl
  | true =>
    refine State.tops_eq_false.mpr fun f hf => ?_
    have hroom := h f (.inr hf)
    rw [if_pos (c := (true && decide (s.header.setB = some f)) = true) (by simpa using hf)] at hroom
    omega

/-- One flag named for both sets counts the operations of both. -/
theorem State.Room.both (h : s.Room a b) (hAB : s.header.setA = s.header.setB) :
    s.tops s.header.setA (a.toNat + b.toNat) = false := by
  refine State.tops_eq_false.mpr fun f hf => ?_
  have hroom := h f (.inl hf)
  rw [← hAB, hf] at hroom
  cases a <;> cases b <;> simp at hroom ⊢ <;> omega

/-- An instruction whose operations have room on its clause's flags is not held for them. -/
theorem State.ckFlag_none (h : s.Room a b) : s.ckFlag a b = none := by
  rw [State.ckFlag_eq]
  split
  next hAB => rw [h.both hAB]; rfl
  next => rw [h.setA, h.setB]; rfl

end Room

/-! ### A long operation begun -/

section Begin

variable {s : State} {g : Guard} {d a : Reg} {o : LongOp}

theorem State.mem_takeNames {f : Reg} {r : Nat} :
    r ∈ s.takeNames g f ↔ ∃ l, l < 32 ∧ s.passing g l = true ∧ s.cur.resolve l f = r := by
  simp [State.takeNames]

/-- What is listed for each lane that takes an instruction. -/
theorem State.mem_map_passing {α : Type} (v : Nat → α) {x : α} :
    x ∈ (allLanes.filter (s.passing g)).map v ↔ ∃ l, l < 32 ∧ s.passing g l = true ∧ x = v l := by
  simp only [List.mem_map, List.mem_filter, mem_allLanes, and_assoc, eq_comm (a := x)]

/-- A long operation as it stands in its skein: named, and stamped with the time and the issue. -/
def State.stamped (s : State) (o : LongOp) : LongOp := { o with id := s.idCtr, sent := s.now, serial := s.cur.issues }

/-- R143, R308: where some lane takes the instruction its operation stands begun. -/
theorem State.beginIf_began (hi : s.Issuing) (hp : s.Some g) (hA : o.setA = s.header.setA) (hB : o.setB = s.header.setB) :
    s.Began (s.beginIf g o) (s.stamped o) := by
  let start := fun k : Skein => k.begin s.now { o with id := s.idCtr }
  let s' := s.fresh.2.updCur start
  have hbegin : s.beginIf g o = s'.advance := by rw [State.beginIf, if_pos ((s.anyPass_iff g).mpr hp)]; rfl
  have hi' : s'.Issuing := State.updCur_issuing s.fresh.2 start hi fun _ => rfl
  have honly : s.fresh.2.OnlyCur s'.advance := (State.updCur_only s.fresh.2 start hi fun _ => rfl).trans (s'.advance_only hi')
  have hcur : s'.advance.cur = (start s.cur).pass s.issue s.executing := by
    rw [s'.cur_advance hi', State.cur_updCur s.fresh.2 start hi fun _ => rfl]
    rfl
  rw [hbegin]
  exact {
    only := honly
    rest := by rw [hcur]; rfl
    moved := fun l hl => by rw [hcur, Skein.pass, Skein.thread_updThreads _ _ _ _ hl]; rfl
    ops := by rw [hcur]; rfl
    named := ⟨rfl, rfl, rfl, hA, hB⟩
    count := fun f hf => by
      rw [hcur]
      show (incFlag (incFlag s.cur.flags o.setA) o.setB).getD f 0 = _
      rw [incFlag_getD _ _ hf, incFlag_getD _ _ hf]
      rfl }

/-- R167: a group past an instruction that no lane takes leaves its destination's registers general, and nothing else changed. -/
theorem State.passBy_wrote (hi : s.Issuing) : s.Wrote (s.passBy d) { pass := fun _ => false, dst := some d } := by
  let dulled := fun k : Skein => k.dull s.executing (some d)
  have hi' : (s.updCur dulled).Issuing := s.updCur_issuing dulled hi fun k => k.dull_uid ..
  have hcur : (s.passBy d).cur = (dulled s.cur).pass s.issue s.executing := by
    rw [State.passBy, State.cur_advance _ hi', s.cur_updCur dulled hi fun k => k.dull_uid ..]
    rfl
  have hreg : ∀ r, (s.passBy d).cur.reg r = (dulled s.cur).reg r := fun r => by rw [hcur]; rfl
  have hthread : ∀ l, l < 32 → (s.passBy d).cur.thread l = if s.executing l then s.issue.past (s.cur.thread l) else s.cur.thread l :=
    fun l hl => by rw [hcur, Skein.pass, Skein.thread_updThreads _ _ _ _ hl, Skein.dull_thread]
  have hpred : ∀ l, l < 32 → ((s.passBy d).cur.thread l).pred = (s.cur.thread l).pred := fun l hl => by
    rw [hthread l hl]; split <;> simp
  have hsticky : ∀ l, l < 32 → ((s.passBy d).cur.thread l).sticky = (s.cur.thread l).sticky := fun l hl => by
    rw [hthread l hl]; split <;> simp
  exact {
    only := (s.updCur_only dulled hi fun k => k.dull_uid ..).trans (State.advance_only _ hi')
    rest := by rw [hcur, show dulled s.cur = _ from s.cur.dull_rest ..]; rfl
    moved := fun l hl => by rw [← hpred l hl, ← hsticky l hl]; exact hthread l hl
    value := nofun
    other := fun r l hr _ _ => by rw [Skein.lane, hreg]; exact s.cur.dull_lane _ _ r l hr
    kept := fun r hr hno => by
      rw [hreg]
      exact s.cur.dull_other _ _ r hr fun d' hd l hl he heq => hno d' hd l hl (.inr he) heq.symm
    dulled := fun d' r l hd hr hl he heq _ => by
      cases hd
      rw [hreg]
      exact s.cur.dull_named _ d r hr ⟨l, hl, he, heq⟩
    tagAll := fun _ _ _ _ hall => absurd (hall 0 (by decide)).1 Bool.false_ne_true
    tagSome := nofun
    flags := hsticky
    preds := hpred }

end Begin

/-! ### Long operations of one source (R181, R191) -/

section LongOne

variable {s : State} {g : Guard} {es : Es → Bool} {d a : Reg} {f : Nat → Nat × Sticky}

/-- The operation that a long instruction of one source asks for, a sub-element's pattern and flags given by f. -/
def State.longOne (s : State) (g : Guard) (d a : Reg) (f : Nat → Nat × Sticky) : LongOp :=
  { id := 0, lanes := laneMask (s.passing g), pend := s.takeNames g d, held := s.takeNames g a
    setA := s.header.setA, setB := s.header.setB
    writes := (allLanes.filter (s.passing g)).map fun l =>
      ⟨s.cur.resolve l d, l, lanesOf s.es.w fun n => (f (elt s.es.w (s.cur.read a l) n)).1, false⟩
    flags := (allLanes.filter (s.passing g)).map fun l => (l, flagsOf s.es.w fun n => (f (elt s.es.w (s.cur.read a l) n)).2)
    uni := s.plainTag [plain a] == .uniform }

theorem State.longOp1_eq : s.longOp1 g es d a f =
    s.finish (firstStop [s.ckEs es, s.ckOperands [plain a] [d], s.ckFlag (s.anyPass g) (s.anyPass g)])
      (s.beginOp g d (s.longOne g d a f)) := by
  simp only [State.longOp1, State.longOne, subs_eq, List.map_map, State.ftag_eq]
  rfl

/-- Operands that are clear and room on the flags let a long operation pass its checks. -/
theorem State.longOp1_next (hes : es s.es = true) (hc : s.Clear [plain a] [d]) (hroom : s.Room (s.anyPass g) (s.anyPass g)) :
    s.longOp1 g es d a f = .next (s.beginOp g d (s.longOne g d a f)) := by
  have hsize : s.ckEs es = none := by rw [State.ckEs, hes]; rfl
  rw [State.longOp1_eq, hsize, hc.ck rfl, State.ckFlag_none hroom]
  rfl

theorem State.longOp1_badSize (hes : es s.es = false) : s.longOp1 g es d a f = .next (s.takeTrap { kind := 1, cause := 0x07 }) := by
  have hsize : s.ckEs es = ill .badSize := by rw [State.ckEs, hes]; rfl
  rw [State.longOp1_eq, hsize]
  rfl

/-- Where some lane takes the instruction, its operation begins. -/
theorem State.longOp1_begun (hes : es s.es = true) (hc : s.Clear [plain a] [d]) (hroom : s.Room true true) (hp : s.Some g) :
    s.longOp1 g es d a f = .next (s.beginIf g (s.longOne g d a f)) := by
  have hany := (s.anyPass_iff g).mpr hp
  rw [State.longOp1_next hes hc (by rwa [hany]), State.beginOp, if_pos hany]

/-- Where no lane takes it, the group only moves on. -/
theorem State.longOp1_passed (hes : es s.es = true) (hc : s.Clear [plain a] [d]) (hroom : s.Room false false) (hp : ¬ s.Some g) :
    s.longOp1 g es d a f = .next (s.passBy d) := by
  have hany := (s.anyPass_eq_false g).mpr hp
  rw [State.longOp1_next hes hc (by rwa [hany]), State.beginOp, hany]
  rfl

/-- One source alone is uniform where it is seen so. -/
theorem State.plainTag_singleton (s : State) (x : SrcReg) : s.plainTag [x] = .uniform ↔ s.seenTag x = .uniform := by
  simp [State.plainTag]

end LongOne

/-- R182: each row is the long shape of one source with its function, under the sizes its table allows. -/
theorem exec_specialFn {i : Instr} {g : Guard} {d a : Reg} {c : FCtl} {wide : Bool} {f : Fmt → FCtl → Nat → Nat × Sticky}
    (h : specialFn i = some (g, d, a, c, wide, f)) (s : State) :
    exec i s = s.longOp1 g (if wide then esFloat else esSpecial) d a fun x => f (esFmt s.es c.h) c (flushIn (esFmt s.es c.h) c.fzi x) := by
  unfold specialFn at h
  split at h <;> cases h <;> rfl

theorem specialSize_iff {wide : Bool} {e : Es} :
    (if wide then esFloat else esSpecial) e = true ↔ e = .e16 ∨ e = .e32 ∨ (wide = true ∧ e = .e64) := by
  cases wide <;> cases e <;> decide

theorem claim_specialFunctionsBegin : Claim.SpecialFunctionsBegin := by
  intro i g d a c wide f s h hi F r ok
  rw [exec_specialFn h]
  refine ⟨fun hok hc hp hroom => ?_, fun hok hc hno hroom => ?_, fun hok => ?_⟩
  · exact ⟨_, s.stamped (s.longOne g d a fun x => f F c (flushIn F c.fzi x)),
      State.longOp1_begun (specialSize_iff.mpr hok) hc hroom hp, State.beginIf_began hi hp rfl rfl,
      fun _ => State.mem_takeNames, fun _ => State.mem_takeNames, fun _ => State.mem_map_passing _,
      fun _ => State.mem_map_passing _, beq_iff_eq.trans (s.plainTag_singleton _)⟩
  · have hnone : ¬ s.Some g := fun ⟨l, hl, hp⟩ => by simp [hno l hl] at hp
    exact ⟨_, State.longOp1_passed (specialSize_iff.mpr hok) hc hroom hnone, State.passBy_wrote hi⟩
  · exact State.longOp1_badSize (by rwa [← Bool.not_eq_true, specialSize_iff])

/-! ### Special cases (R191) -/

theorem claim_specialFunctionCases : Claim.SpecialFunctionCases := by
  intro F _ c n m e x zero inf
  refine ⟨fun h => ?_, fun h => ?_, fun h => ?_, fun h => ?_, fun sig h => ?_⟩
  · exact ⟨by rw [h]; rfl, by rw [h]; rfl, by rw [h]; rfl, by rw [fLog2V, h]; rfl⟩
  · refine ⟨?_, ?_, by rw [fSinV, h], by rw [fCosV, h]⟩
    · rw [h]
      cases n <;> rfl
    · rw [fExp2V, h]
      cases n <;> rfl
  · exact ⟨by rw [h]; rfl, by rw [h]; rfl, by rw [fLog2V, h]; rfl⟩
  · obtain ⟨h, hm⟩ | h := h
    · exact ⟨by rw [h]; exact if_neg hm, by rw [h]; exact if_neg hm, by rw [fLog2V, h]; exact if_neg hm⟩
    · exact ⟨by rw [h]; rfl, by rw [h]; rfl, by rw [fLog2V, h]; rfl⟩
  · exact ⟨by rw [h]; rfl, by rw [h]; rfl, by rw [h]; rfl, by rw [fExp2V, h]; rfl, by rw [fLog2V, h]; rfl, by rw [fSinV, h]; rfl,
      by rw [fCosV, h]; rfl⟩

end Sys2Proof.Machine

/-- Settles O16: a special function is the long shape of one source, whose operation stands begun where some lane takes it, and each
special case is decided by what the pattern decodes to. -/
theorem specialFunctions : Obligations.SpecialFunctions :=
  ⟨Sys2Proof.Machine.claim_specialFunctionsBegin, Sys2Proof.Machine.claim_specialFunctionCases⟩
end

section
/-!
SUPPORT. Conversions, pack and unpack (R193 to R198): a pair that the tables list makes a lane-wise instruction, a magnitude past every
integer type rounds past its range, and a part of a register is a run of its slots.
-/

namespace Sys2Proof.Machine

/-! ### Legal and illegal pairs (R194) -/

section Pairs

variable {s : State} {spec : Option FSpec} {es : Es → Bool} {srcs : List SrcReg} {extra : Option Stop} {e : LaneEff}

/-- R194: a lane-wise instruction that asks first whether its pair of types is listed. -/
def State.convOp (s : State) (spec : Option FSpec) (es : Es → Bool) (srcs : List SrcReg) (extra : Option Stop) (e : LaneEff) :
    Host.Outcome State Fault Refusal :=
  s.finish (firstStop [ckPair spec, s.ckEs es, s.ckOperands srcs e.dst.toList extra]) (s.laneEff e)

theorem State.convOp_listed (h : spec ≠ none) : s.convOp spec es srcs extra e = s.laneOp es srcs extra e := by
  have hpair : ckPair spec = none := (illIf_eq_none _ _).mpr (Option.isNone_eq_false_iff.mpr (Option.isSome_iff_ne_none.mpr h))
  rw [State.convOp, hpair]
  rfl

/-- The effect of a lane-wise instruction given by what each lane's sub-elements become. -/
def State.eltEff (s : State) (g : Guard) (d : Reg) (tag : Tag) (res : Nat → List (Nat × Sticky)) : LaneEff :=
  { pass := s.passing g, dst := some d, tag := tag
    val := fun l => packLane s.es.w ((res l).map (·.1)), flags := fun l => orFlags ((res l).map (·.2)) }

theorem State.convOp_unlisted (h : spec = none) : s.convOp spec es srcs extra e = .next (s.takeTrap { kind := 1, cause := 0x0A }) := by
  subst h
  rfl

/-- A listed pair under another element size than its own raises cause 0x07. -/
theorem State.convOp_badSize (h : spec ≠ none) (hes : es s.es = false) :
    s.convOp spec es srcs extra e = .next (s.takeTrap { kind := 1, cause := 0x07 }) := by
  rw [State.convOp_listed h]
  exact State.laneOp_badSize hes

/-- An unlisted pair, and a range check that stops under the right element size, raise cause 0x0A. -/
theorem State.convOp_range (h : spec = none ∨ (es s.es = true ∧ extra = ill .range)) :
    s.convOp spec es srcs extra e = .next (s.takeTrap { kind := 1, cause := 0x0A }) := by
  by_cases hspec : spec = none
  · exact State.convOp_unlisted hspec
  · obtain ⟨hes, hextra⟩ := h.resolve_left hspec
    rw [State.convOp_listed hspec]
    exact State.laneOp_range hes hextra

/-- A listed pair under its element size, on clear operands, leaves what each sub-element becomes. -/
theorem State.convOp_wrote {g : Guard} {d : Reg} {res : Nat → List (Nat × Sticky)} (f : Nat → Nat → Nat × Sticky)
    (hf : ∀ l, res l = (List.range (64 / s.es.w)).map (f l)) (hspec : spec ≠ none) (hi : s.Issuing) (hes : es s.es = true)
    (hextra : extra = none) (hc : s.Clear srcs [d]) :
    ∃ t, s.convOp spec es srcs extra (s.eltEff g d (s.ftag srcs) res) = .next t ∧ s.Wrote t
      { pass := s.passing g, dst := some d, tag := s.plainTag srcs
        val := fun l => lanesOf s.es.w fun n => (f l n).1, flags := fun l => flagsOf s.es.w fun n => (f l n).2 } := by
  rw [State.convOp_listed hspec, ← s.ftag_eq]
  exact s.eltOp_wrote g es srcs d extra _ res f hf hi hes hextra hc

end Pairs

/-! ### cvt (R193) -/

theorem exec_cvt (s : State) (g : Guard) (dst src : Ty) (d a : Reg) (c : FCtl) : exec (.cvt g dst src d a c) s =
    s.convOp (cvtSpec dst src) (convEs dst src) [plain a] none (s.eltEff g d (s.ftag [plain a]) fun l =>
      (subs s.es.w (s.cur.read a l)).map fun x =>
        (widenInt s.es.w dst (convert dst src c (x % 2 ^ tyBits src)).1, (convert dst src c (x % 2 ^ tyBits src)).2)) := rfl

theorem claim_convertResults : Claim.ConvertResults := by
  intro g dst src d a c s hi w r
  rw [exec_cvt]
  refine ⟨fun hspec hw hc => ?_, State.convOp_unlisted, fun hspec hw => State.convOp_badSize hspec (beq_eq_false_iff_ne.mpr hw)⟩
  refine State.convOp_wrote (fun l n => (widenInt w dst (r l n).1, (r l n).2)) (fun l => ?_) hspec hi (beq_iff_eq.mpr hw) rfl hc
  rw [subs_eq, List.map_map]
  rfl

/-! ### To an integer type (R195) -/

section ToInteger

/-- R195: the least value of an integer type. -/
def tyLo (t : Ty) : Int := if tySigned t then -2 ^ (t.cvtW - 1) else 0

/-- R195: the greatest value of an integer type. -/
def tyHi (t : Ty) : Int := if tySigned t then 2 ^ (t.cvtW - 1) - 1 else 2 ^ t.cvtW - 1

/-- R195: what a value out of range delivers: the bound it passed, or the indefinite value. -/
def intBeyond (t : Ty) (c : FCtl) (neg : Bool) : Nat × Sticky :=
  (if c.satc then wrap t.cvtW (if neg then tyLo t else tyHi t) else if tySigned t then 2 ^ (t.cvtW - 1) else 2 ^ t.cvtW - 1, fNV)

theorem tyRange_eq (t : Ty) : tyRange t = (tyLo t, tyHi t) := by
  unfold tyRange tyLo tyHi
  split <;> push_cast <;> rfl

variable (t : Ty) (c : FCtl) (n : Bool) (m : Nat) (e : Int)

/-- Every integer type's range lies within magnitudes below 2^80. -/
theorem tyRange_bounds : tyLo t ≤ 0 ∧ 0 ≤ tyHi t ∧ -2 ^ 80 < tyLo t ∧ tyHi t < 2 ^ 80 := by
  cases t <;> decide

theorem two_pow_le_of_blen {m k : Nat} (hm : m ≠ 0) (h : k < blen m) : 2 ^ k ≤ m := by
  rw [blen, if_neg hm, Nat.lt_succ_iff, Nat.le_log2 hm] at h
  exact h

theorem roundShift_ge (mode : BitVec 2) (neg : Bool) (m k : Nat) (stk : Bool) (hk : k ≤ blen m) :
    m / 2 ^ k ≤ (roundShift mode neg m k stk).1 := by
  have hmin : min k (blen m + 2) = k := by omega
  have hup : ∀ (up : Bool) (q : Nat), q ≤ if up then q + 1 else q := fun up q => by cases up <;> simp
  simp only [roundShift, hmin]
  exact hup _ _

/-- A magnitude of 2^80 or more is one in units of 1 as well, however it is rounded. -/
theorem roundAt_large {m : Nat} {e : Int} (hm : m ≠ 0) (h : 80 < e + blen m) (mode : BitVec 2) (neg : Bool) :
    2 ^ 80 ≤ (roundAt mode neg m e 0 false).1 := by
  unfold roundAt
  split
  next he =>
    have hlow := two_pow_le_of_blen hm (k := blen m - 1) (Nat.sub_lt (by simp [blen, hm]) Nat.one_pos)
    calc 2 ^ 80 ≤ 2 ^ (blen m - 1 + (e - 0).toNat) := Nat.pow_le_pow_right (by decide) (by omega)
      _ = 2 ^ (blen m - 1) * 2 ^ (e - 0).toNat := pow_add ..
      _ ≤ m * 2 ^ (e - 0).toNat := Nat.mul_le_mul_right _ hlow
  next he =>
    refine le_trans ?_ (roundShift_ge mode neg m _ false (by omega))
    rw [Nat.le_div_iff_mul_le (Nat.two_pow_pos _), ← pow_add]
    exact two_pow_le_of_blen hm (by omega)

/-- A large finite value rounds past the range of every integer type, on the side of its sign. -/
theorem roundInt_large {m : Nat} {e : Int} (hm : m ≠ 0) (h : 80 < e + blen m) (mode : BitVec 2) :
    if n then (roundInt mode n m e).1 < tyLo t else tyHi t < (roundInt mode n m e).1 := by
  have hbig := roundAt_large hm h mode n
  obtain ⟨_, _, hlo, hhi⟩ := tyRange_bounds t
  show if n then signed n (roundAt mode n m e 0 false).1 < _ else _ < signed n (roundAt mode n m e 0 false).1
  generalize (roundAt mode n m e 0 false).1 = x at hbig ⊢
  cases n <;> simp only [signed, if_true, if_false, Bool.false_eq_true] <;> omega

/-- R195: what a rounded value delivers: itself in range, and what its bound delivers out of range. -/
def intRounded (r : Int × Bool) : Nat × Sticky :=
  if tyLo t ≤ r.1 ∧ r.1 ≤ tyHi t then (wrap t.cvtW r.1, flagIf r.2 fNX) else intBeyond t c (decide (r.1 < tyLo t))

/-- The model decides a large value by its sign, which is what rounding it gives. -/
theorem toIntV_fin : toIntV t c (.fin n m e) = intRounded t c (roundInt c.rm n m e) := by
  have hmodel : toIntV t c (.fin n m e) =
      if decide (80 < (e + blen m : Int)) && m != 0 then intBeyond t c n else intRounded t c (roundInt c.rm n m e) := by
    simp only [toIntV, tyRange_eq]
    rfl
  rw [hmodel]
  split
  next hlarge =>
    obtain ⟨he, hm⟩ := (Bool.and_eq_true ..).mp hlarge
    have hpast := roundInt_large t n (bne_iff_ne.mp hm) (of_decide_eq_true he) c.rm
    obtain ⟨hlo, hhi, _⟩ := tyRange_bounds t
    cases n
    · simp only [Bool.false_eq_true, if_false] at hpast
      rw [intRounded, if_neg (by omega), decide_eq_false (by omega)]
    · simp only [if_true] at hpast
      rw [intRounded, if_neg (by omega), decide_eq_true hpast]
  next => rfl

variable {t n m e}

theorem toIntV_inside (hlo : tyLo t ≤ (roundInt c.rm n m e).1) (hhi : (roundInt c.rm n m e).1 ≤ tyHi t) :
    toIntV t c (.fin n m e) = (wrap t.cvtW (roundInt c.rm n m e).1, flagIf (roundInt c.rm n m e).2 fNX) := by
  rw [toIntV_fin, intRounded, if_pos ⟨hlo, hhi⟩]

theorem toIntV_below (hlo : (roundInt c.rm n m e).1 < tyLo t) : toIntV t c (.fin n m e) = intBeyond t c true := by
  rw [toIntV_fin, intRounded, if_neg fun h => (not_le.mpr hlo) h.1, decide_eq_true hlo]

theorem toIntV_above (hhi : tyHi t < (roundInt c.rm n m e).1) : toIntV t c (.fin n m e) = intBeyond t c false := by
  obtain ⟨hlo0, hhi0, _⟩ := tyRange_bounds t
  rw [toIntV_fin, intRounded, if_neg fun h => (not_le.mpr hhi) h.2, decide_eq_false (by omega)]

theorem toIntV_inf : toIntV t c (.inf n) = intBeyond t c n := by
  simp only [toIntV, tyRange_eq]
  rfl

end ToInteger

theorem claim_convertToInteger : Claim.ConvertToInteger := by
  intro t _ c n m e w lo hi indef v
  refine ⟨toIntV_inside c, toIntV_below c, toIntV_above c, fun _ => rfl, ?_⟩
  rw [toIntV_inf]
  cases n <;> rfl

/-! ### Runs of slots (R197, R198) -/

section Slots

variable {α : Type} (f h : Nat → α) {p n N : Nat}

/-- A run of a list's elements replaced by another list. -/
theorem setSlots_map_range (hfit : p + n ≤ N) : setSlots ((List.range N).map f) p ((List.range n).map h) =
    (List.range N).map fun j => if p ≤ j ∧ j < p + n then h (j - p) else f j := by
  refine List.ext_getElem (by simp [setSlots]; omega) fun j hj _ => ?_
  simp only [setSlots, List.getElem_append, List.getElem_map, List.getElem_take, List.getElem_drop, List.getElem_range,
    List.length_append, List.length_take, List.length_map, List.length_range]
  grind

/-- A run of a list's elements taken out. -/
theorem take_drop_map_range (hfit : p + n ≤ N) : (((List.range N).map f).drop p).take n = (List.range n).map fun j => f (p + j) := by
  refine List.ext_getElem (by simp; omega) fun j hj _ => ?_
  simp

/-- Two lists one after the other. -/
theorem map_range_append_map_range (n : Nat) : (List.range n).map f ++ (List.range n).map h =
    (List.range (2 * n)).map fun j => if j < n then f j else h (j - n) := by
  refine List.ext_getElem (by simp; omega) fun j hj _ => ?_
  simp [List.getElem_append]

end Slots

/-! ### The slots of a pair of types (R197, R198) -/

/-- The widths of a slot and of an element that a pair of pack or unpack can have. -/
def slotWidths : List (Nat × Nat) := [(4, 16), (8, 16), (4, 32), (8, 32), (16, 32)]

theorem tySlotW_narrow {t : Ty} (h : t.kind = .narrow) : tySlotW t = 4 ∨ tySlotW t = 8 := by
  cases t <;> simp_all [Ty.kind, tySlotW, Ty.cvtW]

theorem packSpec_widths {dst src : Ty} (h : packSpec dst src ≠ none) : (tySlotW dst, src.cvtW) ∈ slotWidths := by
  unfold packSpec at h
  split at h
  next hpair =>
    obtain ⟨hsrc, hnarrow | ⟨rfl, rfl | rfl⟩⟩ := hpair
    · rcases tySlotW_narrow hnarrow with hd | hd <;> rcases hsrc with rfl | rfl | rfl <;> rw [hd] <;> decide
    · decide
    · decide
  next => exact absurd rfl h

/-- The pairs of unpack are those of pack, the other way round. -/
theorem unpackSpec_widths {dst src : Ty} (h : unpackSpec dst src ≠ none) : (tySlotW src, dst.cvtW) ∈ slotWidths :=
  packSpec_widths (by simpa [packSpec, unpackSpec] using h)

/-- The parts of a register hold all its slots: two lists of elements to a part that is packed, one to a part that is unpacked. -/
theorem slotWidths_parts : ∀ x ∈ slotWidths, 2 * (64 / x.2) * (x.2 / (2 * x.1)) = 64 / x.1 ∧ 64 / x.2 * (x.2 / x.1) = 64 / x.1 := by
  decide

theorem packed_fits {wd w p : Nat} (h : (wd, w) ∈ slotWidths) (hp : p < w / (2 * wd)) : 2 * (64 / w) * (p + 1) ≤ 64 / wd :=
  (Nat.mul_le_mul_left _ hp).trans_eq (slotWidths_parts _ h).1

theorem unpacked_fits {ws w p : Nat} (h : (ws, w) ∈ slotWidths) (hp : p < w / ws) : 64 / w * (p + 1) ≤ 64 / ws :=
  (Nat.mul_le_mul_left _ hp).trans_eq (slotWidths_parts _ h).2

/-! ### pack and unpack (R197, R198) -/

section Pack

variable (s : State) (g : Guard) (dst src : Ty) (d a cr : Reg) (part : BitVec 6) (c : FCtl)

/-- Element k of the two sources of a pack, converted: those of a, then those of c. -/
def State.packElt (l k : Nat) : Nat × Sticky :=
  convert dst src c ((if k < 64 / s.es.w then elt s.es.w (s.cur.read a l) k
    else elt s.es.w (s.cur.read cr l) (k - 64 / s.es.w)) % 2 ^ tyBits src)

/-- The effect of a pack on slots that its destination holds from a place on. -/
def State.packEff (val : Nat → Lane) : LaneEff :=
  { pass := s.passing g, dst := some d, tag := s.plainTag [plain d, plain a, plain cr], val := val
    flags := fun l => orFlags ((List.range (2 * (64 / s.es.w))).map fun j => (s.packElt dst src a cr c l j).2) }

/-- A lane of the destination with the slots of a pack in place of its own from a place on. -/
def State.packInto (l : Nat) : Lane :=
  packLane (tySlotW dst) (setSlots (subs (tySlotW dst) (s.cur.read d l)) (part.toNat * 2 * (64 / s.es.w))
    ((List.range (2 * (64 / s.es.w))).map fun k => (s.packElt dst src a cr c l k).1))

/-- The slots of a part that is there take the converted elements, and the others stand. -/
theorem State.packInto_eq (hfit : 2 * (64 / s.es.w) * (part.toNat + 1) ≤ 64 / tySlotW dst) (l : Nat) :
    s.packInto dst src d a cr part c l = lanesOf (tySlotW dst) fun j =>
      if 2 * (64 / s.es.w) * part.toNat ≤ j ∧ j < 2 * (64 / s.es.w) * (part.toNat + 1) then
        (s.packElt dst src a cr c l (j - 2 * (64 / s.es.w) * part.toNat)).1
      else elt (tySlotW dst) (s.cur.read d l) j := by
  have hplace : part.toNat * 2 * (64 / s.es.w) = 2 * (64 / s.es.w) * part.toNat := by ring
  rw [State.packInto, hplace, subs_eq, setSlots_map_range (p := 2 * (64 / s.es.w) * part.toNat) _ _ hfit]
  rfl

/-- Element j of the run of slots that an unpack reads, converted. -/
def State.unpackElt (l j : Nat) : Nat × Sticky :=
  convert dst src c (elt (tySlotW src) (s.cur.read a l) (64 / s.es.w * part.toNat + j) % 2 ^ tyBits src)

/-- The elements that an unpack converts, as the model lists them. -/
def State.unpackElts (l : Nat) : List (Nat × Sticky) :=
  (((subs (tySlotW src) (s.cur.read a l)).drop (part.toNat * (64 / s.es.w))).take (64 / s.es.w)).map fun x =>
    convert dst src c (x % 2 ^ tyBits src)

theorem State.unpackElts_eq (hfit : 64 / s.es.w * (part.toNat + 1) ≤ 64 / tySlotW src) (l : Nat) :
    s.unpackElts dst src a part c l = (List.range (64 / s.es.w)).map (s.unpackElt dst src a part c l) := by
  rw [State.unpackElts, Nat.mul_comm part.toNat, subs_eq, take_drop_map_range (p := 64 / s.es.w * part.toNat) _ hfit, List.map_map]
  rfl

/-- The sources of a pack: its destination is one where some of its slots stand. -/
def State.packSrcs : List SrcReg :=
  if s.es.w / (2 * tySlotW dst) = 1 then [plain a, plain cr] else [plain d, plain a, plain cr]

/-- R197: a part past the last raises cause 0x0A. -/
def ckPart (parts : Nat) (part : BitVec 6) : Option Stop := illIf (decide (parts ≤ part.toNat)) .range

theorem exec_pack : exec (.pack g dst src d a cr part c) s =
    s.convOp (packSpec dst src) (fun e => e.w == src.cvtW) (s.packSrcs dst d a cr) (ckPart (s.es.w / (2 * tySlotW dst)) part)
      (s.packEff g dst src d a cr c (s.packInto dst src d a cr part c)) := by
  have helts : ∀ l, ((subs s.es.w (s.cur.read a l)) ++ (subs s.es.w (s.cur.read cr l))).map
      (fun x => convert dst src c (x % 2 ^ tyBits src)) = (List.range (2 * (64 / s.es.w))).map (s.packElt dst src a cr c l) := fun l => by
    rw [subs_eq, subs_eq, map_range_append_map_range, List.map_map]
    rfl
  show execPack g dst src d a cr part c s = _
  simp only [execPack, helts, List.map_map, State.ftag_eq]
  rfl

theorem exec_unpack : exec (.unpack g dst src d a part c) s =
    s.convOp (unpackSpec dst src) (fun e => e.w == dst.cvtW) [plain a] (ckPart (s.es.w / tySlotW src) part)
      (s.eltEff g d (s.ftag [plain a]) (s.unpackElts dst src a part c)) := rfl

end Pack

theorem ckPart_none {parts : Nat} {part : BitVec 6} (h : part.toNat < parts) : ckPart parts part = none :=
  (illIf_eq_none _ _).mpr (decide_eq_false (Nat.not_le_of_lt h))

theorem ckPart_range {parts : Nat} {part : BitVec 6} (h : parts ≤ part.toNat) : ckPart parts part = ill .range :=
  congrArg (illIf · .range) (decide_eq_true h)

theorem claim_packResults : Claim.PackResults := by
  intro g dst src d a cr part c s hi w n p wd ws put take
  rw [exec_pack, exec_unpack]
  refine ⟨fun hspec hw hp hc => ?_, fun hspec hw hp hc => ?_, fun h => ?_, fun h => ?_, fun hspec hw => ?_, fun hspec hw => ?_⟩
  · have hfit : 2 * n * (p + 1) ≤ 64 / wd := packed_fits (hw ▸ packSpec_widths hspec) hp
    rw [State.convOp_listed hspec]
    obtain ⟨t, ht, hwrote⟩ := s.laneOp_wrote (·.w == src.cvtW) (s.packSrcs dst d a cr) _
      (s.packEff g dst src d a cr c (s.packInto dst src d a cr part c)) hi (beq_iff_eq.mpr hw) (ckPart_none hp) hc
    have hput : ∀ l j, put l (2 * n * p + j) = s.packElt dst src a cr c l j := fun l j => by
      simp only [put, Nat.add_sub_cancel_left]
      rfl
    rw [funext (s.packInto_eq dst src d a cr part c hfit)] at hwrote
    simp only [hput]
    exact ⟨t, ht, hwrote⟩
  · have hfit : n * (p + 1) ≤ 64 / ws := unpacked_fits (hw ▸ unpackSpec_widths hspec) hp
    exact State.convOp_wrote take (s.unpackElts_eq dst src a part c hfit) hspec hi (beq_iff_eq.mpr hw) (ckPart_none hp) hc
  · exact State.convOp_range (h.imp_right fun ⟨hw, hp⟩ => ⟨by simpa using hw, ckPart_range hp⟩)
  · exact State.convOp_range (h.imp_right fun ⟨hw, hp⟩ => ⟨by simpa using hw, ckPart_range hp⟩)
  · exact State.convOp_badSize hspec (beq_eq_false_iff_ne.mpr hw)
  · exact State.convOp_badSize hspec (beq_eq_false_iff_ne.mpr hw)

end Sys2Proof.Machine

/-- Settles O17: a listed pair makes a lane-wise instruction, a magnitude past 2^80 rounds past every integer type's range on its own side,
and a part that is there is a run of the register's slots. -/
theorem conversions : Obligations.Conversions :=
  ⟨Sys2Proof.Machine.claim_convertResults, Sys2Proof.Machine.claim_convertToInteger, Sys2Proof.Machine.claim_packResults⟩
end

section
/-!
SUPPORT. Inside a melded region a field names different registers on different paths (R51); `tag` writes in each lane the tag of that
lane's register (R211), while the statement about it asks one word of all lanes, 0 where no one register is named.
-/

namespace Sys2Proof.Machine

/-- A group of two threads on the paths 0 and 1 of a region: v56 names v56 on path 0 and v1 on path 1, and both are uniform. -/
def twoPaths : State :=
  { State.reset with
    skeins := [{ uid := 1
                 regCount := 64
                 pm := [0x0000FFEF7CEFAE78, 0x0000FFEF7CEFAE41]
                 threads := [{ exited := false, region := some 0 }, { exited := false, region := some 1 }] }]
    issue := { sk := 1, mask := 3 } }

theorem twoPaths_issuing : twoPaths.Issuing := ⟨_, rfl⟩

theorem twoPaths_clear : twoPaths.Clear [plain 56] [0] where
  range := by decide
  landed _ _ := rfl
  free _ _ := rfl
  sound := by decide

/-- The two registers that v56 names have no tag in common, whatever their tags are. -/
theorem twoPaths_tagOf : twoPaths.tagOf 56 = .general := by decide

/-- What `tag` writes in lane 0. -/
theorem twoPaths_tagWord : tagWord (twoPaths.cur.reg (twoPaths.cur.resolve 0 56)).tag = 1 := by decide

theorem twoPaths_passing : twoPaths.passing .always 0 = true := by decide

theorem not_claim_tagIotaSticky : ¬ Claim.TagIotaSticky := by
  intro h
  obtain ⟨htag, -⟩ := h .always 0 56 0 0 twoPaths twoPaths_issuing
  obtain ⟨t, v, hexec, hwrote, hgeneral, -⟩ := htag twoPaths_clear
  obtain ⟨t', hexec', hwrote'⟩ := twoPaths.laneOp_wrote anyEs [plain 56] none
    { pass := twoPaths.passing .always, dst := some 0, tag := .uniform
      val := fun l => tagWord (twoPaths.cur.reg (twoPaths.cur.resolve l 56)).tag } twoPaths_issuing rfl rfl twoPaths_clear
  obtain rfl : t = t' := Host.Outcome.next.inj (hexec.symm.trans hexec')
  have hword := (hwrote.value 0 rfl 0 (by decide) twoPaths_passing).symm.trans (hwrote'.value 0 rfl 0 (by decide) twoPaths_passing)
  exact absurd ((hgeneral twoPaths_tagOf).symm.trans (hword.trans twoPaths_tagWord)) (by decide)

end Sys2Proof.Machine

/-- Refutes O21: in a melded region, where the field of `tag` names one uniform register on each of two paths, every lane receives 1, and
the statement asks 0. -/
theorem not_predicatesAndTags : ¬ Obligations.PredicatesAndTags := fun h => Sys2Proof.Machine.not_claim_tagIotaSticky h.2
end

section
/-!
SUPPORT. Table look-up, identifiers and select (R206 to R208): a table laid register after register, the lanes that a wide look-up
reads, and a choice of bits by a mask.
-/

namespace Sys2Proof.Machine

/-! ### Table look-up (R206) -/

/-- Bytes of registers laid one register after another: byte x of them is byte x % 8 of register x / 8. -/
theorem flatMap_bytes_getD (v : Nat → Lane) (n x fill : Nat) :
    ((List.range n).flatMap fun r => subs 8 (v r)).getD x fill = if x < 8 * n then elt 8 (v (x / 8)) (x % 8) else fill := by
  induction n with
  | zero => simp
  | succ n ih =>
    have hlen : ((List.range n).flatMap fun r => subs 8 (v r)).length = 8 * n := by
      simp [List.length_flatMap, subs_eq, Nat.mul_comm]
    rw [List.range_succ, List.flatMap_append, List.flatMap_singleton]
    by_cases hx : x < 8 * n
    · rw [List.getD_append _ _ _ _ (hlen ▸ hx), ih, if_pos hx, if_pos (by omega)]
    · rw [List.getD_append_right _ _ _ _ (by omega), hlen]
      by_cases hx' : x < 8 * (n + 1)
      · rw [if_pos hx', show x / 8 = n by omega, show x - 8 * n = x % 8 by omega]
        simp [subs_eq, List.getD_eq_getElem?_getD, show x % 8 < 8 by omega]
      · rw [if_neg hx', List.getD_eq_default _ _ (by simp [subs_eq]; omega)]

section Table

variable (s : State) (g : Guard) (d a b : Reg) (wide : Bool) (cnt1 : BitVec 3) (fill : BitVec 8)

/-- The registers of a table that is not wide. -/
def tableRegs : List Reg := (List.range (cnt1.toNat + 1)).map fun r => a + BitVec.ofNat 6 r

/-- The table's own check: it ends at v63 or before. -/
def ckTable : Option Stop := illIf (decide (63 < a.toNat + (cnt1.toNat + 1) - 1)) .range

/-- What a look-up of x finds in lane l. -/
def State.tableByte (l x : Nat) : Nat :=
  if wide then (if (s.cur.thread (x / 8)).exited then 0 else elt 8 (s.cur.read a (x / 8)) (x % 8))
  else if x < 8 * (cnt1.toNat + 1) then elt 8 (s.cur.read (a + BitVec.ofNat 6 (x / 8)) l) (x % 8) else fill.toNat

/-- The effect of a look-up. -/
def State.tblEff : LaneEff :=
  { pass := s.passing g, dst := some d, tag := if wide then .general else s.plainTag ((tableRegs a cnt1).map plain ++ [plain b])
    val := fun l => lanesOf 8 fun k => s.tableByte a wide cnt1 fill l (elt 8 (s.cur.read b l) k) }

/-- The operand checks of a look-up, wide or not. -/
def State.ckTbl : Option Stop :=
  if wide then s.ckWide d a b (ckTable a cnt1) else s.ckOperands ((tableRegs a cnt1).map plain ++ [plain b]) [d] (ckTable a cnt1)

/-- The bytes of the table as the model lists them. -/
theorem State.tableByte_eq (l x : Nat) :
    (if wide then (if (s.cur.thread (x / 8)).exited then 0 else (subs 8 (s.cur.read a (x / 8))).getD (x % 8) 0)
      else ((tableRegs a cnt1).flatMap fun f => subs 8 (s.cur.read f l)).getD x fill.toNat) = s.tableByte a wide cnt1 fill l x := by
  rw [tableRegs, List.flatMap_map, flatMap_bytes_getD fun r => s.cur.read (a + BitVec.ofNat 6 r) l,
    subs_getD 8 _ (Nat.mod_lt x (by decide))]
  rfl

theorem exec_tbl : exec (.tbl g d a b wide cnt1 fill) s =
    s.finish (firstStop [s.ckEs (· == .e8), s.ckTbl d a b wide cnt1]) (s.laneEff (s.tblEff g d a b wide cnt1 fill)) := by
  show execTbl g d a b wide cnt1 fill s = _
  rw [State.tblEff, ← State.ftag_eq]
  simp only [← State.tableByte_eq]
  rfl

variable {s g d a b wide cnt1 fill}

/-- A look-up whose checks pass leaves its effect. -/
theorem exec_tbl_wrote (hi : s.Issuing) (hes : s.es = .e8) (hck : s.ckTbl d a b wide cnt1 = none) :
    ∃ t, exec (.tbl g d a b wide cnt1 fill) s = .next t ∧ s.Wrote t (s.tblEff g d a b wide cnt1 fill) :=
  ⟨_, by rw [exec_tbl, State.ckEs, hes, hck]; rfl, s.laneEff_wrote _ hi⟩

theorem exec_tbl_badSize (hes : s.es ≠ .e8) :
    exec (.tbl g d a b wide cnt1 fill) s = .next (s.takeTrap { kind := 1, cause := 0x07 }) := by
  rw [exec_tbl, State.ckEs, beq_eq_false_iff_ne.mpr hes]
  rfl

theorem exec_tbl_range (hes : s.es = .e8) (hck : s.ckTbl d a b wide cnt1 = ill .range) :
    exec (.tbl g d a b wide cnt1 fill) s = .next (s.takeTrap { kind := 1, cause := 0x0A }) := by
  rw [exec_tbl, State.ckEs, hes, hck]
  rfl

theorem ckTable_none (h : a.toNat + (cnt1.toNat + 1) ≤ 64) : ckTable a cnt1 = none :=
  (illIf_eq_none _ _).mpr (decide_eq_false (by omega))

theorem ckTable_range (h : 64 < a.toNat + (cnt1.toNat + 1)) : ckTable a cnt1 = ill .range :=
  congrArg (illIf · .range) (decide_eq_true (by omega))

/-- The table's own check raises the cause that the check of the registers raises. -/
theorem State.ckTbl_range (h : ckTable a cnt1 = ill .range) : s.ckTbl d a b wide cnt1 = ill .range := by
  cases wide with
  | false => exact State.ckOperands_range h
  | true =>
    show s.ckWide d a b (ckTable a cnt1) = ill .range
    rw [State.ckWide, h, State.ckRegs]
    cases [a, b, d].any fun f => decide (s.cur.regCount ≤ f.toNat) <;> rfl

theorem State.ckPoisonLanes_none {xs : List (Nat × Nat)} (h : ∀ x ∈ xs, (s.cur.reg x.1).poison.getLsbD x.2 = false) :
    s.ckPoisonLanes xs = none := by
  rw [State.ckPoisonLanes, Option.map_eq_none_iff, List.find?_eq_none]
  exact fun x hx => by simp [h x hx]

/-- A wide look-up passes its checks where the index and the destination are clear and what it looks up has landed and is sound. -/
theorem State.ckWide_none (hc : s.Clear [plain b] [d]) (ha : a.toNat < s.cur.regCount)
    (hmarks : ∀ r ∈ s.namedSrcs [plain a], s.cur.pendingBy r = none)
    (hlooked : ∀ x ∈ s.lookedUp a b, s.cur.pendingBy x.1 = none ∧ (s.cur.reg x.1).poison.getLsbD x.2 = false) :
    s.ckWide d a b none = none := by
  have hregs : s.ckRegs [a, b, d] = none := s.ckRegs_none _ (List.forall_mem_cons.mpr ⟨ha, hc.range⟩)
  have hpend : ∀ r ∈ s.namedSrcs [plain a, plain b] ++ (s.lookedUp a b).map (·.1) ++ s.namedDsts [d], s.cur.pendingBy r = none := by
    intro r hr
    have hsplit : s.namedSrcs [plain a, plain b] = s.namedSrcs [plain a] ++ s.namedSrcs [plain b] := List.flatMap_append (xs := [plain a])
    rw [hsplit, List.append_assoc, List.append_assoc] at hr
    rcases List.mem_append.mp hr with hr | hr
    · exact hmarks r hr
    rcases List.mem_append.mp hr with hr | hr
    · exact hc.landed r (List.mem_append_left _ hr)
    rcases List.mem_append.mp hr with hr | hr
    · obtain ⟨x, hx, rfl⟩ := List.mem_map.mp hr
      exact (hlooked x hx).1
    · exact hc.landed r (List.mem_append_right _ hr)
  rw [State.ckWide, hregs, s.ckMarks_none _ _ hpend hc.free, s.ckPoison_none _ hc.sound,
    State.ckPoisonLanes_none fun x hx => (hlooked x hx).2]
  rfl

end Table

theorem claim_tableLookup : Claim.TableLookup := by
  intro g d a b wide cnt1 fill s hi n tabs entry
  refine ⟨fun hes hfit hclear => ?_, exec_tbl_badSize, fun hes hpast => exec_tbl_range hes (State.ckTbl_range (ckTable_range hpast))⟩
  have hfit := ckTable_none hfit
  have hck : s.ckTbl d a b wide cnt1 = none := by
    rw [State.ckTbl, hfit]
    cases wide with
    | false => exact State.Clear.ck hclear rfl
    | true =>
      obtain ⟨hc, ha, hmarks, hlooked⟩ := hclear
      exact State.ckWide_none hc ha hmarks hlooked
  exact exec_tbl_wrote hi hes hck

/-! ### Identifiers (R207) -/

section Ident

variable (s : State)

/-- The identifiers in the order of their selectors. -/
def State.identList (l : Nat) : List Nat :=
  let slot := s.cur.slot.getD 0
  let port := match s.record with | some r => if r.ports = 0 then 0 else r.domain.toNat | none => 0
  [l, slot, slot % 8, s.cur.quad, s.cur.core % 192, clusterOf s.cur.core, dieOf s.cur.core, port, (s.ctx s.cur.ctx).part]

theorem State.ident_eq (k : BitVec 4) (l : Nat) : s.ident k l = (s.identList l)[k.toNat]? := by
  have hk := k.isLt
  rw [State.ident]
  generalize k.toNat = n at hk
  interval_cases n <;> rfl

@[simp] theorem State.identList_length (l : Nat) : (s.identList l).length = 9 := rfl

variable {s} {g : Guard} {d : Reg} {k : BitVec 4}

theorem exec_lid_wrote (hi : s.Issuing) (hk : k.toNat < 9) (hc : s.Clear [] [d]) :
    ∃ t, exec (.lid g d k) s = .next t ∧ s.Wrote t
      { pass := s.passing g, dst := some d, tag := if k = 0 then .affine 0 (lanesOf s.es.w fun _ => 1) s.es else .uniform
        val := fun l => lanesOf s.es.w fun _ => (s.identList l).getD k.toNat 0 % 2 ^ s.es.w } := by
  have hextra : illIf (s.ident k 0).isNone .range = none := (illIf_eq_none _ _).mpr (by simp [s.ident_eq, hk])
  simp only [lanesOf_const, List.getD_eq_getElem?_getD, ← s.ident_eq]
  exact s.laneOp_wrote anyEs [] _ _ hi rfl hextra hc

theorem exec_lid_range (hk : 9 ≤ k.toNat) : exec (.lid g d k) s = .next (s.takeTrap { kind := 1, cause := 0x0A }) := by
  have hnone : (s.ident k 0).isNone = true := by simp [s.ident_eq, hk]
  exact State.laneOp_range rfl (congrArg (illIf · .range) hnone)

end Ident

/-! ### Select (R208) -/

/-- Bits of x where a mask is set, of y where it is not. -/
theorem getLsbD_choose (x y m : Lane) {i : Nat} (hi : i < 64) :
    ((x &&& m) ||| (y &&& ~~~m)).getLsbD i = if m.getLsbD i then x.getLsbD i else y.getLsbD i := by
  simp only [BitVec.getLsbD_or, BitVec.getLsbD_and, BitVec.getLsbD_not, hi, decide_true, Bool.true_and]
  cases m.getLsbD i <;> simp

theorem claim_identifiersAndSelect : Claim.IdentifiersAndSelect := by
  intro g d a b p c k dep s hi slot port ids
  refine ⟨fun hk hc => exec_lid_wrote hi hk hc, exec_lid_range, fun hc => ?_, fun hc => ?_⟩
  · obtain ⟨t, ht, hw⟩ := s.laneOp_wrote anyEs [plain a, (b, p), plain c] none
      { pass := s.passing g, dst := some d, tag := s.ftag [plain a, (b, p), plain c]
        val := fun l => (s.cur.read a l &&& s.cur.read c l) ||| (s.cur.readB b p l &&& ~~~(s.cur.read c l)) } hi rfl rfl hc
    exact ⟨t, _, ht, s.ftag_eq _ ▸ hw, fun l i hi => getLsbD_choose _ _ _ hi⟩
  · exact s.laneOp_wrote anyEs [plain a, (b, p)] none _ hi rfl rfl hc

end Sys2Proof.Machine

/-- Settles O20: a table is its registers' bytes laid one register after another, the identifiers are a list by selector, and a select is a
lane-wise instruction. -/
theorem tablesAndSelects : Obligations.TablesAndSelects :=
  ⟨Sys2Proof.Machine.claim_tableLookup, Sys2Proof.Machine.claim_identifiersAndSelect⟩
end

section
/-!
SUPPORT. The issuing skein changed and moved on, the loop-nest unit and the address streams (R214 to R218).
-/

namespace Sys2Proof.Machine

/-! ### A change of the issuing skein, and the group past its instruction -/

section Change

variable {s : State} {f : Skein → Skein}

/-- The issuing skein changed, nothing else. -/
theorem State.updCur_became (h : s.Issuing) (hf : ∀ k, (f k).uid = k.uid) : s.Became (s.updCur f) (f s.cur) :=
  ⟨s.updCur_only f h hf, s.cur_updCur f h hf⟩

/-- The issuing skein changed, and its group moved past the instruction. -/
theorem State.updCur_advance_became (h : s.Issuing) (hf : ∀ k, (f k).uid = k.uid) :
    s.Became (s.updCur f).advance ((f s.cur).pass s.issue s.executing) := by
  have hi := s.updCur_issuing f h hf
  refine ⟨(s.updCur_only f h hf).trans (State.advance_only _ hi), ?_⟩
  rw [State.cur_advance _ hi, s.cur_updCur f h hf]
  rfl

end Change

/-! ### The lowest passing lane -/

theorem State.lowRead_of_lowest {s : State} {g : Guard} {a : Reg} {l : Nat} (hl : l < 32) (hp : s.passing g l = true)
    (hlow : ∀ j, j < l → s.passing g j = false) : s.lowRead g a = some (s.cur.read a l) := by
  have hfind : lowest (s.passing g) = some l := by
    simp only [lowest, allLanes, List.find?_range_eq_some, List.mem_range]
    exact ⟨hp, hl, fun j hj => by simp [hlow j hj]⟩
  rw [State.lowRead, hfind]
  rfl

theorem State.lowRead_of_none {s : State} {g : Guard} {a : Reg} (h : ∀ l, l < 32 → s.passing g l = false) :
    s.lowRead g a = none := by
  rw [State.lowRead, lowest, List.find?_eq_none.mpr fun l hl => by simp [h l ((mem_allLanes l).mp hl)]]
  rfl

/-! ### The loop-nest unit (R214 to R216) -/

section Levels

variable {s : State} {g : Guard} {n : BitVec 2}

/-- R214: a level begun, and the group moved on. -/
theorem State.lset_became (hi : s.Issuing) (b : BitVec 32) :
    s.Became (s.updCur fun k => k.lset n.toNat b).advance { s.moved with levels := (s.cur.lset n.toNat b).levels } :=
  State.updCur_advance_became hi fun _ => rfl

theorem exec_lset_imm {v : BitVec 16} (h : s.anyPass g = true) :
    exec (.lset g n (.imm v)) s = .next (s.updCur fun k => k.lset n.toNat (v.setWidth 32 + 1)).advance := by
  show execLset g n (.imm v) s = _
  simp only [execLset, h, if_true]
  rfl

theorem exec_lset_unpassed {v : BitVec 16} (h : s.anyPass g = false) : exec (.lset g n (.imm v)) s = .next s.advance := by
  show execLset g n (.imm v) s = _
  simp only [execLset, h, Bool.false_eq_true, if_false]
  rfl

theorem exec_lset_reg {a : Reg} {x : Lane} (hc : s.Clear [plain a] []) (h : s.lowRead g a = some x) :
    exec (.lset g n (.reg a)) s = .next (s.updCur fun k => k.lset n.toNat (x.setWidth 32)).advance := by
  show execLset g n (.reg a) s = _
  simp only [execLset, h, hc.ck rfl]
  rfl

variable {off : BitVec 21}

theorem State.ckRegion_none (h : s.inRegion = false) : s.ckRegion = none := congrArg (illIf · .inRegion) h

theorem Skein.topLevel_none {k : Skein} (h : ∀ i, i < 4 → (k.level i).active = false) : k.topLevel = none := by
  rw [Skein.topLevel, List.find?_eq_none]
  exact fun n hn => by simp [h n (by simpa using hn)]

theorem Skein.topLevel_some {k : Skein} {i : Nat} (hi : i < 4) (ha : (k.level i).active = true)
    (habove : ∀ j, j < 4 → i < j → (k.level j).active = false) : k.topLevel = some i := by
  rw [Skein.topLevel]
  interval_cases i <;> simp [List.range_succ, ha, habove]

/-- One level of the unit changed. -/
def Skein.updLevel (k : Skein) (n : Nat) (f : LoopLevel → LoopLevel) : Skein := { k with levels := bankUpd 4 {} k.levels n f }

theorem Skein.level_updLevel (k : Skein) (n : Nat) (f : LoopLevel → LoopLevel) {j : Nat} (hj : j < 4) :
    (k.updLevel n f).level j = if j = n then f (k.level n) else k.level j := by
  refine (bankUpd_getD 4 ({} : LoopLevel) k.levels n f j hj).trans ?_
  split
  · next h => rw [h]; rfl
  · rfl

theorem Skein.thread_updLevel (k : Skein) (n : Nat) (f : LoopLevel → LoopLevel) : (k.updLevel n f).thread = k.thread := rfl

theorem Skein.level_pass (k : Skein) (i : Issue) (p : Nat → Bool) : (k.pass i p).level = k.level := rfl

theorem Skein.level_updThreads (k : Skein) (p : Nat → Bool) (f : Nat → Thread → Thread) : (k.updThreads p f).level = k.level := rfl

theorem exec_loop_none (hr : s.inRegion = false) (h : s.cur.topLevel = none) :
    exec (.loop off) s = .next (s.takeTrap { kind := 1, cause := 0x0B }) := by
  show execLoop off s = _
  simp only [execLoop, h, State.ckRegion_none hr]
  rfl

variable {i : Nat}

/-- R215: below its bound the level counts, and the group goes to the target. -/
theorem exec_loop_again (hr : s.inRegion = false) (h : s.cur.topLevel = some i)
    (hagain : (s.cur.level i).counter + 1 < (s.cur.level i).bound) (hcanon : canonical (s.target off) = true) :
    exec (.loop off) s = .next (s.updCur fun k => (k.updThreads s.executing fun _ t => t.jump (s.target off)).updLevel i fun x =>
      { x with counter := (s.cur.level i).counter + 1 }) := by
  show execLoop off s = _
  simp only [execLoop, h, State.ckRegion_none hr, ckCanon, decide_eq_true hagain, hcanon]
  rfl

theorem exec_loop_far (hr : s.inRegion = false) (h : s.cur.topLevel = some i)
    (hagain : (s.cur.level i).counter + 1 < (s.cur.level i).bound) (hcanon : canonical (s.target off) = false) :
    exec (.loop off) s = .next (s.takeTrap { kind := 4, addr := s.target off }) := by
  show execLoop off s = _
  simp only [execLoop, h, State.ckRegion_none hr, ckCanon, decide_eq_true hagain, hcanon]
  rfl

/-- R215: at its bound the level ends, and the group moves on. -/
theorem exec_loop_done (hr : s.inRegion = false) (h : s.cur.topLevel = some i)
    (hdone : ¬ (s.cur.level i).counter + 1 < (s.cur.level i).bound) :
    exec (.loop off) s = .next (s.updCur fun k => k.updLevel i fun x => { x with counter := 0, active := false }).advance := by
  show execLoop off s = _
  simp only [execLoop, h, State.ckRegion_none hr, ckCanon, decide_eq_false hdone]
  rfl

end Levels

theorem claim_loopUnit : Claim.LoopUnit := by
  intro g d a n v bnd off s hi set anyone
  refine ⟨fun h => ?_, fun hc l hl hp hlow => ?_, fun h => ?_, fun hr h => exec_loop_none hr (Skein.topLevel_none h),
    ?_, fun hc => ?_⟩
  · exact ⟨_, exec_lset_imm ((s.anyPass_iff g).mpr h), State.lset_became hi _⟩
  · exact ⟨_, exec_lset_reg hc (State.lowRead_of_lowest hl hp hlow), State.lset_became hi _⟩
  · exact ⟨_, exec_lset_unpassed ((s.anyPass_eq_false g).mpr h), State.advance_became hi⟩
  · intro hr i hlt ha habove c again
    have htop := Skein.topLevel_some hlt ha habove
    refine ⟨fun hagain hcanon => ⟨_, exec_loop_again hr htop hagain hcanon, ?_⟩, exec_loop_far hr htop,
      fun hdone => ⟨_, exec_loop_done hr htop hdone, ?_⟩⟩
    · obtain ⟨honly, hcur⟩ := State.updCur_became hi (f := fun k => (k.updThreads s.executing fun _ t => t.jump (s.target off)).updLevel i
        fun x => { x with counter := c }) fun _ => rfl
      refine ⟨honly, by rw [hcur]; rfl, fun l hl => ?_, fun j hj => ?_⟩
      · rw [hcur, Skein.thread_updLevel]
        exact s.cur.thread_updThreads _ _ _ hl
      · rw [hcur, Skein.level_updLevel _ _ _ hj, Skein.level_updThreads]
    · obtain ⟨honly, hcur⟩ := State.updCur_advance_became hi (f := fun k => k.updLevel i fun x => { x with counter := 0, active := false })
        fun _ => rfl
      refine ⟨honly, by rw [hcur]; rfl, fun j hj => ?_⟩
      rw [hcur, Skein.level_pass, Skein.level_updLevel _ _ _ hj]
  · simp only [lanesOf_const]
    exact s.laneOp_wrote anyEs [] none _ hi rfl rfl hc

/-! ### Address streams (R217, R218) -/

section Streams

variable {s : State} {g : Guard} {n : BitVec 4} {fld : BitVec 3}

/-- One field of a stream written. -/
def Skein.setStream (k : Skein) (n : BitVec 4) (fld : BitVec 3) (x : Lane) : Skein :=
  { k with streams := bankUpd 16 {} k.streams n.toNat fun st => st.setField fld x }

theorem Skein.setStream_getD (k : Skein) (x : Lane) {j : Nat} (hj : j < 16) :
    (k.setStream n fld x).streams.getD j {} =
      if j = n.toNat then (k.streams.getD n.toNat {}).setField fld x else k.streams.getD j {} := by
  refine (bankUpd_getD 16 ({} : Stream) k.streams n.toNat (·.setField fld x) j hj).trans ?_
  split
  · next h => rw [h]
  · rfl

/-- R218: a field of a stream written, and the group moved on. -/
theorem State.setStream_advance (hi : s.Issuing) (x : Lane) :
    let t := (s.updCur fun k => k.setStream n fld x).advance
    s.OnlyCur t ∧ t.cur = { s.moved with streams := t.cur.streams } ∧
      ∀ j, j < 16 → t.cur.streams.getD j {} =
        if j = n.toNat then (s.cur.streams.getD n.toNat {}).setField fld x else s.cur.streams.getD j {} := by
  obtain ⟨honly, hcur⟩ := State.updCur_advance_became hi (f := fun k => k.setStream n fld x) fun _ => rfl
  refine ⟨honly, by rw [hcur]; rfl, fun j hj => ?_⟩
  rw [hcur]
  exact s.cur.setStream_getD x hj

theorem exec_asset_imm {v : BitVec 12} (hok : fld = 6 → v.toNat ≤ 2) (hp : s.anyPass g = true) :
    exec (.asset g n fld (.imm v)) s = .next (s.updCur fun k => k.setStream n fld (v.signExtend 64)).advance := by
  have hbad : (fld == 6 && decide (2 < v.toNat)) = false := by simpa using hok
  show execAsset g n fld (.imm v) s = _
  simp only [execAsset, hp, hbad, if_true]
  rfl

theorem exec_asset_badTag {v : BitVec 12} (hf : fld = 6) (hv : 2 < v.toNat) :
    exec (.asset g n fld (.imm v)) s = .next (s.takeTrap { kind := 1, cause := 0x0A }) := by
  have hbad : (fld == 6 && decide (2 < v.toNat)) = true := by simp [hf, hv]
  show execAsset g n fld (.imm v) s = _
  simp only [execAsset, hbad]
  rfl

variable {a : Reg}

theorem exec_asset_reg {x : Lane} (hc : s.Clear (if fld = 7 then [] else [plain a]) []) (h : s.lowRead g a = some x) :
    exec (.asset g n fld (.reg a)) s = .next (s.updCur fun k => k.setStream n fld x).advance := by
  show execAsset g n fld (.reg a) s = _
  simp only [execAsset, h, hc.ck_extra]
  rfl

theorem exec_asset_unpassed (hc : s.Clear (if fld = 7 then [] else [plain a]) []) (h : s.lowRead g a = none) :
    exec (.asset g n fld (.reg a)) s = .next s.advance := by
  show execAsset g n fld (.reg a) s = _
  simp only [execAsset, h, hc.ck_extra]
  rfl

end Streams

theorem claim_streamFields : Claim.StreamFields := by
  intro g d a n fld v s hi old new out wrote
  have hwrote : ∀ x, wrote (s.updCur fun k => k.setStream n fld x).advance x := State.setStream_advance hi
  have hout : (old.field fld).toNat = out := by
    have htag : (old.tag.setWidth 64).toNat = old.tag.toNat := BitVec.toNat_setWidth_of_le (by decide)
    simp only [Stream.field, out]
    generalize fld.toNat = m
    match m with
    | 0 | 1 | 2 | 3 | 4 | 5 => rfl
    | _ + 6 => exact htag
  refine ⟨fun hok hp => ⟨_, exec_asset_imm hok ((s.anyPass_iff g).mpr hp), hwrote _⟩, exec_asset_badTag,
    fun hc l hl hp hlow => ⟨_, exec_asset_reg hc (State.lowRead_of_lowest hl hp hlow), hwrote _⟩,
    fun hc h => ⟨_, exec_asset_unpassed hc (State.lowRead_of_none h), State.advance_became hi⟩, fun hf hc => ?_, fun hf => ?_⟩
  · simp only [lanesOf_const, ← hout]
    exact s.laneOp_wrote anyEs [] _ _ hi rfl ((illIf_eq_none _ _).mpr (beq_eq_false_iff_ne.mpr hf)) hc
  · exact State.laneOp_range rfl (congrArg (illIf · .range) (beq_iff_eq.mpr hf))

end Sys2Proof.Machine
end

section
/-!
SUPPORT. `rep` (R155, R219, R220): how a repetition begins, the words that it issues, and where its group goes from it.
-/

namespace Sys2Proof.Machine

/-! ### How a repetition begins (R155, R220) -/

section Begin

variable (s : State) (cnt1 : BitVec 6) (step : BitVec 4)

/-- The group goes on with its suspended repeat. -/
def State.resumesRep : Bool := s.cur.susp && (allLanes.all fun l => !s.executing l || (s.cur.thread l).repMark)

theorem State.resumesRep_iff :
    s.resumesRep = true ↔ s.cur.susp = true ∧ ∀ l, l < 32 → s.executing l = true → (s.cur.thread l).repMark = true := by
  simp [State.resumesRep, imp_iff_not_or]

/-- A thread at the instruction after the `rep`, in a run of repetitions from an index on. -/
def Issue.intoRun (i : Issue) (idx : Nat) (t : Thread) : Thread :=
  { t with pc := i.next, clause := some ⟨i.hdr, i.word, i.slot + 1, i.serial, i.body⟩, repMark := false
           rep := some ⟨cnt1.toNat + 1, step, idx, i.pc, i.slot⟩ }

/-- The words of the instruction after the one at hand. -/
def Issue.nextWords (i : Issue) : List Word := wordsAt i.body (bodyIdx i.hdr i.next)

/-- The group begins its run, or goes on with it. -/
def State.beginRun (k : Skein) : Skein :=
  { k.updThreads s.executing fun _ => s.issue.intoRun cnt1 step (if s.resumesRep then s.cur.repNext.toNat else 0) with
    susp := if s.resumesRep then false else k.susp
    repNext := if s.resumesRep then 0 else k.repNext }

theorem exec_rep : exec (.rep cnt1 step) s =
    s.finish (s.ckRep (cnt1.toNat + 1) step s.issue.nextWords) (s.updCur (s.beginRun cnt1 step)) := rfl

variable {s cnt1 step}

theorem exec_rep_checked (h : s.ckRep (cnt1.toNat + 1) step s.issue.nextWords = none) :
    exec (.rep cnt1 step) s = .next (s.updCur (s.beginRun cnt1 step)) := by
  rw [exec_rep, h]
  rfl

theorem State.beginRun_became (hi : s.Issuing) : s.Became (s.updCur (s.beginRun cnt1 step)) (s.beginRun cnt1 step s.cur) :=
  State.updCur_became hi fun _ => rfl

theorem State.beginRun_thread {l : Nat} (hl : l < 32) : (s.beginRun cnt1 step s.cur).thread l =
    if s.executing l then s.issue.intoRun cnt1 step (if s.resumesRep then s.cur.repNext.toNat else 0) (s.cur.thread l)
    else s.cur.thread l :=
  s.cur.thread_updThreads s.executing (fun _ => s.issue.intoRun cnt1 step (if s.resumesRep then s.cur.repNext.toNat else 0)) l hl

/-- R155: a `rep` that is the last of its clause stands in the wrong place, whatever it would repeat. -/
theorem State.ckRep_last {cnt : Nat} {next : List Word} (h : s.issue.last = true) : s.ckRep cnt step next = ill .placement := by
  rw [State.ckRep, h]
  rfl

end Begin

theorem claim_repeatBegins : Claim.RepeatBegins := by
  intro cnt1 step s hi i ws resumes run
  refine ⟨fun hck hfresh => ⟨_, exec_rep_checked hck, ?_⟩, fun hck hresumes => ⟨_, exec_rep_checked hck, ?_⟩, fun hlast => ?_⟩
  · obtain ⟨honly, hcur⟩ := State.beginRun_became (cnt1 := cnt1) (step := step) hi
    have hno : s.resumesRep = false := by rw [← Bool.not_eq_true, s.resumesRep_iff]; exact hfresh
    refine ⟨honly, ?_, fun l hl => ?_⟩
    · rw [hcur, State.beginRun, hno]
      rfl
    · rw [hcur, State.beginRun_thread hl, hno]
      rfl
  · obtain ⟨honly, hcur⟩ := State.beginRun_became (cnt1 := cnt1) (step := step) hi
    have hyes : s.resumesRep = true := s.resumesRep_iff.mpr hresumes
    refine ⟨honly, ?_, fun l hl => ?_⟩
    · rw [hcur, State.beginRun, hyes]
      rfl
    · rw [hcur, State.beginRun_thread hl, hyes]
      rfl
  · rw [exec_rep, State.ckRep_last hlast]
    rfl

/-! ### What a repetition issues (R219) -/

/-- How far a repetition advances a field: by its index where the field is stepped. -/
def stepOf (b : Bool) (idx : Nat) : Nat := if b then idx else 0

/-- A stepped field stays within its six bits. -/
def StepStays (b : Bool) (w : Word) (low idx : Nat) : Prop := b = true → w.toNat / 2 ^ low % 64 + idx < 64

theorem StepStays.lt {b : Bool} {w : Word} {low idx : Nat} (h : StepStays b w low idx) : w.toNat / 2 ^ low % 64 + stepOf b idx < 64 := by
  cases b with
  | false => exact Nat.mod_lt _ (by decide)
  | true => exact h rfl

/-- What is added to a word to advance the field from bit `low` on. -/
theorem toNat_stepOf_shift {b : Bool} {idx low : Nat} (h : stepOf b idx < 64) (hlow : low ≤ 26) :
    (if b then BitVec.ofNat 32 idx <<< low else (0 : Word)).toNat = stepOf b idx * 2 ^ low := by
  cases b with
  | false => exact (Nat.zero_mul _).symm
  | true =>
    have hidx : idx < 64 := h
    have hfit : idx * 2 ^ low < 2 ^ 32 := by
      calc idx * 2 ^ low < 64 * 2 ^ low := Nat.mul_lt_mul_of_pos_right hidx (Nat.two_pow_pos low)
        _ ≤ 64 * 2 ^ 26 := Nat.mul_le_mul_left _ (Nat.pow_le_pow_right (by decide) hlow)
        _ = 2 ^ 32 := by decide
    simp only [if_true, stepOf, BitVec.toNat_shiftLeft, BitVec.toNat_ofNat, Nat.shiftLeft_eq]
    rw [Nat.mod_eq_of_lt (a := idx) (by omega), Nat.mod_eq_of_lt hfit]

/-- What a step adds, as the statement writes it. -/
theorem stepOf_mul (b : Bool) (idx low : Nat) : stepOf b idx * 2 ^ low = if b then idx * 2 ^ low else 0 := by
  rw [stepOf, ite_mul, Nat.zero_mul]

/-- Additions to fields of six bits side by side that stay in their fields stay in the word. -/
theorem add_fields_lt {n d a b : Nat} (hn : n < 2 ^ 32) (hd : n / 2 ^ 19 % 64 + d < 64) (ha : n / 2 ^ 13 % 64 + a < 64)
    (hb : n / 2 ^ 7 % 64 + b < 64) : n + d * 2 ^ 19 + a * 2 ^ 13 + b * 2 ^ 7 < 2 ^ 32 := by
  have htop : n / 2 ^ 19 / 64 < 128 := by omega
  have habove : n / 2 ^ 13 / 64 = n / 2 ^ 19 := Nat.div_div_eq_div_mul _ _ _
  have hbelow : n / 2 ^ 7 / 64 = n / 2 ^ 13 := Nat.div_div_eq_div_mul _ _ _
  omega

section Step

variable {w : Word} {xs : List Word} {step : BitVec 4} {idx : Nat}

/-- Fields that stay within their bits carry nothing out of the first word. -/
theorem toNat_stepFirst (hd : StepStays (step.getLsbD 3) w 19 idx) (ha : StepStays (step.getLsbD 2) w 13 idx)
    (hb : StepStays (step.getLsbD 1) w 7 idx) :
    ((stepWords step idx (w :: xs)).headD 0).toNat =
      w.toNat + stepOf (step.getLsbD 3) idx * 2 ^ 19 + stepOf (step.getLsbD 2) idx * 2 ^ 13 + stepOf (step.getLsbD 1) idx * 2 ^ 7 := by
  have hfit := add_fields_lt w.isLt hd.lt ha.lt hb.lt
  have hd := hd.lt
  have ha := ha.lt
  have hb := hb.lt
  simp only [stepWords, List.headD_cons, BitVec.toNat_add]
  rw [toNat_stepOf_shift (by omega) (by decide), toNat_stepOf_shift (by omega) (by decide), toNat_stepOf_shift (by omega) (by decide)]
  omega

/-- Nor does field c out of the extension word. -/
theorem stepWords_extension {x : Word} {r : List Word} (hc : StepStays (step.getLsbD 0) x 26 idx) :
    ∃ y, (stepWords step idx (w :: x :: r)).drop 1 = y :: r ∧ y.toNat = x.toNat + stepOf (step.getLsbD 0) idx * 2 ^ 26 := by
  have hx := x.isLt
  have hc := hc.lt
  refine ⟨_, rfl, ?_⟩
  rw [BitVec.toNat_add, toNat_stepOf_shift (by omega) (by decide)]
  omega

theorem stepWords_length : (stepWords step idx (w :: xs)).length = xs.length + 1 := by
  cases xs <;> rfl

end Step

/-- The instruction that a thread inside a clause issues. -/
theorem State.plan_inClause {s : State} {k : Skein} {p : Pick} {c : Clause} {h : Header} (hmay : s.mayIssue k = true)
    (hpick : s.pick k = some p) (hclause : ((s.picked k p).thread p.lane).clause = some c) (hhdr : decodeHeader c.word = some h) :
    s.plan k = .go p (mkIssue k p.mask c.hdr c.word h c.body ((s.picked k p).thread p.lane).pc c.slot c.serial
      ((s.picked k p).thread p.lane).rep) := by
  simp only [State.plan, hmay, hpick, hclause, hhdr]
  rfl

/-- The words of an issue in a run of repetitions. -/
theorem mkIssue_words_run (k : Skein) (m : Mask) (hdr pc : Lane) (word : Word) (h : Header) (body : List Word) (slot serial : Nat)
    (run : RepRun) : (mkIssue k m hdr word h body pc slot serial (some run)).words =
      stepWords run.step run.idx (wordsAt body (bodyIdx hdr pc)) := rfl

/-! ### Where a group goes from a repetition (R219) -/

section Past

variable {i : Issue} {run : RepRun} (t : Thread)

/-- Out of the last repetition a group goes as out of an instruction that is not repeated. -/
theorem Issue.past_lastRepetition (h : i.rep = some run) (hlast : run.count ≤ run.idx + 1) : i.past t = { i with rep := none }.past t := by
  simp only [Issue.past, h, if_neg (Nat.not_lt.mpr hlast)]

theorem Issue.past_unrepeated (h : i.rep = none) : (i.past t).rep = none ∧ (i.past t).pc = if i.last then i.follow else i.next := by
  simp only [Issue.past, h]
  cases i.last <;> exact ⟨rfl, rfl⟩

end Past

theorem claim_repetitions : Claim.Repetitions := by
  refine ⟨fun s k p c run h w xs => ?_, fun i run t hrep => ⟨fun hmore => ?_, fun hlast => ?_, fun hlast => ?_⟩⟩
  · intro t hmay hpick hclause hrun hhdr hwords stays by' hd ha hb hc
    have hplan := State.plan_inClause hmay hpick hclause hhdr
    rw [show ((s.picked k p).thread p.lane).rep = some run from hrun] at hplan
    refine ⟨_, hplan, rfl, rfl, rfl, ?_⟩
    have hby : ∀ b low, by' b low = stepOf b run.idx * 2 ^ low := fun b low => (stepOf_mul b run.idx low).symm
    simp only [hby]
    rw [mkIssue_words_run, show wordsAt c.body (bodyIdx c.hdr ((s.picked k p).thread p.lane).pc) = w :: xs from hwords]
    exact ⟨stepWords_length, toNat_stepFirst hd ha hb, fun x r hx => by subst hx; exact stepWords_extension hc⟩
  · simp only [Issue.past, hrep, if_pos hmore]
  · exact Issue.past_lastRepetition t hrep hlast
  · rw [Issue.past_lastRepetition t hrep hlast]
    exact Issue.past_unrepeated t rfl

end Sys2Proof.Machine

/-- Settles O22: each instruction of the loop-nest unit and the streams is a change of its skein and a move, a `rep` that passes its checks
puts its group into a run, and a field that stays within its bits is advanced without a carry. -/
theorem loopsAndStreams : Obligations.LoopsAndStreams :=
  ⟨Sys2Proof.Machine.claim_loopUnit, Sys2Proof.Machine.claim_streamFields, Sys2Proof.Machine.claim_repeatBegins,
    Sys2Proof.Machine.claim_repetitions⟩
end
